-- ==== Sys2Proof/Word.lean ====
section
/-!
DEFINITION. Word.lean: the word types and their plainest arithmetic. Addresses, counts and sizes are `Nat`; register
contents, tide values and encoded fields are bit vectors.
-/
namespace Sys2Proof

/-- One byte. -/
abbrev Byte := BitVec 8
/-- A 32-bit register word (R9). -/
abbrev Word := BitVec 32
/-- A 64-bit value: a tide, a general register, a time stamp. -/
abbrev DWord := BitVec 64

/-- Field `[lo + w - 1 : lo]` of a number (R5). -/
def fieldN (x lo w : Nat) : Nat := (x >>> lo) % 2 ^ w

/-- Field `[lo + w - 1 : lo]` of `x` replaced by `v` modulo `2^w`. -/
def setFieldN (x lo w v : Nat) : Nat :=
  x - (fieldN x lo w) * 2 ^ lo + (v % 2 ^ w) * 2 ^ lo

/-- Bit `i` of a number. -/
def bitN (x i : Nat) : Bool := fieldN x i 1 == 1

/-- A bit as a number. -/
def b2n (b : Bool) : Nat := if b then 1 else 0

/-- `x` with its low `k` bits cleared. -/
def alignDown (x k : Nat) : Nat := x / 2 ^ k * 2 ^ k

/-- Number of set bits among the low `n` bits of `x`. -/
def popN (x : Nat) : Nat → Nat
  | 0 => 0
  | n + 1 => popN x n + b2n (bitN x n)

/-- The positions of the set bits among the low `n` bits of `x`, ascending. -/
def bitList (x n : Nat) : List Nat := (List.range n).filter (bitN x)

/-- Little-endian bytes of `x`, `n` of them (R6). -/
def leBytes (x : Nat) : Nat → List Byte
  | 0 => []
  | n + 1 => BitVec.ofNat 8 x :: leBytes (x / 256) n

/-- The number whose little-endian bytes these are (R6). -/
def leNat : List Byte → Nat
  | [] => 0
  | b :: t => b.toNat + 256 * leNat t

/-- Big-endian bytes of `x`, `n` of them (R6). -/
def beBytes (x n : Nat) : List Byte := (leBytes x n).reverse

/-- The number whose big-endian bytes these are (R6). -/
def beNat (l : List Byte) : Nat := leNat l.reverse

/-- Bytes `off` to `off + n - 1` of a structure, as a little-endian number. -/
def leAt (l : List Byte) (off n : Nat) : Nat := leNat ((l.drop off).take n)

/-- A list cut or padded with zeros to exactly `n` bytes. -/
def padTo (n : Nat) (l : List Byte) : List Byte := l.take n ++ List.replicate (n - l.length) 0

/-- A count that saturates at `m`. -/
def satAt (m x : Nat) : Nat := if x < m then x else m

end Sys2Proof
end

