-- ==== Sys2Proof/Syntax.lean ====
section
/-!
DEFINITION. Syntax.lean: the commands the block takes, and the data they carry.
-/
namespace Sys2Proof

/-- A control message (Tables 14.10 and 14.11): CTYPE, FLAGS, DEV, ARG and TIDE. -/
structure Ctl where
  ctype : Nat
  announce : Bool := false
  refuse : Bool := false
  inexact : Bool := false
  dev : Nat := 0
  buddyV : Bool := false
  arg : Nat := 0
  tide : DWord := 0
deriving DecidableEq, Repr

/-- An Emham packet (Tables 14.1 and 14.2) with the addresses of the datagram that carries it. -/
structure EmhPkt where
  ver : Nat := 1
  op : Nat
  poison : Bool := false
  retx : Bool := false
  path : Nat := 0
  epoch : Nat := 0
  domain : Nat := 0
  sdev : Nat := 0
  ddev : Nat := 0
  dconn : Nat := 0
  sconn : Nat := 0
  psn : Nat := 0
  msn : Nat := 0
  offset : Nat := 0
  mlen : Nat := 0
  rkey : Nat := 0
  raddr : Nat := 0
  rlen : Nat := 0
  payload : List Byte := []
  sip : Nat := 0
  dip : Nat := 0
  sport : Nat := 0
  dport : Nat := 0
  csumOk : Bool := true
  /-- NOTIFY and IMM of the work request: the spec gives them no place in the header (DESIGN CHOICE, log entry 20) -/
  notify : Bool := false
  imm : Nat := 0
deriving DecidableEq, Repr

/-- What an access meets outside the device's rules: link CRC errors on the channel read (R206), and for a bus address the
answer: none where the bus answers Unsupported Request or Completer Abort (R227). -/
structure Mio where
  links : Nat := 0
  bus : Option (List Byte) := none
  /-- the bus's completion came poisoned -/
  poison : Bool := false
deriving DecidableEq, Repr

/-- Where LDT reads from its register's address, and what the access meets. -/
structure BusOff where
  imm : BitVec 12
  io : Mio := {}
deriving DecidableEq, Repr

/-- What a request of an accelerator carries beside its address: its poison, its PASID, which the switch passes through (R294), whether
its Address Type says translated, and the bus number of its requester, as ACS checks them (Table 11.1). -/
structure ReqAttr where
  poison : Bool := false
  pasid : Option Nat := none
  trans : Bool := false
  bus : Nat := 0
deriving DecidableEq, Repr

/-- A register of a function's configuration space that the spec speaks of; any other by its number. -/
inductive CfgReg
  | vendor | command | buses | devCap2 | devCtl2 | acs | dpc | slot | aer | other (n : Nat)
deriving DecidableEq, Repr

/-- A configuration request of the host: type 1 or type 0, the function it names, a register, and the value it writes. -/
structure CfgReq where
  type1 : Bool
  bus : Nat
  dev : Nat
  fn : Nat
  reg : CfgReg
  wr : Option (BitVec 32)
deriving DecidableEq, Repr

/-- What the host configures beside the sizes of requests when HEP's link is up: ASPM of HEP's link (L1, L1.1, L1.2), and
Configuration RRS Software Visibility (R314, R315). -/
structure HostSet where
  aspm : Bool × Bool × Bool := (false, false, false)
  rrs : Bool := false
deriving DecidableEq, Repr

/-- A request that reaches HEP and is not a memory request of one of PF0's BARs (R299): an I/O, locked or atomic request, a
memory request that hits no BAR, a configuration request, a vendor-defined message of type 1. -/
inductive PfReq
  | io | locked | atomic
  | miss
  | cfg (r : CfgReq)
  | vdm1
deriving DecidableEq, Repr

/-- What the module's monitors measure (Table 21.9): millivolts, milliamperes, milliwatts, millijoules; temperatures in
tenths of a degree. -/
structure Sample where
  vin : Nat := 0
  iin : Nat := 0
  pin : Nat := 0
  pin1s : Nat := 0
  energy : Nat := 0
  tCore : Int := 0
  tMpd : List Int := []
  tLd : List Int := []
  tSite : List Int := []
  tInlet : Int := 0
  tVr : Int := 0
deriving DecidableEq, Repr

/-- The commands of the block, one constructor per row of the spec's table of operations and events, in its order. The
table gives a row no bits and no operands: the operands are the model's, each what the rule named decides on. -/
inductive Instr
  /-- REGISTER_WRITE (R10). A write to a register that has no row of its own sets its fields by access code, subject to reserved-encoding and shadow-lock rules. -/
  | registerWrite (off : Nat) (val : Word)
  /-- LO_READ_LATCH (R483). A read of a _LO register that latches its _HI half samples the 64-bit value. -/
  | loReadLatch (off : Nat)
  /-- COMMIT_ARM (R55). A write of 1 to COMMIT.ARM latches the armed tide, locks the shadow bank and arms a commit. -/
  | commitArm (pg : Nat)
  /-- COMMIT_NOW (R56). A write of 1 to COMMIT.NOW commits the shadow bank at once, retiring any pending armed commit. -/
  | commitNow (pg : Nat)
  /-- COMMIT_CANCEL (R56). A write of 1 to COMMIT.CANCEL cancels a pending armed commit and unlocks the shadow bank. -/
  | commitCancel (pg : Nat)
  /-- HCTL_EN_WRITE (R504). A write of CTL.EN gates or ungates a block's acceptance of operations and its clocks. -/
  | hctlEnWrite (pg : Nat) (en : Bool)
  /-- HCTL_FREEZE_WRITE (R505). A write of CTL.FREEZE stops or resumes the block starting queued operations. -/
  | hctlFreezeWrite (pg : Nat) (freeze : Bool)
  /-- HCTL_SAFE_WRITE (R505). A write of CTL.SAFE puts one block into or out of its safe condition, only in slack. -/
  | hctlSafeWrite (pg : Nat) (safe : Bool)
  /-- INT_SET_WRITE (R507). A write to INT_SET or a change of INT_STS can make a block pending and send the GEN vector. -/
  | intSetWrite (pg : Nat) (val : Word)
  /-- TIDE_MARK_MSG (R50). A worker receives a TIDE_MARK control message, checks source and staleness, and applies or holds it. -/
  | tideMarkMsg (src : Nat) (announce : Bool) (tide : DWord)
  /-- MARK_TIMEOUT (R24). No greater tide mark within MARK_TMO after the worker's report makes the worker finish armed work and enter slack. -/
  | markTimeout
  /-- SB_TIDE_EDGE (R50). A filtered level change on SB_TIDE applies the held announcement, or is counted as orphan or overrun. -/
  | sbTideEdge (soon : Bool)
  /-- SB_TIDE_DRIVE (R49). The headland changes the SB_TIDE level no sooner than 20 µs after sending the announcement. -/
  | sbTideDrive
  /-- EDGE_MISS_TIMEOUT (R50). An announcement not followed by an edge within 50 µs is applied and counted in EDGE_MISS_CNT. -/
  | edgeMissTimeout
  /-- TIDE_REPORT_MSG (R44). The headland receives a worker's tide report for the current tide and counts it toward the advance. -/
  | tideReportMsg (src : Nat) (tide : DWord)
  /-- TIDE_ADVANCE (R44). Once TADV is pending and every member has reported, the headland advances the tide and sends tide marks. -/
  | tideAdvance
  /-- REPORT_TIMEOUT (R45). A member's report missing REPORT_TMO after the headland's own makes it record an error and raise an event while waiting. -/
  | reportTimeout (dev : Nat)
  /-- BOUNDARY_APPLY (R60). When the tide reaches a new value and bank-selecting stages are idle, the device applies all armed actions in Table 2.8 order and releases the hold. -/
  | boundaryApply
  /-- DOMAIN_START (R48). The admin command on the headland sends START to every worker and completes when all acknowledge or one refuses. -/
  | domainStart (cid : Nat)
  /-- START_MSG (R48). A worker receives START, leaving start-up slack or refusing, or with REFUSE set returns to start-up slack. -/
  | startMsg (src : Nat) (refuse : Bool) (tide : DWord)
  /-- START_ACK_MSG (R48). The headland receives START_ACK and completes DOMAIN_START when all workers have answered without REFUSE. -/
  | startAckMsg (src : Nat) (refuse : Bool) (tide : DWord)
  /-- DOMAIN_START_TIMEOUT (R48). A worker not answering START within REPORT_TMO makes DOMAIN_START send cancelling STARTs and complete with TIDE_MISMATCH. -/
  | domainStartTimeout
  /-- TIDE_CUR_LO_STAGE (R512). A write to TIDE.CUR_LO goes to the staging word. -/
  | tideCurLoStage (val : Word)
  /-- TIDE_CUR_LOAD (R47). A write to TIDE.CUR_HI loads the tide from it and the staged word, only in slack with no armed commit. -/
  | tideCurLoad (val : Word)
  /-- TIDE_SBT_EN_WRITE (R512). A write to TIDE.CTL.SBT_EN is taken only in slack, otherwise refused with CONFIG_REFUSED. -/
  | tideSbtEnWrite (en : Bool)
  /-- SR_SEED_WRITE (R132). A write to SR_SEED_T or SR_SEED_V loads its random generator between operations. -/
  | srSeedWrite (c : Fin 16) (vec : Bool) (seed : Word)
  /-- EXPERT_JOB_BEGIN (R112). An expert job is accepted into its first engine, checked, and runs the gated sequence on its slice. -/
  | expertJobBegin (c : Fin 16) (i : Nat)
  /-- GATE_JOB_BEGIN (R121). A gate job computes router logits, ranks and selects experts, applies capacity and writes gate records. -/
  | gateJobBegin (c : Fin 16) (i : Nat)
  /-- COMBINE_JOB_BEGIN (R126). A combine job begins once every unit of its SEGMASK is free and starts matching partial notices. -/
  | combineJobBegin (c : Fin 16) (i : Nat)
  /-- CODEBOOK_LOAD_BEGIN (R111). A codebook load job clears the slot's VALID bit and starts copying the image into the slot. -/
  | codebookLoadBegin (c : Fin 16) (i : Nat)
  /-- CODEBOOK_LOAD_DONE (R111). When the whole image is in the slot the load sets VALID, and POISON if any byte was poisoned. -/
  | codebookLoadDone (c : Fin 16) (seq : Nat)
  /-- JOB_END (R106). A cluster job finishes its writes and writes its completion record last. -/
  | jobEnd (c : Fin 16) (seq : Nat)
  /-- SLICE_RECEIVE (R115). A combine unit receives a slice partial of a reduction and, when all c have arrived, sums and writes the segment. -/
  | sliceReceive (i : Nat)
  /-- SLICE_RED_TIMEOUT (R116). A reduction missing slices 1 ms after the first writes its segment poisoned and completes TIMEOUT. -/
  | sliceRedTimeout (rgrp clmask : Nat) (owner : Fin 16)
  /-- PARTIAL_NOTICE (R127). A combine unit accepts or ignores a partial notice, accumulating the weighted partial and finishing tokens. -/
  | partialNotice (i : Nat)
  /-- KV_SELECT_BEGIN (R176). A KV_SELECT job scores candidate page summaries and keeps its best selection. -/
  | kvSelectBegin (c : Fin 16) (i : Nat)
  /-- KV_ATTEND_BEGIN (R180). A KV_ATTEND job computes softmax partials over its pages and merges them. -/
  | kvAttendBegin (c : Fin 16) (i : Nat) (order : List Nat)
  /-- KV_WRITE_BEGIN (R171). A KV_WRITE job rewrites or appends tokens to a page, updates the summary and writes the entry last. -/
  | kvWriteBegin (c : Fin 16) (i : Nat)
  /-- KV_READ_BEGIN (R184). A KV_READ job copies and descales a page's tokens out, releasing the entry if asked. -/
  | kvReadBegin (c : Fin 16) (i : Nat)
  /-- KV_GROUP_RESULT (R167). The lead of a KV group receives a job's result, merges it and writes group outputs when all have arrived. -/
  | kvGroupResult (i : Nat)
  /-- KV_GROUP_TIMEOUT (R168). A KV group missing results 1 ms after the first writes outputs poisoned and completes TIMEOUT. -/
  | kvGroupTimeout (ty rgrp clmask : Nat)
  /-- MAP_LOAD (R135). The admin command on the headland checks a placement image, writes it to every member and arms the switch. -/
  | mapLoad (cid bank : Nat) (t : DWord)
  /-- MAP_ARM_MSG (R135). A worker receives MAP_ARM, arms an EMH commit of XMAP at T and acknowledges. -/
  | mapArmMsg (src gen : Nat) (tide : DWord) (bank : Nat)
  /-- MAP_ACK_MSG (R135). The headland receives a worker's MAP_ACK for the armed map switch. -/
  | mapAckMsg (src gen : Nat) (tide : DWord)
  /-- DISPATCH_JOB_BEGIN (R137). A dispatch job resolves each selection against the map, lists local ones and queues remote messages. -/
  | dispatchJobBegin (i : Nat)
  /-- DISPATCH_SEND (R150). A queued dispatch message is sent once a credit toward its target is available. -/
  | dispatchSend (target : Nat)
  /-- DISPATCH_JOB_COMPLETE (R141). A dispatch job writes its record when every message it sent is delivered, re-dispatched or failed. -/
  | dispatchJobComplete (seq : Nat)
  /-- DISPATCH_MSG (R145). A home device accepts a dispatch message into a landing slot and writes an arrival record, or refuses it. -/
  | dispatchMsg (conn msn : Nat) (head body : List Byte) (poison : Bool)
  /-- RETURN_JOB_BEGIN (R147). A return job sends one RETURN per selected selection of an arrival, or places local partials. -/
  | returnJobBegin (i : Nat)
  /-- RETURN_JOB_COMPLETE (R147). A return job writes its record and frees the slot on RELEASE once every message is delivered or failed. -/
  | returnJobComplete (seq : Nat)
  /-- RETURN_MSG (R154). The origin checks a RETURN against open selections, places the body and posts a partial notice, or discards it. -/
  | returnMsg (conn msn : Nat) (head body : List Byte) (poison : Bool)
  /-- REFUSE_MSG (R156). The origin receives REFUSE, takes its credit and declares the target unreachable for that message. -/
  | refuseMsg (conn : Nat) (head : List Byte)
  /-- CREDIT_MSG (R149). An origin adds the CREDIT field of a CREDIT message to its count for the sender. -/
  | creditMsg (conn : Nat) (head : List Byte)
  /-- CREDIT_TIMEOUT (R149). Credit owed for 2 µs without a carrying message is sent in a CREDIT message. -/
  | creditTimeout (dev : Nat)
  /-- XDISP_TIMEOUT (R156). A dispatch waiting longer than XDISP_TMO makes its target unreachable and enter the down set. -/
  | xdispTimeout (id : Nat)
  /-- XRET_TIMEOUT (R156). A selection unreturned XRET_TMO after delivery makes its target unreachable and enter the down set. -/
  | xretTimeout (id : Nat)
  /-- XDOWN_CLEAR (R159). A write of 1 to XDOWNn.VALID removes a device from the down set. -/
  | xdownClear (n : Fin 16)
  /-- DMAK (R238). The DMAK instruction loads an image into a DMA engine's shadow set and posts it, or returns busy. -/
  | dmak (core : Fin 37) (cond : BitVec 4) (d a b : BitVec 5) (answered : Bool)
  /-- DMA_SET_START (R256). A posted set moves into the active set when the engine is free and starts its transfer. -/
  | dmaSetStart (n : Fin 64)
  /-- DMA_READBACK (R259). When all write acknowledgements of a reporting image are in, the engine issues its read-backs. -/
  | dmaReadback (n : Fin 64)
  /-- DMA_IMAGE_REPORT (R259). When every read-back has returned, the engine writes the record, updates LAST registers and raises interrupts. -/
  | dmaImageReport (n : Fin 64)
  /-- DMA_CONTINUE (R257). After an image with NEXT completes OK and its local writes finish, the engine reads and starts the continuation. -/
  | dmaContinue (n : Fin 64)
  /-- DMA_REQUEST_TIMEOUT (R261). A DMA request unanswered for 1 ms ends the image with TIMEOUT. -/
  | dmaRequestTimeout (n : Fin 64) (elem addr : Nat)
  /-- DMA_BUS_COMPLETION (R300). A completion piece for a DMA bus read is placed, or discarded as late. -/
  | dmaBusCompletion (n : Fin 64) (elem off : Nat) (data : List Byte) (poison err : Bool)
  /-- DMA_STOP (R262). A write of 1 to STOP.STOP ends the active image after the element in progress with STOPPED. -/
  | dmaStop (n : Fin 64)
  /-- DMA_DISCARD (R262). A write of 1 to STOP.DISCARD unposts and unlocks the shadow set and cancels an armed post. -/
  | dmaDiscard (n : Fin 64)
  /-- LOAD_GO (R267). A write of 1 to FWR.LOAD_CTL.GO starts verification of the staged firmware image. -/
  | loadGo
  /-- IMAGE_VERIFIED (R267). When SEC0 has verified the image, the loader copies it to slot A and starts the service cores, or sets FAILED. -/
  | imageVerified (sigOk : Bool)
  /-- FIRMWARE_RUNNING (R267). The firmware enables ring pair 0 and sets STATE to RUNNING. -/
  | firmwareRunning
  /-- ADMIN_GO (R513). A write of 1 to LOAD_CTL.ADMIN_GO while RUNNING re-enables ring pair 0 from the ADMIN registers. -/
  | adminGo
  /-- SQ_TAIL_WRITE (R270). A write of SQ_TAIL makes new submission entries available, or stops the pair on a bad tail. -/
  | sqTailWrite (q : Fin 256) (val : Word)
  /-- CQ_HEAD_WRITE (R271). A write of CQ_HEAD frees completion space, or stops the pair on a bad head. -/
  | cqHeadWrite (q : Fin 256) (val : Word)
  /-- COMMAND_FETCH (R272). The firmware fetches the next command from an SQ with CQ space reserved and begins it. -/
  | commandFetch (q : Fin 256)
  /-- NEGOTIATE (R274). The admin command agrees interface version and features and starts the lease. -/
  | negotiate (cid : Nat)
  /-- RESUME (R283). The admin command restarts the expired lease after a renewal and takes the device out of lease slack. -/
  | resume (cid : Nat)
  /-- CREATE_RINGS (R268). The admin command creates ring pair 1-255 for the driver or a cove. -/
  | createRings (cid pair sqBase sqLog cqBase cqLog vec : Nat) (owner : Option Nat)
  /-- DELETE_RINGS (R270). The admin command deletes a ring pair and clears its error. -/
  | deleteRings (cid pair : Nat)
  /-- CONFIG_DOMAIN (R20). The admin command sets domain, device number, role and exchange settings while in slack. -/
  | configDomain (cid domain dev headDev : Nat) (members : List Nat) (xland xslot xarr xarrSize xcredit : Nat)
  /-- SET_LAYOUT (R36). The admin command applies a new pool layout in slack or refuses it with INVALID_LAYOUT. -/
  | setLayout (cid : Nat) (w k sn b c : Nat × Nat)
  /-- BUDDY_RING (R431). The admin command on the headland offers buddy assignments to every member and arms the new ring. -/
  | buddyRing (cid : Nat)
  /-- FW_UPDATE (R276). The admin command verifies a staged image, copies it to the idle slot and arms or makes the handover. -/
  | fwUpdate (cid : Nat)
  /-- UPDATE_CONFIRM (R279). The new image confirms its health, completes FW_UPDATE OK and posts FW_CHANGED. -/
  | updateConfirm
  /-- UPDATE_CONFIRM_TIMEOUT (R280). No confirmation within 500 ms makes the watchdog stop the new image and the old image resume. -/
  | updateConfirmTimeout
  /-- GET_DUMP (R288). The admin command copies a stored crash dump to the buffer. -/
  | getDump (cid : Nat)
  /-- LOG_CFG (R289). The admin command sets up the firmware log ring. -/
  | logCfg (cid base log : Nat)
  /-- POWER_CAP (R290). The admin command sets the driver's power cap. -/
  | powerCap (cid : Nat)
  /-- GET_SENSORS (R532). The ring command writes the sensor record to the buffer. -/
  | getSensors (q : Fin 256) (cid : Nat) (smp : Sample)
  /-- LAUNCH_SQ (R327). The command measures code and launches one of the pair's cove's sequencers. -/
  | launchSq (q : Fin 256) (cid : Nat) (sq : Fin 32)
  /-- STOP_SQ (R244). The command stops a sequencer and writes its state image. -/
  | stopSq (q : Fin 256) (cid : Nat) (sq : Fin 32)
  /-- LEASE_RENEW (R281). A write of 1 to FWR.LEASE.RENEW restarts the lease countdown. -/
  | leaseRenew
  /-- LEASE_EXPIRED (R282). The countdown reaching zero stops fetching except on pair 0 and brings slack at the next boundary. -/
  | leaseExpired
  /-- WATCHDOG_EXPIRY (R284). A service core unkicked for 40 ms has crashed; another core dumps, reloads and restarts it. -/
  | watchdogExpiry (core : Fin 5) (during : Bool) (old : Nat) (handling : Bool)
  /-- POWER_LOOP_PERIOD (R291). Each millisecond the power loop compares input power with the cap and sets the clock level. -/
  | powerLoopPeriod (watts watts1s vin : Nat) (step : Fin 5)
  /-- THERMAL_LOOP_PERIOD (R291). Every 10 ms the thermal loop sets a ceiling on the clock level from temperatures. -/
  | thermalLoopPeriod (smp : Sample) (ceil : Fin 64)
  /-- PWR_HOLD_DROP (R292). While SV1 is not running its loops, power above the cap by 10 % for 2 ms lowers the level by 8. -/
  | pwrHoldDrop (watts : Nat)
  /-- ALU (R234). An integer ALU instruction computes its function and optionally sets flags. -/
  | alu (core : Fin 37) (cond : BitVec 4) (d a b : BitVec 5) (fn : BitVec 7)
  /-- FPU (R235). An FP64 instruction computes its function under IEEE 754. -/
  | fpu (core : Fin 37) (cond : BitVec 4) (d a b : BitVec 5) (fn : BitVec 7)
  /-- ADDI (R225). ADDI adds a signed immediate, keeping address tags within their bound. -/
  | addi (core : Fin 37) (cond : BitVec 4) (d a : BitVec 5) (imm : BitVec 12)
  /-- ANDI (R219). ANDI ANDs a register with an immediate. -/
  | andi (core : Fin 37) (cond : BitVec 4) (d a : BitVec 5) (imm : BitVec 12)
  /-- ORI (R219). ORI ORs a register with an unsigned immediate. -/
  | ori (core : Fin 37) (cond : BitVec 4) (d a : BitVec 5) (imm : BitVec 12)
  /-- XORI (R219). XORI XORs a register with an unsigned immediate. -/
  | xori (core : Fin 37) (cond : BitVec 4) (d a : BitVec 5) (imm : BitVec 12)
  /-- SHI (R219). SHI shifts or rotates a register by an immediate amount. -/
  | shi (core : Fin 37) (cond : BitVec 4) (d a : BitVec 5) (imm : BitVec 12)
  /-- CMPI (R234). CMPI sets flags from a register minus an immediate. -/
  | cmpi (core : Fin 37) (cond : BitVec 4) (d a : BitVec 5) (imm : BitVec 12)
  /-- MOVI (R219). MOVI loads a 17-bit immediate as INT. -/
  | movi (core : Fin 37) (cond : BitVec 4) (d : BitVec 5) (imm : BitVec 17)
  /-- MOVS (R219). MOVS shifts a register left 16 and ORs in an immediate. -/
  | movs (core : Fin 37) (cond : BitVec 4) (d : BitVec 5) (imm : BitVec 17)
  /-- LDB (R227). LDB loads one byte zero-extended, after tag, bound, alignment and access checks. -/
  | ldb (core : Fin 37) (cond : BitVec 4) (d a : BitVec 5) (imm : BitVec 12) (io : Mio)
  /-- LDH (R227). LDH loads two bytes zero-extended. -/
  | ldh (core : Fin 37) (cond : BitVec 4) (d a : BitVec 5) (imm : BitVec 12) (io : Mio)
  /-- LDW (R227). LDW loads four bytes zero-extended. -/
  | ldw (core : Fin 37) (cond : BitVec 4) (d a : BitVec 5) (imm : BitVec 12) (io : Mio)
  /-- LDD (R227). LDD loads eight bytes. -/
  | ldd (core : Fin 37) (cond : BitVec 4) (d a : BitVec 5) (imm : BitVec 12) (io : Mio)
  /-- LDBS (R227). LDBS loads one byte sign-extended. -/
  | ldbs (core : Fin 37) (cond : BitVec 4) (d a : BitVec 5) (imm : BitVec 12) (io : Mio)
  /-- LDHS (R227). LDHS loads two bytes sign-extended. -/
  | ldhs (core : Fin 37) (cond : BitVec 4) (d a : BitVec 5) (imm : BitVec 12) (io : Mio)
  /-- LDWS (R227). LDWS loads four bytes sign-extended. -/
  | ldws (core : Fin 37) (cond : BitVec 4) (d a : BitVec 5) (imm : BitVec 12) (io : Mio)
  /-- STB (R227). STB stores one byte of a register, discarding its tag. -/
  | stb (core : Fin 37) (cond : BitVec 4) (d a : BitVec 5) (imm : BitVec 12)
  /-- STH (R227). STH stores two bytes of a register. -/
  | sth (core : Fin 37) (cond : BitVec 4) (d a : BitVec 5) (imm : BitVec 12)
  /-- STW (R227). STW stores four bytes of a register. -/
  | stw (core : Fin 37) (cond : BitVec 4) (d a : BitVec 5) (imm : BitVec 12)
  /-- STD (R227). STD stores eight bytes of a register. -/
  | std (core : Fin 37) (cond : BitVec 4) (d a : BitVec 5) (imm : BitVec 12)
  /-- LOAD_TIMEOUT (R227). A load unanswered for 1 ms gives POISON and writes a deferred record. -/
  | loadTimeout (core : Fin 37) (cond : BitVec 4) (op : Fin 10) (d a : BitVec 5) (imm : BitVec 12)
  /-- LDC (R229). LDC reads a sealed image and loads value and tag if the seal matches, else traps SEAL. -/
  | ldc (core : Fin 37) (cond : BitVec 4) (d a : BitVec 5) (imm : BitVec 12) (io : Mio)
  /-- STC (R229). STC writes a sealed 16-byte image of a register. -/
  | stc (core : Fin 37) (cond : BitVec 4) (d a : BitVec 5) (imm : BitVec 12)
  /-- AMO (R231). AMO performs a 64-bit atomic on an aligned word at its storage controller. -/
  | amo (core : Fin 37) (cond : BitVec 4) (d a b : BitVec 5) (fn : BitVec 7) (io : Mio)
  /-- FENCE (R231). FENCE waits until every earlier access of the core has completed. -/
  | fence (core : Fin 37) (cond : BitVec 4)
  /-- WAITNE (R233). WAITNE waits while a word equals a value, up to its time limit, then loads it and sets Z. -/
  | waitne (core : Fin 37) (cond : BitVec 4) (d a b : BitVec 5) (fn : BitVec 7) (io : Mio)
  /-- B (R233). B branches relative to itself within the bound of the program counter. -/
  | b (core : Fin 37) (cond : BitVec 4) (imm : BitVec 22)
  /-- JAL (R233). JAL writes the return CODE to g30 and branches. -/
  | jal (core : Fin 37) (cond : BitVec 4) (imm : BitVec 22)
  /-- JR (R233). JR jumps to a CODE register, optionally saving the return CODE. -/
  | jr (core : Fin 37) (cond : BitVec 4) (d a : BitVec 5)
  /-- TGET (R222). TGET returns the tag number of a register as INT. -/
  | tget (core : Fin 37) (cond : BitVec 4) (d a : BitVec 5)
  /-- TTST (R222). TTST sets T when a register's tag equals a given tag. -/
  | ttst (core : Fin 37) (cond : BitVec 4) (a b : BitVec 5)
  /-- MKT (R222). MKT makes a TIDE value from an INT. -/
  | mkt (core : Fin 37) (cond : BitVec 4) (d a : BitVec 5)
  /-- TINT (R222). TINT makes an INT from a TIDE, HNDL or FP64 value bit for bit. -/
  | tint (core : Fin 37) (cond : BitVec 4) (d a : BitVec 5)
  /-- MKH (R223). MKH makes a HNDL from an INT, trapping on reserved layouts. -/
  | mkh (core : Fin 37) (cond : BitVec 4) (d a : BitVec 5)
  /-- ADDR (R223). ADDR extracts the ADDR field of an address tag as INT. -/
  | addr (core : Fin 37) (cond : BitVec 4) (d a : BitVec 5)
  /-- NARROW (R224). NARROW lowers an address value's bound exponent, trapping on widening. -/
  | narrow (core : Fin 37) (cond : BitVec 4) (d a b : BitVec 5)
  /-- RDONLY (R224). RDONLY clears the write permission of an address value. -/
  | rdonly (core : Fin 37) (cond : BitVec 4) (d a : BitVec 5)
  /-- LDG (R230). LDG loads a grant-table entry with its tag if valid, setting T. -/
  | ldg (core : Fin 37) (cond : BitVec 4) (d a : BitVec 5)
  /-- TCUR (R239). TCUR returns the current tide tagged TIDE. -/
  | tcur (core : Fin 37) (cond : BitVec 4) (d : BitVec 5)
  /-- TWAIT (R236). TWAIT stalls the sequencer until the current tide reaches its operand. -/
  | twait (core : Fin 37) (cond : BitVec 4) (a : BitVec 5)
  /-- TWATCH (R236). TWATCH sets the watch tide of condition TRCH. -/
  | twatch (core : Fin 37) (cond : BitVec 4) (a : BitVec 5)
  /-- TREP (R236). TREP waits for the core's writes and records its done for the current tide. -/
  | trep (core : Fin 37) (cond : BitVec 4) (a : BitVec 5)
  /-- TADV (R236). TADV on the headland requests the advance to a greater tide. -/
  | tadv (core : Fin 37) (cond : BitVec 4) (a : BitVec 5)
  /-- CLK (R485). CLK returns the TRCLK timestamp counter. -/
  | clk (core : Fin 37) (cond : BitVec 4) (d : BitVec 5)
  /-- JOB (R237). JOB enters a copy of a cluster job descriptor into the cluster queue, or reports full. -/
  | job (core : Fin 37) (cond : BitVec 4) (d a : BitVec 5)
  /-- GATE (R237). GATE enters a gate job into the cluster queue. -/
  | gate (core : Fin 37) (cond : BitVec 4) (d a : BitVec 5)
  /-- DISP (R237). DISP enters a dispatch or return job into the exchange unit's queue. -/
  | disp (core : Fin 37) (cond : BitVec 4) (d a : BitVec 5)
  /-- NOTE (R237). NOTE posts a partial notice to every combine unit of the device. -/
  | note (core : Fin 37) (cond : BitVec 4) (a : BitVec 5)
  /-- SYS (R241). SYS traps SYSCALL; the firmware serves the service number and resumes the sequencer. -/
  | sys (core : Fin 37) (cond : BitVec 4) (imm : BitVec 12)
  /-- TRCP (R486). TRCP emits a trace-point record with a value when traced. -/
  | trcp (core : Fin 37) (cond : BitVec 4) (a : BitVec 5) (imm : BitVec 12)
  /-- BRK (R241). BRK traps BREAK and leaves the sequencer stopped for the debugger. -/
  | brk (core : Fin 37) (cond : BitVec 4)
  /-- MINT (R224). MINT gives a value any non-reserved tag at privilege P. -/
  | mint (core : Fin 37) (cond : BitVec 4) (d a b : BitVec 5)
  /-- LDT (R224). LDT loads a 16-byte value and tag image at privilege P. -/
  | ldt (core : Fin 37) (cond : BitVec 4) (d a : BitVec 5) (off : BusOff)
  /-- STT (R232). STT stores a register as a 16-byte value and tag image. -/
  | stt (core : Fin 37) (cond : BitVec 4) (d a : BitVec 5) (imm : BitVec 12)
  /-- CSRR (R232). CSRR reads a control register. -/
  | csrr (core : Fin 37) (cond : BitVec 4) (d : BitVec 5) (imm : BitVec 12)
  /-- CSRW (R232). CSRW writes a control register. -/
  | csrw (core : Fin 37) (cond : BitVec 4) (a : BitVec 5) (imm : BitVec 12)
  /-- ERET (R242). ERET clears IN_TRAP and returns to the saved program counter. -/
  | eret (core : Fin 37) (cond : BitVec 4)
  /-- LAUNCH (R243). LAUNCH stops a sequencer, loads a launch image and starts it at entry 0. -/
  | launch (core : Fin 37) (cond : BitVec 4) (a b : BitVec 5) (answered : Bool)
  /-- SQCTL_STOP (R244). SQCTL FN 0 stops a sequencer after its current instruction. -/
  | sqctlStop (core : Fin 37) (cond : BitVec 4) (a : BitVec 5)
  /-- SQCTL_RESUME (R244). SQCTL FN 1 resumes a stopped sequencer. -/
  | sqctlResume (core : Fin 37) (cond : BitVec 4) (a : BitVec 5)
  /-- SQCTL_STATE (R244). SQCTL FN 2 writes the state image of a stopped sequencer. -/
  | sqctlState (core : Fin 37) (cond : BitVec 4) (a b : BitVec 5)
  /-- BAR0_REQUEST (R296). A host request to BAR0 or BAR2 is served only for aligned 4- or 8-byte accesses. -/
  | bar0Request (bar2 wr : Bool) (off size : Nat) (data : List Byte)
  /-- BAR4_REQUEST (R297). A host request to BAR4 is translated through B4_BASE and served or refused. -/
  | bar4Request (wr : Bool) (off size : Nat) (data : List Byte) (poison : Bool)
  /-- PF0_UNSUPPORTED_REQUEST (R299). An I/O, locked, atomic or unmatched request to PF0 is answered Unsupported Request. -/
  | pf0UnsupportedRequest (wr : Bool) (r : PfReq)
  /-- ACCELERATOR_REQUEST (R303). An accelerator memory request is offered to WIN and claimed or routed by switch rules. -/
  | acceleratorRequest (port : Fin 8) (wr : Bool) (addr size : Nat) (data : List Byte) (attr : ReqAttr)
  /-- FUNCTION_LEVEL_RESET (R308). An FLR of PF0 silences DMA, deletes driver rings, expires the lease and resets configuration. -/
  | functionLevelReset
  /-- FLR_COMPLETE (R308). The FLR completes and PF0 answers configuration requests again. -/
  | flrComplete
  /-- BUS_MASTER_CLEAR (R309). Clearing PF0 Bus Master Enable stops requests and ends bus DMA images. -/
  | busMasterClear (mse : Bool)
  /-- AP_BUS_MASTER_WRITE (R310). A change of an AP bridge's Bus Master Enable makes WIN claim or stop claiming from that port. -/
  | apBusMasterWrite (port : Fin 8) (bme : Bool) (win : Nat × Nat) (acs : Nat)
  /-- HEP_LINK_DOWN (R311). HEP link down or hot reset acts as an FLR, takes AP links down and ends host reads. -/
  | hepLinkDown
  /-- AP_LINK_DOWN (R312). An AP link going down answers outstanding requests, drops writes and reports surprise down. -/
  | apLinkDown (port : Fin 8)
  /-- LINK_L1_IDLE (R314). A port idle for L1_IDLE µs enters L1 or its substates. -/
  | linkL1Idle (port : Fin 9) (sub : Fin 3)
  /-- COVE_MODE_WRITE (R328). A write of COV.MODE.FIXED sets the allocation mode only while no cove exists. -/
  | coveModeWrite (fixed : Bool)
  /-- COVE_CREATE (R329). The admin command creates a cove from a configuration record. -/
  | coveCreate (cid : Nat)
  /-- COVE_DESTROY (R335). The admin command resets a cove and releases its resources. -/
  | coveDestroy (cid : Nat)
  /-- COVE_RESIZE (R330). The admin command reserves a cove's new resource set and applies it at the armed boundary. -/
  | coveResize (cid : Nat)
  /-- COVE_RESIZE_COMPLETE (R331). A resize completes once work begun before its boundary on removed resources has ended. -/
  | coveResizeComplete (n : Fin 64)
  /-- COVE_RESET (R333). The admin command marks a cove RESETTING and purges its work within 1 ms. -/
  | coveReset (cid : Nat)
  /-- COVE_PURGE_DEADLINE (R333). At 1 ms unanswered requests of the cove are treated as answered and the reset completes. -/
  | covePurgeDeadline (n : Fin 64)
  /-- COVE_FREEZE (R336). The admin command stops a cove's sequencers, ring fetching and new work. -/
  | coveFreeze (cid : Nat)
  /-- COVE_FREEZE_COMPLETE (R336). When accepted work has ended the cove becomes FROZEN and the command completes. -/
  | coveFreezeComplete (n : Fin 64)
  /-- COVE_THAW (R337). The admin command returns a frozen cove to ACTIVE. -/
  | coveThaw (cid : Nat)
  /-- COVE_SAVE (R338). The admin command writes a frozen cove's save image. -/
  | coveSave (cid : Nat)
  /-- COVE_RESTORE (R340). The admin command checks a save image and loads it onto a frozen target cove. -/
  | coveRestore (cid : Nat)
  /-- COVE_QUERY (R332). The command returns a cove's configuration. -/
  | coveQuery (q : Fin 256) (cid : Nat)
  /-- FRAME_RECEIVE (R345). A MAC receives a frame, drops bad or over-budget frames, and passes it to the parser and classifier. -/
  | frameReceive (port : Fin 8) (len : Nat) (bytes : List Byte) (emh : Option EmhPkt) (fcsOk fecOk : Bool) (corr : Nat)
  /-- PACKET_DELIVER (R354). A packet leaving the reorder stage is policed and delivered to EMH, NVT or a host queue, or dropped. -/
  | packetDeliver (i : Nat) (desc : List Byte)
  /-- RULE_INSTALL (R351). A write to RULE_W15 installs the staged rule into RULE_IDX in one step. -/
  | ruleInstall (val : Word)
  /-- PORT_MODE_WRITE (R344). A write of NET.PORT_MODE is applied in slack with link retraining, else refused. -/
  | portModeWrite (val : Word)
  /-- PORT_EN_WRITE (R344). A write of PORT_EN enables ports or takes a link down after its current frame. -/
  | portEnWrite (val : Word)
  /-- NET_LINK_CHANGE (R385). A network link goes down or up, affecting queues, paths and events. -/
  | netLinkChange (port : Fin 8) (up : Bool)
  /-- TSQ_SEND (R358). The scheduler selects an eligible frame, charges shapers and sends it, or loops it to the host. -/
  | tsqSend (q : Fin 4096) (head : List Byte)
  /-- SOUNDING_SWEEP (R362). Every PERIOD µs TSQ writes sounding records for a queue range, or counts a miss. -/
  | soundingSweep
  /-- HNQ_CFG_EN_WRITE (R367). Setting HNQ_CFG.EN enables a host network queue pair and zeroes its heads and tails. -/
  | hnqCfgEnWrite (val : Word)
  /-- HNQ_TX_TAIL_WRITE (R368). A write of HNQ_TX_TAIL posts transmit descriptors to fetch. -/
  | hnqTxTailWrite (val : Word)
  /-- HNQ_TX_FETCH (R368). The device reads a host transmit frame, classifies it as from port 15 and writes its descriptor back. -/
  | hnqTxFetch (n : Fin 64) (desc bytes : List Byte) (emh : Option EmhPkt) (poison fail : Bool)
  /-- HNQ_RX_TAIL_WRITE (R369). A write of HNQ_RX_TAIL posts receive buffers. -/
  | hnqRxTailWrite (val : Word)
  /-- CONN_LISTEN (R375). CONN_CMD LISTEN puts a closed or failed context in LISTEN. -/
  | connListen (conn : Fin 65536)
  /-- CONN_OPEN (R375). CONN_CMD OPEN bumps EPOCH, zeroes sequence state and starts sending CONNECT. -/
  | connOpen (conn : Fin 65536)
  /-- CONN_CLOSE (R375). CONN_CMD CLOSE drains and closes a context, or closes it at once. -/
  | connClose (conn : Fin 65536)
  /-- CONN_RESET (R375). CONN_CMD RESET sends RESET, aborts fetched requests and closes the context. -/
  | connReset (conn : Fin 65536)
  /-- CONN_REPOINT (R375). CONN_CMD REPOINT re-reads the peer and path fields of a context. -/
  | connRepoint (conn : Fin 65536)
  /-- CONNECT_PKT (R375). A context receives CONNECT and accepts it or discards it. -/
  | connectPkt (port : Nat) (k : EmhPkt)
  /-- ACCEPT_PKT (R375). An initiator receives ACCEPT and becomes ESTABLISHED. -/
  | acceptPkt (port : Nat) (k : EmhPkt)
  /-- CLOSE_PKT (R375). A context receives CLOSE, ends its requests with PEER_RESET and closes. -/
  | closePkt (port : Nat) (k : EmhPkt)
  /-- RESET_PKT (R375). A context receives RESET, ends its requests with PEER_RESET and fails. -/
  | resetPkt (port : Nat) (k : EmhPkt)
  /-- OPEN_TIMEOUT (R375). A CONNECT unaccepted for NR.MAX_MS puts the context in FAILED. -/
  | openTimeout (conn : Fin 65536)
  /-- CONNECT_RETRY (R375). A connecting context resends CONNECT every RTO. -/
  | connectRetry (conn : Fin 65536)
  /-- SQ_DB_WRITE (R378). A write of EMH.SQ_DB posts work requests on a context. -/
  | sqDbWrite (conn : Fin 65536) (tail : Fin 4096)
  /-- WORK_REQUEST_FETCH (R378). The device fetches and copies a work request and starts its WRITE or READ. -/
  | workRequestFetch (conn : Fin 65536)
  /-- DATA_PACKET (R386). A receiver validates and places an Emham data packet's payload, answering NAK where needed. -/
  | dataPacket (port : Nat) (k : EmhPkt)
  /-- ACK_PKT (R382). A sender receives an ACK, retires PSNs, fast-retransmits past DUPTHR and completes requests. -/
  | ackPkt (port : Nat) (k : EmhPkt)
  /-- ACK_SEND (R381). A receiver sends an ACK within 1 µs of a data packet or after 4 data packets. -/
  | ackSend (conn : Fin 65536)
  /-- NAK_PKT (R383). A sender receives a NAK and schedules a resend or ends the request. -/
  | nakPkt (port : Nat) (k : EmhPkt)
  /-- NAK_RESEND (R383). DELAY µs after PAGE_WAIT, RNR or NOT_READY the sender resends the PSN. -/
  | nakResend (conn : Fin 65536) (psn : Nat)
  /-- NOT_READY_TIMEOUT (R383). RNR or NOT_READY lasting NR.MAX_MS completes the request with NOT_READY_TMO. -/
  | notReadyTimeout (conn : Fin 65536) (msn : Nat)
  /-- PAGE_TIMEOUT (R391). PAGE_WAITs lasting PW.MAX_MS complete the request with PAGE_TIMEOUT. -/
  | pageTimeout (conn : Fin 65536) (msn : Nat)
  /-- RTO_EXPIRY (R382). A PSN unacknowledged for RTO is retransmitted on another path or fails the context. -/
  | rtoExpiry (conn : Fin 65536) (psn : Nat)
  /-- PROBE_TIMER (R385). Every PROBE.US a down path is sent a PROBE. -/
  | probeTimer (conn : Fin 65536) (path : Fin 8)
  /-- PROBE_PKT (R385). A receiver answers PROBE with PROBE_ACK. -/
  | probePkt (port : Nat) (k : EmhPkt)
  /-- PROBE_ACK_PKT (R385). A PROBE_ACK brings a path up and posts PATH_UP. -/
  | probeAckPkt (port : Nat) (k : EmhPkt)
  /-- SEND_STALL_RECHECK (R392). Every PW.DELAY_US a send queue stalled on a local page rechecks it, up to PW.MAX_MS. -/
  | sendStallRecheck (conn : Fin 65536) (expired : Bool)
  /-- REG_OPEN (R388). REG_CMD OPEN opens a remote memory region or refuses it. -/
  | regOpen
  /-- REG_CLOSE (R390). REG_CMD CLOSE sets a region CLOSING; it becomes FREE when validated messages end. -/
  | regClose
  /-- REGION_CLOSE_TIMEOUT (R390). Validated messages incomplete CLOSE_MS after the close are discarded. -/
  | regionCloseTimeout (i : Fin 4096)
  /-- NVME_ICREQ (R398). The target receives ICReq and agrees digests and HPDA. -/
  | nvmeIcreq (conn hpda maxr2t : Nat) (hd dd : Bool)
  /-- TCP_CONNECT_ATTEMPT (R413). A TCP connection attempt is accepted, or reset and counted while the target is OFF. -/
  | tcpConnectAttempt (conn port : Nat) (disc : Bool)
  /-- NVME_CONNECT (R403). A Connect command creates a controller or queue, or is refused. -/
  | nvmeConnect (conn cid qid sqsize kato host cntlid : Nat)
  /-- NVME_READ (R407). A Read returns blocks from the cache or via the cache from the SSD. -/
  | nvmeRead (conn cid nsid slba nlb : Nat)
  /-- NVME_WRITE (R404). A Write reserves cache space, requests data and completes when blocks are cached, or with FUA on the SSD. -/
  | nvmeWrite (conn cid nsid slba nlb : Nat) (fua digestOk : Bool) (data : List Byte)
  /-- NVME_FLUSH (R409). A Flush completes when every covered write is destaged and the SSDs have flushed. -/
  | nvmeFlush (conn cid nsid : Nat)
  /-- NVME_WRITE_ZEROES (R407). A Write Zeroes passes through the cache like a write. -/
  | nvmeWriteZeroes (conn cid nsid slba nlb : Nat)
  /-- NVME_DATASET_MANAGEMENT (R407). A deallocate passes through the cache and the blocks read as zeros. -/
  | nvmeDatasetManagement (conn cid nsid : Nat) (dealloc : Bool) (ranges : List (Nat × Nat))
  /-- NVME_ABORT (R412). An Abort aborts a command not yet begun, else reports not aborted. -/
  | nvmeAbort (conn cid sqid target : Nat)
  /-- NVME_IDENTIFY (R414). The admin command Identify returns identification data. -/
  | nvmeIdentify (conn cid nsid cns : Nat)
  /-- NVME_GET_LOG_PAGE (R414). The admin command Get Log Page returns a log. -/
  | nvmeGetLogPage (conn cid lid len : Nat)
  /-- NVME_GET_FEATURES (R414). The admin command Get Features returns a feature value. -/
  | nvmeGetFeatures (conn cid fid : Nat)
  /-- NVME_SET_FEATURES (R414). The admin command Set Features sets a feature in the modes that allow it. -/
  | nvmeSetFeatures (conn cid fid val : Nat)
  /-- NVME_POWER_STATE_SET (R422). Set Features Power Management changes the power state in force within 1 ms. -/
  | nvmePowerStateSet (conn cid ps : Nat)
  /-- NVME_KEEP_ALIVE (R398). A Keep Alive restarts the controller's keep-alive timer. -/
  | nvmeKeepAlive (conn cid : Nat)
  /-- KEEP_ALIVE_TIMEOUT (R398). No command within KATO ends the controller. -/
  | keepAliveTimeout (cntlid : Nat)
  /-- NVME_ASYNC_EVENT_REQUEST (R398). An Asynchronous Event Request is held until a notice is reported. -/
  | nvmeAsyncEventRequest (conn cid : Nat)
  /-- NVME_PROPERTY_GET (R414). Property Get returns a controller property. -/
  | nvmePropertyGet (conn cid off : Nat)
  /-- NVME_PROPERTY_SET (R414). Property Set sets a controller property. -/
  | nvmePropertySet (conn cid off val : Nat)
  /-- NVME_FORMAT_NVM (R416). Format NVM drops cache blocks and reformats a namespace. -/
  | nvmeFormatNvm (conn cid nsid lbaf ses : Nat)
  /-- NVME_SANITIZE (R417). Sanitize erases every SSD, drops the cache and clears bad blocks. -/
  | nvmeSanitize (conn cid action : Nat)
  /-- NVME_FIRMWARE_DOWNLOAD (R415). Firmware Image Download passes an image to the selected SSD. -/
  | nvmeFirmwareDownload (conn cid off : Nat) (data : List Byte)
  /-- NVME_FIRMWARE_COMMIT (R415). Firmware Commit commits SSD firmware, possibly resetting the SSD. -/
  | nvmeFirmwareCommit (conn cid slot action : Nat) (reset : Bool)
  /-- H2C_DATA_PDU (R405). An H2CData PDU's data is placed in the cache, or its digest failure fails the command. -/
  | h2cDataPdu (conn cid off : Nat) (data : List Byte) (headOk dataOk : Bool)
  /-- DESTAGE (R407). The target writes dirty cache blocks to their SSD in the background. -/
  | destage (nsid blk : Nat)
  /-- SSD_COMMAND_COMPLETE (R421). An SSD completes a write, flush or other command, advancing flushes or recording failures. -/
  | ssdCommandComplete (id : Nat) (ok : Bool) (data : List Byte)
  /-- SSD_LINK_DOWN (R421). An SSD link down or silence takes its namespaces to Namespace Not Ready. -/
  | ssdLinkDown (port : Fin 4) (silent : Bool)
  /-- SANITIZE_PROGRESS_SAVE (R418). At least once per second the firmware updates the NOR record of a running format or sanitize. -/
  | sanitizeProgressSave (prog : List Nat)
  /-- NS_INSTALL (R400). NS_CMD INSTALL installs the staged namespace or refuses it. -/
  | nsInstall
  /-- NS_REMOVE (R402). NS_CMD REMOVE detaches a namespace, destages it and clears VALID. -/
  | nsRemove
  /-- NVT_CTL_WRITE (R413). A write of NVT.CTL.EN or MAINT changes the target mode. -/
  | nvtCtlWrite (en maint : Bool)
  /-- SNAP_SET (R425). The admin command defines the snapshot set or refuses it. -/
  | snapSet (cid : Nat) (most : Option Nat)
  /-- SNAP_ARM (R427). The admin command arms a snapshot capture at a tide, or captures at once in slack. -/
  | snapArm (cid : Nat)
  /-- SNAP_ABORT (R437). The admin command ends a running snapshot with SNAP_ABORTED. -/
  | snapAbort (cid : Nat)
  /-- SNAP_STATUS (R440). The admin command returns this device's and its ward's commit records. -/
  | snapStatus (cid : Nat)
  /-- SNAP_RESTORE (R438). The admin command checks a slot and reads every data granule into the set. -/
  | snapRestore (cid : Nat)
  /-- PREIMAGE_COPIED (R429). When a pre-image is copied the granule is marked PRESERVED and the held write is released. -/
  | preimageCopied (g : Nat)
  /-- SNAPSHOT_COPY (R436). The copier writes the commit record, granules, manifest and final commit record to the buddy. -/
  | snapshotCopy
  /-- BUDDY_OFFER_MSG (R432). A member receives its buddy assignment and answers BUDDY_REPLY. -/
  | buddyOfferMsg (src : Nat) (m : Ctl)
  /-- BUDDY_REPLY_MSG (R432). The headland receives a member's reply to the buddy offer. -/
  | buddyReplyMsg (src : Nat) (refuse : Bool)
  /-- BUDDY_ARM_MSG (R432). A member arms the buddy change and answers BUDDY_ACK. -/
  | buddyArmMsg (src : Nat) (tide : DWord)
  /-- BUDDY_ACK_MSG (R432). The headland receives a member's BUDDY_ACK. -/
  | buddyAckMsg (src : Nat) (tide : DWord)
  /-- GSTOP (R455). The admin command on the headland delivers a global stop armed at T to every member. -/
  | gstop (cid : Nat)
  /-- GSTOP_ARM_MSG (R455). A member arms the global stop and answers GSTOP_ACK. -/
  | gstopArmMsg (src : Nat) (tide : DWord)
  /-- GSTOP_ACK_MSG (R455). The headland receives a member's GSTOP_ACK. -/
  | gstopAckMsg (src : Nat) (tide : DWord)
  /-- EBB_COMPLETE (R456). When the ebb has drained the member cuts, enters slack and sends CUT_REPORT. -/
  | ebbComplete
  /-- EBB_TIMEOUT (R457). An ebb not complete within EBB_TMO cuts anyway, inexact. -/
  | ebbTimeout
  /-- CUT_REPORT_MSG (R456). The headland receives a member's CUT_REPORT and completes GSTOP when all have cut. -/
  | cutReportMsg (src : Nat) (inexact : Bool) (tide : DWord)
  /-- GSTOP_RELEASE (R459). The admin command sends GSTOP_RELEASE to every member and resumes advancing. -/
  | gstopRelease (cid : Nat)
  /-- GSTOP_RELEASE_MSG (R459). A member leaves its cut on receiving GSTOP_RELEASE. -/
  | gstopReleaseMsg (src : Nat) (tide : DWord)
  /-- MEMBER_EXCLUDE (R462). The admin command on the headland excludes a device from the domain. -/
  | memberExclude (cid : Nat)
  /-- MEMBER_EXCLUDE_MSG (R462). A member puts the excluded device in its down set and acknowledges. -/
  | memberExcludeMsg (src dev : Nat) (tide : DWord)
  /-- MEMBER_INCLUDE (R463). The admin command on the headland includes a device at an armed tide. -/
  | memberInclude (cid : Nat)
  /-- MEMBER_INCLUDE_MSG (R463). A member arms the include with fresh credit state at T and acknowledges. -/
  | memberIncludeMsg (src dev : Nat) (tide : DWord)
  /-- MEMBER_ACK_MSG (R462). The headland receives MEMBER_ACK for an exclude or include. -/
  | memberAckMsg (src arg : Nat) (tide : DWord)
  /-- SAFE_CTL_WRITE (R453). A write of SAFE_CTL with KEY 0xA5 and EXIT 1 while WARM_OK makes a warm exit. -/
  | safeCtlWrite (val : Word)
  /-- ERR_RESUME (R448). A write of 1 to ERR.CTL.RESUME takes the device out of escalation slack. -/
  | errResume
  /-- REC_TAIL_WRITE (R467). A write of REC_TAIL consumes records and updates UNREAD. -/
  | recTailWrite (val : Word)
  /-- SB_ESTOP_ASSERT (R460). A filtered assertion of SB_ESTOP_N writes ESTOP and enters safe state at once. -/
  | sbEstopAssert
  /-- MARGIN_PLAN_PERIOD (R464). Each PLAN_PERIOD or retraining the planner compares margins and takes the next measure. -/
  | marginPlanPeriod (low : Bool) (mpd : Option (Fin 4)) (worst monitor : Nat)
  /-- ATT_REPORT (R479). The command samples the measurements and signs an attestation report with the next leaf. -/
  | attReport (q : Fin 256) (cid : Nat) (norOk : Bool)
  /-- ATT_GET_CERT (R477). The command copies the device certificate to the buffer. -/
  | attGetCert (q : Fin 256) (cid : Nat)
  /-- ATT_MEASURE_WEIGHTS (R476). The admin command starts hashing every weight slice into WHASH. -/
  | attMeasureWeights (cid : Nat)
  /-- WEIGHT_MEASURE_DONE (R476). When all lanes finish the measurement completes with WHASH, or ends on a race or poison. -/
  | weightMeasureDone
  /-- ATT_SVN_COMMIT (R473). The admin command raises the recorded SVN, and optionally FUSE_SVN. -/
  | attSvnCommit (cid : Nat) (norOk : Bool)
  /-- TB_CTL_EN_WRITE (R491). A write of TB_CTL.EN starts or stops a trace buffer, refusing bad placement. -/
  | tbCtlEnWrite (val : Word)
  /-- TB_SWTRIG (R489). A write of 1 to TB_CTL.SWTRIG triggers the buffer. -/
  | tbSwtrig
  /-- DUMP_DEFINE (R493). The admin command defines a tensor for dumps. -/
  | dumpDefine (cid : Nat)
  /-- DUMP_ARM (R495). The admin command arms repeated dumps of a tensor from a tide. -/
  | dumpArm (cid : Nat)
  /-- DUMP_CANCEL (R497). The admin command cancels every arm of a tensor. -/
  | dumpCancel (cid : Nat)
  /-- DUMP_RING (R494). The admin command sets the dump header ring and data area. -/
  | dumpRing (cid : Nat)
  /-- DUMP_COPY_DONE (R496). When a dump's copy ends its header is written, PHASE last. -/
  | dumpCopyDone (k : Nat)
  /-- DMP_TAIL_WRITE (R497). A write of TRC.DMP_TAIL frees dump headers and their slots. -/
  | dmpTailWrite (val : Word)
  /-- SCRUB_STEP (R207). The scrubber visits the next granule, rewriting corrected data or poisoning mismatches. -/
  | scrubStep (n : Fin 16) (links : Nat) (ecc : Fin 4)
  /-- CHANNEL_RETRAIN_DONE (R210). A channel retraining completes and waiting requests proceed. -/
  | channelRetrainDone (n c : Fin 16)
  /-- RETRAIN_TIMEOUT (R210). A retraining not complete in 500 µs is retried once; a second failure fails the site. -/
  | retrainTimeout (n c : Fin 16)
  /-- BIN_REQ_WRITE (R211). A write of MPDm.BIN.REQ differing from CUR sets PENDING. -/
  | binReqWrite (m : Fin 4) (val : Word)
  /-- BIN_CHANGE (R211). In slack the firmware changes the bin of every pending MPD, or returns to the old bin on failure. -/
  | binChange (failed dead : List Nat)
  /-- ERR_INJ_ARM (R217). A write of 1 to ERR_INJ.ARM arms one injected memory error. -/
  | errInjArm (m : Fin 4) (val : Word)
  /-- DIE_LINK_RETRY (R30). A die-link CRC error is retried; a failed retraining is fatal. -/
  | dieLinkRetry (link n : Nat) (failed : Bool)
  /-- ZERO_FILL_DONE (R214). After training and zero fill the boot ROM starts the loader and sets LOADER_READY. -/
  | zeroFillDone
  /-- WARM_EXIT_DONE (R454). After a warm exit's reset the device returns to LOADER_READY. -/
  | warmExitDone
  /-- SB_PWREN_ASSERT (R515). A filtered assertion of SB_PWREN starts the main conversion and rails. -/
  | sbPwrenAssert (soon cool : Bool)
  /-- SB_PWREN_DEASSERT (R517). Deassertion of SB_PWREN takes the rails off and the module to standby. -/
  | sbPwrenDeassert
  /-- SB_RST_ASSERT (R524). Assertion of SB_RST_N for 10 µs resets everything but AON. -/
  | sbRstAssert
  /-- SB_RST_DEASSERT (R529). Deassertion of SB_RST_N starts the ROM, NOR extension, network set-up and memory training. -/
  | sbRstDeassert (sigOk : Bool)
  /-- VIN_RANGE_WARN (R516). VIN in 56-60 V or 80-82 V writes an INPUT_RANGE record at most once per minute. -/
  | vinRangeWarn (mv : Nat)
  /-- VIN_FAULT (R516). VIN over or under its limits for its time takes the module to POWER_FAULT standby. -/
  | vinFault (mv : Nat)
  /-- RAIL_FAULT (R516). A rail short or overvoltage for 20 µs turns off all rails but AON. -/
  | railFault (rail : Fin 10) (ovr : Bool)
  /-- SENSE_OPEN (R516). An open remote-sense pair makes the rail regulate locally and records SENSE_OPEN. -/
  | senseOpen (rail : Fin 10)
  /-- FAULT_VALID_CLEAR (R518). A write of 1 to PWR.FAULT.VALID clears the held fault. -/
  | faultValidClear (bmc : Bool)
  /-- TEMPERATURE_WARNING (R535). A sensor crossing its assertion value asserts or deasserts SB_THERM_N. -/
  | temperatureWarning (smp : Sample)
  /-- THERMAL_TRIP (R535). A sensor at its trip value writes THERMAL_TRIP and enters safe state. -/
  | thermalTrip (sensor : Nat) (smp : Sample)
  /-- CRITICAL_TEMPERATURE (R516). A sensor at its critical value turns off all rails but AON with FAULT.CAUSE 5. -/
  | criticalTemperature (smp : Sample)
  /-- PLL_UNLOCK (R538). Loss of lock on a core, security or MPD PLL is fatal. -/
  | pllUnlock (pll : Fin 8)
  /-- REFERENCE_CLOCK_LOSS (R538). Loss of PREF or NREF takes the dependent links down. -/
  | referenceClockLoss (nref : Bool)
  /-- MCTP_CONTROL_MESSAGE (R525). The AON controller answers an MCTP control message. -/
  | mctpControlMessage (code : Nat) (data : List Byte)
  /-- MCTP_GET_STATUS (R526). The vendor command returns device, load, fault and safe status. -/
  | mctpGetStatus
  /-- MCTP_GET_SENSORS (R532). The vendor command returns the sensor record. -/
  | mctpGetSensors (smp : Sample)
  /-- SET_CAP (R527). The vendor command sets or removes the baseboard power cap. -/
  | setCap (watts : Nat)
  /-- GET_ERRORS (R526). The vendor command returns one error record. -/
  | getErrors (idx : Nat)
  /-- NOR_BEGIN (R528). The vendor command starts collecting a replacement NOR extension. -/
  | norBegin (size : Nat)
  /-- NOR_DATA (R528). The vendor command adds a 64-byte block of the replacement extension. -/
  | norData (data : List Byte)
  /-- NOR_END (R528). The vendor command verifies the extension, writes it to NOR and restarts the device. -/
  | norEnd (slot svn revoke : Nat) (sigOk : Bool)
  /-- WAITNE_TIMEOUT (R233). A WAITNE whose word still equals b after 2^k µs loads the word and sets Z to 1. -/
  | waitneTimeout (core : Fin 37) (cond : BitVec 4) (d a b : BitVec 5) (fn : BitVec 7) (io : Mio)
  /-- CONTROL_REPLY_TIMEOUT (R393). A control request (MAP_ARM, BUDDY_OFFER or BUDDY_ARM, GSTOP_ARM, MEMBER_EXCLUDE or MEMBER_INCLUDE) with no reply within TIDE.REPORT_TMO is handled as a missing tide report under R45. -/
  | controlReplyTimeout (req : Nat) (dev : Nat)
  /-- SITE_STOPS_ANSWERING (R213). A site that stops answering commands fails: SITE_STS.FAILED and ERR_STS.SITE_FAIL are set and the device enters safe state. -/
  | siteStopsAnswering (n : Fin 16)
  /-- SITE_TEMPERATURE_CHANGE (R189). A site reporting a temperature above 85 °C, or back below it, halves or restores its refresh interval and sets or clears SITE_STS.HOT. -/
  | siteTemperatureChange (n : Fin 16) (hot : Bool)
  /-- BAR4_RESIZE (R317). A configuration write to PF0's Resizable BAR control changes the BAR4 size, accepted only while Memory Space Enable is 0, with B4_BASE unchanged. -/
  | bar4Resize (log : Nat)
  /-- HEP_LINK_UP (R315). The HEP link trains and comes up, after start-up or after a link down. -/
  | hepLinkUp (speed width : Nat) (flit : Bool) (mrrs mps : Nat) (host : HostSet)
  /-- AP_LINK_UP (R315). An AP port's link trains and comes up, for example when an accelerator is inserted after a surprise removal, and the accelerator becomes enumerable. -/
  | apLinkUp (port : Fin 8) (speed width : Nat) (flit : Bool) (aspm : Bool × Bool × Bool)
  /-- SSD_READY (R421). An SSD whose link went down, that stopped answering, or that reset for a firmware commit returns, and its namespaces leave Namespace Not Ready so destage of their dirty blocks can resume. -/
  | ssdReady (port : Fin 4) (cap : Nat)
  /-- NVME_TCP_CONNECTION_CLOSE (R403). A host closes the TCP connection of an NVMe/TCP queue, ending that queue or its controller and freeing the controller and queue counts. -/
  | nvmeTcpConnectionClose (conn : Nat)
  /-- SB_ESTOP_DEASSERT (R460). A filtered deassertion of SB_ESTOP_N clears SAFE_STS.ESTOP and allows WARM_OK to become 1 without ending safe state. -/
  | sbEstopDeassert
  /-- VIN_RESTORED (R516). VIN rises into range, starting AON and MCTP above 36 V and, with SB_PWREN asserted, leaving a cause 1 or 2 POWER_FAULT or running the main conversion above 58 V. -/
  | vinRestored (mv : Nat) (cool : Bool)
  /-- SB_PWREN_HOLDOFF_END (R524). When SB_PWREN was asserted less than 1 s after its last deassertion, the assertion is acted on at the end of that 1 s. -/
  | sbPwrenHoldoffEnd (cool : Bool)
  /-- RAILS_IN_REGULATION (R529). Every rail reaches regulation, PWR.STS.PG is set, and the module releases its own reset hold. -/
  | railsInRegulation (sigOk : Bool)
  /-- BUS_MASTER_SET (R309). Setting PF0 Bus Master Enable again resumes issuing requests upstream and to accelerators and sends MSI-X messages held as pending. -/
  | busMasterSet (mse : Bool)
  /-- HEP_FUNDAMENTAL_RESET (R453). A fundamental reset at HEP resets the device, ends safe state and records FUND_RESET in GEN.RESET_CAUSE. -/
  | hepFundamentalReset (sigOk : Bool)
  /-- RESERVED_OPCODE (R232). An instruction with a reserved opcode or function code traps ILLEGAL. -/
  | reservedOpcode (core : Fin 37) (word : BitVec 32)
  /-- INSTRUCTION_FETCH_FAULT (R240). An instruction fetch from a poisoned granule, or from an address not allowed, traps FETCH. -/
  | instructionFetchFault (core : Fin 37)
  /-- BAD_TYPE_JOB_BEGIN (R104). A queued job whose descriptor holds a reserved or foreign TYPE begins and completes with BAD_TYPE. -/
  | badTypeJobBegin (c : Fin 17) (i : Nat)
  /-- NVME_INVALID_OPCODE (R399). An I/O command whose opcode lies outside Table 15.1 completes with Invalid Command Opcode. -/
  | nvmeInvalidOpcode (conn cid opc : Nat)
  /-- MCTP_UNSUPPORTED_MESSAGE (R526). A Wenaux vendor message with an unknown command answers UNSUPPORTED, and a message of an unsupported type is discarded. -/
  | mctpUnsupportedMessage (vendor : Bool) (cmd : Nat)
  /-- SMBUS_ARP (R525). An SMBus ARP command from the baseboard is answered by the module's SMBus target. -/
  | smbusArp (code addr : Nat)
  /-- FW_UPDATE_VERIFIED (R276). SEC0 finishes verifying a staged update image; the firmware copies it to the idle slot and arms or makes the handover, or completes UPDATE_FAILED. -/
  | fwUpdateVerified (sigOk : Bool)
  /-- ATT_REPORT_SIGNED (R479). SEC0 finishes signing an attestation report with its leaf, and ATT_REPORT completes. -/
  | attReportSigned
deriving DecidableEq, Repr

end Sys2Proof
end

