-- ==== Sys2Proof/Decode.lean ====
section
/-!
DEFINITION. Decode.lean: the commands that words spell by the bits of the spec's table.
-/
namespace Sys2Proof

/-- The command that an `nbits`-bit word `w` spells: none, since the spec's table of operations and events gives no row any
bits (DESIGN CHOICE, log entry 1). -/
def decodeTableWord (_nbits _w : Nat) : Option Instr := none

end Sys2Proof
end

