-- ==== Sys2Proof/Config.lean ====
section
/-!
DEFINITION. Config.lean: what the spec leaves to the implementation or leaves undefined. Every constant here is opaque:
nothing in Lean can evaluate it, so a statement that holds, holds for every value of it. A free value that the machine
produces anew each time is one of these applied to the counter `Dev.fresh` of the state (notes/assumptions/4.md).
-/
namespace Sys2Proof.Config

/-- Byte `n` of the stream of bytes whose values the spec leaves undefined (R117, R194, R252, R439, R459). -/
opaque freeByte : Nat → Byte
/-- Word `n` of the stream of 64-bit values the spec leaves undefined. -/
opaque freeWord : Nat → DWord
/-- Bit `n` of the stream of choices the spec leaves to the implementation. -/
opaque freeBit : Nat → Bool
/-- Which of the FP32 codes within 2 units in the last place of the exact result exp gives for an operand (R114). -/
opaque expUlp : Word → Nat
/-- The same of tanh (R114). -/
opaque tanhUlp : Word → Nat
/-- The same of the sigmoid (R114, R122). -/
opaque sigmoidUlp : Word → Nat
/-- The 32-bit seal of a value, tag and address under a key (R229). -/
opaque sealOf : (key : Nat) → (addr value tag : Nat) → Nat
/-- The key drawn for the `n`-th time a sealing key is drawn (R229, R334). -/
opaque sealKey : Nat → Nat
/-- What arises in the hardware at the `n`-th tick (Table 7.4): a kind of error and where it strikes; most kinds are none. -/
opaque upset : Nat → Nat × Nat × Nat
/-- The signature of a digest by a leaf (R468, R479), as a byte string. -/
opaque signature : (leaf digest : Nat) → List Byte
/-- The device certificate's bytes (R477). -/
opaque certificate : List Byte

end Sys2Proof.Config
end

