-- ==== Sys2Proof/Machine/NumFmt.lean ====
section
/-!
DEFINITION. Machine/NumFmt.lean: number formats, exact values, rounding, conversion, and the arithmetic of the tiles, the
vector units and the Briesk cores (chapter 3).
-/
namespace Sys2Proof.Machine

/-- The value a floating-point code stands for: NaN, an infinity, or (-1)^neg * m * 2^e, with the sign of a zero kept. -/
inductive FV
  | nan
  | inf (neg : Bool)
  | fin (neg : Bool) (m : Nat) (e : Int)
deriving DecidableEq, Repr

/-- How a format spends its all-ones exponent (R66). -/
inductive Specials
  | ieee | e4m3 | none
deriving DecidableEq, Repr

/-- A floating-point element format (Table 3.3): exponent and mantissa widths, bias, specials. -/
structure FF where
  ew : Nat
  mw : Nat
  bias : Nat
  sp : Specials
deriving DecidableEq, Repr

def fp64 : FF := ⟨11, 52, 1023, .ieee⟩
def fp32 : FF := ⟨8, 23, 127, .ieee⟩
def bf16 : FF := ⟨8, 7, 127, .ieee⟩
def fp16 : FF := ⟨5, 10, 15, .ieee⟩
def e4m3 : FF := ⟨4, 3, 7, .e4m3⟩
def e5m2 : FF := ⟨5, 2, 15, .ieee⟩
def e3m2 : FF := ⟨3, 2, 3, .none⟩
def e2m3 : FF := ⟨2, 3, 1, .none⟩
def e2m1 : FF := ⟨2, 1, 1, .none⟩

/-- The floating-point format with a code of Table 3.1. -/
def ffOf (code : Nat) : Option FF :=
  match code with
  | 0 => some fp32 | 1 => some bf16 | 2 => some fp16 | 3 => some e4m3 | 4 => some e5m2
  | 5 => some e3m2 | 6 => some e2m3 | 7 => some e2m1 | _ => .none

/-- Element width in bits of a format code (Table 3.1); 0 for KCB and reserved codes. -/
def elemBits (code : Nat) : Nat := [32, 16, 16, 8, 8, 6, 6, 4, 8, 4, 8, 6, 4, 8].getD code 0

/-- Is a code one of the four block formats (Table 3.4)? -/
def isMx (code : Nat) : Bool := decide (10 ≤ code) && decide (code ≤ 13)

/-- The element format code of a block format: E4M3, E3M2, E2M1, INT8 (R63, R73). -/
def mxElem (code : Nat) : Nat := [3, 5, 7, 8].getD (code - 10) 3

/-- Width of a code. -/
def FF.w (f : FF) : Nat := 1 + f.ew + f.mw

/-- The value of a code (R66). -/
def FF.dec (f : FF) (x : Nat) : FV :=
  let neg := bitN x (f.ew + f.mw)
  let e := fieldN x f.mw f.ew
  let m := fieldN x 0 f.mw
  let top := e == 2 ^ f.ew - 1
  let emin : Int := 1 - f.bias - f.mw
  let fin := if e = 0 then FV.fin neg m emin else .fin neg (2 ^ f.mw + m) (emin + (e - 1 : Nat))
  match f.sp with
  | .ieee => if top then (if m = 0 then .inf neg else .nan) else fin
  | .e4m3 => if top && m == 2 ^ f.mw - 1 then .nan else fin
  | .none => fin

/-- The largest finite code without sign (Table 3.3). -/
def FF.maxCode (f : FF) : Nat :=
  match f.sp with
  | .ieee => (2 ^ f.ew - 1) * 2 ^ f.mw - 1
  | .e4m3 => 2 ^ (f.ew + f.mw) - 2
  | .none => 2 ^ (f.ew + f.mw) - 1

/-- The canonical NaN (Table 3.3); a format without one gives 0 (Table 3.7). -/
def FF.nanCode (f : FF) : Nat :=
  match f.sp with
  | .ieee => (2 ^ f.ew - 1) * 2 ^ f.mw + 2 ^ (f.mw - 1)
  | .e4m3 => 2 ^ (f.ew + f.mw) - 1
  | .none => 0

/-- Bit length of a number. -/
def bitLen (n : Nat) : Nat := if n = 0 then 0 else Nat.log2 n + 1

/-- `m * 2^k` for an integer `k`, rounded toward zero. -/
def shiftZ (m : Nat) (k : Int) : Nat := if 0 ≤ k then m * 2 ^ k.toNat else m / 2 ^ (-k).toNat

/-- A magnitude `m * 2^e` in units of `2^u`: the floor, and the rounding up decided to nearest even, or stochastically by
a 16-bit draw (R85, R86). -/
def roundUnits (m : Nat) (e u : Int) (sr : Option Nat) : Nat :=
  if u ≤ e then shiftZ m (e - u)
  else
    let k := (u - e).toNat
    let q := m / 2 ^ k
    let r := m % 2 ^ k
    match sr with
    | some x => if 65536 ≤ r * 65536 / 2 ^ k + x then q + 1 else q
    | none =>
      if r * 2 < 2 ^ k then q else if r * 2 = 2 ^ k then (if q % 2 = 0 then q else q + 1) else q + 1

/-- The code, without sign, of a rounded magnitude, in the format's exponent range continued upward (R85, R89). -/
def FF.roundCode (f : FF) (m : Nat) (e : Int) (sr : Option Nat) : Nat :=
  let emin : Int := 1 - f.bias - f.mw
  let u : Int := max emin (e + bitLen m - 1 - f.mw)
  let q := roundUnits m e u sr
  if q = 0 then 0 else (u - emin).toNat * 2 ^ f.mw + q

/-- What a conversion gives: the code, and whether it counts as an overflow or as a NaN turned into zero (R90). -/
structure Conv where
  code : Nat
  ovf : Bool := false
  nan0 : Bool := false
deriving DecidableEq, Repr

/-- A value converted to a floating-point format (R85 to R91, Table 3.7). -/
def FF.enc (f : FF) (v : FV) (sat : Bool) (sr : Option Nat) : Conv :=
  let sgn (neg : Bool) (c : Nat) : Nat := b2n neg * 2 ^ (f.ew + f.mw) + c
  let ovr (neg : Bool) : Nat :=
    match f.sp with
    | .ieee => if sat then sgn neg f.maxCode else sgn neg (f.maxCode + 1)
    | .e4m3 => if sat then sgn neg f.maxCode else f.nanCode
    | .none => sgn neg f.maxCode
  match v with
  | .nan => ⟨f.nanCode, false, f.sp = .none⟩
  | .inf neg => ⟨ovr neg, !(f.sp = .ieee && !sat), false⟩
  | .fin neg m e =>
    if m = 0 then ⟨sgn neg 0, false, false⟩
    else
      let c := f.roundCode m e sr
      if f.maxCode < c then ⟨ovr neg, true, false⟩ else ⟨sgn neg c, false, false⟩

/-- FP32 keeps an infinite source whatever SAT says (Table 3.7). -/
def enc32 (v : FV) : Nat := (fp32.enc v false none).code

/-- A value converted to a two's-complement integer of `w` bits (Table 3.7). -/
def encInt (w : Nat) (v : FV) : Conv :=
  match v with
  | .nan => ⟨0, false, true⟩
  | .inf neg => ⟨if neg then 2 ^ (w - 1) else 2 ^ (w - 1) - 1, true, false⟩
  | .fin neg m e =>
    let q := roundUnits m e 0 none
    let lim := if neg then 2 ^ (w - 1) else 2 ^ (w - 1) - 1
    if lim < q then ⟨if neg then 2 ^ (w - 1) else lim, true, false⟩
    else ⟨if neg then (2 ^ w - q) % 2 ^ w else q, false, false⟩

/-- A two's-complement code of `w` bits as an integer. -/
def intOf (w x : Nat) : Int := if bitN x (w - 1) then (x % 2 ^ w : Nat) - (2 ^ w : Nat) else ((x % 2 ^ w : Nat) : Int)

/-- An integer times a power of two as a value. -/
def fvInt (i : Int) (e : Int) : FV := .fin (decide (i < 0)) i.natAbs e

/-- The value of an element code of Table 3.1 (not a block format, whose elements are scaled by `scaleOf`). -/
def decElem (code x : Nat) : FV :=
  match ffOf code with
  | some f => f.dec (x % 2 ^ f.w)
  | none => if code = 8 then fvInt (intOf 8 x) 0 else if code = 9 then fvInt (intOf 4 x) 0 else .nan

/-- The exponent an E8M0 code stands for; none for NaN (R72). -/
def e8m0 (c : Nat) : Option Int := if c % 256 = 255 then none else some ((c % 256 : Nat) - 127)

/-- A value times a power of two. -/
def FV.scale (v : FV) (k : Int) : FV :=
  match v with
  | .fin n m e => .fin n m (e + k)
  | v => v

/-- The value of an element of a block format with its scale code (R73, R75). -/
def decMx (code x scale : Nat) : FV :=
  match e8m0 scale with
  | none => .nan
  | some k =>
    let v := decElem (mxElem code) x
    if code = 13 then (v.scale (-6)).scale k else v.scale k

def FV.neg : FV → FV
  | .nan => .nan
  | .inf n => .inf (!n)
  | .fin n m e => .fin (!n) m e

def FV.isNeg : FV → Bool
  | .nan => false
  | .inf n => n
  | .fin n _ _ => n

def FV.isZero : FV → Bool
  | .fin _ m _ => m == 0
  | _ => false

/-- A finite value in units of `2^u`, `u` not above its exponent. -/
def unitsOf (neg : Bool) (m : Nat) (e u : Int) : Int :=
  let x : Int := (m * 2 ^ (e - u).toNat : Nat)
  if neg then -x else x

/-- The exact sum (R69 for zeros). -/
def FV.add (a b : FV) : FV :=
  match a, b with
  | .nan, _ => .nan
  | _, .nan => .nan
  | .inf n, .inf k => if n = k then .inf n else .nan
  | .inf n, _ => .inf n
  | _, .inf n => .inf n
  | .fin n m e, .fin k l f =>
    let u := min e f
    let s := unitsOf n m e u + unitsOf k l f u
    if s = 0 then .fin (n && k && m == 0 && l == 0) 0 0 else fvInt s u

/-- The exact product. -/
def FV.mul (a b : FV) : FV :=
  match a, b with
  | .nan, _ => .nan
  | _, .nan => .nan
  | .inf n, .inf k => .inf (n != k)
  | .inf n, .fin k l _ => if l = 0 then .nan else .inf (n != k)
  | .fin n m _, .inf k => if m = 0 then .nan else .inf (n != k)
  | .fin n m e, .fin k l f => .fin (n != k) (m * l) (e + f)

/-- The quotient, with a sticky bit far below any format's last place. -/
def FV.div (a b : FV) : FV :=
  match a, b with
  | .nan, _ => .nan
  | _, .nan => .nan
  | .inf _, .inf _ => .nan
  | .inf n, .fin k _ _ => .inf (n != k)
  | .fin n _ _, .inf k => .fin (n != k) 0 0
  | .fin n m e, .fin k l f =>
    if l = 0 then (if m = 0 then .nan else .inf (n != k))
    else
      let sh := bitLen l + 70
      let q := m * 2 ^ sh / l
      let r := m * 2 ^ sh % l
      .fin (n != k) (q * 2 + (if r = 0 then 0 else 1)) (e - f - sh - 1)

/-- Integer square root, bit by bit. -/
def isqrtGo (n : Nat) : Nat → Nat → Nat
  | r, 0 => r
  | r, k + 1 =>
    let c := r + 2 ^ k
    isqrtGo n (if c * c ≤ n then c else r) k
def isqrt (n : Nat) : Nat := isqrtGo n 0 (bitLen n / 2 + 1)

/-- The square root, with a sticky bit. -/
def FV.sqrt (a : FV) : FV :=
  match a with
  | .nan => .nan
  | .inf n => if n then .nan else .inf false
  | .fin n m e =>
    if m = 0 then .fin n 0 0
    else if n then .nan
    else
      let sh : Nat := 140 + (e % 2).toNat
      let x := m * 2 ^ sh
      let r := isqrt x
      .fin false (r * 2 + (if r * r = x then 0 else 1)) ((e - sh) / 2 - 1)

/-- Comparison of two values that are not NaN: -1, 0 or 1. -/
def FV.cmp (a b : FV) : Int :=
  match a, b with
  | .inf n, .inf k => if n = k then 0 else if n then -1 else 1
  | .inf n, _ => if n then -1 else 1
  | _, .inf k => if k then 1 else -1
  | .fin n m e, .fin k l f =>
    let u := min e f
    let s := unitsOf n m e u - unitsOf k l f u
    if s < 0 then -1 else if s = 0 then 0 else 1
  | _, _ => 0

def FV.isNan : FV → Bool
  | .nan => true
  | _ => false

/-- FP32 codes added, multiplied, divided, each rounded once (R97). -/
def add32 (a b : Nat) : Nat := enc32 ((fp32.dec a).add (fp32.dec b))
def mul32 (a b : Nat) : Nat := enc32 ((fp32.dec a).mul (fp32.dec b))
def div32 (a b : Nat) : Nat := enc32 ((fp32.dec a).div (fp32.dec b))

/-- FP32 codes compared: `a < b`, false with a NaN. -/
def lt32 (a b : Nat) : Bool :=
  let x := fp32.dec a
  let y := fp32.dec b
  !x.isNan && !y.isNan && decide (x.cmp y < 0)

/-- The leading place of a finite nonzero value. -/
def FV.lead : FV → Option Int
  | .fin _ m e => if m = 0 then none else some (e + bitLen m - 1)
  | _ => none

/-- A term cut toward zero at place `cut`, in units of it. -/
def FV.cutAt (v : FV) (cut : Int) : Int :=
  match v with
  | .fin n m e => let q : Int := shiftZ m (e - cut); if n then -q else q
  | _ => 0

/-- One accumulation group: the terms and the accumulator aligned, cut 30 places below the leading bit of the largest,
added exactly and rounded once to FP32 (R95). -/
def accGroup (acc : Nat) (terms : List FV) : Nat :=
  let all := fp32.dec acc :: terms
  if all.any FV.isNan then fp32.nanCode
  else
    let ps := all.any fun v => v == .inf false
    let ns := all.any fun v => v == .inf true
    if ps && ns then fp32.nanCode
    else if ps then enc32 (.inf false)
    else if ns then enc32 (.inf true)
    else
      match all.filterMap FV.lead with
      | [] => if all.all FV.isNeg then enc32 (.fin true 0 0) else 0
      | l :: ls =>
        let cut := ls.foldl max l - 30
        let s := all.foldl (fun (a : Int) v => a + v.cutAt cut) 0
        if s = 0 then 0 else enc32 (fvInt s cut)

/-- A random generator's next state (R88). -/
def srNext (x : Nat) : Nat :=
  let a := (x ^^^ (x * 2 ^ 13)) % 2 ^ 32
  let b := a ^^^ (a / 2 ^ 17)
  (b ^^^ (b * 2 ^ 5)) % 2 ^ 32

/-- The state a seed loads (R88). -/
def srSeed (x : Nat) : Nat := if x % 2 ^ 32 = 0 then 0x6a5d39c1 else x % 2 ^ 32

/-- Stochastic rounding applies to this destination (R87). -/
def srAllowed (code : Nat) : Bool := decide (3 ≤ code) && decide (code ≤ 7)

/-- A value converted under a conversion control byte's FMT and SAT; `sr` a draw where stochastic (R65). -/
def encElem (code : Nat) (v : FV) (sat : Bool) (sr : Option Nat) : Conv :=
  match ffOf code with
  | some f =>
    match v with
    | .inf n => if code = 0 then ⟨(f.enc (.inf n) false none).code, false, false⟩ else f.enc v sat (if srAllowed code then sr else none)
    | _ => f.enc v sat (if srAllowed code then sr else none)
  | none => encInt (if code = 9 then 4 else 8) v

/-- The conversion from one format to another is exact, and so not counted (R84). -/
def convExact (src dst : Nat) : Bool :=
  dst == 0 || (decide (3 ≤ src) && decide (src ≤ 7) && (dst == 1 || dst == 2)) ||
    (decide (5 ≤ src) && decide (src ≤ 7) && dst == 3) || (src == 9 && dst == 8) ||
    ((src == 8 || src == 9) && decide (dst ≤ 2))

/-- Elements of `w` bits from packed bytes, least significant first (R71). -/
def unpack (w : Nat) (l : List Byte) (n : Nat) : List Nat :=
  if w % 8 = 0 then (List.range n).map fun i => leAt l (i * (w / 8)) (w / 8)
  else let x := leNat l; (List.range n).map fun i => fieldN x (w * i) w

/-- Elements of `w` bits packed into bytes (R71). -/
def pack (w : Nat) (l : List Nat) : List Byte :=
  if w % 8 = 0 then l.flatMap fun x => leBytes x (w / 8)
  else leBytes (l.foldr (fun x a => a * 2 ^ w + x % 2 ^ w) 0) ((w * l.length + 7) / 8)

/-- A list in chunks of `n`. -/
def chunks {α : Type} (n : Nat) (l : List α) : Nat → List (List α)
  | 0 => []
  | f + 1 => if l.isEmpty then [] else l.take n :: chunks n (l.drop n) f

end Sys2Proof.Machine
end

