-- ==== Sys2Proof/Machine/Map.lean ====
section
/-!
DEFINITION. Machine/Map.lean: sparse data by key, as a list of key and value pairs. The value of an unlisted key is given
by a function of the key, handed to the read. Within one command a write is put in front of the list; when the command
is over, `Map.canon` folds the list into its one canonical form: keys strictly rising, no entry equal to what its key
reads as when unlisted.
-/
namespace Sys2Proof.Machine

/-- A sparse map from numbers. -/
abbrev Map (β : Type) := List (Nat × β)

/-- The value of key `k`; `d k` where it is not listed. -/
def Map.get {β : Type} (d : Nat → β) : Map β → Nat → β
  | [], k => d k
  | (j, v) :: t, k => if j = k then v else Map.get d t k

/-- Key `k` made to read `v`. -/
def Map.put {β : Type} (m : Map β) (k : Nat) (v : β) : Map β := (k, v) :: m

/-- Key `k` made to read `v` in a list in rising order, kept in rising order; an entry equal to `d k` is removed. -/
def Map.ins {β : Type} [DecidableEq β] (d : Nat → β) (k : Nat) (v : β) : Map β → Map β
  | [] => if v = d k then [] else [(k, v)]
  | (j, u) :: t =>
    if k < j then (if v = d k then (j, u) :: t else (k, v) :: (j, u) :: t)
    else if k = j then (if v = d k then t else (k, v) :: t)
    else (j, u) :: Map.ins d k v t

/-- The canonical form of a map: what it reads as, with keys strictly rising and no entry equal to its default. -/
def Map.canon {β : Type} [DecidableEq β] (d : Nat → β) (m : Map β) : Map β :=
  m.foldr (fun c acc => Map.ins d c.1 c.2 acc) []

/-- Keys strictly rising from above `lo`, and no entry equal to its default. -/
def Map.wfFrom {β : Type} [DecidableEq β] (d : Nat → β) : (lo : Option Nat) → Map β → Bool
  | _, [] => true
  | lo, (j, v) :: t =>
    (match lo with | none => true | some l => decide (l < j)) && decide (v ≠ d j) && Map.wfFrom d (some j) t

/-- The map is in canonical form. -/
def Map.wf {β : Type} [DecidableEq β] (d : Nat → β) (m : Map β) : Bool := Map.wfFrom d none m

/-- `k` consecutive keys from `a` made to read the values of a list. -/
def Map.putList {β : Type} (m : Map β) (a : Nat) : List β → Map β
  | [] => m
  | v :: t => Map.putList (m.put a v) (a + 1) t

/-- The values of `n` consecutive keys from `a`. -/
def Map.getList {β : Type} (d : Nat → β) (m : Map β) (a n : Nat) : List β :=
  (List.range n).map fun i => m.get d (a + i)

end Sys2Proof.Machine
end

