-- ==== Sys2Proof/Machine/RegMap.lean ====
section
/-!
DEFINITION. Machine/RegMap.lean: the register map, written from the spec's register tables. A register is named by its
BAR0 byte offset (R500). A register that is one of many behind an index register (a policer, a queue, a region, a
namespace, a host pair, a trace buffer) is named by that offset plus (index + 1) times 2^24.
-/
namespace Sys2Proof.Machine

/-- Access codes of Table 0.3 (R10); no field of the map has code RC. -/
inductive Acc
  | ro | rw | w1c | w1s | wo
deriving DecidableEq, Repr

/-- One field: place, access, reset value, and least and greatest value that is no reserved encoding (R12). -/
structure FieldD where
  lo : Nat
  w : Nat
  acc : Acc
  rst : Nat
  min : Nat
  max : Nat
deriving DecidableEq, Repr

def ro (lo w rst : Nat) : FieldD := ⟨lo, w, .ro, rst, 0, 2 ^ w - 1⟩
def rw (lo w rst : Nat) : FieldD := ⟨lo, w, .rw, rst, 0, 2 ^ w - 1⟩
def rwr (lo w rst min max : Nat) : FieldD := ⟨lo, w, .rw, rst, min, max⟩
def w1c (lo w : Nat) : FieldD := ⟨lo, w, .w1c, 0, 0, 2 ^ w - 1⟩
def w1s (lo w : Nat) : FieldD := ⟨lo, w, .w1s, 0, 0, 2 ^ w - 1⟩
def wo (lo w : Nat) : FieldD := ⟨lo, w, .wo, 0, 0, 2 ^ w - 1⟩

/-- A register, or `n` registers `stride` bytes apart from page offset `off`. -/
structure RegD where
  off : Nat
  stride : Nat
  n : Nat
  flds : List FieldD
deriving DecidableEq, Repr

/-- The block types of Table 20.1. -/
inductive Blk
  | gen | pwr | clk | tide | sec | err | trc | cnt | fwr | xc | mpd | hep | ap | srp | net | pkt | tsq | emh | nvt | ckp
  | cov | win | dma
deriving DecidableEq, Repr

/-- Type code of a block: ID[31:16] (Table 20.1). -/
def Blk.code : Blk → Nat
  | .gen => 0x0001 | .pwr => 0x0002 | .clk => 0x0003 | .tide => 0x0004 | .sec => 0x0005 | .err => 0x0006
  | .trc => 0x0007 | .cnt => 0x0008 | .fwr => 0x0009 | .xc => 0x0010 | .mpd => 0x0011 | .hep => 0x0020 | .ap => 0x0021
  | .srp => 0x0022 | .net => 0x0030 | .pkt => 0x0031 | .tsq => 0x0032 | .emh => 0x0033 | .nvt => 0x0034 | .ckp => 0x0035
  | .cov => 0x0036 | .win => 0x0037 | .dma => 0x0040

/-- The block and instance of a page index (page offset >> 12), Table 20.1. -/
def pageBlk (p : Nat) : Option (Blk × Nat) :=
  if p < 9 then
    [(Blk.gen, 0), (.pwr, 0), (.clk, 0), (.tide, 0), (.sec, 0), (.err, 0), (.trc, 0), (.cnt, 0), (.fwr, 0)][p]?
  else if 0x10 ≤ p ∧ p < 0x20 then some (.xc, p - 0x10)
  else if 0x20 ≤ p ∧ p < 0x24 then some (.mpd, p - 0x20)
  else if p = 0x40 then some (.hep, 0)
  else if 0x41 ≤ p ∧ p < 0x49 then some (.ap, p - 0x41)
  else if p = 0x49 then some (.srp, 0)
  else if 0x50 ≤ p ∧ p < 0x58 then
    [(Blk.net, 0), (.pkt, 0), (.tsq, 0), (.emh, 0), (.nvt, 0), (.ckp, 0), (.cov, 0), (.win, 0)][p - 0x50]?
  else if 0x100 ≤ p ∧ p < 0x140 then some (.dma, p - 0x100)
  else none

/-- Every page index of Table 20.1, in block page order (Table 2.8). -/
def allPages : List Nat :=
  (List.range 9) ++ (List.range 16).map (0x10 + ·) ++ (List.range 4).map (0x20 + ·) ++ (List.range 10).map (0x40 + ·)
    ++ (List.range 8).map (0x50 + ·) ++ (List.range 64).map (0x100 + ·)

/-- Page offsets of the blocks. -/
def pgGEN : Nat := 0x000000
def pgPWR : Nat := 0x001000
def pgCLK : Nat := 0x002000
def pgTIDE : Nat := 0x003000
def pgSEC : Nat := 0x004000
def pgERR : Nat := 0x005000
def pgTRC : Nat := 0x006000
def pgCNT : Nat := 0x007000
def pgFWR : Nat := 0x008000
def pgXC (n : Nat) : Nat := 0x010000 + n * 0x1000
def pgMPD (m : Nat) : Nat := 0x020000 + m * 0x1000
def pgHEP : Nat := 0x040000
def pgAP (k : Nat) : Nat := 0x041000 + k * 0x1000
def pgSRP : Nat := 0x049000
def pgNET : Nat := 0x050000
def pgPKT : Nat := 0x051000
def pgTSQ : Nat := 0x052000
def pgEMH : Nat := 0x053000
def pgNVT : Nat := 0x054000
def pgCKP : Nat := 0x055000
def pgCOV : Nat := 0x056000
def pgWIN : Nat := 0x057000
def pgDMA (n : Nat) : Nat := 0x100000 + n * 0x1000

/-- The common header but ERR_STS and INT_STS, whose fields are the block's own (R502, Tables 20.2 and 2.7). ID, CAP,
STS, COMMIT and INT_SET are computed when read. -/
def regsHdr : List RegD := [
  ⟨0x0, 0, 1, []⟩, ⟨0x4, 0, 1, []⟩,  -- ID CAP
  ⟨0x8, 0, 1, [rw 0 1 1, rw 1 1 0, rw 2 1 0]⟩,  -- CTL EN FREEZE SAFE
  ⟨0xc, 0, 1, []⟩,  -- STS
  ⟨0x14, 0, 1, [rw 0 32 0]⟩, ⟨0x18, 0, 1, [rw 0 32 0]⟩,  -- ERR_MASK ERR_SEV
  ⟨0x1c, 0, 1, [ro 0 5 0, ro 31 1 0]⟩,  -- ERR_FIRST BIT VALID
  ⟨0x24, 0, 1, [rw 0 32 0]⟩, ⟨0x28, 0, 1, [w1s 0 32]⟩,  -- INT_EN INT_SET
  ⟨0x30, 0, 1, [rw 0 32 0]⟩, ⟨0x34, 0, 1, [rw 0 32 0]⟩,  -- TIDE_ARM_LO TIDE_ARM_HI
  ⟨0x38, 0, 1, []⟩,  -- COMMIT
  ⟨0x3c, 0, 1, [rw 0 32 0]⟩]  -- SCRATCH

/-- The registers of a XC page: R132, R187. -/
def regsXC : List RegD := [
  ⟨0x20, 0, 1, [w1c 0 1]⟩,  -- INT_STS
  ⟨0x10, 0, 1, [w1c 0 1, w1c 1 1, w1c 2 1]⟩,  -- ERR_STS JOB_FAIL CB_POISON RED_TMO
  ⟨0x100, 0, 1, [ro 0 8 0, ro 8 4 0, ro 12 1 0, ro 13 1 0, ro 14 1 0]⟩,  -- JOB_STS QUEUED RUNNING GATE_BUSY COMB_BUSY CB_BUSY
  ⟨0x104, 0, 1, [ro 0 8 0, ro 8 8 0]⟩,  -- CB_VALID VALID POISON
  ⟨0x108, 0, 1, [rw 0 1 0]⟩,  -- SKIP_CTL
  ⟨0x10c, 0, 1, [rw 0 32 1784494529]⟩,  -- SR_SEED_T
  ⟨0x110, 0, 1, [rw 0 32 1784494529]⟩,  -- SR_SEED_V
  ⟨0x114, 0, 1, [ro 0 8 0]⟩,  -- LAST_ERR
  ⟨0x118, 0, 1, [ro 0 32 0]⟩,  -- LAST_ERR_DESC_LO
  ⟨0x11c, 0, 1, [ro 0 16 0]⟩,  -- LAST_ERR_DESC_HI
  ⟨0x120, 0, 1, [ro 0 8 16, ro 8 8 16, ro 16 11 1024, ro 27 5 8]⟩,  -- LIMITS MAX_NTOK MAX_K MAX_E CB_SLOTS
  ⟨0x140, 4, 16, [rw 0 32 0]⟩,  -- SKIP_THRk
  ⟨0x200, 0, 1, [w1c 0 1, w1c 1 1, w1c 2 1]⟩,  -- KV_EVT SUM_POISON GRP_TMO ENTRY_ERR
  ⟨0x204, 0, 1, [ro 0 8 64, ro 8 13 4096]⟩,  -- KV_LIMITS MAX_NQ MAX_NSEL
  ⟨0x208, 0, 1, [ro 0 17 65536]⟩,  -- KV_LIMITS2
  ⟨0x800, 0, 1, [ro 0 32 0]⟩,  -- JOBS_DONE
  ⟨0x804, 0, 1, [ro 0 32 0]⟩,  -- JOBS_FAILED
  ⟨0x808, 0, 1, [ro 0 32 0]⟩,  -- GRAN_READ
  ⟨0x80c, 0, 1, [ro 0 32 0]⟩,  -- GRAN_SKIPPED
  ⟨0x810, 0, 1, [ro 0 32 0]⟩,  -- TOK_DROPPED
  ⟨0x814, 0, 1, [ro 0 32 0]⟩,  -- TOK_REROUTED
  ⟨0x818, 0, 1, [ro 0 32 0]⟩,  -- CVT_SAT
  ⟨0x81c, 0, 1, [ro 0 32 0]⟩,  -- CVT_NAN0
  ⟨0x820, 0, 1, [ro 0 32 0]⟩,  -- NOTICE_DUP
  ⟨0x824, 0, 1, [ro 0 32 0]⟩,  -- NOTICE_STRAY
  ⟨0x828, 0, 1, [ro 0 32 0]⟩,  -- POISON_OUT
  ⟨0x840, 0, 1, [ro 0 32 0]⟩,  -- KV_SCORED
  ⟨0x844, 0, 1, [ro 0 32 0]⟩,  -- KV_SELECTED
  ⟨0x848, 0, 1, [ro 0 32 0]⟩,  -- KV_FORCED
  ⟨0x84c, 0, 1, [ro 0 32 0]⟩,  -- KV_PAGES_READ
  ⟨0x850, 0, 1, [ro 0 32 0]⟩,  -- KV_TOK_ATT
  ⟨0x854, 0, 1, [ro 0 32 0]⟩,  -- KV_TOK_WR
  ⟨0x858, 0, 1, [ro 0 32 0]⟩  -- KV_EMPTY
  ]

/-- The registers of a EMH page: R160, R397. -/
def regsEMH : List RegD := [
  ⟨0x10, 0, 1, [w1c 0 1, w1c 1 1, w1c 2 1, w1c 3 1, w1c 4 1]⟩,  -- ERR_STS CONN_FAIL PATH_DOWN EVQ_OVF PAGE_TMO BAD_PKT
  ⟨0x20, 0, 1, [w1c 0 1]⟩,  -- INT_STS
  ⟨0x100, 0, 1, [rw 0 1 0]⟩,  -- CTL
  ⟨0x104, 0, 1, [rw 0 16 19277]⟩,  -- UDP
  ⟨0x108, 0, 1, [rw 0 10 0, rw 16 16 0]⟩,  -- SELF DEV DOMAIN
  ⟨0x10c, 0, 1, [rw 0 32 0]⟩,  -- CTX
  ⟨0x110, 0, 1, [wo 0 16, wo 16 12]⟩,  -- SQ_DB CONN TAIL
  ⟨0x114, 0, 1, [rw 0 16 0, wo 16 3, ro 30 1 0, ro 31 1 0]⟩,  -- CONN_CMD CONN CMD REFUSED BUSY
  ⟨0x118, 0, 1, [rwr 0 16 100 10 10000]⟩,  -- RTO
  ⟨0x11c, 0, 1, [rwr 0 4 7 1 15, rwr 8 8 8 1 255, rwr 16 4 3 1 15]⟩,  -- RETRY MAX DUPTHR PATH_FAIL
  ⟨0x120, 0, 1, [rwr 0 16 1000 10 65535]⟩,  -- PROBE
  ⟨0x124, 0, 1, [rwr 0 16 50 1 65535, rwr 16 16 2000 1 65535]⟩,  -- NR DELAY_US MAX_MS
  ⟨0x128, 0, 1, [rwr 0 16 20 1 65535, rwr 16 16 100 1 65535]⟩,  -- PW DELAY_US MAX_MS
  ⟨0x12c, 0, 1, [rwr 0 16 10 1 65535]⟩,  -- CLOSE_MS
  ⟨0x140, 0, 1, [rw 0 32 0]⟩,  -- EVQ_LO
  ⟨0x144, 0, 1, [rw 0 16 0]⟩,  -- EVQ_HI
  ⟨0x148, 0, 1, [rwr 0 5 10 6 16]⟩,  -- EVQ_SIZE
  ⟨0x14c, 0, 1, [ro 0 16 0]⟩,  -- EVQ_HEAD
  ⟨0x150, 0, 1, [rw 0 16 0]⟩,  -- EVQ_TAIL
  ⟨0x180, 0, 1, [rw 0 12 0]⟩,  -- REG_IDX
  ⟨0x184, 0, 1, [rw 0 32 0]⟩,  -- REG_BASE
  ⟨0x188, 0, 1, [rwr 0 24 1 1 16777215]⟩,  -- REG_SIZE
  ⟨0x18c, 0, 1, [rw 0 1 0, rw 1 1 0, rw 2 1 0, rw 3 1 0, rw 4 6 0, rw 12 20 0]⟩,  -- REG_CTL RD WR ODP DRV COVE TAG
  ⟨0x190, 0, 1, [rw 0 32 0]⟩,  -- REG_PT
  ⟨0x194, 0, 1, [wo 0 2, ro 4 2 0, ro 6 1 0]⟩,  -- REG_CMD CMD STATE REFUSED
  ⟨0x600, 0, 1, [rw 0 1 0]⟩,  -- XCTL
  ⟨0x604, 0, 1, [rw 0 32 0]⟩,  -- XMAP_LO
  ⟨0x608, 0, 1, [rw 0 16 0]⟩,  -- XMAP_HI
  ⟨0x60c, 0, 1, [ro 0 16 0, ro 16 16 0]⟩,  -- XMAP_GEN GEN PREV
  ⟨0x610, 0, 1, [rw 0 10 0, rwr 10 11 256 1 1024]⟩,  -- XLAND BASE SIZE
  ⟨0x614, 0, 1, [rwr 0 3 2 0 6]⟩,  -- XSLOT
  ⟨0x618, 0, 1, [rw 0 32 0]⟩,  -- XARR_LO
  ⟨0x61c, 0, 1, [rw 0 16 0]⟩,  -- XARR_HI
  ⟨0x620, 0, 1, [rwr 0 5 10 6 16]⟩,  -- XARR_SIZE
  ⟨0x624, 0, 1, [ro 0 16 0]⟩,  -- XARR_HEAD
  ⟨0x628, 0, 1, [rwr 0 16 1 1 65535]⟩,  -- XCREDIT
  ⟨0x630, 0, 1, [rwr 0 32 200 10 100000]⟩,  -- XDISP_TMO
  ⟨0x634, 0, 1, [rwr 0 32 1000 10 100000]⟩,  -- XRET_TMO
  ⟨0x640, 4, 16, [ro 0 10 0, w1c 31 1]⟩,  -- XDOWNn DEV VALID
  ⟨0x800, 0, 1, [ro 0 32 0]⟩,  -- TX_DATA
  ⟨0x804, 0, 1, [ro 0 32 0]⟩,  -- RX_DATA
  ⟨0x808, 0, 1, [ro 0 32 0]⟩,  -- RETX
  ⟨0x80c, 0, 1, [ro 0 32 0]⟩,  -- FAST_RETX
  ⟨0x810, 0, 1, [ro 0 32 0]⟩,  -- RTO_CNT
  ⟨0x814, 0, 1, [ro 0 32 0]⟩,  -- DUP_RX
  ⟨0x818, 0, 1, [ro 0 32 0]⟩,  -- BAD_PKT_CNT
  ⟨0x81c, 0, 1, [ro 0 32 0]⟩,  -- NAK_TX
  ⟨0x820, 0, 1, [ro 0 32 0]⟩,  -- NAK_RX
  ⟨0x824, 0, 1, [ro 0 32 0]⟩,  -- PW_TX
  ⟨0x828, 0, 1, [ro 0 32 0]⟩,  -- SEND_STALL
  ⟨0x82c, 0, 1, [ro 0 32 0]⟩,  -- CLOSING_NAK
  ⟨0x830, 0, 1, [ro 0 32 0]⟩,  -- NOT_READY_TX
  ⟨0x834, 0, 1, [ro 0 32 0]⟩,  -- PATH_DOWN_CNT
  ⟨0x838, 0, 1, [ro 0 32 0]⟩,  -- CONN_FAIL_CNT
  ⟨0x83c, 0, 1, [ro 0 32 0]⟩,  -- MSG_DONE
  ⟨0x840, 0, 1, [ro 0 32 0]⟩,  -- EVQ_LOST
  ⟨0x900, 0, 1, [ro 0 32 0]⟩,  -- XDISP_SENT
  ⟨0x904, 0, 1, [ro 0 32 0]⟩,  -- XRET_SENT
  ⟨0x908, 0, 1, [ro 0 32 0]⟩,  -- XRET_PLACED
  ⟨0x90c, 0, 1, [ro 0 32 0]⟩,  -- XREDISPATCH
  ⟨0x910, 0, 1, [ro 0 32 0]⟩,  -- XEXPIRED
  ⟨0x914, 0, 1, [ro 0 32 0]⟩,  -- XSTRAY
  ⟨0x918, 0, 1, [ro 0 32 0]⟩,  -- XREFUSED
  ⟨0x91c, 0, 1, [ro 0 32 0]⟩  -- XCREDIT_WAIT
  ]

/-- The registers of a MPD page: R217. -/
def regsMPD : List RegD := [
  ⟨0x20, 0, 1, [w1c 0 1]⟩,  -- INT_STS
  ⟨0x10, 0, 1, [w1c 0 1, w1c 1 1, w1c 2 1, w1c 3 1, w1c 4 1, w1c 5 1]⟩,  -- ERR_STS LINK_FAIL DRAM_UE MISMATCH TRAIN_FAIL SITE_FAIL ENGINE_FAIL
  ⟨0x100, 0, 1, [rwr 0 2 0 0 2, ro 4 2 0, ro 6 1 0]⟩,  -- BIN REQ CUR PENDING
  ⟨0x104, 0, 1, [rw 0 1 1, rwr 8 8 24 1 168]⟩,  -- SCRUB_CTL EN PERIOD
  ⟨0x108, 4, 4, [ro 0 1 0, ro 1 1 0, ro 2 1 0, ro 16 16 0]⟩,  -- SITE_STSj READY FAILED HOT RETRAIN
  ⟨0x118, 4, 4, [ro 0 25 0]⟩,  -- SCRUB_POSj
  ⟨0x128, 0, 1, [rw 0 2 0, rw 2 4 0, rw 6 2 0, w1s 8 1]⟩,  -- ERR_INJ SITE CHAN KIND ARM
  ⟨0x12c, 0, 1, [ro 0 2 0, ro 2 4 0, ro 8 8 0]⟩,  -- LAST_ERR SITE CHAN KIND
  ⟨0x130, 0, 1, [ro 0 32 0]⟩,  -- LAST_ERR_OFF_LO
  ⟨0x134, 0, 1, [ro 0 5 0]⟩,  -- LAST_ERR_OFF_HI
  ⟨0x800, 32, 4, [ro 0 32 0]⟩,  -- LINK_RETRYj
  ⟨0x804, 32, 4, [ro 0 32 0]⟩,  -- DRAM_CEj
  ⟨0x808, 32, 4, [ro 0 32 0]⟩,  -- DRAM_UEj
  ⟨0x80c, 32, 4, [ro 0 32 0]⟩,  -- MISMATCHj
  ⟨0x810, 32, 4, [ro 0 32 0]⟩,  -- POISON_MARKj
  ⟨0x814, 32, 4, [ro 0 32 0]⟩,  -- MERGEj
  ⟨0x818, 32, 4, [ro 0 32 0]⟩,  -- RETRAINj
  ⟨0x81c, 32, 4, [ro 0 32 0]⟩  -- SCRUB_PASSj
  ]

/-- The registers of a DMA page: R264. -/
def regsDMA : List RegD := [
  ⟨0x10, 0, 1, [w1c 0 1, w1c 1 1, w1c 2 1]⟩,  -- ERR_STS XFER_ERR TMO HOP
  ⟨0x20, 0, 1, [w1c 0 1, w1c 1 1]⟩,  -- INT_STS DONE ERR
  ⟨0x100, 4, 16, [rw 0 32 0]⟩,  -- SHk
  ⟨0x140, 4, 16, [ro 0 32 0]⟩,  -- ACTk
  ⟨0x180, 0, 1, [ro 0 1 0, ro 1 1 0, ro 2 1 0, ro 3 1 0, ro 16 16 0]⟩,  -- STATE ACTIVE POSTED READBACK STOPPING HOPS
  ⟨0x184, 0, 1, [ro 0 32 0]⟩,  -- PROGRESS
  ⟨0x188, 0, 1, [rwr 0 16 4096 1 65535]⟩,  -- HOP_LIMIT
  ⟨0x18c, 0, 1, [ro 0 8 0, ro 8 1 0, ro 16 16 0]⟩,  -- LAST_STS STATUS POISON HOPS
  ⟨0x190, 0, 1, [ro 0 32 0]⟩,  -- LAST_IMG_LO
  ⟨0x194, 0, 1, [ro 0 16 0]⟩,  -- LAST_IMG_HI
  ⟨0x198, 0, 1, [ro 0 32 0]⟩,  -- LAST_FAULT_LO
  ⟨0x19c, 0, 1, [ro 0 18 0, ro 18 1 0]⟩,  -- LAST_FAULT_HI ADDR_HI BUS
  ⟨0x1a0, 0, 1, [w1s 0 1, w1s 1 1]⟩,  -- STOP STOP DISCARD
  ⟨0x1a4, 0, 1, [ro 0 6 0, ro 31 1 0]⟩,  -- OWNER COVE ASSIGNED
  ⟨0x800, 0, 1, [ro 0 32 0]⟩,  -- IMG_DONE
  ⟨0x804, 0, 1, [ro 0 32 0]⟩,  -- IMG_FAILED
  ⟨0x808, 0, 1, [ro 0 32 0]⟩,  -- BYTES_RD_LO
  ⟨0x80c, 0, 1, [ro 0 32 0]⟩,  -- BYTES_RD_HI
  ⟨0x810, 0, 1, [ro 0 32 0]⟩,  -- BYTES_WR_LO
  ⟨0x814, 0, 1, [ro 0 32 0]⟩,  -- BYTES_WR_HI
  ⟨0x818, 0, 1, [ro 0 32 0]⟩,  -- HOPS
  ⟨0x81c, 0, 1, [ro 0 32 0]⟩,  -- POISON_GRAN
  ⟨0x820, 0, 1, [ro 0 32 0]⟩,  -- TMO_CNT
  ⟨0x824, 0, 1, [ro 0 32 0]⟩,  -- LATE_DROP
  ⟨0x828, 0, 1, [ro 0 32 0]⟩  -- SHADOW_BUSY
  ]

/-- The registers of a HEP (Table 11.4) page: R318. -/
def regsHEP : List RegD := [
  ⟨0x20, 0, 1, [w1c 0 1]⟩,  -- INT_STS
  ⟨0x10, 0, 1, [w1c 0 1, w1c 1 1, w1c 2 1, w1c 3 1]⟩,  -- ERR_STS LINK_DOWN UR_SENT POISON_RX CMPL_TMO
  ⟨0x100, 0, 1, [ro 0 4 0, ro 4 5 0, ro 9 1 0, ro 10 2 0]⟩,  -- LINK_STS SPEED WIDTH FLIT PM
  ⟨0x104, 0, 1, [rwr 0 16 10 1 1000]⟩,  -- L1_IDLE
  ⟨0x108, 0, 1, [rw 0 18 1440]⟩,  -- B4_BASE
  ⟨0x800, 0, 1, [ro 0 32 0]⟩,  -- UR_CNT
  ⟨0x804, 0, 1, [ro 0 32 0]⟩,  -- POISON_RX_CNT
  ⟨0x808, 0, 1, [ro 0 32 0]⟩,  -- CMPL_TMO_CNT
  ⟨0x80c, 0, 1, [ro 0 32 0]⟩,  -- REPLAY_CNT
  ⟨0x810, 0, 1, [ro 0 32 0]⟩,  -- L1_ENTRY_CNT
  ⟨0x814, 0, 1, [ro 0 32 0]⟩  -- RESET_CNT
  ]

/-- The registers of a APk (Table 11.4) page: R318. -/
def regsAP : List RegD := [
  ⟨0x20, 0, 1, [w1c 0 1]⟩,  -- INT_STS
  ⟨0x10, 0, 1, [w1c 0 1, w1c 1 1, w1c 2 1, w1c 3 1, w1c 4 1]⟩,  -- ERR_STS LINK_DOWN UR_SENT POISON_RX CMPL_TMO SURPRISE_DOWN
  ⟨0x100, 0, 1, [ro 0 4 0, ro 4 5 0, ro 9 1 0, ro 10 2 0]⟩,  -- LINK_STS SPEED WIDTH FLIT PM
  ⟨0x104, 0, 1, [rwr 0 16 10 1 1000]⟩,  -- L1_IDLE
  ⟨0x800, 0, 1, [ro 0 32 0]⟩,  -- UR_CNT
  ⟨0x804, 0, 1, [ro 0 32 0]⟩,  -- POISON_RX_CNT
  ⟨0x808, 0, 1, [ro 0 32 0]⟩,  -- CMPL_TMO_CNT
  ⟨0x80c, 0, 1, [ro 0 32 0]⟩,  -- REPLAY_CNT
  ⟨0x810, 0, 1, [ro 0 32 0]⟩,  -- L1_ENTRY_CNT
  ⟨0x814, 0, 1, [ro 0 32 0]⟩  -- RESET_CNT
  ]

/-- The registers of a WIN page: R319. -/
def regsWIN : List RegD := [
  ⟨0x20, 0, 1, [w1c 0 1]⟩,  -- INT_STS
  ⟨0x10, 0, 1, [w1c 0 1, w1c 1 1, w1c 2 1]⟩,  -- ERR_STS UNMAPPED COVE_DENY MULTI_HIT
  ⟨0x100, 16, 64, [rw 0 1 0, rw 1 1 0, rw 2 1 0, rw 8 8 0, rwr 16 6 16 16 41, rw 24 6 0, rw 30 1 0]⟩,  -- WINn_CTL EN RD WR PORTS SIZE COVE COVE_V
  ⟨0x104, 16, 64, [rw 16 16 0]⟩,  -- WINn_BUS_LO
  ⟨0x108, 16, 64, [rw 0 18 0]⟩,  -- WINn_BUS_HI
  ⟨0x10c, 16, 64, [rw 0 32 0]⟩,  -- WINn_DEV
  ⟨0x800, 8, 8, [ro 0 32 0]⟩,  -- CLAIM_WRk
  ⟨0x804, 8, 8, [ro 0 32 0]⟩,  -- CLAIM_RDk
  ⟨0x840, 0, 1, [ro 0 32 0]⟩,  -- UNMAPPED_CNT
  ⟨0x844, 0, 1, [ro 0 32 0]⟩,  -- MULTI_HIT_CNT
  ⟨0x848, 0, 1, [ro 0 32 0]⟩  -- COVE_DENY_CNT
  ]

/-- The registers of a COV page: R342. -/
def regsCOV : List RegD := [
  ⟨0x20, 0, 1, [w1c 0 1]⟩,  -- INT_STS
  ⟨0x10, 0, 1, [w1c 0 1, w1c 1 1]⟩,  -- ERR_STS DENY RESTORE_FAIL
  ⟨0x100, 0, 1, [rw 0 1 0]⟩,  -- MODE
  ⟨0x104, 0, 1, [ro 0 32 0]⟩,  -- EXIST_LO
  ⟨0x108, 0, 1, [ro 0 32 0]⟩,  -- EXIST_HI
  ⟨0x200, 16, 64, [ro 0 3 0, ro 3 1 0, ro 4 1 0]⟩,  -- COVEn_STS STATE RESIZE_PEND PEER_HOLD
  ⟨0x204, 16, 64, [ro 0 20 0]⟩,  -- COVEn_PASID
  ⟨0x208, 16, 64, [ro 0 32 0]⟩,  -- COVEn_SQ
  ⟨0x20c, 16, 64, [ro 0 8 0, ro 8 8 0, ro 16 7 0, ro 24 7 0]⟩,  -- COVEn_RES NDMA NRING JOBQ NNS
  ⟨0x800, 4, 64, [ro 0 32 0]⟩,  -- DENYn
  ⟨0x900, 0, 1, [ro 0 32 0]⟩,  -- RESET_CNT
  ⟨0x904, 0, 1, [ro 0 32 0]⟩,  -- RESIZE_CNT
  ⟨0x908, 0, 1, [ro 0 32 0]⟩,  -- FREEZE_CNT
  ⟨0x90c, 0, 1, [ro 0 32 0]⟩  -- RESTORE_CNT
  ]

/-- The registers of a NET page: R364, R370. -/
def regsNET : List RegD := [
  ⟨0x20, 0, 1, [w1c 0 1]⟩,  -- INT_STS
  ⟨0x10, 0, 1, [w1c 0 1, w1c 1 1, w1c 2 1]⟩,  -- ERR_STS LINK_DOWN FEC_UNCORR RX_OVERFLOW
  ⟨0x100, 0, 1, [rwr 0 2 1 0 2]⟩,  -- PORT_MODE
  ⟨0x104, 0, 1, [rw 0 8 0]⟩,  -- PORT_EN
  ⟨0x108, 0, 1, [rwr 0 14 9216 1518 9216]⟩,  -- MAXFRAME
  ⟨0x110, 4, 8, [ro 0 1 0, ro 1 2 0]⟩,  -- LINK_STSp UP RATE
  ⟨0x180, 0, 1, [rw 0 6 0]⟩,  -- HNQ_IDX
  ⟨0x184, 0, 1, [rw 0 32 0]⟩,  -- HNQ_TX_LO
  ⟨0x188, 0, 1, [rw 0 32 0]⟩,  -- HNQ_TX_HI
  ⟨0x18c, 0, 1, [rw 0 32 0]⟩,  -- HNQ_RX_LO
  ⟨0x190, 0, 1, [rw 0 32 0]⟩,  -- HNQ_RX_HI
  ⟨0x194, 0, 1, [rwr 0 4 6 6 12, rwr 4 4 6 6 12, rw 8 12 0, rw 20 1 0, rw 21 1 0, rw 22 9 0]⟩,  -- HNQ_CFG TX_LOG2 RX_LOG2 TXQ EN INT_OFF VEC
  ⟨0x198, 0, 1, [rw 0 12 0]⟩,  -- HNQ_TX_TAIL
  ⟨0x19c, 0, 1, [rw 0 12 0]⟩,  -- HNQ_RX_TAIL
  ⟨0x1a0, 0, 1, [ro 0 12 0]⟩,  -- HNQ_TX_HEAD
  ⟨0x1a4, 0, 1, [ro 0 12 0]⟩,  -- HNQ_RX_HEAD
  ⟨0x1b0, 0, 1, [rw 0 32 0]⟩,  -- HNF_MAC_LO
  ⟨0x1b4, 0, 1, [rw 0 16 0]⟩,  -- HNF_MAC_HI
  ⟨0x800, 32, 8, [ro 0 32 0]⟩,  -- RX_FRAMESp
  ⟨0x804, 32, 8, [ro 0 32 0]⟩,  -- TX_FRAMESp
  ⟨0x808, 32, 8, [ro 0 32 0]⟩,  -- RX_DROPp
  ⟨0x80c, 32, 8, [ro 0 32 0]⟩,  -- FCS_ERRp
  ⟨0x810, 32, 8, [ro 0 32 0]⟩,  -- FEC_CORRp
  ⟨0x814, 32, 8, [ro 0 32 0]⟩,  -- FEC_UNCORRp
  ⟨0x900, 0, 1, [ro 0 32 0]⟩,  -- HNQ_TX_FRAMES
  ⟨0x904, 0, 1, [ro 0 32 0]⟩,  -- HNQ_RX_FRAMES
  ⟨0x908, 0, 1, [ro 0 32 0]⟩,  -- HNQ_RX_DROP
  ⟨0x90c, 0, 1, [ro 0 32 0]⟩  -- HNQ_TX_ERR
  ]

/-- The registers of a PKT page: R365. -/
def regsPKT : List RegD := [
  ⟨0x20, 0, 1, [w1c 0 1]⟩,  -- INT_STS
  ⟨0x10, 0, 1, [w1c 0 1]⟩,  -- ERR_STS
  ⟨0x100, 0, 1, [rw 0 13 0]⟩,  -- RULE_IDX
  ⟨0x104, 0, 1, [rw 0 7 20]⟩,  -- LEN_OVHD
  ⟨0x108, 0, 1, [rwr 0 3 0 0 4, rw 3 6 0, rw 9 10 0]⟩,  -- DEFAULT_ACT DEST HOSTQ POLICER, the layout of W10
  ⟨0x10c, 0, 1, [rwr 0 10 1 1 1023]⟩,  -- POL_IDX
  ⟨0x110, 0, 1, [rw 0 1 0, rw 1 1 0]⟩,  -- POL_CFG AWARE RED_PASS
  ⟨0x114, 0, 1, [rwr 0 21 1600000 1 1600000]⟩,  -- POL_CIR
  ⟨0x118, 0, 1, [rwr 0 24 1048576 1 16777215]⟩,  -- POL_CBS
  ⟨0x11c, 0, 1, [rwr 0 21 1600000 1 1600000]⟩,  -- POL_PIR
  ⟨0x120, 0, 1, [rwr 0 24 1048576 1 16777215]⟩,  -- POL_PBS
  ⟨0x130, 4, 4, [rwr 0 2 0 0 2, rwr 2 2 0 0 2, rwr 4 2 0 0 2, rwr 6 2 0 0 2, rwr 8 2 0 0 2, rwr 10 2 0 0 2, rwr 12 2 0 0 2, rwr 14 2 0 0 2, rwr 16 2 0 0 2, rwr 18 2 0 0 2, rwr 20 2 0 0 2, rwr 22 2 0 0 2, rwr 24 2 0 0 2, rwr 26 2 0 0 2, rwr 28 2 0 0 2, rwr 30 2 0 0 2]⟩,  -- DSCP_COLk
  ⟨0x140, 4, 16, [rw 0 32 0]⟩,  -- RULE_Wk
  ⟨0x800, 0, 1, [ro 0 32 0]⟩,  -- PKTS_IN
  ⟨0x804, 0, 1, [ro 0 32 0]⟩,  -- TRUNC_CNT
  ⟨0x808, 0, 1, [ro 0 32 0]⟩,  -- MISS_CNT
  ⟨0x80c, 0, 1, [ro 0 32 0]⟩,  -- DROP_CNT
  ⟨0x810, 0, 1, [ro 0 32 0]⟩,  -- REORDER_STALL
  ⟨0x820, 0, 1, [ro 0 32 0]⟩,  -- POL_GREEN
  ⟨0x824, 0, 1, [ro 0 32 0]⟩,  -- POL_YELLOW
  ⟨0x828, 0, 1, [ro 0 32 0]⟩  -- POL_RED
  ]

/-- The registers of a TSQ page: R366. -/
def regsTSQ : List RegD := [
  ⟨0x20, 0, 1, [w1c 0 1]⟩,  -- INT_STS
  ⟨0x10, 0, 1, [w1c 0 1, w1c 1 1]⟩,  -- ERR_STS TAIL_DROP SND_MISS
  ⟨0x100, 0, 1, [rw 0 12 0]⟩,  -- Q_IDX
  ⟨0x104, 0, 1, [rw 0 9 0, rw 9 3 0, rwr 12 8 1 1 255, rw 20 1 0]⟩,  -- Q_CFG PARENT PRIO WEIGHT SHAPE_EN
  ⟨0x108, 0, 1, [rwr 0 21 1600000 1 1600000]⟩,  -- Q_RATE
  ⟨0x10c, 0, 1, [rwr 0 24 65536 1 16777215]⟩,  -- Q_BURST
  ⟨0x110, 0, 1, [rw 0 24 1048576]⟩,  -- Q_LIMIT
  ⟨0x114, 0, 1, [rw 0 9 0]⟩,  -- N_IDX
  ⟨0x118, 0, 1, [rw 0 3 0, rw 3 3 0, rwr 6 8 1 1 255, rw 14 1 0]⟩,  -- N_CFG PORT PRIO WEIGHT SHAPE_EN
  ⟨0x11c, 0, 1, [rwr 0 21 1600000 1 1600000]⟩,  -- N_RATE
  ⟨0x120, 0, 1, [rwr 0 24 65536 1 16777215]⟩,  -- N_BURST
  ⟨0x130, 16, 8, [rw 0 1 0]⟩,  -- P_CFGp
  ⟨0x134, 16, 8, [rwr 0 21 1600000 1 1600000]⟩,  -- P_RATEp
  ⟨0x138, 16, 8, [rwr 0 24 65536 1 16777215]⟩,  -- P_BURSTp
  ⟨0x1b0, 0, 1, [rw 0 7 20]⟩,  -- LEN_OVHD
  ⟨0x1b4, 0, 1, [rw 0 16 0]⟩,  -- SND_CTL
  ⟨0x1b8, 0, 1, [rw 0 12 0, rw 16 12 4095]⟩,  -- SND_RANGE FIRST LAST
  ⟨0x1bc, 0, 1, [rw 0 32 0]⟩,  -- SND_LO
  ⟨0x1c0, 0, 1, [rw 0 16 0]⟩,  -- SND_HI
  ⟨0x1c4, 0, 1, [rwr 0 5 12 12 20]⟩,  -- SND_SIZE
  ⟨0x1c8, 0, 1, [ro 0 20 0]⟩,  -- SND_HEAD
  ⟨0x1cc, 0, 1, [rw 0 20 0]⟩,  -- SND_TAIL
  ⟨0x1d0, 0, 1, [ro 0 32 0]⟩,  -- Q_DEPTH
  ⟨0x800, 0, 1, [ro 0 32 0]⟩,  -- PKTS_OUT
  ⟨0x804, 0, 1, [ro 0 32 0]⟩,  -- TAIL_DROP_CNT
  ⟨0x808, 0, 1, [ro 0 32 0]⟩,  -- SND_RECORDS
  ⟨0x80c, 0, 1, [ro 0 32 0]⟩,  -- SND_MISS_CNT
  ⟨0x810, 0, 1, [ro 0 32 0]⟩,  -- Q_SENT
  ⟨0x814, 0, 1, [ro 0 32 0]⟩  -- Q_DROP
  ]

/-- The registers of a NVT page: R424. -/
def regsNVT : List RegD := [
  ⟨0x20, 0, 1, [w1c 0 1]⟩,  -- INT_STS
  ⟨0x10, 0, 1, [w1c 0 1, w1c 1 1, w1c 2 1, w1c 3 1]⟩,  -- ERR_STS SSD_ERR BADBLK BADBLK_FULL DIGEST
  ⟨0x100, 0, 1, [rw 0 1 0, rw 1 1 0]⟩,  -- CTL EN MAINT
  ⟨0x104, 0, 1, [ro 0 2 0, ro 2 2 0, ro 4 1 0, ro 5 1 0]⟩,  -- STATE MODE PS SANITIZING FORMATTING
  ⟨0x108, 0, 1, [rw 0 16 4420, rw 16 16 8009]⟩,  -- PORT IO DISC
  ⟨0x10c, 0, 1, [rw 0 18 1494]⟩,  -- CACHE_BASE
  ⟨0x110, 0, 1, [rwr 0 7 16 1 64]⟩,  -- CACHE_SIZE
  ⟨0x114, 0, 1, [rw 0 12 3840, rwr 12 9 16 1 256]⟩,  -- TXQ QBASE QCOUNT
  ⟨0x118, 0, 1, [rw 0 6 0]⟩,  -- NS_IDX
  ⟨0x11c, 0, 1, [ro 0 1 0, rw 1 2 0, rw 3 1 0, rw 4 1 0, rw 5 6 0, rw 11 1 0]⟩,  -- NS_CFG VALID SRP LBAF ANYHOST COVE COVE_V
  ⟨0x120, 0, 1, [rw 0 32 0]⟩,  -- NS_SLBA_LO
  ⟨0x124, 0, 1, [rw 0 32 0]⟩,  -- NS_SLBA_HI
  ⟨0x128, 0, 1, [rw 0 32 0]⟩,  -- NS_NLB_LO
  ⟨0x12c, 0, 1, [rw 0 32 0]⟩,  -- NS_NLB_HI
  ⟨0x130, 4, 4, [rw 0 32 0]⟩,  -- NS_HOSTIDk
  ⟨0x140, 0, 1, [wo 0 2, ro 4 1 0, ro 5 1 0]⟩,  -- NS_CMD CMD REFUSED BUSY
  ⟨0x800, 0, 1, [ro 0 32 0]⟩,  -- RD_CMDS
  ⟨0x804, 0, 1, [ro 0 32 0]⟩,  -- WR_CMDS
  ⟨0x808, 0, 1, [ro 0 32 0]⟩,  -- FLUSH_CMDS
  ⟨0x80c, 0, 1, [ro 0 32 0]⟩,  -- CACHE_HIT
  ⟨0x810, 0, 1, [ro 0 32 0]⟩,  -- DESTAGED
  ⟨0x814, 0, 1, [ro 0 32 0]⟩,  -- XFER_WAIT
  ⟨0x818, 0, 1, [ro 0 32 0]⟩,  -- DIGEST_ERR
  ⟨0x81c, 0, 1, [ro 0 32 0]⟩,  -- CONN_REFUSED
  ⟨0x820, 0, 1, [ro 0 32 0]⟩,  -- ABORT_OK
  ⟨0x824, 0, 1, [ro 0 32 0]⟩,  -- ABORT_NOT
  ⟨0x828, 0, 1, [ro 0 32 0]⟩  -- BADBLK_CNT
  ]

/-- The registers of a CKP page: R440. -/
def regsCKP : List RegD := [
  ⟨0x20, 0, 1, [w1c 0 1]⟩,  -- INT_STS
  ⟨0x10, 0, 1, [w1c 0 1, w1c 1 1, w1c 2 1, w1c 3 1]⟩,  -- ERR_STS ABORTED COW_FULL BUDDY_LOST RESTORE_FAIL
  ⟨0x100, 0, 1, [ro 0 2 0, ro 2 1 0, ro 3 1 0]⟩,  -- STS STATE SLOT_NEXT SET_V
  ⟨0x104, 0, 1, [ro 0 10 0, ro 10 1 0, ro 16 10 0, ro 26 1 0]⟩,  -- BUDDY BUDDY BUDDY_V WARD WARD_V
  ⟨0x108, 0, 1, [ro 0 9 0]⟩,  -- SET_MAX
  ⟨0x10c, 0, 1, [ro 0 32 0]⟩,  -- SEQ_LO
  ⟨0x110, 0, 1, [ro 0 32 0]⟩,  -- SEQ_HI
  ⟨0x114, 0, 1, [ro 0 32 0]⟩,  -- TIDE_LO
  ⟨0x118, 0, 1, [ro 0 32 0]⟩,  -- TIDE_HI
  ⟨0x11c, 0, 1, [ro 0 32 0]⟩,  -- GRAN_TOTAL
  ⟨0x120, 0, 1, [ro 0 32 0]⟩,  -- GRAN_SENT
  ⟨0x124, 0, 1, [ro 0 32 0]⟩,  -- COW_USED
  ⟨0x800, 0, 1, [ro 0 32 0]⟩,  -- SNAP_DONE
  ⟨0x804, 0, 1, [ro 0 32 0]⟩,  -- SNAP_FAILED
  ⟨0x808, 0, 1, [ro 0 32 0]⟩,  -- PRESERVED
  ⟨0x80c, 0, 1, [ro 0 32 0]⟩,  -- WRITE_WAITS
  ⟨0x810, 0, 1, [ro 0 32 0]⟩,  -- POISON_SENT
  ⟨0x814, 0, 1, [ro 0 32 0]⟩  -- RESTORES
  ]

/-- The registers of a ERR page: R467. -/
def regsERR : List RegD := [
  ⟨0x10, 0, 1, [w1c 0 1, w1c 1 1]⟩,  -- ERR_STS REC_LOST MACHINE
  ⟨0x20, 0, 1, [w1c 0 1, w1c 1 1]⟩,  -- INT_STS REC SAFE
  ⟨0x100, 0, 1, [rw 0 1 0, w1s 1 1]⟩,  -- CTL ALERT_CONT RESUME
  ⟨0x104, 0, 1, [ro 0 1 0, ro 1 1 0, ro 2 1 0, ro 16 16 0]⟩,  -- SAFE_STS SAFE WARM_OK ESTOP CAUSE
  ⟨0x108, 0, 1, [wo 0 8, wo 8 1]⟩,  -- SAFE_CTL KEY EXIT
  ⟨0x10c, 0, 1, [ro 0 8 0, ro 8 9 0]⟩,  -- REC_HEAD HEAD UNREAD
  ⟨0x110, 0, 1, [rw 0 8 0]⟩,  -- REC_TAIL
  ⟨0x114, 0, 1, [rw 0 8 0]⟩,  -- REC_IDX
  ⟨0x120, 0, 1, [ro 0 2 0, ro 2 1 0]⟩,  -- GSTOP_STS STATE INEXACT
  ⟨0x124, 0, 1, [rwr 0 16 5 1 1000]⟩,  -- EBB_TMO
  ⟨0x128, 0, 1, [ro 0 6 63, ro 8 4 0, ro 12 1 0, ro 13 1 0]⟩,  -- PLAN CEIL VOFS EXHAUSTED BIN_PEND
  ⟨0x12c, 0, 1, [rwr 0 16 60 1 10080]⟩,  -- PLAN_PERIOD
  ⟨0x140, 4, 16, [ro 0 32 0]⟩,  -- REC_Wk
  ⟨0x800, 0, 1, [ro 0 32 0]⟩,  -- CORRECTED
  ⟨0x804, 0, 1, [ro 0 32 0]⟩,  -- DEFERRED
  ⟨0x808, 0, 1, [ro 0 32 0]⟩,  -- CONTAINED
  ⟨0x80c, 0, 1, [ro 0 32 0]⟩,  -- FATAL
  ⟨0x810, 0, 1, [ro 0 32 0]⟩,  -- ESCALATED
  ⟨0x814, 0, 1, [ro 0 32 0]⟩,  -- MERGED
  ⟨0x818, 0, 1, [ro 0 32 0]⟩,  -- REC_LOST_CNT
  ⟨0x81c, 0, 1, [ro 0 32 0]⟩  -- SAFE_CNT
  ]

/-- The registers of a SEC page: R482. -/
def regsSEC : List RegD := [
  ⟨0x20, 0, 1, [w1c 0 1]⟩,  -- INT_STS
  ⟨0x10, 0, 1, [w1c 0 1, w1c 1 1, w1c 2 1]⟩,  -- ERR_STS VERIFY_FAIL NOR_FAIL MEASURE_FAIL
  ⟨0x100, 0, 1, [ro 0 4 0, ro 4 2 0]⟩,  -- KEYS REVOKED SLOT
  ⟨0x104, 0, 1, [ro 0 16 0, ro 16 5 0]⟩,  -- SVN REC FUSE
  ⟨0x108, 0, 1, [ro 0 32 0]⟩,  -- LEAF_LO
  ⟨0x10c, 0, 1, [ro 0 8 0]⟩,  -- LEAF_HI
  ⟨0x110, 0, 1, [ro 0 32 0]⟩,  -- RESV_LO
  ⟨0x114, 0, 1, [ro 0 8 0]⟩,  -- RESV_HI
  ⟨0x118, 0, 1, [ro 0 1 0, ro 1 1 0]⟩,  -- WMEAS BUSY WHASH_V
  ⟨0x800, 0, 1, [ro 0 32 0]⟩,  -- REPORTS
  ⟨0x804, 0, 1, [ro 0 32 0]⟩,  -- VERIFY_FAILS
  ⟨0x808, 0, 1, [ro 0 32 0]⟩  -- LEAF_BLOCKS
  ]

/-- The registers of a TRC page: R499. -/
def regsTRC : List RegD := [
  ⟨0x10, 0, 1, []⟩,  -- ERR_STS
  ⟨0x20, 0, 1, [w1c 0 1]⟩,  -- INT_STS
  ⟨0x100, 0, 1, [ro 0 32 0]⟩,  -- TS_LO
  ⟨0x104, 0, 1, [ro 0 32 0]⟩,  -- TS_HI
  ⟨0x108, 0, 1, [rwr 0 16 256 16 65535]⟩,  -- SYNC_INT
  ⟨0x10c, 0, 1, [rw 0 1 0, rwr 1 5 10 0 16]⟩,  -- MSG EN LOG2
  ⟨0x110, 0, 1, [rw 0 3 0]⟩,  -- TB_IDX
  ⟨0x114, 0, 1, [rw 0 1 0, rwr 1 2 0 0 2, rw 3 5 0, w1s 8 1]⟩,  -- TB_CTL EN POLICY TRIGEN SWTRIG
  ⟨0x118, 0, 1, [rw 0 32 0]⟩,  -- TB_BASE
  ⟨0x11c, 0, 1, [rwr 0 5 16 12 26]⟩,  -- TB_SIZE
  ⟨0x120, 0, 1, [rw 0 32 0]⟩,  -- TB_SRC_LO
  ⟨0x124, 0, 1, [rw 0 5 0, rw 5 1 0]⟩,  -- TB_SRC_HI CORES MSG
  ⟨0x128, 0, 1, [rw 0 26 0]⟩,  -- TB_PRE
  ⟨0x12c, 0, 1, [rw 0 12 0]⟩,  -- TB_TRIG
  ⟨0x130, 0, 1, [rw 0 32 0]⟩,  -- TB_TRIG_TIDE_LO
  ⟨0x134, 0, 1, [rw 0 32 0]⟩,  -- TB_TRIG_TIDE_HI
  ⟨0x138, 0, 1, [ro 0 26 0]⟩,  -- TB_WPTR
  ⟨0x13c, 0, 1, [ro 0 1 0, ro 1 1 0, ro 2 1 0]⟩,  -- TB_STS STOPPED TRIGGERED WRAPPED
  ⟨0x140, 0, 1, [ro 0 16 0]⟩,  -- DMP_HEAD
  ⟨0x144, 0, 1, [rw 0 16 0]⟩,  -- DMP_TAIL
  ⟨0x800, 8, 8, [ro 0 32 0]⟩,  -- LOSTb
  ⟨0x804, 8, 8, [ro 0 32 0]⟩,  -- DISCARDb
  ⟨0x840, 0, 1, [ro 0 32 0]⟩,  -- DUMPS
  ⟨0x844, 0, 1, [ro 0 32 0]⟩,  -- DMP_MISSED
  ⟨0x848, 0, 1, [ro 0 32 0]⟩,  -- DUMP_LOST
  ⟨0x84c, 0, 1, [ro 0 32 0]⟩  -- DMP_RACED
  ]

/-- The registers of a CNT page: R499. -/
def regsCNT : List RegD := [
  ⟨0x10, 0, 1, []⟩,  -- ERR_STS
  ⟨0x20, 0, 1, [w1c 0 1]⟩,  -- INT_STS
  ⟨0x100, 0, 1, [rw 0 1 0, rwr 16 16 1 1 65535]⟩,  -- SWP_CTL EN EVERY
  ⟨0x104, 0, 1, [rw 0 32 0]⟩,  -- SWP_LO
  ⟨0x108, 0, 1, [rw 0 16 0]⟩,  -- SWP_HI
  ⟨0x10c, 0, 1, [rwr 0 4 4 1 12]⟩,  -- SWP_SIZE
  ⟨0x110, 0, 1, [ro 0 12 0]⟩,  -- SWP_HEAD
  ⟨0x114, 0, 1, [rw 0 12 0]⟩,  -- SWP_TAIL
  ⟨0x140, 4, 32, [rw 0 12 0, rw 31 1 0]⟩,  -- SWP_PAGEk PAGE V
  ⟨0x800, 0, 1, [ro 0 32 0]⟩,  -- SWEEPS
  ⟨0x804, 0, 1, [ro 0 32 0]⟩  -- SWEEP_MISS
  ]

/-- The registers of a GEN page: R511. -/
def regsGEN : List RegD := [
  ⟨0x20, 0, 1, [w1c 0 1]⟩,  -- INT_STS
  ⟨0x10, 0, 1, [w1c 0 1]⟩,  -- ERR_STS
  ⟨0x100, 0, 1, [ro 0 16 5650, ro 16 4 0, ro 20 8 0]⟩,  -- PART NUMBER VARIANT STEPPING
  ⟨0x104, 4, 4, [ro 0 32 0]⟩,  -- SERIALk
  ⟨0x114, 0, 1, [w1c 0 1, w1c 1 1, w1c 2 1, w1c 3 1]⟩,  -- RESET_CAUSE POWER_ON SB_RST FUND_RESET WARM_EXIT
  ⟨0x118, 0, 1, [ro 0 1 0, ro 1 1 0, ro 2 1 0, ro 3 1 0]⟩,  -- DEV_STATE SLACK SAFE LEASE_EXPIRED CUT
  ⟨0x11c, 0, 1, [rw 0 9 0, rw 31 1 0]⟩,  -- IRQ_CTL VEC EN
  ⟨0x140, 4, 10, [ro 0 32 0]⟩,  -- IRQ_SUMk
  ⟨0x800, 0, 1, [ro 0 32 0]⟩  -- BAR0_DROP_CNT
  ]

/-- The registers of a TIDE page: R512. -/
def regsTIDE : List RegD := [
  ⟨0x20, 0, 1, [w1c 0 1]⟩,  -- INT_STS
  ⟨0x10, 0, 1, [w1c 0 1, w1c 1 1, w1c 2 1, w1c 3 1, w1c 4 1]⟩,  -- ERR_STS REPORT_TMO CONFLICT OVERRUN STEP_LIMIT LOAD_REFUSED
  ⟨0x100, 0, 1, [rw 0 32 0]⟩,  -- CUR_LO
  ⟨0x104, 0, 1, [rw 0 32 0]⟩,  -- CUR_HI
  ⟨0x108, 0, 1, [ro 0 10 0, ro 10 1 0, ro 11 1 0, ro 16 10 0]⟩,  -- ROLE DEV HEADLAND CONFIGURED HEAD_DEV
  ⟨0x10c, 0, 1, [rwr 0 24 10000 100 10000000]⟩,  -- REPORT_TMO
  ⟨0x110, 0, 1, [ro 0 32 0]⟩,  -- NEXT_LO
  ⟨0x114, 0, 1, [ro 0 32 0]⟩,  -- NEXT_HI
  ⟨0x118, 0, 1, [ro 0 1 0, ro 1 1 0, ro 2 1 0, ro 16 16 0]⟩,  -- ADV_STS PENDING HELD SBT_LEVEL WAITING
  ⟨0x11c, 0, 1, [rwr 0 24 100000 1000 10000000]⟩,  -- MARK_TMO
  ⟨0x800, 0, 1, [ro 0 32 0]⟩,  -- ADVANCES
  ⟨0x804, 0, 1, [ro 0 32 0]⟩,  -- STALE_CNT
  ⟨0x808, 0, 1, [ro 0 32 0]⟩,  -- SOURCE_DROP
  ⟨0x80c, 0, 1, [ro 0 32 0]⟩,  -- ORPHAN_CNT
  ⟨0x810, 0, 1, [ro 0 32 0]⟩,  -- EDGE_MISS_CNT
  ⟨0x814, 0, 1, [ro 0 32 0]⟩,  -- OVERRUN_CNT
  ⟨0x818, 0, 1, [ro 0 32 0]⟩,  -- REPORT_TMO_CNT
  ⟨0x81c, 0, 1, [ro 0 32 0]⟩  -- MARK_STOP_CNT
  ]

/-- The registers of a FWR page: R513. -/
def regsFWR : List RegD := [
  ⟨0x20, 0, 1, [w1c 0 1]⟩,  -- INT_STS
  ⟨0x10, 0, 1, [w1c 0 1, w1c 1 1, w1c 2 1, w1c 3 1]⟩,  -- ERR_STS LOAD_FAIL CORE_RESTART LEASE_EXPIRED ROLLBACK
  ⟨0x100, 0, 1, [rw 12 20 0]⟩,  -- LOAD_ADDR_LO
  ⟨0x104, 0, 1, [rw 0 16 0]⟩,  -- LOAD_ADDR_HI
  ⟨0x108, 0, 1, [rwr 0 26 0 256 33554432]⟩,  -- LOAD_SIZE
  ⟨0x10c, 0, 1, [wo 0 1, wo 1 1]⟩,  -- LOAD_CTL GO ADMIN_GO
  ⟨0x110, 0, 1, [ro 0 4 0, ro 4 1 0, ro 8 8 0]⟩,  -- LOAD_STS STATE ADMIN_ON CODE
  ⟨0x120, 0, 1, [rw 0 32 0]⟩,  -- ADMIN_SQ_LO
  ⟨0x124, 0, 1, [rw 0 16 0]⟩,  -- ADMIN_SQ_HI
  ⟨0x128, 0, 1, [rw 0 32 0]⟩,  -- ADMIN_CQ_LO
  ⟨0x12c, 0, 1, [rw 0 16 0]⟩,  -- ADMIN_CQ_HI
  ⟨0x130, 0, 1, [rwr 0 4 6 4 12, rwr 4 4 6 4 12, rw 16 9 0]⟩,  -- ADMIN_CFG SQ_LOG2 CQ_LOG2 VEC
  ⟨0x140, 0, 1, [ro 0 8 0, ro 8 8 0]⟩,  -- IFVER IF_MAJ IF_MIN
  ⟨0x144, 4, 4, [ro 0 32 0]⟩,  -- FEAT_SUPi
  ⟨0x154, 4, 4, [ro 0 32 0]⟩,  -- FEAT_ACTi
  ⟨0x170, 0, 1, [w1s 0 1, ro 8 2 0]⟩,  -- LEASE RENEW STATE
  ⟨0x174, 0, 1, [rwr 0 16 500 50 60000]⟩,  -- LEASE_MS
  ⟨0x178, 0, 1, [ro 0 9 0]⟩,  -- EVT_PEND
  ⟨0x17c, 0, 1, [ro 0 16 0, ro 16 8 0, ro 24 8 0]⟩,  -- FW_VER PATCH MINOR MAJOR
  ⟨0x800, 0, 1, [ro 0 32 0]⟩,  -- CMDS_DONE
  ⟨0x804, 0, 1, [ro 0 32 0]⟩,  -- LEASE_EXP_CNT
  ⟨0x808, 0, 1, [ro 0 32 0]⟩,  -- RESTART_CNT
  ⟨0x80c, 0, 1, [ro 0 32 0]⟩,  -- UPDATE_CNT
  ⟨0x810, 0, 1, [ro 0 32 0]⟩  -- ROLLBACK_CNT
  ]

/-- The registers of a SRP page: R514. -/
def regsSRP : List RegD := [
  ⟨0x20, 0, 1, [w1c 0 1]⟩,  -- INT_STS
  ⟨0x10, 0, 1, [w1c 0 4, w1c 4 4, w1c 8 4]⟩  -- ERR_STS LINK_DOWN CMPL_TMO POISON_REFUSED
  ]

/-- The registers of a PWR page: R537. -/
def regsPWR : List RegD := [
  ⟨0x20, 0, 1, [w1c 0 1]⟩,  -- INT_STS
  ⟨0x10, 0, 1, [w1c 0 1, w1c 1 1, w1c 2 1, w1c 3 1]⟩,  -- ERR_STS INPUT_RANGE SENSE_OPEN THERM TRIP
  ⟨0x100, 0, 1, [ro 0 6 63, ro 6 1 0, ro 8 6 63, ro 16 1 0, ro 17 1 0]⟩,  -- STS LEVEL HOLD CEIL PG THERM_N
  ⟨0x104, 0, 1, [ro 0 11 1650, ro 16 11 0]⟩,  -- CAP ACTIVE BMC
  ⟨0x108, 0, 1, [ro 0 17 0]⟩,  -- VIN
  ⟨0x10c, 0, 1, [ro 0 11 0, ro 16 11 0]⟩,  -- PIN W W_1S
  ⟨0x110, 0, 1, [ro 0 4 0, ro 4 4 0, w1c 31 1]⟩,  -- FAULT CAUSE RAIL VALID
  ⟨0x114, 0, 1, [ro 0 16 0]⟩,  -- SENSE_OPEN
  ⟨0x118, 0, 1, [ro 0 32 0]⟩,  -- ENERGY_LO
  ⟨0x11c, 0, 1, [ro 0 32 0]⟩,  -- ENERGY_HI
  ⟨0x800, 0, 1, [ro 0 32 0]⟩,  -- THROTTLE_PWR
  ⟨0x804, 0, 1, [ro 0 32 0]⟩,  -- THROTTLE_THERM
  ⟨0x808, 0, 1, [ro 0 32 0]⟩,  -- HOLD_DROPS
  ⟨0x80c, 0, 1, [ro 0 32 0]⟩  -- THERM_ASSERT
  ]

/-- The registers of a CLK page: R538. -/
def regsCLK : List RegD := [
  ⟨0x20, 0, 1, [w1c 0 1]⟩,  -- INT_STS
  ⟨0x10, 0, 1, [w1c 0 1, w1c 1 1, w1c 2 1]⟩,  -- ERR_STS PREF_LOSS NREF_LOSS PLL_UNLOCK
  ⟨0x100, 0, 1, [ro 0 1 0, ro 1 1 0, ro 2 4 0, ro 6 2 0, ro 8 1 0, ro 9 1 0]⟩,  -- LOCK CORE SEC MPD LD PREF NREF
  ⟨0x104, 0, 1, [ro 0 6 63, ro 8 1 1]⟩,  -- LEVEL LEVEL VCLK_GATED
  ⟨0x800, 0, 1, [ro 0 32 0]⟩,  -- LEVEL_CHANGES
  ⟨0x804, 0, 1, [ro 0 32 0]⟩,  -- VCLK_WAKES
  ⟨0x808, 0, 1, [ro 0 32 0]⟩  -- REF_LOSS_CNT
  ]

/-- The registers of a block's own chapter. -/
def Blk.regs : Blk → List RegD
  | .gen => regsGEN | .pwr => regsPWR | .clk => regsCLK | .tide => regsTIDE | .sec => regsSEC | .err => regsERR
  | .trc => regsTRC | .cnt => regsCNT | .fwr => regsFWR | .xc => regsXC | .mpd => regsMPD | .hep => regsHEP | .ap => regsAP
  | .srp => regsSRP | .net => regsNET | .pkt => regsPKT | .tsq => regsTSQ | .emh => regsEMH | .nvt => regsNVT
  | .ckp => regsCKP | .cov => regsCOV | .win => regsWIN | .dma => regsDMA

/-- Does a register of the table stand at page offset `o`? -/
def RegD.at (r : RegD) (o : Nat) : Bool :=
  if r.stride = 0 then o == r.off
  else decide (r.off ≤ o) && (o - r.off) % r.stride == 0 && decide ((o - r.off) / r.stride < r.n)

/-- The fields at page offset `o` of a block; none where the block defines no register there (R500). -/
def Blk.fieldsAt (b : Blk) (o : Nat) : Option (List FieldD) :=
  if o % 0x1000 < 0x100 ∧ o % 0x1000 ≠ 0x10 ∧ o % 0x1000 ≠ 0x20 then
    ((regsHdr.find? (·.at o)).map fun r =>
      if o = 8 ∧ b = .tide then r.flds ++ [rw 8 1 0] else r.flds)
  else (b.regs.find? (·.at o)).map (·.flds)

/-- The fields of register `k`, where the map has it. -/
def fieldsOf (k : Nat) : Option (List FieldD) :=
  match pageBlk (k / 0x1000 % 0x1000) with
  | none => none
  | some (b, _) => b.fieldsAt (k % 0x1000)

/-- The number whose fields hold their reset values. -/
def resetOf (l : List FieldD) : Nat := l.foldl (fun a f => a + f.rst * 2 ^ f.lo) 0

/-- The reset value of register `k` (R10); a register that does not exist reads zero (R500). The mask bit of an MSI-X
table entry (R295) is set at reset, as PCIe has it (PRESUMED, log entry 3). -/
def regReset (k : Nat) : Word :=
  match fieldsOf k with
  | none => if 0x200000 ≤ k ∧ k < 0x202000 ∧ k % 16 = 12 then 1 else 0
  | some l => BitVec.ofNat 32 (resetOf l)

/-- The bits that exist in a register (R11). -/
def maskOf (l : List FieldD) : Nat := l.foldl (fun a f => a ||| ((2 ^ f.w - 1) * 2 ^ f.lo)) 0

/-- The bits of a register with access code `a`. -/
def accMask (a : Acc) (l : List FieldD) : Nat := maskOf (l.filter (·.acc = a))

/-- Is register `k` double-banked (Table 20.3)? The shadow set of a DMA engine is posted, not copied (R255). -/
def isBanked (k : Nat) : Bool :=
  let o := k % 0x1000
  match pageBlk (k / 0x1000 % 0x1000) with
  | some (.xc, _) => o == 0x108 || (decide (0x140 ≤ o) && decide (o < 0x180))
  | some (.emh, _) => o == 0x604 || o == 0x608
  | some (.hep, _) => o == 0x108
  | some (.win, _) => decide (0x100 ≤ o) && decide (o < 0x500)
  | some (.pkt, _) => o == 0x104 || (decide (0x110 ≤ o) && decide (o ≤ 0x120)) || (decide (0x130 ≤ o) && decide (o < 0x140))
  | some (.tsq, _) => (decide (0x104 ≤ o) && decide (o ≤ 0x110)) || (decide (0x118 ≤ o) && decide (o ≤ 0x120))
      || (decide (0x130 ≤ o) && decide (o < 0x1b4))
  | some (.dma, _) => decide (0x100 ≤ o) && decide (o < 0x140)
  | _ => false

/-- Does the block have double-banked registers (CAP.DBANK, Table 20.3)? -/
def Blk.dbank : Blk → Bool
  | .xc | .emh | .hep | .win | .pkt | .tsq | .dma => true
  | _ => false

end Sys2Proof.Machine
end

