-- ==== Sys2Proof/Machine/State.lean ====
section
/-!
DEFINITION. Machine/State.lean: everything the spec gives the machine, as plain data; what stops a command; the machine
right after reset.
-/
namespace Sys2Proof.Machine

/-- The stored check word of a granule: its CRC-32C, the poison mark, or another value (R195, R196, R203). -/
inductive Mark
  | good | poison | bad
deriving DecidableEq, Repr

/-- An error of the hardware that the next operation of its place meets (Table 7.4): of a channel of a site, a link CRC
error cured by `n` retries, a command or address parity error, an on-die ECC error corrected or uncorrectable; of a granule
of the harbour or of cluster SRAM, a single-bit or an uncorrectable error. -/
inductive Upset
  | link (site ch n : Nat)
  | parity (site ch : Nat)
  | dramCe (site ch : Nat)
  | dramUe (site ch : Nat)
  | sramCe (gran : Nat)
  | sramUe (gran : Nat)
deriving DecidableEq, Repr

/-- What a storage controller found in a merge whose record is not written yet (R203): a mismatch, or an error it met, at an
address; the unit that wrote, and the domain of the write. -/
structure Found where
  up : Option Upset
  addr : Nat
  pg : Nat
  dom : Nat
deriving DecidableEq, Repr

/-- COMMIT of one page (Table 2.7): the armed tide while a commit is pending; LATE, WDROP, SEQ. `skip`: the commit was
armed during the hold of the boundary now being applied, so it belongs to the next one (R54). -/
structure Commit where
  armed : Option DWord := none
  skip : Bool := false
  late : Bool := false
  wdrop : Bool := false
  seq : Byte := 0
deriving DecidableEq, Repr

/-- The device's role in its domain (R20). -/
inductive Role
  | unset | headland | worker
deriving DecidableEq, Repr

/-- Why the device is in slack: R48, R24, R282, R25, R448, R456. -/
structure Slack where
  startup : Bool := false
  stop : Bool := false
  lease : Bool := false
  conflict : Bool := false
  escal : Bool := false
  cut : Bool := false
deriving DecidableEq, Repr

/-- A request the headland sent to its members and whose answers it awaits (R135, R432, R455, R462, R463): the message
type sent, the ring command it serves, its tide, argument and device, and who has yet to answer. -/
structure CtlOp where
  req : Nat
  cid : Nat
  tide : DWord
  arg : Nat := 0
  dev : Nat := 0
  waiting : List Nat := []
  refused : List Nat := []
  /-- devices whose missing answer has been recorded -/
  late : List Nat := []
deriving DecidableEq, Repr

/-- The TIDE block and the device's part in its domain (chapters 1 and 2). -/
structure Tide where
  /-- current tide, and the staging word of CUR_LO -/
  cur : DWord := 0
  /-- the tide before the boundary being applied -/
  prev : DWord := 0
  stage : Word := 0
  /-- NEXT: the value last named by TADV or by an announcement -/
  next : DWord := 0
  role : Role := .unset
  dev : Nat := 0
  headDev : Nat := 0
  configured : Bool := false
  /-- the domain's other members, and those excluded (R462) -/
  members : List Nat := []
  excluded : List Nat := []
  /-- a device is included from this tide on (R463) -/
  including : List (Nat × DWord) := []
  /-- excluded from this tide on (R462) -/
  excluding : List (Nat × DWord) := []
  /-- the acceptance of operations is held while a boundary is applied (R60) -/
  hold : Bool := false
  /-- headland: an advance awaits reports; worker: an announcement awaits its edge -/
  pending : Bool := false
  held : Option DWord := none
  /-- a tide mark held while in lease slack (R282) -/
  leaseHeld : Option DWord := none
  /-- sequencers that have signalled done for the current tide (R43) -/
  done : List Nat := []
  /-- own report for the current tide made; devices whose report for it has arrived -/
  reported : Bool := false
  reports : List Nat := []
  /-- the report of this tide has timed out already (R45) -/
  tmoSeen : List Nat := []
  /-- headland: an announcement was sent and its edge on SB_TIDE is not driven yet (R49) -/
  announced : Bool := false
  /-- level of SB_TIDE after its filter -/
  level : Bool := false
  /-- headland: DOMAIN_START in progress: command tag, tide S, workers asked and not yet answered, workers that agreed -/
  start : Option (Nat × DWord × List Nat × List Nat) := none
  ctlOps : List CtlOp := []
  /-- the worker treats tide marks as stopped and will enter slack when its work is finished (R24) -/
  stopping : Bool := false
  /-- the tide S of the start that took the worker out of start-up slack; it returns there when its work is finished
  (R48) -/
  startS : Option DWord := none
  restart : Bool := false
deriving DecidableEq, Repr

/-- An error record (Table 17.2). -/
structure ErrRec where
  seq : Nat := 0
  cls : Nat := 0
  base : Nat := 0
  escal : Bool := false
  hist : Bool := false
  domain : Nat := 0
  srcType : Nat := 0
  srcInst : Nat := 0
  code : Nat := 0
  count : Nat := 0
  ts : DWord := 0
  tide : DWord := 0
  info0 : DWord := 0
  info1 : DWord := 0
deriving DecidableEq, Repr

/-- An open handling window (R445): domain, code and source instance of its record, and the record's index. -/
structure Window where
  domain : Nat
  code : Nat
  srcType : Nat
  srcInst : Nat
  idx : Nat
deriving DecidableEq, Repr

/-- The ERR block's ring and windows (chapter 17), and the NOR error history (R444). -/
structure Err where
  recs : Map ErrRec := []
  seq : Nat := 0
  windows : List Window := []
  /-- corrected errors recorded: source page and code, and when last (Table 17.1) -/
  corrSeen : List ((Nat × Nat) × DWord) := []
  /-- ports with a PEER_WRITE_STOPPED record of the running cut, and where in the ring it stands (R458) -/
  stopRecs : List (Nat × Nat) := []
  norHistory : List ErrRec := []
  /-- summaries of crash dumps in the NOR error history (R288) -/
  norDumps : List (List Byte) := []
  /-- fatal records not yet copied to NOR history are none: the copy is made with the record -/
  gstopTide : Option DWord := none
  gstopCid : Option Nat := none
  /-- headland: members whose CUT_REPORT is outstanding; a member was inexact; a member was lost -/
  cutWait : List Nat := []
  cutInexact : Bool := false
  cutLost : Bool := false
  /-- CAUSE was THERMAL_TRIP or the temperature is above its operating limit (R453) -/
  hot : Bool := false
  tripped : Bool := false
  warmNever : Bool := false
  /-- level of the SB_ALERT_N output, asserted -/
  alert : Bool := false
deriving DecidableEq, Repr

/-- One ring pair (R268 to R271). -/
structure Ring where
  enabled : Bool := false
  err : Bool := false
  errKind : Nat := 0
  driver : Bool := false
  cove : Nat := 0
  sqBase : Nat := 0
  sqLog : Nat := 0
  cqBase : Nat := 0
  cqLog : Nat := 0
  vec : Nat := 0
  sqHead : Nat := 0
  sqTail : Nat := 0
  cqHead : Nat := 0
  cqTail : Nat := 0
  /-- PHASE of the next completion entry -/
  phase : Bool := true
  /-- completion entries reserved for fetched commands -/
  reserved : Nat := 0
  intMask : Bool := false
deriving DecidableEq, Repr

/-- A command fetched from a ring and not completed (Table 10.5). -/
structure Cmd where
  pair : Nat
  cid : Nat
  opc : Nat
  arm : Bool
  late : Bool := false
  tide : DWord := 0
  buf : Nat := 0
  buflen : Nat := 0
  param : List Byte := []
  /-- 0: its row has not run; 1: it is armed or in progress -/
  phase : Nat := 0
deriving DecidableEq, Repr

/-- The pool layout (Table 2.4): bases and sizes in bytes. -/
structure Layout where
  wBase : Nat := 0
  wSize : Nat := 640 * 2 ^ 30
  kBase : Nat := 640 * 2 ^ 30
  kSize : Nat := 384 * 2 ^ 30
  sBase : Nat := 1024 * 2 ^ 30
  sSize : Nat := 96 * 2 ^ 30
  bBase : Nat := 1120 * 2 ^ 30
  bSize : Nat := 320 * 2 ^ 30
  cBase : Nat := 1440 * 2 ^ 30
  cSize : Nat := 72 * 2 ^ 30
deriving DecidableEq, Repr

/-- A firmware image's header (Table 10.1). -/
structure Image where
  major : Nat := 0
  minor : Nat := 0
  patch : Nat := 0
  ifMaj : Nat := 0
  ifMin : Nat := 0
  svn : Nat := 0
  size : Nat := 0
  feat : Nat := 0
  entry : List Nat := []
  sigOff : Nat := 0
  sigLen : Nat := 0
  digest : Nat := 0
deriving DecidableEq, Repr

/-- A live update in progress (R276 to R280). `stage` 0: verifying; 1: handover armed; 2: the new image runs and has not
confirmed. `mine`: commands the new image fetched are those with tag at or above the mark kept at the handover. -/
structure Update where
  cid : Nat
  arm : Option DWord
  img : Image
  stage : Nat
  before : List (Nat × Nat) := []
  old : Image := {}
deriving DecidableEq, Repr

/-- Firmware, rings, lease, loops (chapter 10). -/
structure Fw where
  rings : Map Ring := []
  fetched : List Cmd := []
  negotiated : Bool := false
  /-- a renewal was written after the expiry (R283); commands on other pairs are not fetched -/
  renewed : Bool := false
  /-- slot of the running image, and the running image -/
  slotB : Bool := false
  image : Image := {}
  /-- the image being verified at load -/
  verifying : Bool := false
  update : Option Update := none
  layout : Layout := {}
  /-- 0 to 3: SVn; 4: SEC0. The core whose restart began last, and crashes of each in the last 60 s -/
  restarting : List Nat := []
  crashes : List Nat := [0, 0, 0, 0, 0]
  /-- dumps kept: how many were written (the last eight are kept), and which are in NOR as summaries -/
  dumps : Nat := 0
  logBase : Nat := 0
  logLog2 : Nat := 0
  logSeq : Nat := 0
  logOn : Bool := false
  capDrv : Nat := 1650
  capBmc : Nat := 0
  /-- clock level and ceilings of the loops (R291, R464); when THROTTLE was posted last -/
  thermCeil : Nat := 63
  pLevel : Nat := 63
  throttled : Option DWord := none
  /-- the tide at which the lease expired, or an error was escalated: at the boundary after it the device enters slack (R282,
  R448) -/
  leaseSlackPend : Option DWord := none
  escalSlackPend : Option DWord := none
deriving DecidableEq, Repr

/-- A general register: value and tag (R221). -/
structure Reg where
  v : DWord := 0
  tag : Nat := 0
deriving DecidableEq, Repr

/-- A Briesk core (chapter 8): numbers 0 to 31 are SQ0 to SQ31, 32 to 35 SV0 to SV3, 36 SEC0. -/
structure Core where
  gr : List Reg := List.replicate 32 {}
  /-- program counter, a CODE value -/
  pc : DWord := 0
  n : Bool := false
  z : Bool := false
  c : Bool := false
  v : Bool := false
  t : Bool := false
  watch : Option DWord := none
  running : Bool := false
  /-- trap record (Table 8.10); `cause` 0: none -/
  cause : Nat := 0
  insn : Nat := 0
  fault : DWord := 0
  tideAt : DWord := 0
  /-- a SYSCALL the firmware has not served yet -/
  sysWait : Bool := false
  grant : Nat := 0
  ngrant : Nat := 0
  cove : Nat := 0
  part : Bool := false
  sealKey : Nat := 0
  /-- the core was launched for a cove, not for the driver -/
  launched : Bool := false
  /-- control registers 0x000 to 0x005 of a privileged core (R242) -/
  cr : List DWord := [0, 0, 0, 0, 0, 0]
deriving DecidableEq, Repr

/-- A memory range of a cove, in bytes (Table 12.2). -/
structure Range where
  base : Nat
  size : Nat
  w : Bool
deriving DecidableEq, Repr

/-- What a cove holds (Tables 12.1 and 12.2). -/
structure CoveCfg where
  pasid : Nat := 0
  sqMask : Nat := 0
  jobq : Nat := 0
  ranges : List Range := []
  dmaMask : Nat := 0
  ringMask : Nat := 0
  nsMask : Nat := 0
  connq : Nat := 0
  /-- the configuration record itself -/
  raw : List Byte := []
deriving DecidableEq, Repr

/-- A cove (chapter 12). State: 0 NONE, 1 ACTIVE, 2 FREEZING, 3 FROZEN, 4 RESETTING. -/
structure Cove where
  state : Nat := 0
  cfg : CoveCfg := {}
  peerHold : Bool := false
  sealKey : Nat := 0
  /-- the reset was of a FROZEN cove; the commands being served by the reset, by the freeze, by a destroy -/
  wasFrozen : Bool := false
  opCid : Option Nat := none
  freezeCid : Option Nat := none
  destroy : Option Nat := none
  /-- a resize: command, tide, and the new set, reserved; once in effect, the set before it, still reserved (R330, R331) -/
  resize : Option (Nat × Option DWord × CoveCfg) := none
  resizeDone : Bool := false
  /-- jobs numbered below this were accepted before the resize took effect -/
  resizeSeq : Nat := 0
  /-- Emham work open when the resize took effect: 0 a request, 1 an incoming message, 2 a response; context, MSN -/
  resizeWork : List (Nat × Nat × Nat) := []
  freezeAt : Option (Nat × DWord) := none
  thawAt : Option (Nat × DWord) := none
  freezeTide : DWord := 0
  /-- the cove has done work since its creation (Table 12.3) -/
  worked : Bool := false
deriving DecidableEq, Repr

/-- A request that waits at a port (R307): to BAR0 or BAR2, to BAR4, of an accelerator. -/
inductive PortReq
  | bar0 (bar2 wr : Bool) (off size : Nat) (data : List Byte)
  | bar4 (wr : Bool) (off size : Nat) (data : List Byte) (poison : Bool)
  | acc (port : Nat) (wr : Bool) (addr size : Nat) (data : List Byte) (attr : ReqAttr)
deriving DecidableEq, Repr

/-- A link's state (Table 11.4): SPEED, WIDTH, FLIT and power state are in LINK_STS. -/
structure Port where
  /-- PF0: Bus Master Enable, Memory Space Enable; retry status; a function-level reset is in progress -/
  bme : Bool := false
  mse : Bool := false
  retry : Bool := true
  flr : Bool := false
  /-- log2 of the BAR4 size -/
  b4Log : Nat := 36
  /-- APk: Bus Master Enable of the bridge; ACS control: bit 0 Source Validation, 1 Translation Blocking, 2 P2P Request
  Redirect, 3 P2P Completion Redirect, 4 Upstream Forwarding; memory window base and limit -/
  apBme : List Bool := List.replicate 8 false
  acs : List Nat := List.replicate 8 0
  apWin : List (Nat × Nat) := List.replicate 8 (0, 0)
  /-- links up: HEP, then AP0 to AP7; LINK_STS of each -/
  up : List Bool := List.replicate 9 false
  lnk : List Nat := List.replicate 9 0
  /-- ASPM enables of each link: L1, L1.1, L1.2 -/
  aspm : List (Bool × Bool × Bool) := List.replicate 9 (false, false, false)
  /-- Max Read Request Size and Max Payload Size of PF0, and of the AP ports -/
  mrrs : Nat := 512
  mps : Nat := 128
  /-- the hierarchy (R293): the bus number HEP was addressed by; primary, secondary and subordinate bus numbers of HEP, then
  of AP0 to AP7 -/
  busB : Nat := 0
  buses : List (Nat × Nat × Nat) := List.replicate 9 (0, 0, 0)
  /-- Configuration RRS Software Visibility; Completion Timeout Disable, which is taken and ignored (R300, R315) -/
  rrsVis : Bool := false
  cplTmoDis : Bool := false
  /-- AER: uncorrectable errors of HEP with PF0, then of AP0 to AP7; APk: DPC triggered; hot-plug status: bit 0 presence
  changed, bit 1 link state changed (R294, R312) -/
  aer : List Nat := List.replicate 9 0
  dpc : List Bool := List.replicate 8 false
  slot : List Nat := List.replicate 8 0
  /-- latency last sent in an LTR message by each link, in us; 0: none since it came up (R314) -/
  ltr : List Nat := List.replicate 9 0
  /-- requests that wait at the ports, oldest first (R297, R307, R210) -/
  waitReq : List PortReq := []
deriving DecidableEq, Repr

/-- A pre-image that CKP is copying (R429): its 64 KiB granule, by address over 65,536, and the bytes and check words that
stood there when the first write reached it. -/
structure PreImg where
  gran : Nat
  cells : List Host.Cell
  marks : Map Mark
deriving DecidableEq, Repr

/-- The snapshot set in force (R425): bytes 64 to 1,279 of Table 16.1, and its ranges in bytes. -/
structure SnapSet where
  raw : List Byte := []
  setMax : Nat := 0
  ranges : List (Nat × Nat) := []
deriving DecidableEq, Repr

/-- A running snapshot (R427, R436). -/
structure Snap where
  cid : Nat
  seq : Nat
  tide : DWord
  fwOld : Nat
  fwNew : Nat
  mapGen : Nat
  sr : List Word
  /-- copier: 0 the VALID 0 record, 1 data granules, 2 the manifest, 3 the commit record, 4 awaiting its acknowledgement -/
  step : Nat := 0
  sent : Nat := 0
  npoison : Nat := 0
deriving DecidableEq, Repr

/-- A restore from the buddy in progress (R438, R439): command, source, metadata granules read so far (0: slot A, 1: slot B)
with their poison, the slot chosen, and the number of the granule being read. -/
structure Restore where
  cid : Nat
  src : Nat
  metas : List (Nat × List Byte × Bool) := []
  slot : Option Nat := none
  next : Nat := 0
deriving DecidableEq, Repr

/-- CKP (chapter 16). Most of its state is in its registers (Table 16.5). -/
structure Ckp where
  set : Option SnapSet := none
  /-- marks of 64 KiB granules, by address over 65,536: 0 none, 1 UNCOPIED, 2 PRESERVED -/
  gran : Map Nat := []
  /-- granules whose pre-image is held, oldest first: the k-th stands in the k-th place of the snapshot pool -/
  pre : List Nat := []
  /-- pre-images being copied: of granules still UNCOPIED that a write has reached -/
  copying : List PreImg := []
  run : Option Snap := none
  /-- number of the last snapshot captured -/
  seq : Nat := 0
  /-- SNAP_ARM waiting for its tide -/
  armAt : Option (Nat × DWord) := none
  /-- the buddy's region key; the ward's SET_MAX; an assignment offered and the tide it is armed at -/
  rkey : Nat := 0
  wardMax : Nat := 0
  offer : Option Ctl := none
  offerAt : Option DWord := none
  /-- last commit record (SNAP_STATUS) -/
  last : List Byte := []
  /-- restore in progress -/
  restore : Option Restore := none
  /-- headland: the ring in force, its entries, and the ring being agreed: command, tide, entries -/
  ring : List (Nat × Nat × Nat) := []
  newRing : Option (Nat × Option DWord × List (Nat × Nat × Nat)) := none
deriving DecidableEq, Repr

/-- A PDU of NVMe/TCP the target sends (R398): the answer to ICReq, data of a command with its data digest, ready to
transfer, a completion, the end of the connection. -/
inductive Pdu
  | icResp (cpda maxH2c : Nat) (hd dd : Bool)
  | data (cid off : Nat) (bytes : List Byte) (digest : Option Nat)
  | r2t (cid off len : Nat)
  | resp (cid status result : Nat)
  | term
deriving DecidableEq, Repr

/-- What the target asks of an SSD (R407, R409, R415 to R417, R422). A block is in 4 KiB units of the SSD; a mask names its
512-byte parts; a power state is the target's of Table 15.4, whose state 3 asks the SSD for its lowest operational one. -/
inductive SsdOp
  | read (blk mask : Nat)
  | write (blk mask : Nat) (bytes : List Byte) (fua : Bool)
  | flush
  | dealloc (blk n : Nat)
  | sanitize (action : Nat)
  | power (ps : Nat)
  | fwDownload (off : Nat) (bytes : List Byte)
  | fwCommit (slot action : Nat)
deriving DecidableEq, Repr

/-- What a command of a host that takes time is (Table 15.1). -/
inductive NvOp
  | read | write | flush | zeroes | dealloc | format | firmware
deriving DecidableEq, Repr

/-- A TCP connection of the target: which listener, whether its ICReq came, its digests, MAXR2T, its controller and
queue. -/
structure NvConn where
  conn : Nat
  disc : Bool
  ready : Bool := false
  hd : Bool := false
  dd : Bool := false
  maxr2t : Nat := 0
  ctl : Option Nat := none
  qid : Nat := 0
deriving DecidableEq, Repr

/-- A live controller: HOSTID, KATO in ms, time of its last command, Asynchronous Event Requests held, notices not yet
reported, the power state requested, features set, CC. -/
structure NvCtl where
  id : Nat
  host : Nat
  kato : Nat
  last : DWord
  aers : List Nat := []
  notes : List Nat := []
  ps : Option Nat := none
  feats : Map Nat := []
  cc : Nat := 0
deriving DecidableEq, Repr

/-- A command accepted and not completed. `seq` is the moment its capsule came (R409); `ext` its extents in bytes of the
namespace; `phase` 0: not begun (R412), 1: begun, 2: of a Flush, the SSDs flush; of a Write with FUA, the SSD writes. -/
structure NvCmd where
  seq : Nat
  conn : Nat
  cid : Nat
  op : NvOp
  nss : List Nat
  ext : List (Nat × Nat) := []
  fua : Bool := false
  phase : Nat := 0
  /-- in-capsule data not placed yet -/
  data : List Byte := []
  /-- cache slots reserved: block and slot -/
  slots : List (Nat × Nat) := []
  got : List (Nat × Nat) := []
  asked : Nat := 0
  r2t : List (Nat × Nat) := []
  waited : Bool := false
  fault : Bool := false
deriving DecidableEq, Repr

/-- A 4 KiB block of the cache: namespace, block, slot, the 512-byte parts it holds, the commands whose data is not on the
SSD yet (it is dirty while there are any), and whether it is held because the table of bad blocks was full (R420). -/
structure NvBlk where
  ns : Nat
  blk : Nat
  slot : Nat
  parts : Nat := 0
  covers : List Nat := []
  stuck : Bool := false
deriving DecidableEq, Repr

/-- A command given to an SSD and not completed: number, port, what it is; the block it moves and the covered commands;
attempts made; the host command it serves. -/
structure SsdCmd where
  id : Nat
  port : Nat
  op : SsdOp
  ns : Nat := 0
  blk : Nat := 0
  covers : List Nat := []
  tries : Nat := 1
  own : Option Nat := none
deriving DecidableEq, Repr

/-- An SSD: it answers; its capacity in 4 KiB blocks. -/
structure Ssd where
  ready : Bool := false
  cap : Nat := 0
deriving DecidableEq, Repr

/-- The NOR record of a running sanitize or format (R418): SANACT, or SES and LBAF; SSDs that have not ended it; of a format
the extents left: index, port, first block, blocks; progress of each SSD. -/
structure NvRecord where
  sanitize : Bool
  act : Nat
  lbaf : Nat := 0
  left : List Nat := []
  exts : List (Nat × Nat × Nat × Nat) := []
  prog : List Nat := [0, 0, 0, 0]
deriving DecidableEq, Repr

/-- NVT beside its registers (chapter 15). Namespaces are registers; the table of bad blocks and the record are in NOR. -/
structure Nvt where
  conns : List NvConn := []
  ctls : List NvCtl := []
  cmds : List NvCmd := []
  blks : List NvBlk := []
  ssds : List Ssd := List.replicate 4 {}
  out : List SsdCmd := []
  seq : Nat := 0
  nextId : Nat := 0
  bad : List (Nat × Nat) := []
  /-- indexes of namespaces being removed, being formatted -/
  removing : List Nat := []
  formatting : List Nat := []
  /-- a change to MAINT waits for the commands accepted before this moment (R414) -/
  drain : Option Nat := none
  /-- Sanitize Status: 0 none, 1 succeeded, 2 running, 3 failed; action; SSDs that have not ended it -/
  san : Nat := 0
  sanAct : Nat := 0
  sanLeft : List Nat := []
  record : Option NvRecord := none
  /-- Set Features identifier 0xC0 (R415) -/
  fwPort : Nat := 0
deriving DecidableEq, Repr

/-- A frame placed on an egress queue: its length, and the Emham packet or the bytes it carries (R358). A frame is held
while its sender waits for the queue to drain below its limit (R360). -/
structure Frame where
  q : Nat
  len : Nat
  pkt : Option EmhPkt := none
  /-- the UDP payload of an Emham packet (R371) -/
  udp : List Byte := []
  /-- of an Emham packet: DSCP and whether it goes over IPv4 (Table 14.4) -/
  dscp : Nat := 0
  v4 : Bool := false
  raw : List Byte := []
  pdu : Option Pdu := none
  /-- the context, host pair or controller it belongs to -/
  src : Nat := 0
  held : Bool := false
  /-- from the host network function -/
  host : Bool := false
  /-- it carries poisoned data of a host's buffer (R368) -/
  poison : Bool := false
  /-- its length with FCS, uncounted; time stamp at which it was queued -/
  bare : Nat := 0
  since : DWord := 0
deriving DecidableEq, Repr

/-- A data packet not acknowledged (R380 to R383). -/
structure TxPkt where
  pkt : EmhPkt
  tries : Nat := 0
  path : Nat := 0
  sent : Bool := false
  /-- a NAK asked for a resend after a delay -/
  delayed : Bool := false
  /-- a NAK or a fast retransmission has named it (R382, R383): the last waiting NAK code, and whether it was -/
  nak : Nat := 0
  fast : Bool := false
  /-- the exchange message it belongs to, 0 for none -/
  msg : Nat := 0
  /-- service header, and the ranges its share is read from, again at each retransmission (Table 14.7) -/
  head : List Byte := []
  src : List (Nat × Nat) := []
  /-- region of a READ response -/
  reg : Option Nat := none
deriving DecidableEq, Repr

/-- A fetched work request (Table 14.5). -/
structure Req where
  addr : Nat
  msn : Nat
  read : Bool := false
  notify : Bool := false
  fence : Bool := false
  lkeyV : Bool := false
  len : Nat := 0
  loc : Nat := 0
  rkey : Nat := 0
  lkey : Nat := 0
  raddr : Nat := 0
  imm : Nat := 0
  cmpl : Nat := 0
  retx : Nat := 0
  pw : Nat := 0
  poison : Bool := false
  /-- RNR or NOT_READY answers have begun; PAGE_WAIT answers have begun -/
  nr : Bool := false
  /-- all its packets have been made -/
  issued : Bool := false
  /-- ranges of its local bytes -/
  segs : List (Nat × Nat) := []
  /-- 0: a work request; else the firmware's own: kind 1 a write of the snapshot copier, 2 and 3 the read of slot A's and
  slot B's metadata, 4 the read of a granule; plus 8 times SEQ; 5 the write of a map image, plus 8 times the worker -/
  job : Nat := 0
deriving DecidableEq, Repr

/-- An incoming message not complete (R386 to R389). -/
structure RxMsg where
  op : Nat
  msn : Nat
  mlen : Nat
  rkey : Nat := 0
  raddr : Nat := 0
  rlen : Nat := 0
  /-- where its byte 0 goes; none when it is kept in `body` -/
  dst : Option Nat := none
  body : List (Nat × List Byte) := []
  head : List Byte := []
  got : List (Nat × Nat) := []
  poison : Bool := false
  nak : Option Nat := none
  notify : Bool := false
  imm : Nat := 0
  /-- packets accepted; a RETURN of which a packet matched no open selection is discarded, its credit taken (R154) -/
  pkts : Nat := 0
  stray : Bool := false
deriving DecidableEq, Repr

/-- The transport state of a connection context (bytes 120 to 255 of Table 14.4). -/
structure Ctx where
  conn : Nat
  /-- bytes 0 to 79 as the device last read them (R375) -/
  rep : List Byte := []
  ahead : List Nat := []
  sinceAck : Nat := 0
  ackDue : Bool := false
  ackPath : Nat := 0
  tx : List TxPkt := []
  reqs : List Req := []
  rx : List RxMsg := []
  done : List Nat := []
  pathTmo : List Nat := List.replicate 8 0
  nextPath : Nat := 0
  notReady : Bool := false
  stalled : Option Req := none
  ntPhase : Bool := true
deriving DecidableEq, Repr

/-- An exchange message complete and not yet acted on: its context, MSN, header bytes, body, poison, and how many packets
brought it. -/
structure XIn where
  conn : Nat
  msn : Nat
  head : List Byte
  body : List Byte
  poison : Bool
  pkts : Nat
deriving DecidableEq, Repr

/-- EMH (chapter 14). Contexts' bytes 0 to 119 stand in device memory at EMH.CTX. -/
structure Emh where
  ctx : List Ctx := []
  evPhase : Bool := true
  /-- pages whose PAGE_FAULT is posted: region, page -/
  faults : List (Nat × Nat) := []
  /-- packets the packet pipeline has delivered and EMH has not acted on: port and packet -/
  inq : List (Nat × EmhPkt) := []
  /-- control messages delivered to this device and not yet acted on: sender and message -/
  inbox : List (Nat × Ctl) := []
  /-- exchange messages delivered and not yet acted on -/
  xin : List XIn := []
deriving DecidableEq, Repr

/-- A token bucket: its content when last settled, in 1/8,000 of a byte (a rate of R Mb/s fills R of these in 1 ns), and the
time stamp of that (R355, R359). A bucket not listed is full. -/
structure Bucket where
  content : Int
  ts : DWord
deriving DecidableEq, Repr

/-- TSQ (chapter 13): frames queued, in order; buckets and deficits of queues (keys 0 up), nodes (0x10000 up) and ports
(0x20000 up). -/
structure Tsq where
  frames : List Frame := []
  buckets : List (Nat × Bucket) := []
  deficit : Map Nat := []
deriving DecidableEq, Repr

/-- A received frame: its ingress port, length with FCS, bytes, the Emham packet it carries; classified, its action (W10 of
Table 13.3), its flow (R353), DSCP of an IP packet; whether it was looped by TSQ (R370), and the host pair it came from. -/
structure NetFrame where
  port : Nat
  len : Nat
  bytes : List Byte
  emh : Option EmhPkt := none
  poison : Bool := false
  act : Nat := 0
  miss : Bool := false
  flow : List Nat := []
  dscp : Option Nat := none
  looped : Bool := false
  pair : Nat := 0
deriving DecidableEq, Repr

/-- NET and PKT beside their registers (chapter 13): frames in the receive buffer, packets in the reorder stage, policer
buckets (C of policer n at 2n, P at 2n + 1), host pairs whose message is due and since when (R370). -/
structure Net where
  wait : List NetFrame := []
  reorder : List NetFrame := []
  buckets : List (Nat × Bucket) := []
  due : List (Nat × DWord) := []
deriving DecidableEq, Repr

/-- What a traced core has not written yet (R486, R487): a SYNC is due; instructions completed since its last record;
conditions held, oldest first; records since its last SYNC; start of a stall. -/
structure TraceCore where
  sync : Bool := false
  n : Nat := 0
  cond : List Bool := []
  recs : Nat := 0
  stall : Option DWord := none
deriving DecidableEq, Repr

/-- A trace buffer beside its registers: high word of its last TIME record; records still to write after a trigger under
CENTRE (R487, R490); records that wait for its path to memory, and those lost since: how many, when first and last (R488). -/
structure TraceBuf where
  timeHi : Option Nat := none
  left : Option Nat := none
  queue : List (List Byte) := []
  loss : Nat := 0
  lossFirst : DWord := 0
  lossLast : DWord := 0
deriving DecidableEq, Repr

/-- A tensor definition (R493); no cove: the driver's. -/
structure Tensor where
  cove : Option Nat
  addr : Nat
  len : Nat
  fmt : Nat
deriving DecidableEq, Repr

/-- An armed dump (R495): tensor, next tide, interval in steps, dumps still to come; the command that armed it and has not
completed. -/
structure DumpArm where
  tensor : Nat
  cid : Option Nat := none
  tide : DWord
  every : Nat
  count : Nat
deriving DecidableEq, Repr

/-- A dump being copied: what its header will hold (R495, R496), the tensor's definition, the header's index and PHASE. -/
structure DumpCopy where
  tensor : Nat
  dfn : Tensor
  head : Nat
  phase : Bool
  slot : Nat
  tide : DWord
  remain : Nat
  raced : Bool := false
  /-- granules written since the hold was released: address, bytes and mark before each write (R496) -/
  old : List (Nat × List Byte × Mark) := []
deriving DecidableEq, Repr

/-- TRC beside its registers (chapter 19). -/
structure Trc where
  cores : List TraceCore := List.replicate 37 {}
  bufs : List TraceBuf := List.replicate 8 {}
  tensors : Map Tensor := []
  arms : List DumpArm := []
  copies : List DumpCopy := []
  /-- DUMP_RING: header base, h, slot base, s, n -/
  ring : Option (Nat × Nat × Nat × Nat × Nat) := none
  /-- passes of the header ring: PHASE of the next header, its index; next slot; slots taken by the headers in the ring, in order -/
  phase : Bool := true
  nextHdr : Nat := 0
  nextSlot : Nat := 0
  taken : List (Option Nat) := []
  /-- phase of the sweep ring is not kept: records between SWP_TAIL and SWP_HEAD are unread; ring full -/
  swpCount : Nat := 0
deriving DecidableEq, Repr

/-- A job accepted into a queue (R104, R237): its number, cluster, issuing sequencer and cove, the address and the 64 bytes
of its descriptor, whether those were read poisoned, and whether its TYPE belongs to another instruction. -/
structure QJob where
  seq : Nat
  cl : Nat
  core : Nat
  cove : Option Nat
  addr : Nat
  desc : List Byte
  poison : Bool := false
  foreign : Bool := false
deriving DecidableEq, Repr

/-- A cluster job begun and not ended: what its record will hold, the accumulators it holds (R102), and whether it still
waits (for its image, its segment, its group or its notices). -/
structure RunJob where
  q : QJob
  status : Nat := 0
  poison : Bool := false
  ca : Nat := 0
  cb : Nat := 0
  accs : Nat := 0
  wait : Bool := false
  /-- its last writes before the record, and whether each is poisoned (R174, R184) -/
  fin : List (Nat × List Byte × Bool) := []
deriving DecidableEq, Repr

/-- A slice partial on its way to, or held by, the combine unit of cluster `owner` (R115): FP32 elements of each token of
the job with their poison; `bad`: its job failed, so every slice of it is poisoned (R116). -/
structure Slice where
  rgrp : Nat
  clmask : Nat
  owner : Nat
  src : Nat
  bad : Bool := false
  /-- TOKMASK, LDIV, CVT_OUT and OUT of its job, which R117 has all jobs of a reduction share -/
  sig : Nat × Nat × Nat × Nat
  data : List (List (Nat × Bool))
deriving DecidableEq, Repr

/-- A gate record entry as a combine job holds it (Table 4.10). -/
structure GateEnt where
  w : Nat
  expert : Nat
  flags : Nat
deriving DecidableEq, Repr

/-- One token of a running combine job: its entries, the FP32 sum, ranks accepted, poison, and whether it is written. -/
structure CombTok where
  ents : List GateEnt
  acc : List Nat
  got : List Nat := []
  poison : Bool := false
  done : Bool := false
deriving DecidableEq, Repr

/-- A running combine job (R126 to R129). -/
structure Comb where
  seq : Nat
  cl : Nat
  cove : Option Nat
  batch : Nat
  units : List Nat
  k : Nat
  l : Nat
  cvt : Nat
  out : Nat
  toks : List CombTok
  /-- the cove's ranges when the job began (R324) -/
  ranges : List Range := []
  ignored : Nat := 0
  tmo : Bool := false
  poison : Bool := false
deriving DecidableEq, Repr

/-- A partial notice posted and not yet taken by the combine units (Table 4.11), with the cluster it was posted from. -/
structure Notice where
  addr : Nat
  batch : Nat
  token : Nat
  rank : Nat
  bf16 : Bool
  poison : Bool
  cl : Nat
deriving DecidableEq, Repr

/-- The result of one KV job on its way to, or held by, the lead of its group (R167): the job's descriptor, poison; of a
KV_SELECT its selection with forced marks and scores; of a KV_ATTEND, per query, m, l, o, pages and tokens. -/
structure KvMsg where
  type : Nat
  rgrp : Nat
  clmask : Nat
  seq : Nat
  cl : Nat
  cove : Option Nat
  desc : List Byte
  dim : Nat
  list : Nat
  bad : Bool := false
  poison : Bool := false
  sel : List (Nat × Bool × Nat) := []
  att : List (Nat × Nat × List Nat) := []
  pages : Nat := 0
  tokens : Nat := 0
deriving DecidableEq, Repr

/-- The clusters' jobs (chapters 4 and 6): queued, oldest first; begun; combine jobs, oldest first; slices and results
on their way, and those held; notices; expiries kept for a combine job not yet running (R157). -/
structure Xcs where
  seq : Nat := 0
  queue : List QJob := []
  run : List RunJob := []
  combs : List Comb := []
  slices : List Slice := []
  held : List Slice := []
  kvmsgs : List KvMsg := []
  kvheld : List KvMsg := []
  notices : List Notice := []
  marks : List (Nat × Nat × Nat) := []
  /-- random generators (R88): tile path and vector unit of cluster c at 2c and 2c + 1 -/
  gen : List Word := List.replicate 32 0x6a5d39c1
deriving DecidableEq, Repr

/-- An open selection of a dispatch job (R137, R142, R154): where it was sent, the replica it may be re-dispatched to
(R157), and what a re-dispatch needs. -/
structure Sel where
  job : Nat
  cove : Option Nat
  batch : Nat
  layer : Nat
  gen : Nat
  token : Nat
  rank : Nat
  expert : Nat
  home : Option Nat := none
  repl : Option Nat := none
  alt : Option Nat := none
  returned : Bool := false
  x : Nat
  xfmt : Nat
  ldiv : Nat
  pbf : Bool
  /-- landing address of the token's first partial -/
  part : Nat
  tide : DWord
deriving DecidableEq, Repr

/-- A dispatch message of the origin (R138): queued for a credit (0), sent (1), delivered (2). -/
structure XMsg where
  id : Nat
  job : Nat
  cove : Option Nat
  target : Nat
  replica : Bool
  batch : Nat
  token : Nat
  ranks : List Nat
  phase : Nat := 0
  /-- context it was sent on -/
  conn : Nat := 0
deriving DecidableEq, Repr

/-- An exchange job begun and not ended (R141, R147): messages it waits for; counts; failed; poison; the first failure's
status; the arrival whose slot it frees. -/
structure XJob where
  q : QJob
  waiting : List Nat := []
  sent : Nat := 0
  nlocal : Nat := 0
  failed : Bool := false
  poison : Bool := false
  status : Nat := 0
  release : Option Nat := none
deriving DecidableEq, Repr

/-- An arrival that still holds its landing slot (R146, R147), by the index of its ring entry. -/
structure Arrival where
  idx : Nat
  origin : Nat
  gen : Nat
  batch : Nat
  token : Nat
  flags : Nat
  ldiv : Nat
  part : Nat
  slot : Nat
  conn : Nat
  cove : Option Nat
  sels : List (Nat × Nat)
  returned : List Nat := []
deriving DecidableEq, Repr

/-- The exchange unit beside its registers (chapter 5). -/
structure Xch where
  queue : List QJob := []
  run : List XJob := []
  msgs : List XMsg := []
  sels : List Sel := []
  nextId : Nat := 1
  arrivals : List Arrival := []
  /-- slots taken, or reasons decided, at the first packet of a message: context, MSN, slot, reason (R146) -/
  pre : List (Nat × Nat × Option Nat × Nat) := []
  /-- credits held for a target; a device not listed has what it had when this device joined its domain (R150) -/
  credits : List (Nat × Nat) := []
  joinCredit : Nat := 0
  /-- credits owed to an origin: its connection, how many, and whether 2 us passed with no context -/
  owed : List (Nat × Nat × Nat × Bool) := []
  phase : Bool := true
  /-- image of the previous generation; tide of the last map switch -/
  prevMap : Nat := 0
  switchTide : Option DWord := none
deriving DecidableEq, Repr

/-- One request of an element that a DMA engine reads from the bus (R300): the element, its offset there, its port, address
and size, where its bytes go, and how many have come. `elem` 2^24 up is a read-back of a port (R259). -/
structure BusRd where
  elem : Nat
  off : Nat
  port : Nat
  addr : Nat
  size : Nat
  dst : Nat
  dbus : Bool
  got : Nat := 0
deriving DecidableEq, Repr

/-- An element of an image (Table 9.2): its number, source and destination; its entry is a skip entry, or was read poisoned
(R251). -/
structure DmaElem where
  k : Nat
  s : Nat
  t : Nat
  skip : Bool := false
  bad : Bool := false
deriving DecidableEq, Repr

/-- A DMA engine beside its registers (R255 to R262). `phase`: 0 its elements are moving; 1 every element is done and it
will report; 2 read-backs are out; 3 it will continue with NEXT; 4 so it will, and it has reported OK; 5 the read of its index
table waits (R210). -/
structure Dma where
  posted : Bool := false
  pImg : Nat := 0
  /-- the posted image was read poisoned (1) or got no answer (2) (R238) -/
  pBad : Nat := 0
  active : Bool := false
  owner : Option Nat := none
  img : Nat := 0
  hops : Nat := 0
  status : Nat := 0
  poison : Bool := false
  ca : Nat := 0
  noRec : Bool := false
  phase : Nat := 0
  rd : List BusRd := []
  /-- elements not issued yet; those moved, of a device image; what of a bus image has landed, by element (R252) -/
  todo : List DmaElem := []
  moved : List (Nat × Nat) := []
  placed : List (Nat × Nat × Nat) := []
  fault : Option (Nat × Bool) := none
  lastDev : Option Nat := none
  lastBus : List (Nat × Nat) := []
  stopping : Bool := false
  /-- the continuation read before the report -/
  nextImg : Option (List Byte) := none
  /-- the ranges of its cove that its work is checked against (R58, R324) -/
  ranges : List Range := []
  /-- its chain began before a resize of its cove took effect (R331) -/
  old : Bool := false
deriving DecidableEq, Repr

/-- A NOR extension (R470): slot, SVN, digest, and the slots below its own it names for revocation. -/
structure NorExt where
  slot : Nat := 0
  svn : Nat := 0
  digest : Nat := 0
  /-- bit k: slot k is named for revocation -/
  revoke : Nat := 0
deriving DecidableEq, Repr

/-- SEC0's measurements (Table 18.2), the leaf record (R478), and what a start leaves in NOR and fuses. KEYS, SVN, LEAF,
RESV and WMEAS are registers. A digest is kept as the number of its little-endian bytes. -/
structure Sec where
  ext : NorExt := {}
  fwDigest : Nat := 0
  fwmr : Nat := 0
  started : Bool := false
  handovers : Nat := 0
  pmr : Map (Nat × Nat) := []
  whash : Nat := 0
  wlen : Nat := 0
  /-- the running weight measurement: command, LEN, written meanwhile -/
  meas : Option (Nat × Nat × Bool) := none
  /-- reports sampled and not signed: pair, command, buffer, the 256 bytes, leaf -/
  reports : List (Nat × Nat × Nat × List Byte × Nat) := []
  leaf : Nat := 0
  /-- the leaf record in use: RESV_END and SEQ; the other copy in NOR: the same, and whether its CRC matches (R478) -/
  resvEnd : Nat := 0
  leafSeq : Nat := 0
  leafAlt : Nat × Nat × Bool := (0, 0, false)
  /-- replacement extension being collected: size, bytes -/
  nor : Option (Nat × List Byte) := none
deriving DecidableEq, Repr

/-- Pins, supply and what AON keeps (chapter 21); what the firmware has recorded in NOR (R464, R530, R211). -/
structure Pwr where
  /-- filtered levels: SB_PWREN asserted, SB_RST_N asserted, SB_ESTOP_N asserted -/
  pwren : Bool := false
  rst : Bool := true
  estop : Bool := false
  /-- SB_PWREN was asserted less than 1 s after its deassertion, and is not acted on yet -/
  holdoff : Bool := false
  /-- VIN lies in 36-100 V; has risen above 58 V; lies in 60-80 V -/
  aon : Bool := true
  vinUp : Bool := true
  vinOk : Bool := true
  /-- the main conversion runs; it was switched on since the last start -/
  main : Bool := false
  cold : Bool := false
  /-- POWER_FAULT state with this cause, 0: none (R516); the fault stays recorded in PWR.FAULT -/
  hold : Nat := 0
  /-- a start is in progress or made; a warm exit is in progress (R454) -/
  started : Bool := false
  warming : Bool := false
  /-- time stamp of the last INPUT_RANGE record (R516) -/
  vinWarn : Option DWord := none
  /-- MCTP endpoint identifier; SMBus address, and whether ARP has assigned it (R525) -/
  eid : Nat := 0
  smbAddr : Nat := 0x32
  arped : Bool := false
  /-- SB_ESTOP_N was asserted before LOADER_READY -/
  estopEarly : Bool := false
  /-- NOR: PORT_MODE and PORT_EN; stored plan: VOFS, CEIL; bins -/
  norPorts : Option (Nat × Nat) := none
  norPlan : Nat × Nat := (0, 63)
  norBins : List Nat := [0, 0, 0, 0]
deriving DecidableEq, Repr

/-- What leaves the device. -/
inductive Out
  /-- an MSI-X message with its vector (R302) -/
  | msix (vec : Nat) (addr data : Nat)
  /-- a frame sent on a network port -/
  | frame (port : Nat) (f : Frame)
  /-- an Emham answer sent by the port a packet came in on, past TSQ (R373) -/
  | direct (port : Nat) (pkt : EmhPkt)
  /-- a command given to the SSD of a port (R407 to R422) -/
  | ssd (port id : Nat) (op : SsdOp)
  /-- the reset of a TCP connection attempt, by the port it came on (R413) -/
  | tcpReset (port : Nat)
  /-- a read request to a bus address by a port (0 to 7: APk; 8: HEP), of element `elem` of DMA engine `eng`; engine 64 is
  a Briesk core (R300, R303) -/
  | busRead (port addr len : Nat) (pasid : Option Nat) (eng elem : Nat)
  /-- a write to a bus address -/
  | busWrite (port addr : Nat) (bytes : List Byte) (poison : Bool) (pasid : Option Nat)
  /-- the completion of a request received at a port: status 0 successful, 1 Unsupported Request, 2 Configuration Request
  Retry Status, 3 Completer Abort -/
  | tlp (port : Nat) (data : List Byte) (poison : Bool) (status : Nat)
  /-- a request of an accelerator routed on by the switch to a port, not claimed by WIN (R303) -/
  | routed (src dst : Nat) (wr : Bool) (addr size : Nat) (bytes : List Byte) (poison : Bool) (pasid : Option Nat)
  /-- a configuration request routed on to the bus below APk (R293) -/
  | cfg (port : Nat) (r : CfgReq)
  /-- an LTR message of a port: the latency it tolerates, in us (R314) -/
  | ltr (port us : Nat)
  /-- a port event of APk reported to the host: DPC and hot-plug (R312) -/
  | portEvent (port : Nat)
  /-- the answer to an MCTP vendor or control message (R525, R526) -/
  | mctp (cmd completion : Nat) (data : List Byte)
  /-- the answer to an SMBus command other than a block of MCTP (R525) -/
  | smbus (cmd : Nat) (data : List Byte)
deriving DecidableEq, Repr

/-- Everything but the queue of commands. -/
structure Dev where
  /-- registers by name; of a double-banked register, its shadow bank (R52) -/
  regs : Map Word := []
  /-- active banks (R52) -/
  bank : Map Word := []
  /-- halves latched by reading a _LO register, by the name of the _HI register -/
  latch : Map Word := []
  /-- bytes of device memory, harbour and cluster SRAM -/
  mem : List Host.Cell := []
  /-- check words that are not the CRC-32C, by granule address over 256 -/
  marks : Map Mark := []
  commits : Map Commit := []
  tide : Tide := {}
  slack : Slack := {}
  err : Err := {}
  fw : Fw := {}
  coves : Map Cove := []
  cores : List Core := List.replicate 37 {}
  port : Port := {}
  ckp : Ckp := {}
  emh : Emh := {}
  tsq : Tsq := {}
  net : Net := {}
  nvt : Nvt := {}
  trc : Trc := {}
  xc : Xcs := {}
  xch : Xch := {}
  dma : Map Dma := []
  sec : Sec := {}
  pwr : Pwr := {}
  /-- errors of the memory not met yet; findings of merges not recorded yet: none between commands -/
  upsets : List Upset := []
  found : List Found := []
  /-- scrubbers: granule of each site, by its site offset over 256, that is scrubbed next (R207) -/
  scrub : List Nat := List.replicate 16 0
  /-- channels retrained a second time: site and channel (R210) -/
  retrained : List (Nat × Nat) := []
  /-- retries of each die link (R30) -/
  dieRetries : Map Nat := []
  /-- VCLK runs (chapter 2) -/
  vclk : Bool := false
  /-- MSI-X messages held while Bus Master Enable is 0 (R302, R309) -/
  msixPend : List Nat := []
  /-- TRCLK timestamp counter (R485) -/
  trclk : DWord := 0
  /-- a block's INT_STS and INT_EN made the set of pending blocks non-empty when last looked at (R507) -/
  irqPend : Bool := false
  /-- free values used so far -/
  fresh : Nat := 0
  /-- what has left the device, newest first -/
  out : List Out := []
deriving DecidableEq, Repr

/-- The block: the device, and the commands waiting, first in, first out. -/
structure State where
  dev : Dev
  pending : List Instr
deriving DecidableEq, Repr

/-- No command of the block ends in a fault: what goes wrong is recorded in the state, as the spec gives it. -/
inductive Fault
  /-- raised by no command: it is kept so that the type has a value -/
  | none
deriving DecidableEq, Repr

/-- Why a command has no meaning. -/
inductive Refusal
  /-- raised by the arms of `exec` that are rejected by name; safe: the machine stops -/
  | notModelled (mnemonic : String)
deriving DecidableEq, Repr

/-- The device in standby: no rail but AON, every register at its reset value, nothing in any queue. -/
def Dev.reset : Dev := {}

/-- The machine right after reset: the device in standby, no command waiting. -/
def State.reset : State := ⟨Dev.reset, []⟩

end Sys2Proof.Machine
end

