-- ==== Sys2Proof/Machine/Ops.lean ====
section
/-!
DEFINITION. Machine/Ops.lean: the named operations over registers, header bits, interrupts, free values and what leaves
the device; and how a command's effect on the device becomes an outcome.
-/
namespace Sys2Proof.Machine

/-- The outcome of a command. -/
abbrev Res := Host.Outcome State Fault Refusal

/-- A register's stored value (its shadow bank where double-banked, R52). -/
def Dev.rd (d : Dev) (k : Nat) : Word := d.regs.get regReset k

/-- A register's value in the active bank (R52). -/
def Dev.rdA (d : Dev) (k : Nat) : Word := d.bank.get regReset k

/-- A register given a value. -/
def Dev.wr (d : Dev) (k : Nat) (v : Word) : Dev := { d with regs := d.regs.put k v }

/-- Field `[lo + w - 1 : lo]` of register `k`. -/
def Dev.g (d : Dev) (k lo w : Nat) : Nat := fieldN (d.rd k).toNat lo w

/-- Field of the active bank of register `k`. -/
def Dev.gA (d : Dev) (k lo w : Nat) : Nat := fieldN (d.rdA k).toNat lo w

/-- Bit of register `k`. -/
def Dev.b (d : Dev) (k i : Nat) : Bool := bitN (d.rd k).toNat i

/-- Field of register `k` replaced. -/
def Dev.s (d : Dev) (k lo w v : Nat) : Dev := d.wr k (BitVec.ofNat 32 (setFieldN (d.rd k).toNat lo w v))

/-- Bit of register `k` replaced. -/
def Dev.sb (d : Dev) (k i : Nat) (v : Bool) : Dev := d.s k i 1 (b2n v)

/-- A _LO and _HI pair as one number (R9). -/
def Dev.rd64 (d : Dev) (k : Nat) : Nat := (d.rd k).toNat + (d.rd (k + 4)).toNat * 2 ^ 32

/-- A _LO and _HI pair set. -/
def Dev.wr64 (d : Dev) (k v : Nat) : Dev :=
  (d.wr k (BitVec.ofNat 32 v)).wr (k + 4) (BitVec.ofNat 32 (v / 2 ^ 32))

/-- A counter advanced by `n`, modulo 2^32 (R483). -/
def Dev.incBy (d : Dev) (k n : Nat) : Dev := d.wr k (BitVec.ofNat 32 ((d.rd k).toNat + n))

/-- A counter advanced by one. -/
def Dev.inc (d : Dev) (k : Nat) : Dev := d.incBy k 1

/-- The link a TLP leaves by: 0 to 7 AP0 to AP7, 8 HEP. -/
def Out.link : Out → Option Nat
  | .msix .. => some 8
  | .busRead p .. => some p
  | .busWrite p .. => some p
  | .tlp p .. => some p
  | .routed _ p .. => some p
  | .cfg p _ => some p
  | .ltr p _ => some p
  | .portEvent _ => some 8
  | _ => none

/-- Place of a link in the lists of `Port`. -/
def linkIdx (p : Nat) : Nat := if p = 8 then 0 else p + 1

/-- A link is up. -/
def Dev.linkUp (d : Dev) (p : Nat) : Bool := d.port.up.getD (linkIdx p) false

/-- An error in the AER registers of a port's function, by its bit: 5 surprise down, 12 poisoned TLP, 14 completion timeout,
20 Unsupported Request, 21 ACS violation (PRESUMED from PCIe, log entry 78). -/
def Dev.aerErr (d : Dev) (p bit : Nat) : Dev :=
  let i := linkIdx p
  { d with port := { d.port with aer := d.port.aer.set i (setFieldN (d.port.aer.getD i 0) bit 1 1) } }

/-- A link carries a TLP: it is in L0 (R314). -/
def Dev.wake (d : Dev) (p : Nat) : Dev :=
  let i := linkIdx p
  { d with port := { d.port with lnk := d.port.lnk.set i (setFieldN (d.port.lnk.getD i 0) 10 2 0) } }

/-- Something leaves the device. -/
def Dev.emit (d : Dev) (o : Out) : Dev :=
  match o.link with
  | some p => { d.wake p with out := o :: d.out }
  | none => { d with out := o :: d.out }

/-- A fresh free byte. -/
def Dev.freeByte (d : Dev) : Byte × Dev := (Config.freeByte d.fresh, { d with fresh := d.fresh + 1 })

/-- `n` fresh free bytes. -/
def Dev.freeBytes (d : Dev) (n : Nat) : List Byte × Dev :=
  ((List.range n).map fun i => Config.freeByte (d.fresh + i), { d with fresh := d.fresh + n })

/-- A fresh free 64-bit value. -/
def Dev.freeWord (d : Dev) : DWord × Dev := (Config.freeWord d.fresh, { d with fresh := d.fresh + 1 })

/-- A fresh free choice. -/
def Dev.freeBit (d : Dev) : Bool × Dev := (Config.freeBit d.fresh, { d with fresh := d.fresh + 1 })

/-- An effect done only where its condition holds; an event whose condition fails cannot occur (DESIGN CHOICE, log entry 2). -/
def Dev.when (d : Dev) (c : Bool) (f : Dev → Dev) : Dev := if c then f d else d

/-- An effect done for each element of a list, in order. -/
def Dev.each {α : Type} (d : Dev) (l : List α) (f : α → Dev → Dev) : Dev := l.foldl (fun d a => f a d) d

/-- ERR_STS bit `i` of a page set, with ERR_FIRST (R506). -/
def Dev.setErr (d : Dev) (pg i : Nat) : Dev :=
  let e := d.rd (pg + 0x10)
  let d1 := d.wr (pg + 0x10) (e ||| BitVec.ofNat 32 (2 ^ i))
  if e = 0 then d1.wr (pg + 0x1c) (BitVec.ofNat 32 (2 ^ 31 + i)) else d1

/-- INT_STS bit `i` of a page set. -/
def Dev.setInt (d : Dev) (pg i : Nat) : Dev := d.wr (pg + 0x20) (d.rd (pg + 0x20) ||| BitVec.ofNat 32 (2 ^ i))

/-- A block is pending when INT_STS AND INT_EN is not zero (R507). -/
def Dev.pagePending (d : Dev) (p : Nat) : Bool :=
  (d.rd (p * 0x1000 + 0x20) &&& d.rd (p * 0x1000 + 0x24)) ≠ 0

/-- Some block is pending. INT_EN resets to 0, so only a listed INT_EN can make its block pending. -/
def Dev.anyPending (d : Dev) : Bool :=
  d.regs.any fun c => c.1 % 0x1000 == 0x24 && decide (c.1 < 0x1000000) && d.pagePending (c.1 / 0x1000)

/-- The device is in slack. -/
def Dev.slackNow (d : Dev) : Bool :=
  d.slack.startup || d.slack.stop || d.slack.lease || d.slack.conflict || d.slack.escal || d.slack.cut

/-- The device is in safe state: ERR.SAFE_STS.SAFE (R450). -/
def Dev.safe (d : Dev) : Bool := d.b 0x5104 0

/-- FWR.LOAD_STS.STATE (R265, R267). -/
def Dev.loadState (d : Dev) : Nat := d.g 0x8110 0 4

/-- The firmware runs: LOAD_STS.STATE is RUNNING. -/
def Dev.fwRunning (d : Dev) : Bool := d.loadState == 4

/-- Work may begin: the firmware runs, no safe state, no hold (R60, R450). -/
def Dev.live (d : Dev) : Bool := d.fwRunning && !d.safe && !d.tide.hold

/-- CTL.EN of a page, and not CTL.FREEZE (R504, R505). -/
def Dev.starts (d : Dev) (pg : Nat) : Bool := d.b (pg + 8) 0 && !d.b (pg + 8) 1 && !d.b (pg + 8) 2

/-- Send the MSI-X message of a vector: with Bus Master Enable 0 or the vector masked its pending bit is set instead
(R302). -/
def Dev.msix (d : Dev) (vec : Nat) : Dev :=
  let e := 0x200000 + 16 * vec
  if d.port.bme && !d.b (e + 12) 0 then d.emit (.msix vec (d.rd64 e) (d.rd (e + 8)).toNat)
  else if d.msixPend.contains vec then d else { d with msixPend := d.msixPend ++ [vec] }

/-- Send the pending MSI-X messages that may now be sent (R302, R309). -/
def Dev.msixFlush (d : Dev) : Dev :=
  let l := d.msixPend
  ({ d with msixPend := [] } : Dev).each l fun v d => d.msix v

/-- The level of SB_ALERT_N, asserted (R452, R518): safe state, or with ALERT_CONT an unread record of class contained or
higher, or a held power fault. -/
def Dev.alertLevel (d : Dev) : Bool :=
  d.safe || d.b 0x1110 31 ||
    (d.b 0x5100 0 && (List.range (d.g 0x510c 8 9)).any fun i =>
      decide (2 ≤ (d.err.recs.get (fun _ => {}) ((d.g 0x5110 0 8 + i) % 256)).cls))

/-- VCLK is gated off when no cluster work is queued, and restarts with the next (chapter 2); restarts are counted
(Table 21.16). -/
def Dev.vclkSettle (d : Dev) : Dev :=
  let on := !d.xc.queue.isEmpty || !d.xc.run.isEmpty || !d.xc.combs.isEmpty
  let d1 := { d with vclk := on }
  if on && !d.vclk then d1.inc 0x2804 else d1

/-- Every link that is up has sent the LTR message its device's state asks for: 50 us while it runs steps, 1 ms in slack
(R314). -/
def Dev.ltrSettle (d : Dev) : Dev :=
  let v := if d.slackNow then 1000 else 50
  d.each ((List.range 9).filter fun p => d.linkUp p && d.port.ltr.getD (linkIdx p) 0 != v) fun p d =>
    ({ d with port := { d.port with ltr := d.port.ltr.set (linkIdx p) v } } : Dev).emit (.ltr p v)

/-- What follows a command's effect: the GEN vector when the set of pending blocks has grown from empty (R507), the level
of SB_ALERT_N, and the maps folded into canonical form. -/
def Dev.settle (d : Dev) : Dev :=
  let p := d.anyPending
  let d1 := (if p && !d.irqPend && d.b 0x11c 31 then d.msix (d.g 0x11c 0 9) else d).vclkSettle.ltrSettle
  { d1 with
    irqPend := p
    err := { d1.err with alert := d1.alertLevel }
    regs := Map.canon regReset d1.regs
    bank := Map.canon regReset d1.bank
    mem := Map.canon (fun _ => 0) d1.mem
    marks := Map.canon (fun _ => .good) d1.marks }

end Sys2Proof.Machine
end

