-- ==== Sys2Proof/Machine/Memory.lean ====
section
/-!
DEFINITION. Machine/Memory.lean: the device address map, where an address lives, check words, and the bare reads and
writes of granules, merges and copy-on-write holds among them (chapters 2, 7 and 16).
-/
namespace Sys2Proof.Machine

/-- Page of a port: 0 to 7 AP0 to AP7, 8 HEP. -/
def pgPort (p : Nat) : Nat := if p = 8 then pgHEP else pgAP p

/-- The ranges of Table 2.3. -/
inductive Area
  | device | check | harbour | sram (n : Nat) | pages | unmapped
deriving DecidableEq, Repr

/-- End of device memory; base of the firmware area; harbour; cluster SRAM; register pages. -/
def devEnd : Nat := 0x017A00000000
def fwBase : Nat := 0x0179C0000000
def harbBase : Nat := 0x800000000000
def harbEnd : Nat := 0x800004000000
def sramBase (n : Nat) : Nat := 0x800100000000 + n * 0x1000000
def pageBase : Nat := 0x800200000000

/-- The range a device address lies in (R34, Table 2.3). -/
def areaOf (a : Nat) : Area :=
  if a < devEnd then .device
  else if a < 0x018000000000 then .check
  else if a < harbBase then .unmapped
  else if a < harbEnd then .harbour
  else if a < 0x800100000000 then .unmapped
  else if a < 0x800110000000 then .sram ((a - 0x800100000000) / 0x1000000)
  else if a < pageBase then .unmapped
  else if a < 0x800201000000 then .pages
  else .unmapped

/-- CRC-32C: one bit, one byte, a byte string from a running value (R195). -/
def crcBits : Nat → Nat → Nat
  | c, 0 => c
  | c, n + 1 => crcBits (if c % 2 = 1 then (c / 2) ^^^ 0x82f63b78 else c / 2) n
def crcFrom (c : Nat) (l : List Byte) : Nat := l.foldl (fun c b => crcBits (c ^^^ b.toNat) 8) c
/-- CRC-32C with initial value and final XOR all ones (R195). -/
def crc32c (l : List Byte) : Nat := crcFrom 0xffffffff l ^^^ 0xffffffff

/-- Site and site offset of a device memory address under a layout (R192). -/
def siteOf (y : Layout) (a : Nat) : Nat × Nat :=
  let sl := y.wSize / 16
  if y.wBase ≤ a ∧ a < y.wBase + y.wSize then
    let n := (a - y.wBase) / sl
    (n, (a - y.wBase) - n * sl)
  else
    let x := if a < y.wBase then a else a - y.wSize
    let g := x / 4096
    ((g % 16) ^^^ (g / 16 % 16), sl + (g / 16) * 4096 + x % 4096)

/-- Channel of a site offset (R192). -/
def channelOf (o : Nat) : Nat := o / 256 % 16

/-- Device memory address of a site and site offset: the inverse of `siteOf`. -/
def addrOfSite (y : Layout) (n o : Nat) : Nat :=
  let sl := y.wSize / 16
  if o < sl then y.wBase + n * sl + o
  else
    let h := (o - sl) / 4096
    let g := h * 16 + (n ^^^ (h % 16))
    let x := g * 4096 + o % 4096
    if x < y.wBase then x else x + y.wSize

/-- Register SITE_STSj of site `n`, and a per-site counter of its MPD. -/
def siteSts (n : Nat) : Nat := pgMPD (n / 4) + 0x108 + 4 * (n % 4)
def siteCnt (n o : Nat) : Nat := pgMPD (n / 4) + 0x800 + 32 * (n % 4) + o

/-- The site of a device memory address has failed (R213). -/
def Dev.siteFailed (d : Dev) (a : Nat) : Bool :=
  areaOf a = .device && d.b (siteSts (siteOf d.fw.layout a).1) 1

/-- The channel of a device memory address is retraining, so requests to it wait (R210). -/
def Dev.retraining (d : Dev) (a : Nat) : Bool :=
  let (n, o) := siteOf d.fw.layout a
  areaOf a = .device && d.b (siteSts n) (16 + channelOf o)

/-- Some channel that a range lies in is retraining, so requests to it wait at the MPD (R210). -/
def Dev.blocked (d : Dev) (a n : Nat) : Bool :=
  n ≠ 0 && (List.range ((a + n - 1) / 256 - a / 256 + 1)).any fun i => d.retraining ((a / 256 + i) * 256)

/-- No channel of any site is retraining. -/
def Dev.calm (d : Dev) : Bool := (List.range 16).all fun n => d.g (siteSts n) 16 16 == 0

/-- The blocks take new operations: no safe state, no hold of a boundary (R60), no channel of the memory retraining (R210). -/
def Dev.takesWork (d : Dev) : Bool := !d.safe && !d.tide.hold && d.calm

/-- Bytes as they stand, unverified. -/
def Dev.bytes (d : Dev) (a n : Nat) : List Byte := Map.getList (fun _ => (0 : Byte)) d.mem a n

/-- The mark of a granule, by granule number. -/
def Dev.mark (d : Dev) (g : Nat) : Mark := d.marks.get (fun _ => .good) g

/-- Some granule of a range is poisoned or failing. -/
def Dev.anyBad (d : Dev) (a n : Nat) : Bool :=
  if n = 0 then false else (List.range ((a + n - 1) / 256 - a / 256 + 1)).any fun i => d.mark (a / 256 + i) ≠ .good

/-- A granule marked. -/
def Dev.setMark (d : Dev) (g : Nat) (m : Mark) : Dev := { d with marks := d.marks.put g m }

/-- Every granule a range touches marked. -/
def Dev.markRange (d : Dev) (a n : Nat) (m : Mark) : Dev :=
  if n = 0 then d else d.each (List.range ((a + n - 1) / 256 - a / 256 + 1)) fun i d => d.setMark (a / 256 + i) m

/-- The counters and ERR_STS bit of the MPD for a write that leaves mark `m`, merged when not whole, over a granule that
failed its check when `mis` (R200, Table 7.5). -/
def Dev.countWrite (d : Dev) (a : Nat) (whole mis : Bool) (m : Mark) : Dev :=
  if areaOf a ≠ .device then d else
    let n := (siteOf d.fw.layout a).1
    let d1 := if whole then d else d.inc (siteCnt n 0x14)
    let d2 := if m = .poison then d1.inc (siteCnt n 0x10) else d1
    if mis then (d2.inc (siteCnt n 0xc)).setErr (pgMPD (n / 4)) 2 else d2

/-- An error injection armed on the channel of an address, of a kind (R217). -/
def Dev.injected (d : Dev) (a kind : Nat) : Bool :=
  let (n, o) := siteOf d.fw.layout a
  let k := pgMPD (n / 4) + 0x128
  areaOf a = .device && d.b k 8 && d.g k 0 2 == n % 4 && d.g k 2 4 == channelOf o && d.g k 6 2 == kind

/-- The injection of an address's MPD has been made (R217). -/
def Dev.injectDone (d : Dev) (a : Nat) : Dev := d.sb (pgMPD ((siteOf d.fw.layout a).1 / 4) + 0x128) 8 false

/-- An error strikes the operations of an address: its channel, or its granule of the harbour or of cluster SRAM
(Table 7.4). -/
def Dev.strikes (d : Dev) (a : Nat) (u : Upset) : Bool :=
  let (n, o) := siteOf d.fw.layout a
  let chan (s c : Nat) : Bool := areaOf a = .device && s == n && c == channelOf o
  match u with
  | .link s c _ | .parity s c | .dramCe s c | .dramUe s c => chan s c
  | .sramCe g | .sramUe g => areaOf a ≠ .device && g == a / 256

/-- An error of the link or of the command bus, which a write meets too (Table 7.4). -/
def Upset.onWrite : Upset → Bool
  | .link .. | .parity .. => true
  | _ => false

/-- What the next read of an address meets: an injected error is treated as the real one (R206, R217). -/
def Dev.meets (d : Dev) (a : Nat) : List Upset :=
  let (n, o) := siteOf d.fw.layout a
  (if d.injected a 1 then [.link n (channelOf o) 1] else []) ++ (if d.injected a 2 then [.dramUe n (channelOf o)] else [])
    ++ d.upsets.filter (d.strikes a)

/-- A read of an address meets its errors: they are gone, and an uncorrectable one makes the granule's stored check word the
poison mark (Table 7.4). Answers the errors met, which are then to be recorded. -/
def Dev.meet (d : Dev) (a : Nat) : Dev × List Upset :=
  let us := d.meets a
  if us.isEmpty then (d, []) else
    let d1 := { d with upsets := d.upsets.filter fun u => !d.strikes a u }
    let d2 := if d.injected a 1 || d.injected a 2 then d1.injectDone a else d1
    (if us.any (fun u => match u with | .dramUe .. | .sramUe .. => true | _ => false) then d2.setMark (a / 256) .poison else d2, us)

/-- A write reaches a granule: one within the extent of a weight measurement ends or invalidates it (R476); one within a
tensor being dumped marks that dump as raced, and the granule's bytes before it are kept (R496). -/
def Dev.watchWrite (d : Dev) (a : Nat) : Dev :=
  let y := d.fw.layout
  let sl := y.wSize / 16
  let len := match d.sec.meas with | some m => m.2.1 | none => d.sec.wlen
  let d1 := if (d.sec.meas.isSome || d.b (pgSEC + 0x118) 1) && decide (y.wBase ≤ a) && decide (a < y.wBase + y.wSize)
      && decide ((a - y.wBase) % sl < len) then
    let meas := d.sec.meas.map fun m => (m.1, m.2.1, true)
    ({ d with sec := { d.sec with meas := meas } } : Dev).sb (pgSEC + 0x118) 1 false else d
  if d.trc.copies.isEmpty then d1
  else
    let g := a / 256 * 256
    let hit (t : Tensor) : Bool := decide (g < t.addr + t.len) && decide (t.addr < g + 256)
    let copies := d.trc.copies.map fun (c : DumpCopy) =>
      if hit c.dfn then { c with raced := true, old := c.old ++ [(g, d.bytes g 256, d.mark (g / 256))] }
      else c
    { d1 with trc := { d1.trc with copies := copies } }

/-- A granule, or bytes that lie within one, stored with the mark `m`; a failed site drops the write (R213). An injection
armed on whole-granule writes makes the stored check word wrong (R217). `mis`: the granule failed its check when the bytes
were merged into it. -/
def Dev.granPut (d : Dev) (a : Nat) (l : List Byte) (m : Mark) (mis : Bool) : Dev :=
  if d.siteFailed a then d else
    let whole := l.length == 256
    let inj := whole && d.injected a 3
    let m := if inj then .bad else m
    let d0 := d.watchWrite a
    let d1 := { d0 with mem := Map.putList d.mem a l, marks := d.marks.put (a / 256) m }
    let d2 := d1.countWrite a whole mis m
    if inj then d2.injectDone a else d2

/-- Bytes that lie within one granule stored: a granule's check word, or the poison mark where they or the granule they are
merged into are poisoned or fail (R200, R204). Answers whether the granule failed its check in a merge. -/
def Dev.granStore (d : Dev) (a : Nat) (l : List Byte) (poison : Bool) : Dev × Bool :=
  let whole := l.length == 256
  let old := d.mark (a / 256)
  let m : Mark := if poison then .poison else if whole then .good else if old = .good then .good else .poison
  let mis := !whole && old = .bad && !d.siteFailed a
  (d.granPut a l m mis, mis)

/-- The pre-image of a 64 KiB granule (R429). -/
def Dev.preImage (d : Dev) (g : Nat) : PreImg :=
  { gran := g
    cells := d.mem.filter fun c => c.1 / 65536 == g
    marks := d.marks.filter fun c => c.1 / 256 == g }

/-- A write reaches the granule of an address: while it is UNCOPIED the write waits for the pre-image, which CKP takes as it
stands now; the write then goes on in its place (R429; the wait ends at once: DEDUCED, log entry 75). -/
def Dev.cow (d : Dev) (a : Nat) : Dev :=
  let g := a / 65536
  let c := d.ckp
  if c.gran.get (fun _ => 0) g = 1 then
    let l := if c.copying.any (·.gran == g) then c.copying else c.copying ++ [d.preImage g]
    ({ d with ckp := { c with copying := l } } : Dev).inc 0x5580c
  else d

/-- A list of bytes from address `a` cut at granule boundaries. -/
def pieces (a : Nat) (l : List Byte) : Nat → List (Nat × List Byte)
  | 0 => []
  | f + 1 => if l.isEmpty then [] else
      let n := 256 - a % 256
      (a, l.take n) :: pieces (a + n) (l.drop n) f

/-- Is there memory at an address that agents may store to: device memory, the harbour or cluster SRAM (Table 2.3)? -/
def storable (a : Nat) : Bool :=
  match areaOf a with | .device => true | .harbour => true | .sram _ => true | _ => false

/-- What the operation of a write meets: a whole granule is written with errors of the link and the command bus alone; part
of one is merged into what a read gives (R200, Table 7.4). -/
def Dev.writeMeets (d : Dev) (a : Nat) (whole : Bool) : Dev × List Upset :=
  if whole then
    let us := d.upsets.filter fun u => d.strikes a u && u.onWrite
    ({ d with upsets := d.upsets.filter fun u => !us.contains u }, us)
  else d.meet a

/-- One piece of a store: errors its operation meets, then its pre-image, then the bytes. Answers what its storage
controller found, to be recorded. -/
def Dev.storePiece (d : Dev) (a : Nat) (l : List Byte) (poison : Bool) : Dev × List (Option Upset × Nat) :=
  let w := d.writeMeets a (l.length == 256)
  let q := (w.1.cow a).granStore a l poison
  (q.1, w.2.map (fun u => (some u, a)) ++ if q.2 then [(none, a)] else [])

/-- Bytes stored, granule by granule; where no memory is, nothing is stored. Answers what the storage controllers found in
merges. -/
def Dev.store (d : Dev) (a : Nat) (l : List Byte) (poison : Bool) : Dev × List (Option Upset × Nat) :=
  (pieces a l (l.length / 256 + 2)).foldl (fun (r : Dev × List (Option Upset × Nat)) p =>
    if !storable p.1 then r
    else
      let q := r.1.storePiece p.1 p.2 poison
      (q.1, r.2 ++ q.2)) (d, [])

/-- Bytes stored by the firmware or a unit for the device's own use; what the merges found is recorded when the command
ends (R203). -/
def Dev.poke (d : Dev) (a : Nat) (l : List Byte) : Dev :=
  let r := d.store a l false
  if r.2.isEmpty then r.1
  else { r.1 with found := r.1.found ++ r.2.map fun f => { up := f.1, addr := f.2, pg := pgFWR, dom := 0x40 } }

/-- A little-endian number of `n` bytes stored (R6). -/
def Dev.pokeN (d : Dev) (a n v : Nat) : Dev := d.poke a (leBytes v n)

/-- `n` bytes as a little-endian number, as they stand. -/
def Dev.peekN (d : Dev) (a n : Nat) : Nat := leNat (d.bytes a n)

/-- A range cleared to zero bytes with good check words. -/
def Dev.clearRange (d : Dev) (a n : Nat) : Dev :=
  { d with
    mem := d.mem.filter fun c => !(decide (a ≤ c.1) && decide (c.1 < a + n))
    marks := d.marks.filter fun c => !(decide (a / 256 ≤ c.1) && decide (c.1 < (a + n) / 256)) }

/-- The stored check word of granule `g` (R195, R196); a free value where it is neither the CRC nor the poison mark. -/
def Dev.checkWord (d : Dev) (g : Nat) : Nat × Dev :=
  let c := crc32c (d.bytes (g * 256) 256)
  match d.mark g with
  | .good => (c, d)
  | .poison => (c ^^^ 0xa5c30f96, d)
  | .bad => let r := d.freeWord; (r.1.toNat % 2 ^ 32, r.2)

/-- Is a range inside device memory, outside the firmware area? -/
def inUserMem (a n : Nat) : Bool := decide (a + n ≤ fwBase)

/-- Is a range inside the harbour? -/
def inHarbour (a n : Nat) : Bool := decide (harbBase ≤ a) && decide (a + n ≤ harbEnd)

/-- Is a range inside one cluster's SRAM? -/
def inSram (a n : Nat) : Bool :=
  decide (0x800100000000 ≤ a) && decide (a + n ≤ 0x800110000000) &&
    (n == 0 || (a - 0x800100000000) / 0x1000000 == (a + n - 1 - 0x800100000000) / 0x1000000)

/-- Is a range inside the scratch pool of the layout in force? -/
def Dev.inScratch (d : Dev) (a n : Nat) : Bool :=
  decide (d.fw.layout.cBase ≤ a) && decide (a + n ≤ d.fw.layout.cBase + d.fw.layout.cSize)

end Sys2Proof.Machine
end

