-- ==== Sys2Proof/Machine/Rings.lean ====
section
/-!
DEFINITION. Machine/Rings.lean: ring pairs, the completion of commands and the posting of events (R268 to R275).
-/
namespace Sys2Proof.Machine

/-- Ring pair `q`. -/
def Dev.ring (d : Dev) (q : Nat) : Ring := d.fw.rings.get (fun _ => {}) q

/-- Ring pair `q` given a value. -/
def Dev.setRing (d : Dev) (q : Nat) (r : Ring) : Dev :=
  { d with fw := { d.fw with rings := (q, r) :: d.fw.rings.filter (·.1 ≠ q) } }

/-- Completion entries free beyond those reserved; one entry stays unused, as in a submission ring (R270, R271). -/
def Ring.free (r : Ring) : Nat :=
  2 ^ r.cqLog - 1 - ((r.cqTail + 2 ^ r.cqLog - r.cqHead) % 2 ^ r.cqLog) - r.reserved

/-- The 16 bytes of a completion entry (Table 10.5). -/
def cqEntry (cid status sqHead flags result : Nat) : List Byte :=
  leBytes cid 2 ++ leBytes status 2 ++ leBytes sqHead 2 ++ leBytes flags 2 ++ leBytes result 8

/-- One completion entry written, then the interrupt of the pair (R271). -/
def Dev.cqWrite (d : Dev) (q cid status flags result : Nat) : Dev :=
  let r := d.ring q
  let d1 := d.poke (r.cqBase + 16 * r.cqTail) (cqEntry cid status r.sqHead (flags + b2n r.phase) result)
  let t := (r.cqTail + 1) % 2 ^ r.cqLog
  let d2 := d1.setRing q { r with cqTail := t, phase := if t = 0 then !r.phase else r.phase }
  if r.intMask then d2 else d2.msix r.vec

/-- A fetched command completes with a status and a result; its entry uses the space reserved for it (R271, R272). -/
def Dev.complete (d : Dev) (q cid status result : Nat) : Dev :=
  match d.fw.fetched.find? fun c => c.pair == q && c.cid == cid with
  | none => d
  | some c =>
    let d1 := { d with fw := { d.fw with fetched := d.fw.fetched.erase c } }
    let r := d1.ring q
    if r.enabled && !r.err then
      let d2 := (d1.setRing q { r with reserved := r.reserved - 1 }).inc 0x8800
      d2.cqWrite q cid status (if c.late then 8 else 0) result
    else d1

/-- An async event posted on pair 0, or its EVT_PEND bit set (R275). -/
def Dev.event (d : Dev) (code result : Nat) : Dev :=
  if !d.fwRunning then d
  else
    let r := d.ring 0
    if r.enabled && !r.err && decide (0 < r.free) then d.cqWrite 0 0xffff code 2 result
    else d.sb 0x8178 (code - 0x8001) true

/-- Pending events posted while there is space, lowest code first (R275). -/
def Dev.flushEvents (d : Dev) : Dev :=
  d.each (List.range 9) fun i d =>
    let r := d.ring 0
    if d.b 0x8178 i && r.enabled && !r.err && decide (0 < r.free) then
      (d.cqWrite 0 0xffff (0x8001 + i) 6 0).sb 0x8178 i false
    else d

/-- The command of a pair that is begun next, where it has this tag and opcode: the commands of one ring begin in its order
(R272). -/
def Dev.cmd? (d : Dev) (q cid opc : Nat) : Option Cmd :=
  match d.fw.fetched.find? fun c => c.pair == q && c.phase == 0 with
  | none => none
  | some c => if c.cid = cid ∧ c.opc = opc then some c else none

/-- A fetched command replaced. -/
def Dev.setCmd (d : Dev) (c : Cmd) : Dev :=
  let l := d.fw.fetched.map fun x => if x.pair = c.pair ∧ x.cid = c.cid then c else x
  { d with fw := { d.fw with fetched := l } }

/-- A command marked as armed or in progress. -/
def Dev.hold (d : Dev) (c : Cmd) : Dev := d.setCmd { c with phase := 1 }

/-- The row of an admin command: with the fetched command of that tag, or nothing. -/
def Dev.admin (d : Dev) (cid opc : Nat) (f : Cmd → Dev → Dev) : Dev :=
  match d.cmd? 0 cid opc with
  | none => d
  | some c => f c d

end Sys2Proof.Machine
end

