-- ==== Sys2Proof/Machine/Trc.lean ====
section
/-!
DEFINITION. Machine/Trc.lean: trace buffers, the records of the cores, and triggers (R486 to R492).
-/
namespace Sys2Proof.Machine

/-- Register `o` of trace buffer `b`. -/
def tbReg (b o : Nat) : Nat := pgTRC + o + (b + 1) * 2 ^ 24

/-- Buffer `b` beside its registers, and its update. -/
def Dev.tbuf (d : Dev) (b : Nat) : TraceBuf := d.trc.bufs.getD b {}
def Dev.setTbuf (d : Dev) (b : Nat) (x : TraceBuf) : Dev := { d with trc := { d.trc with bufs := d.trc.bufs.set b x } }

/-- A traced core's unwritten state, and its update. -/
def Dev.tcore (d : Dev) (i : Nat) : TraceCore := d.trc.cores.getD i {}
def Dev.setTcore (d : Dev) (i : Nat) (x : TraceCore) : Dev := { d with trc := { d.trc with cores := d.trc.cores.set i x } }

/-- Does buffer `b`'s TB_SRC name core `i`? Source 37 is the EMH message source. -/
def Dev.tbNames (d : Dev) (b i : Nat) : Bool :=
  if i < 32 then d.b (tbReg b 0x120) i else d.b (tbReg b 0x124) (i - 32)

/-- The buffer a source feeds: the lowest-numbered enabled one that names it (R488). -/
def Dev.tbOf (d : Dev) (i : Nat) : Option Nat :=
  (List.range 8).find? fun b => d.b (tbReg b 0x114) 0 && d.tbNames b i

/-- The 16 bytes of a record (Table 19.1). -/
def traceBytes (ty src n tsd data : Nat) : List Byte :=
  [BitVec.ofNat 8 ty, BitVec.ofNat 8 src] ++ leBytes n 2 ++ leBytes tsd 4 ++ leBytes data 8

/-- A record at the write pointer of a buffer, under its policy (R490). -/
def Dev.tbWrite (d : Dev) (b : Nat) (l : List Byte) : Dev :=
  if d.b (tbReg b 0x13c) 0 then d.inc (pgTRC + 0x804 + 8 * b)
  else
    let n := 2 ^ d.g (tbReg b 0x11c) 0 5
    let w := d.g (tbReg b 0x138) 0 26
    let d1 := (d.poke (d.g (tbReg b 0x118) 0 32 * 65536 + 16 * w) l).s (tbReg b 0x138) 0 26 ((w + 1) % n)
    let pol := d.g (tbReg b 0x114) 1 2
    let d2 := if w + 1 = n then (if pol = 0 then d1.sb (tbReg b 0x13c) 0 true else d1.sb (tbReg b 0x13c) 2 true) else d1
    match (d2.tbuf b).left with
    | none => d2
    | some k =>
      let d3 := d2.setTbuf b { d2.tbuf b with left := some (k - 1) }
      if k ≤ 1 then d3.sb (tbReg b 0x13c) 0 true else d3

/-- A buffer's path to memory is busy: the channel that its next record lies on is being retrained (R210, R488). -/
def Dev.tbBusy (d : Dev) (b : Nat) : Bool :=
  !d.b (tbReg b 0x13c) 0 && d.retraining (d.g (tbReg b 0x118) 0 32 * 65536 + 16 * d.g (tbReg b 0x138) 0 26)

/-- Each core that feeds a buffer owes a SYNC (R487). -/
def Dev.oweSync (d : Dev) (b : Nat) : Dev :=
  d.each ((List.range 37).filter fun i => d.tbOf i == some b) fun i d => d.setTcore i { d.tcore i with sync := true }

/-- Records that wait are written while the path is free; where records were lost, a LOSS record follows as soon as there is
space, and then a SYNC of each core (R487, R488). -/
def Dev.tbFlush (d : Dev) (b : Nat) : Nat → Dev
  | 0 => d
  | f + 1 =>
    let x := d.tbuf b
    match x.queue with
    | [] => d
    | l :: t =>
      if d.tbBusy b then d
      else
        let q := if x.loss = 0 then t
          else t ++ [traceBytes 9 0xff (min 65535 x.loss) x.lossFirst.toNat x.lossLast.toNat]
        let d1 := (d.setTbuf b { x with queue := q, loss := 0 }).tbWrite b l
        (if x.loss = 0 then d1 else d1.oweSync b).tbFlush b f

/-- A record that reaches a buffer: written, or, while the path to memory is busy, queued behind at most 511 others; one that
finds the queue full is lost (R488). -/
def Dev.tbPut (d : Dev) (b : Nat) (l : List Byte) : Dev :=
  let d1 := d.tbFlush b ((d.tbuf b).queue.length + 2)
  let x := d1.tbuf b
  if x.queue.isEmpty && !d1.tbBusy b then d1.tbWrite b l
  else if x.queue.length < 512 then d1.setTbuf b { x with queue := x.queue ++ [l] }
  else
    let first := if x.loss = 0 then d1.trclk else x.lossFirst
    (d1.setTbuf b { x with loss := x.loss + 1, lossFirst := first, lossLast := d1.trclk }).inc (pgTRC + 0x800 + 8 * b)

/-- What waits in the queues of the buffers is written where their paths are free. -/
def Dev.tbFlushAll (d : Dev) : Dev := d.each (List.range 8) fun b d => d.tbFlush b ((d.tbuf b).queue.length + 2)

/-- A record written to a buffer, after a TIME record where one is due (R487); in safe state buffers receive none
(Table 19.5). -/
def Dev.tbRec (d : Dev) (b ty src n data : Nat) : Dev :=
  if d.safe then d else
  let ts := d.trclk.toNat
  let hi := ts / 2 ^ 32
  let d1 := if (d.tbuf b).timeHi ≠ some hi ∨ ty = 1 then
      (d.setTbuf b { d.tbuf b with timeHi := some hi }).tbPut b (traceBytes 0x0a 0xff 0 ts ts) else d
  d1.tbPut b (traceBytes ty src n ts data)

/-- The COND record of the conditions a core holds (R487). -/
def Dev.condRec (d : Dev) (b i : Nat) : Dev :=
  let x := d.tcore i
  if x.cond.isEmpty then d
  else
    let bits := x.cond.zipIdx.foldl (fun a (c : Bool × Nat) => a + b2n c.1 * 2 ^ c.2) 0
    let due := x.sync || decide (d.g (pgTRC + 0x108) 0 16 ≤ x.recs + 1)
    (d.setTcore i { x with cond := [], n := 0, recs := x.recs + 1, sync := due }).tbRec b 3 i x.cond.length bits

/-- A record of core `i` of type `ty`; a SYNC falls due after SYNC_INT.COUNT others (R487). -/
def Dev.coreRec (d : Dev) (i ty n data : Nat) : Dev :=
  match d.tbOf i with
  | none => d
  | some b =>
    let d1 := d.condRec b i
    let x := d1.tcore i
    let k := x.recs + 1
    (d1.setTcore i { x with n := 0, recs := k, sync := x.sync || decide (d.g (pgTRC + 0x108) 0 16 ≤ k) }).tbRec b ty i n data

/-- What a traced core writes before an instruction at `pc`: a SYNC that is due; and after it: its condition, kept until
64 are held (R486, R487). -/
def Dev.traceInsn (d : Dev) (i : Nat) (pc : DWord) (cond : BitVec 4) (holds : Bool) : Dev :=
  match d.tbOf i with
  | none => d
  | some b =>
    let d1 := if (d.tcore i).sync then
        let e := d.condRec b i
        (e.setTcore i { e.tcore i with sync := false, recs := 0, n := 0 }).tbRec b 1 i 0 (pc.toNat % 2 ^ 48) else d
    if cond = 0 then d1
    else
      let x := d1.tcore i
      let d2 := d1.setTcore i { x with cond := x.cond ++ [holds] }
      if 64 ≤ x.cond.length + 1 then d2.condRec b i else d2

/-- An instruction of a traced core completed. -/
def Dev.traceDone (d : Dev) (i : Nat) : Dev :=
  let x := d.tcore i
  d.setTcore i { x with n := if (d.tbOf i).isSome then x.n + 1 else x.n, stall := none }

/-- A core stalls: the start is kept; and the STALL record when the stall of a TWAIT (0) or WAITNE (1) has ended. -/
def Dev.stallBegin (d : Dev) (i : Nat) : Dev :=
  let x := d.tcore i
  if x.stall.isSome then d else d.setTcore i { x with stall := some d.trclk }
def Dev.stallEnd (d : Dev) (i kind : Nat) : Dev :=
  match (d.tcore i).stall with
  | none => d
  | some t => (d.setTcore i { d.tcore i with stall := none }).coreRec i 8 kind (d.trclk - t).toNat

/-- Buffer `b` triggers on a cause (R489). -/
def Dev.trigger (d : Dev) (b cause tide : Nat) : Dev :=
  if d.b (tbReg b 0x114) 0 && d.b (tbReg b 0x114) (cause + 2) && !d.b (tbReg b 0x13c) 1 then
    let d1 := (d.sb (tbReg b 0x13c) 1 true).tbRec b 0x0b 0xff cause tide
    if d.g (tbReg b 0x114) 1 2 = 2 then
      let k := 2 ^ d.g (tbReg b 0x11c) 0 5 - d.g (tbReg b 0x128) 0 26 - 1 + (d1.tbuf b).queue.length
      let d2 := d1.setTbuf b { d1.tbuf b with left := some k }
      if k = 0 then d2.sb (tbReg b 0x13c) 0 true else d2
    else d1
  else d

/-- Every buffer that a condition holds for triggers. -/
def Dev.triggerAll (d : Dev) (cause : Nat) (p : Nat → Bool) : Dev :=
  d.each ((List.range 8).filter p) fun b d => d.trigger b cause 0

/-- Buffers whose trigger tide the device reaches at this boundary (cause 3). -/
def Dev.triggerTide (d : Dev) : Dev :=
  d.each (List.range 8) fun b d =>
    let t := d.rd64 (tbReg b 0x130)
    if d.tide.prev.toNat < t ∧ t ≤ d.tide.cur.toNat then d.trigger b 3 t else d

/-- The record of a data packet sent or accepted, sampled by its PSN (R492). -/
def Dev.traceMsg (d : Dev) (ty conn psn epoch dev : Nat) (retx : Bool) : Dev :=
  if d.b (pgTRC + 0x10c) 0 && psn % 2 ^ d.g (pgTRC + 0x10c) 1 5 == 0 then
    match d.tbOf 37 with
    | none => d
    | some b => d.tbRec b ty 0xfe conn (psn % 2 ^ 32 + epoch % 256 * 2 ^ 32 + dev % 1024 * 2 ^ 40 + b2n retx * 2 ^ 63)
  else d

end Sys2Proof.Machine
end

