-- ==== Sys2Proof/Machine/Err.lean ====
section
/-!
DEFINITION. Machine/Err.lean: classes, domains, the record ring, handling windows, escalation and safe state
(chapter 17).
-/
namespace Sys2Proof.Machine

/-- The class of a code (Tables 17.3 and 21.14). -/
def errClass (code : Nat) : Nat :=
  if code ∈ [0x0004, 0x0030, 0x0031, 0x0032, 0x0035] then 0
  else if code < 0x0010 then 1
  else if code < 0x0020 then 2
  else 3

/-- Does an error with this code open a handling window (Table 17.3)? -/
def errOpens (code : Nat) : Bool :=
  code ∈ [0x0001, 0x0002, 0x0003, 0x0005, 0x0006, 0x0007, 0x0012, 0x0013, 0x0015]

/-- Block type and instance of a page offset, as records name them (R501, Table 17.2). -/
def srcOf (pg : Nat) : Nat × Nat :=
  match pageBlk (pg / 0x1000) with
  | some (b, i) => (b.code, i)
  | none => (0, 0)

/-- WARM_OK cannot be 1 after these causes (R453). -/
def noWarm (code : Nat) : Bool := code ∈ [0x0020, 0x0021, 0x0022, 0x0025]

/-- Stop the sequencers of a cove as SQCTL FN 0 does, and put it in FREEZING; a cove not ACTIVE is left as it is
(R336, R448). -/
def Dev.freezeCove (d : Dev) (n : Nat) : Dev :=
  let c := d.coves.get (fun _ => {}) n
  if c.state = 1 then
    { d with
      coves := (n, { c with state := 2, freezeTide := d.tide.cur }) :: d.coves.filter (·.1 ≠ n)
      cores := d.cores.zipIdx.map fun (k, i) =>
        if bitN c.cfg.sqMask i && decide (i < 32) then { k with running := false } else k }
  else d

/-- A record put in the ring: the oldest unread one is lost when 256 are unread (R443); the interrupt and the event
follow it (R444), and trace buffers trigger (R489). -/
def Dev.putRec (d : Dev) (r : ErrRec) : Dev :=
  let h := d.g 0x510c 0 8
  let full := d.g 0x510c 8 9 == 256
  let e := d.err
  let r := { r with seq := e.seq + 1, tide := d.tide.cur, ts := d.trclk }
  let d1 := { d with err := { e with seq := e.seq + 1, recs := (h, r) :: e.recs.filter (·.1 ≠ h) } }
  let d2 := d1.s 0x510c 0 8 (h + 1)
  let d3 := if full then ((d2.s 0x5110 0 8 (d.g 0x5110 0 8 + 1)).inc 0x5818).setErr 0x5000 0
    else d2.s 0x510c 8 9 (d.g 0x510c 8 9 + 1)
  let d4 := (d3.setInt 0x5000 0).event 0x8001 h
  if 2 ≤ r.cls then d4.triggerAll 4 fun _ => true else d4

/-- What bus reads of DMA engines have begun to write in the device is stored poisoned (Table 17.4). -/
def Dev.spoilLanding (d : Dev) : Dev :=
  d.each (d.dma.flatMap fun e => e.2.rd.filter fun r => !r.dbus && decide (0 < r.got) && decide (r.elem < 2 ^ 24)) fun r d =>
    d.markRange r.dst r.size .poison

/-- Safe state entered with a cause (R450): a second fatal error changes nothing but what WARM_OK may be (R453).
Commands already fetched complete with SAFE_STATE, but for GET_SENSORS, GET_DUMP and COVE_QUERY (R451). A running snapshot
ends (Table 16.2); the hold of a boundary ends, its actions never applied (Table 17.5), and frames of the host network function not yet queued are dropped (R370). -/
def Dev.enterSafe (d : Dev) (code : Nat) : Dev :=
  let d0 := { d with err := { d.err with
    warmNever := d.err.warmNever || noWarm code, hot := d.err.hot || code == 0x0027, tripped := d.err.tripped || code == 0x0027 } }
  if d.safe then d0
  else
    let d1 := ((((d0.sb 0x5104 0 true).s 0x5104 16 16 code).setInt 0x5000 1).inc 0x581c)
    let d2 := d1.each (d1.fw.fetched.filter fun c => !(c.opc ∈ [0x0031, 0x0021, 0x0108])) fun c d =>
      d.complete c.pair c.cid 0x0304 0
    let d3 := { d2 with ckp := { d2.ckp with run := none, gran := [], pre := [], copying := [] } }
    let d4 := { d3 with tide := { d3.tide with hold := false },
                        net := { d3.net with reorder := d3.net.reorder.filter fun f => f.port ≠ 15 || f.looped } }
    let d5 := d4.spoilLanding
    if d2.ckp.run.isSome then (((d5.s 0x55100 0 2 0).s 0x55124 0 32 0).inc 0x55804).setErr pgCKP 0 else d5

/-- An error of class `cls` recorded with its own class `base`, and what its class does. -/
def Dev.recordAs (d : Dev) (pg code domain base cls : Nat) (escal : Bool) (i0 i1 : Nat) : Dev :=
  let (ty, ins) := srcOf pg
  let dom := if cls = 3 then 0x41 else domain
  let r : ErrRec := { cls := cls, base := base, escal := escal, domain := dom, srcType := ty, srcInst := ins, code := code,
                      count := 1, info0 := BitVec.ofNat 64 i0, info1 := BitVec.ofNat 64 i1 }
  let idx := d.g 0x510c 0 8
  let d1 := d.inc ([0x5800, 0x5804, 0x5808, 0x580c].getD cls 0x580c)
  let d2 := if escal then d1.inc 0x5810 else d1
  let d3 := d2.putRec r
  if cls = 3 then
    let hist := d3.err.norHistory ++ [d3.err.recs.get (fun _ => {}) idx]
    let d4 := { d3 with err := { d3.err with norHistory := hist.drop (hist.length - 64) } }
    d4.enterSafe code
  else
    let d4 := if errOpens code then
      { d3 with err := { d3.err with windows := d3.err.windows ++ [⟨dom, code, ty, ins, idx⟩] } } else d3
    if escal && cls == 2 then
      if dom < 0x40 then d4.freezeCove dom
      else if d4.slackNow then { d4 with slack := { d4.slack with escal := true } }
      else { d4 with fw := { d4.fw with escalSlackPend := some d4.tide.cur } }
    else d4

/-- An error detected: ERR_STS bit `bit` of its page is set; severity, mask (R442), merging (R446) and escalation (R447)
are applied; the record is written and its class acts. -/
def Dev.report (d : Dev) (pg : Nat) (bit : Option Nat) (code domain i0 i1 : Nat) : Dev :=
  let d0 := match bit with | some b => d.setErr pg b | none => d
  let base := errClass code
  let up := match bit with | some b => d.b (pg + 0x18) b | none => false
  let msk := match bit with | some b => d.b (pg + 0x14) b | none => false
  let cls := if up then min 3 (base + 1) else base
  if msk && decide (cls ≤ 1) then d0.inc (if cls = 0 then 0x5800 else 0x5804)
  else if cls = 0 then
    if d0.err.corrSeen.any fun x => x.1 == (pg, code) && decide ((d0.trclk - x.2).toNat < 1000000000) then d0.inc 0x5800
    else
      let l := ((pg, code), d0.trclk) :: d0.err.corrSeen.filter (·.1 ≠ (pg, code))
      ({ d0 with err := { d0.err with corrSeen := l } } : Dev).recordAs pg code domain base 0 false i0 i1
  else if cls = 3 then d0.recordAs pg code domain base 3 false i0 i1
  else
    let (ty, ins) := srcOf pg
    let ws := d0.err.windows.filter (·.domain = domain)
    match ws.find? fun w => w.code == code && w.srcType == ty && w.srcInst == ins with
    | some w =>
      let r := d0.err.recs.get (fun _ => {}) w.idx
      let recs := (w.idx, { r with count := min 65535 (r.count + 1) }) :: d0.err.recs.filter (·.1 ≠ w.idx)
      ({ d0 with err := { d0.err with recs := recs } } : Dev).inc 0x5814
    | none =>
      if ws.isEmpty || !errOpens code then d0.recordAs pg code domain base cls false i0 i1
      else if domain < 0x40 then d0.recordAs pg code domain base 2 true i0 i1
      else if ws.length = 1 then d0.recordAs pg code domain base (cls + 1) true i0 i1
      else d0.recordAs pg code domain base 3 true i0 i1

/-- A write refused as CONFIG_REFUSED: the block and register offset are named (R47, R328, R344, R505). -/
def Dev.configRefused (d : Dev) (pg : Nat) (bit : Option Nat) (off : Nat) : Dev :=
  d.report pg bit 0x0014 0x40 (pg + off) 0

/-- SAFE_STS.WARM_OK as it reads (R453). -/
def Dev.warmOk (d : Dev) : Bool := d.safe && !d.err.warmNever && !d.b 0x5104 2 && !d.err.hot

end Sys2Proof.Machine
end

