-- ==== Sys2Proof/Machine/Access.lean ====
section
/-!
DEFINITION. Machine/Access.lean: verified reads and reported writes of memory, the checks of coves and ranges, and the
end of a snapshot (chapters 2, 7, 12 and 16).
-/
namespace Sys2Proof.Machine

/-- Cove `n`, and its update. -/
def Dev.cove (d : Dev) (n : Nat) : Cove := d.coves.get (fun _ => {}) n
def Dev.setCove (d : Dev) (n : Nat) (c : Cove) : Dev := { d with coves := (n, c) :: d.coves.filter (·.1 ≠ n) }

/-- A cove has begun work: it has done some since its creation (Table 12.3). -/
def Dev.coveWorks (d : Dev) (cove : Option Nat) : Dev :=
  match cove with
  | none => d
  | some n => if (d.cove n).state = 0 || (d.cove n).worked then d else d.setCove n { d.cove n with worked := true }

/-- The domain of the work of a cove, or of the driver and the firmware (R441). -/
def domOf (cove : Option Nat) : Nat := cove.getD 0x40

/-- Every byte of a range lies in a range of a list, with write permission where `w` (R324). -/
def covers (rs : List Range) (w : Bool) (a n : Nat) : Nat → Bool
  | 0 => n == 0
  | f + 1 =>
    if n = 0 then true
    else match rs.find? fun r => decide (r.base ≤ a) && decide (a < r.base + r.size) && (!w || r.w) with
      | none => false
      | some r =>
        let k := min n (r.base + r.size - a)
        covers rs w (a + k) (n - k) f

/-- An access lies within the ranges of cove `n` (R324). -/
def Dev.inCove (d : Dev) (n : Nat) (w : Bool) (a len : Nat) : Bool := covers (d.cove n).cfg.ranges w a len 17

/-- Two ranges have a byte in common. -/
def Range.meets (r q : Range) : Bool := decide (r.base < q.base + q.size) && decide (q.base < r.base + r.size)

/-- No cove's range touches `[a, a + n)`. -/
def Dev.clearOfCoves (d : Dev) (a n : Nat) : Bool :=
  d.coves.all fun k => k.2.state = 0 || k.2.cfg.ranges.all fun r => !r.meets ⟨a, n, true⟩

/-- A resize keeps a resource reserved: one it adds, until it takes effect, and one it removes, until its command completes
(R330, R331). -/
def Dev.reserved (d : Dev) (has : CoveCfg → Bool) : Bool :=
  d.coves.any fun c => decide (c.2.state ≠ 0) && match c.2.resize with
    | none => false
    | some (_, _, g) => has g && !has c.2.cfg

/-- A failed cove check counted (R324). -/
def Dev.deny (d : Dev) (n : Nat) : Dev := (d.inc (pgCOV + 0x800 + 4 * n)).setErr pgCOV 0

/-- A range lies wholly in device memory, the harbour or one cluster's SRAM (R34, Table 2.3). -/
def inMap (a n : Nat) : Bool := decide (a + n ≤ devEnd) || inHarbour a n || inSram a n

/-- A range an engine may use: in the map, outside the firmware area for a cove, and within the cove's ranges (R105). -/
def Dev.rangeOk (d : Dev) (cove : Option Nat) (w : Bool) (a n : Nat) : Bool :=
  inMap a n && match cove with | none => true | some k => d.inCove k w a n

/-- The same of work that keeps the ranges active when it began (R58, R324). -/
def rangeOkIn (rs : List Range) (cove : Option Nat) (w : Bool) (a n : Nat) : Bool :=
  inMap a n && (cove.isNone || covers rs w a n 17)

/-- A mismatch found by a verifier: one deferred record (R203). -/
def Dev.cwMismatch (d : Dev) (pg dom a : Nat) : Dev :=
  let (ty, ins) := srcOf pg
  d.report pg none 0x0001 dom (a / 256 * 256) (ty * 2 ^ 16 + ins)

/-- A poisoned TLP is received by a port (Table 11.4). -/
def Dev.poisonRx (d : Dev) (p : Nat) : Dev := ((d.inc (pgPort p + 0x804)).setErr (pgPort p) 2).aerErr p 12

/-- A read of the device on the bus times out at a port (Table 11.4). -/
def Dev.cmplTmo (d : Dev) (p : Nat) : Dev := ((d.inc (pgPort p + 0x808)).setErr (pgPort p) 3).aerErr p 14

/-- LAST_ERR of an MPD (Table 7.5). -/
def Dev.lastMemErr (d : Dev) (a kind : Nat) : Dev :=
  let (n, o) := siteOf d.fw.layout a
  let p := pgMPD (n / 4)
  ((d.wr (p + 0x12c) (BitVec.ofNat 32 (n % 4 + channelOf o * 4 + kind * 256))).wr (p + 0x130) (BitVec.ofNat 32 o)).wr
    (p + 0x134) (BitVec.ofNat 32 (o / 2 ^ 32))

/-- `k` link CRC retries on a read, one to three, cured: counted, and one corrected record, which alone show it
(Table 7.4). -/
def Dev.linkRetries (d : Dev) (a k : Nat) : Dev :=
  if areaOf a ≠ .device ∨ k = 0 then d else
    let n := (siteOf d.fw.layout a).1
    (d.incBy (siteCnt n 0) k).report (pgMPD (n / 4)) none 0x0004 0x41 k 0

/-- An error met is recorded (Table 7.4): link retries by count; an uncorrectable one as deferred; what was corrected in
place, or by reissuing the command, as corrected. -/
def Dev.upsetRec (d : Dev) (a : Nat) (u : Upset) : Dev :=
  let o := (siteOf d.fw.layout a).2
  match u with
  | .link _ _ n => d.linkRetries a n
  | .parity .. => d.inc 0x5800
  | .dramCe n _ => (d.inc (siteCnt n 4)).inc 0x5800
  | .dramUe n c => (((d.inc (siteCnt n 8)).inc (siteCnt n 0x10)).lastMemErr a 2).report (pgMPD (n / 4)) (some 1) 0x0002 0x41
      (n + c * 256) o
  | .sramCe _ => d.inc 0x5800
  | .sramUe g => d.report (match areaOf a with | .sram n => pgXC n | _ => pgGEN) none 0x0003 0x41 (g * 256) 0

/-- The errors that a read of an address meets, recorded (R206, R217). -/
def Dev.readInject (d : Dev) (a : Nat) : Dev :=
  let r := d.meet a
  r.1.each r.2 fun u d => d.upsetRec a u

/-- A mismatch that the storage controller finds, in a read or a merge of part of a granule: of device memory, the MPD is
the verifier (R199, R200, R203). -/
def Dev.ctlMismatch (d : Dev) (pg dom g : Nat) : Dev :=
  if areaOf g = .device then
    let m := pgMPD ((siteOf d.fw.layout g).1 / 4)
    ((d.cwMismatch m dom g).setErr m 2).lastMemErr g 3
  else d.cwMismatch pg dom g

/-- The granules, by number, that a range touches. -/
def granules (a n : Nat) : List Nat := if n = 0 then [] else (List.range ((a + n - 1) / 256 - a / 256 + 1)).map (a / 256 + ·)

/-- A verified read: the bytes, whether any comes from a poisoned or failing granule or a failed site, and the device
with what the verification recorded (R199, R203). `pg` is the reader, which verifies whole granules; `dom` the domain of
the work. -/
def Dev.memRead (d : Dev) (pg dom a n : Nat) : List Byte × Bool × Dev :=
  let gs := granules a n
  let d1 := d.each gs fun g d => d.readInject (g * 256)
  let d2 := d1.each (gs.filter fun g => d1.mark g = .bad) fun g d =>
    if a ≤ g * 256 ∧ g * 256 + 256 ≤ a + n then d.cwMismatch pg dom (g * 256)
    else if areaOf (g * 256) = .device then
      (d.inc (siteCnt (siteOf d.fw.layout (g * 256)).1 0xc)).ctlMismatch pg dom (g * 256)
    else d.ctlMismatch pg dom (g * 256)
  (d1.bytes a n, d1.anyBad a n || gs.any fun g => d1.siteFailed (g * 256), d2)

/-- What a storage controller found in a merge of a domain's write is recorded (R203). -/
def Dev.foundRec (d : Dev) (f : Found) : Dev :=
  match f.up with
  | some u => d.upsetRec f.addr u
  | none => d.ctlMismatch f.pg f.dom (f.addr / 256 * 256)

/-- What merges of the device's own writes found is recorded (R203). -/
def Dev.recordFound (d : Dev) : Dev :=
  if d.found.isEmpty then d else ({ d with found := [] } : Dev).each d.found fun f d => d.foundRec f

/-- The outcome of a command whose effect on the device is `f`: what its merges found is recorded, and what follows every
command follows. -/
def lift (f : Dev → Dev) (s : State) : Res := .next { s with dev := (f s.dev).recordFound.settle }

/-- The snapshot ends: marks cleared and pre-images freed; SNAP_ARM completes with a status (R430, R437). -/
def Dev.snapEnd (d : Dev) (status : Nat) : Dev :=
  match d.ckp.run with
  | none => d
  | some r =>
    let d1 := { d with ckp := { d.ckp with run := none, gran := [], pre := [], copying := [] } }
    let d2 := ((d1.s 0x55100 0 2 0).inc 0x55804).setErr pgCKP 0
    let d3 := if status = 0x0204 then d2.setErr pgCKP 1 else if status = 0x0205 then d2.setErr pgCKP 2 else d2
    (d3.s 0x55124 0 32 0).complete 0 r.cid status 0

/-- No room in the snapshot pool for a pre-image that is wanted: the snapshot ends with COW_FULL (R430). -/
def Dev.cowCheck (d : Dev) : Dev :=
  if !d.ckp.copying.isEmpty && decide (d.fw.layout.sSize < (d.ckp.pre.length + 1) * 65536) then d.snapEnd 0x0204 else d

/-- Bytes written to memory on behalf of a domain; what the storage controllers found in merges is recorded (R200, R203,
R217). -/
def Dev.memWrite (d : Dev) (pg dom a : Nat) (l : List Byte) (poison : Bool) : Dev :=
  let r := d.store a l poison
  (r.1.each r.2 fun f d => d.foundRec { up := f.1, addr := f.2, pg := pg, dom := dom }).cowCheck

/-- A granule copied whole to a 256-byte-aligned place, its check word and poison carried across unverified (R202). -/
def Dev.carry (d : Dev) (src dst : Nat) : Dev :=
  let d1 := d.readInject src
  let m := if d1.siteFailed src then .poison else d1.mark (src / 256)
  let l := d1.bytes src 256
  if storable dst then (d1.cow dst).granPut dst l m false else d1

/-- Whole granules copied with their check words and poison (R202). -/
def Dev.copyGranules (d : Dev) (src dst n : Nat) : Dev :=
  (d.each (List.range (n / 256)) fun j d => d.carry (src + 256 * j) (dst + 256 * j)).cowCheck

/-- Armed dumps cancelled (R497, Table 19.5): a command still waiting for its tide completes; the spec states no status for
it, so that is a free value. -/
def Dev.dropArms (d : Dev) (p : DumpArm → Bool) : Dev :=
  let (gone, stay) := d.trc.arms.partition p
  ({ d with trc := { d.trc with arms := stay } } : Dev).each gone fun a d =>
    match a.cid with
    | none => d
    | some cid => let (x, d1) := d.freeWord; d1.complete 0 cid (x.toNat % 65536) 0

/-- A completion record in the layout of Table 4.3: STATUS, FLAGS, COUNT_A, COUNT_B, DESC; a count that does not fit
saturates (DEDUCED, log entry 7). -/
def cmplRecord (status flags ca cb desc : Nat) : List Byte :=
  [BitVec.ofNat 8 status, BitVec.ofNat 8 flags] ++ leBytes (min 65535 ca) 2 ++ leBytes (min 65535 cb) 2 ++ [0, 0]
    ++ leBytes desc 8

/-- The write of a range by an agent other than a core, to the check region: dropped and recorded (R35). -/
def Dev.accessDenied (d : Dev) (pg : Nat) (bit : Option Nat) (dom a who : Nat) : Dev :=
  d.report pg bit 0x0010 dom a who

/-- A pre-image put at a place of the snapshot pool, with its check words and poison (R202, R429). -/
def Dev.putImage (d : Dev) (p : PreImg) (dst : Nat) : Dev :=
  d.each (List.range 256) fun j d =>
    d.granPut (dst + 256 * j) (Map.getList (fun _ => (0 : Byte)) p.cells (p.gran * 65536 + 256 * j) 256)
      (p.marks.get (fun _ => .good) (p.gran * 256 + j)) false

/-- A pre-image stands in the snapshot pool: the granule is PRESERVED (R429). -/
def Dev.preserve (d : Dev) (p : PreImg) : Dev :=
  let c := d.ckp
  let d1 := d.putImage p (d.fw.layout.sBase + c.pre.length * 65536)
  let d2 := { d1 with ckp := { c with
    gran := (p.gran, 2) :: c.gran.filter (·.1 ≠ p.gran), pre := c.pre ++ [p.gran], copying := c.copying.erase p } }
  (d2.inc 0x55808).s 0x55124 0 32 (c.pre.length + 1)

end Sys2Proof.Machine
end

