-- ==== Sys2Proof/Machine/EmhCore.lean ====
section
/-!
DEFINITION. Machine/EmhCore.lean: connection contexts, the sending of packets and messages, events, and the end of
requests and of contexts (chapter 14).
-/
namespace Sys2Proof.Machine

/-- Address of context `c` (Table 14.4). -/
def Dev.ctxAddr (d : Dev) (c : Nat) : Nat := (d.rd (pgEMH + 0x10c)).toNat * 65536 + 256 * c

/-- Transport state of context `c`, and its update. -/
def Dev.ctx (d : Dev) (c : Nat) : Ctx := (d.emh.ctx.find? (·.conn = c)).getD { conn := c }
def Dev.setCtx (d : Dev) (x : Ctx) : Dev :=
  let l := d.emh.ctx.filter (·.conn ≠ x.conn)
  { d with emh := { d.emh with ctx := if x = { conn := x.conn } then l else x :: l } }

/-- `n` bytes at `o` of a context; those the device re-reads only on OPEN, LISTEN and REPOINT as it last read them
(R374, R375). -/
def Dev.cBytes (d : Dev) (c o n : Nat) : List Byte :=
  let r := (d.ctx c).rep
  if !r.isEmpty && (decide (4 ≤ o) && decide (o < 8) || decide (16 ≤ o) && decide (o < 80)) then (r.drop o).take n
  else d.bytes (d.ctxAddr c + o) n

/-- Field of a context. -/
def Dev.cf (d : Dev) (c o n : Nat) : Nat := leNat (d.cBytes c o n)

/-- The owning cove, none for the driver. -/
def Dev.cOwner (d : Dev) (c : Nat) : Option Nat :=
  let o := d.cf c 2 1
  if bitN o 6 then some (o % 64) else none

/-- The context is taken up: EMH reads its 256 bytes, a whole granule, and verifies them (R199); a poisoned context is
used as it stands (DESIGN CHOICE, log entry 90). -/
def Dev.cTouch (d : Dev) (c : Nat) : Dev := (d.memRead pgEMH (domOf (d.cOwner c)) (d.ctxAddr c) 256).2.2

/-- Bytes written by EMH or the exchange unit on behalf of a domain; a write that reaches the check region is dropped and
recorded (R35). -/
def Dev.emhStore (d : Dev) (dom a : Nat) (l : List Byte) (poison : Bool) : Dev :=
  if areaOf a = .check then d.accessDenied pgEMH none dom a 0x00330000 else d.memWrite pgEMH dom a l poison

/-- A field of a context written by the device. -/
def Dev.setCf (d : Dev) (c o n v : Nat) : Dev := d.emhStore (domOf (d.cOwner c)) (d.ctxAddr c + o) (leBytes v n) false

/-- STATE, SERVICE, PEER_DEV of a context. -/
def Dev.cState (d : Dev) (c : Nat) : Nat := d.cf c 0 1
def Dev.cService (d : Dev) (c : Nat) : Nat := d.cf c 1 1
def Dev.cPeer (d : Dev) (c : Nat) : Nat := d.cf c 4 2 % 1024
/-- The listed bytes of the context table name the contexts that can be other than CLOSED: STATE is byte 0, and an
unlisted byte reads 0. -/
def Dev.liveCtxs (d : Dev) : List Nat :=
  let b := d.ctxAddr 0
  let l := d.mem.filterMap fun c =>
    if b ≤ c.1 ∧ c.1 < b + 16777216 ∧ (c.1 - b) % 256 = 0 ∧ d.cState ((c.1 - b) / 256) ≠ 0 then some ((c.1 - b) / 256) else none
  l.eraseDups.mergeSort (fun a b => decide (a ≤ b))

/-- The lowest-numbered ESTABLISHED context of a service to a peer with an owner (R377). -/
def Dev.findCtx (d : Dev) (service peer : Nat) (owner : Option Nat) : Option Nat :=
  d.liveCtxs.find? fun c => d.cState c == 3 && d.cService c == service && d.cPeer c == peer && d.cOwner c == owner

/-- Queue of a path, and its source port. -/
def Dev.pathQueue (d : Dev) (c p : Nat) : Nat := d.cf c (50 + 4 * p) 2 % 4096
def Dev.pathSport (d : Dev) (c p : Nat) : Nat := d.cf c (48 + 4 * p) 2

/-- The path after `p` that is up, in ascending turn; none when all are down (R385). -/
def Dev.nextUp (d : Dev) (c p : Nat) : Option Nat :=
  let n := d.cf c 8 1
  let up := d.cf c 9 1
  ((List.range n).map fun i => (p + i) % n).find? fun q => bitN up q

/-- Counted bytes queued on queue `q`. -/
def Dev.qDepth (d : Dev) (q : Nat) : Nat :=
  (d.tsq.frames.filter fun f => f.q == q && !f.held).foldl (fun a f => a + f.len) 0

/-- Big-endian field of a header (R6). -/
def beAt (l : List Byte) (o n : Nat) : Nat := beNat ((l.drop o).take n)

/-- The 32 bytes of an Emham header, big-endian (Table 14.1). -/
def pktHeader (k : EmhPkt) : List Byte :=
  [BitVec.ofNat 8 (k.ver % 16 * 16 + k.op % 16), BitVec.ofNat 8 (b2n k.poison + 2 * b2n k.retx), BitVec.ofNat 8 (k.path % 8)
    , BitVec.ofNat 8 k.epoch] ++ beBytes k.domain 2 ++ beBytes (k.sdev % 1024) 2 ++ beBytes (k.ddev % 1024) 2
    ++ beBytes k.dconn 2 ++ beBytes k.sconn 2 ++ beBytes k.payload.length 2 ++ beBytes k.psn 4 ++ beBytes k.msn 4
    ++ beBytes k.offset 4 ++ beBytes k.mlen 4

/-- The 16 bytes of the remote extension, of a WRITE and a READ_REQ alone, big-endian (Table 14.2). -/
def pktExt (k : EmhPkt) : List Byte :=
  if k.op = 2 ∨ k.op = 3 then beBytes k.rkey 4 ++ beBytes k.raddr 8 ++ beBytes k.rlen 4 else []

/-- The UDP payload of an Emham packet: header, extension, payload (R371). -/
def pktWire (k : EmhPkt) : List Byte := pktHeader k ++ pktExt k ++ k.payload

/-- The packet that a UDP payload spells (R371, Tables 14.1 and 14.2); reserved bits are not read. -/
def emhOf (l : List Byte) : EmhPkt :=
  let op := beAt l 0 1 % 16
  let x := if op = 2 ∨ op = 3 then 16 else 0
  let e := if op = 2 ∨ op = 3 then l.drop 32 else []
  { ver := beAt l 0 1 / 16, op := op, poison := bitN (beAt l 1 1) 0, retx := bitN (beAt l 1 1) 1, path := beAt l 2 1 % 8
    epoch := beAt l 3 1, domain := beAt l 4 2, sdev := beAt l 6 2 % 1024, ddev := beAt l 8 2 % 1024, dconn := beAt l 10 2
    sconn := beAt l 12 2, psn := beAt l 16 4, msn := beAt l 20 4, offset := beAt l 24 4, mlen := beAt l 28 4
    rkey := beAt e 0 4, raddr := beAt e 4 8, rlen := beAt e 12 4, payload := (l.drop (32 + x)).take (beAt l 14 2) }

/-- A received packet as the bytes of its datagram give it; beside them stand the datagram's addresses and its checksum, and
what no byte carries (log entry 20). -/
def pktReceived (k : EmhPkt) : EmhPkt :=
  { emhOf (pktWire k) with
    sip := k.sip, dip := k.dip, sport := k.sport, dport := k.dport, csumOk := k.csumOk, notify := k.notify, imm := k.imm }

/-- Frame bytes of an Emham packet: headers of the frame, IP and UDP, the packet, FCS. -/
def emhLen (p : EmhPkt) (v4 : Bool) : Nat := 14 + (if v4 then 20 else 40) + 8 + (pktWire p).length + 4

/-- Counted length: length plus LEN_OVHD, at least 1 (R356). -/
def counted (len ovhd : Nat) : Nat :=
  let x : Int := len + intOf7 ovhd
  if x < 1 then 1 else x.toNat
where intOf7 (o : Nat) : Int := if 64 ≤ o % 128 then (o % 128 : Nat) - 128 else ((o % 128 : Nat) : Int)

/-- A frame placed on its queue; a sender that finds the queue at its limit holds it, the host network function's frame
is dropped (R360). -/
def Dev.enqueue (d : Dev) (f : Frame) : Dev :=
  let full := decide (d.gA (pgTSQ + 0x110 + (f.q + 1) * 2 ^ 24) 0 24 ≤ d.qDepth f.q)
  let f := { f with len := counted f.len (d.gA (pgTSQ + 0x1b0) 0 7), bare := f.len, since := d.trclk }
  if full && f.host then ((d.inc (pgTSQ + 0x804)).inc (pgTSQ + 0x814 + (f.q + 1) * 2 ^ 24)).setErr pgTSQ 0
  else { d with tsq := { d.tsq with frames := d.tsq.frames ++ [{ f with held := full }] } }

/-- Held frames of a queue join it while it stands below its limit (R360). -/
def Dev.retryHeld (d : Dev) (q : Nat) : Nat → Dev
  | 0 => d
  | n + 1 =>
    if d.gA (pgTSQ + 0x110 + (q + 1) * 2 ^ 24) 0 24 ≤ d.qDepth q then d
    else match d.tsq.frames.findIdx? fun f => f.q == q && f.held with
      | none => d
      | some i =>
        let l := d.tsq.frames.mapIdx fun j (f : Frame) => if j = i then { f with held := false } else f
        ({ d with tsq := { d.tsq with frames := l } } : Dev).retryHeld q n

/-- Held frames join their queues where these stand below their limits (R360). -/
def Dev.retryAll (d : Dev) : Dev :=
  d.each ((d.tsq.frames.filter (·.held)).map (·.q)).eraseDups fun q d => d.retryHeld q (d.tsq.frames.length + 1)

/-- Frames taken from their queues unsent, those of some contexts: what was held behind them follows (R360, R384, Table 13.5). -/
def Dev.unqueueOf (d : Dev) (of : Nat → Bool) : Dev :=
  let l := d.tsq.frames.filter fun f => f.pkt.isNone || f.host || !of f.src
  ({ d with tsq := { d.tsq with frames := l } } : Dev).retryAll

/-- The block takes part in traffic: no safe state, of the device or of the block alone, and its clocks run (R373, R504,
R505). -/
def Dev.emhUp (d : Dev) : Bool := !d.safe && d.b (pgEMH + 8) 0 && !d.b (pgEMH + 8) 2

/-- Emham sends: EMH.CTL.EN is 1 (R373). -/
def Dev.emhOn (d : Dev) : Bool := d.b (pgEMH + 0x100) 0 && d.emhUp

/-- A packet of context `c` filled in and placed on the queue of path `p` (R371, R376). -/
def Dev.sendOn (d : Dev) (c p : Nat) (k : EmhPkt) : Dev :=
  if !d.emhOn then d else
    let k := { k with path := p, sip := beNat (d.cBytes c 32 16), dip := beNat (d.cBytes c 16 16), sport := d.pathSport c p,
                      dport := d.g (pgEMH + 0x104) 0 16, epoch := d.cf c 3 1, domain := d.g (pgEMH + 0x108) 16 16,
                      sdev := d.g (pgEMH + 0x108) 0 10, ddev := d.cPeer c, dconn := d.cf c 6 2, sconn := c }
    (if k.op ≤ 4 then d.inc (pgEMH + 0x800) else d).enqueue
      { q := d.pathQueue c p, len := emhLen k (bitN (d.cf c 2 1) 7), pkt := some k, udp := pktWire k, src := c,
        dscp := d.cf c 10 1 % 64, v4 := bitN (d.cf c 2 1) 7 }

/-- An event record written (R394): CODE, DEV, CONN, PORT, DATA; PHASE last. A field that has no meaning under a code is
a free value (DESIGN CHOICE, log entry 33). -/
def Dev.emhEvent (d : Dev) (code : Nat) (dev conn port data : Option Nat) : Dev :=
  let size := 2 ^ d.g (pgEMH + 0x148) 0 5
  let h := d.g (pgEMH + 0x14c) 0 16 % size
  if (h + 1) % size = d.g (pgEMH + 0x150) 0 16 % size then (d.inc (pgEMH + 0x840)).setErr pgEMH 2
  else
    let (x, d) := d.freeWord
    let (y, d) := d.freeWord
    let f := x.toNat
    let a := d.rd64 (pgEMH + 0x140) % 2 ^ 48 + 16 * h
    let l := leBytes code 2 ++ leBytes (dev.getD f) 2 ++ leBytes (conn.getD (f / 2 ^ 16)) 2
      ++ [BitVec.ofNat 8 (port.getD (f / 2 ^ 32)), BitVec.ofNat 8 (b2n d.emh.evPhase)] ++ leBytes (data.getD y.toNat) 8
    let d1 := (d.emhStore 0x40 a l false).s (pgEMH + 0x14c) 0 16 ((h + 1) % size)
    let d2 := { d1 with emh := { d1.emh with evPhase := if (h + 1) % size = 0 then !d.emh.evPhase else d.emh.evPhase } }
    d2.setInt pgEMH 0

/-- A data packet's share read from its source: when it is first sent, and at each retransmission (Table 14.7). -/
def Dev.fill (d : Dev) (c : Nat) (t : TxPkt) : TxPkt × Dev :=
  if t.src.isEmpty then (t, d)
  else
    let r := t.src.foldl (fun (r : List Byte × Bool × Dev) (p : Nat × Nat) =>
      let (l, bad, d1) := r.2.2.memRead pgEMH (domOf (d.cOwner c)) p.1 p.2
      (r.1 ++ l, r.2.1 || bad, d1)) ([], t.pkt.poison, d)
    ({ t with pkt := { t.pkt with payload := t.head ++ r.1, poison := r.2.1 } }, r.2.2)

/-- Is it the same packet of the same message? -/
def TxPkt.same (t u : TxPkt) : Bool := t.pkt.op == u.pkt.op && t.pkt.msn == u.pkt.msn && t.pkt.offset == u.pkt.offset

/-- A data packet sent on path `p`, the first time or again; a request that sends a poisoned byte is poisoned (R379,
R380). -/
def Dev.transmit (d : Dev) (c : Nat) (t : TxPkt) (p : Nat) (retx : Bool) : Dev :=
  let (t1, d1) := if t.sent || t.pkt.payload.isEmpty then d.fill c t else (t, d)
  let t2 := { t1 with sent := true, delayed := false, path := p, pkt := { t1.pkt with retx := retx } }
  let x := d1.ctx c
  let reqs := x.reqs.map fun (r : Req) =>
    if t2.pkt.op = 2 ∧ r.msn = t2.pkt.msn ∧ t2.pkt.poison then { r with poison := true } else r
  (d1.setCtx { x with tx := x.tx.map fun u => if u.same t2 then t2 else u, reqs := reqs }).sendOn c p t2.pkt

/-- Data packets waiting for room in the window are sent while PSN - UNA_PSN is below 4,096, on the paths in turn (R380,
R385). -/
def Dev.pump (d : Dev) (c : Nat) : Dev :=
  if !(d.cState c ∈ [3, 4, 5]) || !d.emhOn then d else
    ((d.ctx c).tx.filter fun t => !t.sent).foldl (fun d t =>
      let psn := d.cf c 104 4
      let una := d.cf c 108 4
      if 4096 ≤ (psn + 2 ^ 32 - una) % 2 ^ 32 then d
      else
        let x := d.ctx c
        match d.nextUp c x.nextPath with
        | none => d
        | some p =>
          let d1 := (d.setCtx { x with nextPath := (p + 1) % max 1 (d.cf c 8 1) }).setCf c 104 4 ((psn + 1) % 2 ^ 32)
          d1.transmit c { t with pkt := { t.pkt with psn := psn } } p false) d

/-- New data packets of a context queued and sent as the window allows; each is made distinct by MSN and OFFSET. -/
def Dev.post (d : Dev) (c : Nat) (l : List TxPkt) : Dev :=
  let x := d.ctx c
  (d.setCtx { x with tx := x.tx ++ l }).pump c

/-- The next MSN of a context. -/
def Dev.takeMsn (d : Dev) (c : Nat) : Nat × Dev :=
  let m := d.cf c 116 4
  (m, d.setCf c 116 4 ((m + 1) % 2 ^ 32))

/-- A message of a service cut into packets of at most 4,096 bytes of payload, the service header first in each (R143,
R371); `src`: the address its body was read from. -/
def cutMsg (k : EmhPkt) (head body : List Byte) (msg : Nat) (src : Option Nat) : List TxPkt :=
  let n := 4096 - head.length
  let parts := if body.isEmpty then [[]] else chunks n body (body.length / n + 1)
  parts.zipIdx.map fun (b, i) =>
    { pkt := { k with payload := head ++ b, offset := i * n, mlen := body.length }, msg := msg, head := head
      src := match src with | some a => if b.isEmpty then [] else [(a + i * n, b.length)] | none => [] }
where chunks (n : Nat) (l : List Byte) : Nat → List (List Byte)
  | 0 => []
  | f + 1 => if l.isEmpty then [] else l.take n :: chunks n (l.drop n) f

/-- A SEND on a context. -/
def Dev.sendMsg (d : Dev) (c : Nat) (head body : List Byte) (poison : Bool) (msg : Nat) (src : Option Nat := none) : Dev :=
  let (m, d1) := (d.cTouch c).takeMsn c
  d1.post c (cutMsg { op := 1, msn := m, poison := poison } head body msg src)

/-- Bytes `off` to `off + n - 1` of a list of ranges. -/
def subSegs : List (Nat × Nat) → Nat → Nat → List (Nat × Nat)
  | [], _, _ => []
  | (a, k) :: t, off, n =>
    if n = 0 then []
    else if k ≤ off then subSegs t (off - k) n
    else (a + off, min n (k - off)) :: subSegs t 0 (n - min n (k - off))

/-- The packets of a request: those of a WRITE read from its local ranges, or with the bytes given; one of a READ (R371,
R378). -/
def reqPkts (r : Req) (inl : List (Byte × Bool)) : List TxPkt :=
  let k : EmhPkt := { op := if r.read then 3 else 2, msn := r.msn, rkey := r.rkey, raddr := r.raddr }
  if r.read then [{ pkt := { k with rlen := r.len } }]
  else (List.range ((r.len + 4095) / 4096)).map fun i =>
    let b := (inl.drop (4096 * i)).take 4096
    { pkt := { k with mlen := r.len, offset := 4096 * i, notify := r.notify, imm := r.imm, payload := b.map (·.1)
                      poison := b.any (·.2) }
      src := subSegs r.segs (4096 * i) (min 4096 (r.len - 4096 * i)) }

/-- A request takes its MSN and its packets are posted. -/
def Dev.issue (d : Dev) (c : Nat) (r : Req) (inl : List (Byte × Bool)) : Dev :=
  let (m, d1) := d.takeMsn c
  let r := { r with msn := m, issued := true }
  let x := d1.ctx c
  (d1.setCtx { x with reqs := x.reqs ++ [r] }).post c (reqPkts r inl)

/-- A control message's payload (Table 14.10, big-endian). -/
def ctlBytes (m : Ctl) : List Byte :=
  [BitVec.ofNat 8 m.ctype, BitVec.ofNat 8 (b2n m.announce + 2 * b2n m.refuse + 4 * b2n m.inexact)]
    ++ beBytes (m.dev % 1024 + 1024 * b2n m.buddyV) 2 ++ beBytes m.arg 4 ++ beBytes m.tide.toNat 8

/-- A control message read from its payload. -/
def ctlOf (l : List Byte) : Ctl :=
  let b (i : Nat) : Nat := (l.getD i 0).toNat
  { ctype := b 0, announce := bitN (b 1) 0, refuse := bitN (b 1) 1, inexact := bitN (b 1) 2
    dev := beNat ((l.drop 2).take 2) % 1024, buddyV := bitN (beNat ((l.drop 2).take 2)) 10
    arg := beNat ((l.drop 4).take 4), tide := BitVec.ofNat 64 (beNat ((l.drop 8).take 8)) }

/-- A control message sent on the SERVICE 2 context with a device (R393); with no such context nothing is sent, and the
answer is missed (R45). -/
def Dev.sendCtl (d : Dev) (dst : Nat) (m : Ctl) : Dev :=
  match d.findCtx 2 dst none with
  | none => d
  | some c => d.sendMsg c [] (ctlBytes m) false 0

end Sys2Proof.Machine
end

