-- ==== Sys2Proof/Machine/Regs.lean ====
section
/-!
DEFINITION. Machine/Regs.lean: the writing of registers by access code, shadow banks and their locks, and the arming of
commits (R10 to R12, R52 to R56, R500 to R508).
-/
namespace Sys2Proof.Machine

/-- Page offset of a register. -/
def pageOf (k : Nat) : Nat := k % 2 ^ 24 / 4096 * 4096

/-- Software's register accesses reach this register: LOAD_STS.STATE opens GEN, FWR and ERR, RUNNING opens all pages
(R265); safe state entered in place of LOADER_READY opens them too (R531); while the hold of R60 lasts they wait (R239). -/
def Dev.pageOpen (d : Dev) (k : Nat) : Bool :=
  !d.tide.hold && (d.fwRunning || (decide (1 ≤ d.loadState) || d.safe) && (pageOf k == pgGEN || pageOf k == pgFWR || pageOf k == pgERR))

/-- In safe state writes reach only REC_TAIL, REC_IDX, INT_STS, ERR_STS and SAFE_CTL of ERR (R452). -/
def Dev.writable (d : Dev) (k : Nat) : Bool :=
  d.pageOpen k && (!d.safe || [0x5110, 0x5114, 0x5020, 0x5010, 0x5108].contains k)

/-- A write that reaches register `k`: it acts where writes reach that register; in safe state every other write is dropped
and counted (R452, R511); where the page does not serve writes it is ignored. -/
def Dev.onReg (d : Dev) (k : Nat) (f : Dev → Dev) : Dev :=
  if d.writable k then f d else if d.pageOpen k && d.safe then (d.inc 0x800).setErr pgGEN 0 else d

/-- COMMIT of a page. -/
def Dev.commit (d : Dev) (pg : Nat) : Commit := d.commits.get (fun _ => {}) pg
def Dev.setCommit (d : Dev) (pg : Nat) (c : Commit) : Dev :=
  { d with commits := (pg, c) :: d.commits.filter (·.1 ≠ pg) }

/-- Some block has an armed commit (R47). -/
def Dev.anyArmed (d : Dev) : Bool := d.commits.any fun c => c.2.armed.isSome

/-- One field of a value `old` written with `v` by its access code (R10); a reserved encoding leaves it (R12). -/
def FieldD.write (f : FieldD) (v old : Nat) : Nat :=
  let x := fieldN v f.lo f.w
  match f.acc with
  | .rw => if f.min ≤ x ∧ x ≤ f.max then setFieldN old f.lo f.w x else old
  | .w1c => setFieldN old f.lo f.w (fieldN old f.lo f.w &&& (2 ^ f.w - 1 - x))
  | .w1s => setFieldN old f.lo f.w (fieldN old f.lo f.w ||| x)
  | .ro => old
  | .wo => old

/-- A register's fields written by their access codes; ERR_FIRST.VALID clears with the last bit of ERR_STS (R506). -/
def Dev.writeFields (d : Dev) (k v : Nat) : Dev :=
  match fieldsOf k with
  | none => d
  | some l =>
    let n := BitVec.ofNat 32 (l.foldl (fun a f => f.write v a) (d.rd k).toNat)
    let d1 := d.wr k n
    if k % 4096 = 0x10 ∧ n = 0 then d1.wr (k + 12) 0 else d1

/-- A global stop has begun to ebb or has cut: no posted set moves, no continuation starts (R456). -/
def Dev.ebbing (d : Dev) : Bool := decide (2 ≤ d.g 0x5120 0 2)

/-- DMA engine `n`, and its update. -/
def Dev.eng (d : Dev) (n : Nat) : Dma := d.dma.get (fun _ => {}) n
def Dev.setEng (d : Dev) (n : Nat) (e : Dma) : Dev := { d with dma := (n, e) :: d.dma.filter (·.1 ≠ n) }

/-- Number of the DMA engine whose page this is. -/
def engOf (pg : Nat) : Option Nat := if 0x100000 ≤ pg ∧ pg < 0x140000 then some ((pg - 0x100000) / 4096) else none

/-- The shadow bank of a page is locked (R55); that of a DMA engine also while its set is posted (R255). -/
def Dev.locked (d : Dev) (pg : Nat) : Bool :=
  (d.commit pg).armed.isSome || (match engOf pg with | some n => (d.eng n).posted | none => false)

/-- A register written: to the shadow bank where it is double-banked, discarded with WDROP while that is locked (R52,
R55). -/
def Dev.writeReg (d : Dev) (k v : Nat) : Dev :=
  let c := d.commit (pageOf k)
  if isBanked k && d.locked (pageOf k) then d.setCommit (pageOf k) { c with wdrop := true } else d.writeFields k v

/-- COMMIT.ARM (R53 to R55): an armed tide not greater than the current tide is late, but for a commit at S in start-up
slack with tide S (R54). -/
def Dev.commitArm (d : Dev) (pg : Nat) (t : DWord) : Dev :=
  let c := d.commit pg
  let late := decide (t ≤ d.tide.cur) && !(d.slack.startup && t == d.tide.cur)
  d.setCommit pg { c with armed := some t, late := late, wdrop := false, skip := d.tide.hold }

end Sys2Proof.Machine
end

