-- ==== Sys2Proof/Machine/Tide.lean ====
section
/-!
DEFINITION. Machine/Tide.lean: the tide, its reports, marks and edges, the start of a domain, slack (chapters 1 and 2).
-/
namespace Sys2Proof.Machine

/-- The device is configured as headland; as worker (R20). -/
def Dev.isHead (d : Dev) : Bool := d.tide.configured && d.tide.role = .headland
def Dev.isWorker (d : Dev) : Bool := d.tide.configured && d.tide.role = .worker

/-- The other members that are not excluded (R462). -/
def Dev.workers (d : Dev) : List Nat := d.tide.members.filter fun m => !d.tide.excluded.contains m

/-- Sequencers that take part in tide reports: launched with TPART (R236), their cove not frozen since (R336). -/
def Dev.participants (d : Dev) : List Nat :=
  (List.range 32).filter fun i =>
    let k := d.cores.getD i {}
    k.part && !(k.launched && [2, 3].contains (d.coves.get (fun _ => {}) k.cove).state)

/-- An admin command of the headland; elsewhere it answers NOT_HEADLAND (R273). -/
def Dev.headCmd (d : Dev) (cid opc : Nat) (f : Cmd → Dev → Dev) : Dev :=
  d.admin cid opc fun c d => if d.isHead then f c d else d.complete 0 cid 0x0008 0

/-- A control message received from a device (R393): it is taken from those delivered. One that only the headland sends is
discarded and counted when it comes from another device. Nothing is accepted before the device is configured (chapter
1). -/
def Dev.ctlIn (d : Dev) (src : Nat) (m : Ctl) (fromHead : Bool) (f : Dev → Dev) : Dev :=
  if !(d.emhOn && d.fwRunning && d.tide.configured) then d
  else
    let d1 := { d with emh := { d.emh with inbox := d.emh.inbox.erase (src, m) } }
    if fromHead && src ≠ d.tide.headDev then d1.inc (pgEMH + 0x818) else f d1

/-- A member's answer is missing: one contained record naming it, one event, and the headland keeps waiting (R45). -/
def Dev.missing (d : Dev) (m : Nat) : Dev :=
  ((d.report pgTIDE (some 0) 0x0012 0x41 m 0).inc (pgTIDE + 0x818)).event 0x8003 m

/-- The device's tide reaches a value: a boundary begins, and the acceptance of operations is held (R60). At the boundary
by which start-up slack is left the tide stays, and what sequencers have signalled for it stands (R43, R48). -/
def Dev.reach (d : Dev) (n : DWord) (keep : List Nat) : Dev :=
  ({ d with tide := { d.tide with
      prev := if d.tide.cur = n then n - 1 else d.tide.cur, cur := n, hold := true,
      done := if d.tide.cur = n then d.tide.done else [], reported := false,
      reports := keep, tmoSeen := [], held := none, leaseHeld := none } } : Dev).inc (pgTIDE + 0x800)

/-- The work that precedes the device's stop is finished: it enters slack (R24), or start-up slack again, as it was before its
START (R48). A stop waits for the last mark received, where that is still held (R24). -/
def Dev.stopNow (d : Dev) : Dev :=
  let d1 := if d.tide.stopping && d.tide.held.isNone && d.tide.leaseHeld.isNone then
      ({ d with slack := { d.slack with stop := true }, tide := { d.tide with stopping := false } } : Dev).inc (pgTIDE + 0x81c)
    else d
  if d1.tide.restart then
    { d1 with slack := { d1.slack with startup := true, stop := false }
              tide := { d1.tide with restart := false, stopping := false, startS := none } }
  else d1

/-- The device has finished its part of the tide: every participating sequencer has signalled done and every write made
before has completed (R43). -/
def Dev.finished (d : Dev) : Bool := d.participants.all d.tide.done.contains

/-- When the device has finished its part of the tide it reports: a worker to its headland, the headland to itself
(R43). -/
def Dev.checkDone (d : Dev) : Dev :=
  if !(d.live && d.tide.configured) || d.slack.startup || d.tide.reported || !d.finished then d
  else
    let t := d.tide
    let d1 := { d with tide := { t with reported := true } }
    let d2 := if d.isHead then { d1 with tide := { d1.tide with reports := d1.tide.reports ++ [t.dev] } }
      else d1.sendCtl t.headDev { ctype := 2, dev := t.dev, tide := t.cur }
    d2.stopNow

/-- A tide mark taken up (R24, R282, R463): a device stopped by R24, or included at this tide, leaves its slack; one in
lease, escalation or cut slack, or in the hold of a boundary, holds the mark; in start-up slack it is not taken. -/
def Dev.applyMark (d : Dev) (n : DWord) : Dev :=
  let inc := d.tide.including.any fun p => p.1 == d.tide.dev && decide (p.2 ≤ n)
  if d.slack.startup && !inc then d
  else if d.slack.lease || d.slack.escal || d.slack.cut || d.tide.hold then
    { d with tide := { d.tide with
        held := none, leaseHeld := some (match d.tide.leaseHeld with | none => n | some m => if m < n then n else m) } }
  else
    ({ d with slack := { d.slack with startup := false, stop := false }
              tide := { d.tide with next := n } } : Dev).reach n []

/-- Slack ended otherwise than by a mark: a held mark is taken up, and with it a stop ends (R24, R282); else the device may now
report. -/
def Dev.resumed (d : Dev) : Dev :=
  let n := d.tide.leaseHeld.getD 0
  if d.tide.cur < n then d.applyMark n else if d.slackNow then d else d.checkDone

/-- TIDE_MARK_MSG (R22, R25, R46, R50). A headland ignores a mark that carries its own device number, with no count and no
record: the rule speaks of another device, and numbers are used once (DESIGN CHOICE, log entry 82). -/
def execTideMarkMsg (src : Nat) (announce : Bool) (tide : DWord) (s : State) : Res :=
  lift (fun d => d.ctlIn src { ctype := 1, announce := announce, tide := tide } false fun d =>
    if d.isHead then
      if src = d.tide.dev then d
      else ({ d with slack := { d.slack with conflict := true } } : Dev).report pgTIDE (some 1) 0x0013 0x41 src 0
    else if src ≠ d.tide.headDev then d.inc (pgTIDE + 0x808)
    else if tide ≤ d.tide.cur then d.inc (pgTIDE + 0x804)
    else
      let d1 := { d with tide := { d.tide with stopping := false } }
      if announce && d.b (pgTIDE + 8) 8 then { d1 with tide := { d1.tide with held := some tide, next := tide } }
      else d1.applyMark tide) s

/-- MARK_TIMEOUT (R24): no greater mark in time after the worker's report; its part of the tide is finished, so it enters
slack. -/
def execMarkTimeout (s : State) : Res :=
  lift (fun d => d.when (d.isWorker && d.fwRunning && !d.safe && d.tide.reported && !d.tide.hold && !d.slack.startup
      && !d.slack.stop && d.tide.held.isNone && d.tide.leaseHeld.isNone) fun d =>
    ({ d with tide := { d.tide with stopping := true } } : Dev).stopNow) s

/-- The control connection of a worker with its headland has failed: marks have stopped (R24). -/
def Dev.marksLost (d : Dev) (peer : Nat) : Dev :=
  if d.isWorker && d.tide.headDev == peer && !d.slack.startup && !d.slack.stop then
    let d1 := { d with tide := { d.tide with stopping := true } }
    if d1.tide.reported then d1.stopNow else d1.checkDone
  else d

/-- GSTOP completes when every member has reported its cut, and the headland has cut (R456, R457). -/
def Dev.gstopCheck (d : Dev) : Dev :=
  match d.err.gstopCid with
  | none => d
  | some cid =>
    if d.g 0x5120 0 2 = 3 ∧ d.err.cutWait.isEmpty then
      let st := if d.err.cutLost then 0x0301 else if d.err.cutInexact || d.b 0x5120 2 then 0x0300 else 0
      ({ d with err := { d.err with gstopCid := none } } : Dev).complete 0 cid st 0
    else d

/-- A member is lost while its cut is awaited (R457). -/
def Dev.memberLost (d : Dev) (peer : Nat) : Dev :=
  if d.err.cutWait.contains peer && decide (2 ≤ d.g 0x5120 0 2) then
    ({ d with err := { d.err with cutWait := d.err.cutWait.erase peer, cutLost := true } } : Dev).gstopCheck
  else d

/-- SB_TIDE_EDGE (R50, R51): the filtered level changes; `soon`: less than 1 us after the previous edge. -/
def execSbTideEdge (soon : Bool) (s : State) : Res :=
  lift (fun d =>
    let d0 := if d.isHead && d.b (pgTIDE + 8) 8 then d else { d with tide := { d.tide with level := !d.tide.level } }
    d0.when (d.isWorker && d.b (pgTIDE + 8) 8 && d.fwRunning && !d.safe) fun d =>
      if soon then (d.inc (pgTIDE + 0x814)).setErr pgTIDE 2
      else match d.tide.held with
        | some n => d.applyMark n
        | none => d.inc (pgTIDE + 0x80c)) s

/-- SB_TIDE_DRIVE (R49, R51): the headland changes the level of SB_TIDE once for its announcement. -/
def execSbTideDrive (s : State) : Res :=
  lift (fun d => d.when (d.isHead && d.b (pgTIDE + 8) 8 && d.tide.announced && !d.safe) fun d =>
    { d with tide := { d.tide with level := !d.tide.level, announced := false } }) s

/-- EDGE_MISS_TIMEOUT (R50): 50 us without an edge; the announcement is applied. -/
def execEdgeMissTimeout (s : State) : Res :=
  lift (fun d => match d.tide.held with
    | none => d
    | some n => if d.safe then d else (d.applyMark n).inc (pgTIDE + 0x810)) s

/-- TIDE_REPORT_MSG (R44): the headland counts a worker's report for the current tide; in start-up slack it discards
reports, but for those that come while its DOMAIN_START is in progress (R48, DEDUCED, log entry 24). -/
def execTideReportMsg (src : Nat) (tide : DWord) (s : State) : Res :=
  lift (fun d => d.ctlIn src { ctype := 2, dev := src, tide := tide } false fun d =>
    d.when (d.isHead && d.workers.contains src && tide == d.tide.cur && !d.tide.reports.contains src
        && (!d.slack.startup || d.tide.start.isSome)) fun d =>
      { d with tide := { d.tide with reports := d.tide.reports ++ [src] } }) s

/-- Members whose report for the current tide is outstanding (Table 20.5 WAITING). -/
def Dev.waitingReports (d : Dev) : List Nat :=
  if d.isHead then (d.tide.dev :: d.workers).filter fun m => !d.tide.reports.contains m else []

/-- A request whose answers are awaited keeps the tide below its value (R135, R432, R455, R463). -/
def Dev.gated (d : Dev) (n : DWord) : Bool :=
  d.tide.ctlOps.any fun o => !o.waiting.isEmpty && [3, 7, 9, 14].contains o.req && decide (o.tide ≤ n)

/-- TIDE_ADVANCE (R44, R49): with TADV pending and every report in, the headland advances and sends tide marks; with
SBT_EN they are announcements, and the edge before is driven first. -/
def execTideAdvance (s : State) : Res :=
  lift (fun d => d.when (d.isHead && d.live && !d.slackNow && d.tide.pending && decide (d.tide.cur < d.tide.next)
      && d.waitingReports.isEmpty && !d.gated d.tide.next && !d.tide.announced) fun d =>
    let n := d.tide.next
    let sbt := d.b (pgTIDE + 8) 8
    let d1 := d.each (d.workers ++ (d.tide.including.filter fun p => decide (p.2 ≤ n) && !d.workers.contains p.1).map (·.1))
      fun w d => d.sendCtl w { ctype := 1, announce := sbt, tide := n }
    ({ d1 with tide := { d1.tide with pending := false, announced := sbt } } : Dev).reach n []) s

/-- REPORT_TIMEOUT (R45): a member's report is missing REPORT_TMO after the headland's own. -/
def execReportTimeout (dev : Nat) (s : State) : Res :=
  lift (fun d => d.when (d.isHead && d.fwRunning && !d.safe && d.tide.reported && d.waitingReports.contains dev
      && !d.tide.tmoSeen.contains dev) fun d =>
    ({ d with tide := { d.tide with tmoSeen := d.tide.tmoSeen ++ [dev] } } : Dev).missing dev) s

/-- CONTROL_REPLY_TIMEOUT (R393): the answer of a device to a request of the headland is missing: as R45. -/
def execControlReplyTimeout (req : Nat) (dev : Nat) (s : State) : Res :=
  lift (fun d => match d.tide.ctlOps.find? fun o => o.req == req && o.waiting.contains dev && !o.late.contains dev with
    | none => d
    | some o =>
      if d.safe then d else
        ({ d with tide := { d.tide with ctlOps := d.tide.ctlOps.map fun (x : CtlOp) =>
            if x = o then { x with late := x.late ++ [dev] } else x } } : Dev).missing dev) s

/-! ### The start of a domain (R48) -/

/-- Start-up slack is left at the current tide: a boundary, unless the device stays in slack for another reason (R59). -/
def Dev.begin (d : Dev) : Dev :=
  let d1 := { d with slack := { d.slack with startup := false } }
  if d1.slackNow then d1 else d1.reach d.tide.cur d.tide.reports

/-- DOMAIN_START fails for a worker: START with REFUSE goes to those that agreed, then the command completes. -/
def Dev.startFail (d : Dev) (who : Nat) : Dev :=
  match d.tide.start with
  | none => d
  | some (cid, t, _, agreed) =>
    let d1 := d.each agreed fun w d => d.sendCtl w { ctype := 16, refuse := true, tide := t }
    ({ d1 with tide := { d1.tide with start := none, reports := [] } } : Dev).complete 0 cid 0x0012 who

/-- DOMAIN_START (R48). -/
def execDomainStart (cid : Nat) (s : State) : Res :=
  lift (fun d => d.headCmd cid 0x0014 fun c d =>
    if d.tide.start.isSome then d.complete 0 cid 0x0002 0
    else if !d.slack.startup then d.complete 0 cid 0x0007 0
    else if d.workers.isEmpty then d.begin.complete 0 cid 0 0
    else
      let d1 := (d.hold c).each d.workers fun w d => d.sendCtl w { ctype := 16, tide := d.tide.cur }
      { d1 with tide := { d1.tide with start := some (cid, d.tide.cur, d.workers, []) } }) s

/-- START_MSG (R48). -/
def execStartMsg (src : Nat) (refuse : Bool) (tide : DWord) (s : State) : Res :=
  lift (fun d => d.ctlIn src { ctype := 16, refuse := refuse, tide := tide } true fun d => d.when d.isWorker fun d =>
    if refuse then
      d.when (d.tide.startS == some tide && d.tide.cur == tide && !d.slack.startup) fun d =>
        let d1 := { d with tide := { d.tide with restart := true } }
        if d1.tide.reported then d1.stopNow else d1.checkDone
    else
      let ok := d.slack.startup && d.tide.cur == tide
      let d1 := d.sendCtl src { ctype := 17, dev := d.tide.dev, refuse := !ok, tide := tide }
      if ok then ({ d1 with tide := { d1.tide with startS := some tide, restart := false } } : Dev).begin else d1) s

/-- START_ACK_MSG (R48). -/
def execStartAckMsg (src : Nat) (refuse : Bool) (tide : DWord) (s : State) : Res :=
  lift (fun d => d.ctlIn src { ctype := 17, dev := src, refuse := refuse, tide := tide } false fun d =>
    match d.tide.start with
    | none => d
    | some (cid, t, wait, agreed) =>
      if !(wait.contains src && tide == t) then d
      else if refuse then d.startFail src
      else if (wait.erase src).isEmpty then
        ({ d with tide := { d.tide with start := none } } : Dev).begin.complete 0 cid 0 0
      else { d with tide := { d.tide with start := some (cid, t, wait.erase src, agreed ++ [src]) } }) s

/-- DOMAIN_START_TIMEOUT (R48): the first worker that has not answered. -/
def execDomainStartTimeout (s : State) : Res :=
  lift (fun d => match d.tide.start with
    | some (_, _, w :: _, _) => if d.safe then d else d.startFail w
    | _ => d) s

/-! ### Registers of TIDE, and the seeds -/

/-- TIDE_CUR_LO_STAGE (R512). -/
def Dev.curStage (d : Dev) (val : Word) : Dev := { d with tide := { d.tide with stage := val } }

/-- TIDE_CUR_LO_STAGE (R512). -/
def execTideCurLoStage (val : Word) (s : State) : Res := lift (fun d => d.onReg (pgTIDE + 0x100) fun d => d.curStage val) s

/-- The tide loaded (R47): signals and reports made for another value are void. NEXT reads the tide, but for an advance or
an announcement that names a greater value, which stays (R512, DEDUCED, log entry 24). -/
def Dev.loadTide (d : Dev) (t : DWord) : Dev :=
  let keep := decide (t < d.tide.next)
  { d with tide := { d.tide with
      cur := t, prev := t, done := if d.tide.cur = t then d.tide.done else [], reported := false, reports := []
      tmoSeen := [], leaseHeld := none, pending := d.tide.pending && keep
      held := if keep then d.tide.held else none
      next := if keep && (d.tide.pending || d.tide.held.isSome) then d.tide.next else t } }

/-- TIDE_CUR_LOAD (R47, R512). -/
def Dev.curLoad (d : Dev) (val : Word) : Dev :=
  if d.slackNow && !d.anyArmed then d.loadTide (val ++ d.tide.stage) else d.configRefused pgTIDE (some 4) 0x104

/-- TIDE_CUR_LOAD (R47, R512). -/
def execTideCurLoad (val : Word) (s : State) : Res := lift (fun d => d.onReg (pgTIDE + 0x104) fun d => d.curLoad val) s

/-- SBT_EN written (R512): only in slack; a write that leaves it as it stands is not refused. -/
def Dev.sbtWrite (d : Dev) (en : Bool) : Dev :=
  if en = d.b (pgTIDE + 8) 8 then d
  else if d.slackNow then d.sb (pgTIDE + 8) 8 en
  else d.configRefused pgTIDE none 8

/-- TIDE_SBT_EN_WRITE (R512). -/
def execTideSbtEnWrite (en : Bool) (s : State) : Res :=
  lift (fun d => d.onReg (pgTIDE + 8) fun d => d.sbtWrite en) s

/-- SR_SEED_T or SR_SEED_V of a cluster written: the generator is loaded (R88, R132). -/
def Dev.seedWrite (d : Dev) (c : Nat) (vec : Bool) (seed : Nat) : Dev :=
  let d1 := d.wr (pgXC c + (if vec then 0x110 else 0x10c)) (BitVec.ofNat 32 seed)
  { d1 with xc := { d1.xc with gen := d1.xc.gen.set (2 * c + b2n vec) (BitVec.ofNat 32 (srSeed seed)) } }

/-- SR_SEED_WRITE (R132). -/
def execSrSeedWrite (c : Fin 16) (vec : Bool) (seed : Word) (s : State) : Res :=
  lift (fun d => d.onReg (pgXC c + 0x10c) fun d => d.seedWrite c vec seed.toNat) s

end Sys2Proof.Machine
end

