-- ==== Sys2Proof/Machine/CkpCore.lean ====
section
/-!
DEFINITION. Machine/CkpCore.lean: slots and their metadata, the copier's requests, and a restore's (chapter 16).
-/
namespace Sys2Proof.Machine

/-- CKP.STS.STATE set. -/
def Dev.ckpState (d : Dev) (n : Nat) : Dev := d.s (pgCKP + 0x100) 0 2 n

/-- The buddy and the ward (Table 16.5). -/
def Dev.buddy (d : Dev) : Option Nat := if d.b (pgCKP + 0x104) 10 then some (d.g (pgCKP + 0x104) 0 10) else none
def Dev.ward (d : Dev) : Option Nat := if d.b (pgCKP + 0x104) 26 then some (d.g (pgCKP + 0x104) 16 10) else none

/-- The lowest-numbered ESTABLISHED context of the driver to the buddy (R436). -/
def Dev.buddyCtx (d : Dev) : Option Nat := d.buddy.bind fun b => d.findCtx 0 b none

/-- Offset of slot A or B in the buddy's pool (R435); the ward takes the buddy's pool to be as large as its own (log entry
34). -/
def Dev.slotOff (d : Dev) (slot : Nat) : Nat := if slot = 0 then 0 else d.fw.layout.bSize / 2

/-- Granules of a set's ranges, and the address of the `i`-th (R435). -/
def granCount (l : List (Nat × Nat)) : Nat := l.foldl (fun n r => n + r.2 / 65536) 0
def granAddr : List (Nat × Nat) → Nat → Option Nat
  | [], _ => none
  | (a, n) :: t, i => if i < n / 65536 then some (a + 65536 * i) else granAddr t (i - n / 65536)

/-- Bytes 64 to 1,279 of the metadata of a running snapshot (Table 16.1). -/
def Snap.meta (r : Snap) (set : SnapSet) : List Byte :=
  let w := set.raw
  w.take 4 ++ leBytes r.fwOld 4 ++ leBytes r.fwNew 4 ++ leBytes r.mapGen 2 ++ List.replicate 18 0 ++ (w.drop 32).take 32
    ++ (r.sr.flatMap fun x => leBytes x.toNat 4) ++ (w.drop 192).take 1024

/-- The commit record, bytes 0 to 63 (Table 16.1). -/
def Dev.commitRecord (d : Dev) (r : Snap) (set : SnapSet) (valid : Bool) : List Byte :=
  leBytes 0x4b534e31 4 ++ [BitVec.ofNat 8 (b2n valid), 0, 0, 0] ++ leBytes r.seq 8 ++ leBytes r.tide.toNat 8
    ++ leBytes (granCount set.ranges) 4 ++ leBytes (crc32c (r.meta set)) 4 ++ leBytes d.tide.dev 2
    ++ leBytes (d.g (pgEMH + 0x108) 16 16) 2 ++ leBytes r.npoison 4 ++ List.replicate 24 0

/-- A metadata granule is that of a valid slot of an origin (R435). -/
def metaValid (l : List Byte) (bad : Bool) (origin : Nat) : Bool :=
  !bad && leAt l 0 4 == 0x4b534e31 && leAt l 4 1 % 2 == 1 && leAt l 28 4 == crc32c ((l.drop 64).take 1216)
    && leAt l 32 2 % 1024 == origin

/-- A write of the copier to the slot being written (R436). -/
def Dev.copyWrite (d : Dev) (c : Nat) (seq off : Nat) (l : List (Byte × Bool)) : Dev :=
  d.issue c { addr := 0, msn := 0, len := l.length, rkey := d.ckp.rkey
              raddr := d.slotOff (d.g (pgCKP + 0x100) 2 1) + off, job := 1 + 8 * seq } l

/-- The snapshot is committed: step 4 is acknowledged (R436). -/
def Dev.snapCommitted (d : Dev) (r : Snap) : Dev :=
  match d.ckp.set with
  | none => d
  | some set =>
    let rec' := d.commitRecord r set true
    let d1 := { d with ckp := { d.ckp with run := none, gran := [], pre := [], copying := [], last := rec' } }
    let d3 := ((d1.ckpState 0).s (pgCKP + 0x124) 0 32 0).sb (pgCKP + 0x100) 2 (!d.b (pgCKP + 0x100) 2)
    ((d3.wr64 (pgCKP + 0x10c) r.seq).inc (pgCKP + 0x800)).complete 0 r.cid 0 r.seq

/-- A copier write ended (R436, Table 16.2). -/
def Dev.copyDone (d : Dev) (seq status : Nat) : Dev :=
  match d.ckp.run with
  | none => d
  | some r =>
    if r.seq ≠ seq then d
    else if status ≠ 0 then d.snapEnd 0x0205
    else if r.step = 4 then d.snapCommitted r
    else d

/-! ### Restore (R438, R439) -/

/-- A restore ends without success. -/
def Dev.restoreFail (d : Dev) (cid status : Nat) : Dev :=
  let d1 := { d with ckp := { d.ckp with restore := none } }
  ((d1.ckpState 0).setErr pgCKP 3).complete 0 cid status 0

/-- A restore ends: the generators are loaded, and RESULT is the snapshot's tide. -/
def Dev.restoreOk (d : Dev) (cid : Nat) (m : List Byte) : Dev :=
  let d1 := { d with ckp := { d.ckp with restore := none } }
  let d2 := d1.each (List.range 32) fun i d => d.seedWrite (i / 2) (i % 2 == 1) (leAt m (128 + 4 * i) 4)
  ((d2.ckpState 0).inc (pgCKP + 0x814)).complete 0 cid 0 (leAt m 16 8)

/-- The status a slot's metadata is refused with, 0 where a restore may go on. -/
def Dev.restoreCheck (d : Dev) (m : List Byte) (bad : Bool) : Nat :=
  match d.ckp.set with
  | none => 0x0209
  | some set =>
    let w := set.raw
    if !metaValid m bad d.tide.dev then 0x0208
    else if leAt m 64 1 ≠ leAt w 0 1 ∨ leAt m 66 2 ≠ leAt w 2 2
        ∨ (m.drop 256).take (16 * leAt w 0 1) ≠ (w.drop 192).take (16 * leAt w 0 1) then 0x0209
    else if (m.drop 96).take 32 ≠ (w.drop 32).take 32 then 0x020a
    else 0

/-- The next granule is read from the buddy's slot into its place, or the restore ends. -/
def Dev.restoreNext (d : Dev) (r : Restore) : Dev :=
  match d.ckp.set, r.slot with
  | some set, some s =>
    match granAddr set.ranges r.next with
    | none => d.restoreOk r.cid ((r.metas.find? (·.1 == s)).map (·.2.1) |>.getD [])
    | some a =>
      match d.buddyCtx with
      | none => d.restoreFail r.cid 0x0205
      | some c =>
        let d1 := { d with ckp := { d.ckp with restore := some { r with next := r.next + 1 } } }
        d1.issue c { addr := 0, msn := 0, read := true, len := 65536, rkey := d.ckp.rkey
                     raddr := d.slotOff s + 65536 * (r.next + 1), segs := [(a, 65536)], job := 4 } []
  | _, _ => d

/-- The metadata wanted is read: the slot is chosen and checked. -/
def Dev.restoreChoose (d : Dev) (r : Restore) : Dev :=
  let ok := r.metas.filter fun m => metaValid m.2.1 m.2.2 d.tide.dev
  let best := ok.foldl (fun (b : Option (Nat × List Byte × Bool)) m =>
    match b with
    | none => some m
    | some x => if leAt x.2.1 8 8 < leAt m.2.1 8 8 then some m else b) none
  match (match best with | some m => some m | none => r.metas.head?) with
  | none => d.restoreFail r.cid 0x0208
  | some m =>
    let st := d.restoreCheck m.2.1 m.2.2
    if st ≠ 0 then d.restoreFail r.cid st else d.restoreNext { r with slot := some m.1 }

/-- The metadata granule of a slot read from the buddy. -/
def Dev.readMeta (d : Dev) (c s : Nat) : Dev :=
  d.issue c { addr := 0, msn := 0, read := true, len := 65536, rkey := d.ckp.rkey, raddr := d.slotOff s, job := 2 + s } []

/-- A read of a restore ended, with the bytes of a metadata granule. -/
def Dev.restoreRead (d : Dev) (kind status : Nat) (body : List Byte) (bad : Bool) : Dev :=
  match d.ckp.restore with
  | none => d
  | some r =>
    if status ≠ 0 then d.restoreFail r.cid (if status = 5 then 0x0206 else 0x0205)
    else if kind = 4 then d.restoreNext r
    else
      let r1 := { r with metas := r.metas ++ [(kind - 2, body, bad)] }
      let d1 := { d with ckp := { d.ckp with restore := some r1 } }
      if r.src = 0 ∧ kind = 2 then
        match d1.buddyCtx with
        | none => d1.restoreFail r.cid 0x0205
        | some c => d1.readMeta c 1
      else d1.restoreChoose r1

/-- The map image stands in a worker's inactive bank: the worker is asked to arm the switch (R135). One whose write failed
is not asked, and stays unacknowledged. -/
def Dev.mapSent (d : Dev) (dev status : Nat) : Dev :=
  match d.tide.ctlOps.find? fun o => o.req == 3 && o.waiting.contains dev with
  | some o => if status = 0 then d.sendCtl dev { ctype := 3, arg := o.arg, tide := o.tide } else d
  | none => d

/-- A request of the firmware's own ended. -/
def Dev.ownDone (d : Dev) (job status : Nat) (body : List Byte) (bad : Bool) : Dev :=
  if job % 8 = 1 then d.copyDone (job / 8) status
  else if job % 8 = 5 then d.mapSent (job / 8) status
  else if 2 ≤ job % 8 then d.restoreRead (job % 8) status body bad
  else d

end Sys2Proof.Machine
end

