-- ==== Sys2Proof/Machine/Elem.lean ====
section
/-!
DEFINITION. Machine/Elem.lean: exp, tanh and the sigmoid of the vector units, to within 2 units in the last place of the
exact result (R114, R122). The exact result is bracketed by fixed-point arithmetic; which code near it the device
gives is a function of the operand that the spec leaves open (DESIGN CHOICE, log entry 8).
-/
namespace Sys2Proof.Machine

/-- Fraction bits of the fixed-point arithmetic. -/
def fxP : Nat := 192

/-- ln 2 in units of 2^-192, rounded down. -/
def fxLn2 : Nat := 4350955369971217654477563090224794165364344896676135745069

/-- Terms of the exponential series from `t = r^n / n!` on, in units of 2^-192. -/
def fxSeries (r t n : Nat) : Nat → Nat
  | 0 => 0
  | fuel + 1 => t + fxSeries r (t * r / 2 ^ fxP / (n + 1)) (n + 1) fuel

/-- exp of `x * 2^-192`: a number in units of 2^-192 between 1 and 2, and a power of 2. -/
def fxExp (x : Int) : Nat × Int :=
  let k := x / (fxLn2 : Int)
  (fxSeries (x - k * fxLn2).toNat (2 ^ fxP) 0 60, k)

/-- The magnitude of a finite FP32 value in units of 2^-192. -/
def fxOf (m : Nat) (e : Int) : Nat := shiftZ m (e + fxP)

/-- The greatest FP32 code at or below `m * 2^e`. -/
def floor32 (m : Nat) (e : Int) : Nat := min 0x7f800000 (fp32.roundCode m e (some 0))

/-- The `n`-th of the FP32 codes within 2 units in the last place of a positive value whose greatest code below is `f`: that
one, the one below and the two above; where the value is that code, also the second below. -/
def near32 (f : Nat) (same : Bool) (n : Nat) : Nat :=
  min 0x7f800000 (if same then f + n % 5 - 2 else f + n % 4 - 1)

/-- exp (R114). Beyond the largest finite number the result is an infinity. -/
def exp32 (x : Nat) : Nat :=
  let n := Config.expUlp (BitVec.ofNat 32 x)
  match fp32.dec x with
  | .nan => fp32.nanCode
  | .inf neg => if neg then 0 else 0x7f800000
  | .fin neg m e =>
    let a := fxOf m e
    if a = 0 then near32 0x3f800000 true n
    else if 2 ^ 8 * 2 ^ fxP ≤ a then (if neg then near32 0 false n else 0x7f800000)
    else
      let (s, k) := fxExp (if neg then -(a : Int) else a)
      let f := floor32 s (k - fxP)
      if f = 0x7f800000 then f else near32 f false n

/-- tanh (R114). Below 2^-12 it lies less than one unit under its operand. -/
def tanh32 (x : Nat) : Nat :=
  let n := Config.tanhUlp (BitVec.ofNat 32 x)
  match fp32.dec x with
  | .nan => fp32.nanCode
  | .inf neg => b2n neg * 2 ^ 31 + 0x3f800000
  | .fin neg m e =>
    let a := fxOf m e
    let sgn := b2n neg * 2 ^ 31
    if a = 0 then sgn + near32 0 true n
    else if a < 2 ^ (fxP - 12) then sgn + near32 (x % 2 ^ 31 - 1) false n
    else if 2 ^ 6 * 2 ^ fxP ≤ a then sgn + near32 0x3f7fffff false n
    else
      let (s, k) := fxExp (-(2 * a : Int))
      let t := 2 ^ (fxP + (-k).toNat)
      sgn + near32 (floor32 ((t - s) * 2 ^ 300 / (t + s)) (-300)) false n

/-- The sigmoid, 1 over 1 + exp(-x) (R114, R122). -/
def sigmoid32 (x : Nat) : Nat :=
  let n := Config.sigmoidUlp (BitVec.ofNat 32 x)
  match fp32.dec x with
  | .nan => fp32.nanCode
  | .inf neg => if neg then 0 else 0x3f800000
  | .fin neg m e =>
    let a := fxOf m e
    if a = 0 then near32 0x3f000000 true n
    else if 2 ^ 8 * 2 ^ fxP ≤ a then near32 (if neg then 0 else 0x3f7fffff) false n
    else
      let (s, k) := fxExp (if neg then (a : Int) else -(a : Int))
      let one := 2 ^ (fxP + (-k).toNat)
      let ex := s * 2 ^ k.toNat
      near32 (floor32 (one * 2 ^ 600 / (one + ex)) (-600)) false n

end Sys2Proof.Machine
end

