-- ==== Sys2Proof/Machine/Xc.lean ====
section
/-!
DEFINITION. Machine/Xc.lean: the job queues of the clusters, the beginning and the end of jobs, codebooks, and the
reading and writing of elements with their poison (chapter 4).
-/
namespace Sys2Proof.Machine

/-- Byte, 16-bit, 32-bit and 64-bit fields of a descriptor. -/
def QJob.b1 (j : QJob) (o : Nat) : Nat := leAt j.desc o 1
def QJob.b2 (j : QJob) (o : Nat) : Nat := leAt j.desc o 2
def QJob.b4 (j : QJob) (o : Nat) : Nat := leAt j.desc o 4
def QJob.b8 (j : QJob) (o : Nat) : Nat := leAt j.desc o 8
/-- TYPE, completion record address, error domain, codebook slot. -/
def QJob.type (j : QJob) : Nat := j.b1 0
def QJob.cmpl (j : QJob) : Nat := j.b8 48
def QJob.dom (j : QJob) : Nat := domOf j.cove
def QJob.slot (j : QJob) : Nat := j.b1 3 % 8

/-- Queued jobs of cluster `c`, oldest first; running jobs of it. -/
def Dev.xcQueue (d : Dev) (c : Nat) : List QJob := d.xc.queue.filter (·.cl == c)
def Dev.xcRun (d : Dev) (c : Nat) : List RunJob := d.xc.run.filter (·.q.cl == c)

/-- Jobs of a cove queued or running in a cluster (R326). -/
def Dev.jobsOf (d : Dev) (c : Nat) (cove : Option Nat) : Nat :=
  ((d.xcQueue c).filter (·.cove == cove)).length + ((d.xcRun c).filter (·.q.cove == cove)).length

/-- A job entered in a queue's numbering. -/
def Dev.newJob (d : Dev) (cl core : Nat) (cove : Option Nat) (addr : Nat) (desc : List Byte) (poison foreign : Bool) :
    QJob × Dev :=
  (⟨d.xc.seq, cl, core, cove, addr, desc, poison, foreign⟩, { d with xc := { d.xc with seq := d.xc.seq + 1 } })

/-- May an engine of cluster `c` make this access (Table 2.3, R110), within the cove's ranges (R105)? -/
def Dev.xcAccess (d : Dev) (c : Nat) (cove : Option Nat) (w : Bool) (a n : Nat) : Bool :=
  let place := match areaOf a with
    | .device => decide (a + n ≤ devEnd)
    | .harbour => decide (a + n ≤ harbEnd)
    | .sram k => k == c && decide (a + n ≤ sramBase (k + 1)) && !(w && decide (sramBase k + 0xfbf000 < a + n))
    | _ => false
  place && match cove with
    | none => true
    | some k => d.inCove k w a n

/-- R105 for one range: 64-byte aligned, and an access the job may make. -/
def Dev.jobAddr (d : Dev) (j : QJob) (w : Bool) (a n : Nat) : Bool := a % 64 == 0 && d.xcAccess j.cl j.cove w a n

/-- A range that failed for its cove is counted there (R324); a write into the check region is dropped and recorded
(R35). -/
def Dev.jobAddrFail (d : Dev) (j : QJob) (w : Bool) (a n : Nat) : Dev :=
  let d1 := match j.cove with
    | some k => if inMap a n && !d.inCove k w a n then d.deny k else d
    | none => d
  if w && areaOf a = .check then d1.accessDenied (pgXC j.cl) none j.dom a 0 else d1

/-- The ranges of a job checked in order: none fails, or the device after the first failure. -/
def Dev.jobAddrs (d : Dev) (j : QJob) : List (Bool × Nat × Nat) → Option Dev
  | [] => none
  | (w, a, n) :: t => if d.jobAddr j w a n then d.jobAddrs j t else some (d.jobAddrFail j w a n)

/-- A job that does not end OK marks its page (Table 4.13). -/
def Dev.jobFailed (d : Dev) (j : QJob) (status : Nat) : Dev :=
  let p := pgXC j.cl
  (((d.inc (p + 0x804)).setErr p 0).wr (p + 0x114) (BitVec.ofNat 32 status)).wr64 (p + 0x118) (j.addr % 2 ^ 48)

/-- The cove of a job has not been released since (R335). -/
def Dev.coveLives (d : Dev) (cove : Option Nat) : Bool :=
  match cove with
  | none => true
  | some n => (d.cove n).state ≠ 0

/-- A job whose CMPL has passed its check ends: its record is its last write (R106), unless its cove has been released
(R335); counters and LAST_ERR (Table 4.13). -/
def Dev.endJob (d : Dev) (j : QJob) (status : Nat) (poison : Bool) (ca cb : Nat) : Dev :=
  let d1 := if d.coveLives j.cove then
      d.memWrite (pgXC j.cl) j.dom j.cmpl (cmplRecord status (b2n poison) ca cb j.addr) false else d
  if status = 0 then d1.inc (pgXC j.cl + 0x800) else d1.jobFailed j status

/-- A job begun and running. -/
def Dev.running (d : Dev) (r : RunJob) : Dev := { d with xc := { d.xc with run := d.xc.run ++ [r] } }

/-- A running job of cluster `c` replaced, by number. -/
def Dev.setRun (d : Dev) (seq : Nat) (f : RunJob → RunJob) : Dev :=
  { d with xc := { d.xc with run := d.xc.run.map fun r => if r.q.seq = seq then f r else r } }

/-- A result of a KV job sent to the lead of its group (R167). -/
def Dev.sendKv (d : Dev) (m : KvMsg) : Dev := { d with xc := { d.xc with kvmsgs := d.xc.kvmsgs ++ [m] } }

/-- The message of a KV job before its results. -/
def kvMsgOf (j : QJob) : KvMsg :=
  { type := j.type, rgrp := j.b2 6, clmask := j.b2 60, seq := j.seq, cl := j.cl, cove := j.cove, desc := j.desc
    dim := 0, list := 0 }

/-- A job is a member of a KV group whose CLMASK names its cluster (R167). -/
def QJob.inKvGroup (j : QJob) : Bool := [0x20, 0x21].contains j.type && !j.foreign && bitN (j.b2 60) j.cl

/-- The result of a job of a KV group that ends with a status other than OK, poisoned (R168); `dim` and `list` where its
outputs may be written. -/
def Dev.sendBadKv (d : Dev) (j : QJob) (dim list : Nat) : Dev :=
  d.sendKv { kvMsgOf j with bad := true, poison := true, dim := dim, list := list }

/-- A job that fails its CMPL check: it does not start, or ends, with no record; it is reported only in its page, and the
check is counted (R105, R324). One of a KV group still sends its result (R168). -/
def Dev.cmplFail (d : Dev) (j : QJob) : Dev :=
  let d1 := (d.jobAddrFail j true j.cmpl 16).jobFailed j 2
  if j.inKvGroup then d1.sendBadKv j 0 0 else d1

/-- No range of a list lies on a channel that is retraining: a job waits for those it touches before it begins (R210). -/
def Dev.reaches (d : Dev) (rs : List (Bool × Nat × Nat)) : Bool := rs.all fun r => !d.blocked r.2.1 r.2.2

/-- The `i`-th queued job of a cluster begins (R104, R109), where the cluster starts jobs, its TYPE is one of those given
and its waits are over: it leaves the queue. A job whose CMPL fails its check does not start and writes no record; it is
reported only in its page (R105). -/
def Dev.beginJob (d : Dev) (c i : Nat) (types : List Nat) (ready : QJob → Dev → Bool) (f : QJob → Dev → Dev) : Dev :=
  match (d.xcQueue c)[i]? with
  | none => d
  | some j =>
    if !(d.live && d.starts (pgXC c)) || j.foreign || !types.contains j.type || !ready j d || d.blocked j.cmpl 16 then d
    else
      let d1 := { d with xc := { d.xc with queue := d.xc.queue.filter (·.seq ≠ j.seq) } }
      if d1.jobAddr j true j.cmpl 16 then f j d1 else d1.cmplFail j

/-- Jobs of the cluster issued earlier and not ended. -/
def Dev.earlier (d : Dev) (j : QJob) : List QJob :=
  ((d.xcRun j.cl).map (·.q) ++ d.xcQueue j.cl).filter fun k => k.seq < j.seq && !k.foreign

/-- A queued job whose TYPE is reserved, or belongs to another instruction, completes with BAD_TYPE (R104, R237). -/
def Dev.badType (d : Dev) (c i : Nat) : Dev :=
    match (d.xcQueue c)[i]? with
    | none => d
    | some j =>
      if !(d.live && d.starts (pgXC c)) || (!j.foreign && [1, 2, 3, 4, 0x20, 0x21, 0x22, 0x23].contains j.type) then d
      else
        let d1 := { d with xc := { d.xc with queue := d.xc.queue.filter (·.seq ≠ j.seq) } }
        if d1.jobAddr j true j.cmpl 16 then d1.endJob j 7 false 0 0 else d1.cmplFail j

/-! ### Elements and poison -/

/-- Bytes with the poison of their granules, verified as they are read (R199, R100). -/
def Dev.readP (d : Dev) (pg dom a n : Nat) : List (Byte × Bool) × Dev :=
  let (l, _, d1) := d.memRead pg dom a n
  let bad (x : Nat) : Bool := d1.mark (x / 256) ≠ .good || d1.siteFailed x
  (l.zipIdx.map fun (b, i) => (b, bad (a + i)), d1)

/-- `n` elements of `w` bytes, each with the poison of its bytes. -/
def elems (w : Nat) (l : List (Byte × Bool)) (n : Nat) : List (Nat × Bool) :=
  (List.range n).map fun i =>
    let p := (l.drop (i * w)).take w
    (leNat (p.map (·.1)), p.any (·.2))

/-- Bytes stored piece by piece, a 256-byte piece poisoned where an element in it is (R100); each piece written poisoned
is counted in POISON_OUT of cluster `c`. Answers whether any was. -/
def Dev.writeP (d : Dev) (c dom a : Nat) (l : List (Byte × Bool)) (counted : Bool := true) : Dev × Bool :=
  (go a l (l.length / 256 + 2)).foldl (fun (r : Dev × Bool) p =>
    let bad := p.2.any (·.2)
    let d1 := r.1.memWrite (pgXC c) dom p.1 (p.2.map (·.1)) bad
    if bad then (if counted then d1.inc (pgXC c + 0x828) else d1, true) else (d1, r.2)) (d, false)
where go (a : Nat) (l : List (Byte × Bool)) : Nat → List (Nat × List (Byte × Bool))
  | 0 => []
  | f + 1 => if l.isEmpty then [] else
      let n := 256 - a % 256
      (a, l.take n) :: go (a + n) (l.drop n) f

/-- Conversions counted in CVT_SAT and CVT_NAN0 of cluster `c` (R90). -/
def Dev.countCvt (d : Dev) (c : Nat) (l : List Conv) : Dev :=
  (d.incBy (pgXC c + 0x818) (l.filter (·.ovf)).length).incBy (pgXC c + 0x81c) (l.filter (·.nan0)).length

/-- A conversion control byte allowed here: bit 7 clear and a format of the list (R65, R62). -/
def cvtOk (b : Nat) (fmts : List Nat) : Bool := !bitN b 7 && fmts.contains (b % 32)

/-- FP32 codes converted under a conversion control byte to FP32, BF16 or FP16, the overflows counted. -/
def Dev.cvt32 (d : Dev) (c cvt : Nat) (l : List (Nat × Bool)) : List (Nat × Bool) × Dev :=
  let cs := l.map fun x => encElem (cvt % 32) (fp32.dec x.1) (bitN cvt 5) none
  ((cs.zip l).map fun (k, x) => (k.code, x.2), if cvt % 32 = 0 then d else d.countCvt c cs)

/-- Elements as bytes, with their poison. -/
def elemBytes (w : Nat) (l : List (Nat × Bool)) : List (Byte × Bool) :=
  l.flatMap fun x => (leBytes x.1 w).map fun b => (b, x.2)

/-! ### Codebooks (R110, R111) -/

/-- Address of codebook slot `s` of cluster `c`. -/
def slotAddr (c s : Nat) : Nat := sramBase c + 0xfbf000 + s * 0x8200

/-- A codebook load waits for every earlier expert job that names its slot (Table 4.2). -/
def cbReady (j : QJob) (d : Dev) : Bool :=
  !((d.earlier j).any fun k => k.type == 1 && k.slot == j.slot) && d.reaches [(false, j.b8 8, 33280)]

/-- CODEBOOK_LOAD_BEGIN (R111): the slot's VALID bit is cleared and the copy starts. -/
def execCodebookLoadBegin (c : Fin 16) (i : Nat) (s : State) : Res :=
  lift (fun d => d.beginJob c i [4] cbReady fun j d =>
    match d.jobAddrs j [(false, j.b8 8, 33280)] with
    | some d1 => d1.endJob j 2 false 0 0
    | none => (d.sb (pgXC c + 0x104) j.slot false).running { q := j, wait := true, poison := j.poison }) s

/-- A codebook image copied: the whole of it is in the slot, whole granules with their check words; VALID is set, and
POISON as the image was (R111). -/
def Dev.codebookDone (d : Dev) (c : Nat) (r : RunJob) : Dev :=
  let j := r.q
  let (l, d1) := d.readP (pgXC c) j.dom (j.b8 8) 33280
  let bad := r.poison || l.any (·.2)
  let (d2, _) := d1.writeP c j.dom (slotAddr c j.slot) (l.map fun x => (x.1, x.2 || r.poison)) false
  let d3 := (d2.sb (pgXC c + 0x104) j.slot true).sb (pgXC c + 0x104) (8 + j.slot) bad
  let d4 := if bad then d3.setErr (pgXC c) 1 else d3
  d4.setRun j.seq fun r => { r with wait := false, poison := bad }

/-- CODEBOOK_LOAD_DONE (R111). -/
def execCodebookLoadDone (c : Fin 16) (seq : Nat) (s : State) : Res :=
  lift (fun d =>
    match (d.xcRun c).find? fun r => r.q.seq == seq && r.q.type == 4 && r.wait with
    | none => d
    | some r => d.when (d.reaches [(false, r.q.b8 8, 33280)]) fun d => d.codebookDone c r) s

/-! ### The end of a job -/

/-- Combine job with job number `seq` taken off (R142 closes what the exchange unit still has open for its batch). -/
def Dev.dropComb (d : Dev) (seq : Nat) : Dev :=
  { d with xc := { d.xc with combs := d.xc.combs.filter (·.seq ≠ seq) } }

/-- JOB_END (R106): a job that waits for nothing more makes its last writes, writes its record and ends. -/
def Dev.jobEnd (d : Dev) (c seq : Nat) : Dev :=
  match (d.xcRun c).find? fun r => r.q.seq == seq && !r.wait with
  | none => d
  | some r =>
    let d1 := { d with xc := { d.xc with run := d.xc.run.filter (·.q.seq ≠ seq) } }
    let ca := match d.xc.combs.find? (·.seq == seq) with
      | none => r.ca
      | some m => m.ignored
    let d1 := d1.each r.fin fun w d => d.memWrite (pgXC c) r.q.dom w.1 w.2.1 w.2.2
    (d1.dropComb seq).endJob r.q r.status r.poison ca r.cb

/-- The jobs of a cove end ABORTED (R107): queued jobs at once; running jobs that wait for nothing or for their image or
notices at once; a job of a reduction or group when that is resolved, its slices and results marked poisoned (R116,
R168). -/
def Dev.abortJobs (d : Dev) (cove : Nat) : Dev :=
  let q := d.xc.queue.filter (·.cove == some cove)
  let d1 := { d with xc := { d.xc with queue := d.xc.queue.filter (·.cove ≠ some cove) } }
  let d2 := d1.each q fun j d =>
    if !d.jobAddr j true j.cmpl 16 then d.cmplFail j
    else if j.inKvGroup then (d.sendBadKv j 0 0).running { q := j, status := 5, wait := true }
    else d.endJob j 5 false 0 0
  let mine (cl : Nat) (rg cm : Nat) : Bool := d.xc.run.any fun r =>
    r.q.cove == some cove && r.q.cl == cl && r.q.b2 60 == rg && r.q.b2 62 == cm && r.q.type == 1
  let inGroup (r : RunJob) : Bool := r.wait && (r.q.type == 1 || r.q.type == 0x20 || r.q.type == 0x21)
  let spoil (x : Slice) : Slice := if mine x.src x.rgrp x.clmask then { x with bad := true } else x
  let sour (m : KvMsg) : KvMsg := if m.cove == some cove then { m with bad := true } else m
  let run := d2.xc.run.map fun (r : RunJob) =>
    if r.q.cove == some cove then { r with status := 5, wait := inGroup r, fin := [] } else r
  let d3 := { d2 with xc := { d2.xc with
    slices := d2.xc.slices.map spoil, held := d2.xc.held.map spoil, run := run
    kvmsgs := d2.xc.kvmsgs.map sour, kvheld := d2.xc.kvheld.map sour } }
  d3.each (d3.xc.run.filter fun r => r.q.cove == some cove && !r.wait) fun r d => d.jobEnd r.q.cl r.q.seq

end Sys2Proof.Machine
end

