-- ==== Sys2Proof/Machine/Expert.lean ====
section
/-!
DEFINITION. Machine/Expert.lean: expert jobs and the slice reduction (R101 to R120).
-/
namespace Sys2Proof.Machine

/-- Bytes of a row group, 4.75 times L (R79). -/
def rowGroupBytes (l : Nat) : Nat := 19 * l / 4

/-- A weight decoded: X times (P + Q), exact, rounded once to BF16 (R81, R82). A weight beyond the BF16 range is no conversion
that a unit counts (DESIGN CHOICE, log entry 84). -/
def kcbWeight (scale p q : Nat) : FV :=
  match e8m0 scale with
  | none => .nan
  | some k => bf16.dec (bf16.enc (((e4m3.dec p).add (e4m3.dec q)).scale k) false none).code

/-- A row group of 16 rows of L weights, decoded with a codebook image; a weight is poisoned by its scale byte, by the
bytes of its index, or by its codebook (R79, R80, R111). -/
def decodeGroup (l : Nat) (buf : List (Byte × Bool)) (book : Array Nat) (bookBad : Bool) : List (List (FV × Bool)) :=
  let a := buf.toArray
  let at' (i : Nat) : Byte × Bool := a.getD i (0, false)
  (List.range 16).map fun r =>
    (List.range (l / 64)).flatMap fun s =>
      let i := r * (l / 64) + s
      let sc := at' i
      let fo := l / 4 + i * 18
      let x := leNat ((List.range 18).map fun k => (at' (fo + k)).1)
      (List.range 8).flatMap fun v =>
        let w := fieldN x (18 * v) 18
        let lo := 18 * v / 8
        let bad := bookBad || sc.2 || (List.range ((18 * v + 17) / 8 - lo + 1)).any fun k => (at' (fo + lo + k)).2
        (List.range 8).map fun j =>
          (kcbWeight sc.1.toNat (book.getD (w % 4096 * 8 + j) 0) (book.getD (32768 + w / 4096 * 8 + j) 0), bad)

/-- The dot product of two runs on the tiles, in groups of `g` products (R95). -/
def dotGroups (g : Nat) (xs ws : List FV) : Nat :=
  (chunks g (List.zipWith FV.mul xs ws) (xs.length / g + 1)).foldl accGroup 0

/-- FP32 nearest to 0.79788456 and 0.044715. -/
def gelu1 : Nat := 0x3f4c422a
def gelu2 : Nat := 0x3d372713

/-- max(G, 0): NaN for NaN, +0 for -0 (R114). -/
def relu32 (g : Nat) : Nat :=
  let v := fp32.dec g
  if v.isNan then fp32.nanCode else if v.isNeg || v.isZero then 0 else g

/-- -x as an FP32 code. -/
def neg32 (x : Nat) : Nat := x ^^^ 0x80000000

/-- The activation of Table 4.7 in the steps of R114, multiplied by U last. -/
def act32 (code g u : Nat) : Nat :=
  match code with
  | 0 => mul32 (div32 g (add32 0x3f800000 (exp32 (neg32 g)))) u
  | 1 =>
    let t := add32 g (mul32 gelu2 (mul32 (mul32 g g) g))
    let t := add32 0x3f800000 (tanh32 (mul32 gelu1 t))
    mul32 (mul32 (mul32 0x3f000000 g) t) u
  | 2 => mul32 (relu32 g) u
  | 3 => mul32 (mul32 (relu32 g) (relu32 g)) u
  | _ => mul32 g u

/-- Row group `g` of a matrix at `a`, read and decoded. -/
def Dev.rowGroup (d : Dev) (j : QJob) (a g l : Nat) (book : Array Nat) (bad : Bool) : List (List (FV × Bool)) × Dev :=
  let (buf, d1) := d.readP (pgXC j.cl) j.dom (a + g * rowGroupBytes l) (rowGroupBytes l)
  (decodeGroup l buf book bad, d1)

/-- Activation rows as BF16, read and converted (R112 step 1). -/
def Dev.readX (d : Dev) (j : QJob) (a l fmt : Nat) : List (FV × Bool) × Dev :=
  let w := elemBits fmt / 8
  let (b, d1) := d.readP (pgXC j.cl) j.dom a (l * w)
  let xs := elems w b l
  if fmt = 1 then (xs.map fun x => (bf16.dec x.1, x.2), d1)
  else
    let cs := xs.map fun x => bf16.enc (decElem fmt x.1) false none
    ((cs.zip xs).map fun (k, x) => (bf16.dec k.code, x.2), d1.countCvt j.cl cs)

/-- Elements of H as stored under CVT_H, one token's 16 rows. -/
def hElem (cvt x : Nat) : Conv := encElem (cvt % 32) (fp32.dec x) (bitN cvt 5) none

/-- |x| of an FP32 value. -/
def absFV : FV → FV
  | .nan => .nan
  | .inf _ => .inf false
  | .fin _ m e => .fin false m e

/-- |H| below the threshold, in FP32, a NaN never (R118). -/
def below (h thr : FV) : Bool := !h.isNan && !thr.isNan && decide ((absFV h).cmp (absFV thr) < 0)

/-- What all jobs of a reduction must share (R117). -/
def redSig (j : QJob) : Nat × Nat × Nat × Nat := (j.b2 4, j.b1 58, j.b1 7, j.b8 40)

/-- A job that passed its checks and ends without OK delivers a poisoned slice to every segment (R116). -/
def Dev.sendSlices (d : Dev) (j : QJob) (bad : Bool) (p : List (List (Nat × Bool))) : Dev :=
  let cm := j.b2 62
  let us := bitList cm 16
  let c := us.length
  let l := 256 * j.b1 58
  let ss : List Slice := us.zipIdx.map fun (u, m) =>
    { rgrp := j.b2 60, clmask := cm, owner := u, src := j.cl, bad := bad, sig := redSig j
      data := p.map fun row => (row.drop (m * l / c)).take ((m + 1) * l / c - m * l / c) }
  { d with xc := { d.xc with slices := d.xc.slices ++ ss } }

/-- The status of the checks of R113 and R62 on an expert job; 0 where they pass. Of several that fail, and of the address
checks after them, the limits come first, then the formats, then the addresses: only CMPL's place is stated (DESIGN CHOICE, log
entry 83). -/
def expertChecks (j : QJob) : Nat :=
  let toks := popN (j.b2 4) 16
  let l := 256 * j.b1 58
  let rows := j.b2 56
  let red := bitN (j.b1 1) 1
  let c := popN (j.b2 62) 16
  if toks = 0 ∨ rows = 0 ∨ 4096 < rows ∨ j.b1 58 = 0 ∨ 128 < j.b1 58 ∨ 98304 < toks * max l (32 * rows)
      ∨ (red ∧ (!bitN (j.b2 62) j.cl ∨ l % (64 * c) ≠ 0)) then 4
  else if 2 < j.b1 59 % 32 ∨ !cvtOk (j.b1 6) [0, 1, 2] ∨ !cvtOk (j.b1 7) [0, 1] ∨ 4 < j.b1 2 then 1
  else 0

/-- Accumulators an expert job needs (R102). -/
def expertAccs (j : QJob) : Nat := popN (j.b2 4) 16 * max (256 * j.b1 58) (32 * j.b2 56)

/-- The ranges an expert job reads and writes (R105). -/
def expertRanges (j : QJob) : List (Bool × Nat × Nat) :=
  let l := 256 * j.b1 58
  let n := j.b2 56 * rowGroupBytes l
  let xw := elemBits (j.b1 59 % 32) / 8
  let ow := elemBits (j.b1 7 % 32) / 8
  let toks := bitList (j.b2 4) 16
  [(false, j.b8 8, n), (false, j.b8 16, n), (false, j.b8 24, n)] ++
    (toks.map fun t => (false, j.b8 32 + t * l * xw, l * xw)) ++ toks.map fun t => (true, j.b8 40 + t * l * ow, l * ow)

/-- An expert job waits for every earlier codebook load into its slot (Table 4.2), and for accumulators held by earlier
jobs (R102). -/
def expertReady (j : QJob) (d : Dev) : Bool :=
  !((d.earlier j).any fun k => k.type == 4 && k.slot == j.slot) && d.reaches (expertRanges j) &&
    (expertChecks j != 0 || decide (((d.xcRun j.cl).foldl (fun a r => a + r.accs) 0) + expertAccs j ≤ 98304))

/-- G, U and H of one row group for the tokens: the codes of H as stored with their poison, and the conversions (R112
steps 2 and 3). -/
def hGroup (j : QJob) (xs : List (List (FV × Bool))) (gw uw : List (List (FV × Bool))) : List (List (Conv × Bool)) :=
  xs.map fun x =>
    let xv := x.map (·.1)
    let xp := x.any (·.2)
    (gw.zip uw).map fun (g, u) =>
      let h := act32 (j.b1 2) (dotGroups 8 xv (g.map (·.1))) (dotGroups 8 xv (u.map (·.1)))
      (hElem (j.b1 6) h, xp || g.any (·.2) || u.any (·.2))

/-- One row group of WD added to the accumulators of one token: rows 0 to 7, then 8 to 15 (R95, R103). `hb`: the token's
16 activations as BF16 with their poison. -/
def downGroup (hb : List (FV × Bool)) (wd : List (List (FV × Bool))) (acc : List (Nat × Bool)) : List (Nat × Bool) :=
  let half (k : Nat) (acc : List (Nat × Bool)) : List (Nat × Bool) :=
    let hs := (hb.drop k).take 8
    let ws := ((wd.drop k).take 8).map List.toArray
    acc.zipIdx.map fun (a, i) =>
      let col := ws.map fun row => row.getD i (.nan, false)
      (accGroup a.1 (List.zipWith (fun h w => h.1.mul w.1) hs col), a.2 || hs.any (·.2) || col.any (·.2))
  half 8 (half 0 acc)

/-- The gated sequence of R112 on a job that has passed its checks: the partial of each token, the row groups read and
skipped. -/
def Dev.expertRun (d : Dev) (j : QJob) : List (List (Nat × Bool)) × Nat × Nat × Dev :=
  let l := 256 * j.b1 58
  let fmt := j.b1 59 % 32
  let toks := bitList (j.b2 4) 16
  let (bk, d0) := d.readP (pgXC j.cl) j.dom (slotAddr j.cl j.slot) 33280
  let book := (bk.map fun b => b.1.toNat).toArray
  let bad := d.b (pgXC j.cl + 0x104) (8 + j.slot) || j.poison
  let (xs, d1) := toks.foldl (fun (r : List (List (FV × Bool)) × Dev) t =>
    let (x, e) := r.2.readX j (j.b8 32 + t * l * (elemBits fmt / 8)) l fmt
    (r.1 ++ [x], e)) (([] : List (List (FV × Bool))), d0)
  let (hs, d2) := (List.range (j.b2 56)).foldl (fun (r : List (List (List (Conv × Bool))) × Dev) g =>
    let (gw, e) := r.2.rowGroup j (j.b8 8) g l book bad
    let (uw, e) := e.rowGroup j (j.b8 16) g l book bad
    let h := hGroup j xs gw uw
    let e := if j.b1 6 % 32 = 0 then e else e.countCvt j.cl (h.flatMap fun t => t.map (·.1))
    (r.1 ++ [h], e)) (([] : List (List (List (Conv × Bool)))), d1)
  let hv (c : Conv) : FV := decElem (j.b1 6 % 32) c.code
  let thr := fp32.dec (d.rdA (pgXC j.cl + 0x140 + 4 * fieldN (j.b1 1) 2 4)).toNat
  let may := bitN (j.b1 1) 0 && bitN (d.rdA (pgXC j.cl + 0x108)).toNat 0
  let zero := toks.map fun _ => List.replicate l ((0 : Nat), false)
  let (ps, n, k, d3) := hs.zipIdx.foldl (fun (r : List (List (Nat × Bool)) × Nat × Nat × Dev) (h, g) =>
    if may && h.all fun t => t.all fun x => below (hv x.1) thr then (r.1, r.2.1, r.2.2.1 + 1, r.2.2.2)
    else
      let (wd, e) := r.2.2.2.rowGroup j (j.b8 24) g l book bad
      let cs := h.map fun t => t.map fun x => bf16.enc (hv x.1) false none
      let e := if j.b1 6 % 32 = 1 then e else e.countCvt j.cl (cs.flatMap id)
      let hb := h.map fun t => t.map fun x => (bf16.dec (bf16.enc (hv x.1) false none).code, x.2)
      ((r.1.zip hb).map fun (a, b) => downGroup b wd a, r.2.1 + 1, r.2.2.1, e)) (zero, 0, 0, d2)
  (ps, n, k, (d3.incBy (pgXC j.cl + 0x808) n).incBy (pgXC j.cl + 0x80c) k)

/-- An expert job whose checks have passed: with its codebook slot not VALID it ends CODEBOOK; else the slice's work is
done, and its partial written under CVT_OUT or sent into the slice reduction (R111 to R115). -/
def Dev.expertDo (d : Dev) (j : QJob) : Dev :=
  let l := 256 * j.b1 58
  let ow := elemBits (j.b1 7 % 32) / 8
  let toks := bitList (j.b2 4) 16
  let red := bitN (j.b1 1) 1
  if !d.b (pgXC j.cl + 0x104) j.slot then
    if red then (d.sendSlices j true (toks.map fun _ => List.replicate l (0, true))).running { q := j, status := 3, wait := true }
    else d.endJob j 3 false 0 0
  else
    let (ps, rd, sk, d1) := d.expertRun j
    if red then (d1.sendSlices j false ps).running { q := j, ca := sk, cb := rd, accs := expertAccs j, wait := true }
    else
      let (d2, bad) := (toks.zip ps).foldl (fun (r : Dev × Bool) (t, p) =>
        let (q, e) := r.1.cvt32 j.cl (j.b1 7) p
        let (e, b) := e.writeP j.cl j.dom (j.b8 40 + t * l * ow) (elemBytes ow q)
        (e, r.2 || b)) (d1, false)
      d2.running { q := j, poison := bad, ca := sk, cb := rd, accs := expertAccs j }

/-- EXPERT_JOB_BEGIN (R105, R112, R113): the checks, then the slice's work. -/
def execExpertJobBegin (c : Fin 16) (i : Nat) (s : State) : Res :=
  lift (fun d => d.beginJob c i [1] expertReady fun j d =>
    let st := expertChecks j
    if st ≠ 0 then d.endJob j st false 0 0
    else match d.jobAddrs j (expertRanges j) with
      | some d1 => d1.endJob j 2 false 0 0
      | none => d.expertDo j) s

/-! ### Slice reduction (R115, R116) -/

/-- The running job that owns a segment: the job of that cluster in the reduction. -/
def Dev.segOwner (d : Dev) (rgrp clmask owner : Nat) : Option RunJob :=
  (d.xcRun owner).find? fun r =>
    r.q.type == 1 && r.wait && bitN (r.q.b1 1) 1 && r.q.b2 60 == rgrp && r.q.b2 62 == clmask

/-- The segment of a reduction written by the combine unit of its owner; with slices missing or poisoned whole, its bytes
are free values and poisoned (R116); slices of jobs that do not match give free values (R117). -/
def Dev.writeSegment (d : Dev) (r : RunJob) (got : List Slice) (tmo : Bool) : Dev × Bool :=
  let j := r.q
  let us := bitList (j.b2 62) 16
  let c := us.length
  let m := us.idxOf j.cl
  let l := 256 * j.b1 58
  let lo := m * l / c
  let n := (m + 1) * l / c - lo
  let ow := elemBits (j.b1 7 % 32) / 8
  let bad := tmo || got.any (·.bad)
  let odd := got.any fun x => x.sig != redSig j
  let srcs := us.filterMap fun u => got.find? (·.src == u)
  (bitList (j.b2 4) 16).zipIdx.foldl (fun (x : Dev × Bool) (t, k) =>
    let a := j.b8 40 + (t * l + lo) * ow
    if bad || odd then
      let (f, e) := x.1.freeBytes (n * ow)
      let (e, _) := e.writeP j.cl j.dom a (f.map fun b => (b, bad))
      (e, bad)
    else
      let sum := srcs.foldl (fun (acc : List (Nat × Bool)) s =>
        List.zipWith (fun a b => (add32 a.1 b.1, a.2 || b.2)) acc (s.data.getD k [])) (List.replicate n (0, false))
      let (q, e) := x.1.cvt32 j.cl (j.b1 7) sum
      let (e, b) := e.writeP j.cl j.dom a (elemBytes ow q)
      (e, x.2 || b)) (d, false)

/-- SLICE_RECEIVE (R115): the `i`-th slice on its way reaches its combine unit; the last of the c slices completes the
segment, and its job may then end. -/
def execSliceReceive (i : Nat) (s : State) : Res :=
  lift (fun d =>
    match d.xc.slices[i]? with
    | none => d
    | some x =>
      if d.safe || (match d.segOwner x.rgrp x.clmask x.owner with
          | some r => !d.reaches (expertRanges r.q)
          | none => false) then d
      else
        let same (y : Slice) : Bool := y.rgrp == x.rgrp && y.clmask == x.clmask && y.owner == x.owner
        let got := d.xc.held.filter same ++ [x]
        let d1 := { d with xc := { d.xc with slices := d.xc.slices.eraseIdx i, held := d.xc.held ++ [x] } }
        if got.length < popN x.clmask 16 then d1
        else
          match d1.segOwner x.rgrp x.clmask x.owner with
          | none => d1
          | some r =>
            let (d2, bad) := d1.writeSegment r got false
            let d3 := { d2 with xc := { d2.xc with held := d2.xc.held.filter fun y => !same y } }
            d3.setRun r.q.seq fun r => { r with wait := false, poison := r.poison || bad }) s

/-- The slices that cluster `src` sent into a reduction and that are not summed yet are poisoned: its job ends with a status
other than OK (R116). -/
def Dev.poisonSlices (d : Dev) (src rgrp clmask : Nat) : Dev :=
  let f (x : Slice) : Slice := if x.src = src ∧ x.rgrp = rgrp ∧ x.clmask = clmask then { x with bad := true } else x
  { d with xc := { d.xc with slices := d.xc.slices.map f, held := d.xc.held.map f } }

/-- SLICE_RED_TIMEOUT (R116): a segment that lacks slices 1 ms after the first is written poisoned where it has an owner,
which completes with TIMEOUT, also where its job had failed by itself (DESIGN CHOICE, log entry 85); the slices are
discarded. -/
def execSliceRedTimeout (rgrp clmask : Nat) (owner : Fin 16) (s : State) : Res :=
  lift (fun d =>
    let same (y : Slice) : Bool := y.rgrp == rgrp && y.clmask == clmask && y.owner == owner.val
    let got := d.xc.held.filter same
    if got.isEmpty || d.safe then d
    else
      let d1 := { d with xc := { d.xc with held := d.xc.held.filter fun y => !same y } }
      match d1.segOwner rgrp clmask owner with
      | none => d1
      | some r =>
        let (d2, _) := d1.writeSegment r got true
        ((d2.setErr (pgXC owner) 2).poisonSlices owner rgrp clmask).setRun r.q.seq fun r => { r with status := 6, wait := false, poison := true }) s

end Sys2Proof.Machine
end

