-- ==== Sys2Proof/Machine/Gate.lean ====
section
/-!
DEFINITION. Machine/Gate.lean: gate jobs (R121 to R125).
-/
namespace Sys2Proof.Machine

/-- a ranks no lower than b: higher score first, NaN below every number, then the lower expert (R122). -/
def rankLe (s : Nat → FV) (a b : Nat) : Bool :=
  let x := s a
  let y := s b
  if x.isNan then y.isNan && decide (a ≤ b)
  else if y.isNan then true
  else if x.cmp y = 0 then decide (a ≤ b) else decide (0 < x.cmp y)

/-- The largest non-NaN of FP32 codes, NaN when there is none (R122). -/
def max32 (l : List Nat) : Nat :=
  l.foldl (fun m x => let v := fp32.dec x
                      if v.isNan then m else if (fp32.dec m).isNan || decide (0 < v.cmp (fp32.dec m)) then x else m) fp32.nanCode

/-- Gate weights of the selected experts before WSCALE (Table 4.8); `z` the logits, `e` of them. -/
def gateWeights (norm e : Nat) (z : Nat → Nat) (sel : List Nat) : List Nat :=
  let pool := if norm = 0 then List.range e else sel.mergeSort (fun a b => decide (a ≤ b))
  let zm := max32 (pool.map z)
  let num (k : Nat) : Nat := if norm < 2 then exp32 (add32 (z k) (neg32 zm)) else sigmoid32 (z k)
  if norm = 3 then sel.map num
  else
    let tot := pool.foldl (fun a k => add32 a (num k)) 0
    sel.map fun k => div32 (num k) tot

/-- An entry being made: weight, expert, flags, rank. -/
structure GateOut where
  w : Nat
  e : Nat
  flags : Nat
  rank : Nat
deriving DecidableEq, Repr

/-- Admission of one token's selections under CAP and the drop mode, in ascending rank (R123). -/
def admitSel (cap drop : Nat) (order : List Nat) (k : Nat) (counts : Array Nat) (ents : List GateOut) :
    Array Nat × List GateOut :=
  let r := ents.foldl (fun (r : Array Nat × List GateOut × List Nat) (x : GateOut) =>
    let (cn, out, used) := r
    if cap = 0 ∨ cn.getD x.e 0 < cap then (cn.modify x.e (· + 1), out ++ [x], used)
    else
      let alt := if drop = 2 then
          (((order.zipIdx.drop k).take (32 - k)).find? fun (e, _) => decide (cn.getD e 0 < cap) && !used.contains e) else none
      match alt with
      | some (e, rk) => (cn.modify e (· + 1), out ++ [{ x with e := e, flags := 2, rank := rk }], e :: used)
      | none => (cn, out ++ [{ x with flags := 1 }], used)) (counts, [], ents.map (·.e))
  (r.1, r.2.1)

/-- Renormalisation of the kept weights (R123 mode 1). -/
def renorm (ents : List GateOut) : List GateOut :=
  let drop (x : GateOut) : Bool := bitN x.flags 0
  if !ents.any drop || ents.all drop then ents
  else
    let t := ents.foldl (fun a x => add32 a x.w) 0
    let s := ents.foldl (fun a x => if drop x then a else add32 a x.w) 0
    let f := div32 t s
    ents.map fun x => if drop x then x else { x with w := mul32 x.w f }

/-- The 128 bytes of a gate record (Table 4.10); an unused entry is zero but for its expert number, whatever the poison
(DESIGN CHOICE, log entry 8). -/
def gateRecord (bad : Bool) (ents : List GateOut) : List Byte :=
  (ents.flatMap fun x => leBytes x.w 4 ++ leBytes x.e 2 ++ [BitVec.ofNat 8 (x.flags + 4 * b2n bad), BitVec.ofNat 8 x.rank])
    ++ (List.range (16 - ents.length)).flatMap fun _ => [0, 0, 0, 0, 0xff, 0xff, 0, 0]

/-- The status of the checks of R124 and R62 on a gate job; 0 where they pass: the limits first, then the formats, then the
addresses (DESIGN CHOICE, log entry 83). -/
def gateChecks (j : QJob) : Nat :=
  let e := j.b2 6
  if j.b1 1 = 0 ∨ 16 < j.b1 1 ∨ j.b1 2 = 0 ∨ 16 < j.b1 2 ∨ e = 0 ∨ 1024 < e ∨ e < j.b1 2 ∨ 16 < j.b2 8 ∨ j.b1 10 = 0
      ∨ 128 < j.b1 10 ∨ fieldN (j.b1 3) 2 2 = 3 then 4
  else if 2 < j.b1 4 % 32 ∨ (j.b1 5 % 32 ≠ 1 ∧ j.b1 5 % 32 ≠ 3) then 1
  else 0

/-- The ranges a gate job reads and writes (R105). -/
def gateRanges (j : QJob) : List (Bool × Nat × Nat) :=
  let nt := j.b1 1
  let l := 256 * j.b1 10
  let e := j.b2 6
  let bias := j.b8 32
  [(false, j.b8 16, nt * l * (elemBits (j.b1 4 % 32) / 8)), (false, j.b8 24, e * l * (elemBits (j.b1 5 % 32) / 8)),
   (true, j.b8 40, nt * 128)] ++ if bias = 0 then [] else [(false, bias, 4 * e)]

/-- A gate job whose checks have passed: logits, ranks, admission, weights and the gate records (R122 to R125). -/
def Dev.gateDo (d : Dev) (j : QJob) : Dev :=
  let nt := j.b1 1
  let k := j.b1 2
  let norm := j.b1 3 % 4
  let drop := fieldN (j.b1 3) 2 2
  let xf := j.b1 4 % 32
  let wf := j.b1 5 % 32
  let e := j.b2 6
  let l := 256 * j.b1 10
  let xw := elemBits xf / 8
  let ww := elemBits wf / 8
  let bias := j.b8 32
  let (wb, d1) := d.readP (pgXC j.cl) j.dom (j.b8 24) (e * l * ww)
  let (bb, d1) := if bias = 0 then (([] : List (Byte × Bool)), d1) else d1.readP (pgXC j.cl) j.dom bias (4 * e)
  let ws := ((chunks l (elems ww wb (e * l)) (e + 1)).map fun r => r.map fun x => decElem wf x.1).toArray
  let bs := ((elems 4 bb (if bias = 0 then 0 else e)).map (·.1)).toArray
  let jobBad := j.poison || wb.any (·.2) || bb.any (·.2)
  let out := (List.range nt).foldl (fun (r : Dev × Array Nat × List (Bool × List GateOut)) t =>
    let (xb, d2) := r.1.readP (pgXC j.cl) j.dom (j.b8 16 + t * l * xw) (l * xw)
    let xv := (elems xw xb l).map fun x => decElem xf x.1
    let z := ((List.range e).map fun n => dotGroups (if wf = 1 then 8 else 16) xv (ws.getD n [])).toArray
    let sc := ((List.range e).map fun n => fp32.dec (add32 (z.getD n 0) (bs.getD n 0))).toArray
    let order := (List.range e).mergeSort (rankLe fun n => sc.getD n .nan)
    let sel := order.take k
    let wts := gateWeights norm e (fun n => z.getD n 0) sel
    let ents : List GateOut := (sel.zip wts).zipIdx.map fun (x, rk) => ⟨x.2, x.1, 0, rk⟩
    let (cn, ents) := admitSel (j.b2 8) drop order k r.2.1 ents
    let ents := (if drop = 1 then renorm ents else ents).map fun x => { x with w := mul32 x.w (j.b4 12) }
    (d2, cn, r.2.2 ++ [(xb.any (·.2) || jobBad, ents)])) (d1, (Array.replicate 1024 0), [])
  let d2 := out.1.each out.2.2.zipIdx fun (r, t) d =>
    d.memWrite (pgXC j.cl) j.dom (j.b8 40 + t * 128) (gateRecord r.1 r.2) false
  let all := out.2.2.flatMap (·.2)
  let nd := (all.filter fun x => bitN x.flags 0).length
  let nr := (all.filter fun x => bitN x.flags 1).length
  ((d2.incBy (pgXC j.cl + 0x810) nd).incBy (pgXC j.cl + 0x814) nr).running
    { q := j, poison := out.2.2.any (·.1), ca := nd, cb := nr }

/-- GATE_JOB_BEGIN (R105, R121): the checks, then the gate's work. -/
def execGateJobBegin (c : Fin 16) (i : Nat) (s : State) : Res :=
  lift (fun d => d.beginJob c i [2] (fun j d => d.reaches (gateRanges j)) fun j d =>
    let st := gateChecks j
    if st ≠ 0 then d.endJob j st false 0 0
    else if areaOf (j.b8 24) ≠ .sram c then
      (d.jobAddrFail j false (j.b8 24) (j.b2 6 * (256 * j.b1 10) * (elemBits (j.b1 5 % 32) / 8))).endJob j 2 false 0 0
    else match d.jobAddrs j (gateRanges j) with
      | some d1 => d1.endJob j 2 false 0 0
      | none => d.gateDo j) s

end Sys2Proof.Machine
end

