-- ==== Sys2Proof/Machine/Combine.lean ====
section
/-!
DEFINITION. Machine/Combine.lean: combine jobs and partial notices (R126 to R129).
-/
namespace Sys2Proof.Machine

/-- Combine units in use by combine jobs. -/
def Dev.unitsBusy (d : Dev) : List Nat := d.xc.combs.flatMap (·.units)

/-- The ranges a combine job reads and writes (R105). -/
def combRanges (j : QJob) : List (Bool × Nat × Nat) :=
  let nt := j.b1 1
  [(false, j.b8 8, nt * 128), (true, j.b8 16, nt * (256 * j.b1 6) * (elemBits (j.b1 3 % 32) / 8))]

/-- A combine job waits until every unit of its SEGMASK is free of other combine jobs (R126). -/
def combReady (j : QJob) (d : Dev) : Bool :=
  !((bitList (j.b2 4) 16).any fun u => d.unitsBusy.contains u) && d.reaches (combRanges j)

/-- The status of the checks on a combine job (Table 4.12, R62); 0 where they pass: the limits first, then the formats, then
the addresses (DESIGN CHOICE, log entry 83). -/
def combChecks (j : QJob) : Nat :=
  let c := popN (j.b2 4) 16
  if j.b1 1 = 0 ∨ 16 < j.b1 1 ∨ j.b1 2 = 0 ∨ 16 < j.b1 2 ∨ c = 0 ∨ j.b1 6 = 0 ∨ 128 < j.b1 6 ∨ 256 * j.b1 6 % (64 * c) ≠ 0
  then 4 else if !cvtOk (j.b1 3) [0, 1, 2] then 1 else 0

/-- An entry takes part: below K, used and not DROPPED. -/
def CombTok.takes (t : CombTok) (k r : Nat) : Bool :=
  match t.ents[r]? with
  | none => false
  | some e => decide (r < k) && !bitN e.flags 0 && e.expert != 0xffff

/-- Every entry of ranks 0 to K - 1 that is not DROPPED has been accepted (R127). -/
def CombTok.full (t : CombTok) (k : Nat) : Bool :=
  (List.range k).all fun r => t.got.contains r || (match t.ents[r]? with | none => true | some e => bitN e.flags 0)

/-- A running combine job replaced. -/
def Dev.setComb (d : Dev) (m : Comb) : Dev :=
  { d with xc := { d.xc with combs := d.xc.combs.map fun x => if x.seq = m.seq then m else x } }

/-- Tokens that are complete are written, segment by segment, by the units of SEGMASK; when all are, the job may end
(R127, R129). -/
def Dev.combFlush (d : Dev) (seq : Nat) : Dev :=
  match d.xc.combs.find? (·.seq == seq) with
  | none => d
  | some m =>
    let ow := elemBits (m.cvt % 32) / 8
    let c := m.units.length
    let r := m.toks.zipIdx.foldl (fun (r : Dev × List CombTok × Bool) (t, n) =>
      if t.done || !t.full m.k then (r.1, r.2.1 ++ [t], r.2.2)
      else
        let p := t.poison || ((List.range m.k).any fun k => t.takes m.k k && bitN ((t.ents.getD k ⟨0, 0, 0⟩).flags) 2)
        let d1 := r.1.each m.units.zipIdx fun (u, i) d =>
          let lo := i * m.l / c
          let n1 := (i + 1) * m.l / c - lo
          let (q, e) := d.cvt32 u m.cvt (((t.acc.drop lo).take n1).map fun x => (x, p))
          (e.writeP u (domOf m.cove) (m.out + (n * m.l + lo) * ow) (elemBytes ow q)).1
        (d1, r.2.1 ++ [{ t with done := true }], r.2.2 || p)) (d, [], m.poison)
    let m1 := { m with toks := r.2.1, poison := r.2.2 }
    let d1 := r.1.setComb m1
    if m1.toks.all (·.done) then
      let d2 := if m1.tmo && d1.xc.run.any (fun r => r.q.seq == seq && r.wait) then d1.setErr (pgXC m.cl) 2 else d1
      d2.setRun seq fun r =>
        { r with wait := false, status := if r.status = 0 && m1.tmo then 6 else r.status, poison := r.poison || m1.poison }
    else d1

/-- An expired entry is accepted with POISON by the running combine job `seq` (R129, R157). -/
def Dev.expireIn (d : Dev) (seq token rank : Nat) : Dev :=
  match d.xc.combs.find? (·.seq == seq) with
  | none => d
  | some m =>
    match m.toks[token]? with
    | none => d
    | some t =>
      if t.got.contains rank || !t.takes m.k rank then d
      else
        let t1 := { t with got := rank :: t.got, poison := true }
        (d.setComb { m with toks := m.toks.set token t1, tmo := true }).combFlush m.seq

/-- An expired entry is told to every combine unit that serves its batch, or kept for a job of it that has not begun (R157,
R129). -/
def Dev.expireEntry (d : Dev) (batch token rank : Nat) : Dev :=
  let ms := d.xc.combs.filter (·.batch == batch)
  if ms.isEmpty then { d with xc := { d.xc with marks := d.xc.marks ++ [(batch, token, rank)] } }
  else d.each ms fun m d => d.expireIn m.seq token rank

/-- A combine job whose checks have passed: its gate records are read and it waits for notices; expiries kept for the batch
are its first notices; tokens with every entry dropped are complete at once (R126, R129). -/
def Dev.combineDo (d : Dev) (j : QJob) : Dev :=
  let nt := j.b1 1
  let l := 256 * j.b1 6
  let (rb, d1) := d.readP (pgXC j.cl) j.dom (j.b8 8) (nt * 128)
  let toks : List CombTok := (List.range nt).map fun t =>
    let r := (rb.drop (128 * t)).take 128
    let l8 := r.map (·.1)
    { ents := (List.range 16).map fun k => ⟨leAt l8 (8 * k) 4, leAt l8 (8 * k + 4) 2, leAt l8 (8 * k + 6) 1⟩
      acc := List.replicate l 0
      poison := j.poison || r.any (·.2) }
  let m : Comb :=
    { seq := j.seq, cl := j.cl, cove := j.cove, batch := j.b4 24, units := bitList (j.b2 4) 16, k := j.b1 2, l := l
      cvt := j.b1 3, out := j.b8 16, toks := toks, ranges := match j.cove with | some n => (d.cove n).cfg.ranges | none => [] }
  let mine := d1.xc.marks.filter (·.1 == m.batch)
  let d2 := { d1 with xc := { d1.xc with combs := d1.xc.combs ++ [m], marks := d1.xc.marks.filter (·.1 != m.batch) } }
  let d3 := (d2.running { q := j, wait := true }).each mine fun x d => d.expireEntry x.1 x.2.1 x.2.2
  d3.combFlush j.seq

/-- COMBINE_JOB_BEGIN (R105, R126): every unit of SEGMASK free, the checks, then the job's beginning. -/
def execCombineJobBegin (c : Fin 16) (i : Nat) (s : State) : Res :=
  lift (fun d => d.beginJob c i [3] combReady fun j d =>
    let st := combChecks j
    if st ≠ 0 then d.endJob j st false 0 0
    else match d.jobAddrs j (combRanges j) with
      | some d1 => d1.endJob j 2 false 0 0
      | none => d.combineDo j) s

/-- One step of the sum: acc + w times p, rounded once (R127). -/
def fma32 (acc w : Nat) (p : FV) : Nat := enc32 ((fp32.dec acc).add ((fp32.dec w).mul p))

/-- A partial that a combine job may read: where Table 2.3 lets the cluster of its queue read (also for the units of other
clusters in SEGMASK: DESIGN CHOICE, log entry 86), and within the cove's ranges as they were when the job began (R129, R324). -/
def Dev.partialOk (d : Dev) (m : Comb) (a n : Nat) : Bool :=
  d.xcAccess m.cl none false a n && (m.cove.isNone || covers m.ranges false a n 17)

/-- A partial that may not be read is recorded in the job's domain, and a failed cove check counted (R129, R324). -/
def Dev.partialDenied (d : Dev) (m : Comb) (a n : Nat) : Dev :=
  let d1 := match m.cove with
    | some k => if inMap a n && !covers m.ranges false a n 17 then d.deny k else d
    | none => d
  d1.report (pgXC m.cl) none 0x0010 (domOf m.cove) a 0

/-- What the combine units do with a notice (R126 to R129). -/
def Dev.notice (d : Dev) (n : Notice) : Dev :=
  match d.xc.combs.find? (·.batch == n.batch) with
  | none => d.inc (pgXC n.cl + 0x824)
  | some m =>
    let low := pgXC (m.units.headD 0)
    let t := m.toks.getD n.token ⟨[], [], [], false, false⟩
    if !t.takes m.k n.rank then (d.setComb { m with ignored := m.ignored + 1 }).inc (low + 0x824)
    else if t.got.contains n.rank then (d.setComb { m with ignored := m.ignored + 1 }).inc (low + 0x820)
    else
      let w := if n.bf16 then 2 else 4
      let t1 := { t with got := n.rank :: t.got }
      if d.partialOk m n.addr (m.l * w) then
        let (b, d1) := d.readP (pgXC m.cl) (domOf m.cove) n.addr (m.l * w)
        let e := t.ents.getD n.rank ⟨0, 0, 0⟩
        let acc := List.zipWith (fun a x => fma32 a e.w (decElem (if n.bf16 then 1 else 0) x.1)) t.acc (elems w b m.l)
        let t2 := { t1 with acc := acc, poison := t1.poison || n.poison || b.any (·.2) }
        (d1.setComb { m with toks := m.toks.set n.token t2 }).combFlush m.seq
      else
        let d1 := d.partialDenied m n.addr (m.l * w)
        (d1.setComb { m with toks := m.toks.set n.token { t1 with poison := true } }).combFlush m.seq

/-- A notice waits while its partial, or what its job writes, lies on a channel that is retraining (R210). -/
def Dev.noticeWaits (d : Dev) (n : Notice) : Bool :=
  match d.xc.combs.find? (·.batch == n.batch) with
  | none => false
  | some m => d.blocked n.addr (m.l * (if n.bf16 then 2 else 4)) || d.blocked m.out (m.toks.length * m.l * 4)

/-- PARTIAL_NOTICE (R127, R128): the combine units take the `i`-th notice posted. -/
def execPartialNotice (i : Nat) (s : State) : Res :=
  lift (fun d =>
    match d.xc.notices[i]? with
    | none => d
    | some n => if d.safe || d.noticeWaits n then d else ({ d with xc := { d.xc with notices := d.xc.notices.eraseIdx i } } : Dev).notice n) s

/-- A notice posted to every combine unit (R155, R237). -/
def Dev.postNotice (d : Dev) (n : Notice) : Dev := { d with xc := { d.xc with notices := d.xc.notices ++ [n] } }

/-- A notice read from its 16 bytes (Table 4.11). -/
def noticeOf (l : List Byte) (cl : Nat) : Notice :=
  { addr := leAt l 0 8, batch := leAt l 8 4, token := leAt l 12 1, rank := leAt l 13 1, bf16 := bitN (leAt l 14 1) 0
    poison := bitN (leAt l 14 1) 1, cl := cl }

end Sys2Proof.Machine
end

