-- ==== Sys2Proof/Machine/Kv.lean ====
section
/-!
DEFINITION. Machine/Kv.lean: the KV jobs and their groups (chapter 6).
-/
namespace Sys2Proof.Machine

/-- A stream descriptor as a job reads it (Table 6.1). -/
structure Stream where
  pfmt : Nat
  dcode : Nat
  npage : Nat
  list : Nat
  sums : Nat
deriving DecidableEq, Repr

def streamOf (l : List Byte) : Stream := ⟨leAt l 0 1 % 32, leAt l 1 1, leAt l 4 4, leAt l 8 8, leAt l 16 8⟩

/-- D, element width in bits, bytes of one token's key, and T (R162). -/
def Stream.dim (x : Stream) : Nat := 64 * 2 ^ x.dcode
def Stream.w (x : Stream) : Nat := elemBits x.pfmt
def Stream.tok (x : Stream) : Nat := x.dim * x.w / 8
def Stream.cap (x : Stream) : Nat := 32768 / x.tok

/-- A page list entry (Table 6.3). -/
structure KvEntry where
  page : Nat
  count : Nat
  pin : Bool
  valid : Bool
  hits : Nat
  sk : Nat
  sv : Nat
deriving DecidableEq, Repr

def kvEntryOf (l : List Byte) : KvEntry :=
  let s := leAt l 4 2
  ⟨leAt l 0 4 * 65536, s % 2048, bitN s 14, bitN s 15, leAt l 6 2, leAt l 8 4, leAt l 12 4⟩

def KvEntry.bytes (e : KvEntry) : List Byte :=
  leBytes (e.page / 65536) 4 ++ leBytes (e.count + b2n e.pin * 2 ^ 14 + b2n e.valid * 2 ^ 15) 2 ++ leBytes e.hits 2
    ++ leBytes e.sk 4 ++ leBytes e.sv 4

/-- Elements of `w` bits with their poison, and back (R71). -/
def elemsW (w : Nat) (l : List (Byte × Bool)) (n : Nat) : List (Nat × Bool) :=
  if w = 4 then (l.flatMap fun b => [(b.1.toNat % 16, b.2), (b.1.toNat / 16, b.2)]).take n else elems (w / 8) l n
def bytesW (w : Nat) (l : List (Nat × Bool)) : List (Byte × Bool) :=
  if w = 4 then (chunks 2 l l.length).map fun p =>
    (BitVec.ofNat 8 (((p.map (·.1)).getD 0 0) % 16 + ((p.map (·.1)).getD 1 0) * 16), p.any (·.2))
  else elemBytes (w / 8) l

/-- The page lies in the KV tier pool and in the cove's ranges (R169). -/
def Dev.pageOk (d : Dev) (cove : Option Nat) (w : Bool) (page : Nat) : Bool :=
  let y := d.fw.layout
  decide (y.kBase ≤ page) && decide (page + 65536 ≤ y.kBase + y.kSize) &&
    match cove with
    | none => true
    | some k => d.inCove k w page 65536

/-- KV jobs of one stream issued earlier in the queue, of the types given (R166). -/
def kvBefore (j : QJob) (d : Dev) (types : List Nat) : Bool :=
  (d.earlier j).any fun k => types.contains k.type && k.b8 16 == j.b8 16
def kvReleases (j : QJob) (d : Dev) : Bool := (d.earlier j).any fun k => k.type == 0x23 && k.b8 16 == j.b8 16 && bitN (k.b1 1) 0

/-- Waits of the KV jobs (Table 6.4). The pages of a job are found as it runs, so it begins when no channel is retraining
(R210; DESIGN CHOICE, log entry 87). -/
def kvReady (j : QJob) (d : Dev) : Bool :=
  d.calm && match j.type with
  | 0x20 => !(kvBefore j d [0x22] || kvReleases j d)
  | 0x21 => !(kvBefore j d [0x22] || kvReleases j d || (d.earlier j).any fun k => k.type == 0x20 && k.b8 32 == j.b8 32)
  | 0x22 => !kvBefore j d [0x20, 0x21, 0x22, 0x23]
  | _ => !kvBefore j d [0x22]

/-- An entry of the page list, read once with its poison (R169). -/
def Dev.kvEntry (d : Dev) (j : QJob) (x : Stream) (e : Nat) : KvEntry × Bool × Dev :=
  let (b, d1) := d.readP (pgXC j.cl) j.dom (x.list + 16 * e) 16
  (kvEntryOf (b.map (·.1)), b.any (·.2), d1)

/-! ### KV_WRITE and KV_READ -/

/-- An FP32 code rounded to BF16 toward minus or plus infinity (R164). -/
def bfDown (x : Nat) : Nat :=
  if (fp32.dec x).isNan then bf16.nanCode else x / 65536 + (if bitN x 31 && x % 65536 != 0 then 1 else 0)
def bfUp (x : Nat) : Nat :=
  if (fp32.dec x).isNan then bf16.nanCode else x / 65536 + (if !bitN x 31 && x % 65536 != 0 then 1 else 0)

/-- The lesser and the greater of two FP32 codes that are not NaN. -/
def min32 (a b : Nat) : Nat := if lt32 b a then b else a
def maxOf32 (a b : Nat) : Nat := if lt32 a b then b else a

/-- The FP32 products SK times v(e) of one channel's key codes, NaN left out (R164). -/
def keyVals (sk pfmt : Nat) (codes : List Nat) : List Nat :=
  (codes.map fun c => enc32 ((fp32.dec sk).mul (decElem pfmt c))).filter fun v => !(fp32.dec v).isNan

/-- KMIN and KMAX of a channel, over an old pair where there is one (R164, R172). -/
def summaryOf (sk pfmt : Nat) (codes : List Nat) (old : Option (Nat × Nat)) : Nat × Nat :=
  let vs := keyVals sk pfmt codes
  let new := match vs with
    | [] => none
    | v :: t => some (bfDown (t.foldl min32 v), bfUp (t.foldl maxOf32 v))
  match old, new with
  | none, none => (0, 0)
  | none, some p => p
  | some p, none => p
  | some p, some q => (min32 (p.1 * 65536) (q.1 * 65536) / 65536, maxOf32 (p.2 * 65536) (q.2 * 65536) / 65536)

/-- The scale of a rewrite: amax over F, 1.0 for an amax that is zero, infinite or NaN (R171). -/
def kvScale (pfmt : Nat) (vals : List FV) : Nat :=
  if vals.any FV.isNan then 0x3f800000
  else
    let amax := vals.foldl (fun m v => if (absFV v).cmp m ≤ 0 then m else absFV v) (.fin false 0 0)
    let f : FV := .fin false (if pfmt = 3 then 448 else if pfmt = 4 then 57344 else 6) 0
    match amax with
    | .fin _ m _ => if m = 0 then 0x3f800000 else enc32 (amax.div f)
    | _ => 0x3f800000

/-- One draw of the vector unit's generator of cluster `c` (R88): the 16-bit value. -/
def Dev.drawV (d : Dev) (c : Nat) : Nat × Dev :=
  let x := srNext (d.xc.gen.getD (2 * c + 1) 0).toNat
  (x % 65536, { d with xc := { d.xc with gen := d.xc.gen.set (2 * c + 1) (BitVec.ofNat 32 x) } })

/-- Source elements quantised: divided by the scale in FP32 and converted with saturation (R173). -/
def Dev.quant (d : Dev) (j : QJob) (pfmt scale : Nat) (vals : List (FV × Bool)) : List (Nat × Bool) × Dev :=
  let r := vals.foldl (fun (r : List (Nat × Bool) × List Conv × Dev) v =>
    let q := fp32.dec (enc32 (v.1.div (fp32.dec scale)))
    let (sr, e) := if bitN (j.b1 1) 2 then (let x := r.2.2.drawV j.cl; (some x.1, x.2)) else (none, r.2.2)
    let k := encElem pfmt q true sr
    ((k.code, v.2) :: r.1, k :: r.2.1, e)) ([], [], d)
  (r.1.reverse, r.2.2.countCvt j.cl r.2.1)

/-- The status of the checks of R170, given the stream and the entry's COUNT; 0 where they pass. Which of several failures gives
the status is the model's (DESIGN CHOICE, log entry 83). -/
def kvWriteChecks (j : QJob) (x : Stream) (count : Nat) : Nat :=
  let sf := j.b1 2 % 32
  if 2 < x.dcode then 4
  else if !([3, 4, 7].contains x.pfmt) then 1
  else if !([0, 1, 2].contains sf) ∧ sf ≠ x.pfmt then 1
  else if x.npage ≤ j.b4 8 ∨ j.b2 6 = 0 ∨ x.cap < j.b2 4 + j.b2 6 ∨ (j.b2 4 ≠ 0 ∧ j.b2 4 ≠ count)
      ∨ (sf = x.pfmt ∧ j.b2 4 = 0 ∧ !bitN (j.b1 1) 0) then 4
  else 0

/-- A page, or a list entry's neighbourhood, that a job may not use: a failed cove check is counted (R324). -/
def Dev.kvDenied (d : Dev) (j : QJob) (w : Bool) (x : Stream) (page : Nat) : Dev :=
  let y := d.fw.layout
  if decide (y.kBase ≤ page) && decide (page + 65536 ≤ y.kBase + y.kSize) && !d.pageOk j.cove w page then
    d.jobAddrFail j w page 65536
  else d.jobAddrFail j w (x.list + 16 * j.b4 8) 16

/-- A KV_WRITE: the stream, the checks; a rewrite first makes the entry invalid; the tokens and the summary are
written; the entry is written when the job ends (R170 to R174). What derives from a poisoned source is poisoned: a scale, every
element divided by it, the entry that holds it, and the summary (R100, R174). With SR, the draws for the keys come before those
for the values (DESIGN CHOICE, log entry 88). -/
def Dev.kvWriteDo (d : Dev) (j : QJob) : Dev :=
  match d.jobAddrs j [(false, j.b8 16, 64)] with
  | some d1 => d1.endJob j 2 false 0 0
  | none =>
    let (sb, d1) := d.readP (pgXC j.cl) j.dom (j.b8 16) 64
    let x := streamOf (sb.map (·.1))
    let sbad := j.poison || sb.any (·.2)
    let ea := x.list + 16 * j.b4 8
    let rw := j.b2 4 == 0
    let inList := decide (j.b4 8 < x.npage) && x.list % 64 == 0 && d1.xcAccess j.cl j.cove true ea 16
    let (en, ebad, d1) := if inList then d1.kvEntry j x (j.b4 8) else (kvEntryOf [], false, d1)
    let st := kvWriteChecks j x en.count
    if st ≠ 0 then
      (if st = 4 ∧ x.dcode ≤ 2 ∧ x.npage ≤ j.b4 8 then d1.s (pgXC j.cl + 0x200) 2 1 1 else d1).endJob j st false 0 0
    else
      let n := j.b2 6
      let dm := x.dim
      let sf := j.b1 2 % 32
      let sw := elemBits sf
      let src := n * dm * sw / 8
      let sa := x.sums + j.b4 8 * 4 * dm
      if !inList || !d1.pageOk j.cove true en.page || x.sums % 64 != 0 || !d1.xcAccess j.cl j.cove true sa (4 * dm) then
        ((if inList then d1.s (pgXC j.cl + 0x200) 2 1 1 else d1).kvDenied j true x en.page).endJob j 2 false 0 0
      else
        match d1.jobAddrs j [(false, j.b8 24, src), (false, j.b8 32, src)] with
        | some d2 => d2.endJob j 2 false 0 0
        | none =>
          let pbad := sbad || ebad
          let d2 := if rw then d1.memWrite (pgXC j.cl) j.dom ea ({ en with valid := false } : KvEntry).bytes pbad else d1
          let (kb, d2) := d2.readP (pgXC j.cl) j.dom (j.b8 24) src
          let (vb, d2) := d2.readP (pgXC j.cl) j.dom (j.b8 32) src
          let ks := elemsW sw kb (n * dm)
          let vs := elemsW sw vb (n * dm)
          let kv := ks.map fun e => (decElem sf e.1, e.2)
          let vv := vs.map fun e => (decElem sf e.1, e.2)
          let sk := if !rw then en.sk else if bitN (j.b1 1) 0 then j.b4 40 else kvScale x.pfmt (kv.map (·.1))
          let sv := if !rw then en.sv else if bitN (j.b1 1) 0 then j.b4 44 else kvScale x.pfmt (vv.map (·.1))
          let (kq, d3) := if sf = x.pfmt then (ks, d2) else d2.quant j x.pfmt sk kv
          let (vq, d3) := if sf = x.pfmt then (vs, d3) else d3.quant j x.pfmt sv vv
          let off := j.b2 4 * x.tok
          let own := rw && !bitN (j.b1 1) 0
          let kbad := pbad || (own && ks.any (·.2))
          let vbad := pbad || (own && vs.any (·.2))
          let mk (bad : Bool) (l : List (Nat × Bool)) : List (Byte × Bool) := (bytesW x.w l).map fun b => (b.1, b.2 || bad)
          let (d4, p1) := d3.writeP j.cl j.dom (en.page + off) (mk kbad kq)
          let (d4, p2) := d4.writeP j.cl j.dom (en.page + 32768 + off) (mk vbad vq)
          let (ob, d4) := if rw then (([] : List (Byte × Bool)), d4) else d4.readP (pgXC j.cl) j.dom sa (4 * dm)
          let old := elems 2 ob (if rw then 0 else 2 * dm)
          let rows := (chunks dm (kq.map (·.1)) (n + 1)).map List.toArray
          let sm := (List.range dm).map fun ch =>
            summaryOf sk x.pfmt (rows.map fun r => r.getD ch 0)
              (if rw then none else some ((old.getD ch (0, false)).1, (old.getD (dm + ch) (0, false)).1))
          let bad := pbad || ks.any (·.2) || vs.any (·.2) || old.any (·.2)
          let (d5, p3) := d4.writeP j.cl j.dom sa
            ((sm.flatMap fun m => leBytes m.1 2).map (·, bad) ++ (sm.flatMap fun m => leBytes m.2 2).map (·, bad))
          let fin : KvEntry :=
            { en with count := if rw then n else en.count + n, valid := true, pin := bitN (j.b1 1) 1
                      hits := if rw then 0 else en.hits, sk := sk, sv := sv }
          (d5.incBy (pgXC j.cl + 0x854) n).running
            { q := j, poison := p1 || p2 || p3 || kbad || vbad, ca := n, fin := [(ea, fin.bytes, kbad || vbad)] }

/-- KV_WRITE_BEGIN (R170). -/
def execKvWriteBegin (c : Fin 16) (i : Nat) (s : State) : Res :=
  lift (fun d => d.beginJob c i [0x22] kvReady fun j d => d.kvWriteDo j) s

/-- A KV_READ: the tokens of an entry copied out and descaled; with RELEASE the entry is made invalid when the job ends
(R184). -/
def Dev.kvReadDo (d : Dev) (j : QJob) : Dev :=
  match d.jobAddrs j [(false, j.b8 16, 64)] with
  | some d1 => d1.endJob j 2 false 0 0
  | none =>
    let (sb, d1) := d.readP (pgXC j.cl) j.dom (j.b8 16) 64
    let x := streamOf (sb.map (·.1))
    let ea := x.list + 16 * j.b4 8
    let rel := bitN (j.b1 1) 0
    if 2 < x.dcode then d1.endJob j 4 false 0 0
    else if !([3, 4, 7].contains x.pfmt) || !cvtOk (j.b1 2) [0, 1, 2] then d1.endJob j 1 false 0 0
    else if x.npage ≤ j.b4 8 then (d1.s (pgXC j.cl + 0x200) 2 1 1).endJob j 4 true 0 0
    else if x.list % 64 ≠ 0 ∨ !d1.xcAccess j.cl j.cove rel ea 16 then (d1.jobAddrFail j rel ea 16).endJob j 2 false 0 0
    else
      let (en, ebad, d2) := d1.kvEntry j x (j.b4 8)
      let ow := elemBits (j.b1 2 % 32) / 8
      let n := en.count * x.dim
      if !en.valid || en.count == 0 then d2.endJob j 4 false 0 0
      else
        match d2.jobAddrs j [(true, j.b8 24, n * ow), (true, j.b8 32, n * ow)] with
        | some d3 => d3.endJob j 2 false 0 0
        | none =>
          if !d2.pageOk j.cove false en.page then
            let (f, d3) := ((d2.s (pgXC j.cl + 0x200) 2 1 1).kvDenied j false x en.page).freeBytes (2 * n * ow)
            let fb := f.map fun b => (b, true)
            let (d3, _) := d3.writeP j.cl j.dom (j.b8 24) (fb.take (n * ow))
            let (d3, _) := d3.writeP j.cl j.dom (j.b8 32) (fb.drop (n * ow))
            d3.endJob j 2 true 0 0
          else
            let bad0 := j.poison || sb.any (·.2) || ebad
            let one (d : Dev) (a scale dst : Nat) : Dev × Bool :=
              let (b, e) := d.readP (pgXC j.cl) j.dom a (en.count * x.tok)
              let vs := (elemsW x.w b n).map fun k => (enc32 ((fp32.dec scale).mul (decElem x.pfmt k.1)), k.2 || bad0)
              let (q, e) := e.cvt32 j.cl (j.b1 2) vs
              e.writeP j.cl j.dom dst (elemBytes ow q)
            let (d3, p1) := one d2 en.page en.sk (j.b8 24)
            let (d3, p2) := one d3 (en.page + 32768) en.sv (j.b8 32)
            (d3.inc (pgXC j.cl + 0x84c)).running
              { q := j, poison := p1 || p2, ca := en.count
                fin := if rel then [(ea, ({ en with valid := false } : KvEntry).bytes, bad0)] else [] }

/-- KV_READ_BEGIN (R184). -/
def execKvReadBegin (c : Fin 16) (i : Nat) (s : State) : Res :=
  lift (fun d => d.beginJob c i [0x23] kvReady fun j d => d.kvReadDo j) s

/-! ### KV_SELECT and KV_ATTEND -/

/-- The status of the checks of R175; 0 where they pass. -/
def kvGroupChecks (j : QJob) (x : Stream) : Nat :=
  let sel := j.type == 0x20
  let useSel := !sel && bitN (j.b1 3) 1
  if j.b1 1 = 0 ∨ 64 < j.b1 1 ∨ 2 < x.dcode ∨ x.npage = 0 ∨ 65536 < x.npage ∨ !bitN (j.b2 60) j.cl
      ∨ ((sel ∨ useSel) ∧ (j.b2 4 = 0 ∨ 4096 < j.b2 4))
      ∨ ((sel ∨ !useSel) ∧ (j.b4 12 = 0 ∨ x.npage < j.b4 8 + j.b4 12)) then 4
  else if (j.b1 2 % 32 ≠ 1 ∧ j.b1 2 % 32 ≠ 2) ∨ !([3, 4, 7].contains x.pfmt) then 1
  else 0

/-- Bytes of a partial record (R182). -/
def kvRecBytes (j : QJob) (x : Stream) : Nat := 64 + x.dim * (if bitN (j.b1 3) 0 then 2 else 4)

/-- The outputs that a group's lead writes for this job's descriptor. -/
def kvOutRange (j : QJob) (x : Stream) : Bool × Nat × Nat :=
  if j.type = 0x20 then (true, j.b8 32, 4 * j.b2 4) else (true, j.b8 40, j.b1 1 * kvRecBytes j x)

/-- A job that fails still knows outputs that may be written: their count and size are within limits and they pass the check of
R105. -/
def Dev.kvOutOk (d : Dev) (j : QJob) (x : Stream) : Bool :=
  decide (x.dcode ≤ 2) && decide (1 ≤ j.b1 1) && decide (j.b1 1 ≤ 64)
    && (j.type != 0x20 || (decide (1 ≤ j.b2 4) && decide (j.b2 4 ≤ 4096)))
    && d.jobAddr j true (kvOutRange j x).2.1 (kvOutRange j x).2.2

/-- A job of a group that ends with a status other than OK: it sends its result marked poisoned, and its record follows
the lead's outputs (R168), which are written where this job, or another of the group, knows outputs that may be (DESIGN CHOICE,
log entry 89); one whose CLMASK leaves its own cluster out ends at once. -/
def Dev.kvFail (d : Dev) (j : QJob) (st : Nat) (x : Option Stream) : Dev :=
  if j.inKvGroup then
    let (n, l) := match x with | some x => if d.kvOutOk j x then (x.dim, x.list) else (0, 0) | none => (0, 0)
    (d.sendBadKv j n l).running { q := j, status := st, wait := true }
  else d.endJob j st false 0 0

/-- The beginning of a KV_SELECT or KV_ATTEND: the stream is read and the checks made; `f` runs with the stream, the
queries and whether they, or the descriptors, are poisoned. -/
def Dev.kvBegin (d : Dev) (j : QJob) (f : Stream → List (List FV) → Bool → Dev → Dev) : Dev :=
  match d.jobAddrs j [(false, j.b8 16, 64)] with
  | some d1 => d1.kvFail j 2 none
  | none =>
    let (sb, d1) := d.readP (pgXC j.cl) j.dom (j.b8 16) 64
    let x := streamOf (sb.map (·.1))
    let st := kvGroupChecks j x
    if st ≠ 0 then d1.kvFail j st (some x)
    else
      let nq := j.b1 1
      let sel := j.type == 0x20
      let lead := (bitList (j.b2 60) 16).headD 0 == j.cl
      let use := !sel && bitN (j.b1 3) 1
      match d1.jobAddrs j ([(false, j.b8 24, nq * 2 * x.dim)]
          ++ [kvOutRange j x]
          ++ (if use then [(false, j.b8 32, 4 * j.b2 4)] else [(sel && lead && bitN (j.b1 3) 0, x.list, 16 * x.npage)])
          ++ if sel then [(false, x.sums, 4 * x.dim * x.npage)] else []) with
      | some d2 => d2.kvFail j 2 (some x)
      | none =>
        let (qb, d2) := d1.readP (pgXC j.cl) j.dom (j.b8 24) (nq * 2 * x.dim)
        let qs := (chunks x.dim (elems 2 qb (nq * x.dim)) (nq + 1)).map fun r => r.map fun e => decElem (j.b1 2 % 32) e.1
        f x qs (j.poison || sb.any (·.2) || qb.any (·.2)) d2

/-- Score of a page for the queries (R176). -/
def kvScore (qs : List (List FV)) (lo hi : List Nat) : Nat :=
  let bs := qs.map fun q =>
    (q.zip (lo.zip hi)).foldl (fun a (v, k) =>
      let up := match v with
        | .nan => false
        | v => !v.isNeg || v.isZero
      fma32 a (enc32 v) (bf16.dec (if up then k.2 else k.1))) 0
  if bs.any fun b => (fp32.dec b).isNan then fp32.nanCode else max32 bs

/-- The order of R177: forced first by entry, then by score. -/
def selLe (a b : Nat × Bool × Nat) : Bool :=
  if a.2.1 != b.2.1 then a.2.1
  else if a.2.1 then decide (a.1 ≤ b.1)
  else
    let x := fp32.dec a.2.2
    let y := fp32.dec b.2.2
    if x.isNan then y.isNan && decide (a.1 ≤ b.1)
    else if y.isNan then true
    else if x.cmp y = 0 then decide (a.1 ≤ b.1) else decide (0 < x.cmp y)

/-- Work positions of a job in its group: those that leave its place on division by the count (R167). -/
def shareOf (j : QJob) (n : Nat) : List Nat :=
  let us := bitList (j.b2 60) 16
  (List.range n).filter fun e => e % us.length = us.idxOf j.cl

/-- A KV_SELECT: the job's share of the candidates is scored, and its best sent to the lead (R175 to R178). -/
def Dev.kvSelectDo (d : Dev) (j : QJob) : Dev :=
  d.kvBegin j fun x qs qbad d =>
    let r := (shareOf j (j.b4 12)).foldl (fun (r : Dev × List (Nat × Bool × Nat) × Nat × Bool × Nat) p =>
      let (d, out, scored, bad, st) := r
      let e := j.b4 8 + p
      let (en, eb, d) := d.kvEntry j x e
      if !en.valid || en.count == 0 then (d, out, scored, bad || eb, st)
      else if !d.pageOk j.cove false en.page then
        ((d.s (pgXC j.cl + 0x200) 2 1 1).kvDenied j false x en.page, out, scored, true, if st = 0 then 2 else st)
      else
        let (sm, d) := if en.pin then (([] : List (Byte × Bool)), d)
          else d.readP (pgXC j.cl) j.dom (x.sums + e * 4 * x.dim) (4 * x.dim)
        let sbad := sm.any (·.2)
        if en.pin || sbad then
          let d := d.inc (pgXC j.cl + 0x848)
          (if sbad then d.s (pgXC j.cl + 0x200) 0 1 1 else d, out ++ [(e, true, 0)], scored, bad || eb, st)
        else
          let ks := (elems 2 sm (2 * x.dim)).map (·.1)
          (d.inc (pgXC j.cl + 0x840), out ++ [(e, false, kvScore qs (ks.take x.dim) (ks.drop x.dim))], scored + 1, bad || eb, st))
      (d, [], 0, qbad, 0)
    let m : KvMsg :=
      { kvMsgOf j with
        dim := x.dim, list := x.list, poison := r.2.2.2.1, bad := decide (r.2.2.2.2 ≠ 0)
        sel := (r.2.1.mergeSort selLe).take (j.b2 4) }
    (r.1.sendKv m).running { q := j, status := r.2.2.2.2, cb := r.2.2.1, wait := true }

/-- KV_SELECT_BEGIN (R175). -/
def execKvSelectBegin (c : Fin 16) (i : Nat) (s : State) : Res :=
  lift (fun d => d.beginJob c i [0x20] kvReady fun j d => d.kvSelectDo j) s

/-- Running values of one query (R181). -/
abbrev Att := Nat × Nat × List Nat

/-- The values before any page. -/
def attZero (dim : Nat) : Att := (0xff800000, 0, List.replicate dim 0)

/-- Two running values merged (R181). -/
def attMerge (x y : Att) : Att :=
  let m := max32 [x.1, y.1]
  let a := if x.1 = 0xff800000 then 0 else exp32 (add32 x.1 (neg32 m))
  let b := exp32 (add32 y.1 (neg32 m))
  (m, add32 (mul32 x.2.1 a) (mul32 y.2.1 b), List.zipWith (fun p q => add32 (mul32 p a) (mul32 q b)) x.2.2 y.2.2)

/-- One page for one query (R180): `q` and the keys and values as rows. -/
def attPage (qfmt soft sk sv : Nat) (q : List FV) (keys vals : List (List FV)) : Att :=
  let f := mul32 soft sk
  let ss := keys.map fun k => mul32 f (dotGroups 8 q k)
  let m := max32 ss
  let es := ss.map fun s => (encElem qfmt (fp32.dec (exp32 (add32 s (neg32 m)))) false none).code
  let l := es.foldl (fun a e => add32 a (enc32 (decElem qfmt e))) 0
  let ev := es.map (decElem qfmt)
  let cols := vals.map List.toArray
  (m, l, (List.range q.length).map fun c => mul32 sv (dotGroups 8 ev (cols.map fun r => r.getD c .nan)))

/-- A KV_ATTEND: the job's share of the pages is attended, and its running values sent to the lead (R179 to R181).
`order` is the order in which pages complete; pages it does not name follow in list order. -/
def Dev.kvAttendDo (d : Dev) (j : QJob) (order : List Nat) : Dev :=
  d.kvBegin j fun x qs qbad d =>
    let use := bitN (j.b1 3) 1
    let (sb, d) := if use then d.readP (pgXC j.cl) j.dom (j.b8 32) (4 * j.b2 4) else (([] : List (Byte × Bool)), d)
    let ents := if use then (elems 4 sb (j.b2 4)).map (·.1) else (List.range (j.b4 12)).map (j.b4 8 + ·)
    let mine := (shareOf j ents.length).map fun p => ents.getD p 0xffffffff
    let mine := (order.eraseDups.flatMap fun e => mine.filter (· == e)) ++ mine.filter fun e => !order.contains e
    let z : List Att := qs.map fun _ => attZero x.dim
    let r := mine.foldl (fun (r : Dev × List Att × Nat × Nat × Bool × Nat) e =>
      let (d, at', pages, toks, bad, st) := r
      if e = 0xffffffff then r
      else if x.npage ≤ e then (d.s (pgXC j.cl + 0x200) 2 1 1, at', pages, toks, true, if st = 0 then 4 else st)
      else if !d.xcAccess j.cl j.cove false (x.list + 16 * e) 16 then
        (d.jobAddrFail j false (x.list + 16 * e) 16, at', pages, toks, true, if st = 0 then 2 else st)
      else
        let (en, eb, d) := d.kvEntry j x e
        if !en.valid || en.count == 0 then (d, at', pages, toks, bad || eb, st)
        else if !d.pageOk j.cove false en.page then
          ((d.s (pgXC j.cl + 0x200) 2 1 1).kvDenied j false x en.page, at', pages, toks, true, if st = 0 then 2 else st)
        else
          let (kb, d) := d.readP (pgXC j.cl) j.dom en.page (en.count * x.tok)
          let (vb, d) := d.readP (pgXC j.cl) j.dom (en.page + 32768) (en.count * x.tok)
          let rows (b : List (Byte × Bool)) : List (List FV) :=
            (chunks x.dim ((elemsW x.w b (en.count * x.dim)).map fun k => decElem x.pfmt k.1) (en.count + 1))
          let ks := rows kb
          let vs := rows vb
          let at2 := (at'.zip qs).map fun (a, q) => attMerge a (attPage (j.b1 2 % 32) (j.b4 56) en.sk en.sv q ks vs)
          ((d.inc (pgXC j.cl + 0x84c)).incBy (pgXC j.cl + 0x850) en.count, at2, pages + 1, toks + en.count,
            bad || eb || kb.any (·.2) || vb.any (·.2), st))
      (d, z, 0, 0, qbad || sb.any (·.2), 0)
    let (d1, at1, pages, toks, bad, st) := r
    let m : KvMsg :=
      { kvMsgOf j with
        dim := x.dim, list := x.list, poison := bad, bad := decide (st ≠ 0), att := at1, pages := pages, tokens := toks }
    (d1.sendKv m).running { q := j, status := st, ca := pages, cb := toks, wait := true }

/-- KV_ATTEND_BEGIN (R179). -/
def execKvAttendBegin (c : Fin 16) (i : Nat) (order : List Nat) (s : State) : Res :=
  lift (fun d => d.beginJob c i [0x21] kvReady fun j d => d.kvAttendDo j order) s

/-- A group's outputs written by its lead from the results it holds; the answer says whether they are poisoned (R177,
R178, R181 to R183). -/
def Dev.kvOutputs (d : Dev) (got : List KvMsg) (tmo : Bool) : Dev × Bool × List Nat :=
  let bad := tmo || got.any fun m => m.poison || m.bad
  match got.find? fun m => decide (m.dim ≠ 0) with
  | none => (d, bad, [])
  | some g =>
    let lead := (bitList g.clmask 16).headD 0
    let dom := domOf g.cove
    let b2 (o : Nat) : Nat := leAt g.desc o 2
    let fl := leAt g.desc 3 1
    if g.type = 0x20 then
      let sel := ((got.flatMap (·.sel)).mergeSort selLe).take (b2 4)
      let d1 := if bitN fl 0 then d.each sel fun e d =>
          let a := g.list + 16 * e.1 + 6
          let (h, hb, d1) := d.memRead (pgXC lead) dom a 2
          d1.memWrite (pgXC lead) dom a (leBytes (min 65535 (leNat h + 1)) 2) hb else d
      let out := sel.map (·.1) ++ List.replicate (b2 4 - sel.length) 0xffffffff
      (d1.memWrite (pgXC lead) dom (leAt g.desc 32 8) (out.flatMap fun e => leBytes e 4) false, bad, sel.map (·.1))
    else
      let nq := leAt g.desc 1 1
      let o16 := bitN fl 0
      let good := got.filter fun m => decide (0 < m.pages)
      let pages := good.foldl (fun a m => a + m.pages) 0
      let toks := good.foldl (fun a m => a + m.tokens) 0
      let d1 := (List.range nq).foldl (fun d q =>
        let v := good.foldl (fun (a : Option Att) m =>
          let y := m.att.getD q (attZero g.dim)
          some (match a with | none => y | some x => attMerge x y)) none
        let (m, l, o) := v.getD (attZero g.dim)
        let cs := o.map fun x => encElem 1 (fp32.dec x) false none
        let d := if o16 then d.countCvt lead cs else d
        let ob := if o16 then cs.flatMap fun k => leBytes k.code 2 else o.flatMap fun x => leBytes x 4
        let rec' := leBytes m 4 ++ leBytes l 4 ++ leBytes (min 65535 pages) 2
          ++ [BitVec.ofNat 8 (b2n bad + 2 * b2n (pages == 0) + 4 * b2n o16), 0] ++ leBytes toks 4 ++ List.replicate 48 0 ++ ob
        let (d, _) := d.writeP lead dom (leAt g.desc 40 8 + q * (64 + g.dim * if o16 then 2 else 4)) (rec'.map (·, bad))
        if pages = 0 then d.inc (pgXC lead + 0x858) else d) d
      (d1, bad, [])

/-- The jobs of a group that wait are let end, with the group's poison, and TIMEOUT where it timed out; a KV_SELECT
counts its own share of the selection (R167, R168). -/
def Dev.kvRelease (d : Dev) (ty rgrp clmask : Nat) (bad tmo : Bool) (sel : List Nat) : Dev :=
  let mine := d.xc.run.filter fun r => r.wait && r.q.type == ty && r.q.b2 6 == rgrp && r.q.b2 60 == clmask
  d.each mine fun r d =>
    let us := bitList clmask 16
    let own := (sel.filter fun e => decide (r.q.b4 8 ≤ e) && (e - r.q.b4 8) % us.length == us.idxOf r.q.cl).length
    let d1 := if ty = 0x20 then d.incBy (pgXC r.q.cl + 0x844) own else d
    d1.setRun r.q.seq fun r =>
      { r with wait := false, poison := r.poison || bad, status := if tmo then 6 else r.status
               ca := if ty = 0x20 then own else r.ca }

/-- KV_GROUP_RESULT (R167): the `i`-th result on its way reaches the lead; the last of the c results completes the group. -/
def execKvGroupResult (i : Nat) (s : State) : Res :=
  lift (fun d =>
    match d.xc.kvmsgs[i]? with
    | none => d
    | some m =>
      if d.safe || !d.calm then d
      else
        let same (y : KvMsg) : Bool := y.type == m.type && y.rgrp == m.rgrp && y.clmask == m.clmask
        let got := d.xc.kvheld.filter same ++ [m]
        let d1 := { d with xc := { d.xc with kvmsgs := d.xc.kvmsgs.eraseIdx i, kvheld := d.xc.kvheld ++ [m] } }
        if got.length < popN m.clmask 16 then d1
        else
          let (d2, bad, sel) := d1.kvOutputs got false
          let d3 := { d2 with xc := { d2.xc with kvheld := d2.xc.kvheld.filter fun y => !same y } }
          d3.kvRelease m.type m.rgrp m.clmask bad false sel) s

/-- A group that lacks results is resolved: its outputs are written, poisoned, from those its lead holds, and its jobs are let
end: with TIMEOUT, or as they stand (R168). -/
def Dev.kvResolve (d : Dev) (ty rgrp clmask : Nat) (tmo : Bool) : Dev :=
  let same (y : KvMsg) : Bool := y.type == ty && y.rgrp == rgrp && y.clmask == clmask
  let got := d.xc.kvheld.filter same
  if got.isEmpty then d
  else
    let (d1, _, sel) := d.kvOutputs got true
    let d2 := { d1 with xc := { d1.xc with kvheld := d1.xc.kvheld.filter fun y => !same y } }
    (if tmo then d2.s (pgXC ((bitList clmask 16).headD 0) + 0x200) 1 1 1 else d2).kvRelease ty rgrp clmask true tmo sel

/-- The KV groups that jobs of a cove still wait for are resolved when its reset purges them (R168, R186): results on their way
have reached their leads. -/
def Dev.kvPurge (d : Dev) (cove : Nat) : Dev :=
  let d1 := { d with xc := { d.xc with kvmsgs := [], kvheld := d.xc.kvheld ++ d.xc.kvmsgs } }
  let mine := d.xc.run.filter fun r => r.q.cove == some cove && r.wait && r.q.inKvGroup
  if mine.isEmpty then d else d1.each mine fun r d => d.kvResolve r.q.type (r.q.b2 6) (r.q.b2 60) false

/-- KV_GROUP_TIMEOUT (R168): the outputs are written from the results held, poisoned, and the jobs complete with
TIMEOUT. -/
def execKvGroupTimeout (ty rgrp clmask : Nat) (s : State) : Res :=
  lift (fun d => if d.safe || !d.calm then d else d.kvResolve ty rgrp clmask true) s

end Sys2Proof.Machine
end

