-- ==== Sys2Proof/Machine/Exchange.lean ====
section
/-!
DEFINITION. Machine/Exchange.lean: the exchange unit: the placement map, dispatch, arrival, return, credits, and what
happens when a home device does not answer (chapter 5).
-/
namespace Sys2Proof.Machine

/-- The device's own number. -/
def Dev.me (d : Dev) : Nat := d.tide.dev

/-! ### The placement map -/

/-- Address of the active map image (R160), and active and previous generations. -/
def Dev.xmap (d : Dev) : Nat := (d.rdA (pgEMH + 0x604)).toNat + (d.rdA (pgEMH + 0x608)).toNat % 65536 * 2 ^ 32
def Dev.gen (d : Dev) : Nat := d.g (pgEMH + 0x60c) 0 16
def Dev.prevGen (d : Dev) : Nat := d.g (pgEMH + 0x60c) 16 16

/-- The image of a generation the device holds: the active one first (R145). -/
def Dev.mapOf (d : Dev) (gen : Nat) : Option Nat :=
  if gen = d.gen then some d.xmap else if gen = d.prevGen then some d.xch.prevMap else none

/-- What a lookup reads: NLAYER, E and OFFSET of the layer, the entry. -/
def Dev.mapReads (d : Dev) (base layer expert : Nat) : List (Nat × Nat) :=
  [(base + 4, 2), (base + 64 + 8 * layer, 2), (base + 68 + 8 * layer, 4)
    , (base + d.peekN (base + 68 + 8 * layer) 4 + 4 * expert, 4)]

/-- The reads of a lookup are verified (R199). -/
def Dev.mapLook (d : Dev) (dom base layer expert : Nat) : Dev :=
  d.each (d.mapReads base layer expert) fun r d => (d.memRead pgEMH dom r.1 r.2).2.2

/-- A map entry: home and replica device where valid; none where the layer or the expert lies outside (R133, R137), or
where a byte of the lookup reads poisoned (DESIGN CHOICE, log entry 90). -/
def Dev.mapEntry (d : Dev) (base layer expert : Nat) : Option (Option Nat × Option Nat) :=
  if d.peekN (base + 4) 2 ≤ layer ∨ d.peekN (base + 64 + 8 * layer) 2 ≤ expert
      ∨ (d.mapReads base layer expert).any fun r => d.anyBad r.1 r.2 then none
  else
    let e := d.peekN (base + d.peekN (base + 68 + 8 * layer) 4 + 4 * expert) 4
    some (if bitN e 10 then some (e % 1024) else none, if bitN e 26 then some (fieldN e 16 10) else none)

/-! ### The down set (R159) and credits (R149, R150) -/

def Dev.isDown (d : Dev) (dev : Nat) : Bool :=
  (List.range 16).any fun n => d.b (pgEMH + 0x640 + 4 * n) 31 && d.g (pgEMH + 0x640 + 4 * n) 0 10 == dev

/-- A device enters the down set where an entry is free; credits owed to it are discarded (R149, R159). -/
def Dev.enterDown (d : Dev) (dev : Nat) : Dev :=
  if d.isDown dev then d
  else
    match (List.range 16).find? fun n => !d.b (pgEMH + 0x640 + 4 * n) 31 with
    | none => d
    | some n =>
      let d1 := d.wr (pgEMH + 0x640 + 4 * n) (BitVec.ofNat 32 (dev % 1024 + 2 ^ 31))
      { d1 with xch := { d1.xch with owed := d1.xch.owed.filter (·.1 ≠ dev) } }

/-- Credits held for a target (R150). -/
def Dev.credit (d : Dev) (dev : Nat) : Nat := ((d.xch.credits.find? (·.1 == dev)).map (·.2)).getD d.xch.joinCredit
def Dev.setCredit (d : Dev) (dev n : Nat) : Dev :=
  { d with xch := { d.xch with credits := (dev, n) :: d.xch.credits.filter (·.1 ≠ dev) } }
/-- The CREDIT field of a message received is added (R150). -/
def Dev.addCredit (d : Dev) (dev n : Nat) : Dev := if n = 0 then d else d.setCredit dev (d.credit dev + n)

/-- A credit falls owed to an origin, but not to one in the down set or excluded (R149). -/
def Dev.owe (d : Dev) (dev conn n : Nat) : Dev :=
  if d.isDown dev || d.tide.excluded.contains dev || n == 0 then d
  else
    let o := match d.xch.owed.find? (·.1 == dev) with
      | none => (dev, conn, n, false)
      | some (_, c, k, l) => (dev, c, k + n, l)
    { d with xch := { d.xch with owed := d.xch.owed.filter (·.1 ≠ dev) ++ [o] } }

/-- All credit owed to an origin, to be carried by the message about to be sent. -/
def Dev.takeOwed (d : Dev) (dev : Nat) : Nat × Dev :=
  match d.xch.owed.find? (·.1 == dev) with
  | none => (0, d)
  | some (_, _, n, _) => (n, { d with xch := { d.xch with owed := d.xch.owed.filter (·.1 ≠ dev) } })

/-! ### Messages -/

/-- The 96 bytes of a dispatch header (Table 5.4). -/
def dispatchHead (s : Sel) (origin : Nat) (replica poison : Bool) (sels : List (Nat × Nat)) : List Byte :=
  [1, BitVec.ofNat 8 (b2n s.pbf + 2 * b2n poison + 4 * b2n replica)] ++ beBytes s.gen 2 ++ beBytes (origin % 1024) 2
    ++ beBytes s.layer 2 ++ beBytes s.batch 4
    ++ [BitVec.ofNat 8 s.token, BitVec.ofNat 8 sels.length, BitVec.ofNat 8 s.xfmt, BitVec.ofNat 8 s.ldiv]
    ++ beBytes s.tide.toNat 8 ++ beBytes s.part 8
    ++ (sels.flatMap fun e => beBytes e.1 2 ++ [BitVec.ofNat 8 e.2, 0]) ++ List.replicate (4 * (16 - sels.length)) 0

/-- The 32 bytes of a return, refusal or credit header (Table 5.5). -/
def returnHead (msg flags gen home credit batch token rank expert dest : Nat) : List Byte :=
  [BitVec.ofNat 8 msg, BitVec.ofNat 8 flags] ++ beBytes gen 2 ++ beBytes (home % 1024) 2 ++ beBytes (min 65535 credit) 2
    ++ beBytes batch 4 ++ [BitVec.ofNat 8 token, BitVec.ofNat 8 rank] ++ beBytes expert 2 ++ beBytes dest 8
    ++ List.replicate 8 0

/-- A new message number. -/
def Dev.xId (d : Dev) : Nat × Dev := (d.xch.nextId, { d with xch := { d.xch with nextId := d.xch.nextId + 1 } })

/-- Bytes of one element of a hidden state and of a partial. -/
def Sel.es (s : Sel) : Nat := elemBits s.xfmt / 8
def Sel.l (s : Sel) : Nat := 256 * s.ldiv
def Sel.ps (s : Sel) : Nat := if s.pbf then 2 else 4

/-- Landing address of a selection's partial (R140). -/
def Sel.dest (s : Sel) (replica : Bool) : Nat := s.part + ((if replica then 16 else 0) + s.rank) * s.l * s.ps

/-- Bytes stored with poison by the 256-byte piece. -/
def Dev.landP (d : Dev) (dom a : Nat) (l : List (Byte × Bool)) : Dev :=
  (Dev.writeP.go a l (l.length / 256 + 2)).foldl (fun d p =>
    d.memWrite pgEMH dom p.1 (p.2.map (·.1)) (p.2.any (·.2))) d

/-! ### Landing slots and arrivals -/

def Dev.slotSize (d : Dev) : Nat := 4096 * 2 ^ d.g (pgEMH + 0x614) 0 3
def Dev.slotCount (d : Dev) : Nat := d.g (pgEMH + 0x610) 10 11 * 65536 / d.slotSize
def Dev.landBase (d : Dev) : Nat := harbBase + d.g (pgEMH + 0x610) 0 10 * 65536
def Dev.slotAddrOf (d : Dev) (n : Nat) : Nat := d.landBase + n * d.slotSize

/-- The lowest free landing slot. -/
def Dev.freeSlot (d : Dev) : Option Nat :=
  (List.range d.slotCount).find? fun n =>
    !(d.xch.arrivals.any fun a => a.slot == n) && !d.xch.pre.any fun p => p.2.2.1 == some n

/-- An arrival record written at the producer position, PHASE last (R146). Where the entry's earlier arrival still holds its
slot, that slot is freed and no credit falls owed for it (DESIGN CHOICE, log entry 92). -/
def Dev.writeArrival (d : Dev) (a : Arrival) (layer xfmt : Nat) (tide : Nat) : Dev :=
  let log := d.g (pgEMH + 0x620) 0 5
  let i := d.g (pgEMH + 0x624) 0 16 % 2 ^ log
  let base := d.rd64 (pgEMH + 0x618) % 2 ^ 48 + 128 * i
  let l := leBytes a.origin 2 ++ leBytes a.gen 2 ++ leBytes layer 2 ++ [BitVec.ofNat 8 a.flags, BitVec.ofNat 8 a.sels.length]
    ++ leBytes a.batch 4 ++ [BitVec.ofNat 8 a.token, BitVec.ofNat 8 xfmt, BitVec.ofNat 8 a.ldiv]
    ++ [BitVec.ofNat 8 (b2n d.xch.phase)] ++ leBytes tide 8 ++ leBytes (d.slotAddrOf a.slot) 8 ++ leBytes a.part 8
    ++ leBytes a.conn 2 ++ List.replicate 22 0 ++ (a.sels.flatMap fun e => leBytes e.1 2 ++ [BitVec.ofNat 8 e.2, 0])
    ++ List.replicate (4 * (16 - a.sels.length)) 0
  let d1 := (d.emhStore (domOf a.cove) base l false).s (pgEMH + 0x624) 0 16 ((i + 1) % 2 ^ log)
  { d1 with xch := { d1.xch with
      arrivals := d1.xch.arrivals.filter (·.idx ≠ i) ++ [{ a with idx := i }]
      phase := if i + 1 = 2 ^ log then !d1.xch.phase else d1.xch.phase } }

/-- A landing slot freed: its credit falls owed to the origin, but not to this device itself (R148, R539). -/
def Dev.freeArrival (d : Dev) (idx : Nat) (owe : Bool) : Dev :=
  match d.xch.arrivals.find? (·.idx == idx) with
  | none => d
  | some a =>
    let d1 := { d with xch := { d.xch with arrivals := d.xch.arrivals.filter (·.idx ≠ idx) } }
    if owe && a.origin != d.me then d1.owe a.origin a.conn 1 else d1

/-! ### Jobs of the exchange unit -/

/-- An access of the exchange unit for a job: device memory, harbour or cluster SRAM, in the cove's ranges (R105). -/
def Dev.xAccess (d : Dev) (j : QJob) (w : Bool) (a n : Nat) : Bool :=
  d.rangeOk j.cove w a n && !(w && inSlots a n)
where inSlots (a n : Nat) : Bool :=
  match areaOf (a + n - 1) with
  | .sram k => decide (sramBase k + 0xfbf000 < a + n)
  | _ => false
def Dev.xAddr (d : Dev) (j : QJob) (w : Bool) (a n : Nat) : Bool := a % 64 == 0 && d.xAccess j w a n

/-- A range that failed for its cove is counted (R324); a write into the check region is dropped and recorded (R35). -/
def Dev.emhDeny (d : Dev) (cove : Option Nat) (w : Bool) (a n : Nat) : Dev :=
  let d1 := match cove with
    | some k => if inMap a n && !d.inCove k w a n then d.deny k else d
    | none => d
  if w && areaOf a == .check then d1.accessDenied pgEMH none (domOf cove) a 0x00330000 else d1
def Dev.xAddrFail (d : Dev) (j : QJob) (w : Bool) (a n : Nat) : Dev := d.emhDeny j.cove w a n

/-- An exchange job ends with its record (R141, R147). -/
def Dev.xEnd (d : Dev) (j : QJob) (status : Nat) (poison : Bool) (ca cb : Nat) : Dev :=
  if d.coveLives j.cove then d.memWrite pgEMH j.dom j.cmpl (cmplRecord status (b2n poison) ca cb j.addr) false else d

def Dev.xRunJob (d : Dev) (r : XJob) : Dev := { d with xch := { d.xch with run := d.xch.run ++ [r] } }
def Dev.setXJob (d : Dev) (seq : Nat) (f : XJob → XJob) : Dev :=
  { d with xch := { d.xch with run := d.xch.run.map fun r => if r.q.seq = seq then f r else r } }

/-- A message is settled: its job waits for it no more. -/
def Dev.xSettle (d : Dev) (id : Nat) : Dev :=
  { d with xch := { d.xch with run := d.xch.run.map fun r => { r with waiting := r.waiting.filter (· ≠ id) } } }

/-- The `i`-th queued exchange job begins (R109, Table 5.9): its CMPL is checked first; while XCTL.EN is 0 it completes
with DISABLED. -/
def Dev.xBegin (d : Dev) (i ty : Nat) (f : QJob → Dev → Dev) : Dev :=
  match d.xch.queue[i]? with
  | none => d
  | some j =>
    if !(d.live && d.calm && d.starts pgEMH) || j.foreign || j.type != ty then d
    else
      let d1 := { d with xch := { d.xch with queue := d.xch.queue.eraseIdx i } }
      if !d1.xAddr j true j.cmpl 16 then d1.xAddrFail j true j.cmpl 16
      else if !d1.b (pgEMH + 0x600) 0 then d1.xEnd j 0x10 false 0 0
      else f j d1

/-- BAD_TYPE_JOB_BEGIN (R104, R237): the job stands in the queue of cluster `c`, or in the exchange unit's where `c` is
16. -/
def execBadTypeJobBegin (c : Fin 17) (i : Nat) (s : State) : Res :=
  lift (fun d =>
    if c.val < 16 then d.badType c i
    else
      match d.xch.queue[i]? with
      | none => d
      | some j =>
        if !(d.live && d.calm && d.starts pgEMH) || (!j.foreign && [0x10, 0x11].contains j.type) then d
        else
          let d1 := { d with xch := { d.xch with queue := d.xch.queue.eraseIdx i } }
          if d1.xAddr j true j.cmpl 16 then d1.xEnd j 7 false 0 0 else d1.xAddrFail j true j.cmpl 16) s

/-! ### Selections: expiry, re-dispatch, closing -/

/-- Is this selection the one of a batch, token and rank? -/
def Sel.isAt (s : Sel) (batch token rank : Nat) : Bool := s.batch == batch && s.token == token && s.rank == rank

def Dev.setSel (d : Dev) (s : Sel) : Dev :=
  { d with xch := { d.xch with sels := d.xch.sels.map fun x => if x.isAt s.batch s.token s.rank && x.job == s.job then s else x } }

/-- A combine job with the batch runs on this device. -/
def Dev.combRuns (d : Dev) (batch : Nat) : Bool := d.xc.combs.any (·.batch == batch)

/-- The selections of a message that are open and unreturned where it took them. -/
def Dev.openOf (d : Dev) (m : XMsg) : List Sel :=
  d.xch.sels.filter fun s => s.job == m.job && s.token == m.token && m.ranks.contains s.rank && !s.returned
    && (if m.replica then s.repl else s.home) == some m.target

/-- Delivered messages with no selection open and unreturned any more are done with. -/
def Dev.pruneMsgs (d : Dev) : Dev :=
  { d with xch := { d.xch with msgs := d.xch.msgs.filter fun m => m.phase ≠ 2 || !(d.openOf m).isEmpty } }

/-- With no combine job of its batch running, a dispatch job's selections close once every one has returned or expired
(R142). -/
def Dev.closeDone (d : Dev) : Dev :=
  let l := d.xch.sels
  let keep := l.filter fun s => d.combRuns s.batch || l.any fun x => x.job == s.job && !x.returned
  ({ d with xch := { d.xch with sels := keep } } : Dev).pruneMsgs

/-- A combine job with a batch has ended: once no other one runs with it, its selections close (R142). -/
def Dev.closeBatch (d : Dev) (batch : Nat) : Dev :=
  if d.combRuns batch then d
  else ({ d with xch := { d.xch with sels := d.xch.sels.filter (·.batch ≠ batch) } } : Dev).pruneMsgs

/-- A selection expires (R157): its entry is accepted with POISON, it is closed, and one record names the target and
layer. -/
def Dev.expire (d : Dev) (s : Sel) (target : Nat) : Dev :=
  let sels := d.xch.sels.filter fun x => !(x.isAt s.batch s.token s.rank && x.job == s.job)
  let run := d.xch.run.map fun (r : XJob) => if r.q.seq = s.job then { r with failed := true } else r
  let d1 := { d with xch := { d.xch with sels := sels, run := run } }
  let d2 := (d1.inc (pgEMH + 0x910)).expireEntry s.batch s.token s.rank
  (d2.report pgEMH none 0x0006 (domOf s.cove) target s.layer).closeDone

/-- A new dispatch message queued for its target (R138, R150); one for which no credit is left by those before it is
counted. -/
def Dev.queueMsg (d : Dev) (s : Sel) (target : Nat) (replica : Bool) (ranks : List Nat) : Dev :=
  let (id, d1) := d.xId
  let m : XMsg := { id := id, job := s.job, cove := s.cove, target := target, replica := replica, batch := s.batch
                    token := s.token, ranks := ranks }
  let wait := decide (d1.credit target ≤ (d1.xch.msgs.filter fun x => x.target == target && x.phase == 0).length)
  let d2 := if wait then d1.inc (pgEMH + 0x91c) else d1
  let d3 := { d2 with xch := { d2.xch with msgs := d2.xch.msgs ++ [m] } }
  d3.setXJob s.job fun r => { r with waiting := r.waiting ++ [id] }

/-- A re-dispatch to this device itself (R539): a free slot, the hidden state copied from X, an arrival of one selection;
with no slot free the selection expires. No connection brings it: CONN of its record is 0 (DESIGN CHOICE, log entry 91). -/
def Dev.localReplica (d0 : Dev) (s0 : Sel) (target : Nat) : Dev :=
  match d0.freeSlot with
  | none => d0.expire s0 target
  | some n =>
    let s := { s0 with repl := some d0.me }
    let d := (d0.setSel s).inc (pgEMH + 0x90c)
    let len := s.l * s.es
    let (b, d1) := d.readP pgEMH (domOf s.cove) s.x len
    let d2 := d1.landP (domOf s.cove) (d1.slotAddrOf n) b
    let bad := b.any (·.2)
    let a : Arrival :=
      { idx := 0, origin := d.me, gen := s.gen, batch := s.batch, token := s.token
        flags := b2n s.pbf + 2 * b2n bad + 4, ldiv := s.ldiv, part := s.part, slot := n, conn := 0, cove := s.cove
        sels := [(s.expert, s.rank)] }
    let d3 := d2.writeArrival a s.layer s.xfmt s.tide.toNat
    let (id, d4) := d3.xId
    let m : XMsg := { id := id, job := s.job, cove := s.cove, target := d.me, replica := true, batch := s.batch
                      token := s.token, ranks := [s.rank], phase := 2 }
    { d4 with xch := { d4.xch with msgs := d4.xch.msgs ++ [m] } }

/-- What R157 does with a selection declared unreachable that no message can carry to a replica: it goes to the replica on
this device itself, or expires; `replica` says which leg failed. -/
def Dev.rescue (d : Dev) (s : Sel) (replica : Bool) (target : Nat) : Dev :=
  if replica || s.alt != some d.me || d.isDown d.me then d.expire s target
  else d.localReplica s target

/-- The replica on another device that R157 sends a selection of a failed message to. -/
def Dev.redirect (d : Dev) (m : XMsg) (s : Sel) : Option Nat :=
  if m.replica then none else s.alt.filter fun r => !d.isDown r && r != d.me

/-- Selections of one failed message with one replica: one message carries them all (R138, R157). -/
def Dev.resend (d : Dev) (r : Nat) (l : List Sel) : Dev :=
  let d1 := (d.each l fun s d => d.setSel { s with repl := some r }).incBy (pgEMH + 0x90c) l.length
  match l with
  | [] => d
  | s :: _ => d1.queueMsg { s with repl := some r } r true (l.map (·.rank))

/-- A message given up: it is settled, and its open selections are re-dispatched or expired (R157). -/
def Dev.dropMsg (d : Dev) (m : XMsg) : Dev :=
  let l := d.openOf m
  let d1 := { d with xch := { d.xch with msgs := d.xch.msgs.filter (·.id ≠ m.id) } }
  let d2 := d1.each (l.filter fun s => (d.redirect m s).isNone) fun s d => d.rescue s m.replica m.target
  let d3 := d2.each (l.filterMap (d.redirect m)).eraseDups fun r e => e.resend r (l.filter fun s => d.redirect m s == some r)
  d3.xSettle m.id

/-- A target declared unreachable for a message (R156): unless it refused, it enters the down set and every other open
selection at it is unreachable at the same moment. -/
def Dev.unreachable (d : Dev) (m : XMsg) (down : Bool) : Dev :=
  if !(d.xch.msgs.any (·.id == m.id)) then d else
  let d1 := if down && m.target != d.me then d.enterDown m.target else d
  let l := if down && d1.isDown m.target then m :: d.xch.msgs.filter fun x => x.target == m.target && x.id != m.id else [m]
  d1.each l fun x d => d.dropMsg x

/-- The context `c` of the exchange with a peer and owner has failed: the target is unreachable for the messages it carried
and, where no other is ESTABLISHED, for those that wait (R156). -/
def Dev.xConnFailed (d : Dev) (c peer : Nat) (owner : Option Nat) : Dev :=
  let none' := (d.findCtx 1 peer owner).isNone
  d.each (d.xch.msgs.filter fun m => m.target == peer && m.cove == owner && (if m.phase = 0 then none' else m.conn == c))
    fun m d => d.unreachable m true

/-- A device is excluded from the domain (R152, R462): it enters the down set, its credits and those owed to it are
discarded, and the dispatches that wait for it fail (R156). -/
def Dev.excludePeer (d : Dev) (dev : Nat) : Dev :=
  let t := { d.tide with excluded := if d.tide.excluded.contains dev then d.tide.excluded else d.tide.excluded ++ [dev] }
  let d1 := (({ d with tide := t } : Dev).enterDown dev).setCredit dev 0
  let d2 := { d1 with xch := { d1.xch with owed := d1.xch.owed.filter (·.1 ≠ dev) } }
  d2.each (d2.xch.msgs.filter fun m => m.target == dev && m.phase == 0) fun m d => d.unreachable m true

/-! ### Dispatch at the origin -/

/-- How a selection is resolved (R137): its target and whether it goes as a replica, and the replica that stays open to
it. -/
def Dev.resolve (d : Dev) (e : Option (Option Nat × Option Nat)) : Option (Nat × Bool) × Option Nat :=
  match e with
  | none => (none, none)
  | some (h, r) =>
    match h with
    | some x => if !d.isDown x then (some (x, false), r) else (viaRepl r, none)
    | none => (viaRepl r, none)
where viaRepl (r : Option Nat) : Option (Nat × Bool) :=
  match r with
  | some y => if d.isDown y then none else some (y, true)
  | none => none

/-- Ranges of a dispatch job beyond its CMPL; PART lies in the harbour, 256-byte aligned, clear of the landing area
(R139). -/
def Dev.partOk (d : Dev) (j : QJob) (n : Nat) : Bool :=
  let p := j.b8 40
  let lb := d.landBase
  let le := lb + d.g (pgEMH + 0x610) 10 11 * 65536
  inHarbour p n && p % 256 == 0 && (decide (p + n ≤ lb) || decide (le ≤ p)) && d.xAccess j true p n

/-- Parameters a dispatch job may not have (R139). -/
def Dev.dispatchBad (d : Dev) (j : QJob) : Bool :=
  j.b1 1 == 0 || decide (16 < j.b1 1) || j.b1 2 == 0 || decide (16 < j.b1 2) || j.b1 6 == 0 || decide (128 < j.b1 6)
    || decide (d.peekN (d.xmap + 4) 2 ≤ j.b2 4 % 4096) || d.anyBad (d.xmap + 4) 2 || decide (2 < j.b1 3 % 32)

/-- The ranges a dispatch job reads (R105), and the bytes of its partials (R139). -/
def dispatchReads (j : QJob) : List (Nat × Nat) :=
  [(j.b8 16, j.b1 1 * 128), (j.b8 24, j.b1 1 * (256 * j.b1 6) * (elemBits (j.b1 3 % 32) / 8))]
def dispatchPart (j : QJob) : Nat := j.b1 1 * 32 * (256 * j.b1 6) * (if bitN (j.b1 7) 0 then 2 else 4)

/-- A dispatch job whose checks have passed: every selection is resolved; local ones go on the list, remote ones into
messages, failed ones expire (R137 to R140). -/
def Dev.dispatchDo (d : Dev) (j : QJob) : Dev :=
  let nt := j.b1 1
  let k := j.b1 2
  let xf := j.b1 3 % 32
  let layer := j.b2 4 % 4096
  let ldiv := j.b1 6
  let pbf := bitN (j.b1 7) 0
  let l := 256 * ldiv
  let es := elemBits xf / 8
  let ps := if pbf then 2 else 4
  let base := d.xmap
  let (rb, d0) := d.readP pgEMH j.dom (j.b8 16) (nt * 128)
  let rl := rb.map (·.1)
  let d1 := d0.each ((List.range nt).flatMap fun t => (List.range k).map fun r => leAt rl (128 * t + 8 * r + 4) 2) fun e d =>
    d.mapLook j.dom base layer e
  let all : List (Sel × Option (Nat × Bool)) := (List.range nt).flatMap fun t =>
    (List.range k).filterMap fun r =>
      let o := 128 * t + 8 * r
      let e := leAt rl (o + 4) 2
      if bitN (leAt rl (o + 6) 1) 0 then none
      else
        let (dst, alt) := d1.resolve (d1.mapEntry base layer e)
        let x : Sel :=
          { job := j.seq, cove := j.cove, batch := j.b4 8, layer := layer, gen := d1.gen, token := t, rank := r
            expert := e, alt := alt, x := j.b8 24 + t * l * es, xfmt := xf, ldiv := ldiv, pbf := pbf
            part := j.b8 40 + t * 32 * l * ps, tide := d1.tide.cur
            home := match dst with | some (y, false) => some y | _ => none
            repl := match dst with | some (y, true) => some y | _ => none }
        some (x, dst)
  let mine (x : Sel × Option (Nat × Bool)) : Bool := match x.2 with | some (y, _) => y == d1.me | none => false
  let locals := all.filter mine
  let remote : List (Sel × Option (Nat × Bool)) := all.filter fun x => !mine x
  let ln := 4 * locals.length
  if ln ≠ 0 ∧ !d1.xAddr j true (j.b8 32) ln then (d1.xAddrFail j true (j.b8 32) ln).xEnd j 2 false 0 0
  else
    let d2 := if ln = 0 then d1 else d1.memWrite pgEMH j.dom (j.b8 32)
      (locals.flatMap fun x => leBytes x.1.expert 2 ++ [BitVec.ofNat 8 x.1.token, BitVec.ofNat 8 x.1.rank]) false
    let d3 := d2.xRunJob { q := j, nlocal := locals.length, poison := j.poison }
    let d4 := { d3 with xch := { d3.xch with sels := d3.xch.sels ++ List.map Prod.fst remote } }
    let keys := (remote.filterMap fun x => x.2.map fun y => (x.1.token, y)).eraseDups
    let d5 := d4.each keys fun key d =>
      let g := remote.filter fun x => x.1.token == key.1 && x.2 == some key.2
      match g with
      | [] => d
      | x :: _ => d.queueMsg x.1 key.2.1 key.2.2 (g.map (·.1.rank))
    d5.each (remote.filter (·.2.isNone)) fun x d => d.expire x.1 (named (d1.mapEntry base layer x.1.expert))
where named (e : Option (Option Nat × Option Nat)) : Nat :=
  match e with
  | some (some h, _) => h
  | some (none, some r) => r
  | _ => 0

/-- DISPATCH_JOB_BEGIN (R137 to R140): the checks, then the job's beginning. -/
def execDispatchJobBegin (i : Nat) (s : State) : Res :=
  lift (fun d => d.xBegin i 0x10 fun j d =>
    if d.dispatchBad j then d.xEnd j 4 false 0 0
    else if !d.partOk j (dispatchPart j) then (d.xAddrFail j true (j.b8 40) (dispatchPart j)).xEnd j 2 false 0 0
    else match (dispatchReads j).find? fun r => !d.xAddr j false r.1 r.2 with
      | some r => (d.xAddrFail j false r.1 r.2).xEnd j 2 false 0 0
      | none => d.dispatchDo j) s

/-- A dispatch message sent on a context: the hidden state is read, a credit taken (R143, R144, R150). -/
def Dev.dispatchOut (d : Dev) (target : Nat) (m : XMsg) (x : Sel) (rest : List Sel) (c : Nat) : Dev :=
  let (b, d1) := d.readP pgEMH (domOf m.cove) x.x (x.l * x.es)
  let bad := b.any (·.2)
  let head := dispatchHead x d1.me m.replica bad ((x :: rest).map fun y => (y.expert, y.rank))
  let d2 := (d1.setCredit target (d1.credit target - 1)).inc (pgEMH + 0x900)
  let msgs := d2.xch.msgs.map fun y => if y.id = m.id then { y with phase := 1, conn := c } else y
  let d3 := { d2 with xch := { d2.xch with msgs := msgs } }
  let d4 := d3.setXJob m.job fun r => { r with sent := r.sent + 1, poison := r.poison || bad }
  d4.sendMsg c head (b.map (·.1)) bad m.id (some x.x)

/-- DISPATCH_SEND (R143, R144, R150): the oldest message waiting for a target is sent once a credit is available; with no
context to the target it counts as failed (R377). -/
def execDispatchSend (target : Nat) (s : State) : Res :=
  lift (fun d =>
    match d.xch.msgs.find? fun m => m.target == target && m.phase == 0 with
    | none => d
    | some m =>
      if !d.takesWork || d.credit target == 0 then d
      else
        match d.openOf m with
        | [] => ({ d with xch := { d.xch with msgs := d.xch.msgs.filter (·.id ≠ m.id) } } : Dev).xSettle m.id
        | x :: rest =>
          match d.findCtx 1 target m.cove with
          | none => d.unreachable m true
          | some c => d.dispatchOut target m x rest c) s

/-- An exchange message of this device has been delivered: every packet of it is acknowledged. -/
def Dev.xDelivered (d : Dev) (id : Nat) : Dev :=
  let msgs := d.xch.msgs.map fun y => if y.id = id && y.phase = 1 then { y with phase := 2 } else y
  (({ d with xch := { d.xch with msgs := msgs } } : Dev).xSettle id).pruneMsgs

/-- Emham ended an exchange message with a status of Table 14.6 (R147, R156). -/
def Dev.xFailed (d : Dev) (id status : Nat) : Dev :=
  match d.xch.msgs.find? (·.id == id) with
  | some m => d.unreachable m true
  | none =>
    let run := d.xch.run.map fun (r : XJob) =>
      if r.waiting.contains id && r.status == 0 then { r with status := status } else r
    ({ d with xch := { d.xch with run := run } } : Dev).xSettle id

/-- DISPATCH_JOB_COMPLETE (R141): every message of the job is settled; its record is written. -/
def execDispatchJobComplete (seq : Nat) (s : State) : Res :=
  lift (fun d =>
    match d.xch.run.find? fun r => r.q.seq == seq && r.q.type == 0x10 && r.waiting.isEmpty with
    | none => d
    | some r =>
      if !d.calm then d else
      let d1 := { d with xch := { d.xch with run := d.xch.run.filter (·.q.seq ≠ seq) } }
      d1.xEnd r.q (if r.failed then 6 else 0) (r.failed || r.poison) r.nlocal r.sent) s

/-- XDISP_TIMEOUT (R156): a message that has waited XDISP_TMO for credit and delivery. -/
def execXdispTimeout (id : Nat) (s : State) : Res :=
  lift (fun d =>
    match d.xch.msgs.find? fun m => m.id == id && m.phase < 2 with
    | none => d
    | some m => if d.safe then d else d.unreachable m true) s

/-- XRET_TIMEOUT (R156): a delivered message has a selection open and unreturned after XRET_TMO. -/
def execXretTimeout (id : Nat) (s : State) : Res :=
  lift (fun d =>
    match d.xch.msgs.find? fun m => m.id == id && m.phase == 2 with
    | none => d
    | some m => if d.safe || (d.openOf m).isEmpty then d else d.unreachable m true) s

/-- XDOWN_CLEAR (R159): a write of 1 to XDOWNn.VALID. -/
def execXdownClear (n : Fin 16) (s : State) : Res := lift (fun d => d.onReg (pgEMH + 0x640 + 4 * n) fun d => d.sb (pgEMH + 0x640 + 4 * n) 31 false) s

/-! ### The home device -/

/-- Is it the complete message of a context, with that MSN where one is named? -/
def XIn.isOf (x : XIn) (conn : Nat) (msn : Option Nat) (head body : List Byte) (poison : Bool) : Bool :=
  x.conn == conn && msn.all (· == x.msn) && x.head == head && x.body == body && x.poison == poison

/-- An exchange message delivered to this device is taken from those waiting. -/
def Dev.takeXin (d : Dev) (conn : Nat) (msn : Option Nat) (head body : List Byte) (poison : Bool) : Dev :=
  { d with emh := { d.emh with xin := d.emh.xin.eraseP fun x => x.isOf conn msn head body poison } }

/-- The packets that brought a complete message; of one that no packet brought, those a KM1612 sends it in (R143). -/
def Dev.xinPkts (d : Dev) (conn msn : Nat) (head body : List Byte) (poison : Bool) : Nat :=
  match d.emh.xin.find? fun x => x.isOf conn (some msn) head body poison with
  | some x => x.pkts
  | none => max 1 ((body.length + 4095 - head.length) / (4096 - head.length))

/-- Does the map of a generation name this device for a selection? -/
def Dev.serves (d : Dev) (gen layer expert : Nat) (replica : Bool) : Bool :=
  match d.mapOf gen with
  | none => false
  | some b =>
    match d.mapEntry b layer expert with
    | none => false
    | some (h, r) => (if replica then r else h) == some d.me

/-- Selections of a dispatch header. -/
def headSels (h : List Byte) : List (Nat × Nat) :=
  (List.range (min 16 (beAt h 13 1))).map fun i => (beAt h (32 + 4 * i) 2, beAt h (34 + 4 * i) 1)

/-- Why the header of a dispatch is refused (Table 5.5), 0 where it is not. Where several reasons hold the first in this
order is given (DESIGN CHOICE, log entry 93). -/
def Dev.dispatchWhy (d : Dev) (h : List Byte) (bodyLen : Nat) : Nat :=
  let gen := beAt h 2 2
  let xf := beAt h 14 1 % 32
  let ldiv := beAt h 15 1
  if (d.mapOf gen).isNone then 2
  else if !(headSels h).any fun e => d.serves gen (beAt h 6 2 % 4096) e.1 (bitN (beAt h 1 1) 2) then 1
  else if 2 < xf ∨ ldiv = 0 ∨ 128 < ldiv ∨ d.slotSize < bodyLen then 4
  else 0

/-- Why a dispatch is refused, or the slot it lands in (R145, Table 5.9): with XCTL.EN 0 before every other reason, for want
of a slot after them (DESIGN CHOICE, log entry 93). -/
def Dev.admitDispatch (d : Dev) (h : List Byte) (bodyLen : Nat) : Option Nat × Nat :=
  let why := d.dispatchWhy h bodyLen
  if !d.b (pgEMH + 0x600) 0 then (none, 4)
  else if why ≠ 0 then (none, why)
  else
    match d.freeSlot with
    | none => (none, 5)
    | some n => (some n, 0)

/-- The map entries that the selections of a dispatch header name are read and verified (R199). -/
def Dev.headLook (d : Dev) (dom : Nat) (h : List Byte) : Dev :=
  match d.mapOf (beAt h 2 2) with
  | none => d
  | some b => d.each (headSels h) fun e d => d.mapLook dom b (beAt h 6 2 % 4096) e.1

/-- A packet of a dispatch message, whose header it carries (R143): the first one allocates its slot, or decides its refusal
(R146); a later one whose own header is refused turns the message into a refused one (DEDUCED, log entry 96). -/
def Dev.dispatchPkt (d0 : Dev) (conn msn : Nat) (h : List Byte) (bodyLen : Nat) : Dev :=
  let d := d0.headLook (domOf (d0.cOwner conn)) h
  match d.xch.pre.find? fun p => p.1 == conn && p.2.1 == msn with
  | none =>
    let (slot, why) := d.admitDispatch h bodyLen
    { d with xch := { d.xch with pre := d.xch.pre ++ [(conn, msn, slot, why)] } }
  | some _ =>
    let why := d.dispatchWhy h bodyLen
    if why = 0 then d
    else
      let l := d.xch.pre.map fun p => if p.1 == conn && p.2.1 == msn && p.2.2.1.isSome then (p.1, p.2.1, none, why) else p
      { d with xch := { d.xch with pre := l } }

/-- A RETURN, REFUSE or CREDIT message sent on a context. -/
def Dev.sendReturn (d : Dev) (c : Nat) (head body : List Byte) (poison : Bool) (id : Nat)
    (src : Option Nat := none) : Dev := d.sendMsg c head body poison id src

/-- The slot of a dispatch message, or why it is refused: decided at its first packet, or now (R146). -/
def Dev.slotFor (d : Dev) (conn msn : Nat) (head body : List Byte) : Option Nat × Nat :=
  match d.xch.pre.find? fun p => p.1 == conn && p.2.1 == msn with
  | some (_, _, x, y) => (x, y)
  | none => d.admitDispatch head body.length

/-- A dispatch message lands in its slot and an arrival record is written (R146). -/
def Dev.dispatchIn (d : Dev) (conn : Nat) (head body : List Byte) (poison : Bool) (k : Nat) : Dev :=
  let gen := beAt head 2 2
  let rep := bitN (beAt head 1 1) 2
  let layer := beAt head 6 2 % 4096
  let bad := poison || bitN (beAt head 1 1) 1
  let cove := d.cOwner conn
  let d2 := d.landP (domOf cove) (d.slotAddrOf k) (body.map fun b => (b, bad))
  let a : Arrival :=
    { idx := 0, origin := beAt head 4 2 % 1024, gen := gen, batch := beAt head 8 4, token := beAt head 12 1
      flags := beAt head 1 1, ldiv := beAt head 15 1, part := beAt head 24 8, slot := k, conn := conn, cove := cove
      sels := (headSels head).map fun e => if d.serves gen layer e.1 rep then e else (e.1, 0xff) }
  d2.writeArrival a layer (beAt head 14 1) (beAt head 16 8)

/-- A dispatch message refused, with its credit (R145). -/
def Dev.dispatchRefuse (d : Dev) (conn : Nat) (head : List Byte) (why : Nat) : Dev :=
  let (n, d2) := d.takeOwed (beAt head 4 2 % 1024)
  d2.sendReturn conn (returnHead 3 (4 * b2n (bitN (beAt head 1 1) 2)) (beAt head 2 2) d.me (n + 1) (beAt head 8 4)
    (beAt head 12 1) 0xff why 0) [] false 0

/-- DISPATCH_MSG (R145, R146): a complete dispatch message lands in its slot, or is refused. -/
def execDispatchMsg (conn msn : Nat) (head body : List Byte) (poison : Bool) (s : State) : Res :=
  lift (fun d =>
    if !d.takesWork then d
    else
      let d0 := d.takeXin conn (some msn) head body poison
      let (slot, why) := d0.slotFor conn msn head body
      let d1 := { d0 with xch := { d0.xch with pre := d0.xch.pre.eraseP fun p => p.1 == conn && p.2.1 == msn } }
      match slot with
      | none => d1.dispatchRefuse conn head why
      | some k => d1.dispatchIn conn head body poison k) s

/-- Index of the arrival record a return job names; none where it names none (R147). -/
def Dev.returnIdx (d : Dev) (j : QJob) : Option Nat :=
  let arr := j.b8 8
  let base := d.rd64 (pgEMH + 0x618) % 2 ^ 48
  let idx := (arr - base) / 128
  if arr < base ∨ (arr - base) % 128 ≠ 0 ∨ 2 ^ d.g (pgEMH + 0x620) 0 5 ≤ idx then none else some idx

/-- What a return job takes from the arrival record in memory (R147, Table 5.6); to whom it goes the unit itself holds: never
to any other device than the one the dispatch came from (R27, R148). -/
def Arrival.fromRec (a : Arrival) (l : List Byte) : Arrival :=
  { a with
    gen := leAt l 2 2, flags := leAt l 6 1, batch := leAt l 8 4, token := leAt l 12 1
    ldiv := leAt l 14 1, part := leAt l 32 8
    sels := (List.range (min 16 (leAt l 7 1))).map fun i => (leAt l (64 + 4 * i) 2, leAt l (66 + 4 * i) 1) }

/-- The arrival a return job answers, as the record at ARR in memory describes it (R147). -/
def Dev.arrivalRec (d : Dev) (j : QJob) (a : Arrival) : Arrival × Dev :=
  let (l, d) := d.readP pgEMH j.dom (j.b8 8) 128
  (a.fromRec (l.map (·.1)), d)

/-- A return job names only selections of its arrival that may still be returned (R147). -/
def returnOk (j : QJob) (a : Arrival) : Bool :=
  (bitList (j.b2 2) 16).all fun p =>
    decide (p < a.sels.length) && (a.sels.getD p (0, 0xff)).2 != 0xff && !a.returned.contains p

/-- One partial returned: a RETURN message, or, for an arrival of this device itself, placed and noticed (R147, R539). -/
def Dev.returnOne (d : Dev) (j : QJob) (a : Arrival) (p src : Nat) : Dev :=
  let pbf := bitN a.flags 0
  let rep := bitN a.flags 2
  let len := 256 * a.ldiv * if pbf then 2 else 4
  let (e, rank) := a.sels.getD p (0, 0)
  let dest := a.part + ((if rep then 16 else 0) + rank) * len
  let (b, d3) := d.readP pgEMH j.dom src len
  let bad := b.any (·.2)
  let d4 := d3.setXJob j.seq fun r => { r with poison := r.poison || bad }
  if a.origin = d4.me then
    let sels := d4.xch.sels.map fun x =>
      if x.isAt a.batch a.token rank then { x with returned := true } else x
    let d5 := ({ d4 with xch := { d4.xch with sels := sels } } : Dev).landP j.dom dest b
    (d5.postNotice { addr := dest, batch := a.batch, token := a.token, rank := rank, bf16 := pbf, poison := bad
                     cl := 0 }).closeDone
  else
    let (id, d5) := d4.xId
    match d5.findCtx 1 a.origin j.cove with
    | none => d5.setXJob j.seq fun r => { r with status := if r.status = 0 then 0x20 else r.status }
    | some c =>
      let (n, d6) := d5.takeOwed a.origin
      let d7 := (d6.setXJob j.seq fun r => { r with waiting := r.waiting ++ [id], sent := r.sent + 1 }).inc (pgEMH + 0x904)
      d7.sendReturn c (returnHead 2 (b2n pbf + 2 * b2n bad + 4 * b2n rep) a.gen d7.me n a.batch a.token rank e dest)
        (b.map (·.1)) bad id (some src)

/-- A return job whose arrival is found: the addresses of its partials are read; each is returned (R147). -/
def Dev.returnDo (d : Dev) (j : QJob) (a : Arrival) (idx : Nat) : Dev :=
  let picks := bitList (j.b2 2) 16
  let (tb, d1) := d.readP pgEMH j.dom (j.b8 16) 128
  let len := 256 * a.ldiv * if bitN a.flags 0 then 2 else 4
  let src (p : Nat) : Nat := leAt (tb.map (·.1)) (8 * p) 8
  match picks.find? fun p => !d1.xAddr j false (src p) len with
  | some p => (d1.xAddrFail j false (src p) len).xEnd j 2 false 0 0
  | none =>
    let arrs := d1.xch.arrivals.map fun x => if x.idx = idx then { x with returned := x.returned ++ picks } else x
    let d2 := { d1 with xch := { d1.xch with arrivals := arrs } }
    let d3 := d2.xRunJob { q := j, release := if bitN (j.b1 1) 0 then some idx else none }
    d3.each picks fun p d => d.returnOne j a p (src p)

/-- RETURN_JOB_BEGIN (R147): the checks, then the job's beginning. -/
def execReturnJobBegin (i : Nat) (s : State) : Res :=
  lift (fun d => d.xBegin i 0x11 fun j d =>
    match d.returnIdx j with
    | none => d.xEnd j 2 false 0 0
    | some idx =>
      if !d.xAddr j false (j.b8 8) 128 then (d.xAddrFail j false (j.b8 8) 128).xEnd j 2 false 0 0
      else
        match d.xch.arrivals.find? (·.idx == idx) with
        | none => d.xEnd j 4 false 0 0
        | some a0 =>
          let (a, d) := d.arrivalRec j a0
          if !returnOk j a then d.xEnd j 4 false 0 0
          else if !d.xAddr j false (j.b8 16) 128 then (d.xAddrFail j false (j.b8 16) 128).xEnd j 2 false 0 0
          else d.returnDo j a idx) s

/-- RETURN_JOB_COMPLETE (R147, R148): every message is delivered or has failed; the record is written, and with RELEASE
the slot is freed. -/
def execReturnJobComplete (seq : Nat) (s : State) : Res :=
  lift (fun d =>
    match d.xch.run.find? fun r => r.q.seq == seq && r.q.type == 0x11 && r.waiting.isEmpty with
    | none => d
    | some r =>
      if !d.calm then d else
      let d1 := { d with xch := { d.xch with run := d.xch.run.filter (·.q.seq ≠ seq) } }
      let d2 := match r.release with
        | none => d1
        | some n => d1.freeArrival n true
      d2.xEnd r.q r.status r.poison 0 r.sent) s

/-! ### Answers at the origin -/

/-- The open selection a RETURN header answers, where its sender and DEST are right (R154). -/
def Dev.openFor (d : Dev) (h : List Byte) : Option Sel :=
  let rep := bitN (beAt h 1 1) 2
  d.xch.sels.find? fun s =>
    s.isAt (beAt h 8 4) (beAt h 12 1) (beAt h 13 1) && (if rep then s.repl else s.home) == some (beAt h 4 2 % 1024)
      && s.dest rep == beAt h 16 8

/-- A return of an open selection is placed and its notice posted (R154, R155). -/
def Dev.returnIn (d : Dev) (head body : List Byte) (poison : Bool) (x : Sel) : Dev :=
  let bad := poison || bitN (beAt head 1 1) 1
  let dest := beAt head 16 8
  let d2 := d.landP (domOf x.cove) dest (body.map fun b => (b, bad))
  (((d2.setSel { x with returned := true }).inc (pgEMH + 0x908)).postNotice
    { addr := dest, batch := x.batch, token := x.token, rank := x.rank, bf16 := bitN (beAt head 1 1) 0, poison := bad
      cl := 0 }).closeDone

/-- RETURN_MSG (R150, R154, R155): the credit is taken; a return of an open selection is placed; one whose selection has
closed since its packets came is discarded and they are counted. -/
def execReturnMsg (conn msn : Nat) (head body : List Byte) (poison : Bool) (s : State) : Res :=
  lift (fun d =>
    if !d.takesWork then d
    else
      let d1 := (d.takeXin conn (some msn) head body poison).addCredit (beAt head 4 2 % 1024) (beAt head 6 2)
      match d1.openFor head with
      | none => d1.incBy (pgEMH + 0x914) (d.xinPkts conn msn head body poison)
      | some x => d1.returnIn head body poison x) s

/-- Is it the message that a REFUSE header answers: to its sender, with selections of its generation open (Table 5.5)? -/
def Dev.refusedBy (d : Dev) (h : List Byte) (m : XMsg) : Bool :=
  m.target == beAt h 4 2 % 1024 && m.replica == bitN (beAt h 1 1) 2 && m.batch == beAt h 8 4 && m.token == beAt h 12 1
    && m.phase != 0 && (d.openOf m).any fun s => s.gen == beAt h 2 2

/-- REFUSE_MSG (R150, R156): the credit is taken and the target is unreachable for that message, without entering the down
set. -/
def execRefuseMsg (conn : Nat) (head : List Byte) (s : State) : Res :=
  lift (fun d =>
    if !d.takesWork then d
    else
      let d1 := ((d.takeXin conn none head [] false).addCredit (beAt head 4 2 % 1024) (beAt head 6 2)).inc (pgEMH + 0x918)
      match d1.xch.msgs.find? fun m => d1.refusedBy head m with
      | none => d1
      | some m => d1.unreachable m false) s

/-- CREDIT_MSG (R149, R150): the CREDIT field is added. -/
def execCreditMsg (conn : Nat) (head : List Byte) (s : State) : Res :=
  lift (fun d => if !d.takesWork then d else (d.takeXin conn none head [] false).addCredit (beAt head 4 2 % 1024) (beAt head 6 2)) s

/-- Credit owed to a device goes in a CREDIT message, on the arrival's connection or the lowest-numbered one with that
origin; with none it stays owed (R149). -/
def Dev.sendCredit (d : Dev) (dev : Nat) : Dev :=
  match d.xch.owed.find? (·.1 == dev) with
  | none => d
  | some (_, conn, _, _) =>
    let c := if d.cState conn = 3 ∧ d.cPeer conn = dev ∧ d.cService conn = 1 then some conn
      else d.liveCtxs.find? fun c => d.cState c == 3 && d.cService c == 1 && d.cPeer c == dev
    match c with
    | none => { d with xch := { d.xch with owed := d.xch.owed.map fun o => if o.1 = dev then (o.1, o.2.1, o.2.2.1, true) else o } }
    | some c =>
      let (n, d1) := d.takeOwed dev
      d1.sendReturn c (returnHead 4 0 0 d1.me n 0 0 0xff 0 0) [] false 0

/-- CREDIT_TIMEOUT (R149): credit owed 2 us with no message to carry it. -/
def execCreditTimeout (dev : Nat) (s : State) : Res := lift (fun d => if d.safe then d else d.sendCredit dev) s

/-- A SERVICE 1 context with a device becomes ESTABLISHED: credit that found none is sent at once (R149). -/
def Dev.creditReady (d : Dev) (dev : Nat) : Dev :=
  if d.xch.owed.any fun o => o.1 == dev && o.2.2.2 then d.sendCredit dev else d

/-- JOB_END (R106, R142): a cluster job ends; the end of a combine job closes the selections of its batch. -/
def execJobEnd (c : Fin 16) (seq : Nat) (s : State) : Res :=
  lift (fun d =>
    match d.xc.combs.find? (·.seq == seq) with
    | some m =>
      if (d.xcRun c).any fun r => r.q.seq == seq && !r.wait then (d.jobEnd c seq).closeBatch m.batch else d
    | none => d.jobEnd c seq) s

/-- What a cove reset does to the exchange unit (Table 5.8): jobs end ABORTED, open selections close, unreturned arrivals,
and dispatches received and not yet acted on, are answered REFUSE COVE_RESET and their slots freed. -/
def Dev.xAbort (d : Dev) (cove : Nat) : Dev :=
  let own (c : Option Nat) : Bool := c == some cove
  let q := d.xch.queue.filter fun j => own j.cove
  let r := d.xch.run.filter fun x => own x.q.cove
  let arr := d.xch.arrivals.filter fun a => own a.cove
    && (a.sels.zipIdx.any fun e => e.1.2 != 0xff && !a.returned.contains e.2)
  let d1 := { d with xch := { d.xch with
    queue := d.xch.queue.filter fun j => !own j.cove
    run := d.xch.run.filter fun x => !own x.q.cove
    sels := d.xch.sels.filter fun x => !own x.cove
    msgs := d.xch.msgs.filter fun x => !own x.cove } }
  let d2 := d1.each q fun j d => if d.xAddr j true j.cmpl 16 then d.xEnd j 5 false 0 0 else d.xAddrFail j true j.cmpl 16
  let d3 := d2.each r fun x d => d.xEnd x.q 5 x.poison x.nlocal x.sent
  let ins := d3.emh.xin.filter fun x => d3.cOwner x.conn == some cove && beAt x.head 0 1 == 1
  let pre := d3.xch.pre.filter fun p => !(d3.cOwner p.1 == some cove && !(d3.ctx p.1).rx.any fun m => m.op == 1 && m.msn == p.2.1)
  let d4 : Dev := { d3 with emh := { d3.emh with xin := d3.emh.xin.filter fun x => !ins.contains x }, xch := { d3.xch with pre := pre } }
  let d5 := d4.each ins fun x d => d.dispatchRefuse x.conn x.head 3
  d5.each arr fun a d =>
    let d := d.freeArrival a.idx false
    if a.origin = d.me then d
    else
      let (n, d) := d.takeOwed a.origin
      d.sendReturn a.conn (returnHead 3 (4 * b2n (bitN a.flags 2)) a.gen d.me (n + 1) a.batch a.token 0xff 3 0) [] false 0

/-- Fresh credit state with a device (R152): this side's count is INIT again and nothing is owed to it. -/
def Dev.freshCredit (d : Dev) (dev : Nat) : Dev :=
  let d1 := d.setCredit dev (d.g (pgEMH + 0x628) 0 16)
  { d1 with xch := { d1.xch with owed := d1.xch.owed.filter (·.1 ≠ dev) } }

end Sys2Proof.Machine
end

