-- ==== Sys2Proof/Machine/Keccak.lean ====
section
/-!
DEFINITION. Machine/Keccak.lean: the hash function that chapter 18 names (R468, R469), SHAKE256 of FIPS 202, which the
spec refers to and does not repeat (PRESUMED, log entry 44).
-/
namespace Sys2Proof.Machine

/-- Round constants of the permutation, from the shift register of the standard: bit `j` of register state `r`. -/
def lfsrStep (r : Nat) : Nat := let x := 2 * r; if 256 ≤ x then (x - 256) ^^^ 0x71 else x

/-- The register's output bits from a state, `n` of them. -/
def lfsrBits (r : Nat) : Nat → List Bool
  | 0 => []
  | n + 1 => bitN r 0 :: lfsrBits (lfsrStep r) n

/-- Round constant of round `i`: output bits 7i to 7i + 6 stand in bits 2^j - 1. -/
def roundConst (i : Nat) : DWord :=
  ((lfsrBits 1 168).drop (7 * i)).take 7 |>.zipIdx |>.foldl
    (fun a (b : Bool × Nat) => if b.1 then a ||| BitVec.ofNat 64 (2 ^ (2 ^ b.2 - 1)) else a) 0

/-- Lane `(x, y)` of a state of 25 lanes. -/
def lane (a : List DWord) (x y : Nat) : DWord := a.getD (x % 5 + 5 * (y % 5)) 0

/-- Rotations of the lanes, lane `(x, y)` at `x + 5 y`. -/
def rhoOff : List Nat :=
  [0, 1, 62, 28, 27, 36, 44, 6, 55, 20, 3, 10, 43, 25, 39, 41, 45, 15, 21, 8, 18, 2, 61, 56, 14]

/-- One round of the permutation. -/
def keccakRound (a : List DWord) (rc : DWord) : List DWord :=
  let c := (List.range 5).map fun x => (List.range 5).foldl (fun s y => s ^^^ lane a x y) 0
  let d := (List.range 5).map fun x => c.getD ((x + 4) % 5) 0 ^^^ (c.getD ((x + 1) % 5) 0).rotateLeft 1
  let t := (List.range 25).map fun i => a.getD i 0 ^^^ d.getD (i % 5) 0
  -- lane (x, y) comes, rotated, from lane (x + 3 y, x)
  let b := (List.range 25).map fun i =>
    let j := (i % 5 + 3 * (i / 5)) % 5 + 5 * (i % 5)
    (t.getD j 0).rotateLeft (rhoOff.getD j 0)
  let e := (List.range 25).map fun i =>
    let y := i / 5
    lane b i y ^^^ (~~~(lane b (i + 1) y) &&& lane b (i + 2) y)
  e.zipIdx.map fun (v, i) => if i = 0 then v ^^^ rc else v

/-- The permutation of 24 rounds. -/
def keccakF (a : List DWord) : List DWord := (List.range 24).foldl (fun a i => keccakRound a (roundConst i)) a

/-- Blocks of 136 bytes absorbed, `fuel` bounding their number. -/
def absorb (a : List DWord) (l : List Byte) : Nat → List DWord
  | 0 => a
  | fuel + 1 =>
    if l.isEmpty then a
    else
      let blk := (List.range 25).map fun i => if i < 17 then BitVec.ofNat 64 (leAt l (8 * i) 8) else (0 : DWord)
      absorb (keccakF (a.zipWith (· ^^^ ·) blk)) (l.drop 136) fuel

/-- The message padded to whole blocks. -/
def shakePad (l : List Byte) : List Byte :=
  let p := 136 - l.length % 136
  l ++ (List.range p).map fun i => (if i = 0 then 0x1f else 0) ||| (if i + 1 = p then 0x80 else 0)

/-- The first 32 bytes of SHAKE256 of a byte string, as their little-endian number: D of R469. -/
def shakeN (l : List Byte) : Nat :=
  let m := shakePad l
  let a := absorb (List.replicate 25 0) m (m.length / 136)
  leNat ((a.take 4).flatMap fun w => leBytes w.toNat 8)

end Sys2Proof.Machine
end

