-- ==== Sys2Proof/Machine/Flags.lean ====
section
/-!
DEFINITION. Machine/Flags.lean: conditions, the integer and FP64 operations and the flags they set (chapter 8).
-/
namespace Sys2Proof.Machine

/-- N, Z, C and V. -/
structure NZCV where
  n : Bool := false
  z : Bool := false
  c : Bool := false
  v : Bool := false
deriving DecidableEq, Repr

/-- Does a condition hold, given the current tide (Table 8.2)? -/
def condHolds (k : Core) (cur : DWord) (cond : BitVec 4) : Bool :=
  match cond.toNat with
  | 0 => true
  | 1 => k.z
  | 2 => !k.z
  | 3 => !k.c
  | 4 => k.c
  | 5 => !k.c || k.z
  | 6 => k.c && !k.z
  | 7 => k.n != k.v
  | 8 => k.n == k.v
  | 9 => k.z || k.n != k.v
  | 10 => !k.z && k.n == k.v
  | 11 => k.n
  | 12 => !k.n
  | 13 => k.v
  | 14 => match k.watch with | none => false | some w => decide (w.toNat ≤ cur.toNat)
  | _ => k.t

/-- Flags of a sum (R234). -/
def addFlags (a b : DWord) : NZCV :=
  let r := a + b
  ⟨r.msb, r = 0, decide (2 ^ 64 ≤ a.toNat + b.toNat), a.msb == b.msb && r.msb != a.msb⟩

/-- Flags of a difference: C is no borrow (R234). -/
def subFlags (a b : DWord) : NZCV :=
  let r := a - b
  ⟨r.msb, r = 0, decide (b.toNat ≤ a.toNat), a.msb != b.msb && r.msb != a.msb⟩

/-- Flags of an operation that clears C and V. -/
def logicFlags (r : DWord) : NZCV := ⟨r.msb, r = 0, false, false⟩

/-- Count of leading zeros. -/
def clz (a : DWord) : DWord := BitVec.ofNat 64 (64 - bitLen a.toNat)

/-- The result and flags of an ALU function code; none where it is reserved (Table 8.6). -/
def aluOp (fn : Nat) (a b : DWord) : Option (DWord × NZCV) :=
  let lg (r : DWord) : Option (DWord × NZCV) := some (r, logicFlags r)
  match fn with
  | 0x00 => some (a + b, addFlags a b)
  | 0x01 => some (a - b, subFlags a b)
  | 0x02 => lg (a &&& b)
  | 0x03 => lg (a ||| b)
  | 0x04 => lg (a ^^^ b)
  | 0x05 => lg (a <<< (b.toNat % 64))
  | 0x06 => lg (a >>> (b.toNat % 64))
  | 0x07 => lg (a.sshiftRight (b.toNat % 64))
  | 0x08 => lg (a * b)
  | 0x09 => lg (BitVec.ofInt 64 ((a.toInt * b.toInt) / 2 ^ 64))
  | 0x0a => lg (BitVec.ofNat 64 ((a.toNat * b.toNat) / 2 ^ 64))
  | 0x0b => lg (if b = 0 then -1 else BitVec.ofInt 64 (a.toInt.tdiv b.toInt))
  | 0x0c => lg (if b = 0 then -1 else BitVec.ofNat 64 (a.toNat / b.toNat))
  | 0x0d => lg (if b = 0 then a else BitVec.ofInt 64 (a.toInt.tmod b.toInt))
  | 0x0e => lg (if b = 0 then a else BitVec.ofNat 64 (a.toNat % b.toNat))
  | 0x0f => lg (if a.toInt ≤ b.toInt then a else b)
  | 0x10 => lg (if b.toInt ≤ a.toInt then a else b)
  | 0x11 => lg (if a.toNat ≤ b.toNat then a else b)
  | 0x12 => lg (if b.toNat ≤ a.toNat then a else b)
  | 0x13 => some (a - b, subFlags a b)
  | 0x14 => lg (clz a)
  | 0x15 => lg (BitVec.ofNat 64 (popN a.toNat 64))
  | _ => none

/-- The result of an AMO function code on the old word, the operand and the compared value (Table 8.5). -/
def amoOp (fn : Nat) (old b cmp : DWord) : Option DWord :=
  match fn with
  | 0 => some b
  | 1 => some (old + b)
  | 2 => some (old &&& b)
  | 3 => some (old ||| b)
  | 4 => some (old ^^^ b)
  | 5 => some (if b.toInt ≤ old.toInt then old else b)
  | 6 => some (if b.toNat ≤ old.toNat then old else b)
  | 7 => some (if old.toInt ≤ b.toInt then old else b)
  | 8 => some (if old.toNat ≤ b.toNat then old else b)
  | 9 => some (if old = cmp then b else old)
  | _ => none

/-- FP64 value of a register, and the code of a value (R235). -/
def d64 (x : DWord) : FV := fp64.dec x.toNat
def e64 (v : FV) : DWord := BitVec.ofNat 64 (fp64.enc v false none).code

/-- FMIN and FMAX: a NaN operand gives the other operand (Table 8.7). -/
def fpPick (less : Bool) (a b : DWord) : DWord :=
  let x := d64 a
  let y := d64 b
  if x.isNan then (if y.isNan then e64 .nan else b)
  else if y.isNan then a
  else if less then (if x.cmp y < 0 then a else if x.cmp y = 0 then (if x.isNeg then a else b) else b)
  else (if 0 < x.cmp y then a else if x.cmp y = 0 then (if x.isNeg then b else a) else b)

/-- FTOI: toward zero, saturating; NaN gives 0 (Table 8.7). -/
def ftoi (a : DWord) : DWord :=
  match d64 a with
  | .nan => 0
  | .inf n => if n then BitVec.ofNat 64 (2 ^ 63) else BitVec.ofNat 64 (2 ^ 63 - 1)
  | .fin n m e =>
    let q := shiftZ m e
    if n then BitVec.ofInt 64 (-(min q (2 ^ 63) : Nat)) else BitVec.ofNat 64 (min q (2 ^ 63 - 1))

/-- FCMP's flags (Table 8.7). -/
def fcmpFlags (a b : DWord) : NZCV :=
  let x := d64 a
  let y := d64 b
  if x.isNan || y.isNan then ⟨false, false, true, true⟩
  else
    let r := x.cmp y
    ⟨decide (r < 0), r == 0, decide (0 ≤ r), false⟩

/-- A format F2T and T2F take (Table 8.7). -/
def f2tFormat (ctl : Nat) : Option FF :=
  if ctl % 32 ≤ 4 ∧ ctl < 256 ∧ bitN ctl 7 = false then ffOf (ctl % 32) else none

end Sys2Proof.Machine
end

