-- ==== Sys2Proof/Machine/Operands.lean ====
section
/-!
DEFINITION. Machine/Operands.lean: Briesk words, tags, bounds and the checks of an access; traps; launch and state
images; sealed images (chapter 8).
-/
namespace Sys2Proof.Machine

/-- Instruction words of the four formats (Table 8.1). -/
def encA (cond op d a b fn : Nat) : Nat := cond * 2 ^ 28 + op * 2 ^ 22 + d * 2 ^ 17 + a * 2 ^ 12 + b * 2 ^ 7 + fn
def encI (cond op d a imm : Nat) : Nat := cond * 2 ^ 28 + op * 2 ^ 22 + d * 2 ^ 17 + a * 2 ^ 12 + imm
def encM (cond op d imm : Nat) : Nat := cond * 2 ^ 28 + op * 2 ^ 22 + d * 2 ^ 17 + imm
def encB (cond op imm : Nat) : Nat := cond * 2 ^ 28 + op * 2 ^ 22 + imm

/-- Tags (Table 8.3). -/
def tINT : Nat := 0
def tFP : Nat := 1
def tDADDR : Nat := 2
def tIO : Nat := 3
def tHNDL : Nat := 4
def tTIDE : Nat := 5
def tCODE : Nat := 7
def tPOISON : Nat := 15

/-- A tag of Table 8.3. -/
def tagOk (t : Nat) : Bool := t ∈ [0, 1, 2, 3, 4, 5, 7, 15]

/-- The three address tags. -/
def isAddrTag (t : Nat) : Bool := t == 2 || t == 3 || t == 7

/-- Width of the ADDR field, and the bound exponent S, of a value with an address tag (Table 8.4). -/
def addrBits (t : Nat) : Nat := if t = 3 then 50 else 48
def adrOf (t : Nat) (v : DWord) : Nat := fieldN v.toNat 0 (addrBits t)
def boundS (t : Nat) (v : DWord) : Nat := fieldN v.toNat (addrBits t) 6

/-- A value whose layout MINT accepts for its tag (R223, Table 8.4). -/
def layoutOk (t : Nat) (v : DWord) : Bool :=
  let x := v.toNat
  let s := boundS t v
  if t = 2 then decide (6 ≤ s) && decide (s ≤ 48) && fieldN x 55 9 == 0
  else if t = 3 then decide (6 ≤ s) && decide (s ≤ 50) && !bitN x 57
  else if t = 7 then decide (6 ≤ s) && decide (s ≤ 48) && fieldN x 54 10 == 0
  else if t = 4 then (fieldN x 0 8 == 1 || fieldN x 0 8 == 2) && fieldN x 8 8 == 0 && fieldN x 32 32 == 0
  else true

/-- An address value with its ADDR field replaced by a sum; none where a bit at or above S changes (R225). -/
def withAdr (t : Nat) (v : DWord) (a : Nat) : Option DWord :=
  let n := addrBits t
  if adrOf t v / 2 ^ boundS t v = a / 2 ^ boundS t v then some (BitVec.ofNat 64 (v.toNat / 2 ^ n * 2 ^ n + a)) else none

/-- An ADDR field plus a signed amount, modulo 2^64 as the integer operation gives it. -/
def adrPlus (t : Nat) (v : DWord) (i : DWord) : Nat := (BitVec.ofNat 64 (adrOf t v) + i).toNat

/-- Core `i`, and its update. -/
def Dev.core (d : Dev) (i : Nat) : Core := d.cores.getD i {}
def Dev.setCore (d : Dev) (i : Nat) (k : Core) : Dev := { d with cores := d.cores.set i k }

/-- A register of a core: g0 reads 0 tagged INT (R221). -/
def Core.reg (k : Core) (r : BitVec 5) : Reg := if r = 0 then {} else k.gr.getD r.toNat {}
/-- A register written: writes to g0 are discarded (R221). -/
def Core.setReg (k : Core) (r : BitVec 5) (v : DWord) (t : Nat) : Core :=
  if r = 0 then k else { k with gr := k.gr.set r.toNat ⟨v, t⟩ }

/-- Flags N, Z, C, V set, with T as given (R234). -/
def Core.setFlags (k : Core) (f : NZCV) (t : Bool) : Core := { k with n := f.n, z := f.z, c := f.c, v := f.v, t := t }

/-- The cove of a core's work, none for the driver's or the firmware's. -/
def Core.dom (k : Core) (i : Nat) : Option Nat := if i < 32 && k.launched then some k.cove else none

/-- What an instruction comes to. -/
inductive Iss
  /-- done: the program counter moves to the next instruction -/
  | done (d : Dev)
  /-- done: the program counter takes a CODE value -/
  | goto (d : Dev) (pc : DWord)
  /-- a trap with its cause and the effective address or operand value (Table 8.9) -/
  | trap (cause : Nat) (fault : DWord)
  /-- a trap that leaves an effect -/
  | fail (d : Dev) (cause : Nat) (fault : DWord)
  /-- the core waits, and issues the instruction again -/
  | stall (d : Dev)

/-- A check passed with an address, or failed with a trap. -/
inductive Chk
  | ok (a : Nat)
  | bad (cause : Nat) (fault : DWord)
deriving DecidableEq, Repr

/-- A range touches the codebook slots of some cluster's SRAM (R110). -/
def inSlots (a n : Nat) : Bool :=
  match areaOf (a + n - 1) with
  | .sram k => decide (sramBase k + 0xfbf000 < a + n)
  | _ => false

/-- May core `i` make this device access (Table 2.3, R35, R110)? -/
def coreMay (i : Nat) (w atomic : Bool) (a n : Nat) : Bool :=
  if i < 32 then
    match areaOf a with
    | .device => true
    | .harbour => true
    | .sram _ => !((w || atomic) && inSlots a n)
    | _ => false
  else
    match areaOf a with
    | .device => true
    | .check => !w
    | .pages => true
    | _ => false

/-- The checks of a load, store or atomic of `n` bytes at register `r` plus `imm`, in the order of R226. -/
def chkAccess (i : Nat) (r : Reg) (imm : DWord) (n align : Nat) (w atomic : Bool) : Chk :=
  if r.tag = tPOISON then .bad 7 r.v
  else if r.tag ≠ 2 ∧ r.tag ≠ 3 then .bad 1 r.v
  else
    let a := adrPlus r.tag r.v imm
    let ea := BitVec.ofNat 64 a
    match withAdr r.tag r.v a with
    | none => .bad 3 ea
    | some _ =>
      let a := a % 2 ^ addrBits r.tag
      if 2 ^ boundS r.tag r.v < a % 2 ^ boundS r.tag r.v + n then .bad 3 ea
      else if a % align ≠ 0 then .bad 5 ea
      else if w && !bitN r.v.toNat (addrBits r.tag + 6) then .bad 4 ea
      else if r.tag = 2 && !coreMay i w atomic a n then .bad 4 ea
      else .ok a

/-- What a store writes of a register: an address tag's ADDR field, any other value unchanged (R227). -/
def storeVal (r : Reg) : Nat := if isAddrTag r.tag then adrOf r.tag r.v else r.v.toNat

/-- The page of a core's records: its cluster for a sequencer, FWR for a service core, SEC for the security core. -/
def corePage (i : Nat) : Nat := if i < 32 then pgXC (i / 2) else if i < 36 then pgFWR else pgSEC

/-- The crash of a service or security core: it stops, and its restart is awaited (R242, R284). -/
def Dev.coreCrash (d : Dev) (i : Nat) : Dev := d.setCore i { d.core i with running := false, cause := 0xff }

/-- A trap (R240 to R242). A sequencer stops with its trap record filled; a cause other than SYSCALL and BREAK is
recorded and reported. A service or security core saves what R242 names and goes on at control register 0x005. -/
def Dev.trap (d : Dev) (i insn cause : Nat) (fault : DWord) : Dev :=
  let k := d.core i
  if i < 32 then
    let k1 := { k with running := false, cause := cause, insn := insn, fault := fault, tideAt := d.tide.cur,
                       sysWait := cause == 0x0c }
    let d1 := d.setCore i k1
    if cause = 0x0c ∨ cause = 0x0d then d1
    else (d1.report (corePage i) none 0x0011 (domOf (k.dom i)) i cause).event 0x8002 (i + cause * 256)
  else if bitN (k.cr.getD 0 0).toNat 0 then d.coreCrash i
  else
    let cr := [k.cr.getD 0 0 ||| 1, k.pc, BitVec.ofNat 64 cause, BitVec.ofNat 64 insn, fault, k.cr.getD 5 0]
    d.setCore i { k with cr := cr, pc := k.cr.getD 5 0 }

/-- A program counter moved by `n` bytes within its bound. -/
def pcPlus (pc : DWord) (n : DWord) : Option DWord := withAdr 7 pc (adrPlus 7 pc n)

/-- The next instruction's CODE: where it would leave the bound the ADDR field simply goes on. -/
def pcNext (pc : DWord) : DWord := BitVec.ofNat 64 (pc.toNat / 2 ^ 48 * 2 ^ 48 + (adrOf 7 pc + 4) % 2 ^ 48)

/-- One instruction on core `i`: nothing on a core that is not running or in safe state; a false condition only moves the
program counter (R220); a level P opcode on a sequencer traps PRIV (R232). A stalled instruction's condition has been
traced when it was first issued. -/
def Dev.insn (d : Dev) (i : Fin 37) (cond : BitVec 4) (priv : Bool) (word : Nat) (f : Core → Dev → Iss) : Dev :=
  let k := d.core i
  if !k.running || d.safe then d
  else
    let holds := condHolds k d.tide.cur cond
    let d := if (d.tcore i).stall.isSome then d else d.traceInsn i k.pc cond holds
    let trap (d : Dev) (c : Nat) (x : DWord) : Dev :=
      let d := d.setTcore i { d.tcore i with stall := none }
      ((d.coreRec i 4 c (adrOf 7 k.pc)).triggerAll 2 fun b => d.tbNames b i).trap i word c x
    if !holds then (d.setCore i { k with pc := pcNext k.pc }).traceDone i
    else if priv && decide (i.val < 32) then trap d 2 0
    else
      match f k d with
      | .stall d1 => d1.stallBegin i
      | .trap c x => trap d c x
      | .fail d1 c x => trap d1 c x
      | .done d1 => (d1.setCore i { d1.core i with pc := pcNext k.pc }).traceDone i
      | .goto d1 pc =>
        let d2 := (d1.setCore i { d1.core i with pc := pc }).traceDone i
        d2.coreRec i 2 (d2.tcore i).n (adrOf 7 pc)

/-- A register result. -/
def Dev.give (d : Dev) (i : Fin 37) (k : Core) (r : BitVec 5) (v : DWord) (t : Nat) : Iss := .done (d.setCore i (k.setReg r v t))

/-- The seal of an image under a key (R229): the function is the device's own. -/
def sealField (key a : Nat) (v : DWord) (t : Nat) : Nat := Config.sealOf key a v.toNat t % 2 ^ 32

/-- The 16-byte sealed image (R229). -/
def sealImage (key a : Nat) (r : Reg) : List Byte :=
  leBytes r.v.toNat 8 ++ [BitVec.ofNat 8 r.tag, 0, 0, 0] ++ leBytes (sealField key a r.v r.tag) 4

/-- The seal key a core runs under: of a launched sequencer, that of its launch image (R229, R243). -/
def Dev.keyOf (d : Dev) (i : Nat) : Nat := (d.core i).sealKey

/-- A cove's seal key, and with it that of the programs launched for it (R229, R334). -/
def Dev.giveKey (d : Dev) (n key : Nat) : Dev :=
  let cores := d.cores.zipIdx.map fun (k, i) => if k.dom i = some n then { k with sealKey := key } else k
  { d.setCove n { d.cove n with sealKey := key } with cores := cores }

/-- Entry `j` of a launch image: value and tag (Table 8.10). -/
def launchEntry (img : List Byte) (j : Nat) : Reg := ⟨BitVec.ofNat 64 (leAt img (16 * j) 8), leAt img (16 * j + 8) 1⟩

/-- The trap a launch image gives, or none where it can be launched (R243). -/
def launchBad (img : List Byte) (poison : Bool) : Option Nat :=
  let es := (List.range 32).map (launchEntry img)
  let e0 := launchEntry img 0
  if poison then some 7
  else if e0.tag ≠ 7 then some 1
  else if es.any fun e => tagOk e.tag && !layoutOk e.tag e.v then some 1
  else if es.any fun e => !tagOk e.tag then some 6
  else none

/-- A sequencer stopped and started from a launch image (R243). -/
def Dev.launch (d : Dev) (q : Nat) (img : List Byte) : Dev :=
  let es := (List.range 32).map fun j => if j = 0 then ({} : Reg) else launchEntry img j
  let k : Core :=
    { gr := es, pc := (launchEntry img 0).v, running := true, launched := true,
      grant := leAt img 512 8, ngrant := leAt img 520 4, cove := leAt img 524 1 % 64,
      part := leAt img 525 1 % 2 == 1, sealKey := leAt img 528 16 }
  d.setCore q k

/-- The state image of a sequencer, SEALKEY zero (R244, Table 8.10). -/
def stateImage (k : Core) : List Byte :=
  let e (r : Reg) : List Byte := leBytes r.v.toNat 8 ++ [BitVec.ofNat 8 r.tag] ++ List.replicate 7 0
  e ⟨k.pc, 7⟩ ++ (List.range 31).flatMap (fun j => e (k.gr.getD (j + 1) {})) ++ leBytes k.grant 8 ++ leBytes k.ngrant 4
    ++ [BitVec.ofNat 8 k.cove, BitVec.ofNat 8 (b2n k.part)] ++ List.replicate 2 0 ++ List.replicate 16 0
    ++ [BitVec.ofNat 8 k.cause] ++ List.replicate 3 0 ++ leBytes k.insn 4 ++ leBytes k.fault.toNat 8
    ++ leBytes k.tideAt.toNat 8 ++ List.replicate 8 0

end Sys2Proof.Machine
end

