-- ==== Sys2Proof/Machine/Fw.lean ====
section
/-!
DEFINITION. Machine/Fw.lean: the loading of the firmware, rings and command fetch, negotiation, the lease, live update,
crashes (chapter 10), and the measurements an image's start makes (chapter 18).
-/
namespace Sys2Proof.Machine

/-- The two image slots (R266). -/
def slotBase (b : Bool) : Nat := if b then 0x0179E0000000 else 0x0179C0000000

/-! ### Images -/

/-- The header of an image (Table 10.1). -/
def imageOf (l : List Byte) : Image :=
  { major := leAt l 4 1, minor := leAt l 5 1, patch := leAt l 6 2, ifMaj := leAt l 8 1, ifMin := leAt l 9 1
    svn := leAt l 10 2, size := leAt l 12 4, feat := leAt l 16 16 % 128
    entry := [leAt l 32 4, leAt l 36 4, leAt l 40 4, leAt l 44 4], sigOff := leAt l 48 4, sigLen := leAt l 52 4 }

/-- FW_VER of an image. -/
def Image.ver (i : Image) : Nat := i.patch + i.minor * 2 ^ 16 + i.major * 2 ^ 24

/-- An address range in the scratch pool, outside the firmware area. -/
def Dev.inStaging (d : Dev) (a n : Nat) : Bool := d.inScratch a n && (decide (a + n ≤ fwBase) || decide (devEnd ≤ a))

/-- The failure code of an image staged at `a` with a given size, 0 where it passes (R267, R472); `sigOk`: the signature
verifies under the extension's key (R468), `bad`: it reads poisoned. The checks' order is the model's (DESIGN CHOICE, log
entry 30). -/
def Dev.imageCheck (d : Dev) (a size : Nat) (bad sigOk : Bool) : Nat :=
  let h := d.bytes a 256
  let i := imageOf h
  if a % 4096 ≠ 0 || !d.inStaging a (max size 256) then 4
  else if size < 256 ∨ 2 ^ 25 < size then 3
  else if bad then 5
  else if leAt h 0 4 ≠ 0x4b465731 ∨ leAt h 56 200 ≠ 0 then 1
  else if i.size ≠ size then 3
  else if i.sigLen ≠ 9893 ∨ i.sigOff + i.sigLen ≠ i.size then 1
  else if i.svn < d.g (pgSEC + 0x104) 0 16 then 6
  else if !sigOk then 2
  else 0

/-- A staged image read by SEC0, where it may lie there, with every granule verified (R199, R267): whether it reads poisoned. -/
def Dev.imageRead (d : Dev) (a size : Nat) : Bool × Dev :=
  if a % 4096 ≠ 0 || !d.inStaging a (max size 256) || size < 256 || 2 ^ 25 < size then (false, d)
  else (d.memRead pgSEC 0x40 a size).2

/-- A service core started at an entry of the image in a slot: its program counter is bounded by the slot (log entry
31). -/
def Dev.startCore (d : Dev) (i : Nat) : Dev :=
  let pc := slotBase d.fw.slotB + d.fw.image.entry.getD i 0 + 29 * 2 ^ 48
  d.setCore (32 + i) { pc := BitVec.ofNat 64 pc, running := true }

/-- An image starts: its registers in FWR (R511, R513), FW_DIGEST, FWMR and HANDOVERS (R474), and SV0 to SV3. -/
def Dev.startImage (d : Dev) (slotB : Bool) (i : Image) : Dev :=
  let dg := shakeN (d.bytes (slotBase slotB) i.size)
  let x := d.sec
  let sec := { x with fwDigest := dg, fwmr := shakeN (leBytes x.fwmr 32 ++ leBytes dg 32), started := true,
                      handovers := if x.started then x.handovers + 1 else x.handovers }
  let d1 := { d with sec := sec, fw := { d.fw with slotB := slotB, image := i } }
  let d2 := (d1.wr (pgFWR + 0x140) (BitVec.ofNat 32 (i.ifMaj + i.ifMin * 256))).wr (pgFWR + 0x17c) (BitVec.ofNat 32 i.ver)
  let d3 := d2.each (List.range 4) fun k d => d.wr (pgFWR + 0x144 + 4 * k) (BitVec.ofNat 32 (i.feat / 2 ^ (32 * k)))
  d3.each (List.range 4) fun k d => d.startCore k

/-- LOAD_CTL.GO: SEC0 begins to verify the image (R267, R471). -/
def Dev.loadGo (d : Dev) : Dev :=
  d.when ((d.loadState == 1 || d.loadState == 5) && d.g 0x8110 8 8 ≠ 7) fun d =>
    { (d.s 0x8110 0 4 2).s 0x8110 8 8 0 with fw := { d.fw with verifying := true } }

/-- LOAD_GO (R267, R471). -/
def execLoadGo (s : State) : Res := lift (fun d => d.onReg (pgFWR + 0x10c) Dev.loadGo) s

/-- A verification of a signature by SEC0 failed (Table 18.7). -/
def Dev.verifyFailed (d : Dev) : Dev := (d.setErr pgSEC 0).inc (pgSEC + 0x804)

/-- The secure boot core has checked the `size` bytes of an image at `a` (R268, R269): with code 0 the image is copied to
its slot and starts; any other code stands in LOAD_STS with state 5. -/
def Dev.imageChecked (d : Dev) (a size code : Nat) : Dev :=
  let d1 := if code = 2 then d.verifyFailed else d
  let d2 := { d1 with fw := { d1.fw with verifying := false } }
  if code ≠ 0 then ((d2.s 0x8110 0 4 5).s 0x8110 8 8 code).setErr pgFWR 0
  else
    ((d2.copyGranules a (slotBase false) ((size + 255) / 256 * 256)).startImage false (imageOf (d2.bytes a 256))).s 0x8110 0 4 3

/-- IMAGE_VERIFIED (R267): the image is copied to slot A and the service cores start, or STATE is FAILED with its code. -/
def execImageVerified (sigOk : Bool) (s : State) : Res :=
  lift (fun d => d.when (d.loadState == 2 && !d.safe) fun d =>
    let a := d.rd64 0x8100 % 2 ^ 48
    let r := d.imageRead a (d.g 0x8108 0 26)
    r.2.imageChecked a (d.g 0x8108 0 26) (r.2.imageCheck a (d.g 0x8108 0 26) r.1 sigOk)) s

/-! ### Rings -/

/-- Ring pair 0 enabled from the ADMIN registers (R267, R513). -/
def Dev.adminOn (d : Dev) : Dev :=
  let r : Ring := { enabled := true, driver := true
                    sqBase := d.rd64 0x8120 % 2 ^ 48 / 64 * 64, cqBase := d.rd64 0x8128 % 2 ^ 48 / 64 * 64
                    sqLog := d.g 0x8130 0 4, cqLog := d.g 0x8130 4 4, vec := d.g 0x8130 16 9 }
  ((d.setRing 0 r).sb 0x8110 4 true).flushEvents

/-- Records of the previous run's fatal errors, and the one of a power fault, written with HISTORY (R444, R518). -/
def Dev.history (d : Dev) : Dev :=
  let old := d.err.norHistory.filter fun r => !r.hist
  let d1 := { d with err := { d.err with norHistory := d.err.norHistory.map fun (r : ErrRec) => { r with hist := true } } }
  let d2 := d1.each old fun r d => d.putRec { r with hist := true }
  if d2.b 0x1110 31 then
    let r : ErrRec := { cls := 3, base := 3, hist := true, domain := 0x41, srcType := 2, code := 0x0033, count := 1,
                        info0 := BitVec.ofNat 64 (d2.g 0x1110 0 4), info1 := BitVec.ofNat 64 (d2.g 0x1110 4 4) }
    (d2.putRec r).sb 0x1110 31 false
  else d2

def Dev.setNvt (d : Dev) (n : Nvt) : Dev := { d with nvt := n }

/-- What the firmware finds in NOR before it sets EN: a sanitize or format that runs on (R418). -/
def Dev.nvResume (d : Dev) : Dev :=
  match d.nvt.record with
  | none => d
  | some r =>
    if r.sanitize then d.setNvt { d.nvt with san := 2, sanAct := r.act, sanLeft := r.left }
    else d.setNvt { d.nvt with formatting := r.exts.map (·.1) }

/-- FIRMWARE_RUNNING (R267, R48, R418): pair 0 is enabled and STATE reads RUNNING; the device is in start-up slack with tide
0. -/
def execFirmwareRunning (s : State) : Res :=
  lift (fun d => d.when (d.loadState == 3 && !d.safe) fun d =>
    let d1 := { d with slack := { d.slack with startup := true } }
    (d1.s 0x8110 0 4 4).adminOn.history.nvResume) s

/-- LOAD_CTL.ADMIN_GO (R513). -/
def Dev.adminGo (d : Dev) : Dev := d.when (d.fwRunning && !d.b 0x8110 4) fun d => d.adminOn

/-- ADMIN_GO (R513). -/
def execAdminGo (s : State) : Res :=
  lift (fun d => d.onReg (pgFWR + 0x10c) Dev.adminGo) s

/-- A pair stopped by a doorbell error (R270). -/
def Dev.ringError (d : Dev) (q kind : Nat) : Dev :=
  (d.setRing q { d.ring q with err := true, errKind := kind }).event 0x8008 q

/-- The page of a pair takes writes: the firmware runs, the pair is enabled and not stopped (R265, R269, R316). -/
def Dev.doorbell (d : Dev) (q : Nat) : Bool := d.fwRunning && !d.safe && (d.ring q).enabled && !(d.ring q).err

/-- SQ_TAIL of a pair written (R269, R270). -/
def Dev.sqTail (d : Dev) (q v : Nat) : Dev :=
  d.when (d.doorbell q) fun d =>
    let t := v % 65536
    if 2 ^ (d.ring q).sqLog ≤ t then d.ringError q 1 else d.setRing q { d.ring q with sqTail := t }

/-- SQ_TAIL_WRITE (R270). -/
def execSqTailWrite (q : Fin 256) (val : Word) (s : State) : Res := lift (fun d => d.sqTail q val.toNat) s

/-- CQ_HEAD of a pair written (R269 to R271): space freed in the CQ; events kept for pair 0 follow. -/
def Dev.cqHead (d : Dev) (q v : Nat) : Dev :=
  d.when (d.doorbell q) fun d =>
    let h := v % 65536
    let r := d.ring q
    let n := 2 ^ r.cqLog
    if n ≤ h ∨ (r.cqTail + n - r.cqHead) % n < (h + n - r.cqHead) % n then d.ringError q 2
    else
      let d1 := d.setRing q { r with cqHead := h }
      if q = 0 then d1.flushEvents else d1

/-- CQ_HEAD_WRITE (R270). -/
def execCqHeadWrite (q : Fin 256) (val : Word) (s : State) : Res := lift (fun d => d.cqHead q val.toNat) s

/-! ### Commands -/

/-- What Table 10.6 and the chapters' tables say of an opcode: admin; slack; the feature it needs. -/
def opInfo (opc : Nat) : Option (Bool × Bool × Option Nat) :=
  if opc ∈ [0x0001, 0x0002, 0x0003, 0x0004, 0x0012, 0x0014, 0x0021, 0x0022, 0x0030] then some (true, false, none)
  else if opc = 0x0010 ∨ opc = 0x0011 then some (true, true, none)
  else if opc = 0x0013 then some (true, false, some 4)
  else if opc = 0x0020 then some (true, false, some 0)
  else if opc ∈ [0x0031, 0x0040, 0x0041, 0x0108, 0x0400, 0x0401] then some (false, false, none)
  else if 0x0100 ≤ opc ∧ opc < 0x0108 then some (true, false, none)
  else if 0x0200 ≤ opc ∧ opc < 0x0205 then some (true, false, some 4)
  else if 0x0300 ≤ opc ∧ opc < 0x0304 then some (true, false, none)
  else if opc = 0x0402 ∨ opc = 0x0403 then some (true, false, none)
  else if 0x0500 ≤ opc ∧ opc < 0x0504 then some (true, false, some 5)
  else none

/-- Commands that may carry ARM; those that must (Tables 10.6, 12.3, 16.3, 17.7, 19.3). -/
def armAllowed (opc : Nat) : Bool :=
  opc ∈ [0x0012, 0x0013, 0x0020, 0x0102, 0x0104, 0x0105, 0x0201, 0x0300, 0x0302, 0x0303, 0x0501]
def armRequired (opc : Nat) : Bool := opc == 0x0300 || opc == 0x0303

/-- Feature bit `i` is agreed (R274). -/
def Dev.feature (d : Dev) (i : Nat) : Bool := d.b (pgFWR + 0x154 + 4 * (i / 32)) (i % 32)

/-- The lease has expired. -/
def Dev.expired (d : Dev) : Bool := d.g 0x8170 8 2 == 2

/-- The status a fetched command is refused with, if any, before its own checks (R273, R283, Table 10.5). -/
def Dev.refuses (d : Dev) (q : Nat) (l : List Byte) : Option Nat :=
  let opc := leAt l 0 2
  let fl := leAt l 4 1
  match opInfo opc with
  | none => some 0x0001
  | some (admin, slack, feat) =>
    if admin && q ≠ 0 then some 0x0003
    else if !d.fw.negotiated && opc ≠ 1 then some 0x0004
    else if d.expired && !(opc ∈ [0x0001, 0x0002, 0x0021, 0x0031]) then some 0x0011
    else if leAt l 2 2 = 0xffff ∨ 2 ≤ fl ∨ leAt l 5 3 ≠ 0 ∨ leAt l 28 4 ≠ 0 ∨ (fl = 0 ∧ leAt l 8 8 ≠ 0) then some 0x0002
    else if (fl = 1 && !armAllowed opc) || (fl = 0 && armRequired opc) then some 0x0002
    else if slack && !d.slackNow then some 0x0007
    else match feat with
      | some f => if d.feature f then none else some 0x0005
      | none => none

/-- The core that serves a pair runs (R285). -/
def Dev.svServes (d : Dev) (q : Nat) : Bool :=
  (d.cores.getD (if q = 0 then 32 else if q % 2 = 1 then 35 else 34) {}).running

/-- Pair `q` is fetched from: the firmware runs, no boundary is being applied (R60), the lease lets it (R282, R283), and a cove's pair belongs to an ACTIVE
cove (R333, R336). -/
def Dev.fetches (d : Dev) (q : Nat) : Bool :=
  let r := d.ring q
  d.live && r.enabled && !r.err && d.svServes q && (q == 0 || !d.expired)
    && (r.driver || (d.cove r.cove).state == 1)

/-- The next entry of a pair fetched, space for its completion reserved; what R273 refuses is completed at once (R270 to
R273). -/
def Dev.fetchNext (d : Dev) (q : Nat) : Dev :=
  let r := d.ring q
  let (l, bad, d1) := d.memRead pgFWR (domOf (if r.driver then none else some r.cove)) (r.sqBase + 64 * r.sqHead) 64
  let t := BitVec.ofNat 64 (leAt l 8 8)
  let arm := leAt l 4 1 == 1
  let c : Cmd := { pair := q, cid := leAt l 2 2, opc := leAt l 0 2, arm := arm, late := arm && decide (t ≤ d.tide.cur),
                   tide := t, buf := leAt l 16 8, buflen := leAt l 24 4, param := l.drop 32 }
  let d2 := d1.setRing q { r with sqHead := (r.sqHead + 1) % 2 ^ r.sqLog, reserved := r.reserved + 1 }
  let d3 := ({ d2 with fw := { d2.fw with fetched := d2.fw.fetched ++ [c] } } : Dev).coveWorks
    (if r.driver then none else some r.cove)
  match d3.refuses q l with
  | some st => d3.complete q c.cid st 0
  | none => if bad then d3.complete q c.cid 0x0002 0 else d3

/-- COMMAND_FETCH (R270 to R273). -/
def execCommandFetch (q : Fin 256) (s : State) : Res :=
  lift (fun d => d.when (d.fetches q && (d.ring q).sqHead ≠ (d.ring q).sqTail && decide (0 < (d.ring q).free)) fun d =>
    d.fetchNext q) s

/-- The buffer of a command may be accessed: device memory outside the firmware area; on a cove's ring, its ranges. -/
def Dev.bufOk (d : Dev) (c : Cmd) (w : Bool) (n : Nat) : Bool :=
  let r := d.ring c.pair
  if r.driver then inUserMem c.buf n else inUserMem c.buf n && d.inCove r.cove w c.buf n

/-- The domain of a command's work, and the cove of its ring. -/
def Dev.cmdCove (d : Dev) (c : Cmd) : Option Nat := if (d.ring c.pair).driver then none else some (d.ring c.pair).cove

/-- Bytes written to a command's buffer, then its completion. -/
def Dev.answer (d : Dev) (c : Cmd) (l : List Byte) (result : Nat) : Dev :=
  if c.buflen < l.length then d.complete c.pair c.cid 0x0002 0
  else if !d.bufOk c true l.length then d.complete c.pair c.cid 0x0010 0
  else (d.memWrite pgFWR (domOf (d.cmdCove c)) c.buf l false).complete c.pair c.cid 0 result

/-- The lease's state. -/
def Dev.setLease (d : Dev) (st : Nat) : Dev := d.s 0x8170 8 2 st

/-- The features that a ring pair or a cove uses (R274, Table 10.7): those the commands fetched from the pairs need; resizing,
where coves are resizable; and of a cove's own, namespaces the storage target, tensors the dumps, a region with ODP
on-demand paging. -/
def Dev.featuresUsed (d : Dev) : Nat :=
  let coves := d.coves.filter fun c => c.2.state ≠ 0
  let has (f : Nat) : Bool := d.fw.fetched.any fun c => (opInfo c.opc).any fun x => x.2.2 == some f
  let odp := d.regs.any fun r => r.1 % 2 ^ 24 == pgEMH + 0x18c && decide (2 ^ 24 ≤ r.1) && d.b r.1 2 && !d.b r.1 3
    && d.g (r.1 + 8) 4 2 ≠ 0
  b2n (has 0) + 2 * b2n (has 1 || !coves.isEmpty && !d.b (pgCOV + 0x100) 0)
    + 8 * b2n (has 3 || coves.any fun c => decide (0 < c.2.cfg.nsMask)) + 16 * b2n (has 4)
    + 32 * b2n (has 5 || d.trc.tensors.any fun t => t.2.cove.isSome) + 64 * b2n (has 6 || odp)

/-- A NEGOTIATE that may run now (R274, R283): the first, or after an expiry, in slack, keeping the features in use. -/
def Dev.mayNegotiate (d : Dev) (mask : Nat) : Bool :=
  let inUse := d.featuresUsed
  !d.fw.negotiated || d.expired && d.slackNow && mask &&& inUse == inUse

/-- The features both sides have become active; the first NEGOTIATE starts the lease (R274, R281). -/
def Dev.negotiate (d : Dev) (c : Cmd) : Dev :=
  let img := d.fw.image
  let act := leAt c.param 16 16 &&& img.feat
  let out := leBytes act 16 ++ [BitVec.ofNat 8 (min (leAt c.param 1 1) img.ifMin)] ++ List.replicate 15 0
  let d1 := d.each (List.range 4) fun k d => d.wr (pgFWR + 0x154 + 4 * k) (BitVec.ofNat 32 (act / 2 ^ (32 * k)))
  let d2 := if d.fw.negotiated then d1 else d1.setLease 1
  ({ d2 with fw := { d2.fw with negotiated := true } } : Dev).answer c out 0

/-- NEGOTIATE (R274, R281). -/
def execNegotiate (cid : Nat) (s : State) : Res :=
  lift (fun d => d.admin cid 0x0001 fun c d =>
    if leAt c.param 0 1 ≠ d.fw.image.ifMaj then d.complete 0 cid 0x0006 0
    else if leAt c.param 2 14 ≠ 0 then d.complete 0 cid 0x0002 0
    else if !d.mayNegotiate (leAt c.param 16 16) then d.complete 0 cid 0x0002 0
    else if c.buflen < 32 then d.complete 0 cid 0x0002 0
    else if !d.bufOk c true 32 then d.complete 0 cid 0x0010 0
    else d.negotiate c) s

/-- RESUME (R283): a renewal written after the expiry is needed. -/
def execResume (cid : Nat) (s : State) : Res :=
  lift (fun d => d.admin cid 0x0002 fun _ d =>
    if d.expired && d.fw.renewed then
      let d1 := (d.setLease 1).complete 0 cid 0 0
      ({ d1 with slack := { d1.slack with lease := false }
                 fw := { d1.fw with renewed := false, leaseSlackPend := none } } : Dev).resumed
    else d.complete 0 cid 0x0011 0) s

/-- A pair that CREATE_RINGS may enable with these places and sizes (R268): one stopped by an error must be deleted first
(R270), and one that a resize keeps reserved is not its owner's (R330, R331). -/
def Dev.ringsOk (d : Dev) (pair sqBase sqLog cqBase cqLog vec : Nat) (owner : Option Nat) : Bool :=
  let assigned := (List.range 64).find? fun n => (d.cove n).state ≠ 0 && bitN (d.cove n).cfg.ringMask pair
  let place (a n : Nat) : Bool := a % 64 == 0 && d.inStaging a n &&
    match owner with | none => true | some k => d.inCove k true a n
  decide (1 ≤ pair) && decide (pair ≤ 255) && decide (4 ≤ sqLog) && decide (sqLog ≤ 12) && decide (4 ≤ cqLog)
    && decide (cqLog ≤ 12) && decide (vec < 512) && assigned == owner && !(d.ring pair).enabled
    && !d.reserved (fun g => bitN g.ringMask pair)
    && place sqBase (64 * 2 ^ sqLog) && place cqBase (16 * 2 ^ cqLog)

/-- CREATE_RINGS (R268): the driver's pair, or one of a cove's, in the scratch pool. -/
def execCreateRings (cid pair sqBase sqLog cqBase cqLog vec : Nat) (owner : Option Nat) (s : State) : Res :=
  lift (fun d => d.admin cid 0x0003 fun _ d =>
    if d.ringsOk pair sqBase sqLog cqBase cqLog vec owner then
      (d.setRing pair { enabled := true, driver := owner.isNone, cove := owner.getD 0, sqBase := sqBase, sqLog := sqLog,
                        cqBase := cqBase, cqLog := cqLog, vec := vec }).complete 0 cid 0 0
    else d.complete 0 cid 0x0002 0) s

/-- A pair deleted: nothing on it completes any more. -/
def Dev.dropRing (d : Dev) (q : Nat) : Dev :=
  { d.setRing q {} with fw := { (d.setRing q {}).fw with fetched := d.fw.fetched.filter (·.pair ≠ q) } }

/-- DELETE_RINGS (R270). -/
def execDeleteRings (cid pair : Nat) (s : State) : Res :=
  lift (fun d => d.admin cid 0x0004 fun _ d =>
    if 1 ≤ pair ∧ pair ≤ 255 ∧ (d.ring pair).enabled then (d.dropRing pair).complete 0 cid 0 0
    else d.complete 0 cid 0x0002 0) s

/-! ### Live update (R276 to R280) -/

/-- The handover record in the running image's own slot, behind the 32 MiB an image may have: rings, lease, coves, armed
commands and pending event bits. The spec gives it no layout: its bytes are free, its place and size the model's (DESIGN
CHOICE, log entry 98); what a rollback takes from it stands in the update. -/
def Dev.handRecord (d : Dev) : Dev :=
  let (l, d1) := d.freeBytes 65536
  d1.memWrite pgFWR 0x40 (slotBase d.fw.slotB + 2 ^ 25) l false

/-- The handover (R277): the record is brought up to date; the new image starts in the slot that was idle; the records of SV0 to SV3
show a gap that ends in SYNC (Table 19.5); every command fetched so far is the old image's
(R280). -/
def Dev.handover (d : Dev) (u : Update) : Dev :=
  let before := d.fw.fetched.map fun c => (c.pair, c.cid)
  let d0 := d.handRecord.startImage (!d.fw.slotB) u.img
  let d1 := d0.each [32, 33, 34, 35] fun i d => d.setTcore i { d.tcore i with sync := true }
  { d1 with fw := { d1.fw with update := some { u with stage := 2, before := before, old := d.fw.image } } }

/-- The old image resumes from its own slot and handover record (R280). -/
def Dev.rollback (d : Dev) : Dev :=
  match d.fw.update with
  | none => d
  | some u =>
    let d1 := (d.startImage (!d.fw.slotB) u.old).setErr pgFWR 3
    let d2 := { d1 with fw := { d1.fw with update := none } }
    let lost := d2.fw.fetched.filter fun c => !u.before.contains (c.pair, c.cid)
    let d3 := d2.each lost fun c d => d.complete c.pair c.cid 0x000e 0
    ((d3.complete 0 u.cid 0x000d 0).event 0x8006 u.old.ver).inc (pgFWR + 0x810)

/-- SEC0 has crashed and its restart is awaited (R242, R285). -/
def Dev.secDown (d : Dev) : Bool := (d.core 36).cause == 0xff && !(d.core 36).running

/-- FW_UPDATE (R276, R278): verification begins. -/
def execFwUpdate (cid : Nat) (s : State) : Res :=
  lift (fun d => d.admin cid 0x0020 fun c d =>
    if d.fw.update.isSome then d.complete 0 cid 0x000c 0
    else if d.secDown then d.complete 0 cid 0x000f 0
    else if !c.arm && !d.slackNow then d.complete 0 cid 0x0007 0
    else
      let d1 := d.hold c
      { d1 with fw := { d1.fw with update := some { cid := cid, arm := if c.arm then some c.tide else none, img := {}, stage := 0 } } }) s

/-- An update image verified: it goes to the idle slot and the handover is armed or made; or the update is refused (R276,
R278). -/
def Dev.takeImage (d : Dev) (u : Update) (c : Cmd) (sigOk : Bool) : Dev :=
  let (bad, d) := d.imageRead c.buf c.buflen
  let code := d.imageCheck c.buf c.buflen bad sigOk
  let img := imageOf (d.bytes c.buf 256)
  let act := (List.range 4).foldl (fun a k => a + (d.rd (pgFWR + 0x154 + 4 * k)).toNat * 2 ^ (32 * k)) 0
  let d0 := { d with fw := { d.fw with update := none } }
  if code ≠ 0 then (if code = 2 then Dev.verifyFailed d0 else d0).complete 0 u.cid 0x000d code
  else if img.ifMaj ≠ d.fw.image.ifMaj then Dev.complete d0 0 u.cid 0x0006 0
  else if act &&& img.feat ≠ act then Dev.complete d0 0 u.cid 0x0005 0
  else
    let d1 := d.copyGranules c.buf (slotBase (!d.fw.slotB)) ((c.buflen + 255) / 256 * 256)
    let u1 := { u with img := img, stage := 1 }
    if u.arm.isSome then ({ d1 with fw := { d1.fw with update := some u1 } } : Dev).handRecord
    else if d.slackNow then d1.handover u1
    else ({ d1 with fw := { d1.fw with update := none } } : Dev).complete 0 u.cid 0x0007 0

/-- FW_UPDATE_VERIFIED (R276, R278). -/
def execFwUpdateVerified (sigOk : Bool) (s : State) : Res :=
  lift (fun d => match d.fw.update with
    | none => d
    | some u =>
      match d.fw.fetched.find? fun c => c.pair == 0 && c.cid == u.cid && c.opc == 0x0020 with
      | none => d
      | some c => if u.stage ≠ 0 ∨ d.safe then d else d.takeImage u c sigOk) s

/-- UPDATE_CONFIRM (R279). -/
def execUpdateConfirm (s : State) : Res :=
  lift (fun d => match d.fw.update with
    | none => d
    | some u =>
      if u.stage ≠ 2 ∨ d.safe then d else
        let d1 := ({ d with fw := { d.fw with update := none } } : Dev).complete 0 u.cid 0 u.img.ver
        (d1.event 0x8005 u.img.ver).inc (pgFWR + 0x80c)) s

/-- UPDATE_CONFIRM_TIMEOUT (R280). -/
def execUpdateConfirmTimeout (s : State) : Res :=
  lift (fun d => match d.fw.update with
    | none => d
    | some u => if u.stage ≠ 2 ∨ d.safe then d else d.rollback) s

/-! ### The lease (R281 to R283) -/

/-- The device enters lease slack, and LEASE_EXPIRED is posted (R282). -/
def Dev.enterLease (d : Dev) : Dev :=
  ({ d with slack := { d.slack with lease := true }, fw := { d.fw with leaseSlackPend := none } } : Dev).event 0x8007
    d.tide.cur.toNat

/-- LEASE.RENEW written (R281, R283). -/
def Dev.renew (d : Dev) : Dev := d.when d.expired fun d => { d with fw := { d.fw with renewed := true } }

/-- LEASE_RENEW (R281): after an expiry the renewal is what RESUME needs (R283). -/
def execLeaseRenew (s : State) : Res :=
  lift (fun d => d.onReg (pgFWR + 0x170) Dev.renew) s

/-- The lease expires (R282): slack begins at the next boundary; a device in slack already is in lease slack at once. -/
def Dev.leaseExpire (d : Dev) : Dev :=
  let d1 := ((d.setLease 2).setErr pgFWR 2).inc (pgFWR + 0x804)
  let d2 := { d1 with fw := { d1.fw with renewed := false } }
  if d2.slackNow then d2.enterLease else { d2 with fw := { d2.fw with leaseSlackPend := some d2.tide.cur } }

/-- LEASE_EXPIRED (R282). -/
def execLeaseExpired (s : State) : Res :=
  lift (fun d => d.when (d.g 0x8170 8 2 == 1 && d.fwRunning && !d.safe) fun d => d.leaseExpire) s

/-! ### Crashes (R284 to R288) -/

/-- Does a core serve a fetched command (R285)? -/
def servedBy (core pair : Nat) : Bool :=
  if core = 0 then pair == 0 else if core = 3 then pair % 2 == 1 else if core = 2 then pair % 2 == 0 && pair ≠ 0 else false

/-- SEC0's work ends with its crash (Table 18.6): reports and the weight measurement with FW_RESTARTED, a verification
with UPDATE_FAILED. -/
def Dev.secCrash (d : Dev) : Dev :=
  let d1 := d.each d.sec.reports fun r d => d.complete r.1 r.2.1 0x000e 0
  let d2 := match d1.sec.meas with
    | some m => ((d1.complete 0 m.1 0x000e 0).s (pgSEC + 0x118) 0 1 0).setErr pgSEC 2
    | none => d1
  let d3 := { d2 with sec := { d2.sec with reports := [], meas := none } }
  match d3.fw.update with
  | some u => if u.stage = 0 then ({ d3 with fw := { d3.fw with update := none } } : Dev).complete 0 u.cid 0x000d 0 else d3
  | none => d3

/-- A crash counted against its core (R284, R286). -/
def Dev.countCrash (d : Dev) (core n : Nat) : Dev := { d with fw := { d.fw with crashes := d.fw.crashes.set core n } }

/-- Where the dump of an index stands: the last 512 KiB of the firmware area (DESIGN CHOICE, log entry 32). -/
def dumpAddr (idx : Nat) : Nat := devEnd - 0x80000 + idx % 8 * 65536

/-- The crash dump of a core (R288), in a layout of the model's own (DESIGN CHOICE, log entry 32): 32 registers as in a state
image, control registers 0x000 to 0x005, the tide, free bytes, and the 16 KiB below the stack pointer; whether those read
poisoned. -/
def Dev.dumpOf (d : Dev) (i : Nat) : List Byte × Bool × Dev :=
  let k := d.core i
  let e (r : Reg) : List Byte := leBytes r.v.toNat 8 ++ [BitVec.ofNat 8 r.tag] ++ List.replicate 7 0
  let sp := adrOf 2 (k.gr.getD 29 {}).v
  let (stack, bad, d1) := if 16384 ≤ sp ∧ sp ≤ devEnd then d.memRead pgFWR 0x40 (sp - 16384) 16384
    else (let (l, d1) := d.freeBytes 16384; (l, false, d1))
  let (gap, d2) := d1.freeBytes 48584
  ((List.range 32).flatMap (fun j => e (k.gr.getD j {})) ++ (List.range 6).flatMap (fun j => leBytes (k.cr.getD j 0).toNat 8)
    ++ leBytes d.tide.cur.toNat 8 ++ gap ++ stack, bad, d2)

/-- A crash dump written over the oldest of eight, and its 256-byte summary, whose content the spec leaves open, to the NOR
error history (R284, R288). -/
def Dev.crashDump (d : Dev) (i : Nat) : Dev :=
  let (l, bad, d1) := d.dumpOf i
  let d2 := d1.memWrite pgFWR 0x40 (dumpAddr d.fw.dumps) l bad
  let (x, d3) := d2.freeBytes 256
  { d3 with fw := { d3.fw with dumps := d3.fw.dumps + 1 }, err := { d3.err with norDumps := d3.err.norDumps ++ [x] } }

/-- A core restarted after its crash, its dump written (R284 to R287): what it served ends FW_RESTARTED; where an unconfirmed
update rolls back, the old image resumes from its record, and only what the new image fetched ends so (R280). -/
def Dev.restartCore (d : Dev) (core : Nat) : Dev :=
  let idx := d.fw.dumps % 8
  let i := 32 + core
  let d1 := ({ d with fw := { d.fw with restarting := [core] } } : Dev).crashDump i
  let d2 := (d1.setErr pgFWR 1).inc (pgFWR + 0x808)
  if core = 4 then
    (d2.secCrash.setCore 36 { pc := BitVec.ofNat 64 (48 * 2 ^ 48), running := true }).event 0x8004 (8 + idx * 256)
  else
    let roll := match d2.fw.update with | some u => u.stage == 2 | none => false
    if roll then d2.rollback.event 0x8004 (core + idx * 256)
    else
      let d3 := if core = 0 then { d2 with fw := { d2.fw with update := none } } else d2
      let d4 := Dev.each d3 (d3.fw.fetched.filter fun c => servedBy core c.pair) fun c d => d.complete c.pair c.cid 0x000e 0
      (d4.startCore core).event 0x8004 (core + idx * 256)

/-- A restart is in progress (R287): another service or security core stands crashed, or, as `during` says, the restart
begun last has not ended. -/
def Dev.restarts (d : Dev) (core : Nat) (during : Bool) : Bool :=
  (List.range 5).any (fun j => j ≠ core && (d.core (32 + j)).cause == 0xff && !(d.core (32 + j)).running)
    || during && !d.fw.restarting.isEmpty

/-- WATCHDOG_EXPIRY (R284 to R287, R449): SV0 to SV3 are 0 to 3, SEC0 is 4. `during`: the restart begun last has not ended;
`old`: how many of the core's crashes counted lie more than 60 s back; `handling`: the core was handling an error. A crash
of a service core in a restart is fatal, and a core's third. -/
def execWatchdogExpiry (core : Fin 5) (during : Bool) (old : Nat) (handling : Bool) (s : State) : Res :=
  lift (fun d => d.when (d.fwRunning && !d.safe) fun d =>
    let n := d.fw.crashes.getD core 0 - old + 1
    let d1 := d.countCrash core n
    if handling && decide (core.val < 4) then (d1.setErr 0x5000 1).report 0x5000 none 0x0025 0x41 core 0
    else if decide (core.val < 4) && d.restarts core during || 3 ≤ n then d1.report pgFWR none 0x0024 0x41 core 0
    else d1.restartCore core) s

/-- GET_DUMP (R288): the dump of that index, as the firmware area keeps it. -/
def execGetDump (cid : Nat) (s : State) : Res :=
  lift (fun d => d.admin cid 0x0021 fun c d =>
    let k := leAt c.param 0 1
    if c.buflen < 65536 ∨ min 8 d.fw.dumps ≤ k then d.complete 0 cid 0x0002 0
    else if !d.bufOk c true 65536 then d.complete 0 cid 0x0010 0
    else
      let (l, bad, d1) := d.memRead pgFWR 0x40 (dumpAddr k) 65536
      (d1.memWrite pgFWR 0x40 c.buf l bad).complete 0 cid 0 0) s

/-- A log entry of 64 bytes written, over the oldest; with no log ring configured nothing is (R289). -/
def Dev.logEntry (d : Dev) (src level code : Nat) (args : List Byte) : Dev :=
  if !d.fw.logOn then d
  else
    let n := d.fw.logSeq
    let l := leBytes d.trclk.toNat 8 ++ leBytes n 4 ++ [BitVec.ofNat 8 src, BitVec.ofNat 8 level] ++ leBytes code 2 ++ padTo 48 args
    let d1 := d.memWrite pgFWR 0x40 (d.fw.logBase + 64 * (n % 2 ^ d.fw.logLog2)) l false
    { d1 with fw := { d1.fw with logSeq := n + 1 } }

/-- LOG_CFG (R289). -/
def execLogCfg (cid base log : Nat) (s : State) : Res :=
  lift (fun d => d.admin cid 0x0022 fun _ d =>
    if log < 6 ∨ 16 < log ∨ base % 64 ≠ 0 then d.complete 0 cid 0x0002 0
    else if !d.inStaging base (64 * 2 ^ log) then d.complete 0 cid 0x0010 0
    else ({ d with fw := { d.fw with logBase := base, logLog2 := log, logOn := true, logSeq := 0 } } : Dev).complete 0 cid 0 0) s

end Sys2Proof.Machine
end

