-- ==== Sys2Proof/Machine/Emh.lean ====
section
/-!
DEFINITION. Machine/Emh.lean: Emham connections, work requests, selective repeat, paths, placement, regions and on-demand
paging (chapter 14).
-/
namespace Sys2Proof.Machine

/-! ### The end of requests and contexts -/

/-- A request completes: its record is written unless CMPL is 0; its packets not yet sent never are (R379, R383). -/
def Dev.endReq (d : Dev) (c : Nat) (r : Req) (status : Nat) (body : List Byte := []) : Dev :=
  let x := d.ctx c
  let d1 := d.setCtx { x with
    reqs := x.reqs.filter (·.msn ≠ r.msn)
    tx := x.tx.filter fun t => t.pkt.msn ≠ r.msn || t.pkt.op == 1 || t.pkt.op == 4 || (t.sent && !t.delayed) }
  let d2 := if status = 0x23 then d1.setErr pgEMH 3 else d1
  let own := d2.cOwner c
  let d3 := if r.cmpl = 0 then d2
    else if !(r.cmpl % 16 == 0 && d2.rangeOk own true r.cmpl 16) then d2.emhDeny own true r.cmpl 16
    else d2.memWrite pgEMH (domOf own) r.cmpl
      (cmplRecord status (b2n r.poison) (min 65535 r.retx) (min 65535 r.pw) r.addr) false
  if r.job = 0 then d3 else d3.ownDone r.job status body r.poison

/-- An exchange message ends with a status; its packets not yet sent never are. -/
def Dev.endMsg (d : Dev) (c msn status : Nat) : Dev :=
  let x := d.ctx c
  let ids := ((x.tx.filter fun t => t.pkt.op == 1 && t.pkt.msn == msn).map (·.msg)).eraseDups
  let d1 := d.setCtx { x with tx := x.tx.filter fun t => t.pkt.msn ≠ msn || t.pkt.op ≠ 1 || (t.sent && !t.delayed) }
  d1.each (ids.filter (· ≠ 0)) fun id d => d.xFailed id status

/-- A message or request of this side ends with a status, by its MSN. -/
def Dev.endMsn (d : Dev) (c msn status : Nat) : Dev :=
  match (d.ctx c).reqs.find? (·.msn == msn) with
  | some r => d.endReq c r status
  | none => d.endMsg c msn status

/-- Every fetched request and every message of a context ends with a status. -/
def Dev.endAll (d : Dev) (c status : Nat) : Dev :=
  let x := d.ctx c
  let ids := ((x.tx.filter fun t => t.pkt.op == 1).map (·.msg)).eraseDups.filter (· ≠ 0)
  let d1 := d.setCtx { x with tx := [], stalled := none }
  let d2 := d1.each (x.reqs ++ x.stalled.toList) fun r d => d.endReq c r status
  d2.each ids fun id d => d.xFailed id status

/-- Fields of region `i` (Table 14.9): register at offset `o`. -/
def regKey (i o : Nat) : Nat := pgEMH + o + (i + 1) * 2 ^ 24
def Dev.regState (d : Dev) (i : Nat) : Nat := d.g (regKey i 0x194) 4 2
def Dev.regSize (d : Dev) (i : Nat) : Nat := d.g (regKey i 0x188) 0 24 * 65536
def Dev.regBase (d : Dev) (i : Nat) : Nat := (d.rd (regKey i 0x184)).toNat * 65536
def Dev.regOwner (d : Dev) (i : Nat) : Option Nat := if d.b (regKey i 0x18c) 3 then none else some (d.g (regKey i 0x18c) 4 6)

/-- A validated message of a region is not complete, or a response of it is not acknowledged (R390). -/
def Dev.regBusy (d : Dev) (i : Nat) : Bool :=
  d.emh.ctx.any fun x => (x.rx.any fun m => (m.op == 2 || m.op == 3) && m.nak.isNone && m.rkey % 4096 == i)
    || x.tx.any fun t => t.reg == some i

/-- A CLOSING region with nothing validated left becomes FREE, with an event (R390). -/
def Dev.regCheck (d : Dev) : Dev :=
  let l := (d.regs.filterMap fun (r : Nat × Word) =>
    if r.1 % 2 ^ 24 = pgEMH + 0x194 ∧ 2 ^ 24 ≤ r.1 then some (r.1 / 2 ^ 24 - 1) else none).eraseDups
  d.each l fun i d =>
    if d.regState i = 2 && !d.regBusy i then (d.s (regKey i 0x194) 4 2 0).emhEvent 9 none none none none else d

/-- The transport state of a context that is closed, failed or opened anew: incoming messages not complete are discarded,
and the credit of a dispatch among them falls owed to its origin (R150, R375, R384). -/
def Dev.clearCtx (d : Dev) (c : Nat) (rep : List Byte) : Dev :=
  let lost (p : Nat × Nat × Option Nat × Nat) : Bool := p.1 == c && (d.ctx c).rx.any fun m => m.op == 1 && m.msn == p.2.1
  let n := (d.xch.pre.filter lost).length
  let d1 := d.setCtx { conn := c, rep := rep, ntPhase := (d.ctx c).ntPhase }
  (({ d1 with xch := { d1.xch with pre := d1.xch.pre.filter fun p => !lost p } } : Dev).owe (d.cPeer c) c n).regCheck

/-- Every PSN and MSN field set to 0 (R375). -/
def Dev.zeroSeq (d : Dev) (c : Nat) : Dev := (d.setCf c 104 8 0).setCf c 112 8 0

/-- The frames a context has queued leave their queues unsent: a context that enters FAILED sends nothing further (R384). -/
def Dev.unqueue (d : Dev) (c : Nat) : Dev :=
  d.unqueueOf (· == c)

/-- DEV_UNREACHABLE when every context to a peer that is not CLOSED is FAILED (R384). -/
def Dev.unreachableCheck (d : Dev) (peer c : Nat) : Dev :=
  if d.liveCtxs.all fun k => d.cPeer k ≠ peer || d.cState k = 6 then d.emhEvent 0x07 (some peer) (some c) none none else d

/-- A context enters FAILED: by its own detection with CONN_FAILED, or on a received RESET with PEER_RESET (R384). A
worker's control connection with its headland takes the tide marks with it (R24). -/
def Dev.failCtx (d : Dev) (c : Nat) (own : Bool) : Dev :=
  let peer := d.cPeer c
  let ctl := d.cService c == 2 && d.cOwner c == none
  let xch := d.cService c == 1
  let own' := d.cOwner c
  let d1 := ((d.unqueue c).setCf c 0 1 6).endAll c (if own then 0x20 else 0x24)
  let d2 := ((d1.clearCtx c (d1.ctx c).rep).inc (pgEMH + 0x838)).setErr pgEMH 0
  let d3 := (d2.emhEvent (if own then 0x05 else 0x06) (some peer) (some c) none none).unreachableCheck peer c
  if ctl then (d3.marksLost peer).memberLost peer else if xch then d3.xConnFailed c peer own' else d3

/-- The path of packets that answer nothing: the first that is up. -/
def Dev.anyPath (d : Dev) (c : Nat) : Nat := (d.nextUp c 0).getD 0

/-- A packet with no payload sent on a context. -/
def Dev.sendBare (d : Dev) (c p op : Nat) : Dev := d.sendOn c p { op := op }

/-- A draining context with no work left sends CLOSE and is CLOSED (R375); what it has sent of messages and responses is
acknowledged first (DEDUCED from Table 14.7, log entry 65). -/
def Dev.drainCheck (d : Dev) (c : Nat) : Dev :=
  let x := d.ctx c
  if d.cState c = 4 ∧ x.reqs.isEmpty ∧ x.tx.isEmpty ∧ x.stalled.isNone then
    ((d.sendBare c (d.anyPath c) 9).clearCtx c []).setCf c 0 1 0
  else d

/-- The context's cove is frozen or freezing (R336). -/
def Dev.ctxFrozen (d : Dev) (c : Nat) : Bool :=
  match d.cOwner c with
  | none => false
  | some n => (d.cove n).state == 2 || (d.cove n).state == 3

/-- With nothing in flight, a context of a frozen cove becomes FROZEN (Table 14.8). -/
def Dev.freezeCheck (d : Dev) (c : Nat) : Dev :=
  let x := d.ctx c
  if d.cState c = 3 && d.ctxFrozen c && x.reqs.isEmpty && x.tx.isEmpty && x.stalled.isNone && x.rx.all (·.nak.isSome) then
    d.setCf c 0 1 5
  else d

/-- What may follow when work of a context has ended. -/
def Dev.ctxSettle (d : Dev) (c : Nat) : Dev := (((d.pump c).drainCheck c).freezeCheck c).checkDone

/-! ### CONN_CMD (R374, R375) -/

/-- CONN_CMD.REFUSED. -/
def Dev.connRefused (d : Dev) (c : Nat) (r : Bool) : Dev :=
  (d.s (pgEMH + 0x114) 0 16 c).sb (pgEMH + 0x114) 30 r

/-- What the checks of a cove's context record (R324). -/
def Dev.ctxDeny (d : Dev) (c : Nat) : Dev :=
  match d.cOwner c with
  | none => d
  | some n =>
    let ok := d.inCove n true (d.cf c 80 8) (64 * 2 ^ d.cf c 88 1)
      && (d.cf c 89 1 == 0 || d.inCove n true (d.cf c 96 8) (32 * 2 ^ d.cf c 89 1))
    if (d.cove n).state = 0 || ok then d else d.deny n

/-- The context may be opened: a cove's names SQ and NT within its ranges, and stays within its quota (R374, Table 12.1). -/
def Dev.ctxOk (d : Dev) (c : Nat) : Bool :=
  match d.cOwner c with
  | none => true
  | some n =>
    (d.cove n).state ≠ 0 && d.inCove n true (d.cf c 80 8) (64 * 2 ^ d.cf c 88 1)
      && (d.cf c 89 1 == 0 || d.inCove n true (d.cf c 96 8) (32 * 2 ^ d.cf c 89 1))
      && decide ((d.liveCtxs.filter fun k => k ≠ c && d.cOwner k == some n).length < (d.cove n).cfg.connq)

/-- LISTEN. -/
def Dev.connListen (d : Dev) (c : Nat) : Dev :=
  if d.cState c ≠ 0 ∧ d.cState c ≠ 6 then d.connRefused c true
  else if !d.ctxOk c then ((d.ctxDeny c).setCf c 0 1 0).connRefused c true
  else ((d.clearCtx c (d.bytes (d.ctxAddr c) 80)).setCf c 0 1 1).connRefused c false

/-- OPEN: the work of a context that is open ends as under RESET (DEDUCED, log entry 35). -/
def Dev.connOpen (d : Dev) (c : Nat) : Dev :=
  let d0 := d.endAll c 5
  if !d0.ctxOk c then (((d0.ctxDeny c).clearCtx c []).setCf c 0 1 0).connRefused c true
  else
    let d1 := d0.clearCtx c (d0.bytes (d0.ctxAddr c) 80)
    let d2 := ((d1.setCf c 3 1 ((d1.cf c 3 1 + 1) % 256)).zeroSeq c).setCf c 0 1 2
    (d2.sendBare c (d2.anyPath c) 7).connRefused c false

/-- CLOSE. -/
def Dev.connClose (d : Dev) (c : Nat) : Dev :=
  let st := d.cState c
  if st = 3 then ((d.setCf c 0 1 4).drainCheck c).connRefused c false
  else if st = 5 then d.connRefused c true
  else if st = 1 ∨ st = 2 ∨ st = 6 then ((d.clearCtx c []).setCf c 0 1 0).connRefused c false
  else d.connRefused c false

/-- RESET, in any state: a context that has FAILED sends nothing further (R384). -/
def Dev.connReset (d : Dev) (c : Nat) : Dev :=
  let d0 := if d.cState c = 6 then d else d.sendBare c (d.anyPath c) 0xa
  ((d0.endAll c 5).clearCtx c []).setCf c 0 1 0

/-- REPOINT. -/
def Dev.connRepoint (d : Dev) (c : Nat) : Dev :=
  if d.cState c = 0 then d else d.setCtx { d.ctx c with rep := d.bytes (d.ctxAddr c) 80 }

/-- A command on a context. -/
def Dev.connCmd (d : Dev) (c cmd : Nat) : Dev :=
  let d := (d.s (pgEMH + 0x114) 0 16 c).cTouch c
  match cmd with
  | 1 => d.connListen c
  | 2 => (d.connOpen c).checkDone
  | 3 => d.connClose c
  | 4 => (d.connReset c).checkDone
  | 5 => d.connRepoint c
  | _ => d

/-- CONN_LISTEN (R375). -/
def execConnListen (conn : Fin 65536) (s : State) : Res :=
  lift (fun d => d.onReg (pgEMH + 0x114) fun d => d.connCmd conn 1) s
/-- CONN_OPEN (R375). -/
def execConnOpen (conn : Fin 65536) (s : State) : Res :=
  lift (fun d => d.onReg (pgEMH + 0x114) fun d => d.connCmd conn 2) s
/-- CONN_CLOSE (R375). -/
def execConnClose (conn : Fin 65536) (s : State) : Res :=
  lift (fun d => d.onReg (pgEMH + 0x114) fun d => d.connCmd conn 3) s
/-- CONN_RESET (R375). -/
def execConnReset (conn : Fin 65536) (s : State) : Res :=
  lift (fun d => d.onReg (pgEMH + 0x114) fun d => d.connCmd conn 4) s
/-- CONN_REPOINT (R375). -/
def execConnRepoint (conn : Fin 65536) (s : State) : Res :=
  lift (fun d => d.onReg (pgEMH + 0x114) fun d => d.connCmd conn 5) s

/-! ### Receiving (R371 to R373) -/

/-- A packet dropped and counted (R372). -/
def Dev.badPkt (d : Dev) : Dev := (d.inc (pgEMH + 0x818)).setErr pgEMH 4

/-- A NAK's payload (Table 14.3). -/
def nakBytes (code psn delay : Nat) : List Byte := beBytes code 2 ++ [0, 0] ++ beBytes psn 4 ++ beBytes delay 4

/-- NAK NOT_READY straight back by the port the packet came in on (R373). -/
def Dev.nakNotReady (d : Dev) (port : Nat) (k : EmhPkt) : Dev :=
  let a : EmhPkt :=
    { op := 6, path := k.path, epoch := k.epoch, domain := k.domain, sdev := k.ddev, ddev := k.sdev, dconn := k.sconn
      sconn := k.dconn, sip := k.dip, dip := k.sip, sport := k.dport, dport := k.sport
      payload := nakBytes 1 k.psn (d.g (pgEMH + 0x124) 0 16) }
  ((d.emit (.direct port a)).inc (pgEMH + 0x81c)).inc (pgEMH + 0x830)

/-- A NAK sent on the path of the packet it answers (R376). -/
def Dev.nak (d : Dev) (c path code psn : Nat) : Dev :=
  let delay := if code = 3 then d.g (pgEMH + 0x128) 0 16 else if code ≤ 2 then d.g (pgEMH + 0x124) 0 16 else 0
  let d1 := (d.sendOn c path { op := 6, payload := nakBytes code psn delay }).inc (pgEMH + 0x81c)
  if code = 1 then d1.inc (pgEMH + 0x830)
  else if code = 3 then d1.inc (pgEMH + 0x824)
  else if code = 4 then d1.inc (pgEMH + 0x82c)
  else d1

/-- A packet taken from those delivered. -/
def Dev.takingPkt (d : Dev) (port : Nat) (k : EmhPkt) : Dev := { d with emh := { d.emh with inq := d.emh.inq.erase (port, k) } }

/-- The row of a received packet: in a hold, and while a channel retrains, it waits (R60, R210); else it is taken from those delivered; the checks of
R371 and R372 are made, and while EMH.CTL.EN is 0 a CONNECT or data packet is answered NOT_READY (R373). -/
def Dev.emhIn (d : Dev) (port : Nat) (k : EmhPkt) (ops : List Nat) (f : Nat → Dev → Dev) : Dev :=
  if !ops.contains k.op || d.tide.hold || !d.calm then d
  else
    let d := d.takingPkt port k
    let c := k.dconn
    if !d.emhUp then d
    else if !k.csumOk then d.badPkt
    else if !d.b (pgEMH + 0x100) 0 then (if k.op ≤ 4 ∨ k.op = 7 then d.nakNotReady port k else d)
    else if k.ver ≠ 1 || k.domain ≠ d.g (pgEMH + 0x108) 16 16 || k.ddev ≠ d.g (pgEMH + 0x108) 0 10 || d.cState c == 0
        || k.sdev ≠ d.cPeer c || k.sconn ≠ d.cf c 6 2 || (k.op ≠ 7 && k.epoch ≠ d.cf c 3 1) then d.badPkt
    else f c (d.cTouch c)

/-- A context becomes ESTABLISHED: credit owed to its peer that found no context is sent (R149). -/
def Dev.established (d : Dev) (c : Nat) : Dev :=
  let d1 := d.setCf c 0 1 3
  if d1.cService c = 1 then d1.creditReady (d1.cPeer c) else d1

/-- A CONNECT taken: the context is as new, ESTABLISHED, and answers ACCEPT (R375). -/
def Dev.connectIn (d : Dev) (c : Nat) (k : EmhPkt) : Dev :=
  let d1 := (d.endAll c 0x24).clearCtx c (d.ctx c).rep
  ((((d1.setCf c 3 1 k.epoch).zeroSeq c).setCf c 0 1 3).sendBare c k.path 8).established c

/-- CONNECT_PKT (R375). -/
def execConnectPkt (port : Nat) (k : EmhPkt) (s : State) : Res :=
  lift (fun d => d.emhIn port k [7] fun c d =>
    let st := d.cState c
    let lower := decide (k.sdev < d.me ∨ (k.sdev = d.me ∧ k.sconn < c))
    if st = 1 || st = 3 || (st == 2 && lower) then
      d.connectIn c k
    else d) s

/-- ACCEPT_PKT (R375). -/
def execAcceptPkt (port : Nat) (k : EmhPkt) (s : State) : Res :=
  lift (fun d => d.emhIn port k [8] fun c d => if d.cState c = 2 then d.established c else d) s

/-- CLOSE_PKT (R375): only OPEN, LISTEN or RESET takes a context out of FAILED (R384). -/
def execClosePkt (port : Nat) (k : EmhPkt) (s : State) : Res :=
  lift (fun d => d.emhIn port k [9] fun c d =>
    if d.cState c = 6 then d else (((d.endAll c 0x24).clearCtx c []).setCf c 0 1 0).checkDone) s

/-- RESET_PKT (R375, R384). -/
def execResetPkt (port : Nat) (k : EmhPkt) (s : State) : Res :=
  lift (fun d => d.emhIn port k [0xa] fun c d => if d.cState c = 6 then d else (d.failCtx c false).checkDone) s

/-- OPEN_TIMEOUT (R375). -/
def execOpenTimeout (conn : Fin 65536) (s : State) : Res :=
  lift (fun d => d.when (d.emhUp && d.cState conn == 2) fun d => (d.failCtx conn true).checkDone) s

/-- CONNECT_RETRY (R375). -/
def execConnectRetry (conn : Fin 65536) (s : State) : Res :=
  lift (fun d => d.when (d.cState conn == 2) fun d => d.sendBare conn (d.anyPath conn) 7) s

/-! ### Work requests (R378, R379) -/

/-- SQ_DB written with a context and a tail. -/
def Dev.sqDb (d : Dev) (c tail : Nat) : Dev :=
  if 2 ^ d.cf c 88 1 ≤ tail then d.badPkt else (d.cTouch c).setCf c 92 2 tail

/-- SQ_DB_WRITE (R378). -/
def execSqDbWrite (conn : Fin 65536) (tail : Fin 4096) (s : State) : Res :=
  lift (fun d => d.onReg (pgEMH + 0x110) fun d => d.sqDb conn tail) s

/-- The page table entries of bytes `off` to `off + n - 1` of a region are read and verified (R199, R391). -/
def Dev.regLook (d : Dev) (i off n : Nat) : Dev :=
  if !d.b (regKey i 0x18c) 2 || n == 0 then d
  else
    let pt := (d.rd (regKey i 0x190)).toNat * 65536
    d.each ((List.range ((off + n - 1) / 65536 - off / 65536 + 1)).map (off / 65536 + ·)) fun p d =>
      (d.memRead pgEMH (domOf (d.regOwner i)) (pt + 8 * p) 8).2.2

/-- Where bytes `off` to `off + n - 1` of a region lie: their ranges; the pages of it that are not present; whether some
lie where no region may (R388, R391). A page whose entry reads poisoned counts as not present (DESIGN CHOICE, log entry
90). -/
def Dev.regTouch (d : Dev) (i off n : Nat) (w : Bool) : List (Nat × Nat) × List Nat × Bool :=
  if !d.b (regKey i 0x18c) 2 then ([(d.regBase i + off, n)], [], false)
  else if n = 0 then ([], [], false)
  else
    let pt := (d.rd (regKey i 0x190)).toNat * 65536
    let pages := (List.range ((off + n - 1) / 65536 - off / 65536 + 1)).map (off / 65536 + ·)
    let ent (p : Nat) : Nat := d.peekN (pt + 8 * p) 8
    let gone := pages.filter fun p => !bitN (ent p) 32 || d.anyBad (pt + 8 * p) 8
    let segs := pages.map fun p =>
      let lo := max off (65536 * p)
      (ent p % 2 ^ 32 * 65536 + lo % 65536, min (off + n) (65536 * (p + 1)) - lo)
    let bad := segs.any fun s => !((inUserMem s.1 s.2 || inHarbour s.1 s.2)
      && match d.regOwner i with | none => true | some k => d.inCove k w s.1 s.2)
    (segs, gone, bad && gone.isEmpty)

/-- Pages of a cove's region that lie outside its ranges: the failed check is counted (R324). -/
def Dev.regDeny (d : Dev) (i : Nat) (segs : List (Nat × Nat)) (w : Bool) : Dev :=
  match d.regOwner i with
  | some k => if segs.any fun s => inMap s.1 s.2 && !d.inCove k w s.1 s.2 then d.deny k else d
  | none => d

/-- PAGE_FAULT posted once for each page not present until it is (R391); pages found present are forgotten. -/
def Dev.pageFaults (d : Dev) (i : Nat) (gone : List Nat) : Dev :=
  d.each gone fun p d =>
    if d.emh.faults.contains (i, p) then d
    else ({ d with emh := { d.emh with faults := (i, p) :: d.emh.faults } } : Dev).emhEvent 8 none none none
      (some (i + p * 4096))
def Dev.pagesHere (d : Dev) (i off n : Nat) : Dev :=
  { d with emh := { d.emh with faults := d.emh.faults.filter fun f =>
      !(f.1 == i && decide (off / 65536 ≤ f.2) && decide (f.2 * 65536 < off + n)) } }

/-- The local bytes of a request (R253, R379): their ranges and the pages of them not present, or none where a check
fails. -/
def Dev.localSegs (d : Dev) (c : Nat) (r : Req) : Option (List (Nat × Nat) × List Nat) :=
  let own := d.cOwner c
  if r.lkeyV then
    let i := r.lkey % 4096
    if d.regState i ≠ 1 || d.g (regKey i 0x18c) 12 20 ≠ r.lkey / 4096 || decide (d.regSize i < r.loc + r.len)
        || d.regOwner i ≠ own then none
    else
      let (segs, gone, bad) := d.regTouch i r.loc r.len r.read
      if bad then none else some (segs, gone)
  else if decide (r.loc < 2 ^ 48) && d.rangeOk own r.read r.loc r.len then some ([(r.loc, r.len)], [])
  else none

/-- A request issued, stalled or refused by the checks on its local bytes (R379, R392). -/
def Dev.tryIssue (d0 : Dev) (c : Nat) (r : Req) : Dev :=
  let d := if r.lkeyV then d0.regLook (r.lkey % 4096) r.loc r.len else d0
  match d.localSegs c r with
  | none =>
    let d1 := if r.lkeyV then
        (if d.regState (r.lkey % 4096) = 1 then d.regDeny (r.lkey % 4096) (d.regTouch (r.lkey % 4096) r.loc r.len r.read).1 r.read
          else d)
      else d.emhDeny (d.cOwner c) r.read r.loc r.len
    d1.endReq c { r with msn := 2 ^ 32 } 2
  | some (segs, gone) =>
    if gone.isEmpty then ((d.coveWorks (d.cOwner c)).pagesHere (r.lkey % 4096) r.loc r.len).issue c { r with segs := segs } []
    else
      let x := d.ctx c
      let d1 := d.setCtx { x with stalled := some r }
      let d2 := if x.stalled.isNone then d1.inc (pgEMH + 0x828) else d1
      d2.pageFaults (r.lkey % 4096) gone

/-- The fields of a work request (Table 14.5). -/
def reqOf (l : List Byte) (addr : Nat) : Req :=
  { addr := addr, msn := 0, read := leAt l 0 1 == 3, notify := bitN (leAt l 1 1) 0, fence := bitN (leAt l 1 1) 1
    lkeyV := bitN (leAt l 1 1) 2, len := leAt l 4 4, loc := leAt l 8 8, rkey := leAt l 16 4, lkey := leAt l 20 4
    raddr := leAt l 24 8, imm := leAt l 32 8, cmpl := leAt l 48 8 }

/-- A work request's fields lie outside Table 14.5 (R379). -/
def reqBad (l : List Byte) : Bool :=
  !(leAt l 0 1 == 2 || leAt l 0 1 == 3) || decide (8 ≤ leAt l 1 1) || leAt l 2 2 ≠ 0 || leAt l 4 4 == 0
    || decide (2 ^ 30 < leAt l 4 4) || leAt l 40 8 ≠ 0 || leAt l 56 8 ≠ 0 || (leAt l 0 1 == 3 && bitN (leAt l 1 1) 0)

/-- Address of the work request at SQ_HEAD. -/
def Dev.sqHeadAt (d : Dev) (c : Nat) : Nat := d.cf c 80 8 + 64 * d.cf c 90 2

/-- A work request may be fetched (R378, R379, R392, R456); the FENCE bit of a poisoned entry holds nothing back. -/
def Dev.mayFetch (d : Dev) (c : Nat) : Bool :=
  let x := d.ctx c
  d.emhOn && d.takesWork && d.starts pgEMH && d.cState c == 3 && d.cService c == 0 && !d.ctxFrozen c && !d.ebbing
    && d.cf c 90 2 ≠ d.cf c 92 2 && x.stalled.isNone && decide (x.reqs.length < 256)
    && (x.reqs.isEmpty || !bitN (d.peekN (d.sqHeadAt c + 1) 1) 1 || d.anyBad (d.sqHeadAt c) 64)

/-- The work request at SQ_HEAD is fetched, and issued, stalled or refused. -/
def Dev.fetchReq (d0 : Dev) (c : Nat) : Dev :=
  let d := d0.cTouch c
  let a := d.sqHeadAt c
  let (l, bad, d1) := d.memRead pgEMH (domOf (d.cOwner c)) a 64
  let r := reqOf l a
  let d2 := d1.setCf c 90 2 ((d.cf c 90 2 + 1) % 2 ^ d1.cf c 88 1)
  if bad || reqBad l then d2.endReq c { r with msn := 2 ^ 32 } 4
  else d2.tryIssue c r

/-- WORK_REQUEST_FETCH (R378, R379, R392): in ring order, while ESTABLISHED, at most 256 outstanding, none behind a FENCE
or a stall; none while the device ebbs or is cut (R456). A request read poisoned is refused as one whose fields are
wrong (DEDUCED, log entry 36). -/
def execWorkRequestFetch (conn : Fin 65536) (s : State) : Res :=
  lift (fun d => d.when (d.mayFetch conn) fun d => d.fetchReq conn) s

/-- SEND_STALL_RECHECK (R392): the entry is checked again; once PW.MAX_MS has passed the request ends. -/
def execSendStallRecheck (conn : Fin 65536) (expired : Bool) (s : State) : Res :=
  lift (fun d =>
    let x := d.ctx conn
    match x.stalled with
    | none => d
    | some r =>
      if !d.emhOn || !d.takesWork then d
      else
        let here := match d.localSegs conn r with | some (_, gone) => gone.isEmpty | none => true
        if !here && expired then ((d.setCtx { x with stalled := none }).endReq conn { r with msn := 2 ^ 32 } 0x23).ctxSettle conn
        else if here then ((d.setCtx { x with stalled := none }).tryIssue conn r).ctxSettle conn
        else d) s

/-! ### Acknowledgement and retransmission (R380 to R384) -/

/-- PSN `p` lies before PSN `q`, modulo 2^32. -/
def psnLt (p q : Nat) : Bool := decide ((p + 2 ^ 32 - q) % 2 ^ 32 ≥ 2 ^ 31)

/-- Runs of consecutive PSNs of a rising list. -/
def psnRuns : List Nat → List (Nat × Nat)
  | [] => []
  | p :: t =>
    match psnRuns t with
    | (a, b) :: r => if (p + 1) % 2 ^ 32 = a then (p, b) :: r else (p, p) :: (a, b) :: r
    | [] => [(p, p)]

/-- The ACK of what a context has received (Table 14.3, R381). -/
def Dev.sendAck (d : Dev) (c path : Nat) : Dev :=
  let x := d.ctx c
  let cum := d.cf c 112 4
  let l := x.ahead.mergeSort fun p q => decide ((p + 2 ^ 32 - cum) % 2 ^ 32 ≤ (q + 2 ^ 32 - cum) % 2 ^ 32)
  let runs := (psnRuns l).take 16
  let body := beBytes cum 4 ++ [BitVec.ofNat 8 runs.length, 0, 0, 0] ++ runs.flatMap fun r => beBytes r.1 4 ++ beBytes r.2 4
  (d.setCtx { x with ackDue := false, sinceAck := 0 }).sendOn c path { op := 5, payload := body }

/-- A data packet counts as received: RX_CUM moves over what has been received (R381). -/
def Dev.gotPsn (d : Dev) (c psn : Nat) : Dev :=
  let x := d.ctx c
  let (cum, ahead) := adv (psn :: x.ahead) (d.cf c 112 4) (x.ahead.length + 1)
  (d.setCtx { x with ahead := ahead }).setCf c 112 4 cum
where adv (l : List Nat) (cum : Nat) : Nat → Nat × List Nat
  | 0 => (cum, l)
  | f + 1 => if l.contains cum then adv (l.filter (· ≠ cum)) ((cum + 1) % 2 ^ 32) f else (cum, l)

/-- An ACK falls due; the fourth data packet since the last sends it (R381). -/
def Dev.ackDue (d : Dev) (c path : Nat) : Dev :=
  let x := d.ctx c
  if 3 ≤ x.sinceAck then d.sendAck c path
  else d.setCtx { x with ackDue := true, sinceAck := x.sinceAck + 1, ackPath := path }

/-- ACK_SEND (R381). -/
def execAckSend (conn : Fin 65536) (s : State) : Res :=
  lift (fun d => d.when (d.emhOn && (d.ctx conn).ackDue) fun d => d.sendAck conn (d.ctx conn).ackPath) s

/-- UNA_PSN: the oldest PSN sent and not acknowledged. -/
def Dev.setUna (d : Dev) (c : Nat) : Dev :=
  let nxt := d.cf c 104 4
  let una := ((d.ctx c).tx.filter (·.sent)).foldl (fun m t => if psnLt t.pkt.psn m then t.pkt.psn else m) nxt
  d.setCf c 108 4 una

/-- The path after `p` that is up, another than `p` where one is (R382). -/
def Dev.otherPath (d : Dev) (c p : Nat) : Nat :=
  let n := max 1 (d.cf c 8 1)
  (d.nextUp c ((p + 1) % n)).getD p

/-- A PSN retransmitted on another path (R382). -/
def Dev.retransmit (d : Dev) (c : Nat) (t : TxPkt) (fast : Bool) : Dev :=
  let x := d.ctx c
  let reqs := x.reqs.map fun (r : Req) =>
    if r.msn = t.pkt.msn ∧ (t.pkt.op = 2 ∨ t.pkt.op = 3) then { r with retx := r.retx + 1 } else r
  let d1 := (d.setCtx { x with reqs := reqs }).inc (pgEMH + 0x808)
  (if fast then d1.inc (pgEMH + 0x80c) else d1).transmit c { t with tries := t.tries + 1, fast := t.fast || fast }
    (d.otherPath c t.path) true

/-- What has been acknowledged in full: WRITE requests and exchange messages end (R379, R387). -/
def Dev.txEnded (d : Dev) (c : Nat) (gone : List TxPkt) : Dev :=
  let x := d.ctx c
  let still (op msn : Nat) : Bool := x.tx.any fun t => t.pkt.op == op && t.pkt.msn == msn
  let ws := x.reqs.filter fun r => !r.read && r.issued && !still 2 r.msn && gone.any fun t => t.pkt.op == 2 && t.pkt.msn == r.msn
  let ms := (((gone.filter fun t => t.pkt.op == 1 && t.msg ≠ 0 && !still 1 t.pkt.msn).map (·.msg))).eraseDups
  let d1 := d.each ws fun r d => d.endReq c r 0
  (d1.each ms fun id d => d.xDelivered id).regCheck

/-- Does an ACK's payload acknowledge PSN `p`: below its cumulative PSN, or in a run (Table 14.3)? -/
def ackRuns (l : List Byte) : List (Nat × Nat) :=
  (List.range (min 16 (beAt l 4 1))).map fun i => (beAt l (8 + 8 * i) 4, beAt l (12 + 8 * i) 4)
def ackHas (l : List Byte) (p : Nat) : Bool :=
  psnLt p (beAt l 0 4) || (ackRuns l).any fun r => !psnLt p r.1 && !psnLt r.2 p

/-- An ACK taken: PSNs are retired; those with DUPTHR PSNs above them acknowledged are sent again at once (R382). -/
def Dev.ackIn (d : Dev) (c : Nat) (l : List Byte) : Dev :=
  let x := d.ctx c
  let (gone, keep) := x.tx.partition fun t => t.sent && ackHas l t.pkt.psn
  let tmo := gone.foldl (fun (l : List Nat) t => l.set t.path 0) x.pathTmo
  let d1 := ((d.setCtx { x with tx := keep, pathTmo := tmo }).setUna c).txEnded c gone
  let above (p : Nat) : Nat := (ackRuns l).foldl (fun n r =>
    let lo := if psnLt p r.1 then r.1 else (p + 1) % 2 ^ 32
    if psnLt r.2 lo then n else n + (r.2 + 2 ^ 32 - lo) % 2 ^ 32 + 1) 0
  let dup := (d1.ctx c).tx.filter fun t =>
    t.sent && !t.delayed && !t.fast && decide (d1.g (pgEMH + 0x11c) 8 8 ≤ above t.pkt.psn)
  (d1.each dup fun t d => d.retransmit c t true).ctxSettle c

/-- ACK_PKT (R382). -/
def execAckPkt (port : Nat) (k : EmhPkt) (s : State) : Res :=
  lift (fun d => d.emhIn port k [5] fun c d => if !(d.cState c ∈ [3, 4, 5]) then d else d.ackIn c k.payload) s

/-- The packet with a PSN that a context has sent and not seen acknowledged. -/
def Dev.txOf (d : Dev) (c psn : Nat) : Option TxPkt := (d.ctx c).tx.find? fun t => t.sent && t.pkt.psn == psn

/-- A NAK of a packet sent (R383): with code 1 to 3 it waits; with 4 or 5 its message or request ends. -/
def Dev.nakOf (d : Dev) (c code : Nat) (t : TxPkt) : Dev :=
  let x := d.ctx c
  if 1 ≤ code ∧ code ≤ 3 then
    let reqs := x.reqs.map fun (r : Req) =>
      if code = 3 ∧ r.msn = t.pkt.msn ∧ (t.pkt.op = 2 ∨ t.pkt.op = 3) then { r with pw := r.pw + 1 } else r
    let tx := x.tx.map fun (u : TxPkt) => if u.same t then { u with delayed := true, nak := code } else u
    d.setCtx { x with reqs := reqs, tx := tx }
  else if code = 4 ∨ code = 5 then
    let d3 := d.setCtx { x with tx := x.tx.filter fun u => !u.same t }
    let d4 := if t.pkt.op = 4 then d3 else d3.endMsn c t.pkt.msn (if code = 4 then 0x22 else 0x21)
    let d5 := if t.msg ≠ 0 then d4.xFailed t.msg (if code = 4 then 0x22 else 0x21) else d4
    (d5.setUna c).ctxSettle c
  else d

/-- A NAK counted, with PEER_NOT_READY for the first of code 1 (R394). -/
def Dev.nakCount (d : Dev) (c code : Nat) : Dev :=
  let d1 := d.inc (pgEMH + 0x820)
  if code = 1 ∧ !(d1.ctx c).notReady then
    (d1.setCtx { d1.ctx c with notReady := true }).emhEvent 0xa (some (d1.cPeer c)) (some c) none none
  else d1

/-- NAK_PKT (R383, R394). -/
def execNakPkt (port : Nat) (k : EmhPkt) (s : State) : Res :=
  lift (fun d => d.emhIn port k [6] fun c d =>
    let code := beAt k.payload 0 2
    let d2 := d.nakCount c code
    if !(d2.cState c ∈ [3, 4]) then d2
    else match d2.txOf c (beAt k.payload 4 4) with
      | none => d2
      | some t => d2.nakOf c code t) s

/-- NAK_RESEND (R383): no retransmission, and not counted as one (R382). -/
def execNakResend (conn : Fin 65536) (psn : Nat) (s : State) : Res :=
  lift (fun d => match d.txOf conn psn with
    | none => d
    | some t =>
      if t.delayed && d.emhOn && d.calm && (d.cState conn == 3 || d.cState conn == 4) then
        d.transmit conn t (if bitN (d.cf conn 9 1) t.path then t.path else d.otherPath conn t.path) false
      else d) s

/-- A waiting answer of kind `p` to a message or request has lasted its limit: it ends with a status. -/
def Dev.waitedOut (d : Dev) (c msn : Nat) (p : Nat → Bool) (status : Nat) : Dev :=
  if d.emhUp && (d.ctx c).tx.any fun t => t.sent && t.pkt.msn == msn && t.pkt.op ≠ 4 && p t.nak then
    ((d.endMsn c msn status).setUna c).ctxSettle c
  else d

/-- NOT_READY_TIMEOUT (R383). -/
def execNotReadyTimeout (conn : Fin 65536) (msn : Nat) (s : State) : Res :=
  lift (fun d => d.waitedOut conn msn (fun n => n == 1 || n == 2) 0x25) s

/-- PAGE_TIMEOUT (R391). -/
def execPageTimeout (conn : Fin 65536) (msn : Nat) (s : State) : Res :=
  lift (fun d => d.waitedOut conn msn (· == 3) 0x23) s

/-! ### Paths (R385) -/

/-- A path goes down; with none left up the context fails. -/
def Dev.pathDown (d : Dev) (c p : Nat) : Dev :=
  let up := d.cf c 9 1
  if !bitN up p then d
  else
    let d1 := ((d.setCf c 9 1 (up - 2 ^ p)).setErr pgEMH 1).inc (pgEMH + 0x834)
    let d2 := d1.emhEvent 3 (some (d.cPeer c)) (some c) none (some p)
    if (d2.nextUp c 0).isNone then d2.failCtx c true else d2

/-- A retransmission timer of packet `t` expires (R382, R385). -/
def Dev.rtoExpired (d : Dev) (c : Nat) (t : TxPkt) : Dev :=
  let x := d.ctx c
  let n := x.pathTmo.getD t.path 0 + 1
  let d1 := (d.setCtx { x with pathTmo := x.pathTmo.set t.path n }).inc (pgEMH + 0x810)
  let d2 := if d1.g (pgEMH + 0x11c) 16 4 ≤ n then d1.pathDown c t.path else d1
  if d2.cState c = 6 then d2.checkDone
  else if d2.g (pgEMH + 0x11c) 0 4 ≤ t.tries then (d2.failCtx c true).checkDone
  else d2.retransmit c { t with fast := false } false

/-- RTO_EXPIRY (R382, R385). -/
def execRtoExpiry (conn : Fin 65536) (psn : Nat) (s : State) : Res :=
  lift (fun d => match d.txOf conn psn with
    | none => d
    | some t =>
      if t.delayed || !d.emhOn || !d.calm || !(d.cState conn ∈ [3, 4, 5]) then d else d.rtoExpired conn t) s

/-- PROBE_TIMER (R385). -/
def execProbeTimer (conn : Fin 65536) (path : Fin 8) (s : State) : Res :=
  lift (fun d => d.when ((d.cState conn == 3 || d.cState conn == 4 || d.cState conn == 5)
      && decide (path.val < d.cf conn 8 1) && !bitN (d.cf conn 9 1) path) fun d => d.sendBare conn path 0xb) s

/-- PROBE_PKT (R385). -/
def execProbePkt (port : Nat) (k : EmhPkt) (s : State) : Res :=
  lift (fun d => d.emhIn port k [0xb] fun c d => if d.cState c = 6 then d else d.sendBare c k.path 0xc) s

/-- A path is up again (R385). -/
def Dev.pathUp (d : Dev) (c p : Nat) : Dev :=
  let x := d.ctx c
  (((d.setCtx { x with pathTmo := x.pathTmo.set p 0 }).setCf c 9 1 (d.cf c 9 1 + 2 ^ p)).emhEvent 4 (some (d.cPeer c)) (some c)
    none (some p)).pump c

/-- PROBE_ACK_PKT (R385). -/
def execProbeAckPkt (port : Nat) (k : EmhPkt) (s : State) : Res :=
  lift (fun d => d.emhIn port k [0xc] fun c d =>
    let p := k.path % 8
    let up := d.cf c 9 1
    if d.cState c = 6 ∨ d.cf c 8 1 ≤ p ∨ bitN up p then d
    else d.pathUp c p) s

/-! ### Placement (R386 to R391) -/

/-- Intervals kept apart and rising: `[a, b)` added; covered. -/
def ivAdd (a b : Nat) : List (Nat × Nat) → List (Nat × Nat)
  | [] => [(a, b)]
  | (x, y) :: t =>
    if b < x then (a, b) :: (x, y) :: t
    else if y < a then (x, y) :: ivAdd a b t
    else ivAdd (min a x) (max b y) t
def ivHas (a b : Nat) (l : List (Nat × Nat)) : Bool := decide (b ≤ a) || l.any fun p => decide (p.1 ≤ a) && decide (b ≤ p.2)

/-- Bytes placed in a list of ranges from its start. -/
def Dev.place (d : Dev) (dom : Nat) (bad : Bool) : List (Nat × Nat) → List Byte → Dev
  | [], _ => d
  | (a, n) :: t, l => (d.memWrite pgEMH dom a (l.take n) bad).place dom bad t (l.drop n)

/-- The open message of an MSN: a response is one of the other direction. -/
def Dev.rxOf (d : Dev) (c msn : Nat) (resp : Bool) : Option RxMsg :=
  (d.ctx c).rx.find? fun m => m.msn == msn && (m.op == 4) == resp
def Dev.setRx (d : Dev) (c : Nat) (m : RxMsg) : Dev :=
  let x := d.ctx c
  d.setCtx { x with rx := x.rx.filter (fun u => !(u.msn == m.msn && (u.op == 4) == (m.op == 4))) ++ [m] }
def Dev.dropRx (d : Dev) (c msn : Nat) (resp : Bool) : Dev :=
  let x := d.ctx c
  d.setCtx { x with rx := x.rx.filter fun u => !(u.msn == msn && (u.op == 4) == resp) }

/-- Why a new WRITE or READ_REQ message fails its validation (R389). -/
def Dev.validate (d : Dev) (c : Nat) (k : EmhPkt) : Option Nat :=
  let i := k.rkey % 4096
  let n := if k.op = 2 then k.mlen else k.rlen
  let own := d.regOwner i == d.cOwner c
  let ok := d.g (regKey i 0x18c) 12 20 == k.rkey / 4096 && decide (k.raddr + n ≤ d.regSize i)
    && d.b (regKey i 0x18c) (if k.op = 2 then 1 else 0) && own
  if d.regState i = 1 && ok then none else if d.regState i = 2 then some 4 else some 5

/-- Is it a region of the buddy pool (R458)? -/
def Dev.inBuddyPool (d : Dev) (i : Nat) : Bool :=
  let y := d.fw.layout
  !d.b (regKey i 0x18c) 2 && decide (y.bBase ≤ d.regBase i) && decide (d.regBase i + d.regSize i ≤ y.bBase + y.bSize)

/-- A notice written at NT_HEAD, PHASE last (R387). -/
def Dev.notice32 (d : Dev) (c : Nat) (m : RxMsg) : Dev :=
  if d.cf c 89 1 = 0 then d
  else
    let h := d.cf c 94 2
    let x := d.ctx c
    let l := leBytes m.imm 8 ++ leBytes m.raddr 8 ++ leBytes m.mlen 4 ++ leBytes m.rkey 4
      ++ [BitVec.ofNat 8 (b2n m.poison), BitVec.ofNat 8 (b2n x.ntPhase)] ++ leBytes m.msn 4 ++ [0, 0]
    let h1 := (h + 1) % 2 ^ d.cf c 89 1
    let d1 := (d.emhStore (domOf (d.cOwner c)) (d.cf c 96 8 + 32 * h) l false).setCf c 94 2 h1
    if h1 = 0 then d1.setCtx { d1.ctx c with ntPhase := !x.ntPhase } else d1

/-- The body of a message from its shares, in order. -/
def bodyOf (m : RxMsg) : List Byte :=
  ((m.body.mergeSort fun a b => decide (a.1 ≤ b.1)).foldl (fun (l : List Byte) p => l ++ p.2.drop (l.length - p.1)) []).take m.mlen

/-- A control message delivered (R393): one of a reserved type is discarded and counted. -/
def Dev.ctlArrive (d : Dev) (src : Nat) (l : List Byte) : Dev :=
  let m := ctlOf l
  if m.ctype = 0 ∨ 17 < m.ctype then d.inc (pgEMH + 0x818)
  else { d with emh := { d.emh with inbox := d.emh.inbox ++ [(src, m)] } }

/-- The packets of the response to a READ_REQ, which reads its region again as they go (R389, R391). -/
def respPkts (k : EmhPkt) (segs : List (Nat × Nat)) : List TxPkt :=
  (List.range ((k.rlen + 4095) / 4096)).map fun i =>
    { pkt := { op := 4, msn := k.msn, mlen := k.rlen, offset := 4096 * i }
      src := subSegs segs (4096 * i) (min 4096 (k.rlen - 4096 * i)), reg := some (k.rkey % 4096) }

/-- A message is complete: it goes to its service, ends its READ, or writes its notice (R387). -/
def Dev.msgDone (d : Dev) (c : Nat) (m : RxMsg) : Dev :=
  let x := d.ctx c
  let d1 := ((d.dropRx c m.msn (m.op == 4)).inc (pgEMH + 0x83c))
  let d2 := if m.op = 4 then d1 else d1.setCtx { d1.ctx c with done := m.msn :: (d1.ctx c).done }
  if m.op = 4 then
    match x.reqs.find? fun r => r.read && r.msn == m.msn with
    | none => d2
    | some r => d2.endReq c { r with poison := r.poison || m.poison } 0 (bodyOf m)
  else if m.op = 2 then (if m.notify then d2.notice32 c m else d2).regCheck
  else if m.op = 1 then
    if d2.cService c = 2 then d2.ctlArrive (d2.cPeer c) m.head
    else if m.stray then d2
    else
      let x : XIn := { conn := c, msn := m.msn, head := m.head, body := bodyOf m, poison := m.poison, pkts := m.pkts }
      { d2 with emh := { d2.emh with xin := d2.emh.xin ++ [x] } }
  else d2

/-- The answer of a data packet that is not placed: with code 4 or 5 it counts as received (R381). -/
def Dev.refusePkt (d : Dev) (c : Nat) (k : EmhPkt) (code : Nat) : Dev :=
  let d1 := d.nak c k.path code k.psn
  if 4 ≤ code then (d1.gotPsn c k.psn).ackDue c k.path else d1

/-- A data packet accepted into its message: placed, counted, traced, and acknowledged once written (R381, R386, R492). -/
def Dev.accept (d : Dev) (c : Nat) (k : EmhPkt) (m : RxMsg) (segs : List (Nat × Nat)) (share : List Byte) (keep : Bool) : Dev :=
  let dom := domOf (d.cOwner c)
  let n := min share.length (m.mlen - k.offset)
  if 0 < n ∧ ivHas k.offset (k.offset + n) m.got then ((d.inc (pgEMH + 0x814)).gotPsn c k.psn).sendAck c k.path
  else
    let d0 := (d.inc (pgEMH + 0x804)).traceMsg 0x0d k.sconn k.psn k.epoch k.sdev k.retx
    let d1 := if keep then d0 else d0.place dom k.poison segs (share.take n)
    let m1 := { m with
      got := if n = 0 then m.got else ivAdd k.offset (k.offset + n) m.got
      poison := m.poison || k.poison
      pkts := m.pkts + 1
      body := if keep then m.body ++ [(k.offset, share.take n)] else m.body }
    let d2 := (d1.setRx c m1).gotPsn c k.psn
    let d3 := if ivHas 0 m1.mlen m1.got then d2.msgDone c m1 else d2
    if d3.cState c = 0 || d3.cState c = 6 then d3 else (d3.ackDue c k.path).ctxSettle c

/-- A packet of a RETURN whose own header names no open selection: its body is discarded, the packet counted, and the credit
of its message taken, once (R143, R150, R154). -/
def Dev.strayPkt (d : Dev) (m : RxMsg) (h : List Byte) : Dev :=
  (if m.stray then d else d.addCredit (beAt h 4 2 % 1024) (beAt h 6 2)).inc (pgEMH + 0x914)

/-- A packet of an exchange message, validated on the header that it carries (R143). -/
def Dev.xchPkt (d : Dev) (c : Nat) (k : EmhPkt) (m : RxMsg) (h share : List Byte) : Dev :=
  if beAt h 0 1 = 1 then (d.dispatchPkt c k.msn h k.mlen).accept c k m [] share true
  else if beAt h 0 1 = 2 && (d.openFor h).isNone && !ivHas k.offset (k.offset + share.length) m.got then
    (d.strayPkt m h).accept c k { m with stray := true } [] share true
  else d.accept c k m [] share true

/-- A SEND's service header: 96 bytes for a DISPATCH, 32 for the other exchange messages (R143); of a control
message the 16 bytes are the body (R393). -/
def headLen (service : Nat) (l : List Byte) : Nat := if service = 2 then 0 else if beAt l 0 1 = 1 then 96 else 32

/-- A data packet that is no duplicate and that the context's service takes. -/
def Dev.dataIn (d : Dev) (c : Nat) (k : EmhPkt) : Dev :=
  let resp := k.op == 4
  let old := d.rxOf c k.msn resp
  let cutOff := d.g 0x5120 0 2 == 3 && d.cService c ≠ 2
    && !(k.op ≤ 3 && 2 ≤ k.op && d.inBuddyPool (k.rkey % 4096))
  if cutOff || (old.isNone && !resp && d.ctxFrozen c) then d.refusePkt c k 2
  else if !resp && (d.ctx c).done.contains k.msn then
    ((d.inc (pgEMH + 0x814)).gotPsn c k.psn).sendAck c k.path
  else match k.op with
    | 1 =>
      let h := headLen (d.cService c) k.payload
      let head := if d.cService c = 2 then k.payload.take 16 else k.payload.take h
      let m := old.getD { op := 1, msn := k.msn, mlen := k.mlen, head := head }
      if d.cService c = 1 then d.xchPkt c k m head (k.payload.drop h) else d.accept c k m [] (k.payload.drop h) true
    | 4 =>
      match (d.ctx c).reqs.find? fun r => r.read && r.msn == k.msn with
      | none => ((d.inc (pgEMH + 0x814)).gotPsn c k.psn).sendAck c k.path
      | some r =>
        let m := old.getD { op := 4, msn := k.msn, mlen := r.len }
        d.accept c k m (subSegs r.segs k.offset k.payload.length) k.payload r.segs.isEmpty
    | op =>
      let i := k.rkey % 4096
      match (match old with | some m => m.nak | none => d.validate c k) with
      | some code =>
        let m := old.getD { op := op, msn := k.msn, mlen := k.mlen, rkey := k.rkey, nak := some code }
        (d.setRx c m).refusePkt c k code
      | none =>
        let m := old.getD { op := op, msn := k.msn, mlen := if op = 2 then k.mlen else 0, rkey := k.rkey, raddr := k.raddr
                            rlen := k.rlen, notify := k.notify, imm := k.imm }
        let off := if op = 2 then m.raddr + k.offset else k.raddr
        let n := if op = 2 then min k.payload.length (m.mlen - k.offset) else k.rlen
        let d := d.regLook i off n
        let (segs, gone, bad) := d.regTouch i off n (op == 2)
        if !gone.isEmpty then ((d.setRx c m).pageFaults i gone).refusePkt c k 3
        else if bad then ((d.setRx c { m with nak := some 5 }).regDeny i segs (op == 2)).refusePkt c k 5
        else
          let d1 := d.pagesHere i off n
          if op = 2 then d1.accept c k m segs k.payload false
          else
            let d2 := d1.accept c k m [] [] true
            if d2.cState c ∈ [3, 4, 5] then d2.post c (respPkts k segs) else d2

/-- DATA_PACKET (R372, R373, R381, R386 to R391): a packet received before is acknowledged at once; one whose OP the
context's service does not take is answered ACCESS; the others are placed. -/
def execDataPacket (port : Nat) (k : EmhPkt) (s : State) : Res :=
  lift (fun d => d.emhIn port k [1, 2, 3, 4] fun c d =>
    let sv := d.cService c
    if !(d.cState c ∈ [3, 4, 5]) then d
    else if psnLt k.psn (d.cf c 112 4) || (d.ctx c).ahead.contains k.psn then (d.inc (pgEMH + 0x814)).sendAck c k.path
    else if (if k.op = 1 then !(sv == 1 || sv == 2) else sv ≠ 0) then d.refusePkt c k 5
    else d.dataIn c k) s

/-! ### Regions (R388, R390) -/

/-- REG_CMD OPEN on the region REG_IDX names. -/
def Dev.regOpen (d : Dev) : Dev :=
  let i := d.g (pgEMH + 0x180) 0 12
  let a := d.regBase i
  let n := d.regSize i
  let odp := d.b (regKey i 0x18c) 2
  let ok := d.regState i == 0 && (inUserMem a n || inHarbour a n)
    && (match d.regOwner i with | none => true | some k => d.inCove k (d.b (regKey i 0x18c) 1) a n) && (!odp || d.feature 6)
  if ok then (d.s (regKey i 0x194) 4 2 1).sb (regKey i 0x194) 6 false
  else (if d.regState i = 0 then d.regDeny i [(a, n)] (d.b (regKey i 0x18c) 1) else d).sb (regKey i 0x194) 6 true

/-- REG_CMD CLOSE. -/
def Dev.regClose (d : Dev) : Dev :=
  let i := d.g (pgEMH + 0x180) 0 12
  if d.regState i = 1 then (d.s (regKey i 0x194) 4 2 2).regCheck else d

/-- REG_OPEN (R388). -/
def execRegOpen (s : State) : Res := lift (fun d => d.onReg (pgEMH + 0x194) Dev.regOpen) s
/-- REG_CLOSE (R390). -/
def execRegClose (s : State) : Res := lift (fun d => d.onReg (pgEMH + 0x194) Dev.regClose) s

/-- What is validated on a CLOSING region is dropped, and the region becomes FREE (R390). -/
def Dev.regDrop (d : Dev) (i : Nat) : Dev :=
  let ctx := d.emh.ctx.map fun (x : Ctx) =>
    let rx := x.rx.map fun (m : RxMsg) =>
      if (m.op = 2 ∨ m.op = 3) ∧ m.rkey % 4096 = i ∧ m.nak.isNone then { m with nak := some 5 } else m
    let tx := (x.tx.filter fun t => !(t.reg == some i && !t.sent)).map fun (t : TxPkt) =>
      if t.reg = some i then { t with reg := none } else t
    { x with rx := rx, tx := tx }
  ({ d with emh := { d.emh with ctx := ctx } } : Dev).regCheck

/-- REGION_CLOSE_TIMEOUT (R390): validated messages not complete are discarded; their later packets get ACCESS. -/
def execRegionCloseTimeout (i : Fin 4096) (s : State) : Res :=
  lift (fun d => d.when (d.regState i == 2 && d.emhUp) fun d => d.regDrop i) s

end Sys2Proof.Machine
end

