-- ==== Sys2Proof/Machine/FwCmd.lean ====
section
/-!
DEFINITION. Machine/FwCmd.lean: the configuration of a domain, of the pools and of the placement map; sensors, power and
thermal loops; the launching and stopping of sequencers by command (chapters 2, 5, 8, 10 and 21).
-/
namespace Sys2Proof.Machine

/-! ### Domain and layout -/

/-- R151 for the exchange settings of a configuration: registers XLAND, XSLOT, XARR_SIZE, XCREDIT; `others`: members but
one. -/
def exchangeOk (xland xslot xarrSize xcredit others : Nat) : Bool :=
  let base := xland % 1024
  let size := fieldN xland 10 11
  let sz := xslot % 8
  let slots := size * 65536 / (4096 * 2 ^ sz)
  decide (1 ≤ size) && decide (size ≤ 1024) && decide (sz ≤ 6) && decide (6 ≤ xarrSize) && decide (xarrSize ≤ 16)
    && decide (1 ≤ xcredit) && decide (xcredit ≤ 65535)
    && decide (xcredit * others ≤ slots) && decide (slots ≤ 2 ^ xarrSize) && decide ((base + size) * 65536 ≤ 0x4000000)

/-- A domain's members as R23 allows them. -/
def membersOk (domain dev headDev : Nat) (members : List Nat) : Bool :=
  decide (domain < 65536) && decide (dev < 1024) && members.all (fun m => decide (m < 1024) && m ≠ dev)
    && decide members.Nodup && (headDev == dev || members.contains headDev)

/-- The device joins its domain with its exchange settings; the firmware then lets Emham and the storage target answer (R20,
R151, Table 21.7). -/
def Dev.joinDomain (d : Dev) (domain dev headDev : Nat) (members : List Nat) (xland xslot xarr xarrSize xcredit : Nat) :
    Dev :=
  let role : Role := if headDev = dev then .headland else .worker
  let t := { d.tide with role := role, dev := dev, headDev := headDev, configured := true, members := members,
                         excluded := [], including := [], excluding := [], reports := [], reported := false,
                         pending := d.tide.pending && decide (headDev = dev) }
  let d1 := { d with tide := t, slack := { d.slack with conflict := false } }
  let d2 := (Dev.s d1 (pgEMH + 0x108) 0 10 dev).s (pgEMH + 0x108) 16 16 domain
  let d3 := ((d2.s (pgEMH + 0x610) 0 21 xland).s (pgEMH + 0x614) 0 3 xslot).wr64 (pgEMH + 0x618) (xarr % 2 ^ 48)
  let d4 := (d3.s (pgEMH + 0x620) 0 5 xarrSize).s (pgEMH + 0x628) 0 16 xcredit
  let d5 := ({ d4 with xch := { d4.xch with credits := [], joinCredit := xcredit % 65536 } } : Dev).sb (pgEMH + 0x100) 0 true
  if d.feature 3 then d5.sb (pgNVT + 0x100) 0 true else d5

/-- CONFIG_DOMAIN (R20, R23, R151): domain, own number, headland's number, the other members, and the exchange settings
as register values. -/
def execConfigDomain (cid domain dev headDev : Nat) (members : List Nat) (xland xslot xarr xarrSize xcredit : Nat)
    (s : State) : Res :=
  lift (fun d => d.admin cid 0x0010 fun _ d =>
    if !d.slackNow then d.complete 0 cid 0x0007 0
    else if !membersOk domain dev headDev members then d.complete 0 cid 0x0002 0
    else if !exchangeOk xland xslot xarrSize xcredit members.length then d.complete 0 cid 0x0009 0
    else ((d.joinDomain domain dev headDev members xland xslot xarr xarrSize xcredit).complete 0 cid 0 0).resumed) s

/-- A layout the firmware accepts (R36, R37, R266): bases and sizes of the weight, KV, snapshot, buddy and scratch
pools. -/
def layoutValid (y : Layout) : Bool :=
  let l := [(y.wBase, y.wSize), (y.kBase, y.kSize), (y.sBase, y.sSize), (y.bBase, y.bSize), (y.cBase, y.cSize)]
  l.all (fun p => p.1 % 2 ^ 30 == 0 && p.2 % 2 ^ 30 == 0 && decide (p.1 + p.2 ≤ devEnd))
    && l.foldl (fun a p => a + p.2) 0 == devEnd
    && (List.range 5).all (fun i => (List.range i).all fun j =>
        let p := l.getD i (0, 0)
        let q := l.getD j (0, 0)
        p.2 == 0 || q.2 == 0 || decide (p.1 + p.2 ≤ q.1) || decide (q.1 + q.2 ≤ p.1))
    && y.wSize % (16 * 2 ^ 30) == 0 && decide (y.cBase ≤ fwBase) && decide (devEnd ≤ y.cBase + y.cSize)

/-- Device memory seen through another layout: no data moves (R194), so each byte is found where the new layout puts its
site and site offset. -/
def relay (old new : Layout) (a : Nat) : Nat :=
  if a < devEnd then (let p := siteOf old a; addrOfSite new p.1 p.2) else a

/-- A layout put in force (R36, R194). -/
def Dev.relayout (d : Dev) (y : Layout) : Dev :=
  let o := d.fw.layout
  { d with fw := { d.fw with layout := y }
           mem := d.mem.map fun p => (relay o y p.1, p.2)
           marks := d.marks.map fun p => (relay o y (p.1 * 256) / 256, p.2) }

/-- SET_LAYOUT (R36, R194, R266). -/
def execSetLayout (cid : Nat) (w k sn b c : Nat × Nat) (s : State) : Res :=
  lift (fun d => d.admin cid 0x0011 fun _ d =>
    let y : Layout := ⟨w.1, w.2, k.1, k.2, sn.1, sn.2, b.1, b.2, c.1, c.2⟩
    if !d.slackNow then d.complete 0 cid 0x0007 0
    else if d.ckp.run.isSome then d.complete 0 cid 0x0200 0
    else if !layoutValid y then d.complete 0 cid 0x0009 0
    else (d.relayout y).complete 0 cid 0 0) s

/-! ### The placement map (R134 to R136) -/

/-- A refused map image (R134). -/
def mapInvalid (l : List Byte) (gen : Nat) : Bool :=
  let n := leAt l 4 2
  let bad (layer : Nat) : Bool :=
    let e := leAt l (64 + 8 * layer) 2
    let o := leAt l (68 + 8 * layer) 4
    (List.range e).any fun x =>
      let v := leAt l (o + 4 * x) 4
      bitN v 26 && v % 1024 == fieldN v 16 10
  leAt l 0 1 ≠ 1 || leAt l 2 2 == 0 || leAt l 2 2 == gen || decide (17 * 2 ^ 20 < leAt l 8 4) || (List.range n).any bad

/-- A member arms the switch to the image in its inactive bank (R135). -/
def Dev.armMap (d : Dev) (bank : Nat) (t : DWord) : Dev :=
  ((d.writeReg (pgEMH + 0x604) (bank % 2 ^ 32)).writeReg (pgEMH + 0x608) (bank / 2 ^ 32)).commitArm pgEMH t

/-- The headland's tide for a request: the command's armed tide, or its own choice, greater than the current tide. -/
def Dev.pickTide (d : Dev) (c : Cmd) (t : DWord) : DWord :=
  if c.arm && decide (d.tide.cur < c.tide) then c.tide else if d.tide.cur < t then t else d.tide.cur + 1

/-- A request sent to members, whose answers are awaited. -/
def Dev.request (d : Dev) (o : CtlOp) (m : Ctl) : Dev :=
  let d1 := d.each o.waiting fun w d => d.sendCtl w m
  { d1 with tide := { d1.tide with ctlOps := d1.tide.ctlOps ++ [o] } }

/-- An answer to a request: its sender is awaited no more. -/
def Dev.answered (d : Dev) (src : Nat) (p : CtlOp → Bool) : Dev :=
  let l := d.tide.ctlOps.map fun (o : CtlOp) => if p o then { o with waiting := o.waiting.filter (· ≠ src) } else o
  { d with tide := { d.tide with ctlOps := l } }

/-- A map image may not be loaded now: the last switch is too recent, or a load is in progress (R136). -/
def Dev.mapBusy (d : Dev) : Bool :=
  (match d.xch.switchTide with | some x => decide (d.tide.cur < x + 2 ^ 24) | none => false)
    || d.tide.ctlOps.any (·.req == 3)

/-- The map image written into the inactive bank of a worker, on the driver's SERVICE 0 context with it (R135, R377). The key
and the place of that bank the spec does not give: free values (log entry 71). -/
def Dev.mapWrite (d : Dev) (w : Nat) (l : List Byte) : Dev :=
  match d.findCtx 0 w none with
  | none => d
  | some c =>
    let (x, d1) := d.freeWord
    let (y, d2) := d1.freeWord
    (d2.cTouch c).issue c { addr := 0, msn := 0, len := l.length, rkey := x.toNat % 2 ^ 32, raddr := y.toNat, job := 5 + 8 * w }
      (l.map fun b => (b, false))

/-- A valid map image written to the headland's inactive bank and sent to the workers, each of which is asked to arm the
switch once it has it; the headland's own is armed (R134, R135). -/
def Dev.mapSpread (d : Dev) (cid : Nat) (c : Cmd) (l : List Byte) (bank : Nat) (n : DWord) : Dev :=
  let d2 := ((d.memWrite pgFWR 0x40 bank l false).armMap bank n).hold c
  let o : CtlOp := { req := 3, cid := cid, tide := n, arg := leAt l 2 2, waiting := d.workers }
  ({ d2 with tide := { d2.tide with ctlOps := d2.tide.ctlOps ++ [o] } } : Dev).each d.workers fun w d => d.mapWrite w l

/-- MAP_LOAD (R134 to R136). `bank`: the headland's inactive map bank; `t`: the tide it chooses. An image that reads poisoned
is refused as one that is not valid (DESIGN CHOICE, log entry 95). -/
def execMapLoad (cid bank : Nat) (t : DWord) (s : State) : Res :=
  lift (fun d => d.headCmd cid 0x0012 fun c d =>
    if !d.bufOk c false c.buflen || !inUserMem bank (17 * 2 ^ 20) || bank % 64 ≠ 0 then d.complete 0 cid 0x0010 0
    else if d.mapBusy then d.complete 0 cid 0x000b 0
    else if c.buflen < 64 then d.complete 0 cid 0x0002 0
    else
      let (h, bad0, d0) := d.memRead pgFWR 0x40 c.buf 64
      let size := leAt h 8 4
      if bad0 || decide (17 * 2 ^ 20 < size) then d0.complete 0 cid 0x000a 0
      else if c.buflen < size then d0.complete 0 cid 0x0002 0
      else
        let (l, bad, d1) := d0.memRead pgFWR 0x40 c.buf size
        if bad || mapInvalid l (d.g (pgEMH + 0x60c) 0 16) then d1.complete 0 cid 0x000a 0
        else d1.mapSpread cid c l bank (d.pickTide c t)) s

/-- MAP_ARM_MSG (R135). `bank`: the member's inactive map bank. -/
def execMapArmMsg (src gen : Nat) (tide : DWord) (bank : Nat) (s : State) : Res :=
  lift (fun d => d.ctlIn src { ctype := 3, arg := gen, tide := tide } true fun d => d.when d.isWorker fun d =>
    (d.armMap bank tide).sendCtl src { ctype := 4, dev := d.tide.dev, arg := gen, tide := tide }) s

/-- MAP_ACK_MSG (R135). -/
def execMapAckMsg (src gen : Nat) (tide : DWord) (s : State) : Res :=
  lift (fun d => d.ctlIn src { ctype := 4, dev := src, arg := gen, tide := tide } false fun d =>
    d.answered src fun o => o.req == 3 && o.arg == gen && o.tide == tide) s

/-! ### Sensors, power and temperature -/

/-- Temperatures that lie above a limit for dies, sites and the conversion stage (Table 21.12). -/
def tempAbove (m : Sample) (die site vr : Int) : Bool :=
  decide (die < m.tCore) || m.tMpd.any (fun t => decide (die < t)) || m.tLd.any (fun t => decide (die < t))
    || m.tSite.any (fun t => decide (site < t)) || decide (vr < m.tVr)

/-- Some sensor above its operating limit. -/
def tempOver (m : Sample) : Bool := tempAbove m 950 950 1100

/-- The sensor record (Table 21.9). A sensor the sample does not name reads 0x8000. -/
def Dev.sensorRecord (d : Dev) (m : Sample) : List Byte :=
  let t (x : Int) : List Byte := leBytes (BitVec.ofInt 16 x).toNat 2
  let ts (l : List Int) (n : Nat) : List Byte := (List.range n).flatMap fun i => match l[i]? with
    | some x => t x
    | none => leBytes 0x8000 2
  let flags := b2n (d.b 0x1100 17) + 2 * b2n (decide (d.fw.pLevel < 63)) + 4 * b2n (decide (d.g 0x1100 8 6 < 63))
    + 8 * b2n (d.rd 0x1114 ≠ 0)
  leBytes m.vin 4 ++ leBytes m.iin 4 ++ leBytes m.pin 4 ++ leBytes m.pin1s 4 ++ leBytes m.energy 8
    ++ leBytes (d.g 0x1104 0 11) 2 ++ leBytes d.fw.capDrv 2 ++ leBytes d.fw.capBmc 2
    ++ [BitVec.ofNat 8 (d.g 0x1100 0 6), BitVec.ofNat 8 (d.g 0x1100 8 6)]
    ++ t m.tCore ++ ts m.tMpd 4 ++ ts m.tLd 2 ++ ts m.tSite 16 ++ t m.tInlet ++ t m.tVr
    ++ [BitVec.ofNat 8 flags] ++ List.replicate 5 0 ++ leBytes d.trclk.toNat 8 ++ List.replicate 160 0

/-- GET_SENSORS (R532). -/
def execGetSensors (q : Fin 256) (cid : Nat) (smp : Sample) (s : State) : Res :=
  lift (fun d => match d.cmd? q cid 0x0031 with
    | none => d
    | some c => d.answer c (d.sensorRecord smp) 0) s

/-- POWER_CAP (R290). -/
def execPowerCap (cid : Nat) (s : State) : Res :=
  lift (fun d => d.admin cid 0x0030 fun c d =>
    let w := leAt c.param 0 2
    if w < 600 ∨ 1650 < w then d.complete 0 cid 0x0002 0
    else ({ d with fw := { d.fw with capDrv := w } } : Dev).complete 0 cid 0 0) s

/-- A change of the clock level is counted and posts THROTTLE, at most once per 100 ms, with the causes given (R291). -/
def Dev.levelTo (d : Dev) (n cause : Nat) : Dev :=
  let d2 := ((d.s 0x1100 0 6 n).s 0x2104 0 6 n).inc 0x2800
  if d2.fw.throttled.any fun t => decide ((d2.trclk - t).toNat < 100000000) then d2
  else ({ d2 with fw := { d2.fw with throttled := some d2.trclk } } : Dev).event 0x8009 (n + cause)

/-- The clock level in force: the lower result of the loops (R291). -/
def Dev.applyLevel (d : Dev) (cause : Nat) : Dev :=
  let ceil := min d.fw.thermCeil (d.g 0x5128 0 6)
  let n := min d.fw.pLevel ceil
  let d1 := d.s 0x1100 8 6 ceil
  if n = d.g 0x1100 0 6 then d1 else d1.levelTo n cause

/-- SV1 runs its loops. -/
def Dev.loops (d : Dev) : Bool := d.fwRunning && !d.safe && (d.core 33).running

/-- The cap in force (R290). -/
def Dev.capNow (d : Dev) : Nat := if d.fw.capBmc = 0 then d.fw.capDrv else min d.fw.capDrv d.fw.capBmc

/-- One period of the power loop (R290, R291). -/
def Dev.powerLoop (d : Dev) (watts watts1s vin step : Nat) : Dev :=
  let d1 := ((d.s 0x1104 0 11 d.capNow).s 0x110c 0 11 watts).s 0x110c 16 11 watts1s
  let d2 := d1.s 0x1108 0 17 vin
  let ovr := decide (d.capNow < watts)
  let p := if ovr then max 16 (d.fw.pLevel - step) else min 63 (d.fw.pLevel + min 1 step)
  let d3 := { d2 with fw := { d2.fw with pLevel := p } }
  (if p < d.fw.pLevel then Dev.inc d3 0x1800 else d3).applyLevel 256

/-- POWER_LOOP_PERIOD (R290, R291): `watts`, the input power averaged over the millisecond, and over the second; `step`,
how far the loop moves the level within what R291 allows. -/
def execPowerLoopPeriod (watts watts1s vin : Nat) (step : Fin 5) (s : State) : Res :=
  lift (fun d => d.when d.loops fun d => d.powerLoop watts watts1s vin step) s

/-- One period of the thermal loop: a ceiling from the temperatures; with a sensor above its operating limit it is not
raised (R291, R535). -/
def Dev.thermalLoop (d : Dev) (smp : Sample) (ceil : Nat) : Dev :=
  let c := if tempOver smp then min d.fw.thermCeil (max 16 ceil) else max 16 ceil
  let d1 := { d with fw := { d.fw with thermCeil := c } }
  (if c < d.fw.thermCeil then Dev.inc d1 0x1804 else d1).applyLevel 512

/-- THERMAL_LOOP_PERIOD (R291, R535). -/
def execThermalLoopPeriod (smp : Sample) (ceil : Fin 64) (s : State) : Res :=
  lift (fun d => d.when d.loops fun d => d.thermalLoop smp ceil) s

/-- PWR_HOLD_DROP (R292): SV1 is not running its loops, and power exceeds the cap by 10 % for 2 ms. -/
def execPwrHoldDrop (watts : Nat) (s : State) : Res :=
  lift (fun d => d.when (d.fwRunning && !d.safe && !(d.core 33).running && decide (11 * d.g 0x1104 0 11 < 10 * watts)) fun d =>
    let n := max 16 (d.g 0x1100 0 6 - 8)
    let d1 := { d with fw := { d.fw with pLevel := min d.fw.pLevel n } }
    (if n = d1.g 0x1100 0 6 then d1 else d1.levelTo n 256).inc 0x1808) s

/-! ### Sequencers by command -/

/-- A value that the firmware may give a cove in a launch image or a grant table (R325): an address within its ranges, an
engine of its own; so never one of the firmware area (R266). -/
def Dev.grantable (d : Dev) (cove : Nat) (e : Reg) : Bool :=
  let base (t : Nat) : Nat := alignDown (adrOf t e.v) (boundS t e.v)
  let inOne (w : Bool) (t : Nat) : Bool := (d.cove cove).cfg.ranges.any fun r =>
    decide (r.base ≤ base t) && decide (base t + 2 ^ boundS t e.v ≤ r.base + r.size) && (!w || r.w)
  if e.tag = 2 then inOne (bitN e.v.toNat 54) 2
  else if e.tag = 7 then d.inCove cove false (base 7) (2 ^ boundS 7 e.v)
  else if e.tag = 3 then fieldN e.v.toNat 58 6 == cove
  else if e.tag = 4 ∧ fieldN e.v.toNat 0 8 = 1 then bitN (d.cove cove).cfg.dmaMask (fieldN e.v.toNat 16 16)
  else true

/-- A launch image that the firmware may give a cove (R325). -/
def Dev.imageOwned (d : Dev) (cove : Nat) (img : List Byte) : Bool :=
  (List.range 32).all fun j => d.grantable cove (launchEntry img j)

/-- Address and bytes of the grant table that a launch image names (Table 8.10). -/
def grantOf (img : List Byte) : Nat × Nat := (leAt img 512 8, 16 * leAt img 520 4)

/-- The grant table of a launch image is one the firmware may give a cove: of at most 4,096 entries, in memory granted to no
cove, and each valid entry as R325 has it (R230, R325). -/
def Dev.tableOwned (d : Dev) (cove : Nat) (img tbl : List Byte) : Bool :=
  let (a, n) := grantOf img
  a % 16 == 0 && decide (n ≤ 65536) && (n == 0 || inMap a n && d.clearOfCoves a n)
    && (List.range (n / 16)).all fun j =>
      !bitN (leAt tbl (16 * j + 9) 1) 0 || d.grantable cove (launchEntry tbl j)

/-- Code measured before a launch (R475): PMR and LAUNCHES of the cove. -/
def Dev.measureLaunch (d : Dev) (cove : Nat) (code : List Byte) : Dev :=
  let p := d.sec.pmr.get (fun _ => (0, 0)) cove
  let v := shakeN (leBytes p.1 32 ++ [BitVec.ofNat 8 cove] ++ leBytes (shakeN code) 32)
  { d with sec := { d.sec with pmr := (cove, (v, p.2 + 1)) :: d.sec.pmr.filter (·.1 ≠ cove) } }

/-- May the issuer of LAUNCH_SQ launch this image on this sequencer (R325, R327)? -/
def Dev.mayLaunch (d : Dev) (c : Cmd) (sq : Nat) (img tbl : List Byte) (bad : Bool) : Bool :=
  let cove := leAt img 524 1
  let mine := match d.cmdCove c with
    | none => true
    | some n => bitN (d.cove n).cfg.sqMask sq && cove == n
  mine && decide (cove ≤ 63) && decide (boundS 7 (launchEntry img 0).v ≤ 24) && (bad || d.imageOwned cove img && d.tableOwned cove img tbl)

/-- Address and size of the code of a launch image. -/
def codeOf (img : List Byte) : Nat × Nat :=
  let e := launchEntry img 0
  (alignDown (adrOf 7 e.v) (boundS 7 e.v), 2 ^ boundS 7 e.v)

/-- A launch image with the seal key of its cove, which the firmware draws (R229, R334). -/
def Dev.keyed (d : Dev) (img : List Byte) : List Byte :=
  img.take 528 ++ leBytes (d.cove (leAt img 524 1)).sealKey 16 ++ img.drop 544

/-- A launch image taken: its code measured, the sequencer launched (R327, R475); poisoned code is not launched. -/
def Dev.launchImage (d : Dev) (q cid sq : Nat) (img : List Byte) : Dev :=
  let cove := leAt img 524 1
  let (code, pois, d2) := d.memRead pgFWR cove (codeOf img).1 (codeOf img).2
  if pois then d2.complete q cid 0x0403 0
  else (((d2.measureLaunch cove code).launch sq (d2.keyed img)).coveWorks (some cove)).complete q cid 0 0

/-- LAUNCH_SQ (R325, R327, R475): the image at BUF and the grant table it names are checked, its code measured, and the
sequencer launched. A trap of
the firmware's LAUNCH answers BAD_PARAM, the sequencer stopped (R243). -/
def execLaunchSq (q : Fin 256) (cid : Nat) (sq : Fin 32) (s : State) : Res :=
  lift (fun d => match d.cmd? q cid 0x0040 with
    | none => d
    | some c =>
      let (img, bad, d1) := d.memRead pgFWR (domOf (d.cmdCove c)) c.buf 576
      if c.buflen < 576 then d.complete q cid 0x0002 0
      else if !d.bufOk c false 576 || c.buf % 64 ≠ 0 then d.complete q cid 0x0010 0
      else
      let (tbl, _, d1) := if 65536 < (grantOf img).2 then ([], false, d1) else d1.memRead pgFWR 0x40 (grantOf img).1 (grantOf img).2
      if !d.mayLaunch c sq img tbl bad then d1.complete q cid 0x0002 0
      else if (launchBad img bad).isSome then
        (d1.setCore sq { d1.core sq with running := false }).complete q cid 0x0002 0
      else d1.launchImage q cid sq img) s

/-- STOP_SQ (R244): the sequencer is stopped and its state image written to BUF. -/
def execStopSq (q : Fin 256) (cid : Nat) (sq : Fin 32) (s : State) : Res :=
  lift (fun d => match d.cmd? q cid 0x0041 with
    | none => d
    | some c =>
      let mine := match d.cmdCove c with
        | none => true
        | some n => bitN (d.cove n).cfg.sqMask sq
      if !mine || c.buflen < 576 then d.complete q cid 0x0002 0
      else if !d.bufOk c true 576 || c.buf % 64 ≠ 0 then d.complete q cid 0x0010 0
      else
        let k := { d.core sq with running := false }
        (d.setCore sq k).answer c (stateImage k) 0) s

end Sys2Proof.Machine
end

