-- ==== Sys2Proof/Machine/Ckp.lean ====
section
/-!
DEFINITION. Machine/Ckp.lean: the snapshot set, the capture, the copier, restore, and the buddy ring (chapter 16).
-/
namespace Sys2Proof.Machine

/-- PREIMAGE_COPIED (R429, R430): the pre-image of an UNCOPIED granule that a write has reached stands in the snapshot pool,
or finds no room there. -/
def execPreimageCopied (g : Nat) (s : State) : Res :=
  lift (fun d =>
    match d.ckp.copying.find? (·.gran == g) with
    | none => d
    | some p => if d.fw.layout.sSize < (d.ckp.pre.length + 1) * 65536 then d.snapEnd 0x0204 else d.preserve p) s

/-! ### The set (R425) -/

/-- The storage target's cache (Table 15.6). -/
def Dev.nvtCache (d : Dev) : Nat × Nat := (d.g (pgNVT + 0x10c) 0 18 * 2 ^ 30, d.g (pgNVT + 0x110) 0 7 * 2 ^ 30)

/-- Two ranges share a byte. -/
def rangesMeet (a b : Nat × Nat) : Bool := decide (a.1 < b.1 + b.2) && decide (b.1 < a.1 + a.2)

/-- Every range of a list is apart from the later ones. -/
def allApart : List (Nat × Nat) → Bool
  | [] => true
  | r :: t => t.all (fun x => !rangesMeet r x) && allApart t

/-- Ranges of a set, in bytes. -/
def setRanges (w : List Byte) : List (Nat × Nat) :=
  (List.range (leAt w 0 1)).map fun r => (leAt w (192 + 16 * r) 8, leAt w (200 + 16 * r) 4 * 65536)

/-- Is the set allowed (R425)? `most`: the SET_MAX the ring in force names for this device. -/
def Dev.setOk (d : Dev) (w : List Byte) (most : Option Nat) : Bool :=
  let y := d.fw.layout
  let n := leAt w 0 1
  let m := leAt w 2 2
  let l := setRanges w
  let inPool (r : Nat × Nat) : Bool :=
    decide (y.kBase ≤ r.1) && decide (r.1 + r.2 ≤ y.kBase + y.kSize) || d.inScratch r.1 r.2
  decide (1 ≤ n) && decide (n ≤ 64) && decide (1 ≤ m) && decide (m ≤ 384)
    && l.all (fun r => r.1 % 65536 == 0 && r.2 ≠ 0 && inPool r && !rangesMeet r (fwBase, 2 ^ 30) && !rangesMeet r d.nvtCache)
    && allApart l && decide (l.foldl (fun a r => a + r.2) 0 ≤ m * 2 ^ 30 - 65536)
    && (match most with | some x => decide (m ≤ x) | none => true)

/-- A set in force, and the registers that show it (R425). -/
def Dev.putSet (d : Dev) (set : SnapSet) : Dev :=
  ((({ d with ckp := { d.ckp with set := some set } } : Dev).sb (pgCKP + 0x100) 3 true).s (pgCKP + 0x108) 0 9 set.setMax).s
    (pgCKP + 0x11c) 0 32 (granCount set.ranges)

/-- SNAP_SET (R425). `most`: the SET_MAX that the ring in force names for this device (DESIGN CHOICE, log entry 37). -/
def execSnapSet (cid : Nat) (most : Option Nat) (s : State) : Res :=
  lift (fun d => d.admin cid 0x0200 fun c d =>
    if d.ckp.run.isSome then d.complete 0 cid 0x0200 0
    else if c.buflen < 1216 then d.complete 0 cid 0x0002 0
    else if !d.bufOk c false 1216 then d.complete 0 cid 0x0010 0
    else
      let (w, bad, d1) := d.memRead pgFWR 0x40 c.buf 1216
      if bad || !d1.setOk w most then d1.complete 0 cid 0x0201 0
      else
        (d1.putSet { raw := w, setMax := leAt w 2 2, ranges := setRanges w }).complete 0 cid 0 0) s

/-! ### Capture and copy (R427, R436) -/

/-- The capture (R427): the tide, the map generation, the versions and the generators; every granule UNCOPIED. `old`:
FW_VER before a handover at this tide. -/
def Dev.snapCapture (d : Dev) (cid old : Nat) : Dev :=
  match d.ckp.set with
  | none => d.complete 0 cid 0x0202 0
  | some set =>
    let q := d.ckp.seq + 1
    let r : Snap := { cid := cid, seq := q, tide := d.tide.cur, fwOld := old, fwNew := d.fw.image.ver, mapGen := d.gen, sr := d.xc.gen }
    let gran := set.ranges.flatMap fun p => (List.range (p.2 / 65536)).map fun i => (p.1 / 65536 + i, 1)
    let d1 := { d with ckp := { d.ckp with seq := q, run := some r, gran := gran, pre := [], copying := [], armAt := none } }
    ((d1.ckpState 1).wr64 (pgCKP + 0x114) r.tide.toNat).s (pgCKP + 0x120) 0 32 0

/-- SNAP_ARM (R427). -/
def execSnapArm (cid : Nat) (s : State) : Res :=
  lift (fun d => d.admin cid 0x0201 fun c d =>
    if d.ckp.run.isSome || d.ckp.armAt.isSome || d.ckp.restore.isSome then d.complete 0 cid 0x0200 0
    else if d.ckp.set.isNone then d.complete 0 cid 0x0202 0
    else if d.buddy.isNone then d.complete 0 cid 0x0203 0
    else if c.arm then { d.hold c with ckp := { (d.hold c).ckp with armAt := some (cid, c.tide) } }
    else if d.slackNow then (d.hold c).snapCapture cid d.fw.image.ver
    else d.complete 0 cid 0x0007 0) s

/-- SNAP_ABORT (R437). -/
def execSnapAbort (cid : Nat) (s : State) : Res :=
  lift (fun d => d.admin cid 0x0202 fun _ d => (d.snapEnd 0x0206).complete 0 cid 0 0) s

/-- Address of a slot in this device's own buddy pool (R435). -/
def Dev.ownSlot (d : Dev) (slot : Nat) : Nat := d.fw.layout.bBase + d.slotOff slot

/-- The commit record in a slot of this device, where the slot holds one of the ward; its 1,280 bytes are read and verified
(R199, R435). -/
def Dev.slotRecord (d : Dev) (w k : Nat) : Option (List Byte) × Dev :=
  let (l, bad, d1) := d.memRead pgFWR 0x40 (d.ownSlot k) 1280
  (if metaValid l bad w then some (l.take 64) else none, d1)

/-- The ward's newer commit record among this device's slots (R435). -/
def Dev.wardRecord (d : Dev) : Option (List Byte) × Dev :=
  match d.ward with
  | none => (none, d)
  | some w =>
    let (x, d1) := d.slotRecord w 0
    let (y, d2) := d1.slotRecord w 1
    (match x, y with
      | some x, some y => some (if leAt x 8 8 < leAt y 8 8 then y else x)
      | some x, none => some x
      | none, y => y, d2)

/-- SNAP_STATUS (R440): where there is no such record, the bytes are free values. -/
def execSnapStatus (cid : Nat) (s : State) : Res :=
  lift (fun d => d.admin cid 0x0203 fun c d =>
    let (x, d1) := if d.ckp.last.isEmpty then d.freeBytes 64 else (d.ckp.last, d)
    let (r, d2) := d1.wardRecord
    let (y, d2) := match r with | some l => (l, d2) | none => d2.freeBytes 64
    d2.answer c (x ++ y) 0) s

/-- Some write of the copier for a snapshot is not acknowledged. -/
def Dev.copyPending (d : Dev) (seq : Nat) : Bool := d.emh.ctx.any fun x => x.reqs.any fun r => r.job == 1 + 8 * seq

/-- The bytes of a pre-image that is being copied, verified as they are read (R198). -/
def Dev.readImage (d : Dev) (p : PreImg) : List (Byte × Bool) × Dev :=
  let a := p.gran * 65536
  let d1 := d.each (p.marks.filter (·.2 = .bad)) fun m d => d.cwMismatch pgCKP 0x40 (m.1 * 256)
  (((Map.getList (fun _ => (0 : Byte)) p.cells a 65536).zipIdx.map fun (b, i) =>
    (b, p.marks.get (fun _ => .good) ((a + i) / 256) ≠ .good)), d1)

/-- A granule is sent: its pre-image where it is PRESERVED or a write has reached it, or else the live granule; its mark is
then cleared (R436). -/
def Dev.sendGranule (d : Dev) (c : Nat) (r : Snap) (a : Nat) : Dev :=
  let g := a / 65536
  let (l, d1) :=
    match d.ckp.copying.find? (·.gran == g), d.ckp.pre.findIdx? (· == g) with
    | some p, _ => d.readImage p
    | none, some k => d.readP pgCKP 0x40 (d.fw.layout.sBase + 65536 * k) 65536
    | none, none => d.readP pgCKP 0x40 a 65536
  let bad := l.any (·.2)
  let d2 := if bad then d1.inc (pgCKP + 0x810) else d1
  let d3 := { d2 with ckp := { d2.ckp with
    gran := d2.ckp.gran.filter (·.1 ≠ g), copying := d2.ckp.copying.filter (·.gran ≠ g)
    run := some { r with sent := r.sent + 1, npoison := r.npoison + b2n bad } } }
  (d3.incBy (pgCKP + 0x120) 1).copyWrite c r.seq (65536 * (r.sent + 1)) l

/-- The next write of the copier (R436); a context takes at most 256 outstanding requests (R378). -/
def Dev.copyStep (d : Dev) : Dev :=
  match d.ckp.run, d.ckp.set with
  | some r, some set =>
    match d.buddyCtx with
    | none => d.snapEnd 0x0205
    | some c => d.when (decide ((d.ctx c).reqs.length < 256)) fun d =>
      let put (d : Dev) (r : Snap) : Dev := { d with ckp := { d.ckp with run := some r } }
      let plain (l : List Byte) : List (Byte × Bool) := l.map fun b => (b, false)
      let wait := d.copyPending r.seq
      if r.step = 0 then (put d { r with step := 1 }).copyWrite c r.seq 0 (plain (d.commitRecord r set false))
      else if r.step = 1 then
        if r.sent = 0 ∧ wait then d
        else match granAddr set.ranges r.sent with
          | some a => d.sendGranule c r a
          | none =>
            (put d { r with step := 3 }).copyWrite c r.seq 64 (plain (r.meta set ++ List.replicate (65536 - 1280) 0))
      else if r.step = 3 then
        if wait then d
        else ((put d { r with step := 4 }).ckpState 2).copyWrite c r.seq 0 (plain (d.commitRecord r set true))
      else d
  | _, _ => d

/-- SNAPSHOT_COPY (R436): the copier's next write. -/
def execSnapshotCopy (s : State) : Res :=
  lift (fun d => d.when (!d.safe && !d.tide.hold && d.starts pgCKP && d.emhOn) Dev.copyStep) s

/-! ### Restore (R438, R439) -/

/-- A range copied granule by granule: read, verified, and written with check words of its own; poison is kept (R439). -/
def Dev.copyRange (d : Dev) (src dst n : Nat) : Dev :=
  d.each (List.range (n / 256)) fun i d =>
    let (l, bad, d1) := d.memRead pgCKP 0x40 (src + 256 * i) 256
    d1.memWrite pgCKP 0x40 (dst + 256 * i) l bad

/-- A restore from a local image in slot layout. -/
def Dev.restoreLocal (d : Dev) (cid a : Nat) (set : SnapSet) : Dev :=
  let n := granCount set.ranges
  if !d.inStaging a 65536 then d.complete 0 cid 0x0010 0
  else
    let (m, bad, d1) := d.memRead pgFWR 0x40 a 65536
    let st := d1.restoreCheck m bad
    if st ≠ 0 then d1.restoreFail cid st
    else if !d1.inStaging a (65536 * (n + 1)) then d1.restoreFail cid 0x0010
    else
      let d2 := d1.each (List.range n) fun i d =>
        match granAddr set.ranges i with
        | some g => d.copyRange (a + 65536 * (i + 1)) g 65536
        | none => d
      d2.restoreOk cid m

/-- SNAP_RESTORE (R438, R439). -/
def execSnapRestore (cid : Nat) (s : State) : Res :=
  lift (fun d => d.admin cid 0x0204 fun c d =>
    let src := leAt c.param 0 1
    if !d.slackNow then d.complete 0 cid 0x0007 0
    else if d.ckp.run.isSome || d.ckp.restore.isSome then d.complete 0 cid 0x0200 0
    else if 3 < src then d.complete 0 cid 0x0002 0
    else match d.ckp.set with
      | none => d.complete 0 cid 0x0202 0
      | some set =>
        if src = 3 then d.restoreLocal cid c.buf set
        else match d.buddy, d.buddyCtx with
          | none, _ => d.complete 0 cid 0x0203 0
          | _, none => d.complete 0 cid 0x0205 0
          | _, some x =>
            let d1 := (d.hold c).ckpState 3
            ({ d1 with ckp := { d1.ckp with restore := some { cid := cid, src := src } } } : Dev).readMeta x
              (if src = 2 then 1 else 0)) s

/-! ### The buddy ring (R431 to R434) -/

/-- What a ring assigns to a device, as its BUDDY_OFFER says it (Table 14.11). -/
def ringOffer (ring : List (Nat × Nat × Nat)) (dev : Nat) : Ctl :=
  let n := ring.length
  match ring.findIdx? (·.1 == dev) with
  | none => { ctype := 5 }
  | some i =>
    if n = 1 then { ctype := 5 }
    else
      let b := ring.getD ((i + 1) % n) (0, 0, 0)
      let w := ring.getD ((i + n - 1) % n) (0, 0, 0)
      { ctype := 5, dev := b.1, buddyV := true, arg := b.2.2, tide := BitVec.ofNat 64 (w.1 % 1024 + 2 ^ 10 + w.2.1 * 2 ^ 16) }

/-- Does a member accept an offer (R38, R432)? -/
def Dev.offerOk (d : Dev) (m : Ctl) : Bool :=
  !bitN m.tide.toNat 10 || decide (2 * fieldN m.tide.toNat 16 16 * 2 ^ 30 ≤ d.fw.layout.bSize)

/-- The assignment held, in the same form. -/
def Dev.heldOffer (d : Dev) : Ctl :=
  let w := match d.ward with | some x => x + 2 ^ 10 + d.ckp.wardMax * 2 ^ 16 | none => 0
  match d.buddy with
  | some b => { ctype := 5, dev := b, buddyV := true, arg := d.ckp.rkey, tide := BitVec.ofNat 64 w }
  | none => { ctype := 5, tide := BitVec.ofNat 64 w }

/-- A member that is excluded holds no assignment (R434). -/
def Dev.dropAssignment (d : Dev) : Dev :=
  let d1 := d.wr (pgCKP + 0x104) 0
  { d1 with ckp := { d1.ckp with rkey := 0, wardMax := 0, offer := none, offerAt := none } }

/-- An assignment takes effect (R433): a changed buddy aborts the running snapshot and the next starts in slot A; a
changed ward makes both slots invalid; an unchanged one changes nothing. -/
def Dev.applyOffer (d : Dev) (m : Ctl) : Dev :=
  let old := d.heldOffer
  let t := m.tide.toNat
  let d0 := { d with ckp := { d.ckp with offer := none, offerAt := none } }
  if m = old then d0
  else
    let d1 := if m.buddyV == old.buddyV && m.dev == old.dev then d0
      else (d0.snapEnd 0x0206).sb (pgCKP + 0x100) 2 false
    let d2 := if t % 2048 = old.tide.toNat % 2048 then d1
      else (d1.poke (d1.ownSlot 0 + 4) [0]).poke (d1.ownSlot 1 + 4) [0]
    let b := m.dev % 1024 + 2 ^ 10 * b2n m.buddyV + t % 1024 * 2 ^ 16 + b2n (bitN t 10) * 2 ^ 26
    let d3 := d2.wr (pgCKP + 0x104) (BitVec.ofNat 32 b)
    { d3 with ckp := { d3.ckp with rkey := m.arg, wardMax := fieldN t 16 16 } }

/-- An offer accepted: a member in slack that holds no assignment applies it at once (R434). -/
def Dev.takeOffer (d : Dev) (m : Ctl) : Dev :=
  if d.slackNow && d.buddy.isNone && d.ward.isNone then
    let d1 := d.applyOffer m
    { d1 with ckp := { d1.ckp with offer := some m } }
  else { d with ckp := { d.ckp with offer := some m } }

/-- The ring the headland agrees is dropped: a member refused it. -/
def Dev.ringRefused (d : Dev) (cid who : Nat) : Dev :=
  ({ d with ckp := { d.ckp with newRing := none, offer := none }
            tide := { d.tide with ctlOps := d.tide.ctlOps.filter fun o => !(o.req == 5 || o.req == 7) } } : Dev).complete
    0 cid 0x0207 who

/-- The ring is in force: BUDDY_RING completes. -/
def Dev.ringDone (d : Dev) (cid : Nat) : Dev :=
  let ring := match d.ckp.newRing with | some (_, _, l) => l | none => d.ckp.ring
  ({ d with ckp := { d.ckp with ring := ring, newRing := none }
            tide := { d.tide with ctlOps := d.tide.ctlOps.filter (·.req ≠ 7) } } : Dev).complete 0 cid 0 0

/-- The members a ring is delivered to: the workers, and of the excluded devices those that the headland has a connection
with, so that a replaced module gets its assignment before it is included again (R434; DEDUCED, log entry 67). -/
def Dev.ringMembers (d : Dev) : List Nat :=
  d.tide.members.filter fun m => !d.tide.excluded.contains m || (d.findCtx 2 m none).isSome

/-- Every member has accepted: BUDDY_ARM is sent, naming the armed tide, or 0 to apply at once in slack (R432). -/
def Dev.ringArm (d : Dev) : Dev :=
  match d.ckp.newRing with
  | none => d
  | some (cid, at', _) =>
    let t := at'.getD 0
    let d1 := { d with tide := { d.tide with ctlOps := d.tide.ctlOps.filter (·.req ≠ 5) } }
    let d2 := d1.request { req := 7, cid := cid, tide := t, waiting := d1.ringMembers } { ctype := 7, tide := t }
    match at', d2.ckp.offer with
    | some _, _ => { d2 with ckp := { d2.ckp with offerAt := some t } }
    | none, some m =>
      let d3 := d2.applyOffer m
      if d3.ringMembers.isEmpty then d3.ringDone cid else d3
    | none, none => d2

/-- A ring whose last answer was that of a device excluded meanwhile goes on without it (R432, R462). -/
def Dev.ringSettle (d : Dev) : Dev :=
  match d.tide.ctlOps.find? fun o => (o.req == 5 || o.req == 7 && d.ckp.offerAt.isNone) && o.waiting.isEmpty with
  | none => d
  | some o => if o.req = 5 then d.ringArm else d.ringDone o.cid

/-- The headland offers a ring: it takes its own part, and sends the workers theirs (R431, R432). -/
def Dev.offerRing (d : Dev) (cid : Nat) (c : Cmd) (ring : List (Nat × Nat × Nat)) : Dev :=
  let d2 := d.hold c
  let d3 := { d2 with ckp := { d2.ckp with newRing := some (cid, if c.arm then some c.tide else none, ring) } }
  let d4 := (d3.takeOffer (ringOffer ring d3.tide.dev)).each d3.ringMembers fun w d => d.sendCtl w (ringOffer ring w)
  let o : CtlOp := { req := 5, cid := cid, tide := 0, waiting := d3.ringMembers }
  let d5 := { d4 with tide := { d4.tide with ctlOps := d4.tide.ctlOps ++ [o] } }
  if o.waiting.isEmpty then d5.ringArm else d5

/-- The entries of a ring (R431). -/
def ringEntries (l : List Byte) (n : Nat) : List (Nat × Nat × Nat) :=
  (List.range (n / 8)).map fun i => (leAt l (8 * i) 2, leAt l (8 * i + 2) 2, leAt l (8 * i + 4) 4)

/-- A ring no device may take part in (R431). -/
def ringBad (ring : List (Nat × Nat × Nat)) : Bool :=
  (ring.map Prod.fst).eraseDups.length ≠ ring.length || ring.any fun e => decide (1024 ≤ e.1)

/-- BUDDY_RING (R431, R432). -/
def execBuddyRing (cid : Nat) (s : State) : Res :=
  lift (fun d => d.headCmd cid 0x0013 fun c d =>
    if !c.arm && !d.slackNow then d.complete 0 cid 0x0007 0
    else if c.buflen % 8 ≠ 0 || d.ckp.newRing.isSome then d.complete 0 cid 0x0002 0
    else if !d.bufOk c false c.buflen then d.complete 0 cid 0x0010 0
    else
      let (l, bad, d1) := d.memRead pgFWR 0x40 c.buf c.buflen
      let ring := ringEntries l c.buflen
      if bad || ringBad ring then
        d1.complete 0 cid 0x0002 0
      else
        let me := ringOffer ring d1.tide.dev
        if !d1.offerOk me then d1.complete 0 cid 0x0207 d1.tide.dev
        else
          d1.offerRing cid c ring) s

/-- BUDDY_OFFER_MSG (R432, R434). -/
def execBuddyOfferMsg (src : Nat) (m : Ctl) (s : State) : Res :=
  lift (fun d => if m.ctype ≠ 5 then d else d.ctlIn src m true fun d => d.when d.isWorker fun d =>
    let ok := d.offerOk m
    (if ok then d.takeOffer m else d).sendCtl src { ctype := 6, dev := d.tide.dev, refuse := !ok }) s

/-- BUDDY_REPLY_MSG (R432). -/
def execBuddyReplyMsg (src : Nat) (refuse : Bool) (s : State) : Res :=
  lift (fun d => d.ctlIn src { ctype := 6, dev := src, refuse := refuse } false fun d =>
    match d.tide.ctlOps.find? fun o => o.req == 5 && o.waiting.contains src with
    | none => d
    | some o =>
      if refuse then d.ringRefused o.cid src
      else
        let d1 := d.answered src fun x => x.req == 5
        if o.waiting = [src] then d1.ringArm else d1) s

/-- BUDDY_ARM_MSG (R432, R433). -/
def execBuddyArmMsg (src : Nat) (tide : DWord) (s : State) : Res :=
  lift (fun d => d.ctlIn src { ctype := 7, tide := tide } true fun d => d.when d.isWorker fun d =>
    let d1 := match d.ckp.offer with
      | none => d
      | some m => if tide = 0 then d.applyOffer m else { d with ckp := { d.ckp with offerAt := some tide } }
    d1.sendCtl src { ctype := 8, dev := d.tide.dev, tide := tide }) s

/-- BUDDY_ACK_MSG (R432). -/
def execBuddyAckMsg (src : Nat) (tide : DWord) (s : State) : Res :=
  lift (fun d => d.ctlIn src { ctype := 8, dev := src, tide := tide } false fun d =>
    match d.tide.ctlOps.find? fun o => o.req == 7 && o.tide == tide && o.waiting.contains src with
    | none => d
    | some o =>
      let d1 := d.answered src fun x => x.req == 7 && x.tide == tide
      if o.waiting = [src] ∧ d1.ckp.offerAt.isNone then d1.ringDone o.cid else d1) s

end Sys2Proof.Machine
end

