-- ==== Sys2Proof/Machine/Dma.lean ====
section
/-!
DEFINITION. Machine/Dma.lean: the DMA engines (chapter 9), and the routing of bus requests (R303).
-/
namespace Sys2Proof.Machine

/-! ### Images -/

/-- Fields of a register-set image (Table 9.1). -/
structure DmaImg where
  mode : Nat
  flags : Nat
  space : Nat
  iscale : Nat
  size : Nat
  src : Nat
  dst : Nat
  count : Nat
  sstride : Nat
  dstride : Nat
  rsv : Nat
  idx : Nat
  next : Nat
  cmpl : Nat

/-- An image read from its 64 bytes. -/
def dmaImg (l : List Byte) : DmaImg :=
  ⟨leAt l 0 1, leAt l 1 1, leAt l 2 1, leAt l 3 1, leAt l 4 4, leAt l 8 8, leAt l 16 8, leAt l 24 4, leAt l 28 4, leAt l 32 4,
   leAt l 36 4, leAt l 40 8, leAt l 48 8, leAt l 56 8⟩

def DmaImg.sbus (i : DmaImg) : Bool := bitN i.space 0
def DmaImg.dbus (i : DmaImg) : Bool := bitN i.space 1
def DmaImg.int (i : DmaImg) : Bool := bitN i.flags 0

/-- The limits of R250. -/
def DmaImg.limitsOk (i : DmaImg) : Bool :=
  decide (i.mode ≤ 3) && decide (i.flags ≤ 1) && decide (i.space ≤ 3) && decide (i.iscale ≤ 16) && i.rsv == 0
    && (if i.mode ≤ 1 then decide (1 ≤ i.size) else decide (2 ≤ i.size) && decide (i.size ≤ 65536) && i.size % 2 == 0)
    && (if i.mode = 0 then i.count == 0 else decide (1 ≤ i.count) && decide (i.count ≤ 2 ^ 24))

/-- Elements of a linear or strided image: source and destination (Table 9.2). -/
def DmaImg.elems (i : DmaImg) : List (Nat × Nat) :=
  if i.mode = 0 then [(i.src, i.dst)]
  else (List.range i.count).map fun k => (i.src + k * i.sstride, i.dst + k * i.dstride)

/-- Page of engine `n`; the domain of its work. -/
def pgEng (n : Nat) : Nat := 0x100000 + n * 0x1000
def Dma.dom (e : Dma) : Nat := domOf e.owner

/-- PASID of the requests of a cove's work (R320). -/
def Dev.pasidOf (d : Dev) (cove : Option Nat) : Option Nat := cove.map fun n => (d.cove n).cfg.pasid

/-! ### The bus -/

/-- The port a bus request leaves by (R303): an AP port whose memory window holds the address, else HEP. -/
def Dev.busPort (d : Dev) (a : Nat) : Nat :=
  ((List.range 8).find? fun k =>
    let w := d.port.apWin.getD k (0, 0)
    decide (w.1 ≤ a) && decide (a < w.2)).getD 8


/-- A bus read split at 4 KiB boundaries and by Max Read Request Size (R300). -/
def busSplit (mrrs a n : Nat) : Nat → List (Nat × Nat)
  | 0 => []
  | f + 1 => if n = 0 then [] else
      let k := min n (min mrrs (4096 - a % 4096))
      (a, k) :: busSplit mrrs (a + k) (n - k) f

/-- A bus write by a port; a write to a link that is down is dropped (R312), and in safe state none is issued (R316). -/
def Dev.busWrite (d : Dev) (a : Nat) (l : List Byte) (poison : Bool) (pasid : Option Nat) : Dev :=
  let p := d.busPort a
  if d.safe || !d.linkUp p || !d.port.bme then d else d.emit (.busWrite p a l poison pasid)

/-- Bytes written to the bus, in requests that cross no 4 KiB boundary, each routed by its own address (R303). -/
def Dev.busWrites (d : Dev) (a : Nat) (l : List Byte) (poison : Bool) (pasid : Option Nat) : Dev :=
  d.each (busSplit 4096 a l.length (l.length / 4096 + 2)) fun q d =>
    d.busWrite q.1 ((l.drop (q.1 - a)).take q.2) poison pasid

/-- The last address written by each port in a write of a range (R259). -/
def Dev.busLast (d : Dev) (l : List (Nat × Nat)) (a n : Nat) : List (Nat × Nat) :=
  (busSplit 4096 a n (n / 4096 + 2)).foldl (fun l q =>
    let p := d.busPort q.1
    (p, q.1 + q.2 - 1) :: l.filter (·.1 ≠ p)) l

/-! ### Checks (R253) -/

/-- A device range an engine may read, or write: in the map, within its cove, and when written outside every codebook slot
(R110, R253). -/
def Dma.reaches (e : Dma) (w : Bool) (a n : Nat) : Bool :=
  decide (a < 2 ^ 48) && rangeOkIn e.ranges e.owner w a n && !(w && decide (0 < n) && inSlots a n)

/-- An address of an element. -/
def Dma.addrOk (e : Dma) (bus w : Bool) (a n : Nat) : Bool :=
  if bus then decide (a + n ≤ 2 ^ 50) else e.reaches w a n

/-- What a failed check records: the cove's count (R324), and a write to the check region (R35). -/
def Dev.engDeny (d : Dev) (n : Nat) (e : Dma) (w : Bool) (a len : Nat) : Dev :=
  let d1 := match e.owner with
    | some k => if decide (a < 2 ^ 48) && inMap a len && !covers e.ranges w a len 17 then d.deny k else d
    | none => d
  if w && areaOf a = .check then d1.accessDenied (pgEng n) none e.dom a (0x40 * 2 ^ 16 + n) else d1

/-- The first address of a list of (bus, write, address, bytes) that fails its check. -/
def Dma.badOf (e : Dma) (l : List (Bool × Bool × Nat × Nat)) : Option (Bool × Bool × Nat × Nat) :=
  l.find? fun x => !e.addrOk x.1 x.2.1 x.2.2.1 x.2.2.2

/-! ### Moving -/

/-- Bytes with the poison of their granules, read by an engine. -/
def Dev.engRead (d : Dev) (pg dom a n : Nat) : List (Byte × Bool) × Dev :=
  let (l, _, d1) := d.memRead pg dom a n
  let bad (x : Nat) : Bool := d1.mark (x / 256) ≠ .good || d1.siteFailed x
  (l.zipIdx.map fun (b, i) => (b, bad (a + i)), d1)

/-- Bytes stored by an engine, each granule's part poisoned where a byte of it is; answers how many were. -/
def Dev.engStore (d : Dev) (pg dom a : Nat) (l : List (Byte × Bool)) : Dev × Nat :=
  (pieces a (l.map (·.1)) (l.length / 256 + 2)).foldl (fun (r : Dev × Nat) p =>
    let bad := ((l.drop (p.1 - a)).take p.2.length).any (·.2)
    (r.1.memWrite pg dom p.1 p.2 bad, r.2 + b2n bad)) (d, 0)

/-- A 64-bit counter of a page moved on. -/
def Dev.inc64 (d : Dev) (k n : Nat) : Dev := d.wr64 k ((d.rd64 k + n) % 2 ^ 64)

/-- Pieces of a run of bytes cut at granules of its source that hold poison. -/
def badPieces (a : Nat) (l : List (Byte × Bool)) : Nat :=
  ((pieces a (l.map (·.1)) (l.length / 256 + 2)).filter fun p => ((l.drop (p.1 - a)).take p.2.length).any (·.2)).length

/-- Bytes from `s` written to the bus at `t`: what comes from a poisoned granule goes as a poisoned request, and the rest as a
good one (R205, R254). -/
def Dev.busOut (d : Dev) (s t : Nat) (l : List (Byte × Bool)) (pasid : Option Nat) : Dev :=
  if !l.any (·.2) then d.busWrites t (l.map (·.1)) false pasid
  else d.each (pieces s (l.map (·.1)) (l.length / 256 + 2)) fun p d =>
    d.busWrites (t + (p.1 - s)) p.2 (((l.drop (p.1 - s)).take p.2.length).any (·.2)) pasid

/-- A number of PROGRESS: bytes of a linear image, elements of another (Table 9.5). -/
def Dev.progress (d : Dev) (n : Nat) (i : DmaImg) (k : Nat) : Dev :=
  d.wr (pgEng n + 0x184) (BitVec.ofNat 32 (if i.mode = 0 then i.size else k + 1))

/-- An element read from the bus: its requests are issued and awaited (R300); at a link that is down the image ends BUS_ERR
(R312). -/
def Dev.busElem (d : Dev) (n : Nat) (i : DmaImg) (x : DmaElem) : Dev :=
  let pasid := d.pasidOf (d.eng n).owner
  (busSplit d.port.mrrs x.s i.size (i.size / 64 + 4)).foldl (fun d q =>
    let e := d.eng n
    let p := d.busPort q.1
    if e.status ≠ 0 then d
    else if !d.linkUp p then d.setEng n { e with status := 0x0a, fault := some (q.1, true) }
    else
      (d.emit (.busRead p q.1 q.2 pasid n x.k)).setEng n
        { e with rd := e.rd ++ [⟨x.k, q.1 - x.s, p, q.1, q.2, x.t + (q.1 - x.s), i.dbus, 0⟩] }) d

/-- An element read in the device and written to the bus. Of whole granules the check words go with the bytes, and the port
that sends them verifies them (R198); of other elements the engine does (R202, R254). -/
def Dev.devToBus (d0 : Dev) (n : Nat) (i : DmaImg) (x : DmaElem) : Dev :=
  let e := d0.eng n
  let pg (a : Nat) : Nat := if x.s % 256 == 0 && x.t % 256 == 0 && i.size % 256 == 0 then pgPort (d0.busPort a) else pgEng n
  let (l, d1) := (busSplit 4096 x.t i.size (i.size / 4096 + 2)).foldl (fun (r : List (Byte × Bool) × Dev) q =>
    let (l, d) := r.2.engRead (pg q.1) e.dom (x.s + (q.1 - x.t)) q.2
    (r.1 ++ l, d)) ([], d0)
  let d2 := ((d1.busOut x.s x.t l (d1.pasidOf e.owner)).incBy (pgEng n + 0x81c) (badPieces x.s l)).inc64 (pgEng n + 0x810) i.size
  d2.setEng n { e with poison := e.poison || l.any (·.2), lastBus := d1.busLast e.lastBus x.t i.size }

/-- An element moved within the device: granule for granule with their check words where all is aligned, else verified and
made anew (R202, R254). -/
def Dev.devToDev (d0 : Dev) (n : Nat) (i : DmaImg) (x : DmaElem) : Dev :=
  let e := { d0.eng n with lastDev := some (x.t + i.size - 1), moved := (d0.eng n).moved ++ [(x.s, x.t)] }
  let pg := pgEng n
  if x.s % 256 == 0 && x.t % 256 == 0 && i.size % 256 == 0 then
    let l := List.range (i.size / 256)
    let d0 := d0.each l fun j d => d.readInject (x.s + 256 * j)
    let bad := l.filter fun j => d0.mark (x.s / 256 + j) = .poison || d0.siteFailed (x.s + 256 * j)
    let d1 := ((d0.copyGranules x.s x.t i.size).inc64 (pg + 0x810) i.size).incBy (pg + 0x81c) bad.length
    d1.setEng n { e with poison := e.poison || !bad.isEmpty }
  else
    let (l, d1) := d0.engRead pg e.dom x.s i.size
    let (d2, c) := d1.engStore pg e.dom x.t l
    ((d2.incBy (pg + 0x81c) c).inc64 (pg + 0x810) i.size).setEng n { e with poison := e.poison || l.any (·.2) }

/-- One element moved by engine `n`. -/
def Dev.moveElem (d : Dev) (n : Nat) (i : DmaImg) (x : DmaElem) : Dev :=
  if i.sbus then d.busElem n i x
  else
    let d0 := d.inc64 (pgEng n + 0x808) i.size
    if i.dbus then d0.devToBus n i x else d0.devToDev n i x

/-- An element whose index entry was read poisoned: a gather image writes its place poisoned, a scatter image nothing; it is
counted (R251). -/
def Dev.poisonElem (d : Dev) (n : Nat) (i : DmaImg) (x : DmaElem) : Dev :=
  let e := { d.eng n with ca := (d.eng n).ca + 1, poison := true }
  if i.mode ≠ 2 then d.setEng n e
  else
    let (l, d1) := d.freeBytes i.size
    let pl := l.map fun b => (b, true)
    if i.dbus then
      (((d1.busOut x.t x.t pl (d.pasidOf e.owner)).incBy (pgEng n + 0x81c) (badPieces x.t pl)).inc64 (pgEng n + 0x810)
        i.size).setEng n { e with lastBus := d.busLast e.lastBus x.t i.size, placed := (x.k, x.t, i.size) :: e.placed }
    else
      let (d2, c) := d1.engStore (pgEng n) e.dom x.t pl
      ((d2.incBy (pgEng n + 0x81c) c).inc64 (pgEng n + 0x810) i.size).setEng n
        { e with lastDev := some (x.t + i.size - 1), placed := (x.k, x.t, i.size) :: e.placed }

/-- The first address of an element of a gather or scatter image that fails its check: bus side, write, address (R253). -/
def Dev.elemBad (d : Dev) (n : Nat) (i : DmaImg) (x : DmaElem) : Option (Bool × Bool × Nat) :=
  let e := d.eng n
  if !x.bad && !e.addrOk i.sbus false x.s i.size then some (i.sbus, false, x.s)
  else if !(x.bad && i.mode == 3) && !e.addrOk i.dbus true x.t i.size then some (i.dbus, true, x.t)
  else none

/-- An element's requests wait at a channel that retrains (R210). -/
def Dev.elemBlocked (d : Dev) (i : DmaImg) (x : DmaElem) : Bool :=
  !x.skip && (!i.sbus && !x.bad && d.blocked x.s i.size || !i.dbus && d.blocked x.t i.size)

/-- One element issued in its turn; one of a gather or scatter image is checked when its entry is read (R251, R253). -/
def Dev.issueElem (d : Dev) (n : Nat) (i : DmaImg) (x : DmaElem) : Dev :=
  if x.skip then d.progress n i x.k
  else
    match (if 2 ≤ i.mode then d.elemBad n i x else none) with
    | some (bus, w, a) =>
      (d.engDeny n (d.eng n) w a (if bus then 0 else i.size)).setEng n { d.eng n with status := 2, fault := some (a, bus) }
    | none =>
      let d1 := if x.bad then d.poisonElem n i x else d.moveElem n i x
      if (d1.eng n).status = 0 then d1.progress n i x.k else d1

/-- The elements issued in order (R249): after a failure no further one; one that waits at the memory holds back the
others. -/
def Dev.issueElems (d : Dev) (n : Nat) (i : DmaImg) : List DmaElem → Dev
  | [] => d.setEng n { d.eng n with todo := [] }
  | x :: rest =>
    if (d.eng n).status ≠ 0 then d.setEng n { d.eng n with todo := [] }
    else if d.elemBlocked i x then d.setEng n { d.eng n with todo := x :: rest }
    else (d.issueElem n i x).issueElems n i rest

/-- Bytes of moved elements that are source and destination at once: the result is undefined (R252). -/
def Dev.overlap (d : Dev) (i : DmaImg) (els : List (Nat × Nat)) : Dev :=
  d.each els fun t d => d.each els fun s d =>
    let lo := max s.1 t.2
    let hi := min (s.1 + i.size) (t.2 + i.size)
    if lo < hi then (let (l, d1) := d.freeBytes (hi - lo); d1.poke lo l) else d

/-- The cove an engine belongs to (R247). -/
def Dev.engOwner (d : Dev) (n : Nat) : Option Nat :=
  if d.b (pgEng n + 0x1a4) 31 then some (d.g (pgEng n + 0x1a4) 0 6) else none

/-- The shadow set unposted and unlocked, an armed post cancelled (R262). -/
def Dev.dmaDiscard (d : Dev) (n : Nat) : Dev :=
  (d.setCommit (pgEng n) { d.commit (pgEng n) with armed := none }).setEng n
    { d.eng n with posted := false, pImg := 0, pBad := 0 }

/-- OWNER of the engines of a mask (R253): a cove's, or the driver's. -/
def Dev.setOwner (d : Dev) (mask : Nat) (owner : Option Nat) : Dev :=
  d.each (bitList mask 64) fun n d =>
    d.wr (pgEng n + 0x1a4) (match owner with | some k => BitVec.ofNat 32 (2 ^ 31 + k) | none => 0)

/-- A resize has taken an engine from its cove (R331). -/
def Dev.engTaken (d : Dev) (n : Nat) (owner : Option Nat) : Bool :=
  match owner with
  | some k => !bitN (d.cove k).cfg.dmaMask n
  | none => false

/-- The engine is free, its chain ended; a posted set stays posted. An engine that a resize took from its cove is the
driver's now, and a set posted to it is discarded (R331). -/
def Dev.freeEng (d : Dev) (n : Nat) : Dev :=
  let e := d.eng n
  let d1 := d.setEng n { posted := e.posted, pImg := e.pImg, pBad := e.pBad }
  if d.engTaken n (d.engOwner n) then (d1.dmaDiscard n).setOwner (2 ^ n) none else d1

/-- The bytes of the active set. -/
def Dev.actImg (d : Dev) (n : Nat) : DmaImg :=
  dmaImg ((List.range 16).flatMap fun k => leBytes (d.rd (pgEng n + 0x140 + 4 * k)).toNat 4)

/-- All elements are issued and none is awaited: the image reports, or continues (R257, R259). -/
def Dev.engDone (d0 : Dev) (n : Nat) : Dev :=
  let e0 := d0.eng n
  let i := d0.actImg n
  if !e0.active ∨ e0.phase ≠ 0 ∨ !e0.rd.isEmpty ∨ !e0.todo.isEmpty then d0
  else
    let d := d0.overlap i e0.moved
    let e := d.eng n
    d.setEng n { e with phase := if i.cmpl ≠ 0 || i.int || i.next == 0 || e.status ≠ 0 || e.stopping then 1 else 3 }

/-- The elements of an indexed image, their entries read (Table 9.2, R251). -/
def DmaImg.indexed (i : DmaImg) (tb : List (Byte × Bool)) : List DmaElem :=
  (List.range i.count).map fun k =>
    let w := (tb.drop (4 * k)).take 4
    let x := leNat (w.map (·.1))
    let bad := w.any (·.2)
    if i.mode = 2 then ⟨k, i.src + x * 2 ^ i.iscale, i.dst + k * i.size, !bad && x == 0xffffffff, bad⟩
    else ⟨k, i.src + k * i.size, i.dst + x * 2 ^ i.iscale, !bad && x == 0xffffffff, bad⟩

/-- The index table is read, and the elements are issued; while it waits at the memory nothing is (R210). -/
def Dev.readIndex (d : Dev) (n : Nat) (i : DmaImg) : Dev :=
  if d.blocked i.idx (4 * i.count) then d.setEng n { d.eng n with phase := 5 }
  else
    let (tb, d1) := d.engRead (pgEng n) (d.eng n).dom i.idx (4 * i.count)
    ((d1.setEng n { d1.eng n with phase := 0 }).issueElems n i (i.indexed tb)).engDone n

/-- An image of 64 bytes started in the active set of engine `n` (R248 to R254, R260). -/
def Dev.startImg (d : Dev) (n : Nat) (l : List Byte) (img hops bad : Nat) (owner : Option Nat) : Dev :=
  let i := dmaImg l
  let e : Dma :=
    { d.eng n with
      active := true, owner := owner, img := img, hops := hops, status := 0, poison := false
      ca := 0, noRec := false, phase := 0, rd := [], todo := [], moved := [], placed := [], fault := none, lastDev := none
      lastBus := [], nextImg := none
      ranges := if d.engTaken n owner then (d.eng n).ranges else (owner.elim [] fun k => (d.cove k).cfg.ranges) }
  let d1 := (d.coveWorks owner).each (List.range 16) fun k d => d.wr (pgEng n + 0x140 + 4 * k) (BitVec.ofNat 32 (leAt l (4 * k) 4))
  let d1 := d1.wr (pgEng n + 0x184) 0
  let fin (d : Dev) (e : Dma) : Dev := (d.setEng n e).engDone n
  let badAddr (x : Bool × Bool × Nat × Nat) (noRec : Bool) : Dev :=
    fin (d1.engDeny n e x.2.1 x.2.2.1 x.2.2.2) { e with status := 2, fault := some (x.2.2.1, x.1), noRec := noRec }
  if bad ≠ 0 then fin d1 { e with status := if bad = 1 then 0x0b else 6, noRec := true }
  else if i.cmpl ≠ 0 ∧ !e.reaches true i.cmpl 16 then badAddr (false, true, i.cmpl, 16) true
  else if !i.limitsOk then fin d1 { e with status := 4 }
  else if i.mode ≤ 1 then
    match e.badOf (i.elems.flatMap fun p => [(i.sbus, false, p.1, i.size), (i.dbus, true, p.2, i.size)]) with
    | some x => badAddr x false
    | none =>
      if (i.sbus || i.dbus) && !d1.port.bme then fin d1 { e with status := 8 }
      else ((d1.setEng n e).issueElems n i (i.elems.zipIdx.map fun (p, k) => { k := k, s := p.1, t := p.2 })).engDone n
  else if i.idx % 4 ≠ 0 || !e.reaches false i.idx (4 * i.count) then badAddr (false, false, i.idx, 4 * i.count) false
  else if (i.sbus || i.dbus) && !d1.port.bme then fin d1 { e with status := 8 }
  else (d1.setEng n e).readIndex n i

/-- An engine whose request waited at the memory goes on (R210). -/
def Dev.engResume (d : Dev) (n : Nat) : Dev :=
  let e := d.eng n
  if !e.active then d
  else if e.phase = 5 then d.readIndex n (d.actImg n)
  else if e.phase = 0 && !e.todo.isEmpty then (d.issueElems n (d.actImg n) e.todo).engDone n
  else d

/-- The posted set moves into the active set, its commit takes effect, and its image starts (R255, R256). -/
def Dev.takePosted (d : Dev) (n : Nat) : Dev :=
  let e := d.eng n
  let l := (List.range 16).flatMap fun k => leBytes (d.rd (pgEng n + 0x100 + 4 * k)).toNat 4
  let c := d.commit (pgEng n)
  let d1 := (d.setCommit (pgEng n) { c with armed := none, seq := c.seq + 1 }).setEng n
    { e with posted := false, pImg := 0, pBad := 0, stopping := false }
  d1.startImg n l e.pImg 0 e.pBad (d.engOwner n)

/-- DMA_SET_START (R256). -/
def execDmaSetStart (n : Fin 64) (s : State) : Res :=
  lift (fun d =>
    d.when ((d.eng n).posted && !(d.eng n).active && d.live && d.starts (pgEng n) && !d.ebbing) fun d => d.takePosted n) s

/-- The continuation of an image that ended OK, checked before it is read: the hop count, and its address (R253, R257). -/
def Dev.checkNext (d : Dev) (n : Nat) : Dev :=
  let e := d.eng n
  let i := d.actImg n
  if d.g (pgEng n + 0x188) 0 16 < e.hops + 1 then d.setEng n { e with status := 9 }
  else if i.next % 64 ≠ 0 || !e.reaches false i.next 64 then
    (d.engDeny n e false i.next 64).setEng n { e with status := 2, fault := some (i.next, false) }
  else d

/-- The continuation checked and read (R257): the image's status, and the 64 bytes. -/
def Dev.readNext (d : Dev) (n : Nat) : Dev :=
  let d0 := d.checkNext n
  let e := d0.eng n
  if e.status ≠ 0 then d0
  else
    let (l, bad, d1) := d0.memRead (pgEng n) e.dom (d.actImg n).next 64
    if bad then d1.setEng n { e with status := 0x0b } else d1.setEng n { e with nextImg := some l }

/-- Continuations are taken: no FREEZE, no hold, no ebb, no STOP (R257, R262, R456, Table 9.4). -/
def Dev.mayContinue (d : Dev) (n : Nat) : Bool :=
  d.live && !d.b (pgEng n + 8) 1 && !d.ebbing && !(d.eng n).stopping

/-- The image ended OK and names a continuation. -/
def Dev.chains (d : Dev) (n : Nat) : Bool :=
  (d.eng n).status == 0 && (d.actImg n).next ≠ 0 && !(d.eng n).stopping

/-- The read-backs of a reporting image: one per place it wrote, 4 bytes; none after TIMEOUT, and none to the bus after
ABORTED_BME (R259, R261, R263). That of the device's memory is answered at once. -/
def Dev.readback (d1 : Dev) (n : Nat) : Dev :=
  let e1 := d1.eng n
  let bus := if e1.status = 6 ∨ e1.status = 8 ∨ !d1.port.bme then [] else e1.lastBus
  let e2 := if !e1.lastBus.isEmpty && !d1.port.bme && e1.status == 0 then { e1 with status := 8 } else e1
  let d2 := match e1.lastDev with
    | some a => if e1.status = 6 then d1 else (d1.memRead (pgEng n) e1.dom (alignDown a 2) 4).2.2
    | none => d1
  let d3 := d2.each bus fun p d => d.emit (.busRead p.1 (alignDown p.2 2) 4 (d.pasidOf e1.owner) n (2 ^ 24 + p.1))
  let rd := bus.map fun p => (⟨2 ^ 24 + p.1, 0, p.1, alignDown p.2 2, 4, 0, true, 0⟩ : BusRd)
  d3.setEng n { e2 with phase := 2, rd := rd }

/-- The read of NEXT that comes before the report, or the read-back of the device's memory, waits at the memory (R210). -/
def Dev.reportWaits (d : Dev) (n : Nat) : Bool :=
  let e := d.eng n
  d.chains n && d.mayContinue n && d.blocked (d.actImg n).next 64
    || e.status ≠ 6 && (match e.lastDev with | some a => d.blocked (alignDown a 2) 4 | none => false)

/-- DMA_READBACK (R259): every element is done; a reporting image checks NEXT, and reads it where it may continue, then issues
its read-backs. One that may not continue now, under FREEZE, runs to its end and reads NEXT later (R262). -/
def execDmaReadback (n : Fin 64) (s : State) : Res :=
  lift (fun d =>
    d.when ((d.eng n).active && (d.eng n).phase == 1 && !d.safe && !d.reportWaits n) fun d =>
      (if !d.chains n then d else if d.mayContinue n then d.readNext n else d.checkNext n).readback n) s

/-- The image's record, registers, counters and causes (R259, R260, Table 9.5); then the engine is free or continues. -/
def Dev.engReport (d : Dev) (n : Nat) (status : Nat) : Dev :=
  let e := d.eng n
  let i := d.actImg n
  let pg := pgEng n
  let d1 := if i.cmpl ≠ 0 && !e.noRec && (match e.owner with | none => true | some k => (d.cove k).state ≠ 0) then
      d.memWrite pg e.dom i.cmpl (cmplRecord status (b2n e.poison) e.ca (min 65535 e.hops) e.img) false else d
  let d2 := d1.wr (pg + 0x18c) (BitVec.ofNat 32 (status + 256 * b2n e.poison + min 65535 e.hops * 65536))
  let d3 := d2.wr64 (pg + 0x190) (e.img % 2 ^ 48)
  let d4 := match e.fault with
    | some (a, b) => d3.wr64 (pg + 0x198) (a % 2 ^ 50 + b2n b * 2 ^ 50)
    | none => d3
  let d5 := if status = 0 then d4.inc (pg + 0x800)
    else if e.noRec && [2, 6, 0x0b].contains status then (if status = 2 then d4.setErr pg 0 else d4).setInt pg 1
    else (((d4.inc (pg + 0x804)).setErr pg 0 |> fun d => if status = 6 then d.setErr pg 1 else d) |> fun d =>
      if status = 9 then d.setErr pg 2 else d).setInt pg 1
  let d6 := if i.int && !e.noRec then d5.setInt pg 0 else d5
  if status = 0 && i.next ≠ 0 then d6.setEng n { e with phase := 4 }
  else d6.freeEng n

/-- DMA_IMAGE_REPORT (R259, R262): every read-back has returned. -/
def execDmaImageReport (n : Fin 64) (s : State) : Res :=
  lift (fun d =>
    let e := d.eng n
    d.when (e.active && e.phase == 2 && e.rd.isEmpty && !d.safe) fun d =>
      d.engReport n (if e.status = 0 && e.stopping then 0x0c else e.status)) s

/-- The chain goes on, or ends where its continuation is refused: an image that has not reported reports now; one that has is
reported in the registers alone, as nothing of it follows its record (DEDUCED, log entry 97). -/
def Dev.goOn (d : Dev) (n : Nat) : Dev :=
  let e := d.eng n
  match e.nextImg with
  | none => if e.phase = 3 then d.setEng n { e with phase := 1 } else (d.setEng n { e with noRec := true }).engReport n e.status
  | some l =>
    let d1 := if e.phase = 3 then d.inc (pgEng n + 0x800) else d
    (d1.inc (pgEng n + 0x818)).startImg n l (d.actImg n).next (e.hops + 1) 0 e.owner

/-- DMA_CONTINUE (R257). -/
def execDmaContinue (n : Fin 64) (s : State) : Res :=
  lift (fun d =>
    let e := d.eng n
    d.when (e.active && (e.phase == 3 || e.phase == 4) && d.mayContinue n
        && (e.nextImg.isSome || !d.blocked (d.actImg n).next 64)) fun d =>
      (if e.nextImg.isSome then d else d.readNext n).goOn n) s

/-- A request of an image has had no answer in 1 ms: status TIMEOUT, nothing further issued, a deferred record (R261). -/
def Dev.engTimeout (d : Dev) (n : Nat) (e : Dma) (addr : Nat) (bus : Bool) : Dev :=
  let st := if e.status = 0 then 6 else e.status
  let d1 := (d.inc (pgEng n + 0x820)).setEng n { e with status := st, todo := [], fault := some (addr % 2 ^ 50, bus) }
  if e.status = 6 then d1 else d1.report (pgEng n) none 0x0005 e.dom addr (0x40 * 2 ^ 16 + n)

/-- The image's request that waits at the memory: for its index table, an element, NEXT, or a read-back (R210). -/
def Dev.engWaits (d : Dev) (n : Nat) (elem : Nat) : Bool :=
  let e := d.eng n
  match e.phase with
  | 0 => match e.todo with | x :: _ => x.k == elem | [] => false
  | 1 => d.reportWaits n
  | 3 => d.mayContinue n && d.blocked (d.actImg n).next 64
  | 5 => true
  | _ => false

/-- DMA_REQUEST_TIMEOUT (R261): a request of the image, by element and address, has no answer in 1 ms: one to the bus, counted
at its port too, or one that waits at the memory. -/
def execDmaRequestTimeout (n : Fin 64) (elem addr : Nat) (s : State) : Res :=
  lift (fun d =>
    let e := d.eng n
    d.when (e.active && !d.safe) fun d =>
      match e.rd.find? fun r => r.elem == elem && decide (r.addr ≤ addr) && decide (addr < r.addr + r.size) with
      | some r => ((d.cmplTmo r.port).engTimeout n { e with rd := e.rd.erase r } addr true).engDone n
      | none =>
        if d.engWaits n elem then
          (d.engTimeout n { e with phase := if e.phase = 0 ∨ e.phase = 5 then 0 else 1 } addr false).engDone n
        else d) s

/-- A run of bytes without those that lie in given ranges: the pieces left, each with its address. -/
def cutOut : List (Nat × Nat) → List (Nat × List Byte) → List (Nat × List Byte)
  | [], l => l
  | (a, n) :: t, l => cutOut t (l.flatMap fun p =>
      [(p.1, p.2.take (a - p.1)), (max p.1 (a + n), p.2.drop (a + n - p.1))].filter fun q => !q.2.isEmpty)

/-- A piece of a request's data placed at its offset: bus data written on, or stored in the device (R251, R254, R300); what a
later element has written already it keeps (R252). After a TIMEOUT nothing more is written (R261). -/
def Dev.busPiece (d : Dev) (n : Nat) (r : BusRd) (off : Nat) (data : List Byte) (poison : Bool) : Dev :=
  let e := d.eng n
  let pg := pgEng n
  let o := off - r.off
  let l := data.take (r.size - o)
  let d0 := d.inc64 (pg + 0x808) l.length
  let d0 := if poison then d0.poisonRx r.port else d0
  let later := (e.placed.filter fun p => decide (r.elem < p.1)).map fun p => (p.2.1, p.2.2)
  let runs := if e.status = 6 then [] else cutOut later [(r.dst + o, l)]
  let (d1, c) := runs.foldl (fun (q : Dev × Nat) w =>
    if r.dbus then (q.1.busWrites w.1 w.2 poison (d.pasidOf e.owner), q.2 + b2n poison)
    else
      let (d', k) := q.1.engStore pg e.dom w.1 (w.2.map fun b => (b, poison))
      (d', q.2 + k)) (d0, 0)
  let d2 := (d1.incBy (pg + 0x81c) c).inc64 (pg + 0x810) (if e.status = 6 then 0 else l.length)
  let r' := { r with got := r.got + l.length }
  let rd := if r.size ≤ r'.got then e.rd.erase r else e.rd.map fun x => if x = r then r' else x
  let e1 := { e with rd := rd, poison := e.poison || poison }
  let e2 := if e.status = 6 then e1
    else if r.dbus then { e1 with lastBus := d.busLast e1.lastBus (r.dst + o) l.length, placed := (r.elem, r.dst + o, l.length) :: e1.placed }
    else { e1 with lastDev := some (r.dst + r.size - 1), placed := (r.elem, r.dst + o, l.length) :: e1.placed }
  (d2.setEng n e2).engDone n

/-- The request that a piece of an element's data answers. -/
def Dma.awaits (e : Dma) (elem off : Nat) : Option BusRd :=
  e.rd.find? fun r => e.active && r.elem == elem && decide (r.off ≤ off) && decide (off < r.off + r.size)

/-- DMA_BUS_COMPLETION (R300): a piece of an element's data is placed; an error status ends the image with BUS_ERR; a
read-back returns; a piece nobody awaits is discarded and counted (R261, R309). -/
def execDmaBusCompletion (n : Fin 64) (elem off : Nat) (data : List Byte) (poison err : Bool) (s : State) : Res :=
  lift (fun d =>
    let e := d.eng n
    match e.awaits elem off with
    | none => d.inc (pgEng n + 0x824)
    | some r =>
      if d.safe then d
      else if err then
        let st := if e.status = 0 then 0x0a else e.status
        (d.setEng n { e with status := st, rd := e.rd.erase r, fault := some (r.addr, true) }).engDone n
      else if 2 ^ 24 ≤ elem then (d.setEng n { e with rd := e.rd.erase r }).engDone n
      else if !r.dbus && d.blocked (r.dst + (off - r.off)) data.length then d
      else d.busPiece n r off data poison) s

/-- STOP.STOP written (R262): the image ends STOPPED after the element in progress; one that has reported has ended, and its
chain ends; with no image active nothing happens. -/
def Dev.dmaStop (d : Dev) (n : Nat) : Dev :=
  let e := d.eng n
  if !e.active then d
  else if e.phase = 4 then d.freeEng n
  else
    d.setEng n { e with stopping := true, phase := if e.phase = 3 then 1 else e.phase, nextImg := none, todo := e.todo.take 1 }

/-- DMA_STOP (R262). -/
def execDmaStop (n : Fin 64) (s : State) : Res :=
  lift (fun d => d.onReg (pgEng n + 0x1a0) fun d => d.dmaStop n) s

/-- DMA_DISCARD (R262). -/
def execDmaDiscard (n : Fin 64) (s : State) : Res :=
  lift (fun d => d.onReg (pgEng n + 0x1a0) fun d => d.dmaDiscard n) s

/-- The engines of a cove at its reset (Table 9.4): shadow sets discarded, active images ended ABORTED with their
records; of an image that has its record only the chain ends. -/
def Dev.dmaAbort (d : Dev) (cove : Nat) : Dev :=
  d.each (List.range 64) fun n d =>
    let d1 := if d.engOwner n == some cove then d.dmaDiscard n else d
    let e := d1.eng n
    if !e.active || e.owner != some cove then d1
    else if e.phase = 4 then d1.freeEng n
    else (d1.setEng n { e with rd := [], todo := [] }).engReport n 5

/-- Images with a bus side end ABORTED_BME when Bus Master Enable is cleared, and nothing is awaited any more (R263, R309);
one that has ended already keeps its status. -/
def Dev.dmaBmeClear (d : Dev) : Dev :=
  d.each (List.range 64) fun n d =>
    let e := d.eng n
    let i := d.actImg n
    if e.active && (i.sbus || i.dbus) && e.phase ≠ 4 then
      d.setEng n { e with
        status := if e.status = 0 then 8 else e.status, rd := [], todo := []
        phase := if e.phase = 2 then 2 else 1, nextImg := none }
    else d

/-- Outstanding bus reads through a port end as if with Unsupported Request (R311, R312). -/
def Dev.dmaPortDown (d : Dev) (p : Nat) : Dev :=
  d.each (List.range 64) fun n d =>
    let e := d.eng n
    match e.rd.find? (·.port == p) with
    | some r =>
      if !e.active then d
      else
        (d.setEng n { e with
          status := if e.status = 0 then 0x0a else e.status, rd := e.rd.filter (·.port ≠ p), todo := []
          fault := if e.status = 0 then some (r.addr, true) else e.fault }).engDone n
    | none => d

/-- Every engine silent, its sets discarded without records (R263, R308). -/
def Dev.dmaSilence (d : Dev) : Dev :=
  d.each (List.range 64) fun n d => d.setEng n {}

end Sys2Proof.Machine
end

