-- ==== Sys2Proof/Machine/Net.lean ====
section
/-!
DEFINITION. Machine/Net.lean: ports, the packet pipeline, traffic control and the host network function (chapter 13).
-/
namespace Sys2Proof.Machine

/-! ### Parsing (R347, R348) -/

/-- The classifier key (Table 13.2). -/
structure PktKey where
  port : Nat
  l3 : Nat := 0
  vlan : Bool := false
  frag : Bool := false
  trunc : Bool := false
  etype : Nat := 0
  vid : Nat := 0
  tos : Nat := 0
  proto : Nat := 0
  sport : Nat := 0
  dport : Nat := 0
  dst : Nat := 0
  src : Nat := 0
deriving DecidableEq, Repr

/-- The words of a key (Table 13.2). -/
def PktKey.words (k : PktKey) : List Nat :=
  [k.port + k.l3 * 2 ^ 4 + b2n k.vlan * 2 ^ 6 + b2n k.frag * 2 ^ 7 + b2n k.trunc * 2 ^ 8 + k.etype * 2 ^ 16,
   k.vid + k.tos / 4 * 2 ^ 12 + k.tos % 4 * 2 ^ 18 + k.proto * 2 ^ 20, k.sport + k.dport * 2 ^ 16, k.dst, k.src]

/-- A field of the frame, big-endian; zero and truncated when it does not lie wholly within bytes 0 to 63 (R348). -/
def wireField (l : List Byte) (o n : Nat) : Nat × Bool :=
  if o + n ≤ 64 then (beNat ((padTo 64 l).drop o |>.take n), false) else (0, true)

/-- The fields of the IP header at offset `o`, and its ports, under R347. -/
def parseIp (k : PktKey) (l : List Byte) (o : Nat) : PktKey :=
  let f := wireField l
  let ports (k : PktKey) (o : Nat) : PktKey :=
    { k with sport := (f o 2).1, dport := (f (o + 2) 2).1, trunc := k.trunc || (f o 2).2 || (f (o + 2) 2).2 }
  if k.etype = 0x0800 then
    let ihl := (f o 1).1 % 16
    if ihl < 5 then k
    else
      let fr := (f (o + 6) 2).1
      let k1 := { k with
        l3 := 1, tos := (f (o + 1) 1).1, proto := (f (o + 9) 1).1, src := (f (o + 12) 4).1, dst := (f (o + 16) 4).1
        frag := decide (fr % 0x4000 ≠ 0), trunc := (f (o + 16) 4).2 || (f (o + 12) 4).2 || (f (o + 9) 1).2 }
      if (k1.proto = 6 ∨ k1.proto = 17) ∧ fr % 0x2000 = 0 then ports k1 (o + 4 * ihl) else k1
  else if k.etype = 0x86dd then
    let s := (f (o + 8) 16)
    let x := (List.range 4).foldl (fun a i => a ^^^ fieldN s.1 (32 * i) 32) 0
    let k1 := { k with
      l3 := 2, tos := fieldN (f o 2).1 4 8, proto := (f (o + 6) 1).1, src := x, dst := (f (o + 36) 4).1
      frag := (f (o + 6) 1).1 == 44, trunc := s.2 || (f (o + 36) 4).2 }
    if k1.proto = 6 ∨ k1.proto = 17 then ports k1 (o + 40) else k1
  else k

/-- Is this EtherType a VLAN tag's? -/
def isTag (e : Nat) : Bool := e == 0x8100 || e == 0x88a8

/-- The key of a frame (R347). -/
def parseFrame (port : Nat) (l : List Byte) : PktKey :=
  let f := fun o n => (wireField l o n).1
  let e0 := f 12 2
  if !isTag e0 then parseIp { port := port, etype := e0 } l 14
  else
    let k : PktKey := { port := port, vlan := true, vid := f 14 2 % 4096 }
    let e1 := f 16 2
    if !isTag e1 then parseIp { k with etype := e1 } l 18
    else
      let e2 := f 20 2
      if isTag e2 then { k with etype := 0x8100 } else parseIp { k with etype := e2 } l 22

/-! ### Classifying (R349 to R351) -/

/-- The bits of word `w` of a rule that are not reserved (Table 13.3). -/
def ruleMask (w : Nat) : Nat :=
  if w < 10 ∨ w = 11 then 2 ^ 32 - 1 else if w = 10 then 2 ^ 19 - 1 else if w = 15 then 1 else 0

/-- Word `w` of rule `i` as installed. -/
def ruleKey (i w : Nat) : Nat := pgPKT + 0x140 + 4 * w + (i + 1) * 2 ^ 24

/-- Rules that are VALID, ascending. -/
def Dev.validRules (d : Dev) : List Nat :=
  (d.regs.filterMap fun (r : Nat × Word) =>
    if r.1 % 2 ^ 24 = pgPKT + 0x17c ∧ 2 ^ 24 ≤ r.1 ∧ d.b r.1 0 then some (r.1 / 2 ^ 24 - 1) else none).eraseDups.mergeSort
      fun a b => decide (a ≤ b)

/-- The rule a key matches: the lowest-numbered one (R350). -/
def Dev.matchRule (d : Dev) (k : PktKey) : Option Nat :=
  d.validRules.find? fun i => decide (d.g (ruleKey i 10) 0 3 ≤ 4) && k.words.zipIdx.all fun (x, w) =>
    (x ^^^ (d.rd (ruleKey i w)).toNat) &&& (d.rd (ruleKey i (w + 5))).toNat == 0

/-- A frame parsed and classified, into the reorder stage (R350, R352, R353). -/
def Dev.classify (d : Dev) (f : NetFrame) : NetFrame × Dev :=
  let k := parseFrame f.port f.bytes
  let d1 := (d.inc (pgPKT + 0x800)).when k.trunc fun d => d.inc (pgPKT + 0x804)
  let f1 := { f with
    flow := if k.l3 = 0 then [f.port] else [f.port, k.l3, k.proto, k.sport, k.dport, k.dst, k.src]
    dscp := if k.l3 = 0 then none else some (k.tos / 4) }
  match d1.matchRule k with
  | some i => ({ f1 with act := d1.g (ruleKey i 10) 0 19 }, d1.inc (ruleKey i 11))
  | none => ({ f1 with act := if f.port = 15 then 4 else d1.g (pgPKT + 0x108) 0 19, miss := true }, d1.inc (pgPKT + 0x808))

/-- The reorder stage takes frames from the receive buffer while it has room (R353). -/
def Dev.dispatch (d : Dev) : Dev :=
  match d.net.wait with
  | [] => d
  | f :: t =>
    if 4096 ≤ d.net.reorder.length then d.setErr pgPKT 0
    else
      let (g, d1) := ({ d with net := { d.net with wait := t } } : Dev).classify f
      { d1 with net := { d1.net with reorder := d1.net.reorder ++ [g] } }

/-- RULE_INSTALL (R351): a write of RULE_W15 installs the staged words. -/
def Dev.ruleInstall (d : Dev) (v : Nat) : Dev :=
  let i := d.g (pgPKT + 0x100) 0 13
  let d1 := d.each (List.range 15) fun w d => d.wr (ruleKey i w) (if w = 11 then 0 else d.rd (pgPKT + 0x140 + 4 * w))
  (d1.wr (pgPKT + 0x17c) (BitVec.ofNat 32 v)).wr (ruleKey i 15) (BitVec.ofNat 32 v)

/-- RULE_INSTALL (R351). -/
def execRuleInstall (val : Word) (s : State) : Res :=
  lift (fun d => d.onReg (pgPKT + 0x17c) fun d => d.ruleInstall val.toNat) s

/-! ### Buckets (R355, R357, R359, R361) -/

/-- A bucket's content now, in 1/8,000 of a byte: full where it is not listed. -/
def bucketNow (l : List (Nat × Bucket)) (now : DWord) (k rate cap : Nat) : Int :=
  match l.lookup k with
  | none => cap * 8000
  | some b => min (cap * 8000) (b.content + rate * ((now - b.ts).toNat : Int))

/-- A bucket given a content. -/
def bucketSet (l : List (Nat × Bucket)) (now : DWord) (k : Nat) (v : Int) : List (Nat × Bucket) :=
  (k, ⟨v, now⟩) :: l.filter fun (x : Nat × Bucket) => x.1 ≠ k

/-- Rate and capacity of the shaper of a queue, node or port, in the active bank. -/
def Dev.shaper (d : Dev) (k : Nat) : Nat × Nat :=
  let o := (k % 65536 + 1) * 2 ^ 24
  if k < 0x10000 then (d.gA (pgTSQ + 0x108 + o) 0 21, d.gA (pgTSQ + 0x10c + o) 0 24)
  else if k < 0x20000 then (d.gA (pgTSQ + 0x11c + o) 0 21, d.gA (pgTSQ + 0x120 + o) 0 24)
  else (d.gA (pgTSQ + 0x134 + 16 * (k % 65536)) 0 21, d.gA (pgTSQ + 0x138 + 16 * (k % 65536)) 0 24)

/-- SHAPE_EN of a queue, node or port. -/
def Dev.shaped (d : Dev) (k : Nat) : Bool :=
  let o := (k % 65536 + 1) * 2 ^ 24
  bitN (d.rdA (if k < 0x10000 then pgTSQ + 0x104 + o else if k < 0x20000 then pgTSQ + 0x118 + o
    else pgTSQ + 0x130 + 16 * (k % 65536))).toNat (if k < 0x10000 then 20 else if k < 0x20000 then 14 else 0)

/-- Content of the bucket of a queue, node or port. -/
def Dev.bucket (d : Dev) (k : Nat) : Int := let r := d.shaper k; bucketNow d.tsq.buckets d.trclk k r.1 r.2

/-- Rate and capacity of policer bucket `k`. -/
def Dev.polShape (d : Dev) (k : Nat) : Nat × Nat :=
  let o := (k / 2 + 1) * 2 ^ 24
  let x := if k % 2 = 0 then 0x114 else 0x11c
  (d.gA (pgPKT + x + o) 0 21, d.gA (pgPKT + x + 4 + o) 0 24)

/-- Content of policer bucket `k`. -/
def Dev.polBucket (d : Dev) (k : Nat) : Int := let r := d.polShape k; bucketNow d.net.buckets d.trclk k r.1 r.2

/-- Before a commit of TSQ or PKT: every bucket's content is settled under the rates and capacities in force; after it
contents and deficits are clamped (R357, R361). -/
def Dev.tsqSettle (d : Dev) : Dev :=
  let keys := (d.tsq.buckets.map (·.1) ++ (d.regs ++ d.bank).filterMap fun (r : Nat × Word) =>
    let o := r.1 % 2 ^ 24
    let i := r.1 / 2 ^ 24 - 1
    if o = pgTSQ + 0x10c ∧ 2 ^ 24 ≤ r.1 then some i
    else if o = pgTSQ + 0x120 ∧ 2 ^ 24 ≤ r.1 then some (0x10000 + i)
    else if pgTSQ + 0x130 ≤ o ∧ o < pgTSQ + 0x1b0 ∧ o % 16 = 8 then some (0x20000 + (o - pgTSQ - 0x130) / 16) else none).eraseDups
  { d with tsq := { d.tsq with buckets := keys.map fun k => (k, (⟨d.bucket k, d.trclk⟩ : Bucket)) } }
def Dev.tsqClamp (d : Dev) : Dev :=
  let l := d.tsq.buckets.map fun p => (p.1, (⟨d.bucket p.1, d.trclk⟩ : Bucket))
  let q := d.tsq.deficit.map fun (p : Nat × Nat) =>
    let w := if p.1 < 0x10000 then d.gA (pgTSQ + 0x104 + (p.1 + 1) * 2 ^ 24) 12 8
      else d.gA (pgTSQ + 0x118 + (p.1 % 65536 + 1) * 2 ^ 24) 6 8
    (p.1, min p.2 (w * 256))
  ({ d with tsq := { d.tsq with buckets := l, deficit := q } } : Dev).retryAll
def Dev.polSettle (d : Dev) : Dev :=
  let set : List Nat := (d.regs ++ d.bank).flatMap fun (r : Nat × Word) =>
    let i := r.1 / 2 ^ 24 - 1
    if (r.1 % 2 ^ 24 = pgPKT + 0x118 ∨ r.1 % 2 ^ 24 = pgPKT + 0x120) ∧ 2 ^ 24 ≤ r.1 then [2 * i, 2 * i + 1] else []
  let keys := ((d.net.buckets.map fun (x : Nat × Bucket) => x.1) ++ set).eraseDups
  { d with net := { d.net with buckets := keys.map fun k => (k, (⟨d.polBucket k, d.trclk⟩ : Bucket)) } }
def Dev.polClamp (d : Dev) : Dev :=
  { d with net := { d.net with buckets := d.net.buckets.map fun p => (p.1, (⟨d.polBucket p.1, d.trclk⟩ : Bucket)) } }

/-- POLICER_MARK (R355, R356): the colour of a packet, and whether it passes. Policer 0 is none. -/
def Dev.police (d : Dev) (f : NetFrame) : Bool × Dev :=
  let n := fieldN f.act 9 10
  if n = 0 then (true, d)
  else
    let o := (n + 1) * 2 ^ 24
    let cfg := d.gA (pgPKT + 0x110 + o) 0 2
    let b : Int := counted f.len (d.gA (pgPKT + 0x104) 0 7) * 8000
    let c := d.polBucket (2 * n)
    let p := d.polBucket (2 * n + 1)
    let inc := match f.dscp with
      | some s => if cfg % 2 = 1 then d.gA (pgPKT + 0x130 + 4 * (s / 16)) (2 * (s % 16)) 2 else 0
      | none => 0
    let col := if inc = 2 ∨ p < b then 2 else if inc = 1 ∨ c < b then 1 else 0
    let l0 := d.net.buckets
    let l1 := if col = 2 then l0 else bucketSet l0 d.trclk (2 * n + 1) (p - b)
    let l2 := if col = 0 then bucketSet l1 d.trclk (2 * n) (c - b) else l1
    let d1 := ({ d with net := { d.net with buckets := l2 } } : Dev).inc (pgPKT + 0x820 + 4 * col + o)
    (col ≠ 2 || bitN cfg 1, d1)

/-! ### Ports (R343 to R346, R358) -/

/-- The number of ports of the configuration in force (Table 13.1). -/
def Dev.numPorts (d : Dev) : Nat := 8 / 2 ^ d.g (pgNET + 0x100) 0 2

/-- The link of a port is up. -/
def Dev.netUp (d : Dev) (p : Nat) : Bool := decide (p < d.numPorts) && d.b (pgNET + 0x110 + 4 * p) 0

/-- The node of a queue, and the port of a node (R358). -/
def Dev.nodeOf (d : Dev) (q : Nat) : Nat := d.gA (pgTSQ + 0x104 + (q + 1) * 2 ^ 24) 0 9
def Dev.portOf (d : Dev) (n : Nat) : Nat := d.gA (pgTSQ + 0x118 + (n + 1) * 2 ^ 24) 0 3

/-- A network link goes down: the paths that leave by it go down (R385, Table 13.5). -/
def Dev.netDown (d : Dev) (p : Nat) : Dev :=
  if !d.b (pgNET + 0x110 + 4 * p) 0 then d
  else
    let d0 := (d.wr (pgNET + 0x110 + 4 * p) 0).setErr pgNET 0
    let d1 := d0.when d0.emhOn fun d => d.emhEvent 1 none none (some p) none
    d1.each d1.liveCtxs fun c d => d.each (List.range (d.cf c 8 1)) fun i d =>
      if d.cState c ∈ [2, 3, 4, 5] ∧ d.portOf (d.nodeOf (d.pathQueue c i)) = p then d.pathDown c i else d

/-- A network link comes up, with an event where it was down (R344, R394). -/
def Dev.netRise (d : Dev) (p : Nat) : Dev :=
  let d0 := d.sb 0x2100 9 true
  let d1 := (d0.s (pgNET + 0x110 + 4 * p) 1 2 (d.g (pgNET + 0x100) 0 2)).sb (pgNET + 0x110 + 4 * p) 0 true
  d1.when (d1.emhOn && !d.netUp p) fun d => d.emhEvent 2 none none (some p) none

/-- NET_LINK_CHANGE (R344, R385, R394). -/
def execNetLinkChange (port : Fin 8) (up : Bool) (s : State) : Res :=
  lift (fun d =>
    if up then d.when (decide (port.val < d.numPorts) && d.b (pgNET + 0x104) port && d.b (pgNET + 8) 0) fun d => d.netRise port
    else d.netDown port) s

/-- The firmware records the ports' set-up in NOR (R530). -/
def Dev.recordPorts (d : Dev) : Dev :=
  { d with pwr := { d.pwr with norPorts := some (d.g (pgNET + 0x100) 0 2, d.g (pgNET + 0x104) 0 8) } }

/-- PORT_MODE written (R344): in slack, and the links retrain; a reserved MODE is ignored. -/
def Dev.portModeWrite (d : Dev) (v : Nat) : Dev :=
  if d.slackNow then
    if v % 4 = 3 then d
    else
      let d1 := d.each (List.range 8) fun p d => d.netDown p
      ((d1.s (pgNET + 0x100) 0 2 v).s (pgNET + 0x104) 0 8 (d.g (pgNET + 0x104) 0 8 % 2 ^ (8 / 2 ^ (v % 4)))).recordPorts
  else d.configRefused pgNET none 0x100

/-- PORT_MODE_WRITE (R344). -/
def execPortModeWrite (val : Word) (s : State) : Res :=
  lift (fun d => d.onReg (pgNET + 0x100) fun d => d.portModeWrite val.toNat) s

/-- PORT_EN written (R344): the ports whose bit is cleared take their link down. -/
def Dev.portEnWrite (d : Dev) (v : Nat) : Dev :=
  let v := v % 2 ^ d.numPorts
  let d1 := d.each ((List.range 8).filter fun p => !bitN v p) fun p d => d.netDown p
  (d1.s (pgNET + 0x104) 0 8 v).recordPorts

/-- PORT_EN_WRITE (R344). -/
def execPortEnWrite (val : Word) (s : State) : Res :=
  lift (fun d => d.onReg (pgNET + 0x104) fun d => d.portEnWrite val.toNat) s

/-- An IEEE 802.3 PAUSE or 802.1Qbb frame (R345). -/
def isPause (l : List Byte) : Bool :=
  beNat ((l.drop 12).take 2) == 0x8808 && (beNat ((l.drop 14).take 2) == 1 || beNat ((l.drop 14).take 2) == 0x101)

/-- A received frame checked, and taken into its port's share of the receive buffer (R345, R346). -/
def Dev.takeFrame (d : Dev) (port len : Nat) (bytes : List Byte) (emh : Option EmhPkt) (fcsOk fecOk : Bool) : Dev :=
  let k := pgNET + 0x800 + 32 * port
  let drop (d : Dev) : Dev := d.inc (k + 8)
  let share := 2 ^ 24 / d.numPorts
  let used := ((d.net.wait.filter (·.port == port)).map (·.len)).sum
  if d.safe then drop d
  else if !fecOk then ((drop d).inc (k + 0x14)).setErr pgNET 1
  else if !fcsOk then (drop d).inc (k + 0xc)
  else if len < 64 ∨ d.g (pgNET + 0x108) 0 14 < len ∨ isPause bytes then drop d
  else if share < used + len then (drop d).setErr pgNET 2
  else
    let f : NetFrame := { port := port, len := len, bytes := bytes, emh := emh }
    (({ d with net := { d.net with wait := d.net.wait ++ [f] } } : Dev).inc k).dispatch

/-- FRAME_RECEIVE (R345, R346): `len` counts the FCS; `corr`: FEC codewords corrected. -/
def execFrameReceive (port : Fin 8) (len : Nat) (bytes : List Byte) (emh : Option EmhPkt) (fcsOk fecOk : Bool) (corr : Nat)
    (s : State) : Res :=
  lift (fun d => d.when (d.netUp port && d.b (pgNET + 8) 0) fun d =>
    (d.incBy (pgNET + 0x800 + 32 * port + 0x10) corr).takeFrame port len bytes emh fcsOk fecOk) s

/-! ### The host network function (R367 to R370) -/

/-- Register `o` of host pair `n`. -/
def hnqReg (n o : Nat) : Nat := pgNET + o + (n + 1) * 2 ^ 24

/-- A pair takes part. -/
def Dev.hnqOn (d : Dev) (n : Nat) : Bool := d.b (hnqReg n 0x194) 20

/-- A write-back on a pair is to be reported (R370). -/
def Dev.hnqDue (d : Dev) (n : Nat) : Dev :=
  if d.b (hnqReg n 0x194) 21 || (d.net.due.lookup n).isSome then d
  else { d with net := { d.net with due := d.net.due ++ [(n, d.trclk)] } }

/-- The 16 bytes of a descriptor written back (Table 13.9). -/
def Dev.hnqBack (d : Dev) (n ring idx : Nat) (desc : List Byte) (len flags : Nat) : Dev :=
  let l := desc.take 8 ++ leBytes len 2 ++ leBytes flags 1 ++ [0] ++ leBytes (d.trclk.toNat % 2 ^ 32) 4
  (d.emit (.busWrite 8 (ring + 16 * idx) l false none)).hnqDue n

/-- A frame delivered to a host queue (R367, R369). `desc`: the entry read at HNQ_RX_HEAD. -/
def Dev.hnqRx (d : Dev) (n : Nat) (f : NetFrame) (desc : List Byte) : Dev :=
  let head := d.g (hnqReg n 0x1a4) 0 12
  let size := 2 ^ d.g (hnqReg n 0x194) 4 4
  let ring := d.rd64 (hnqReg n 0x18c) / 16 * 16
  if !d.hnqOn n || head == d.g (hnqReg n 0x19c) 0 12 % size then d.inc (pgNET + 0x908)
  else
    let n1 := f.len - 4
    let d1 := (d.emit (.busRead 8 (ring + 16 * head) 16 none 65 n)).s (hnqReg n 0x1a4) 0 12 ((head + 1) % size)
    if leAt desc 8 2 < n1 then (d1.inc (pgNET + 0x908)).hnqBack n ring head desc 0 4
    else
      let d2 := (d1.emit (.busWrite 8 (leAt desc 0 8) (f.bytes.take n1) f.poison none)).inc (pgNET + 0x904)
      d2.hnqBack n ring head desc n1 (2 * b2n f.poison)

/-- The `i`-th packet `f` of the reorder stage may leave it: no packet of its flow stands before it (R353). -/
def Dev.mayDeliver (d : Dev) (i : Nat) (f : NetFrame) : Bool :=
  let q := fieldN f.act 3 6
  (d.net.reorder.take i).all (·.flow ≠ f.flow) && !d.safe && !d.tide.hold && d.starts pgPKT
    && !(fieldN f.act 0 3 == 3 && d.hnqOn q && (!d.port.bme || !d.fwRunning))

/-- The `i`-th packet `f` of the reorder stage goes where its action says (R354, Table 13.3). -/
def Dev.deliver (d : Dev) (i : Nat) (f : NetFrame) (desc : List Byte) : Dev :=
  let dest := fieldN f.act 0 3
  let d1 := ({ d with net := { d.net with reorder := d.net.reorder.eraseIdx i } } : Dev).dispatch
  if dest = 0 ∨ 4 ≤ dest then d1.inc (pgPKT + 0x80c)
  else
    let (pass, d2) := d1.police f
    if !pass then d2
    else if dest = 1 then
      match f.emh with
      | none => d2.badPkt
      | some k =>
        if k.op = 0 ∨ 13 ≤ k.op ∨ !k.csumOk then d2.badPkt
        else { d2 with emh := { d2.emh with inq := d2.emh.inq ++ [(f.port, pktReceived k)] } }
    else if dest = 3 then d2.hnqRx (fieldN f.act 3 6) f desc
    else d2

/-- PACKET_DELIVER (R353, R354, R368, R370). `desc`: for a host queue, the entry read at its HNQ_RX_HEAD. -/
def execPacketDeliver (i : Nat) (desc : List Byte) (s : State) : Res :=
  lift (fun d => match d.net.reorder[i]? with
    | none => d
    | some f => d.when (d.mayDeliver i f) fun d => d.deliver i f desc) s

/-- HNQ_CFG of the pair HNQ_IDX written (R367): the sizes stand while EN is 1; setting EN zeroes heads and tails. -/
def Dev.hnqCfgWrite (d : Dev) (v : Nat) : Dev :=
  let n := d.g (pgNET + 0x180) 0 6
  let k := hnqReg n 0x194
  let old := (d.rd k).toNat
  let v := if bitN old 20 then setFieldN v 0 8 (old % 256) else v
  let d1 := d.writeFields k v
  if d1.b k 20 && !bitN old 20 then
    [0x198, 0x19c, 0x1a0, 0x1a4].foldl (fun d o => d.wr (hnqReg n o) 0) d1
  else d1

/-- HNQ_CFG_EN_WRITE (R367). -/
def execHnqCfgEnWrite (val : Word) (s : State) : Res :=
  lift (fun d => d.onReg (pgNET + 0x194) fun d => d.hnqCfgWrite val.toNat) s

/-- A tail of the pair HNQ_IDX written. -/
def Dev.hnqTail (d : Dev) (o v : Nat) : Dev := d.s (hnqReg (d.g (pgNET + 0x180) 0 6) o) 0 12 v

/-- HNQ_TX_TAIL_WRITE (R368). -/
def execHnqTxTailWrite (val : Word) (s : State) : Res :=
  lift (fun d => d.onReg (pgNET + 0x198) fun d => d.hnqTail 0x198 val.toNat) s

/-- HNQ_RX_TAIL_WRITE (R369). -/
def execHnqRxTailWrite (val : Word) (s : State) : Res :=
  lift (fun d => d.onReg (pgNET + 0x19c) fun d => d.hnqTail 0x19c val.toNat) s

/-- A frame of a host pair to send stands at HNQ_TX_HEAD (R368). -/
def Dev.hnqReady (d : Dev) (n : Nat) : Bool :=
  d.live && d.port.bme && d.hnqOn n && d.starts pgNET && decide (d.net.reorder.length < 4096) &&
    d.g (hnqReg n 0x1a0) 0 12 ≠ d.g (hnqReg n 0x198) 0 12 % 2 ^ d.g (hnqReg n 0x194) 0 4

/-- The descriptor at HNQ_TX_HEAD fetched, and its frame sent, looped or refused (R368). -/
def Dev.hnqSend (d : Dev) (n : Nat) (desc bytes : List Byte) (emh : Option EmhPkt) (poison fail : Bool) : Dev :=
  let cfg := hnqReg n 0x194
  let head := d.g (hnqReg n 0x1a0) 0 12
  let size := 2 ^ d.g cfg 0 4
  let ring := d.rd64 (hnqReg n 0x184) / 16 * 16
  let len := leAt desc 8 2
  let d1 := (d.emit (.busRead 8 (ring + 16 * head) 16 none 65 n)).s (hnqReg n 0x1a0) 0 12 ((head + 1) % size)
  let bad (d : Dev) : Dev := (d.inc (pgNET + 0x90c)).hnqBack n ring head desc len (4 + 2 * b2n (poison && !fail))
  if len < 60 ∨ d.g (pgNET + 0x108) 0 14 < len + 4 then bad d1
  else
    let d2 := d1.emit (.busRead 8 (leAt desc 0 8) len none 65 n)
    if fail then bad d2
    else
      let f : NetFrame := { port := 15, len := len + 4, bytes := padTo len bytes, emh := emh, poison := poison, pair := n }
      let (g, d3) := (d2.inc (pgNET + 0x900)).classify f
      let good (d : Dev) : Dev := d.hnqBack n ring head desc len (2 * b2n poison)
      let dest := fieldN g.act 0 3
      if dest = 0 then good (d3.inc (pgPKT + 0x80c))
      else if dest = 4 then
        let (pass, d4) := d3.police g
        if !pass then good d4
        else
          let had := d4.tsq.frames.length
          let d5 := d4.enqueue { q := d4.g cfg 8 12, len := len + 4, raw := g.bytes, pkt := emh, src := n, host := true,
                                 poison := poison }
          if d5.tsq.frames.length = had then bad d5 else good d5
      else good { d3 with net := { d3.net with reorder := d3.net.reorder ++ [g] } }

/-- HNQ_TX_FETCH (R368): the descriptor at HNQ_TX_HEAD, as read, and the frame it names; `fail`: that read failed. A frame
for the wire is queued at once; one for the device goes to the reorder stage. -/
def execHnqTxFetch (n : Fin 64) (desc bytes : List Byte) (emh : Option EmhPkt) (poison fail : Bool) (s : State) : Res :=
  lift (fun d => d.when (d.hnqReady n) fun d => d.hnqSend n desc bytes emh poison fail) s

/-- EN of every host pair cleared (R367). -/
def Dev.hnqOff (d : Dev) : Dev :=
  ({ d with net := { d.net with due := [] } } : Dev).each ((List.range 64).filter d.hnqOn) fun n d => d.sb (hnqReg n 0x194) 20 false

/-! ### Egress scheduling (R358 to R360) -/

/-- The first frame of a queue that is not held. -/
def Dev.headFrame (d : Dev) (q : Nat) : Option Frame := d.tsq.frames.find? fun f => f.q == q && !f.held

/-- A child's shaper lets it send (R358). -/
def Dev.mayFlow (d : Dev) (k : Nat) : Bool := !d.shaped k || decide (0 < d.bucket k)

/-- PRIO and quantum of a queue or node. -/
def Dev.childCfg (d : Dev) (k : Nat) : Nat × Nat :=
  if k < 0x10000 then
    (d.gA (pgTSQ + 0x104 + (k + 1) * 2 ^ 24) 9 3, 256 * max 1 (d.gA (pgTSQ + 0x104 + (k + 1) * 2 ^ 24) 12 8))
  else
    (d.gA (pgTSQ + 0x118 + (k % 65536 + 1) * 2 ^ 24) 3 3, 256 * max 1 (d.gA (pgTSQ + 0x118 + (k % 65536 + 1) * 2 ^ 24) 6 8))

/-- Queues with a frame to send whose shaper lets it go, under each node. -/
def Dev.readyQs (d : Dev) : List Nat :=
  ((d.tsq.frames.filter fun f => !f.held).map (·.q)).eraseDups.filter d.mayFlow

/-- Deficit round robin among the eligible children of one parent, each with the bytes of its first frame (R358): the
deficits after as many rounds as let some child send, where the chosen child is one that may; nothing otherwise. -/
def Dev.drr (d : Dev) (kids : List (Nat × Nat)) (pick : Nat) : Option (Map Nat) :=
  let lo := (kids.map fun k => (d.childCfg k.1).1).foldl min 8
  let l := kids.filter fun k => (d.childCfg k.1).1 == lo
  let def_ := fun k => (d.tsq.deficit.lookup k).getD 0
  let need := fun (k : Nat × Nat) => (k.2 - def_ k.1 + (d.childCfg k.1).2 - 1) / (d.childCfg k.1).2
  match l.find? (·.1 == pick) with
  | none => none
  | some p =>
    let r := (l.map need).foldl min (need p)
    if need p = r then
      let upd := l.map fun k => (k.1, def_ k.1 + r * (d.childCfg k.1).2 - (if k.1 = pick then k.2 else 0))
      some (upd ++ d.tsq.deficit.filter fun x => !(upd.map (·.1)).contains x.1)
    else none

/-- The children among which the scheduler chooses a node for the port of node `n`, and a queue of `n`, each with the length
of its first frame (R358). -/
def Dev.tsqNodes (d : Dev) (n len : Nat) : List (Nat × Nat) :=
  let ready := d.readyQs
  let size (k : Nat) : Nat := (d.headFrame k).elim 0 (·.len)
  ((ready.map d.nodeOf).eraseDups.filter fun m => d.portOf m == d.portOf n && d.mayFlow (0x10000 + m)).map fun m =>
    (0x10000 + m, if m = n then len else ((ready.filter fun k => d.nodeOf k == m).map size).foldl min (2 ^ 24))
def Dev.tsqQueues (d : Dev) (n : Nat) : List (Nat × Nat) :=
  (d.readyQs.filter fun k => d.nodeOf k == n).map fun k => (k, (d.headFrame k).elim 0 (·.len))

/-- Is a frame for the host network function's own address (R370)? -/
def Dev.frameLoops (d : Dev) (f : Frame) (head : List Byte) : Bool :=
  (d.rd (pgNET + 0x1b0)).toNat + d.g (pgNET + 0x1b4) 0 16 * 2 ^ 32 == beNat ((if f.raw.isEmpty then head else f.raw).take 6)

/-- The frame `f` of queue `q` sent with the deficits left (R358 to R360, R370, R492). -/
def Dev.sendFrame (d : Dev) (q : Nat) (f : Frame) (dn dq : Map Nat) (head : List Byte) : Dev :=
  let n := d.nodeOf q
  let p := d.portOf n
  let dd := dq.filter (fun x => decide (x.1 < 0x10000)) ++ dn.filter fun x => decide (0x10000 ≤ x.1)
  let bs := [q, 0x10000 + n, 0x20000 + p].foldl
    (fun l k => bucketSet l d.trclk k (d.bucket k - f.len * 8000)) d.tsq.buckets
  let d1 := { d with tsq := { d.tsq with frames := d.tsq.frames.erase f, buckets := bs, deficit := dd } }
  let d2 := ((if (d1.headFrame q).isNone then { d1 with tsq := { d1.tsq with deficit := (q, 0) :: dd.filter (·.1 ≠ q) } }
    else d1).inc (pgTSQ + 0x800)).inc (pgTSQ + 0x810 + (q + 1) * 2 ^ 24)
  let d3 := if d.frameLoops f head then
      let g : NetFrame := { port := 15, len := f.bare, bytes := if f.raw.isEmpty then head else f.raw, emh := f.pkt,
                            poison := f.poison || f.pkt.elim false (·.poison), looped := true }
      let (g, e) := d2.classify g
      if fieldN g.act 0 3 = 4 then e.inc (pgPKT + 0x80c)
      else { e with net := { e.net with reorder := e.net.reorder ++ [g] } }
    else (d2.inc (pgNET + 0x804 + 32 * p)).emit (.frame p f)
  let d4 := match f.pkt with
    | some k => if k.op ≤ 4 && !f.host then d3.traceMsg 0x0c k.sconn k.psn k.epoch k.ddev k.retx else d3
    | none => d3
  d4.retryHeld q (d4.tsq.frames.length + 1)

/-- TSQ_SEND (R358, R359, R370, R492): the frame at the head of queue `q`, which the scheduler selects for its port; `head`:
the first bytes of a frame whose bytes the model does not hold (DESIGN CHOICE, log entry 42). -/
def execTsqSend (q : Fin 4096) (head : List Byte) (s : State) : Res :=
  lift (fun d => match d.headFrame q with
    | none => d
    | some f =>
      let n := d.nodeOf q
      let p := d.portOf n
      let ok := !d.safe && !d.tide.hold && d.netUp p && d.starts pgTSQ && d.mayFlow (0x20000 + p)
        && (!d.frameLoops f head || decide (d.net.reorder.length < 4096))
      match d.drr (d.tsqNodes n f.len) (0x10000 + n), d.drr (d.tsqQueues n) q with
      | some dn, some dq => d.when ok fun d => d.sendFrame q f dn dq head
      | _, _ => d) s

/-- A sounding record of queue `q` (Table 13.8). -/
def Dev.soundRec (d : Dev) (q : Nat) : List Byte :=
  let m := d.nodeOf q
  let p := d.portOf m
  let low := [q, 0x10000 + m, 0x20000 + p].any fun k => decide (d.bucket k ≤ 0)
  let wait := (d.headFrame q).elim 0 fun f => min (2 ^ 32 - 1) (d.trclk - f.since).toNat
  leBytes (d.trclk.toNat % 2 ^ 32) 4 ++ leBytes q 2 ++ [BitVec.ofNat 8 (b2n low + 2 * b2n (!d.netUp p)), 0]
    ++ leBytes (min (2 ^ 32 - 1) (d.qDepth q)) 4 ++ leBytes wait 4

/-- The records of a sweep of `n` queues from `first`, written at the ring's head (R362). -/
def Dev.soundPut (d : Dev) (first n : Nat) : Dev :=
  let size := 2 ^ d.g (pgTSQ + 0x1c4) 0 5
  let head := d.g (pgTSQ + 0x1c8) 0 20
  let base := d.rd64 (pgTSQ + 0x1bc) % 2 ^ 48
  let d1 := d.each (List.range n) fun i d =>
    d.memWrite pgTSQ 0x40 (base + 16 * ((head + i) % size)) (d.soundRec (first + i)) false
  (d1.s (pgTSQ + 0x1c8) 0 20 ((head + n) % size)).incBy (pgTSQ + 0x808) n

/-- SOUNDING_SWEEP (R362): a record for each queue of the range, or a miss. -/
def execSoundingSweep (s : State) : Res :=
  lift (fun d =>
    let first := d.g (pgTSQ + 0x1b8) 0 12
    let last := d.g (pgTSQ + 0x1b8) 16 12
    let size := 2 ^ d.g (pgTSQ + 0x1c4) 0 5
    let used := (d.g (pgTSQ + 0x1c8) 0 20 + size - d.g (pgTSQ + 0x1cc) 0 20 % size) % size
    d.when (decide (d.g (pgTSQ + 0x1b4) 0 16 ≠ 0) && decide (first ≤ last) && !d.safe && d.starts pgTSQ && d.fwRunning) fun d =>
      if size ≤ used + (last + 1 - first) then (d.inc (pgTSQ + 0x80c)).setErr pgTSQ 1
      else d.soundPut first (last + 1 - first)) s

end Sys2Proof.Machine
end

