-- ==== Sys2Proof/Machine/Nvt.lean ====
section
/-!
DEFINITION. Machine/Nvt.lean: the storage target (chapter 15): connections and controllers, the write cache, the commands
of hosts, the SSDs, namespaces.
-/
namespace Sys2Proof.Machine

/-! ### Lookups and updates -/

/-- Register `o` of namespace `i + 1` as installed (R400). -/
def nsReg (i o : Nat) : Nat := pgNVT + o + (i + 1) * 2 ^ 24

/-- The SSD port of namespace `i + 1`; its first block there; its blocks; bytes of its logical block (R400). -/
def Dev.nsPort (d : Dev) (i : Nat) : Nat := d.g (nsReg i 0x11c) 1 2
def Dev.nsSlba (d : Dev) (i : Nat) : Nat := d.rd64 (nsReg i 0x120)
def Dev.nsNlb (d : Dev) (i : Nat) : Nat := d.rd64 (nsReg i 0x128)
def Dev.nsLb (d : Dev) (i : Nat) : Nat := if d.b (nsReg i 0x11c) 3 then 512 else 4096

/-- A HOSTID as the four registers hold it: the bytes of the Connect data, little-endian. -/
def Dev.nsHost (d : Dev) (i : Nat) : Nat :=
  (List.range 4).foldl (fun a k => a + (d.rd (nsReg i (0x130 + 4 * k))).toNat * 2 ^ (32 * k)) 0

/-- Namespace `i + 1` is attached to a controller (R401, R402). -/
def Dev.nsAttached (d : Dev) (x : NvCtl) (i : Nat) : Bool :=
  decide (i < 64) && d.b (nsReg i 0x11c) 0 && !d.nvt.removing.contains i && (d.b (nsReg i 0x11c) 4 || d.nsHost i == x.host)

def Dev.nvConn? (d : Dev) (c : Nat) : Option NvConn := d.nvt.conns.find? (·.conn == c)
def Dev.nvCtl? (d : Dev) (k : Nat) : Option NvCtl := d.nvt.ctls.find? (·.id == k)

def Dev.setConn (d : Dev) (x : NvConn) : Dev :=
  d.setNvt { d.nvt with conns := d.nvt.conns.filter (·.conn ≠ x.conn) ++ [x] }
def Dev.setNvCtl (d : Dev) (x : NvCtl) : Dev :=
  d.setNvt { d.nvt with ctls := d.nvt.ctls.filter (·.id ≠ x.id) ++ [x] }
def Dev.setNvCmd (d : Dev) (x : NvCmd) : Dev :=
  d.setNvt { d.nvt with cmds := d.nvt.cmds.map fun y => if y.seq = x.seq then x else y }

/-- The target's mode: 0 OFF, 1 SERVICE, 2 MAINT (R413, R414). -/
def Dev.nvMode (d : Dev) : Nat :=
  if !d.b (pgNVT + 0x100) 0 then 0
  else if d.b (pgNVT + 0x100) 1 && d.nvt.drain.isNone then 2 else 1

/-- The power state in force: the lowest requested by a live controller (R422). -/
def Dev.nvPower (d : Dev) : Nat :=
  match d.nvt.ctls.filterMap (·.ps) with
  | [] => 0
  | p :: l => l.foldl min p

/-- STATE as it reads (Table 15.6). -/
def Dev.nvState (d : Dev) : Nat :=
  d.nvMode + d.nvPower * 4 + b2n (d.nvt.san == 2) * 16 + b2n (!d.nvt.formatting.isEmpty) * 32

/-- The block takes part in traffic: no safe state, of the device or of the block alone, and its clocks run. -/
def Dev.nvUp (d : Dev) : Bool := d.fwRunning && !d.safe && d.b (pgNVT + 8) 0 && !d.b (pgNVT + 8) 2

/-! ### What is sent -/

/-- Bytes a PDU takes: its headers and its data. -/
def Pdu.len : Pdu → Nat
  | .icResp .. => 128
  | .data _ _ l dg => 24 + l.length + (if dg.isSome then 4 else 0)
  | .r2t .. => 24
  | .resp .. => 24
  | .term => 24

/-- A PDU placed on the queue of its connection (R403, R360): one frame each (DESIGN CHOICE, log entry 38). -/
def Dev.nvSend (d : Dev) (conn : Nat) (p : Pdu) : Dev :=
  let n := max 1 (d.g (pgNVT + 0x114) 12 9)
  if d.safe then d else
    d.enqueue { q := d.g (pgNVT + 0x114) 0 12 + conn % n, len := p.len, pdu := some p, src := conn }

/-- A completion. -/
def Dev.nvResp (d : Dev) (conn cid status result : Nat) : Dev := d.nvSend conn (.resp cid status result)

/-- The PDUs of a connection carry data digests; header digests (R398). -/
def Dev.dataDigest (d : Dev) (conn : Nat) : Bool := (d.nvConn? conn).elim false (·.dd)
def Dev.headDigest (d : Dev) (conn : Nat) : Bool := (d.nvConn? conn).elim false (·.hd)

/-- Data of a command, with the digest agreed (R398). -/
def Dev.nvData (d : Dev) (conn cid : Nat) (l : List Byte) : Dev :=
  d.nvSend conn (.data cid 0 l (if d.dataDigest conn then some (crc32c l) else none))

/-- A command given to an SSD. -/
def Dev.ssdIssue (d : Dev) (c : SsdCmd) : Dev :=
  let c := { c with id := d.nvt.nextId }
  (d.setNvt { d.nvt with out := d.nvt.out ++ [c], nextId := d.nvt.nextId + 1 }).emit (.ssd c.port c.id c.op)

/-- Do the SSD of a port answer? -/
def Dev.ssdReady (d : Dev) (p : Nat) : Bool := (d.nvt.ssds.getD p {}).ready

/-- Each SSD set to the power state of Table 15.4 when the state in force changes. -/
def Dev.nvRepower (d0 d : Dev) : Dev :=
  if d.nvPower = d0.nvPower then d
  else d.each ((List.range 4).filter d.ssdReady) fun p d => d.ssdIssue { id := 0, port := p, op := .power d.nvPower }

/-- A notice for a controller: an Asynchronous Event Request held is completed, else the notice waits (R398). -/
def Dev.nvNotice (d : Dev) (k code : Nat) : Dev :=
  match d.nvCtl? k with
  | none => d
  | some x =>
    match x.aers, d.nvt.conns.find? fun c => c.ctl == some k && c.qid == 0 with
    | a :: l, some c => (d.setNvCtl { x with aers := l }).nvResp c.conn a 0 code
    | _, _ => if x.notes.contains code then d else d.setNvCtl { x with notes := x.notes ++ [code] }

/-- The namespace attribute notice to the controllers a namespace is attached to (R402). -/
def Dev.nsNotice (d : Dev) (i : Nat) : Dev :=
  d.each (d.nvt.ctls.filter fun x => d.nsAttached x i) fun x d => d.nvNotice x.id 0x040002

/-! ### The cache (R404, R406, R407, R411) -/

/-- Address of a cache slot; blocks the cache holds (R406). -/
def Dev.slotAddr (d : Dev) (s : Nat) : Nat := d.g (pgNVT + 0x10c) 0 18 * 2 ^ 30 + s * 4096
def Dev.cacheCap (d : Dev) : Nat := d.g (pgNVT + 0x110) 0 7 * 2 ^ 18

def Dev.nvBlk? (d : Dev) (i b : Nat) : Option NvBlk := d.nvt.blks.find? fun x => x.ns == i && x.blk == b

/-- A cached block replaced, or entered. -/
def Dev.setBlk (d : Dev) (x : NvBlk) : Dev :=
  d.setNvt { d.nvt with blks := d.nvt.blks.filter (fun y => !(y.ns == x.ns && y.blk == x.blk)) ++ [x] }

/-- The blocks a byte range of a namespace touches, with the 512-byte parts of each that it covers. -/
def blocksOf (a n : Nat) : List (Nat × Nat) :=
  if n = 0 then [] else
    (List.range ((a + n - 1) / 4096 - a / 4096 + 1)).map fun k =>
      let b := a / 4096 + k
      (b, ((List.range 8).filter fun s => decide (a < b * 4096 + s * 512 + 512) && decide (b * 4096 + s * 512 < a + n)).foldl
        (fun m s => m + 2 ^ s) 0)

/-- The blocks of a command, with the parts of each it names. -/
def NvCmd.blocks (c : NvCmd) : List (Nat × Nat) := c.ext.flatMap fun e => blocksOf e.1 e.2

/-- Two commands of one queue name a common logical block (R411). -/
def NvCmd.overlaps (c e : NvCmd) : Bool :=
  c.conn == e.conn && c.nss == e.nss && c.ext.any fun x => e.ext.any fun y =>
    decide (x.1 < y.1 + y.2) && decide (y.1 < x.1 + x.2)

/-- A command that writes blocks. -/
def NvCmd.writes (c : NvCmd) : Bool := c.op = .write || c.op = .zeroes || c.op = .dealloc

/-- A slot of the cache: the lowest free one (DESIGN CHOICE, log entry 39); with none free, that of a clean block that nothing uses. -/
def Dev.allocSlot (d : Dev) : Option (Nat × Dev) :=
  let used := d.nvt.blks.map (·.slot) ++ d.nvt.cmds.flatMap fun c => c.slots.map (·.2)
  if used.length < d.cacheCap then
    ((List.range (used.length + 1)).find? fun s => !used.contains s).map (·, d)
  else
    (d.nvt.blks.find? fun x => x.covers.isEmpty && !x.stuck && !(d.nvt.out.any fun o => o.ns == x.ns && o.blk == x.blk)
        && !(d.nvt.cmds.any fun c => c.phase ≠ 0 && c.nss == [x.ns] && c.blocks.any (·.1 == x.blk))).map fun x =>
      (x.slot, d.setNvt { d.nvt with blks := d.nvt.blks.erase x })

/-- Slots for a list of blocks, all or none (R404). -/
def Dev.allocSlots (d : Dev) (l : List Nat) : Option (List (Nat × Nat) × Dev) :=
  l.foldl (fun r b => match r with
    | none => none
    | some (s, d) => match d.allocSlot with
      | none => none
      | some (k, d) =>
        let o : NvBlk := { ns := 64, blk := s.length, slot := k, stuck := true }
        some (s ++ [(b, k)], d.setNvt { d.nvt with blks := d.nvt.blks ++ [o] })) (some ([], d))
  |>.map fun (s, e) => (s, e.setNvt { e.nvt with blks := e.nvt.blks.filter (·.ns ≠ 64) })

/-- A byte range of a namespace cut at block boundaries: block, offset in it, offset in the data, length. -/
def cutBlocks (a : Nat) : Nat → Nat → Nat → List (Nat × Nat × Nat × Nat)
  | _, _, 0 => []
  | off, n, f + 1 =>
    if n = 0 then [] else
      let k := min n (4096 - a % 4096)
      (a / 4096, a % 4096, off, k) :: cutBlocks (a + k) (off + k) (n - k) f

/-- Data of a write placed in its slots, with check words (R405, R198). -/
def Dev.nvPlace (d : Dev) (c : NvCmd) (off : Nat) (l : List Byte) : Dev :=
  match c.ext with
  | [] => d
  | e :: _ =>
    let d1 := d.each (cutBlocks (e.1 + off) 0 l.length (l.length / 4096 + 2)) fun (b, o, p, n) d =>
      match c.slots.lookup b with
      | none => d
      | some s => d.memWrite pgNVT 0x40 (d.slotAddr s + o) ((l.drop p).take n) false
    d1.setNvCmd { c with got := c.got ++ [(off, l.length)] }

/-- The 512-byte parts of a mask. -/
def partsOf (m : Nat) : List Nat := bitList m 8

/-- A whole block written is no bad block any more (R420). -/
def Dev.badWritten (d : Dev) (i b mask : Nat) : Dev :=
  if mask = 255 then d.setNvt { d.nvt with bad := d.nvt.bad.erase (i, b) } else d

/-- The blocks of a write take the place of those in the cache; parts the write does not name are kept (R407). -/
def Dev.commitBlocks (d : Dev) (c : NvCmd) : Dev :=
  let i := c.nss.headD 64
  let d1 := d.each c.slots fun (b, s) d =>
    let m := (c.blocks.filter (·.1 == b)).foldl (fun m x => m ||| x.2) 0
    let old := (d.nvBlk? i b).getD { ns := i, blk := b, slot := s }
    let d2 := d.each ((partsOf old.parts).filter fun p => !bitN m p) fun p d =>
      d.copyGranules (d.slotAddr old.slot + p * 512) (d.slotAddr s + p * 512) 512
    (d2.badWritten i b m).setBlk { ns := i, blk := b, slot := s, parts := m ||| old.parts, covers := old.covers ++ [c.seq] }
  d1.setNvCmd { c with slots := [] }

/-- An SSD asked for the parts of a block that the cache does not hold (R407). -/
def Dev.fetchBlk (d : Dev) (i b : Nat) : Dev :=
  if d.nvt.out.any fun o => o.ns == i && o.blk == b && (match o.op with | .read .. => true | _ => false) then d
  else
    let held := ((d.nvBlk? i b).elim 0 (·.parts))
    d.ssdIssue { id := 0, port := d.nsPort i, op := .read (d.nsSlba i + b) (255 - held), ns := i, blk := b }

/-- The SSD write of a block: its data is verified on exit at the storage root port (R407, R198). -/
def Dev.writeOut (d : Dev) (x : NvBlk) (fua : Bool) (own : Option Nat) : Dev :=
  let a := d.slotAddr x.slot
  let r := (partsOf x.parts).foldl (fun (r : List Byte × Bool × Dev) p =>
    let (l, bad, d1) := r.2.2.memRead pgSRP 0x40 (a + p * 512) 512
    (r.1 ++ l, r.2.1 || bad, d1)) ([], false, d)
  let d1 := r.2.2
  if r.2.1 then
    let d2 := d1.setErr pgSRP (8 + d.nsPort x.ns)
    if d2.nvt.bad.contains (x.ns, x.blk) ∨ d2.nvt.bad.length < 4096 then
      let bad := if d2.nvt.bad.contains (x.ns, x.blk) then d2.nvt.bad else d2.nvt.bad ++ [(x.ns, x.blk)]
      let d3 := d2.setNvt { d2.nvt with bad := bad, blks := d2.nvt.blks.erase x }
      (d3.setErr pgNVT 1).inc (pgNVT + 0x828)
    else (d2.setBlk { x with stuck := true }).setErr pgNVT 2
  else d1.ssdIssue { id := 0, port := d.nsPort x.ns, op := .write (d.nsSlba x.ns + x.blk) x.parts r.1 fua, ns := x.ns,
                     blk := x.blk, covers := x.covers, own := own }

/-! ### Commands of hosts -/

/-- A command over: its completion, its slots freed. -/
def Dev.nvEnd (d : Dev) (c : NvCmd) (status result : Nat) : Dev :=
  let d1 := d.setNvt { d.nvt with cmds := d.nvt.cmds.filter (·.seq ≠ c.seq) }
  let d2 := if status = 0 then (match c.op with
    | .read => d1.inc (pgNVT + 0x800) | .write => d1.inc (pgNVT + 0x804) | .flush => d1.inc (pgNVT + 0x808) | _ => d1) else d1
  d2.nvResp c.conn c.cid status result

/-- Ready-to-transfer PDUs: each at most MAXH2CDATA bytes, at most MAXR2T + 1 outstanding (R404). -/
def Dev.askData (d : Dev) (seq : Nat) : Nat → Dev
  | 0 => d
  | f + 1 =>
    match d.nvt.cmds.find? (·.seq == seq) with
    | none => d
    | some c =>
      let len := c.ext.foldl (fun a e => a + e.2) 0
      let lim := ((d.nvConn? c.conn).elim 0 (·.maxr2t)) + 1
      if c.asked < len ∧ c.r2t.length < lim then
        let n := min 131072 (len - c.asked)
        ((d.setNvCmd { c with asked := c.asked + n, r2t := c.r2t ++ [(c.asked, n)] }).nvSend c.conn (.r2t c.cid c.asked n)).askData
          seq f
      else d

/-- Every byte of a write has been placed. -/
def NvCmd.full (c : NvCmd) : Bool :=
  decide (c.ext.foldl (fun a e => a + e.2) 0 ≤ c.got.foldl (fun a e => a + e.2) 0)

/-- A write whose blocks are in the cache: it completes, or with FUA its blocks go to the SSD first (R407, R410). -/
def Dev.written (d : Dev) (c : NvCmd) : Dev :=
  let d1 := d.commitBlocks c
  if c.fua then
    let i := c.nss.headD 64
    let c1 := { c with phase := 2, slots := [] }
    (d1.setNvCmd c1).each c.blocks fun (b, _) d =>
      match d.nvBlk? i b with
      | none => d
      | some x =>
        let d2 := d.writeOut x true (some c.seq)
        if d2.nvt.out.length = d.nvt.out.length then
          d2.setNvCmd { c1 with fault := true } else d2
  else d1.nvEnd c 0 0

/-- A command begun (R411, R412). -/
def Dev.nvBegin (d : Dev) (c : NvCmd) : Dev :=
  let i := c.nss.headD 64
  match c.op with
  | .read =>
    if c.blocks.any fun b => d.nvt.bad.contains (i, b.1) then d.nvEnd c 0x281 0
    else
      let miss := c.blocks.filter fun b => ((d.nvBlk? i b.1).elim 0 (·.parts)) &&& b.2 ≠ b.2
      let fresh := miss.filter fun b => (d.nvBlk? i b.1).isNone
      match d.allocSlots (fresh.map (·.1)) with
      | none => d
      | some (sl, d1) =>
        let d2 := d1.each sl fun (b, s) d => d.setBlk { ns := i, blk := b, slot := s }
        let d3 := (d2.setNvCmd { c with phase := 1 }).incBy (pgNVT + 0x80c) (c.blocks.length - miss.length)
        d3.each miss fun b d => d.fetchBlk i b.1
  | .write | .zeroes | .dealloc =>
    match d.allocSlots (c.blocks.map (·.1)).eraseDups with
    | none => if c.waited then d else (d.setNvCmd { c with waited := true }).inc (pgNVT + 0x814)
    | some (sl, d1) =>
      let c1 := { c with phase := 1, slots := sl }
      let d2 := d1.setNvCmd c1
      if c.op = .write then
        let c2 := { c1 with data := [], asked := c.data.length }
        let d3 := (d2.setNvCmd c2).nvPlace c2 0 c.data
        match d3.nvt.cmds.find? (·.seq == c.seq) with
        | none => d3
        | some c3 => if c3.full then d3.written c3 else d3.askData c.seq 256
      else
        (d2.each sl fun (_, s) d => d.clearRange (d.slotAddr s) 4096).written c1
  | .flush => d.setNvCmd { c with phase := 1 }
  | _ => d

/-- The commands that may begin do so, earliest first: in SERVICE, after every earlier overlapping command of their queue
(R411), and those of a mode that is ending no longer (R414). -/
def Dev.nvPump (d : Dev) : Dev :=
  if d.nvMode ≠ 1 ∨ !d.starts pgNVT ∨ !d.nvUp then d
  else d.each d.nvt.cmds fun c d =>
    let ok := c.phase == 0 && d.nvt.cmds.contains c && (match d.nvt.drain with | none => true | some m => decide (c.seq < m))
    if ok && !(d.nvt.cmds.any fun e => decide (e.seq < c.seq) && e.overlaps c) then d.nvBegin c else d

/-- A read whose parts are all in the cache returns them; with a poisoned or failing granule it sends no data (R407,
R419). -/
def Dev.readSettle (d : Dev) (c : NvCmd) : Dev :=
  let i := c.nss.headD 64
  if c.op = .read ∧ c.phase = 1 ∧ c.blocks.all fun b => ((d.nvBlk? i b.1).elim 0 (·.parts)) &&& b.2 = b.2 then
    let e := c.ext.headD (0, 0)
    let r := (cutBlocks e.1 0 e.2 (e.2 / 4096 + 2)).foldl (fun (r : List Byte × Bool × Dev) (x : Nat × Nat × Nat × Nat) =>
      let a := d.slotAddr ((d.nvBlk? i x.1).elim 0 (·.slot)) + x.2.1
      let (l, bad, d1) := r.2.2.memRead pgNVT 0x40 a x.2.2.2
      (r.1 ++ l, r.2.1 || bad, d1)) ([], false, d)
    if r.2.1 then r.2.2.nvEnd c 0x281 0 else (r.2.2.nvData c.conn c.cid r.1).nvEnd c 0 0
  else d

/-- A Flush: when every covered command has completed and its blocks are destaged, each SSD concerned flushes; when those
flushes are over it completes; a block that stays in the cache because the table of bad blocks is full does not hold it,
and fails it (R409, R420, R421; DEDUCED, log entry 77). -/
def Dev.flushSettle (d : Dev) (c : NvCmd) : Dev :=
  if c.op ≠ .flush then d
  else if c.phase = 1 ∧ !(d.nvt.cmds.any fun e => e.writes && decide (e.seq < c.seq) && e.nss.any c.nss.contains)
      ∧ !(d.nvt.blks.any fun x => !x.stuck && c.nss.contains x.ns && x.covers.any (· < c.seq)) then
    let ps := (c.nss.map d.nsPort).eraseDups
    let stuck := d.nvt.blks.any fun x => x.stuck && c.nss.contains x.ns && x.covers.any (· < c.seq)
    (d.setNvCmd { c with phase := 2, fault := c.fault || stuck }).each ps fun p d =>
      d.ssdIssue { id := 0, port := p, op := .flush, own := some c.seq }
  else if c.phase = 2 ∧ !(d.nvt.out.any fun o => o.own == some c.seq) then d.nvEnd c (if c.fault then 0x280 else 0) 0
  else d

/-- A Write with FUA whose SSD writes are over completes (R410). -/
def Dev.fuaSettle (d : Dev) (c : NvCmd) : Dev :=
  if c.op = .write ∧ c.phase = 2 ∧ !(d.nvt.out.any fun o => o.own == some c.seq) then
    d.nvEnd c (if c.fault then 0x280 else 0) 0
  else d

/-- A namespace being removed whose commands are over and whose data is on its SSD is gone (R402). -/
def Dev.removeSettle (d : Dev) : Dev :=
  d.each d.nvt.removing fun i d =>
    if d.nvt.cmds.any (fun c => c.op ≠ .flush && c.nss.contains i) || d.nvt.blks.any (fun x => x.ns == i && !x.covers.isEmpty) then d
    else (d.setNvt { d.nvt with removing := d.nvt.removing.erase i, blks := d.nvt.blks.filter (·.ns ≠ i) }).sb
      (nsReg i 0x11c) 0 false

/-- A change to MAINT takes effect once the I/O commands accepted before it have completed (R414). -/
def Dev.drainSettle (d : Dev) : Dev :=
  match d.nvt.drain with
  | some m => if d.nvt.cmds.any fun c => decide (c.seq < m) && c.op ≠ .format && c.op ≠ .firmware then d
      else d.setNvt { d.nvt with drain := none }
  | none => d

/-- What may follow an event of the target: commands begin, and those whose conditions have come complete. -/
def Dev.nvSettle (d : Dev) : Dev :=
  let go := fun (d : Dev) => (((d.nvPump.each d.nvt.cmds fun c d =>
      match d.nvt.cmds.find? (·.seq == c.seq) with
      | none => d
      | some c => ((d.readSettle c).fuaSettle c).flushSettle c)))
  ((List.range (d.nvt.cmds.length + 1)).foldl (fun d _ => go d) d).removeSettle.drainSettle

/-- Every command of some namespaces, or those a test picks, ended with a status; their SSD commands are forgotten. -/
def Dev.nvKill (d : Dev) (p : NvCmd → Bool) (status : Nat) : Dev :=
  d.each (d.nvt.cmds.filter p) fun c d => d.nvEnd c status 0

/-- The cache blocks of some namespaces dropped without destaging (R416, R417). -/
def Dev.dropBlks (d : Dev) (p : Nat → Bool) : Dev :=
  d.setNvt { d.nvt with
    blks := d.nvt.blks.filter fun x => !p x.ns
    out := d.nvt.out.filter fun o => !((match o.op with | .read .. => true | .write .. => true | _ => false) && p o.ns) }

/-- A connection ends: its commands are dropped, and with the admin queue its controller and that controller's queues
(R398, R403). -/
def Dev.nvClose (d : Dev) (conn : Nat) : Dev :=
  match d.nvConn? conn with
  | none => d
  | some x =>
    let gone := d.nvt.conns.filter fun y => y.conn == conn || (x.qid == 0 && x.ctl.isSome && y.ctl == x.ctl)
    let ids := gone.map (·.conn)
    let n := d.nvt
    let ctls := if x.qid = 0 then n.ctls.filter fun k => some k.id ≠ x.ctl else n.ctls
    d.nvRepower (d.setNvt { n with
      conns := n.conns.filter fun y => !ids.contains y.conn
      ctls := ctls
      cmds := n.cmds.filter fun c => !ids.contains c.conn })

/-- The target ends a connection. -/
def Dev.nvTerm (d : Dev) (conn : Nat) : Dev := (d.nvSend conn .term).nvClose conn

/-- A command came for a controller: its keep-alive timer starts again (R398). -/
def Dev.nvTouch (d : Dev) (x : NvCtl) : Dev := d.setNvCtl { x with last := d.trclk }

/-- An admin command on the admin queue of a live controller. One outside its mode completes with Command Sequence Error
(R414). -/
def Dev.nvAdmin (d : Dev) (conn cid : Nat) (service maint : Bool) (f : NvCtl → Dev → Dev) : Dev :=
  if !d.nvUp then d else
    match d.nvConn? conn with
    | none => d
    | some q =>
      if !q.ready || q.qid ≠ 0 then d else
        match q.ctl.bind d.nvCtl? with
        | none => d
        | some x =>
          let d1 := d.nvTouch x
          if (d.nvMode == 1 && service) || (d.nvMode == 2 && maint) then f { x with last := d.trclk } d1
          else d1.nvResp conn cid 0x0c 0

/-- An I/O command on an I/O queue of a live controller. -/
def Dev.nvIo (d : Dev) (conn : Nat) (f : NvCtl → Dev → Dev) : Dev :=
  if !d.nvUp then d else
    match d.nvConn? conn with
    | none => d
    | some q =>
      if !q.ready || q.qid = 0 then d else
        match q.ctl.bind d.nvCtl? with
        | none => d
        | some x => f { x with last := d.trclk } (d.nvTouch x)

/-- Why an I/O command of extents of a namespace is turned away at once, if it is: sanitize, no such namespace, too much
data, beyond the end, SSD not ready, format (R399, R401, R416, R417, R421). -/
def Dev.nvRefuse (d : Dev) (x : NvCtl) (nsid : Nat) (ext : List (Nat × Nat)) (mdts : Bool) : Option Nat :=
  let i := nsid - 1
  if 2 ≤ d.nvt.san then some 0x1d
  else if nsid = 0 ∨ !d.nsAttached x i then some 0x0b
  else if mdts && decide (2 ^ 20 < (ext.map (·.2)).sum) then some 0x02
  else if ext.any fun e => d.nsNlb i * 4096 < e.1 + e.2 then some 0x80
  else if d.nvt.formatting.contains i then some 0x84
  else if !d.ssdReady (d.nsPort i) then some 0x82
  else none

/-- A command accepted: its moment is that of its capsule (R409). -/
def Dev.nvAccept (d : Dev) (c : NvCmd) : Dev :=
  (d.setNvt { d.nvt with cmds := d.nvt.cmds ++ [{ c with seq := d.nvt.seq }], seq := d.nvt.seq + 1 }).nvSettle

/-- A block command of a host: turned away, or accepted. -/
def Dev.nvBlock (d : Dev) (conn cid nsid : Nat) (op : NvOp) (lbas : List (Nat × Nat)) (mdts fua : Bool) (data : List Byte) : Dev :=
  d.nvIo conn fun x d =>
    let lb := d.nsLb (nsid - 1)
    let ext := lbas.map fun e => (e.1 * lb, e.2 * lb)
    match d.nvRefuse x nsid ext mdts with
    | some st => d.nvResp conn cid st 0
    | none => d.nvAccept { seq := 0, conn := conn, cid := cid, op := op, nss := [nsid - 1], ext := ext, fua := fua, data := data }

/-- TCP_CONNECT_ATTEMPT (R413): in OFF a reset by the port it came on; else the connection is made. -/
def execTcpConnectAttempt (conn port : Nat) (disc : Bool) (s : State) : Res :=
  lift (fun d => d.when (!d.safe && (d.nvConn? conn).isNone) fun d =>
    if d.nvMode = 0 then (d.inc (pgNVT + 0x81c)).emit (.tcpReset port)
    else d.setConn { conn := conn, disc := disc }) s

/-- NVME_ICREQ (R398): digests and HPDA are agreed; an HPDA above 31 ends the connection. -/
def execNvmeIcreq (conn hpda maxr2t : Nat) (hd dd : Bool) (s : State) : Res :=
  lift (fun d => match d.nvConn? conn with
    | none => d
    | some q => d.when (d.nvUp && !q.ready) fun d =>
      if 31 < hpda then d.nvTerm conn
      else (d.setConn { q with ready := true, hd := hd, dd := dd, maxr2t := maxr2t }).nvSend conn (.icResp 0 131072 hd dd)) s

/-- NVME_CONNECT (R398, R403, R414): with queue 0 a controller of its own, `cntlid`, else a queue of controller
`cntlid`. -/
def execNvmeConnect (conn cid qid sqsize kato host cntlid : Nat) (s : State) : Res :=
  lift (fun d => match d.nvConn? conn with
    | none => d
    | some q => d.when (d.nvUp && q.ready && q.ctl.isNone) fun d =>
      if d.nvMode = 0 then d.nvResp conn cid 0x0c 0
      else if qid = 0 then
        if 256 ≤ d.nvt.ctls.length ∨ 4095 < sqsize then d.nvResp conn cid 0x182 0
        else if (d.nvCtl? cntlid).isSome then d
        else
          let k : NvCtl := { id := cntlid, host := host, kato := if kato = 0 then 0 else max 1000 kato, last := d.trclk }
          ((d.setNvCtl k).setConn { q with ctl := some cntlid }).nvResp conn cid 0 cntlid
      else
        let ioqs := d.nvt.conns.filter fun c => c.ctl.isSome && c.qid ≠ 0
        if q.disc || d.nvMode == 2 || (d.nvCtl? cntlid).isNone || decide (1024 ≤ ioqs.length) || decide (4095 < sqsize)
            || ioqs.any (fun c => c.ctl == some cntlid && c.qid == qid) then d.nvResp conn cid 0x182 0
        else ((d.setConn { q with ctl := some cntlid, qid := qid })).nvResp conn cid 0 cntlid) s

/-- NVME_TCP_CONNECTION_CLOSE (R403). -/
def execNvmeTcpConnectionClose (conn : Nat) (s : State) : Res := lift (fun d => (d.nvClose conn).nvSettle) s

/-- NVME_READ (R399, R401, R407, R411, R419). -/
def execNvmeRead (conn cid nsid slba nlb : Nat) (s : State) : Res :=
  lift (fun d => d.nvBlock conn cid nsid .read [(slba, nlb)] true false []) s

/-- A digest that fails is counted (R405). -/
def Dev.nvDigest (d : Dev) : Dev := (d.inc (pgNVT + 0x818)).setErr pgNVT 3

/-- NVME_WRITE (R399, R401, R404, R407, R410): `data` is what its capsule holds; `digestOk`: its data digest matches, where
the connection has one (R398, R405). -/
def execNvmeWrite (conn cid nsid slba nlb : Nat) (fua digestOk : Bool) (data : List Byte) (s : State) : Res :=
  lift (fun d =>
    if digestOk || !d.dataDigest conn then d.nvBlock conn cid nsid .write [(slba, nlb)] true fua (data.take 8192)
    else d.nvIo conn fun _ d => d.nvDigest.nvResp conn cid 0x22 0) s

/-- NVME_FLUSH (R409): of one namespace, or of every attached one. -/
def execNvmeFlush (conn cid nsid : Nat) (s : State) : Res :=
  lift (fun d => d.nvIo conn fun x d =>
    if nsid = 0xffffffff then
      let l := (List.range 64).filter fun i => d.nsAttached x i && !d.nvt.formatting.contains i
      if 2 ≤ d.nvt.san then d.nvResp conn cid 0x1d 0
      else if l.any fun i => !d.ssdReady (d.nsPort i) then d.nvResp conn cid 0x82 0
      else d.nvAccept { seq := 0, conn := conn, cid := cid, op := .flush, nss := l }
    else match d.nvRefuse x nsid [] false with
      | some st => d.nvResp conn cid st 0
      | none => d.nvAccept { seq := 0, conn := conn, cid := cid, op := .flush, nss := [nsid - 1] }) s

/-- NVME_WRITE_ZEROES (R407). -/
def execNvmeWriteZeroes (conn cid nsid slba nlb : Nat) (s : State) : Res :=
  lift (fun d => d.nvBlock conn cid nsid .zeroes [(slba, nlb)] false false []) s

/-- NVME_DATASET_MANAGEMENT (R407): the ranges are deallocated; without that attribute it only completes. -/
def execNvmeDatasetManagement (conn cid nsid : Nat) (dealloc : Bool) (ranges : List (Nat × Nat)) (s : State) : Res :=
  lift (fun d => d.nvBlock conn cid nsid .dealloc (if dealloc then ranges else []) false false []) s

/-- NVME_INVALID_OPCODE (R399). -/
def execNvmeInvalidOpcode (conn cid opc : Nat) (s : State) : Res :=
  lift (fun d => d.nvIo conn fun _ d => d.when (!([0, 1, 2, 8, 9].contains opc)) fun d => d.nvResp conn cid 0x01 0) s

/-- NVME_ABORT (R412): only a command not yet begun is aborted. -/
def execNvmeAbort (conn cid sqid target : Nat) (s : State) : Res :=
  lift (fun d => d.nvAdmin conn cid true true fun x d =>
    let q := (d.nvt.conns.filter fun c => c.ctl == some x.id && c.qid == sqid).map (·.conn)
    match d.nvt.cmds.find? fun c => q.contains c.conn && c.cid == target && c.phase == 0 with
    | some c => (((d.nvEnd c 0x07 0).inc (pgNVT + 0x820)).nvResp conn cid 0 0).nvSettle
    | none => (d.inc (pgNVT + 0x824)).nvResp conn cid 0 1) s

/-- Data that ready-to-transfer `r` asked for, placed; with all of it the write goes on (R404, R405, R407). -/
def Dev.h2cPlace (d : Dev) (c : NvCmd) (r : Nat × Nat) (off : Nat) (data : List Byte) : Dev :=
  let d1 := d.nvPlace c off data
  match d1.nvt.cmds.find? (·.seq == c.seq) with
  | none => d1
  | some c1 =>
    let inR := c1.got.filter fun g => decide (r.1 ≤ g.1) && decide (g.1 < r.1 + r.2)
    let c2 := if r.2 ≤ (inR.map (·.2)).sum then { c1 with r2t := c1.r2t.erase r } else c1
    let d2 := d1.setNvCmd c2
    (if c2.full then d2.written c2 else d2.askData c.seq 256).nvSettle

/-- H2C_DATA_PDU (R405): its data is placed; with a failed data digest the command ends with none of its blocks written;
a failed header digest, or data no ready-to-transfer asked for, ends the connection. -/
def execH2cDataPdu (conn cid off : Nat) (data : List Byte) (headOk dataOk : Bool) (s : State) : Res :=
  lift (fun d => d.when (d.nvUp && (d.nvConn? conn).isSome) fun d =>
    if !headOk && d.headDigest conn then (d.nvDigest.nvTerm conn).nvSettle
    else match d.nvt.cmds.find? fun c => c.conn == conn && c.cid == cid && c.op == .write && c.phase == 1 with
      | none => (d.nvTerm conn).nvSettle
      | some c =>
        match c.r2t.find? fun r => decide (r.1 ≤ off) && decide (off + data.length ≤ r.1 + r.2) with
        | none => (d.nvTerm conn).nvSettle
        | some r =>
          if !dataOk && d.dataDigest conn then (d.nvDigest.nvEnd c 0x22 0).nvSettle
          else d.h2cPlace c r off data) s

/-- An SSD write of a cached block is under way. -/
def Dev.beingWritten (d : Dev) (x : NvBlk) : Bool :=
  d.nvt.out.any fun o => o.ns == x.ns && o.blk == x.blk && (match o.op with | .write .. => true | _ => false)

/-- DESTAGE (R407): a dirty block goes to its SSD. -/
def execDestage (nsid blk : Nat) (s : State) : Res :=
  lift (fun d => match d.nvBlk? (nsid - 1) blk with
    | none => d
    | some x => d.when (d.nvUp && decide (1 ≤ nsid) && !x.covers.isEmpty && !x.stuck && d.ssdReady (d.nsPort x.ns)
        && !d.beingWritten x) fun d =>
      (d.writeOut x false none).nvSettle) s

/-- A block whose SSD write failed three times is a bad block, and a Flush that covers it fails (R420, R421). -/
def Dev.writeFailed (d : Dev) (c : SsdCmd) : Dev :=
  let n := d.nvt
  let cmds := n.cmds.map fun (f : NvCmd) =>
    if (f.op = .flush ∧ f.nss.contains c.ns ∧ c.covers.any (· < f.seq)) ∨ c.own = some f.seq then { f with fault := true } else f
  let d1 := d.setNvt { n with cmds := cmds }
  if d1.nvt.bad.contains (c.ns, c.blk) ∨ d1.nvt.bad.length < 4096 then
    let bad := if d1.nvt.bad.contains (c.ns, c.blk) then d1.nvt.bad else d1.nvt.bad ++ [(c.ns, c.blk)]
    let d2 := d1.setNvt { d1.nvt with bad := bad }
    let d3 := match d2.nvBlk? c.ns c.blk with
      | some x => if x.covers.all c.covers.contains then d2.setNvt { d2.nvt with blks := d2.nvt.blks.erase x }
          else d2.setBlk { x with covers := x.covers.filter fun k => !c.covers.contains k }
      | none => d2
    (d3.setErr pgNVT 1).inc (pgNVT + 0x828)
  else
    (match d1.nvBlk? c.ns c.blk with | some x => d1.setBlk { x with stuck := true } | none => d1).setErr pgNVT 2

/-- A Sanitize is over for one SSD, and with the last for all (R417, R418). -/
def Dev.sanEnd (d : Dev) (p : Nat) (ok : Bool) : Dev :=
  let left := d.nvt.sanLeft.erase p
  if !ok then d.setNvt { d.nvt with san := 3, sanLeft := [], record := none }
  else if left.isEmpty then d.setNvt { d.nvt with san := if d.nvt.san = 2 then 1 else d.nvt.san, sanLeft := [], record := none }
  else
    let r := d.nvt.record.map fun (r : NvRecord) => { r with left := left }
    d.setNvt { d.nvt with sanLeft := left, record := r }

/-- The SSD work of a format is over for one namespace, and with the last for the command (R416, R418). -/
def Dev.formatEnd (d : Dev) (c : SsdCmd) (ok : Bool) : Dev :=
  let r := d.nvt.record.map fun (r : NvRecord) => { r with exts := r.exts.filter (·.1 ≠ c.ns) }
  let r := if r.elim true (fun r => r.exts.isEmpty) then none else r
  let d1 := d.setNvt { d.nvt with formatting := d.nvt.formatting.filter (· ≠ c.ns), record := r }
  match d1.nvt.cmds.find? fun (f : NvCmd) => c.own == some f.seq with
  | none => d1
  | some f =>
    let f := { f with fault := f.fault || !ok }
    if f.nss.any d1.nvt.formatting.contains then d1.setNvCmd f else d1.nvEnd f (if f.fault then 0x06 else 0) 0

/-- An SSD read has brought the parts of a block that the cache lacked, or has failed (R407, R198). -/
def Dev.readDone (d : Dev) (c : SsdCmd) (mask : Nat) (ok : Bool) (data : List Byte) : Dev :=
  match d.nvBlk? c.ns c.blk with
  | none => d
  | some x =>
    if ok then
      let d1 := d.each ((partsOf mask).zipIdx.filter fun (p : Nat × Nat) => !bitN x.parts p.1) fun p d =>
        d.memWrite pgSRP 0x40 (d.slotAddr x.slot + p.1 * 512) (padTo 512 ((data.drop (p.2 * 512)).take 512)) false
      d1.setBlk { x with parts := x.parts ||| mask }
    else d.nvKill (fun e => e.op = .read && e.phase == 1 && e.nss == [c.ns] && e.blocks.any fun b =>
        b.1 == c.blk && decide (x.parts &&& b.2 ≠ b.2)) 0x281

/-- An SSD write is over: its blocks are destaged; a failed one is tried three times (R407, R421). -/
def Dev.writeDone (d : Dev) (c : SsdCmd) (ok : Bool) : Dev :=
  if ok then
    let d1 := d.inc (pgNVT + 0x810)
    match d1.nvBlk? c.ns c.blk with
    | none => d1
    | some x => d1.setBlk { x with covers := x.covers.filter fun k => !c.covers.contains k }
  else
    let d1 := d.setErr pgNVT 0
    if c.tries < 3 then d1.ssdIssue { c with tries := c.tries + 1 } else d1.writeFailed c

/-- An SSD command of a host's command is over. -/
def Dev.ownEnded (d : Dev) (c : SsdCmd) (ok : Bool) : Dev :=
  match d.nvt.cmds.find? fun (f : NvCmd) => c.own == some f.seq with
  | none => d
  | some f =>
    match f.op with
    | .flush => if ok then d else d.setNvCmd { f with fault := true }
    | _ => d.nvEnd f (if ok then 0 else 0x06) 0

/-- What the end of an SSD command brings, by its kind. -/
def Dev.ssdOver (d : Dev) (c : SsdCmd) (ok : Bool) (data : List Byte) : Dev :=
  match c.op with
  | .read _ mask => d.readDone c mask ok data
  | .write .. => d.writeDone c ok
  | .sanitize _ => d.sanEnd c.port ok
  | .dealloc .. => d.formatEnd c ok
  | .power _ => d
  | _ => d.ownEnded c ok

/-- SSD_COMMAND_COMPLETE (R407, R409, R410, R416, R417, R420, R421). -/
def execSsdCommandComplete (id : Nat) (ok : Bool) (data : List Byte) (s : State) : Res :=
  lift (fun d => match d.nvt.out.find? (·.id == id) with
    | none => d
    | some c => d.when d.fwRunning fun d => ((d.setNvt { d.nvt with out := d.nvt.out.erase c }).ssdOver c ok data).nvSettle) s

/-- The SSD of a port is lost: the commands accepted for its namespaces complete with Namespace Not Ready; its dirty
blocks stay (R421). -/
def Dev.ssdLost (d : Dev) (p : Nat) : Dev :=
  let mine := fun i => d.b (nsReg i 0x11c) 0 && d.nsPort i == p
  let ssds := d.nvt.ssds.set p { d.nvt.ssds.getD p {} with ready := false }
  let d1 := d.setNvt { d.nvt with ssds := ssds }
  let d2 := d1.nvKill (fun c => (c.nss.any mine && c.op ≠ .format) || d.nvt.out.any fun o => o.port == p && o.own == some c.seq
    && c.op ≠ .format) 0x82
  d2.setNvt { d2.nvt with out := d2.nvt.out.filter fun o => o.port ≠ p }

/-- SSD_LINK_DOWN (R421, Table 20.7): the link goes down, or the SSD stops answering. -/
def execSsdLinkDown (port : Fin 4) (silent : Bool) (s : State) : Res :=
  lift (fun d => d.when (d.ssdReady port) fun d =>
    let d1 := if silent then (d.setErr pgSRP (4 + port)).setErr pgNVT 0 else d.setErr pgSRP port
    (d1.ssdLost port).nvSettle) s

/-- The SSD of a port answers again (R421). -/
def Dev.ssdBack (d : Dev) (port cap : Nat) : Dev :=
  let d1 := d.setNvt { d.nvt with ssds := d.nvt.ssds.set port { ready := true, cap := cap } }
  let d2 := if d1.nvt.san = 2 && d1.nvt.sanLeft.contains port then
      d1.ssdIssue { id := 0, port := port, op := .sanitize d1.nvt.sanAct } else d1
  let again := match d2.nvt.record with
    | none => []
    | some r => r.exts.filter fun e => e.2.1 == port && !(d2.nvt.out.any fun o => o.ns == e.1 && o.port == port)
  let d3 := d2.each again fun e d =>
    let own := (d.nvt.cmds.find? fun (c : NvCmd) => c.op = .format && c.nss.contains e.1).map (·.seq)
    d.ssdIssue { id := 0, port := port, op := .dealloc e.2.2.1 e.2.2.2, ns := e.1, own := own }
  (if d3.nvPower = 0 then d3 else d3.ssdIssue { id := 0, port := port, op := .power d3.nvPower }).nvSettle

/-- SSD_READY (R421): the SSD answers, with its capacity in 4 KiB blocks. What a format or sanitize still asks of it is
asked again. -/
def execSsdReady (port : Fin 4) (cap : Nat) (s : State) : Res :=
  lift (fun d => d.when (d.fwRunning && !d.ssdReady port) fun d => d.ssdBack port cap) s

/-! ### Admin commands -/

/-- Bytes with some fields set: offset and bytes. -/
def putFields (l : List Byte) (fs : List (Nat × List Byte)) : List Byte :=
  fs.foldl (fun l f => l.take f.1 ++ f.2 ++ l.drop (f.1 + f.2.length)) l

/-- The Identify Controller data of controller `x` over free bytes (Table 15.1). -/
def idController (l : List Byte) (x : NvCtl) : List Byte :=
  putFields l [(77, [8]), (78, leBytes x.id 2), (258, [3]), (516, leBytes 64 4), (525, [1]), (1792, leBytes 516 4)]

/-- NVME_IDENTIFY (R414): 4,096 bytes with the values of Table 15.1 at the places the NVMe Base Specification gives them;
every other byte is a free value (PRESUMED, log entry 40). -/
def execNvmeIdentify (conn cid nsid cns : Nat) (s : State) : Res :=
  lift (fun d => d.nvAdmin conn cid true true fun x d =>
    let (l, d1) := d.freeBytes 4096
    if cns = 1 then (d1.nvData conn cid (idController l x)).nvResp conn cid 0 0
    else if cns = 2 then
      let ids := ((List.range 64).filter fun i => d.nsAttached x i && decide (nsid < i + 1)).flatMap fun i => leBytes (i + 1) 4
      (d1.nvData conn cid (padTo 4096 ids)).nvResp conn cid 0 0
    else if cns = 0 then
      if nsid = 0 ∨ !d.nsAttached x (nsid - 1) then d.nvResp conn cid 0x0b 0
      else
        let i := nsid - 1
        let n := d.nsNlb i * (4096 / d.nsLb i)
        let l1 := putFields l [(0, leBytes n 8), (8, leBytes n 8), (25, [1]), (26, [BitVec.ofNat 8 (b2n (d.b (nsReg i 0x11c) 3))]),
                               (27, [0]), (128, [0, 0, 12]), (132, [0, 0, 9])]
        (d1.nvData conn cid l1).nvResp conn cid 0 0
    else d.nvResp conn cid 0x02 0) s

/-- Least progress of the SSDs of a running operation, as the NOR record has it (R417). -/
def Dev.nvProgress (d : Dev) : Nat :=
  match d.nvt.record with
  | none => 65535
  | some r => (d.nvt.sanLeft.map fun p => r.prog.getD p 0).foldl min 65535

/-- NVME_GET_LOG_PAGE (R414, R417): the Sanitize Status log has its progress and status; every other byte is free. -/
def execNvmeGetLogPage (conn cid lid len : Nat) (s : State) : Res :=
  lift (fun d => d.nvAdmin conn cid true true fun _ d =>
    let (l, d1) := d.freeBytes len
    let l1 := if lid = 0x81 then (putFields l [(0, leBytes d.nvProgress 2), (2, leBytes d.nvt.san 2)]).take len else l
    (d1.nvData conn cid l1).nvResp conn cid 0 0) s

/-- NVME_GET_FEATURES (R414): a feature never set, and not one of the target's own, is a free value. -/
def execNvmeGetFeatures (conn cid fid : Nat) (s : State) : Res :=
  lift (fun d => d.nvAdmin conn cid true true fun x d =>
    if fid = 0xc0 then d.nvResp conn cid 0 d.nvt.fwPort
    else if fid = 6 then d.nvResp conn cid 0 1
    else if fid = 2 then d.nvResp conn cid 0 (x.ps.getD 0)
    else if fid = 0xf then d.nvResp conn cid 0 x.kato
    else match x.feats.lookup fid with
      | some v => d.nvResp conn cid 0 v
      | none => let (v, d1) := d.freeWord; d1.nvResp conn cid 0 (v.toNat % 2 ^ 32)) s

/-- The power state a controller asks for (R422). -/
def Dev.nvPowerSet (d : Dev) (x : NvCtl) (conn cid ps : Nat) : Dev :=
  if 3 < ps then d.nvResp conn cid 0x02 0
  else d.nvRepower ((d.setNvCtl { x with ps := some ps }).nvResp conn cid 0 0)

/-- NVME_SET_FEATURES (R398, R414, R415): Power Management, Number of Queues, Keep Alive Timer and Async Event
Configuration in both modes, every other in MAINT; Volatile Write Cache is ignored. -/
def execNvmeSetFeatures (conn cid fid val : Nat) (s : State) : Res :=
  lift (fun d => d.nvAdmin conn cid ([2, 7, 0xb, 0xf].contains fid) true fun x d =>
    if fid = 2 then d.nvPowerSet x conn cid (val % 32)
    else if fid = 6 then d.nvResp conn cid 0 0
    else if fid = 0xf then (d.setNvCtl { x with kato := if val = 0 then 0 else max 1000 val }).nvResp conn cid 0 0
    else if fid = 0xc0 then
      if 3 < val then d.nvResp conn cid 0x02 0 else (d.setNvt { d.nvt with fwPort := val }).nvResp conn cid 0 0
    else (d.setNvCtl { x with feats := (fid, val) :: x.feats.filter (·.1 ≠ fid) }).nvResp conn cid 0
      (if fid = 7 then val else 0)) s

/-- NVME_POWER_STATE_SET (R422). -/
def execNvmePowerStateSet (conn cid ps : Nat) (s : State) : Res :=
  lift (fun d => d.nvAdmin conn cid true true fun x d => d.nvPowerSet x conn cid ps) s

/-- NVME_KEEP_ALIVE (R398). -/
def execNvmeKeepAlive (conn cid : Nat) (s : State) : Res :=
  lift (fun d => d.nvAdmin conn cid true true fun _ d => d.nvResp conn cid 0 0) s

/-- KEEP_ALIVE_TIMEOUT (R398): no command within KATO ends the controller. -/
def execKeepAliveTimeout (cntlid : Nat) (s : State) : Res :=
  lift (fun d => match d.nvCtl? cntlid, d.nvt.conns.find? fun c => c.ctl == some cntlid && c.qid == 0 with
    | some x, some c => d.when (d.fwRunning && decide (x.kato ≠ 0)) fun d => (d.nvTerm c.conn).nvSettle
    | _, _ => d) s

/-- NVME_ASYNC_EVENT_REQUEST (R398): held, or completed with a notice that waits. -/
def execNvmeAsyncEventRequest (conn cid : Nat) (s : State) : Res :=
  lift (fun d => d.nvAdmin conn cid true true fun x d =>
    match x.notes with
    | n :: l => (d.setNvCtl { x with notes := l }).nvResp conn cid 0 n
    | [] => d.setNvCtl { x with aers := x.aers ++ [cid] }) s

/-- NVME_PROPERTY_GET (R414): CAP, VS, CC and CSTS; of CAP, MQES and MPSMIN are the target's, the rest is free; another
property is free. -/
def execNvmePropertyGet (conn cid off : Nat) (s : State) : Res :=
  lift (fun d => d.nvAdmin conn cid true true fun x d =>
    let (v, d1) := d.freeWord
    if off = 0 then d1.nvResp conn cid 0 (setFieldN (setFieldN v.toNat 0 16 4095) 48 4 0)
    else if off = 8 then d.nvResp conn cid 0 0x20000
    else if off = 0x14 then d.nvResp conn cid 0 x.cc
    else if off = 0x1c then d.nvResp conn cid 0 (x.cc % 2 + (if fieldN x.cc 14 2 = 0 then 0 else 8))
    else d1.nvResp conn cid 0 v.toNat) s

/-- NVME_PROPERTY_SET (R414): CC is the one property a host sets. -/
def execNvmePropertySet (conn cid off val : Nat) (s : State) : Res :=
  lift (fun d => d.nvAdmin conn cid true true fun x d =>
    if off = 0x14 then (d.setNvCtl { x with cc := val }).nvResp conn cid 0 0 else d.nvResp conn cid 0x02 0) s

/-- Namespaces formatted: their commands end, their cached data is dropped, their block size is set; with SES 1 their
extents are deallocated on the SSDs (R416, R418). -/
def Dev.format (d : Dev) (conn cid lbaf ses : Nat) (l : List Nat) : Dev :=
  let d1 := (d.nvKill (fun c => c.op ≠ .flush && c.op ≠ .firmware && c.nss.any l.contains) 0x84).dropBlks l.contains
  let d2 := d1.each l fun i d => d.sb (nsReg i 0x11c) 3 (decide (lbaf = 1))
  if ses = 0 then (d2.nvResp conn cid 0 0).nvSettle
  else
    let seq := d2.nvt.seq
    let c : NvCmd := { seq := seq, conn := conn, cid := cid, op := .format, nss := l, phase := 1 }
    let exts := l.map fun i => (i, d.nsPort i, d.nsSlba i, d.nsNlb i)
    let r : NvRecord := { sanitize := false, act := ses, lbaf := lbaf, exts := exts }
    let d3 := d2.setNvt { d2.nvt with
      cmds := d2.nvt.cmds ++ [c], seq := seq + 1, formatting := d2.nvt.formatting ++ l, record := some r }
    (d3.each exts fun e d => d.ssdIssue { id := 0, port := e.2.1, op := .dealloc e.2.2.1 e.2.2.2, ns := e.1,
                                          own := some seq }).nvSettle

/-- NVME_FORMAT_NVM (R416, R418, R423). -/
def execNvmeFormatNvm (conn cid nsid lbaf ses : Nat) (s : State) : Res :=
  lift (fun d => d.nvAdmin conn cid true false fun x d =>
    let l := if nsid = 0xffffffff then (List.range 64).filter fun i => d.b (nsReg i 0x11c) 0 && !d.nvt.removing.contains i else [nsid - 1]
    if 2 ≤ ses ∨ 2 ≤ lbaf then d.nvResp conn cid 0x02 0
    else if nsid = 0 ∨ (nsid ≠ 0xffffffff ∧ !d.nsAttached x (nsid - 1)) then d.nvResp conn cid 0x0b 0
    else if d.nvt.san = 2 then d.nvResp conn cid 0x1d 0
    else if l.any d.nvt.formatting.contains then d.nvResp conn cid 0x84 0
    else if l.any fun i => !d.ssdReady (d.nsPort i) then d.nvResp conn cid 0x82 0
    else d.format conn cid lbaf ses l) s

/-- A Sanitize begins on every SSD that is ready (R417, R418). -/
def Dev.sanitize (d : Dev) (conn cid action : Nat) : Dev :=
  let ps := (List.range 4).filter d.ssdReady
  let d1 := (d.nvKill (fun c => c.op ≠ .format && c.op ≠ .firmware) 0x1d).dropBlks fun _ => true
  let r : NvRecord := { sanitize := true, act := action, left := ps }
  let d2 := d1.setNvt { d1.nvt with
    bad := [], san := if ps.isEmpty then 1 else 2, sanAct := action, sanLeft := ps
    record := if ps.isEmpty then none else some r }
  ((d2.nvResp conn cid 0 0).each ps fun p d => d.ssdIssue { id := 0, port := p, op := .sanitize action }).nvSettle

/-- NVME_SANITIZE (R417, R418): Block Erase and Crypto Erase. -/
def execNvmeSanitize (conn cid action : Nat) (s : State) : Res :=
  lift (fun d => d.nvAdmin conn cid true false fun _ d =>
    if action ≠ 2 ∧ action ≠ 4 then d.nvResp conn cid 0x02 0
    else if d.nvt.san = 2 then d.nvResp conn cid 0x1d 0
    else d.sanitize conn cid action) s

/-- SANITIZE_PROGRESS_SAVE (R418): the NOR record of the running operation gets the progress of each SSD. -/
def execSanitizeProgressSave (prog : List Nat) (s : State) : Res :=
  lift (fun d => d.when d.fwRunning fun d =>
    match d.nvt.record with
    | none => d
    | some r => d.setNvt { d.nvt with record := some { r with prog := prog } }) s

/-- A firmware command for the SSD selected (R415). -/
def Dev.nvFirmware (d : Dev) (conn cid : Nat) (op : SsdOp) : Dev :=
  let p := d.nvt.fwPort
  if !d.ssdReady p then d.nvResp conn cid 0x82 0
  else
    let seq := d.nvt.seq
    let c : NvCmd := { seq := seq, conn := conn, cid := cid, op := .firmware, nss := [], phase := 1 }
    (d.setNvt { d.nvt with cmds := d.nvt.cmds ++ [c], seq := seq + 1 }).ssdIssue { id := 0, port := p, op := op, own := some seq }

/-- NVME_FIRMWARE_DOWNLOAD (R415). -/
def execNvmeFirmwareDownload (conn cid off : Nat) (data : List Byte) (s : State) : Res :=
  lift (fun d => d.nvAdmin conn cid false true fun _ d => d.nvFirmware conn cid (.fwDownload off data)) s

/-- A firmware commit that resets the SSD selected (R415). -/
def Dev.fwReset (d : Dev) (conn cid slot action : Nat) : Dev :=
  let d1 := (d.emit (.ssd d.nvt.fwPort d.nvt.nextId (.fwCommit slot action))).nvResp conn cid 0 0
  ((d1.setNvt { d1.nvt with nextId := d.nvt.nextId + 1 }).ssdLost d.nvt.fwPort).nvSettle

/-- NVME_FIRMWARE_COMMIT (R415): a commit that needs a reset completes, and takes the SSD's namespaces to Namespace Not
Ready until it is ready again. -/
def execNvmeFirmwareCommit (conn cid slot action : Nat) (reset : Bool) (s : State) : Res :=
  lift (fun d => d.nvAdmin conn cid false true fun _ d =>
    if reset && d.ssdReady d.nvt.fwPort then d.fwReset conn cid slot action
    else d.nvFirmware conn cid (.fwCommit slot action)) s

/-! ### Namespaces and registers -/

/-- NS_INSTALL (R400): the staging entry becomes namespace NS_IDX + 1, or is refused, as one that a resize keeps reserved is
(R330, R331). -/
def Dev.nsInstall (d : Dev) : Dev :=
  let i := d.g (pgNVT + 0x118) 0 6
  let p := d.g (pgNVT + 0x11c) 1 2
  let a := d.rd64 (pgNVT + 0x120)
  let n := d.rd64 (pgNVT + 0x128)
  let ovr := (List.range 64).any fun j =>
    d.b (nsReg j 0x11c) 0 && d.nsPort j == p && decide (a < d.nsSlba j + d.nsNlb j) && decide (d.nsSlba j < a + n)
  let foreign := d.b (pgNVT + 0x11c) 11 && !bitN (d.cove (d.g (pgNVT + 0x11c) 5 6)).cfg.nsMask i
  if d.b (nsReg i 0x11c) 0 || decide ((d.nvt.ssds.getD p {}).cap < a + n) || ovr || foreign || d.reserved (fun g => bitN g.nsMask i) then d.sb (pgNVT + 0x140) 4 true
  else
    let d1 := (d.sb (pgNVT + 0x140) 4 false).each ((List.range 9).map fun k => 0x120 + 4 * k) fun o d =>
      if o < 0x140 then d.wr (nsReg i o) (d.rd (pgNVT + o)) else d
    let d2 := (d1.wr (nsReg i 0x11c) (d1.rd (pgNVT + 0x11c))).sb (nsReg i 0x11c) 0 true
    d2.nsNotice i

/-- NS_INSTALL (R400). -/
def execNsInstall (s : State) : Res := lift (fun d => d.onReg (pgNVT + 0x140) Dev.nsInstall) s

/-- A namespace detached, to be removed when its data is on its SSD (R402). -/
def Dev.nsRemove (d : Dev) (i : Nat) : Dev :=
  if !d.b (nsReg i 0x11c) 0 || d.nvt.removing.contains i then d
  else
    let d1 := d.nsNotice i
    (d1.setNvt { d1.nvt with removing := d1.nvt.removing ++ [i] }).nvSettle

/-- NS_REMOVE (R402). -/
def execNsRemove (s : State) : Res :=
  lift (fun d => d.onReg (pgNVT + 0x140) fun d => d.nsRemove (d.g (pgNVT + 0x118) 0 6)) s

/-- EN and MAINT written: a change from SERVICE to MAINT waits for the commands accepted before it (R413, R414). -/
def Dev.nvCtlWrite (d : Dev) (en maint : Bool) : Dev :=
  let was := d.nvMode
  let d1 := (d.sb (pgNVT + 0x100) 0 en).sb (pgNVT + 0x100) 1 maint
  let drain := if en && maint && (was == 1) then some d.nvt.seq else none
  (d1.setNvt { d1.nvt with drain := drain }).nvSettle

/-- NVT_CTL_WRITE (R413). -/
def execNvtCtlWrite (en maint : Bool) (s : State) : Res :=
  lift (fun d => d.onReg (pgNVT + 0x100) fun d => d.nvCtlWrite en maint) s

/-- CACHE_BASE or CACHE_SIZE written (R406): applied in slack with no live controller and no data still to destage (log
entry 41); a value that places the cache outside the scratch pool or inside a cove's range is ignored and recorded. -/
def Dev.cacheWrite (d : Dev) (k v : Nat) : Dev :=
  let d1 := d.writeFields k v
  let a := d1.g (pgNVT + 0x10c) 0 18 * 2 ^ 30
  let n := d1.g (pgNVT + 0x110) 0 7 * 2 ^ 30
  let inRange := d.coves.any fun c => decide (c.2.state ≠ 0) && c.2.cfg.ranges.any fun r =>
    decide (a < r.base + r.size) && decide (r.base < a + n)
  if d.slackNow && d.nvt.ctls.isEmpty && d.nvt.blks.all (·.covers.isEmpty) && d.inScratch a n && inUserMem a n && !inRange then
    d1.setNvt { d1.nvt with blks := [] }
  else d.configRefused pgNVT none (k % 4096)

end Sys2Proof.Machine
end

