-- ==== Sys2Proof/Machine/Cove.lean ====
section
/-!
DEFINITION. Machine/Cove.lean: coves (chapter 12): their creation, resizing, reset, freeze, save and restore.
-/
namespace Sys2Proof.Machine

/-- A configuration record read (Table 12.2): the cove and what it holds; nothing where a field is out of range. -/
def parseCfg (l : List Byte) : Option (Nat × CoveCfg) :=
  let zero (o n : Nat) : Bool := leAt l o n == 0
  let nr := leAt l 13 1
  let recs := (List.range nr).map fun r => (leAt l (128 + 16 * r) 8, leAt l (136 + 16 * r) 4, leAt l (140 + 16 * r) 1, leAt l (141 + 16 * r) 3)
  let ok := decide (leAt l 0 1 < 64) && zero 1 3 && decide (1 ≤ leAt l 4 4) && decide (leAt l 4 4 < 2 ^ 20)
    && decide (1 ≤ leAt l 12 1) && decide (leAt l 12 1 ≤ 64) && decide (nr ≤ 16) && zero 14 2 && !bitN (leAt l 24 1) 0
    && decide (leAt l 64 4 ≤ 65536) && zero 68 30 && zero 98 30
    && recs.all fun r => r.1 % 65536 == 0 && decide (1 ≤ r.2.1) && decide (r.2.2.1 < 4) && r.2.2.2 == 0
  if ok then
    let rs : List Range := (recs.filter fun r => bitN r.2.2.1 0).map fun r => ⟨r.1, r.2.1 * 65536, bitN r.2.2.1 1⟩
    some (leAt l 0 1, { pasid := leAt l 4 4, sqMask := leAt l 8 4, jobq := leAt l 12 1, ranges := rs, dmaMask := leAt l 16 8,
                        ringMask := leAt l 24 32, nsMask := leAt l 56 8, connq := leAt l 64 4, raw := l })
  else none

/-- What other coves hold or have reserved (R321, R330, R331). -/
def Dev.others (d : Dev) (n : Nat) : List CoveCfg :=
  d.coves.flatMap fun c => if c.1 = n ∨ c.2.state = 0 then [] else c.2.cfg :: (c.2.resize.map (·.2.2)).toList

/-- R323 for a record: every range in one region, a writable one overlapping no range of another cove. -/
def Dev.rangesOk (d : Dev) (n : Nat) (g : CoveCfg) : Bool :=
  g.ranges.all fun r => (inUserMem r.base r.size || inHarbour r.base r.size || inSram r.base r.size)
    && (d.others n).all fun o => o.ranges.all fun q => !((r.w || q.w) && r.meets q)

/-- An exclusive resource added is owned or reserved elsewhere, or in use by the driver (Table 12.1, Table 12.4). -/
def Dev.taken (d : Dev) (n : Nat) (old new : CoveCfg) : Bool :=
  let o := d.others n
  let add (a b k : Nat) : List Nat := (bitList a k).filter fun i => !bitN b i
  ((add new.sqMask old.sqMask 32).any fun i => (d.core i).running || o.any fun g => bitN g.sqMask i)
    || ((add new.dmaMask old.dmaMask 64).any fun i => (d.eng i).active || (d.eng i).posted || o.any fun g => bitN g.dmaMask i)
    || ((add new.ringMask old.ringMask 256).any fun i => (d.ring i).enabled || o.any fun g => bitN g.ringMask i)
    || ((add new.nsMask old.nsMask 64).any fun i => d.b (nsReg i 0x11c) 0 || o.any fun g => bitN g.nsMask i)
    || decide (65536 < new.connq + (o.map (·.connq)).sum)

/-- The contexts of a cove that are not CLOSED (Table 12.1). -/
def Dev.coveCtxs (d : Dev) (n : Nat) : List Nat := d.liveCtxs.filter fun c => d.cOwner c == some n

/-- A resource to be removed is still in use (R330). -/
def Dev.inUse (d : Dev) (n : Nat) (old new : CoveCfg) : Bool :=
  let del (a b k : Nat) : List Nat := (bitList a k).filter fun i => !bitN b i
  ((del old.sqMask new.sqMask 32).any fun i => (d.core i).running)
    || ((del old.ringMask new.ringMask 256).any fun i => (d.ring i).enabled)
    || decide (new.connq < (d.coveCtxs n).length)
    || ((del old.nsMask new.nsMask 64).any fun i => d.nvt.ctls.any fun x =>
          d.nsAttached x i && d.nvt.conns.any fun c => c.ctl == some x.id && c.qid ≠ 0)

/-- A new sealing key (R229, R334). -/
def Dev.drawKey (d : Dev) : Nat × Dev := (Config.sealKey d.fresh % 2 ^ 128, { d with fresh := d.fresh + 1 })

/-- The record in a command's buffer, checked so far as it stands alone: its status, or the cove and what it names
(R322). -/
def Dev.cfgOf (d : Dev) (c : Cmd) : (Nat ⊕ (Nat × CoveCfg)) × Dev :=
  if c.buflen < 384 then (.inl 0x0002, d)
  else if c.buf % 64 ≠ 0 || !inUserMem c.buf 384 || d.coves.any (fun k => decide (k.2.state ≠ 0) && k.2.cfg.ranges.any fun r =>
      r.meets ⟨c.buf, 384, true⟩) then (.inl 0x0010, d)
  else
    let (l, bad, d1) := d.memRead pgFWR 0x40 c.buf 384
    match if bad then none else parseCfg l with
    | none => (.inl 0x0002, d1)
    | some x => (.inr x, d1)

/-- COVE_MODE_WRITE (R328). -/
def Dev.coveMode (d : Dev) (fixed : Bool) : Dev :=
  if d.coves.any fun c => c.2.state ≠ 0 then d.configRefused pgCOV none 0x100 else d.sb (pgCOV + 0x100) 0 fixed

/-- COVE_MODE_WRITE (R328). -/
def execCoveModeWrite (fixed : Bool) (s : State) : Res := lift (fun d => d.onReg (pgCOV + 0x100) fun d => d.coveMode fixed) s

/-- A cove created ACTIVE, with a sealing key, its engines, and no measurement (R320, R329, R498). -/
def Dev.createCove (d : Dev) (n : Nat) (g : CoveCfg) : Dev :=
  let (k, d1) := d.drawKey
  let d2 := (d1.setCove n { state := 1, cfg := g, sealKey := k, peerHold := (d.cove n).peerHold }).setOwner g.dmaMask (some n)
  { d2 with sec := { d2.sec with pmr := (n, (0, 0)) :: d2.sec.pmr.filter (·.1 ≠ n) } }

/-- COVE_CREATE (R320 to R323, R328, R329). -/
def execCoveCreate (cid : Nat) (s : State) : Res :=
  lift (fun d => d.admin cid 0x0100 fun c d =>
    match d.cfgOf c with
    | (.inl st, d) => d.complete 0 cid st 0
    | (.inr (n, g), d) =>
      if (d.cove n).state ≠ 0 || d.coves.any fun k => k.2.state ≠ 0 && k.2.cfg.pasid == g.pasid then d.complete 0 cid 0x0100 0
      else if !d.b (pgCOV + 0x100) 0 && !d.feature 1 then d.complete 0 cid 0x0005 0
      else if d.taken n {} g then d.complete 0 cid 0x0102 0
      else if !d.rangesOk n g then d.complete 0 cid 0x0103 0
      else (d.createCove n g).complete 0 cid 0 0) s

/-- Emham work of a cove that is open: its requests, incoming messages of its regions, and responses of them (R331). -/
def Dev.emhWork (d : Dev) (n : Nat) : List (Nat × Nat × Nat) :=
  d.emh.ctx.flatMap fun x =>
    (if d.cOwner x.conn == some n then (x.reqs ++ x.stalled.toList).map fun r => (0, x.conn, r.msn) else [])
      ++ (x.rx.filter fun m => m.op == 2 && m.nak.isNone && d.regOwner (m.rkey % 4096) == some n).map (fun m => (1, x.conn, m.msn))
      ++ (x.tx.filter fun t => t.reg.any fun i => d.regOwner i == some n).map fun t => (2, x.conn, t.pkt.msn)

/-- A cove's new set takes effect (R330, R331): engines removed keep their OWNER while their chains run, and what was posted
to them is discarded; the cove's work begun before is noted. -/
def Dev.applyResize (d : Dev) (n : Nat) : Dev :=
  let c := d.cove n
  match c.resize with
  | none => d
  | some (cid, t, g) =>
    if c.resizeDone then d
    else
      let old := c.cfg
      let gone := (bitList old.dmaMask 64).filter fun i => !bitN g.dmaMask i
      let d1 := d.setCove n { c with cfg := g, resize := some (cid, t, old), resizeDone := true, resizeSeq := d.xc.seq,
                                        resizeWork := d.emhWork n }
      let d2 := d1.each gone fun i d => if (d.eng i).posted then d.dmaDiscard i else d
      let d2 := d2.each (List.range 64) fun i d =>
        if (d.eng i).active && (d.eng i).owner == some n then d.setEng i { d.eng i with old := true } else d
      let d3 := (d2.setOwner (gone.foldl (fun m i => if (d2.eng i).active then m else m + 2 ^ i) 0) none).setOwner
        ((bitList g.dmaMask 64).foldl (fun m i => if bitN old.dmaMask i then m else m + 2 ^ i) 0) (some n)
      let cores := d3.cores.zipIdx.map fun (k, i) =>
        if bitN old.sqMask i && !bitN g.sqMask i && decide (i < 32) then { k with launched := false, part := false } else k
      ({ d3 with cores := cores } : Dev).inc (pgCOV + 0x904)

/-- A cove's resize accepted: it waits for its tide, or takes effect at once (R329, R330). -/
def Dev.beginResize (d : Dev) (n cid : Nat) (c : Cmd) (g : CoveCfg) : Dev :=
  let t := if c.arm then some c.tide else none
  let d1 := (d.hold c).setCove n { d.cove n with resize := some (cid, t, g), resizeDone := false }
  if c.arm then d1 else d1.applyResize n

/-- COVE_RESIZE (R329, R330). -/
def execCoveResize (cid : Nat) (s : State) : Res :=
  lift (fun d => d.admin cid 0x0102 fun c d =>
    match d.cfgOf c with
    | (.inl st, d) => d.complete 0 cid st 0
    | (.inr (n, g), d) =>
      let k := d.cove n
      if k.state = 0 then d.complete 0 cid 0x0101 0
      else if k.state ≠ 1 && k.state ≠ 3 then d.complete 0 cid 0x0105 0
      else if d.b (pgCOV + 0x100) 0 then d.complete 0 cid 0x0104 0
      else if g.pasid ≠ k.cfg.pasid then d.complete 0 cid 0x0002 0
      else if !c.arm && !d.slackNow then d.complete 0 cid 0x0007 0
      else if k.resize.isSome || d.taken n k.cfg g || d.inUse n k.cfg g then d.complete 0 cid 0x0102 0
      else if !d.rangesOk n g then d.complete 0 cid 0x0103 0
      else
        d.beginResize n cid c g) s

/-- The engines a resize took from a cove. -/
def Dev.enginesGone (d : Dev) (n : Nat) (old : CoveCfg) : List Nat :=
  (bitList old.dmaMask 64).filter fun i => !bitN (d.cove n).cfg.dmaMask i

/-- Work of a cove begun before its resize has not ended (R331): chains, jobs, Emham work. -/
def Dev.resizeBusy (d : Dev) (n : Nat) : Bool :=
  (List.range 64).any (fun i => (d.eng i).active && (d.eng i).old && (d.eng i).owner == some n)
    || (d.emhWork n).any (fun k => (d.cove n).resizeWork.contains k)
    || (d.xc.queue ++ d.xc.run.map (·.q) ++ d.xch.queue ++ d.xch.run.map (·.q)).any fun j =>
        j.cove == some n && decide (j.seq < (d.cove n).resizeSeq)

/-- COVE_RESIZE_COMPLETE (R331): all work begun before the boundary has ended; the engines removed are the driver's. -/
def execCoveResizeComplete (n : Fin 64) (s : State) : Res :=
  lift (fun d =>
    match (d.cove n).resize with
    | none => d
    | some (cid, _, old) =>
      let gone := d.enginesGone n old
      d.when ((d.cove n).resizeDone && d.fwRunning && !d.safe && !d.resizeBusy n) fun d =>
        ((d.setOwner (gone.foldl (fun m i => m + 2 ^ i) 0) none).setCove n
          { d.cove n with resize := none, resizeDone := false, resizeWork := [] }).complete 0 cid 0 0) s

/-- A cove marked RESETTING and its work purged (R333, Table 12.5). -/
def Dev.coveReset (d : Dev) (n : Nat) (cid destroy : Option Nat) : Dev :=
  let c := d.cove n
  let d1 := d.setCove n { c with state := 4, peerHold := true, wasFrozen := c.state == 3, opCid := cid, destroy := destroy, freezeCid := none }
  let d2 := match c.freezeCid with | some k => d1.complete 0 k 0x0108 0 | none => d1
  let cores := d2.cores.zipIdx.map fun (k, i) =>
    if bitN c.cfg.sqMask i && decide (i < 32) then { k with running := false } else k
  let mineCtx := d2.coveCtxs n
  let d3 := (((({ d2 with cores := cores } : Dev).unqueueOf mineCtx.contains).abortJobs n).xAbort n).dmaAbort n
  let d4 := d3.each mineCtx fun x d => d.connReset x
  let mine := d4.fw.fetched.filter fun k => bitN c.cfg.ringMask k.pair
  ((d4.each mine fun k d => d.complete k.pair k.cid 0x0108 0).inc (pgCOV + 0x900)).checkDone

/-- The cove a command names in byte 0, for a command that needs it in one of some states (Table 12.3). -/
def Dev.coveCmd (d : Dev) (cid opc : Nat) (states : List Nat) (f : Nat → Cmd → Dev → Dev) : Dev :=
  d.admin cid opc fun c d =>
    let n := leAt c.param 0 1
    if 63 < n then d.complete 0 cid 0x0002 0
    else if (d.cove n).state = 0 then d.complete 0 cid 0x0101 0
    else if !states.contains (d.cove n).state then d.complete 0 cid 0x0105 0
    else f n c d

/-- COVE_RESET (R333). -/
def execCoveReset (cid : Nat) (s : State) : Res :=
  lift (fun d => d.coveCmd cid 0x0103 [1, 2, 3] fun n c d =>
    if c.arm then d.complete 0 cid 0x0002 0 else (d.hold c).coveReset n (some cid) none) s

/-- COVE_DESTROY (R335): of a cove being reset, the destruction follows that reset. -/
def execCoveDestroy (cid : Nat) (s : State) : Res :=
  lift (fun d => d.coveCmd cid 0x0101 [1, 2, 3, 4] fun n c d =>
    if (d.cove n).state = 4 then
      if (d.cove n).destroy.isSome then d.complete 0 cid 0x0105 0
      else (d.hold c).setCove n { d.cove n with destroy := some cid }
    else (d.hold c).coveReset n none (some cid)) s

/-- A cove released (R335, R423, R498). PEER_HOLD stays until WIN is next committed (R334). -/
def Dev.coveRelease (d : Dev) (n : Nat) : Dev :=
  let c := d.cove n
  let armed := (c.resize.map (·.1)).toList ++ (c.freezeAt.map (·.1)).toList ++ (c.thawAt.map (·.1)).toList
  let d1 := d.each armed fun k d => d.complete 0 k 0x0108 0
  let d2 := d1.each ((bitList c.cfg.ringMask 256).filter fun q => q ≠ 0) fun q d => d.dropRing q
  let d3 := d2.setOwner (c.cfg.dmaMask ||| (c.resize.elim 0 (·.2.2.dmaMask))) none
  let d4 := d3.each (List.range 64) fun i d =>
    if d.b (nsReg i 0x11c) 11 && d.g (nsReg i 0x11c) 5 6 == n then d.nsRemove i else d
  let gone := (d4.trc.tensors.filter fun t => t.2.cove == some n).map (·.1)
  let cores := d4.cores.zipIdx.map fun (k, i) =>
    if bitN c.cfg.sqMask i && decide (i < 32) then { k with launched := false, part := false } else k
  let d5 := d4.dropArms fun a => gone.contains a.tensor
  { d5 with
    cores := cores
    coves := if c.peerHold then (d4.setCove n { peerHold := true }).coves else d4.coves.filter (·.1 ≠ n)
    sec := { d4.sec with pmr := d4.sec.pmr.filter (·.1 ≠ n) }
    trc := { d5.trc with tensors := d4.trc.tensors.filter fun t => !gone.contains t.1 } }

/-- A cove purged: its work counts as ended, its KV groups are resolved, it has a new key, its commands complete (R333 to
R335). -/
def Dev.purged (d : Dev) (n : Nat) : Dev :=
  let d := d.kvPurge n
  let mine := d.xc.run.filter fun r => r.q.cove == some n
  let run := d.xc.run.map fun (r : RunJob) => if r.q.cove = some n then { r with wait := false } else r
  let d0 := { d with xc := { d.xc with run := run } }
  let d1 := (d0.each mine fun r d => d.jobEnd r.q.cl r.q.seq).dmaAbort n
  let (k, d2) := d1.drawKey
  let c := d2.cove n
  let d3 := (d2.setCove n { c with state := if c.wasFrozen then 3 else 1, opCid := none, wasFrozen := false }).giveKey n k
  let d4 := match c.opCid with | some x => d3.complete 0 x 0 0 | none => d3
  (match c.destroy with
  | some x => (d4.coveRelease n).complete 0 x 0 0
  | none => d4).checkDone

/-- COVE_PURGE_DEADLINE (R333, R334, R335): what is unanswered counts as answered; a new seal key; the commands
complete. -/
def execCovePurgeDeadline (n : Fin 64) (s : State) : Res :=
  lift (fun d => d.when ((d.cove n).state == 4 && d.fwRunning && !d.safe) fun d => d.purged n) s

/-- The freeze point of a cove (R336). -/
def Dev.coveFreeze (d : Dev) (n cid : Nat) : Dev :=
  let d1 := d.freezeCove n
  let d2 := d1.setCove n { d1.cove n with freezeCid := some cid, freezeAt := none }
  (d2.each (d2.coveCtxs n) fun x d => d.freezeCheck x).checkDone

/-- COVE_FREEZE (R336). -/
def execCoveFreeze (cid : Nat) (s : State) : Res :=
  lift (fun d => d.coveCmd cid 0x0104 [1] fun n c d =>
    if c.arm then
      if (d.cove n).freezeAt.isSome then d.complete 0 cid 0x0105 0
      else (d.hold c).setCove n { d.cove n with freezeAt := some (cid, c.tide) }
    else (d.hold c).coveFreeze n cid) s

/-- Jobs, chains or posted sets of a cove have not ended (R336). -/
def Dev.coveBusy (d : Dev) (n : Nat) : Bool :=
  ((d.xc.queue ++ d.xc.run.map (·.q) ++ d.xch.queue ++ d.xch.run.map (·.q)).any fun j => j.cove == some n)
    || (List.range 64).any fun i =>
      ((d.eng i).active && (d.eng i).owner == some n) || ((d.eng i).posted && d.engOwner i == some n)

/-- COVE_FREEZE_COMPLETE (R336): jobs, chains and posted sets accepted before have ended. -/
def execCoveFreezeComplete (n : Fin 64) (s : State) : Res :=
  lift (fun d =>
    d.when ((d.cove n).state == 2 && d.fwRunning && !d.safe && !d.coveBusy n) fun d =>
      let d1 := (d.setCove n { d.cove n with state := 3, freezeCid := none }).inc (pgCOV + 0x908)
      match (d.cove n).freezeCid with
      | some x => d1.complete 0 x 0 0
      | none => d1) s

/-- A frozen cove active again: its connections resume (R337, Table 14.8). -/
def Dev.coveThaw (d : Dev) (n : Nat) : Dev :=
  let d1 := d.setCove n { d.cove n with state := 1, thawAt := none }
  d1.each (d1.coveCtxs n) fun x d => if d.cState x = 5 then (d.established x).pump x else d

/-- COVE_THAW (R337). -/
def execCoveThaw (cid : Nat) (s : State) : Res :=
  lift (fun d => d.coveCmd cid 0x0105 [3] fun n c d =>
    if c.arm then
      if (d.cove n).thawAt.isSome then d.complete 0 cid 0x0105 0
      else (d.hold c).setCove n { d.cove n with thawAt := some (cid, c.tide) }
    else (d.coveThaw n).complete 0 cid 0 0) s

/-- Bytes 120 to 255 of a context in a save image: its acknowledgement ranges and the messages it has completed, of which
a context with nothing in flight holds no more (Table 14.4; DESIGN CHOICE, log entry 61). -/
def ctxExtra (x : Ctx) (cum : Nat) : List Byte :=
  let up (l : List Nat) : List Nat := l.eraseDups.mergeSort fun p q => decide (p ≤ q)
  let a := (psnRuns (up (x.ahead.map fun p => (p + 2 ^ 32 - cum) % 2 ^ 32))).take 16
  let m := (psnRuns (up x.done)).take 8
  [BitVec.ofNat 8 (b2n x.ntPhase), BitVec.ofNat 8 a.length, BitVec.ofNat 8 m.length, 0]
    ++ padTo 64 (a.flatMap fun r => leBytes r.1 2 ++ leBytes r.2 2) ++ padTo 64 (m.flatMap fun r => leBytes r.1 4 ++ leBytes r.2 4)
    ++ List.replicate 4 0

/-- The numbers of `k` runs kept at byte `o` of a context, of `w` bytes each end. -/
def runsAt (l : List Byte) (o w k : Nat) : List Nat :=
  (List.range k).flatMap fun i =>
    let a := leAt l (o + 2 * w * i) w
    (List.range (leAt l (o + 2 * w * i + w) w + 1 - a)).map (a + ·)

/-- The save image of a frozen cove (Table 12.6), and whether a context in it was read poisoned. -/
def Dev.saveImage (d : Dev) (n : Nat) : List Byte × Bool × Dev :=
  let c := d.cove n
  let rings := (bitList c.cfg.ringMask 256)
  let sqs := bitList c.cfg.sqMask 32
  let ctxs := d.coveCtxs n
  let size := 432 + 16 * rings.length + 576 * sqs.length + 256 * ctxs.length
  let ringB := rings.flatMap fun q =>
    let r := d.ring q
    leBytes q 1 ++ [0] ++ leBytes r.sqHead 2 ++ leBytes r.sqTail 2 ++ leBytes r.cqHead 2 ++ leBytes r.cqTail 2
      ++ [BitVec.ofNat 8 (b2n r.phase)] ++ List.replicate 5 0
  let sqB := sqs.flatMap fun i => stateImage (d.core i)
  let (ctxB, bad, d1) := ctxs.foldl (fun (x : List Byte × Bool × Dev) k =>
    let (l, bad, e) := x.2.2.memRead pgFWR 0x40 (d.ctxAddr k) 256
    (x.1 ++ l.take 120 ++ ctxExtra (e.ctx k) (e.cf k 112 4), x.2.1 || bad, e)) ([], false, d)
  let tail := padTo 384 c.cfg.raw ++ leBytes c.sealKey 16 ++ ringB ++ sqB ++ ctxB
  (leBytes 0x4b435631 4 ++ leBytes d.fw.image.ifMaj 1 ++ leBytes d.fw.image.ifMin 1 ++ leBytes rings.length 2
    ++ leBytes ctxs.length 4 ++ leBytes size 4 ++ leBytes c.freezeTide.toNat 8 ++ leBytes (crc32c tail) 4
    ++ List.replicate 4 0 ++ tail, bad, d1)

/-- COVE_SAVE (R338). -/
def execCoveSave (cid : Nat) (s : State) : Res :=
  lift (fun d => d.coveCmd cid 0x0106 [3] fun n c d =>
    let (img, bad, d1) := d.saveImage n
    if c.buflen < img.length then d.complete 0 cid 0x0002 0
    else if !d.inScratch c.buf img.length || !inUserMem c.buf img.length || !d.clearOfCoves c.buf img.length then d.complete 0 cid 0x0010 0
    else (d1.memWrite pgFWR 0x40 c.buf img bad).complete 0 cid 0 img.length) s

/-- The two configurations have one shape (R340). -/
def sameShape (a b : CoveCfg) : Bool :=
  popN a.sqMask 32 == popN b.sqMask 32 && popN a.dmaMask 64 == popN b.dmaMask 64 && popN a.ringMask 256 == popN b.ringMask 256
    && popN a.nsMask 64 == popN b.nsMask 64 && a.jobq == b.jobq && a.connq == b.connq && a.ranges == b.ranges

/-- A context loaded from a save image, owned by its new cove (Table 14.8). -/
def Dev.loadCtx (d : Dev) (n k : Nat) (l : List Byte) : Dev :=
  let d1 := (d.memWrite pgFWR 0x40 (d.ctxAddr k) (l.take 120) false).setCf k 2 1 (setFieldN (leAt l 2 1) 0 7 (64 + n))
  let cum := leAt l 112 4
  d1.setCtx { conn := k, rep := d1.bytes (d1.ctxAddr k) 80, ntPhase := bitN (leAt l 120 1) 0
              ahead := (runsAt l 124 2 (min 16 (leAt l 121 1))).map fun p => (cum + p) % 2 ^ 32
              done := runsAt l 188 4 (min 8 (leAt l 122 1)) }

/-- Contexts that the table names as a cove's, CLOSED ones with it: those with a listed byte. -/
def Dev.namedCtxs (d : Dev) (n : Nat) : List Nat :=
  let b := d.ctxAddr 0
  ((d.mem.filterMap fun c => if b ≤ c.1 ∧ c.1 < b + 16777216 then some ((c.1 - b) / 256) else none).eraseDups.filter fun k =>
    d.cOwner k == some n).mergeSort fun a b => decide (a ≤ b)

/-- A failed COVE_RESTORE (R340). -/
def Dev.restoreBad (d : Dev) (cid status : Nat) : Dev := (d.setErr pgCOV 1).complete 0 cid status 0

/-- A save image is not one this firmware may restore (R340). -/
def Dev.saveBad (d : Dev) (l : List Byte) (bad : Bool) : Bool :=
  let size := leAt l 12 4
  bad || leAt l 0 4 ≠ 0x4b435631 || l.length < size || size < 432 || leAt l 4 1 ≠ d.fw.image.ifMaj
    || crc32c ((l.take size).drop 32) ≠ leAt l 24 4

/-- A save image restored into a cove: its key, its rings, and `nc` contexts from byte `o` of the image (R340). -/
def Dev.loadSave (d : Dev) (n : Nat) (l : List Byte) (o nc : Nat) : Dev :=
  let k := d.cove n
  let dst := d.namedCtxs n
  let d1 := d.giveKey n (leAt l 416 16)
  let d2 := d1.each (bitList k.cfg.ringMask 256).zipIdx fun (q, i) d =>
    let o := 432 + 16 * i
    d.setRing q { d.ring q with sqHead := leAt l (o + 2) 2, sqTail := leAt l (o + 4) 2, cqHead := leAt l (o + 6) 2,
                                cqTail := leAt l (o + 8) 2, phase := bitN (leAt l (o + 10) 1) 0 }
  let d3 := d2.each (dst.take nc).zipIdx fun (x, i) d => d.loadCtx n x ((l.drop (o + 256 * i)).take 256)
  d3.inc (pgCOV + 0x90c)

/-- COVE_RESTORE (R340). -/
def execCoveRestore (cid : Nat) (s : State) : Res :=
  lift (fun d => d.coveCmd cid 0x0107 [3] fun n c d =>
    let k := d.cove n
    if k.worked then d.complete 0 cid 0x0105 0
    else if !inUserMem c.buf c.buflen then d.complete 0 cid 0x0010 0
    else
      let (l, bad, d) := d.memRead pgFWR 0x40 c.buf c.buflen
      let size := leAt l 12 4
      let nr := leAt l 6 2
      let nc := leAt l 8 4
      match if d.saveBad l bad then none else parseCfg ((l.drop 32).take 384) with
      | none => d.restoreBad cid 0x0107
      | some (_, g) =>
        let rings := bitList k.cfg.ringMask 256
        let dst := d.namedCtxs n
        let nsq := popN g.sqMask 32
        if size ≠ 432 + 16 * nr + 576 * nsq + 256 * nc then d.restoreBad cid 0x0107
        else if !sameShape g k.cfg || nr ≠ rings.length || dst.length < nc then d.restoreBad cid 0x0106
        else (d.loadSave n l (432 + 16 * nr + 576 * nsq) nc).complete 0 cid 0 0) s

/-- COVE_QUERY (R332). -/
def execCoveQuery (q : Fin 256) (cid : Nat) (s : State) : Res :=
  lift (fun d => match d.cmd? q cid 0x0108 with
    | none => d
    | some c =>
      let n := leAt c.param 0 1
      if !(d.ring q).driver && n ≠ (d.ring q).cove then d.complete q cid 0x0003 0
      else if 63 < n then d.complete q cid 0x0002 0
      else if (d.cove n).state = 0 then d.complete q cid 0x0101 0
      else d.answer c (padTo 384 (d.cove n).cfg.raw) 0) s

/-- COVn_STS as it reads (Table 12.8). -/
def Dev.coveSts (d : Dev) (n : Nat) : Nat :=
  let c := d.cove n
  c.state + b2n c.resize.isSome * 8 + b2n c.peerHold * 16

/-- COVn_RES as it reads. -/
def Dev.coveRes (d : Dev) (n : Nat) : Nat :=
  let g := (d.cove n).cfg
  popN g.dmaMask 64 + popN g.ringMask 256 * 2 ^ 8 + g.jobq * 2 ^ 16 + popN g.nsMask 64 * 2 ^ 24

end Sys2Proof.Machine
end

