-- ==== Sys2Proof/Machine/ErrRows.lean ====
section
/-!
DEFINITION. Machine/ErrRows.lean: the commands and events of recovery: global stop, members, safe state and the margin
planner (chapter 17).
-/
namespace Sys2Proof.Machine

/-! ### Global stop (R455 to R459) -/

/-- The global stop armed on this device (R455). -/
def Dev.armStop (d : Dev) (t : DWord) : Dev :=
  ({ d with err := { d.err with gstopTide := some t } } : Dev).wr 0x5120 1

/-- A stop is armed or cut. -/
def Dev.stopActive (d : Dev) : Bool := d.g 0x5120 0 2 ≠ 0 || d.err.gstopCid.isSome

/-- The tide a command of the headland is armed at: a later one than the current. -/
def Dev.armedAt (d : Dev) (c : Cmd) : DWord := if d.tide.cur < c.tide then c.tide else d.tide.cur + 1

/-- The headland arms a global stop on itself and asks the workers (R455). -/
def Dev.gstop (d : Dev) (cid : Nat) (c : Cmd) : Dev :=
  let t := d.armedAt c
  let d1 := ((d.hold c).armStop t).request { req := 9, cid := cid, tide := t, waiting := d.workers } { ctype := 9, tide := t }
  { d1 with err := { d1.err with gstopCid := some cid, cutWait := d.workers, cutInexact := false, cutLost := false } }

/-- GSTOP (R455). -/
def execGstop (cid : Nat) (s : State) : Res :=
  lift (fun d => d.headCmd cid 0x0300 fun c d =>
    if !c.arm then d.complete 0 cid 0x0002 0
    else if d.stopActive then d.complete 0 cid 0x0303 0
    else d.gstop cid c) s

/-- GSTOP_ARM_MSG (R455). -/
def execGstopArmMsg (src : Nat) (tide : DWord) (s : State) : Res :=
  lift (fun d => d.ctlIn src { ctype := 9, tide := tide } true fun d => d.when d.isWorker fun d =>
    (d.armStop tide).sendCtl src { ctype := 10, dev := d.tide.dev, tide := tide }) s

/-- GSTOP_ACK_MSG (R455). -/
def execGstopAckMsg (src : Nat) (tide : DWord) (s : State) : Res :=
  lift (fun d => d.ctlIn src { ctype := 10, dev := src, tide := tide } false fun d =>
    d.answered src fun o => o.req == 9 && o.tide == tide) s

/-- Emham requests fetched and not complete: those of the snapshot copier and of SERVICE 2 contexts take no part (R456). -/
def Dev.reqsOpen (d : Dev) : Bool :=
  d.liveCtxs.any fun c => d.cService c ≠ 2 &&
    ((d.ctx c).reqs.any (·.job % 8 ≠ 1) || (d.ctx c).stalled.isSome || (d.ctx c).tx.any fun t => t.pkt.op == 1)

/-- Incoming messages begun and not complete, those that await the exchange unit among them. -/
def Dev.rxOpen (d : Dev) : Bool :=
  !d.emh.xin.isEmpty || d.liveCtxs.any fun c => d.cService c ≠ 2 && (d.ctx c).rx.any fun m => m.nak.isNone && !(m.op ≠ 1 && d.inBuddyPool (m.rkey % 4096))

/-- DMA images and chains running. -/
def Dev.dmaOpen (d : Dev) : Bool := (List.range 64).any fun n => (d.eng n).active

/-- The cut: slack, GSTOP_STS.STATE CUT, and the report to the headland (R456). -/
def Dev.cut (d : Dev) : Dev :=
  let d1 := ({ d with slack := { d.slack with cut := true } } : Dev).s 0x5120 0 2 3
  if d.isHead then d1.gstopCheck
  else d1.sendCtl d.tide.headDev { ctype := 11, dev := d.tide.dev, inexact := d.b 0x5120 2, tide := d.err.gstopTide.getD d.tide.cur }

/-- EBB_COMPLETE (R456). -/
def execEbbComplete (s : State) : Res :=
  lift (fun d => d.when (d.g 0x5120 0 2 == 2 && d.fwRunning && !d.safe && !d.reqsOpen && !d.rxOpen && !d.dmaOpen) fun d =>
    d.cut) s

/-- EBB_TIMEOUT (R457): the member cuts anyway; the layout of the mask of units is the spec's to give, so it is free. -/
def execEbbTimeout (s : State) : Res :=
  lift (fun d => d.when (d.g 0x5120 0 2 == 2 && d.fwRunning && !d.safe && (d.reqsOpen || d.rxOpen || d.dmaOpen)) fun d =>
    let (m, d1) := d.freeWord
    ((d1.sb 0x5120 2 true).report pgERR none 0x0015 0x41 m.toNat 0).cut) s

/-- CUT_REPORT_MSG (R456, R457). -/
def execCutReportMsg (src : Nat) (inexact : Bool) (tide : DWord) (s : State) : Res :=
  lift (fun d => d.ctlIn src { ctype := 11, inexact := inexact, dev := src, tide := tide } false fun d =>
    d.when (d.isHead && d.err.cutWait.contains src && d.err.gstopTide == some tide) fun d =>
      ({ d with err := { d.err with cutWait := d.err.cutWait.erase src, cutInexact := d.err.cutInexact || inexact } } : Dev).gstopCheck) s

/-- A device leaves its cut (R459); a lease that expired meanwhile leaves it in lease slack (Table 17.5). -/
def Dev.uncut (d : Dev) : Dev :=
  let d1 := ({ d with err := { d.err with gstopTide := none, stopRecs := [] }, slack := { d.slack with cut := false } } : Dev).s 0x5120 0 2 0
  let d2 := if d1.fw.leaseSlackPend.isSome then d1.enterLease else d1
  d2.resumed

/-- GSTOP_RELEASE (R459): refused while a stop is armed or ebbing (DEDUCED, log entry 43). -/
def execGstopRelease (cid : Nat) (s : State) : Res :=
  lift (fun d => d.headCmd cid 0x0301 fun _ d =>
    if d.err.gstopCid.isSome ∨ d.g 0x5120 0 2 = 1 ∨ d.g 0x5120 0 2 = 2 then d.complete 0 cid 0x0303 0
    else
      let d1 := d.each d.workers fun w d => d.sendCtl w { ctype := 12, tide := d.tide.cur }
      (if d.slack.cut then d1.uncut else d1).complete 0 cid 0 0) s

/-- GSTOP_RELEASE_MSG (R459). -/
def execGstopReleaseMsg (src : Nat) (tide : DWord) (s : State) : Res :=
  lift (fun d => d.ctlIn src { ctype := 12, tide := tide } true fun d => d.when d.slack.cut fun d => d.uncut) s

/-! ### Members (R462, R463) -/

/-- Requests whose every answer has come and that take effect at no later boundary complete. -/
def Dev.opsDone (d : Dev) : Dev :=
  let ovr := d.tide.ctlOps.filter fun o => o.req == 13 && o.waiting.isEmpty && !(d.tide.excluding.any fun e => e.1 == o.dev)
  let d1 := { d with tide := { d.tide with ctlOps := d.tide.ctlOps.filter fun o => !ovr.contains o } }
  d1.each ovr fun o d => d.complete 0 o.cid 0 0

/-- A device excluded by the headland: it awaits nothing of it any more (R462). -/
def Dev.excludeNow (d : Dev) (dev : Nat) : Dev :=
  let ops := d.tide.ctlOps.map fun (o : CtlOp) => { o with waiting := o.waiting.filter (· ≠ dev) }
  let t := { d.tide with ctlOps := ops, excluding := d.tide.excluding.filter (·.1 ≠ dev) }
  ((({ d with tide := t } : Dev).excludePeer dev).memberLost dev).opsDone.ringSettle

/-- The headland excludes a worker, and asks the others (R462). -/
def Dev.exclude (d : Dev) (cid dev : Nat) (c : Cmd) : Dev :=
  let others := d.workers.filter (· ≠ dev)
  let t := if !c.arm then 0 else d.armedAt c
  let d1 := (d.hold c).request { req := 13, cid := cid, tide := t, dev := dev, waiting := others } { ctype := 13, dev := dev, tide := t }
  if c.arm then { d1 with tide := { d1.tide with excluding := d1.tide.excluding ++ [(dev, t)] } } else d1.excludeNow dev

/-- The headland includes a device again, and asks all (R463). -/
def Dev.incl (d : Dev) (cid dev : Nat) (c : Cmd) : Dev :=
  let t := d.armedAt c
  let d1 := (d.hold c).request { req := 14, cid := cid, tide := t, dev := dev, waiting := d.workers ++ [dev] }
    { ctype := 14, dev := dev, tide := t }
  { d1 with tide := { d1.tide with including := d1.tide.including ++ [(dev, t)] } }

/-- MEMBER_EXCLUDE (R462): at once, or at its armed tide. -/
def execMemberExclude (cid : Nat) (s : State) : Res :=
  lift (fun d => d.headCmd cid 0x0302 fun c d =>
    let dev := leAt c.param 0 2
    if !d.workers.contains dev then d.complete 0 cid 0x0302 0
    else
      d.exclude cid dev c) s

/-- MEMBER_EXCLUDE_MSG (R462); a device that hears of its own exclusion holds no buddy assignment any more (R434). -/
def execMemberExcludeMsg (src dev : Nat) (tide : DWord) (s : State) : Res :=
  lift (fun d => d.ctlIn src { ctype := 13, dev := dev, tide := tide } true fun d => d.when d.isWorker fun d =>
    let d1 := if d.tide.cur < tide then { d with tide := { d.tide with excluding := d.tide.excluding ++ [(dev, tide)] } }
      else if dev = d.tide.dev then d.dropAssignment
      else d.excludePeer dev
    d1.sendCtl src { ctype := 15, dev := d.tide.dev, arg := 13, tide := tide }) s

/-- MEMBER_INCLUDE (R463). -/
def execMemberInclude (cid : Nat) (s : State) : Res :=
  lift (fun d => d.headCmd cid 0x0303 fun c d =>
    let dev := leAt c.param 0 2
    if !c.arm then d.complete 0 cid 0x0002 0
    else if !d.tide.excluded.contains dev || d.tide.including.any (·.1 == dev) then d.complete 0 cid 0x0302 0
    else d.incl cid dev c) s

/-- MEMBER_INCLUDE_MSG (R463): the device included accepts it in slack. -/
def execMemberIncludeMsg (src dev : Nat) (tide : DWord) (s : State) : Res :=
  lift (fun d => d.ctlIn src { ctype := 14, dev := dev, tide := tide } true fun d =>
    d.when (d.isWorker && (dev ≠ d.tide.dev || d.slackNow)) fun d =>
      ({ d with tide := { d.tide with including := d.tide.including ++ [(dev, tide)] } } : Dev).sendCtl src
        { ctype := 15, dev := d.tide.dev, arg := 14, tide := tide }) s

/-- MEMBER_ACK_MSG (R462, R463): `arg`: the CTYPE answered. -/
def execMemberAckMsg (src arg : Nat) (tide : DWord) (s : State) : Res :=
  lift (fun d => d.ctlIn src { ctype := 15, dev := src, arg := arg, tide := tide } false fun d =>
    (d.answered src fun o => o.req == arg && [13, 14].contains o.req && o.tide == tide).opsDone) s

/-! ### Safe state, escalation slack, the ring -/

/-- Escalation slack is left (R448). -/
def Dev.errResume (d : Dev) : Dev :=
  let d1 := { d with fw := { d.fw with escalSlackPend := none } }
  if d1.slack.escal then ({ d1 with slack := { d1.slack with escal := false } } : Dev).resumed else d1

/-- ERR_RESUME (R448). -/
def execErrResume (s : State) : Res := lift (fun d => d.onReg 0x5100 fun d => d.errResume) s

/-- A write of REC_TAIL (R467). -/
def Dev.recTail (d : Dev) (v : Nat) : Dev :=
  (d.wr 0x5110 (BitVec.ofNat 32 (v % 256))).s 0x510c 8 9 ((d.g 0x510c 0 8 + 256 - v % 256) % 256)

/-- REC_TAIL_WRITE (R467). -/
def execRecTailWrite (val : Word) (s : State) : Res :=
  lift (fun d => d.onReg 0x5110 fun d => d.recTail val.toNat) s

/-- The 64 bytes of an error record (Table 17.2). -/
def ErrRec.bytes (r : ErrRec) : List Byte :=
  leBytes r.seq 4 ++ leBytes r.cls 1 ++ leBytes (r.base + 4 * b2n r.escal + 8 * b2n r.hist) 1 ++ leBytes r.domain 1 ++ [0]
    ++ leBytes r.srcType 2 ++ leBytes r.srcInst 1 ++ [0] ++ leBytes r.code 2 ++ leBytes r.count 2 ++ leBytes r.ts.toNat 8
    ++ leBytes r.tide.toNat 8 ++ leBytes r.info0.toNat 8 ++ leBytes r.info1.toNat 8 ++ List.replicate 16 0

/-- SAFE_STS as it reads (Table 17.9). -/
def Dev.safeSts (d : Dev) : Nat := setFieldN (d.rd 0x5104).toNat 1 1 (b2n d.warmOk)

end Sys2Proof.Machine
end

