-- ==== Sys2Proof/Machine/MemRows.lean ====
section
/-!
DEFINITION. Machine/MemRows.lean: the memory port dies: scrubbing, retraining, speed bins, failing sites, injected errors
(chapter 7), die-link retries (R30) and the margin planner (R464, R465).
-/
namespace Sys2Proof.Machine

/-- Page of the MPD of site `n`. -/
def mpdOf (n : Nat) : Nat := pgMPD (n / 4)

/-- LAST_ERR of the MPD of site `n`: channel, kind, site offset. -/
def Dev.lastErrAt (d : Dev) (n c kind off : Nat) : Dev :=
  let p := mpdOf n
  ((d.wr (p + 0x12c) (BitVec.ofNat 32 (n % 4 + c * 4 + kind * 256))).wr (p + 0x130) (BitVec.ofNat 32 off)).wr
    (p + 0x134) (BitVec.ofNat 32 (off / 2 ^ 32 % 32))

/-- A site is trained, filled and has not failed. -/
def Dev.siteReady (d : Dev) (n : Nat) : Bool := d.b (siteSts n) 0 && !d.b (siteSts n) 1

/-- Site `n` fails (R213). -/
def Dev.siteFail (d : Dev) (n : Nat) : Dev :=
  let d1 := ((d.sb (siteSts n) 1 true).sb (siteSts n) 0 false).s (siteSts n) 16 16 0
  ({ d1 with retrained := d1.retrained.filter (·.1 ≠ n) } : Dev).report (mpdOf n) (some 4) 0x0020 0x41 n 0

/-- A link CRC error survived three retries: the channel is retrained, and requests to it wait (R206, R210). -/
def Dev.retrainBegin (d : Dev) (n c off : Nat) : Dev :=
  let d1 := ((d.incBy (siteCnt n 0) 3).setErr (mpdOf n) 0).lastErrAt n c 1 off
  (d1.sb (siteSts n) (16 + c) true).inc (siteCnt n 0x18)

/-- A read meets `k` link CRC errors: up to three are cured by retries; with more the channel is retrained and the read
waits (R206). Answers whether the read may go on. -/
def Dev.linkErrors (d : Dev) (a k : Nat) : Bool × Dev :=
  if areaOf a ≠ .device ∨ k = 0 then (true, d)
  else if k ≤ 3 then (true, d.linkRetries a k)
  else
    let (n, o) := siteOf d.fw.layout a
    (false, d.retrainBegin n (channelOf o) o)

/-- CHANNEL_RETRAIN_DONE (R210): the error is corrected, so it is counted and recorded as such (Table 7.4). -/
def execChannelRetrainDone (n c : Fin 16) (s : State) : Res :=
  lift (fun d => d.when (d.b (siteSts n) (16 + c)) fun d =>
    let d1 := d.sb (siteSts n) (16 + c) false
    ({ d1 with retrained := d1.retrained.filter (· ≠ (n.val, c.val)) } : Dev).report (mpdOf n) none 0x0004 0x41 3 0) s

/-- RETRAIN_TIMEOUT (R210): a retraining that failed is made once more; a second failure fails the site. -/
def execRetrainTimeout (n c : Fin 16) (s : State) : Res :=
  lift (fun d => d.when (d.b (siteSts n) (16 + c)) fun d =>
    let d1 := (d.setErr (mpdOf n) 3).lastErrAt n c 4 0
    if d1.retrained.contains (n.val, c.val) then d1.siteFail n
    else ({ d1 with retrained := d1.retrained ++ [(n.val, c.val)] } : Dev).inc (siteCnt n 0x18)) s

/-- SITE_STOPS_ANSWERING (R213). -/
def execSiteStopsAnswering (n : Fin 16) (s : State) : Res :=
  lift (fun d => d.when (d.siteReady n) fun d => d.siteFail n) s

/-- SITE_TEMPERATURE_CHANGE (R189): above 85 °C the refresh interval is halved. -/
def execSiteTemperatureChange (n : Fin 16) (hot : Bool) (s : State) : Res :=
  lift (fun d => d.when (d.siteReady n) fun d => d.sb (siteSts n) 2 hot) s

/-- Granules of a site that hold data (R188). -/
def siteGranules : Nat := 396361728

/-- The scrubber of a site moves to its next granule; SCRUB_POS counts in units of 4 KiB (Table 7.5). -/
def Dev.scrubNext (d : Dev) (n : Nat) : Dev :=
  let p := (d.scrub.getD n 0 + 1) % siteGranules
  let d1 := ({ d with scrub := d.scrub.set n p } : Dev).wr (mpdOf n + 0x118 + 4 * (n % 4)) (BitVec.ofNat 32 (p / 16))
  if p = 0 then d1.inc (siteCnt n 0x1c) else d1

/-- The scrubber of site `n` reads the granule at site offset `o`, address `a` (R207, R208). -/
def Dev.scrubRead (d : Dev) (n ecc o a : Nat) : Dev :=
  let d2 := d.readInject a
  let d3 := if ecc = 1 then d2.upsetRec a (.dramCe n (channelOf o))
    else if ecc = 2 then (d2.setMark (a / 256) .poison).upsetRec a (.dramUe n (channelOf o)) else d2
  let d4 := if d3.mark (a / 256) = .bad then
      (((d3.setMark (a / 256) .poison).inc (siteCnt n 0x10)).inc (siteCnt n 0xc)).lastErrAt n (channelOf o) 3 o
        |>.report (mpdOf n) (some 2) 0x0001 0x41 (a / 256 * 256) (0x11 * 2 ^ 16 + n / 4)
    else d3
  d4.scrubNext n

/-- An error of the check-word engine or scrubber of MPD `m` itself: fatal (Table 7.4). -/
def Dev.engineFail (d : Dev) (m : Nat) : Dev := d.report (pgMPD m) (some 5) 0x0022 0x41 m 0

/-- SCRUB_STEP (R207, R208): the next granule of site `n` is read, with `links` link CRC errors; on-die ECC corrected the
read, or found it uncorrectable (`ecc` 1, 2); or the MPD's self-check finds its check-word engine or scrubber in error (3). It
is an operation of the MPD, so none begins while a boundary holds (R60). -/
def execScrubStep (n : Fin 16) (links : Nat) (ecc : Fin 4) (s : State) : Res :=
  lift (fun d =>
    let o := 256 * d.scrub.getD n 0
    let a := addrOfSite d.fw.layout n o
    let pg := mpdOf n
    d.when (d.siteReady n && !d.safe && !d.tide.hold && d.b (pg + 0x104) 0 && d.starts pg && !d.b (siteSts n) (16 + channelOf o)) fun d =>
      let (go, d1) := d.linkErrors a links
      if ecc = 3 then d.engineFail (n / 4) else if !go then d1 else d1.scrubRead n ecc o a) s

/-- A request of a bin: PENDING while it differs from CUR (R211). -/
def Dev.binReq (d : Dev) (m v : Nat) : Dev :=
  let k := pgMPD m + 0x100
  let d1 := d.writeReg k v
  d1.sb k 6 (d1.g k 0 2 ≠ d1.g k 4 2)

/-- BIN_REQ_WRITE (R211). -/
def execBinReqWrite (m : Fin 4) (val : Word) (s : State) : Res :=
  lift (fun d => d.onReg (pgMPD m + 0x100) fun d => d.binReq m val.toNat) s

/-- Each of the sixteen channels of the four sites of an MPD is retrained. -/
def Dev.trainAll (d : Dev) (m : Nat) : Dev :=
  d.each (List.range 4) fun j d => d.incBy (siteCnt (4 * m + j) 0x18) 16

/-- MPD `m` goes to the bin requested, or stays at its bin where the retraining fails (R211, R212). -/
def Dev.binChange (d : Dev) (m : Nat) (failed : Bool) : Dev :=
  let k := pgMPD m + 0x100
  let d0 := (d.trainAll m).sb k 6 false
  if failed then ((d0.setErr (pgMPD m) 3).lastErrAt (4 * m) 0 4 0).trainAll m
  else
    let b := d0.g k 0 2
    let bins := d0.pwr.norBins.set m b
    ({ d0 with pwr := { d0.pwr with norBins := bins } } : Dev).s k 4 2 b

/-- BIN_CHANGE (R211, R212): the firmware changes every MPD with PENDING set, in slack; `failed`: MPDs whose retraining at
the new bin fails; `dead`: sites whose retraining at the previous bin then fails too. -/
def execBinChange (failed dead : List Nat) (s : State) : Res :=
  lift (fun d =>
    let pend := (List.range 4).filter fun m => d.b (pgMPD m + 0x100) 6
    d.when (d.fwRunning && !d.safe && d.slackNow && !pend.isEmpty) fun d =>
      let d1 := d.each pend fun m d => d.binChange m (failed.contains m)
      let d2 := d1.sb 0x5128 13 false
      d2.each (dead.filter fun n => decide (n < 16) && failed.contains (n / 4) && pend.contains (n / 4)) fun n d =>
        d.siteFail n) s

/-- A write of ERR_INJ: ARM arms an injection; KIND 0 cancels one (R217). -/
def Dev.injWrite (d : Dev) (m v : Nat) : Dev :=
  let k := pgMPD m + 0x128
  let d1 := d.writeReg k v
  if d1.g k 6 2 = 0 then d1.sb k 8 false else d1

/-- ERR_INJ_ARM (R217). -/
def execErrInjArm (m : Fin 4) (val : Word) (s : State) : Res :=
  lift (fun d => d.onReg (pgMPD m + 0x128) fun d => d.injWrite m val.toNat) s

/-- DIE_LINK_RETRY (R30): `n` retries on a die link, counted; a link that fails retraining is fatal. -/
def execDieLinkRetry (link n : Nat) (failed : Bool) (s : State) : Res :=
  lift (fun d => d.when d.pwr.started fun d =>
    let c := d.dieRetries.get (fun _ => 0) link
    let l := (link, c + n) :: d.dieRetries.filter (·.1 ≠ link)
    let d1 := { d with dieRetries := l }
    if failed then d1.report pgCNT none 0x0021 0x41 link 0
    else if n = 0 then d1 else d1.report pgCNT none 0x0004 0x41 n 0) s

/-! ### The margin planner (R464, R465) -/

/-- A plan in force is recorded in NOR and MARGIN_REPLAN is written, with the layout of ERR.PLAN. -/
def Dev.replanned (d : Dev) : Dev :=
  let plan := (d.g 0x5128 8 4, d.g 0x5128 0 6)
  ({ d with pwr := { d.pwr with norPlan := plan } } : Dev).report pgERR none 0x0030 0x41 (d.rd 0x5128).toNat 0

/-- MARGIN_PLAN_PERIOD (R464, R465): `low`: a margin is below its threshold; `mpd`: it is that of a channel of this MPD;
`worst`, `monitor`: the worst margin and its monitor. -/
def execMarginPlanPeriod (low : Bool) (mpd : Option (Fin 4)) (worst monitor : Nat) (s : State) : Res :=
  lift (fun d => d.when (d.fwRunning && !d.safe && (d.core 33).running && low) fun d =>
    let v := d.g 0x5128 8 4
    let c := d.g 0x5128 0 6
    if v < 8 then (d.s 0x5128 8 4 (v + 1)).replanned
    else if 48 < c then (d.s 0x5128 0 6 (c - 1)).replanned
    else
      let room := mpd.filter fun m => decide (d.g (pgMPD m + 0x100) 0 2 < 2)
      match room with
      | some m =>
        let d1 := d.binReq m (d.g (pgMPD m + 0x100) 0 2 + 1)
        (d1.sb 0x5128 13 true).replanned
      | none => (d.sb 0x5128 12 true).report pgERR none 0x0031 0x41 worst monitor) s

end Sys2Proof.Machine
end

