-- ==== Sys2Proof/Machine/SecRows.lean ====
section
/-!
DEFINITION. Machine/SecRows.lean: attestation: reports, the certificate, the measurement of weights, security version numbers
(chapter 18).
-/
namespace Sys2Proof.Machine

/-- Commands that need SEC0 answer SEC_BUSY while it restarts (R285). -/
def Dev.secCmd (d : Dev) (q cid opc : Nat) (f : Cmd → Dev → Dev) : Dev :=
  match d.cmd? q cid opc with
  | none => d
  | some c => if d.secDown then d.complete q cid 0x000f 0 else f c d

/-- A leaf reserved when the next one reaches RESV_END (R478): the device, and whether a leaf may be used. `norOk`: the NOR
write succeeds; the copy of the leaf record that a failed write leaves is not valid. -/
def Dev.leafReserve (d : Dev) (norOk : Bool) : Bool × Dev :=
  let x := d.sec
  if x.leaf < x.resvEnd then (true, d)
  else if !norOk then
    (false, ({ d with sec := { x with leafAlt := (x.leafAlt.1, x.leafAlt.2.1, false) } } : Dev).setErr pgSEC 1)
  else
    (true, ({ d with sec := { x with resvEnd := x.resvEnd + 1024, leafSeq := x.leafSeq + 1,
                                     leafAlt := (x.resvEnd, x.leafSeq, true) } } : Dev).inc (pgSEC + 0x808))

/-- Serial number (Table 18.3). -/
def Dev.serial (d : Dev) : List Byte := (List.range 4).flatMap fun k => leBytes (d.rd (0x104 + 4 * k)).toNat 4

/-- Bytes 0 to 255 of a report (Table 18.4); `cove` 255: none. -/
def Dev.reportBytes (d : Dev) (cove : Nat) (nonce : List Byte) : List Byte :=
  let x := d.sec
  let p := if cove = 255 then (0, 0) else x.pmr.get (fun _ => (0, 0)) cove
  let flags := b2n (d.b (pgSEC + 0x118) 1) + 2 * b2n d.fw.update.isSome
  leBytes 0x4b415431 4 ++ leBytes 1 2 ++ leBytes cove 1 ++ leBytes flags 1 ++ leBytes d.tide.cur.toNat 8 ++ leBytes x.leaf 8
    ++ d.serial ++ padTo 32 nonce ++ leBytes x.ext.digest 32 ++ leBytes x.ext.svn 2 ++ leBytes d.fw.image.svn 2
    ++ leBytes (d.g (pgSEC + 0x104) 0 16) 2 ++ leBytes x.handovers 2 ++ leBytes d.fw.image.ver 4 ++ leBytes p.2 4
    ++ leBytes x.fwDigest 32 ++ leBytes x.fwmr 32 ++ leBytes p.1 32 ++ leBytes x.whash 32 ++ leBytes x.wlen 8

/-- No report fetched before this one is unfinished (R479): reports are made one at a time in fetch order. -/
def Dev.reportTurn (d : Dev) (c : Cmd) : Bool :=
  d.sec.reports.isEmpty && (d.fw.fetched.find? fun x => x.opc == 0x0400 && x.phase == 0) == some c

/-- The fields of a report sampled, and the next leaf taken (R478, R479). -/
def Dev.sampleReport (d : Dev) (q cid n : Nat) (c : Cmd) : Dev :=
  let l := d.reportBytes n (c.param.take 32)
  let x := d.sec
  ({ d with sec := { x with leaf := x.leaf + 1, reports := [(q, cid, c.buf, l, x.leaf)] } } : Dev).hold c

/-- A report signed with its leaf, in the command's buffer (R479, Table 18.1). -/
def Dev.signReport (d : Dev) (q cid buf leaf : Nat) (l : List Byte) (c : Cmd) : Dev :=
  let sig := beBytes leaf 5 ++ padTo 9888 (Config.signature leaf (shakeN l))
  ((d.memWrite pgSEC (domOf (d.cmdCove c)) buf (l ++ sig) false).inc (pgSEC + 0x800)).complete q cid 0 0

/-- ATT_REPORT (R479): the fields are sampled in one step, and the next leaf is taken (R478). -/
def execAttReport (q : Fin 256) (cid : Nat) (norOk : Bool) (s : State) : Res :=
  lift (fun d => d.secCmd q cid 0x0400 fun c d => d.when (d.reportTurn c) fun d =>
    let n := leAt c.param 32 1
    if (match d.cmdCove c with | none => false | some k => n ≠ k) then d.complete q cid 0x0003 0
    else if c.buflen < 10149 then d.complete q cid 0x0002 0
    else if !d.bufOk c true 10149 then d.complete q cid 0x0010 0
    else if n ≠ 255 ∧ (64 ≤ n ∨ (d.cove n).state = 0) then d.complete q cid 0x0101 0
    else if 2 ^ 40 ≤ d.sec.leaf then d.complete q cid 0x0400 0
    else
      let (ok, d1) := d.leafReserve norOk
      if !ok then d1.complete q cid 0x0401 0
      else
        d1.sampleReport q cid n c) s

/-- ATT_REPORT_SIGNED (R479): bytes 0 to 255 are signed with the leaf sampled, and the report goes to BUF (Table 18.1). -/
def execAttReportSigned (s : State) : Res :=
  lift (fun d => match d.sec.reports with
    | [] => d
    | (q, cid, buf, l, leaf) :: rest =>
      if d.safe then d else
        let d1 := { d with sec := { d.sec with reports := rest } }
        match d1.fw.fetched.find? fun c => c.pair == q && c.cid == cid && c.opc == 0x0400 with
        | none => d1
        | some c => d1.signReport q cid buf leaf l c) s

/-- ATT_GET_CERT (R477): the certificate in NOR (Table 18.3). -/
def execAttGetCert (q : Fin 256) (cid : Nat) (s : State) : Res :=
  lift (fun d => d.secCmd q cid 0x0401 fun c d =>
    d.answer c (leBytes 0x4b434552 4 ++ leBytes 1 4 ++ d.serial ++ padTo 9993 Config.certificate) 0) s

/-- ATT_MEASURE_WEIGHTS (R476): a measurement begins. -/
def execAttMeasureWeights (cid : Nat) (s : State) : Res :=
  lift (fun d => d.secCmd 0 cid 0x0402 fun c d =>
    let len := leAt c.param 0 8
    if d.sec.meas.isSome then d.complete 0 cid 0x000f 0
    else if len % 65536 ≠ 0 ∨ d.fw.layout.wSize / 16 < len ∨ c.buflen < 32 then d.complete 0 cid 0x0002 0
    else if !d.bufOk c true 32 then d.complete 0 cid 0x0010 0
    else ({ d.hold c with sec := { d.sec with meas := some (cid, len, false) } } : Dev).sb (pgSEC + 0x118) 0 true) s

/-- WHASH over the first `len` bytes of each weight slice, which are read and verified (R199, R476); and whether a byte of
them is poisoned. -/
def Dev.weightHash (d : Dev) (len : Nat) : Nat × Bool × Dev :=
  let y := d.fw.layout
  let r := (List.range 16).foldl (fun (r : List Byte × Bool × Dev) n =>
    let (l, bad, d1) := r.2.2.memRead pgSEC 0x40 (y.wBase + n * (y.wSize / 16)) len
    (r.1 ++ leBytes (shakeN l) 32, r.2.1 || bad, d1)) ([], false, d)
  (shakeN ([0x4b, 0x57, 0x48, 0x31] ++ leBytes len 8 ++ r.1), r.2)

/-- A measurement ends with WHASH, and the command with it (R476). -/
def Dev.weightsMeasured (d : Dev) (cid len w : Nat) : Dev :=
  let d2 := ({ d with sec := { d.sec with whash := w, wlen := len } } : Dev).sb (pgSEC + 0x118) 1 true
  match d2.fw.fetched.find? fun c => c.pair == 0 && c.cid == cid && c.opc == 0x0402 with
  | none => d2
  | some c => (d2.memWrite pgSEC 0x40 c.buf (leBytes w 32) false).complete 0 cid 0 0

/-- WEIGHT_MEASURE_DONE (R476). -/
def execWeightMeasureDone (s : State) : Res :=
  lift (fun d => match d.sec.meas with
    | none => d
    | some (cid, len, raced) =>
      if d.safe then d else
        let d0 := { d with sec := { d.sec with meas := none } }
        let (w, bad, d1) := (d0.sb (pgSEC + 0x118) 0 false).weightHash len
        if raced || bad then
          ((d1.sb (pgSEC + 0x118) 1 false).setErr pgSEC 2).complete 0 cid (if raced then 0x0402 else 0x0403) 0
        else
          d1.weightsMeasured cid len w) s

/-- The security version numbers committed (R473). -/
def Dev.svnCommit (d : Dev) (cid : Nat) (fuse : Bool) : Dev :=
  let k := pgSEC + 0x104
  let d1 := d.s k 0 16 (max (d.g k 0 16) d.fw.image.svn)
  let d2 := if fuse then d1.s k 16 5 (max (d1.g k 16 5) (min 31 d1.sec.ext.svn)) else d1
  d2.complete 0 cid 0 0

/-- ATT_SVN_COMMIT (R473): the recorded SVN rises to the running image's, and on request FUSE_SVN to the extension's. -/
def execAttSvnCommit (cid : Nat) (norOk : Bool) (s : State) : Res :=
  lift (fun d => d.secCmd 0 cid 0x0403 fun c d =>
    if d.fw.update.isSome then d.complete 0 cid 0x000c 0
    else if !norOk then (d.setErr pgSEC 1).complete 0 cid 0x0401 0
    else
      d.svnCommit cid (leAt c.param 0 1 = 1)) s

end Sys2Proof.Machine
end

