-- ==== Sys2Proof/Machine/TrcRows.lean ====
section
/-!
DEFINITION. Machine/TrcRows.lean: the commands of trace buffers, counter sweeps and tensor dumps (chapter 19).
-/
namespace Sys2Proof.Machine

/-- Does any cove's range touch `[a, a + n)`? -/
def Dev.inAnyCove (d : Dev) (a n : Nat) : Bool :=
  d.coves.any fun c => c.2.state ≠ 0 && c.2.cfg.ranges.any fun r => decide (r.base < a + n) && decide (a < r.base + r.size)

/-- The placement rules of R491: in the scratch pool, outside the firmware area, in no cove's range. -/
def Dev.placed (d : Dev) (a n : Nat) : Bool := d.inStaging a n && !d.inAnyCove a n

/-! ### Trace buffers (R487 to R491) -/

/-- Tracing of the cores a buffer names starts: each owes a SYNC (R487). -/
def Dev.traceStart (d : Dev) (b : Nat) : Dev :=
  d.each ((List.range 37).filter fun i => d.tbOf i == some b) fun i d =>
    d.setTcore i { d.tcore i with sync := true, n := 0, cond := [], recs := 0 }

/-- TB_CTL of a buffer written: setting EN checks the buffer's place, clears TB_WPTR and TB_STS and starts it (R491);
SWTRIG triggers (R489). -/
def Dev.tbCtlWrite (d : Dev) (b v : Nat) : Dev :=
  let k := tbReg b 0x114
  let was := d.b k 0
  let d1 := (d.writeFields k v).sb k 8 false
  let d2 := if bitN v 0 && !was then
      if d.placed (d.g (tbReg b 0x118) 0 32 * 65536) (16 * 2 ^ d.g (tbReg b 0x11c) 0 5) then
        (((d1.wr (tbReg b 0x138) 0).wr (tbReg b 0x13c) 0).setTbuf b {}).traceStart b
      else (d1.sb k 0 false).configRefused pgTRC none 0x114
    else d1
  if bitN v 8 then d2.trigger b 5 0 else d2

/-- TB_CTL_EN_WRITE (R491). -/
def execTbCtlEnWrite (val : Word) (s : State) : Res :=
  lift (fun d => d.onReg (pgTRC + 0x114) fun d => d.tbCtlWrite (d.g (pgTRC + 0x110) 0 3) val.toNat) s

/-- TB_SWTRIG (R489). -/
def execTbSwtrig (s : State) : Res :=
  lift (fun d => d.onReg (pgTRC + 0x114) fun d => d.trigger (d.g (pgTRC + 0x110) 0 3) 5 0) s

/-! ### Tensor dumps (R493 to R497) -/

/-- Tensor `t` defined (R493). -/
def Dev.defTensor (d : Dev) (t : Nat) (x : Tensor) : Dev :=
  { d with trc := { d.trc with tensors := (t, x) :: d.trc.tensors.filter (·.1 ≠ t) } }

/-- DUMP_DEFINE (R493). -/
def execDumpDefine (cid : Nat) (s : State) : Res :=
  lift (fun d => d.admin cid 0x0500 fun c d =>
    let cv := leAt c.param 2 1
    let a := leAt c.param 8 8
    let n := leAt c.param 16 4
    let ok := if cv = 255 then inUserMem a n || inHarbour a n
      else (d.cove cv).state ≠ 0 && d.inCove cv false a n
    if n < 256 ∨ 2 ^ 26 < n ∨ (64 ≤ cv ∧ cv ≠ 255) then d.complete 0 cid 0x0002 0
    else if !ok then d.complete 0 cid 0x0502 0
    else
      (d.defTensor (leAt c.param 0 2) { cove := if cv = 255 then none else some cv, addr := a, len := n, fmt := leAt c.param 3 1 }
        ).complete 0 cid 0 0) s

/-- Tensor `t`, where it is defined. -/
def Dev.tensor? (d : Dev) (t : Nat) : Option Tensor := (d.trc.tensors.find? (·.1 == t)).map (·.2)

/-- Why a dump of a tensor cannot be armed (R494, R495): with no dump area set there is no slot it fits. -/
def Dev.armRefused (d : Dev) (x : Tensor) : Bool :=
  decide (256 ≤ d.trc.arms.length) || match d.trc.ring with
    | none => true
    | some r => decide (2 ^ r.2.2.2.1 < x.len)

/-- A dump armed; those of one tide are taken in ascending tensor number (R495). -/
def Dev.armDump (d : Dev) (a : DumpArm) : Dev :=
  let (lo, hi) := d.trc.arms.partition fun x => decide (x.tensor ≤ a.tensor)
  { d with trc := { d.trc with arms := lo ++ a :: hi } }

/-- DUMP_ARM (R495): it completes when its first dump is taken (R272). -/
def execDumpArm (cid : Nat) (s : State) : Res :=
  lift (fun d => d.admin cid 0x0501 fun c d =>
    let t := leAt c.param 0 2
    let n := leAt c.param 4 2
    if !c.arm || n == 0 then d.complete 0 cid 0x0002 0
    else match d.tensor? t with
      | none => d.complete 0 cid 0x0500 0
      | some x =>
        if d.armRefused x then d.complete 0 cid 0x0501 0
        else (d.hold c).armDump { tensor := t, cid := some cid, tide := c.tide, every := leAt c.param 2 2, count := n }) s

/-- DUMP_CANCEL (R497): every arm of a tensor. -/
def execDumpCancel (cid : Nat) (s : State) : Res :=
  lift (fun d => d.admin cid 0x0502 fun c d => (d.dropArms fun a => a.tensor == leAt c.param 0 2).complete 0 cid 0 0) s

/-- DUMP_RING (R494). -/
def execDumpRing (cid : Nat) (s : State) : Res :=
  lift (fun d => d.admin cid 0x0503 fun c d =>
    let hb := leAt c.param 0 8
    let h := leAt c.param 8 1
    let sb := leAt c.param 16 8
    let sl := leAt c.param 24 1
    let n := leAt c.param 26 2
    if !(d.trc.arms.isEmpty && d.trc.copies.isEmpty) then d.complete 0 cid 0x0200 0
    else if h < 6 ∨ 16 < h ∨ sl < 12 ∨ 26 < sl ∨ n = 0 ∨ 4096 < n ∨ 2 ^ h < n then d.complete 0 cid 0x0002 0
    else if hb % 256 ≠ 0 || sb % 256 ≠ 0 || !d.placed hb (64 * 2 ^ h) || !d.placed sb (n * 2 ^ sl) then d.complete 0 cid 0x0502 0
    else
      let x := { d.trc with ring := some (hb, h, sb, sl, n), phase := true, nextHdr := 0, nextSlot := 0, taken := [] }
      (({ d with trc := x } : Dev).wr (pgTRC + 0x144) 0).complete 0 cid 0 0) s

/-- A dump header (Table 19.2), at its place in the ring. -/
def Dev.dumpHeader (d : Dev) (idx flags fmt tensor : Nat) (tide : DWord) (len slot : Nat) (cove : Option Nat) (remain : Nat) : Dev :=
  match d.trc.ring with
  | none => d
  | some (hb, _, _, _, _) =>
    let cv := match cove with | some n => n | none => 64
    d.poke (hb + 64 * idx) (leBytes 0x4b444d31 4 ++ leBytes flags 1 ++ leBytes fmt 1 ++ leBytes tensor 2 ++ leBytes tide.toNat 8
      ++ leBytes d.trclk.toNat 8 ++ leBytes len 4 ++ leBytes slot 2 ++ leBytes cv 1 ++ [0] ++ leBytes remain 4
      ++ List.replicate 28 0)

/-- One dump of an arm at a boundary: a slot and a header, a header with MISSED, or nothing (R495). `remain`: dumps of the
arm still to come. -/
def Dev.dumpTake (d : Dev) (t remain : Nat) : Dev :=
  let x := d.trc
  match d.tensor? t, x.ring with
  | some dfn, some (_, h, _, _, n) =>
    if 2 ^ h ≤ x.taken.length then d.inc (pgTRC + 0x848)
    else
      let idx := x.nextHdr
      let nh := (idx + 1) % 2 ^ h
      let ph := if nh = 0 then !x.phase else x.phase
      if n ≤ (x.taken.filter (·.isSome)).length then
        let y := { x with taken := x.taken ++ [none], nextHdr := nh, phase := ph }
        (({ d with trc := y } : Dev).inc (pgTRC + 0x844)).dumpHeader idx (1 + 8 * b2n x.phase) dfn.fmt t d.tide.cur 0 0xffff
          dfn.cove remain
      else
        let c : DumpCopy := { tensor := t, dfn := dfn, head := idx, phase := x.phase, slot := x.nextSlot, tide := d.tide.cur,
                              remain := remain }
        let y := { x with taken := x.taken ++ [some x.nextSlot], nextHdr := nh, phase := ph,
                          nextSlot := (x.nextSlot + 1) % n, copies := x.copies ++ [c] }
        { d with trc := y }
  | _, _ => d

/-- The dumps armed at or below the current tide (R495): each arm goes on until its count is spent. -/
def Dev.dumpsDue (d : Dev) : Dev :=
  d.each (d.trc.arms.filter fun a => decide (a.tide ≤ d.tide.cur)) fun a d =>
    let d1 := d.dumpTake a.tensor (a.count - 1)
    let d2 := match a.cid with
      | none => d1
      | some cid => d1.complete 0 cid 0 0
    let next := { a with cid := none, tide := a.tide + BitVec.ofNat 64 (a.every * 2 ^ 24), count := a.count - 1 }
    let arms := if a.every = 0 ∨ a.count ≤ 1 then d2.trc.arms.erase a
      else d2.trc.arms.map fun (x : DumpArm) => if x = a then next else x
    { d2 with trc := { d2.trc with arms := arms } }

/-- A granule as a dump that raced finds it: as it stands, or as it stood before one of the writes (R496). -/
def Dev.granVersion (d : Dev) (c : DumpCopy) (g : Nat) : (List Byte × Mark) × Dev :=
  let now := (d.bytes g 256, d.mark (g / 256))
  let old := (c.old.filter (·.1 == g)).map fun (x : Nat × List Byte × Mark) => x.2
  if old.isEmpty then (now, d)
  else
    let (x, d1) := d.freeWord
    ((old ++ [now]).getD (x.toNat % (old.length + 1)) now, d1)

/-- The dump `c` copied into its slot at `dst`: the device, and whether a granule was poisoned (R495, R496). -/
def Dev.copyDump (d : Dev) (c : DumpCopy) (dst : Nat) : Dev × Bool :=
  let a := c.dfn.addr
  let n := c.dfn.len
  let g0 := a / 256 * 256
  let gs := (List.range ((a + n - 1) / 256 - a / 256 + 1)).map fun i => g0 + 256 * i
  let r := gs.foldl (fun (r : List (List Byte × Mark) × Dev) g =>
    let (v, d1) := r.2.granVersion c g
    (r.1 ++ [v], d1)) ([], d)
  let bytes := ((r.1.flatMap fun (v : List Byte × Mark) => v.1).drop (a - g0)).take n
  let marks := r.1.map fun (v : List Byte × Mark) => v.2
  let bad := marks.any fun m => m ≠ .good
  let d1 := if a % 256 == 0 && n % 256 == 0 then
      (marks.zipIdx).foldl (fun (d : Dev) (m : Mark × Nat) => d.setMark (dst / 256 + m.2) m.1) (r.2.poke dst bytes)
    else
      let d0 := (marks.zipIdx).foldl (fun (d : Dev) (m : Mark × Nat) =>
        if m.1 = .bad then d.cwMismatch pgTRC (domOf c.dfn.cove) (g0 + 256 * m.2) else d) r.2
      d0.each (List.range ((n + 255) / 256)) fun i d =>
        let lo := a - g0 + 256 * i
        let hi := min (lo + 255) (a - g0 + n - 1)
        let pois := ((marks.drop (lo / 256)).take (hi / 256 - lo / 256 + 1)).any fun m => m ≠ .good
        (d.store (dst + 256 * i) ((bytes.drop (256 * i)).take 256) pois).1
  (d1, bad)

/-- A dump whose copy has ended: counted, and its header written (R495, R496, Table 19.2). -/
def Dev.dumpDone (d : Dev) (c : DumpCopy) (dst : Nat) : Dev :=
  let (d1, bad) := d.copyDump c dst
  let d2 := d1.inc (pgTRC + 0x840)
  let d3 := if c.raced then d2.inc (pgTRC + 0x84c) else d2
  d3.dumpHeader c.head (2 * b2n c.raced + 4 * b2n bad + 8 * b2n c.phase) c.dfn.fmt c.tensor c.tide c.dfn.len c.slot c.dfn.cove
    c.remain

/-- DUMP_COPY_DONE (R495, R496): the `k`-th running copy ends: whole granules carry their check words (R202), others are
verified and poisoned as R202 says; then the header is written. -/
def execDumpCopyDone (k : Nat) (s : State) : Res :=
  lift (fun d => match d.trc.copies[k]?, d.trc.ring with
    | some c, some (_, _, sb, sl, _) =>
      if d.safe then d
      else ({ d with trc := { d.trc with copies := d.trc.copies.eraseIdx k } } : Dev).dumpDone c (sb + c.slot * 2 ^ sl)
    | _, _ => d) s

/-- DMP_TAIL written: headers up to it, and the slots they name, are freed in order (R497). -/
def Dev.dmpTail (d : Dev) (v : Nat) : Dev :=
  match d.trc.ring with
  | none => d.writeFields (pgTRC + 0x144) v
  | some (_, h, _, _, _) =>
    let k := (v + 2 ^ h - d.g (pgTRC + 0x144) 0 16 % 2 ^ h) % 2 ^ h
    ({ d with trc := { d.trc with taken := d.trc.taken.drop k } } : Dev).writeFields (pgTRC + 0x144) v

/-- DMP_TAIL_WRITE (R497). -/
def execDmpTailWrite (val : Word) (s : State) : Res :=
  lift (fun d => d.onReg (pgTRC + 0x144) fun d => d.dmpTail val.toNat) s

/-- A dump armed by SYS 0x010 (R497): of a tensor of the sequencer's own cove, a single dump. Answers the status for g1. -/
def Dev.sysDump (d : Dev) (core : Nat) (h t : Reg) : Nat × Dev :=
  let k := d.core core
  let idx := fieldN h.v.toNat 16 16
  if h.tag ≠ 4 ∨ fieldN h.v.toNat 0 8 ≠ 2 then (0x0500, d)
  else match d.tensor? idx with
    | none => (0x0500, d)
    | some x =>
      if (match x.cove with | none => k.launched | some n => !k.launched || n ≠ k.cove) then (0x0500, d)
      else if d.armRefused x then (0x0501, d)
      else (0, d.armDump { tensor := idx, tide := t.v, every := 0, count := 1 })

/-- The firmware serves the SYSCALL a sequencer waits for, and resumes it at the next instruction with the answer in g1 (R241):
service 0x001 is a log entry, 0x010 arms a dump, any other is answered with all ones (R289, R497). It waits while no firmware
serves (R246, R277). -/
def Dev.serveSys (d : Dev) (i : Nat) : Dev :=
  let k := d.core i
  if !(k.sysWait && k.cause == 0x0c && !k.running) || !decide (i < 32) || !d.fwRunning || d.safe then d
  else
    let g (r : Nat) : Reg := k.gr.getD r {}
    let (st, d1) := match k.fault.toNat with
      | 0x001 => (0, d.logEntry (16 + i) (fieldN (g 1).v.toNat 0 8) (fieldN (g 1).v.toNat 8 16)
          ((List.range 6).flatMap fun j => leBytes (g (2 + j)).v.toNat 8))
      | 0x010 => d.sysDump i (g 1) (g 2)
      | _ => (2 ^ 64 - 1, d)
    d1.setCore i { (d1.core i).setReg 1 (BitVec.ofNat 64 st) tINT with
      running := true, cause := 0, sysWait := false, pc := pcNext k.pc }

/-- Every SYSCALL that waits is served (R246). -/
def Dev.serveCalls (d : Dev) : Dev := d.each (List.range 32) fun i d => d.serveSys i

/-! ### Sweeps (R484) -/

/-- The register an offset reaches: where it lies behind an index register, the indexed entry (Tables 13.6 to 13.9, 14.12,
19.8). -/
def Dev.indexed (d : Dev) (k : Nat) : Nat :=
  let pg := pageOf k
  let o := k % 4096
  let at_ (idx : Nat) : Nat := k + (idx + 1) * 2 ^ 24
  match pageBlk (pg / 4096) with
  | some (.net, _) => if 0x184 ≤ o ∧ o ≤ 0x1a4 then at_ (d.g (pg + 0x180) 0 6) else k
  | some (.pkt, _) =>
    if (0x110 ≤ o ∧ o ≤ 0x120) ∨ (0x820 ≤ o ∧ o ≤ 0x828) then at_ (d.g (pg + 0x10c) 0 10) else k
  | some (.tsq, _) =>
    if (0x104 ≤ o ∧ o ≤ 0x110) ∨ o = 0x810 ∨ o = 0x814 then at_ (d.g (pg + 0x100) 0 12)
    else if 0x118 ≤ o ∧ o ≤ 0x120 then at_ (d.g (pg + 0x114) 0 9) else k
  | some (.emh, _) => if 0x184 ≤ o ∧ o ≤ 0x194 then at_ (d.g (pg + 0x180) 0 12) else k
  | some (.trc, _) => if 0x114 ≤ o ∧ o ≤ 0x13c then at_ (d.g (pg + 0x110) 0 3) else k
  | _ => k

/-- The record of one sweep. -/
def Dev.sweepRecord (d : Dev) : List Byte :=
  let pages := (List.range 32).map fun k => d.rd (pgCNT + 0x140 + 4 * k)
  let head := leBytes d.tide.cur.toNat 8 ++ leBytes d.trclk.toNat 8 ++ (pages.flatMap fun p => leBytes p.toNat 4)
  let area (p : Word) : List Byte :=
    if bitN p.toNat 31 then
      let pg := p.toNat % 4096 * 4096
      (List.range 512).flatMap fun i =>
        let k := pg + 0x800 + 4 * i
        leBytes (if (fieldsOf k).isSome then (d.rd (d.indexed k)).toNat else 0) 4
    else List.replicate 2048 0
  padTo 2048 head ++ pages.flatMap area

/-- A sweep at a boundary where STEP changes to a multiple of EVERY (R484). -/
def Dev.sweep (d : Dev) : Dev :=
  let step (t : DWord) : Nat := t.toNat / 2 ^ 24
  let ev := d.g (pgCNT + 0x100) 16 16
  if d.b (pgCNT + 0x100) 0 && step d.tide.cur ≠ step d.tide.prev && step d.tide.cur % (max 1 ev) == 0 then
    let n := 2 ^ d.g (pgCNT + 0x10c) 0 4
    let h := d.g (pgCNT + 0x110) 0 12
    if n ≤ d.trc.swpCount then d.inc (pgCNT + 0x804)
    else
      let base := (d.rd64 (pgCNT + 0x104)) % 2 ^ 48 / 4096 * 4096
      let d1 := (d.poke (base + 67584 * h) d.sweepRecord).s (pgCNT + 0x110) 0 12 ((h + 1) % n)
      ({ d1 with trc := { d1.trc with swpCount := d1.trc.swpCount + 1 } } : Dev).inc (pgCNT + 0x800)
  else d

/-- SWP_TAIL written: records up to it are read. -/
def Dev.swpTail (d : Dev) (v : Nat) : Dev :=
  let n := 2 ^ d.g (pgCNT + 0x10c) 0 4
  let d1 := d.writeFields (pgCNT + 0x114) v
  { d1 with trc := { d1.trc with swpCount := (d1.g (pgCNT + 0x110) 0 12 + n - d1.g (pgCNT + 0x114) 0 12 % n) % n } }

end Sys2Proof.Machine
end

