-- ==== Sys2Proof/Machine/Pwr.lean ====
section
/-!
DEFINITION. Machine/Pwr.lean: supply, sideband pins, start-up, resets and the warm exit, temperatures and clocks, management over
MCTP (chapter 21; R214, R450 to R454, R460, R470, R471).
-/
namespace Sys2Proof.Machine

/-! ### What survives -/

/-- Registers held in AON, fuses and NOR: PWR.FAULT, SEC.KEYS, SEC.SVN; and what GEN reads from NOR. -/
def heldRegs : List Nat := [0x1110, 0x4100, 0x4104, 0x100, 0x104, 0x108, 0x10c, 0x110]

/-- What SEC0 finds in NOR at a start: of the valid copies of the leaf record the one with the higher SEQ; the next leaf is its
RESV_END (R478). -/
def Sec.restart (x : Sec) : Sec :=
  let (r, q, _) := if x.leafAlt.2.2 && decide (x.leafSeq < x.leafAlt.2.1) then x.leafAlt else (x.resvEnd, x.leafSeq, true)
  { ext := x.ext, leaf := r, resvEnd := r, leafSeq := q, leafAlt := x.leafAlt }

/-- The device with everything but AON, NOR and fuses at its reset value (R524). What it has sent, and the free values used,
are not the device's. -/
def Dev.bare (d : Dev) : Dev :=
  { regs := d.regs.filter fun r => heldRegs.contains r.1
    err := { norHistory := d.err.norHistory, norDumps := d.err.norDumps }
    nvt := { bad := d.nvt.bad, record := d.nvt.record }
    sec := d.sec.restart
    pwr := { d.pwr with started := false, warming := false, estopEarly := false }
    out := d.out
    fresh := d.fresh }

/-- Standby: no rail but AON runs, device memory is lost (R215, R517), and so is the baseboard cap (R527). -/
def Dev.standby (d : Dev) : Dev :=
  let p := { d.bare.pwr with main := false, cold := false, vinWarn := none }
  { d.bare with pwr := p }

/-- What AON and the supply show again after a reset of the rest: rails in regulation, the baseboard cap, the level of
SB_ESTOP_N, SB_THERM_N. -/
def Dev.aonBack (d : Dev) (o : Dev) : Dev :=
  let d1 := { d with fw := { d.fw with capBmc := o.fw.capBmc } }
  (((d1.s 0x1104 16 11 o.fw.capBmc).sb 0x1100 16 (o.b 0x1100 16)).sb 0x1100 17 (o.b 0x1100 17)).sb 0x5104 2 o.pwr.estop

/-- A reset of everything but AON (R524, R528). -/
def Dev.coreReset (d : Dev) : Dev := d.bare.aonBack d

/-- The power conversion is switched off, and the module is in standby. -/
def Dev.railsOff (d : Dev) : Dev := d.standby

/-! ### Start-up (R214, R470, R471, R529 to R531) -/

/-- The network set up by the NOR extension (R530): port mode and enables, and the rules that bring Emham and NVMe/TCP
traffic to EMH and NVT. -/
def Dev.earlyNet (d : Dev) : Dev :=
  let (mode, en) := d.pwr.norPorts.getD (1, 0x0f)
  let rule (i proto dport dest : Nat) (d : Dev) : Dev :=
    ((((d.wr (ruleKey i 1) (BitVec.ofNat 32 (proto * 2 ^ 20))).wr (ruleKey i 2) (BitVec.ofNat 32 (dport * 2 ^ 16))).wr
      (ruleKey i 6) 0x0ff00000).wr (ruleKey i 7) 0xffff0000).wr (ruleKey i 10) (BitVec.ofNat 32 dest) |>.wr (ruleKey i 15) 1
  let d1 := (d.s (pgNET + 0x100) 0 2 mode).s (pgNET + 0x104) 0 8 en
  let d2 := rule 0 17 (d1.g (pgEMH + 0x104) 0 16) 1 d1
  let d3 := rule 1 6 (d2.g (pgNVT + 0x108) 0 16) 2 d2
  rule 2 6 (d3.g (pgNVT + 0x108) 16 16) 2 d3

/-- The checks of R470: D(P) equals the hash of its slot and the signature verifies (`sigOk`), the slot is not revoked, the
SVN is not below FUSE_SVN. -/
def Dev.extOk (d : Dev) (x : NorExt) (sigOk : Bool) : Bool :=
  sigOk && decide (x.slot < 4) && !d.b (pgSEC + 0x100) x.slot && decide (d.g (pgSEC + 0x104) 16 5 ≤ x.svn)

/-- SEC0's ROM starts (R470, R471, R530): the cause of the start is recorded (R511); the extension is verified and runs, or
the start ends with FAILED. -/
def Dev.start (d : Dev) (cause : Nat) (sigOk : Bool) : Dev :=
  let c := if d.pwr.cold then 0 else cause
  let d0 := { d with pwr := { d.pwr with started := true, cold := false } }
  let d1 := (d0.wr 0x114 (BitVec.ofNat 32 (2 ^ c))).wr 0x2100 0x3ff
  let x := d1.sec.ext
  if d1.extOk x sigOk then
    let rev := d1.g (pgSEC + 0x100) 0 4 ||| (x.revoke % 2 ^ x.slot)
    ((d1.s (pgSEC + 0x100) 0 4 rev).s (pgSEC + 0x100) 4 2 x.slot).earlyNet
  else
    let d2 := if sigOk then d1 else d1.verifyFailed
    ({ d2 with port := { d2.port with retry := false } } : Dev).s 0x8110 0 4 5 |>.s 0x8110 8 8 7 |>.setErr pgFWR 0

/-- A start is made when the rails are in regulation and SB_RST_N is deasserted (R529). -/
def Dev.tryStart (d : Dev) (cause : Nat) (sigOk : Bool) : Dev :=
  if d.b 0x1100 16 && !d.pwr.rst && !d.pwr.started then d.start cause sigOk else d

/-- The main conversion is switched on (R515, Table 21.1): `rested`: SB_PWREN has been deasserted for 1 s; `cool`: every
temperature is below its operating limit. -/
def Dev.powerUp (d : Dev) (rested cool : Bool) : Dev :=
  let h := d.pwr.hold
  let leaves := h == 0 || ((h == 1 || h == 2) && d.pwr.vinOk) || ((h == 3 || h == 4) && rested) || (h == 5 && rested && cool)
  if d.pwr.pwren && d.pwr.aon && d.pwr.vinUp && !d.pwr.main && leaves then
    { d with pwr := { d.pwr with main := true, cold := true, hold := 0 } }
  else d

/-- SB_PWREN_ASSERT (R515, R524): `soon`: less than 1 s after its last deassertion. -/
def execSbPwrenAssert (soon cool : Bool) (s : State) : Res :=
  lift (fun d => d.when (!d.pwr.pwren && d.pwr.aon) fun d =>
    let d1 := { d with pwr := { d.pwr with pwren := true, holdoff := soon } }
    if soon then d1 else d1.powerUp true cool) s

/-- SB_PWREN_HOLDOFF_END (R524). -/
def execSbPwrenHoldoffEnd (cool : Bool) (s : State) : Res :=
  lift (fun d => d.when (d.pwr.holdoff && d.pwr.pwren) fun d =>
    ({ d with pwr := { d.pwr with holdoff := false } } : Dev).powerUp false cool) s

/-- SB_PWREN_DEASSERT (R517). -/
def execSbPwrenDeassert (s : State) : Res :=
  lift (fun d => d.when d.pwr.pwren fun d =>
    ({ d with pwr := { d.pwr with pwren := false, holdoff := false } } : Dev).railsOff) s

/-- RAILS_IN_REGULATION (R529): PG is set; with SB_RST_N deasserted the start begins. -/
def execRailsInRegulation (sigOk : Bool) (s : State) : Res :=
  lift (fun d => d.when (d.pwr.main && !d.b 0x1100 16) fun d => (d.sb 0x1100 16 true).tryStart 1 sigOk) s

/-- SB_RST_ASSERT (R524). -/
def execSbRstAssert (s : State) : Res :=
  lift (fun d => d.when (!d.pwr.rst) fun d =>
    ({ d with pwr := { d.pwr with rst := true } } : Dev).coreReset) s

/-- SB_RST_DEASSERT (R529, R470). -/
def execSbRstDeassert (sigOk : Bool) (s : State) : Res :=
  lift (fun d => d.when d.pwr.rst fun d =>
    ({ d with pwr := { d.pwr with rst := false } } : Dev).tryStart 1 sigOk) s

/-- HEP_FUNDAMENTAL_RESET (R453, R511): the device is reset and starts again. -/
def execHepFundamentalReset (sigOk : Bool) (s : State) : Res :=
  lift (fun d => d.when (d.b 0x1100 16 && !d.pwr.rst) fun d => d.coreReset.tryStart 2 sigOk) s

/-- LOADER_READY, or safe state with ESTOP where SB_ESTOP_N was asserted before it (R265, R531). -/
def Dev.loaderReady (d : Dev) : Dev :=
  let d1 := { d with port := { d.port with retry := false } }
  if d1.pwr.estop || d1.pwr.estopEarly then d1.report pgERR none 0x0026 0x41 0 0
  else d1.s 0x8110 0 4 1

/-- Every site is trained and ready. -/
def Dev.sitesReady (d : Dev) : Dev := d.each (List.range 16) fun n d => d.wr (siteSts n) 1

/-- The plan stored in NOR is applied (R464), and the loader is ready. -/
def Dev.planned (d : Dev) : Dev := ((d.s 0x5128 8 4 d.pwr.norPlan.1).s 0x5128 0 6 d.pwr.norPlan.2).loaderReady

/-- Every site is trained at its recorded bin and filled (R214). -/
def Dev.zeroFilled (d : Dev) : Dev :=
  (d.sitesReady.each (List.range 4) fun m d =>
    let b := d.pwr.norBins.getD m 0
    d.wr (pgMPD m + 0x100) (BitVec.ofNat 32 (b + 16 * b))).planned

/-- ZERO_FILL_DONE (R214, R265). -/
def execZeroFillDone (s : State) : Res :=
  lift (fun d => d.when (d.pwr.started && !d.pwr.warming && d.loadState == 0 && !d.safe) fun d => d.zeroFilled) s

/-! ### Safe state (R450 to R454, R460) -/

/-- What a warm exit leaves (R454): the ERR ring, the PCIe configuration space, BIN of each MPD, the position
of each scrubber (R208), device memory with its
check words; the harbour and cluster SRAM are cleared. -/
def Dev.warmExit (d : Dev) : Dev :=
  let keep (k : Nat) : Bool := heldRegs.contains k || [0x510c, 0x5110, 0x2100].contains k
    || (List.range 4).any fun m => k == pgMPD m + 0x100 || (List.range 4).any fun j => k == pgMPD m + 0x118 + 4 * j
  let b := d.bare
  let e : Err := { norHistory := d.err.norHistory, norDumps := d.err.norDumps, recs := d.err.recs, seq := d.err.seq }
  let pw := { b.pwr with started := true, warming := true }
  let n := { b.nvt with blks := d.nvt.blks }
  let w := { b with
    regs := d.regs.filter fun r => keep r.1
    err := e
    pwr := pw
    nvt := n
    port := d.port
    scrub := d.scrub
    mem := d.mem.filter fun c => decide (c.1 < harbBase)
    marks := d.marks.filter fun c => decide (c.1 < harbBase / 256) }
  (w.aonBack d).wr 0x114 8

/-- SAFE_CTL written (R453): with KEY and EXIT while WARM_OK is 1, a warm exit. -/
def Dev.safeCtl (d : Dev) (v : Nat) : Dev := if fieldN v 0 8 = 0xa5 && bitN v 8 && d.warmOk then d.warmExit else d

/-- SAFE_CTL_WRITE (R453). -/
def execSafeCtlWrite (val : Word) (s : State) : Res :=
  lift (fun d => d.onReg 0x5108 fun d => d.safeCtl val.toNat) s

/-- WARM_EXIT_DONE (R454): LOADER_READY, the sites ready, the stored plan applied. -/
def execWarmExitDone (s : State) : Res :=
  lift (fun d => d.when d.pwr.warming fun d =>
    ({ d with pwr := { d.pwr with warming := false } } : Dev).sitesReady.planned) s

/-- SB_ESTOP_ASSERT (R460, R531). -/
def execSbEstopAssert (s : State) : Res :=
  lift (fun d => d.when (!d.pwr.estop) fun d =>
    let d1 := ({ d with pwr := { d.pwr with estop := true } } : Dev).sb 0x5104 2 true
    if !d1.pwr.started then d1
    else if d1.loadState = 0 ∧ !d1.safe then { d1 with pwr := { d1.pwr with estopEarly := true } }
    else d1.report pgERR none 0x0026 0x41 0 0) s

/-- SB_ESTOP_DEASSERT (R460). -/
def execSbEstopDeassert (s : State) : Res :=
  lift (fun d => ({ d with pwr := { d.pwr with estop := false } } : Dev).sb 0x5104 2 false) s

/-! ### Input and rails (R516) -/

/-- A POWER_FAULT (R516, R518): the cause and rail are held in AON, and the module is in standby. -/
def Dev.powerFault (d : Dev) (cause rail : Nat) : Dev :=
  let d1 := d.wr 0x1110 (BitVec.ofNat 32 (2 ^ 31 + rail % 16 * 16 + cause))
  ({ d1 with pwr := { d1.pwr with hold := cause } } : Dev).railsOff

/-- The input voltage is reported out of range, with a record unless one was made within the last minute (R516). -/
def Dev.vinWarned (d : Dev) (mv : Nat) : Dev :=
  let d1 := ({ d with pwr := { d.pwr with vinOk := false } } : Dev).s 0x1108 0 17 mv
  let recent := match d1.pwr.vinWarn with
    | none => false
    | some t => decide ((d1.trclk - t).toNat < 60000000000)
  if recent then d1.setErr pgPWR 0
  else ({ d1 with pwr := { d1.pwr with vinWarn := some d1.trclk } } : Dev).report pgPWR (some 0) 0x0035 0x41 mv 0

/-- VIN_RANGE_WARN (R516): VIN in 56-60 V or 80-82 V; at most one record a minute. -/
def execVinRangeWarn (mv : Nat) (s : State) : Res :=
  lift (fun d => d.when (d.pwr.main && d.pwr.started
      && ((decide (56000 ≤ mv) && decide (mv < 60000)) || (decide (80000 < mv) && decide (mv ≤ 82000)))) fun d =>
    d.vinWarned mv) s

/-- VIN_FAULT (R516): VIN above 82 V or below 56 V for its time; outside 36-100 V AON stops too (R515). -/
def execVinFault (mv : Nat) (s : State) : Res :=
  lift (fun d => d.when (d.pwr.aon && (decide (mv < 56000) || decide (82000 < mv))) fun d =>
    let on := decide (36000 ≤ mv) && decide (mv ≤ 100000)
    let pw := { d.pwr with vinOk := false, vinUp := decide (58000 < mv), aon := on }
    ({ d with pwr := pw } : Dev).powerFault (if mv < 56000 then 1 else 2) 0) s

/-- VIN_RESTORED (R515, R516). -/
def execVinRestored (mv : Nat) (cool : Bool) (s : State) : Res :=
  lift (fun d => d.when (decide (36000 ≤ mv) && decide (mv ≤ 100000)) fun d =>
    let pw := { d.pwr with aon := true, vinUp := d.pwr.vinUp || decide (58000 < mv)
                           vinOk := decide (60000 ≤ mv) && decide (mv ≤ 80000) }
    let d1 := { d with pwr := pw }
    if d1.pwr.holdoff then d1 else d1.powerUp false cool) s

/-- RAIL_FAULT (R516): a short, or more than 115 % of the set point. -/
def execRailFault (rail : Fin 10) (ovr : Bool) (s : State) : Res :=
  lift (fun d => d.when d.pwr.main fun d => d.powerFault (if ovr then 4 else 3) rail) s

/-- SENSE_OPEN (R516). -/
def execSenseOpen (rail : Fin 10) (s : State) : Res :=
  lift (fun d => d.when (d.pwr.main && d.pwr.started) fun d =>
    (d.sb 0x1114 rail true).report pgPWR (some 1) 0x0032 0x41 rail 0) s

/-- FAULT_VALID_CLEAR (R518): by the baseboard manager, or by software. -/
def execFaultValidClear (bmc : Bool) (s : State) : Res :=
  lift (fun d => d.when (if bmc then d.pwr.aon else d.writable 0x1110) fun d => d.sb 0x1110 31 false) s

/-! ### Temperatures and clocks (R535, R538) -/

/-- Some temperature is still above its operating limit after a thermal trip (R453). -/
def Dev.heat (d : Dev) (m : Sample) : Dev := { d with err := { d.err with hot := d.err.tripped && tempOver m } }

/-- TEMPERATURE_WARNING (R535): SB_THERM_N is asserted at 100 °C, or 115 °C of the conversion stage, and deasserted 5 °C
below. -/
def execTemperatureWarning (smp : Sample) (s : State) : Res :=
  lift (fun d => d.when d.pwr.main fun d =>
    let d1 := d.heat smp
    let was := d1.b 0x1100 17
    if !was && tempAbove smp 999 999 1149 then ((d1.sb 0x1100 17 true).setErr pgPWR 2).inc 0x180c
    else if was && !tempAbove smp 950 950 1100 then d1.sb 0x1100 17 false
    else d1) s

/-- THERMAL_TRIP (R535, Table 21.12): `sensor` as the device numbers it. -/
def execThermalTrip (sensor : Nat) (smp : Sample) (s : State) : Res :=
  lift (fun d => d.when (d.pwr.started && tempAbove smp 1099 1049 1249) fun d => d.report pgPWR (some 3) 0x0027 0x41 sensor 0) s

/-- CRITICAL_TEMPERATURE (R516, Table 21.12). -/
def execCriticalTemperature (smp : Sample) (s : State) : Res :=
  lift (fun d => d.when (d.pwr.main && tempAbove smp 1199 1149 1349) fun d => d.powerFault 5 0) s

/-- PLL_UNLOCK (R538): of the core, the security core or an MPD it is fatal. -/
def execPllUnlock (pll : Fin 8) (s : State) : Res :=
  lift (fun d => d.when (d.pwr.started && d.b 0x2100 pll) fun d =>
    let d1 := d.sb 0x2100 pll false
    if pll.val < 6 then d1.report pgCLK (some 2) 0x0034 0x41 pll 0 else d1.setErr pgCLK 2) s

/-! ### Management (R525 to R528) -/

/-- The answer to a vendor command of MCTP, while AON runs (R526). -/
def Dev.mctp (d : Dev) (cmd code : Nat) (l : List Byte) : Dev := if d.pwr.aon then d.emit (.mctp cmd code l) else d

/-- Commands served in RUNNING and in safe state (Table 21.6). -/
def Dev.mctpRun (d : Dev) (cmd : Nat) (f : Dev → Dev) : Dev :=
  if d.pwr.main && (d.fwRunning || d.safe) then f d else d.mctp cmd 0x04 []

/-- MCTP_CONTROL_MESSAGE (R525): Set and Get Endpoint ID keep the identifier; the bytes of other answers are those of the base
specification and of the module's identity, which the spec does not give, so they are free. -/
def execMctpControlMessage (code : Nat) (data : List Byte) (s : State) : Res :=
  lift (fun d => d.when d.pwr.aon fun d =>
    if code = 1 then
      let e := (data.getD 1 0).toNat
      (({ d with pwr := { d.pwr with eid := e } } : Dev).mctp code 0 [0, BitVec.ofNat 8 e, 0])
    else if code = 2 then d.mctp code 0 [BitVec.ofNat 8 d.pwr.eid, 0, 0]
    else let (l, d1) := d.freeBytes 4; d1.mctp code 0 l) s

/-- SMBUS_ARP (R525): commands of the SMBus specification: Assign Address (0x04) and Reset Device (0x02) change the address;
the identity answered to Get UDID (0x03) is free. -/
def execSmbusArp (code addr : Nat) (s : State) : Res :=
  lift (fun d => d.when d.pwr.aon fun d =>
    let d1 := if code = 4 then { d with pwr := { d.pwr with smbAddr := addr % 128, arped := true } }
      else if code = 2 then { d with pwr := { d.pwr with arped := false } } else d
    if code = 3 then
      let (l, d2) := d1.freeBytes 16
      d2.emit (.smbus code (l ++ [BitVec.ofNat 8 d2.pwr.smbAddr]))
    else d1.emit (.smbus code [])) s

/-- MCTP_UNSUPPORTED_MESSAGE (R525, R526): an unknown vendor command answers UNSUPPORTED; other types are discarded. -/
def execMctpUnsupportedMessage (vendor : Bool) (cmd : Nat) (s : State) : Res :=
  lift (fun d => if vendor && (cmd == 0 || decide (7 < cmd)) then d.mctp cmd 0x05 [] else d) s

/-- DEV_STATE as it reads (R511). -/
def Dev.devState (d : Dev) : Nat :=
  b2n d.slackNow + 2 * b2n d.safe + 4 * b2n (decide (d.g 0x8170 8 2 = 2)) + 8 * b2n (decide (d.g 0x5120 0 2 = 3))

/-- MCTP_GET_STATUS (R526). -/
def execMctpGetStatus (s : State) : Res :=
  lift (fun d => d.mctp 1 0 (leBytes d.devState 4 ++ leBytes (d.rd 0x8110).toNat 4 ++ leBytes (d.rd 0x1110).toNat 4
    ++ leBytes d.safeSts 4)) s

/-- MCTP_GET_SENSORS (R526, R532). -/
def execMctpGetSensors (smp : Sample) (s : State) : Res :=
  lift (fun d => d.mctpRun 2 fun d => d.mctp 2 0 (d.sensorRecord smp)) s

/-- SET_CAP (R527). -/
def execSetCap (watts : Nat) (s : State) : Res :=
  lift (fun d => d.mctpRun 3 fun d =>
    if watts = 0 ∨ (600 ≤ watts ∧ watts ≤ 1650) then
      (({ d with fw := { d.fw with capBmc := watts } } : Dev).s 0x1104 16 11 watts).mctp 3 0 []
    else d.mctp 3 0x02 []) s

/-- GET_ERRORS (R526). -/
def execGetErrors (idx : Nat) (s : State) : Res :=
  lift (fun d => d.mctpRun 4 fun d =>
    if 256 ≤ idx then d.mctp 4 0x02 [] else d.mctp 4 0 (d.err.recs.get (fun _ => {}) idx).bytes) s

/-- The recovery path is open: LOAD_STS FAILED with CODE 0x07 (R471, Table 21.6). -/
def Dev.norOpen (d : Dev) (cmd : Nat) (f : Dev → Dev) : Dev :=
  if d.loadState = 5 ∧ d.g 0x8110 8 8 = 7 then f d else d.mctp cmd 0x04 []

/-- NOR_BEGIN (R528). -/
def execNorBegin (size : Nat) (s : State) : Res :=
  lift (fun d => d.norOpen 5 fun d => ({ d with sec := { d.sec with nor := some (size, []) } } : Dev).mctp 5 0 []) s

/-- NOR_DATA (R528): a block of 64 bytes. -/
def execNorData (data : List Byte) (s : State) : Res :=
  lift (fun d => d.norOpen 6 fun d => match d.sec.nor with
    | none => d.mctp 6 0x02 []
    | some (size, l) =>
      if data.length ≠ 64 ∨ size ≤ l.length then d.mctp 6 0x02 []
      else ({ d with sec := { d.sec with nor := some (size, l ++ data) } } : Dev).mctp 6 0 []) s

/-- NOR_END (R528): the extension collected, which carries these fields, is verified under R470; it is written to NOR, and the
device restarts as on SB_RST_N; or nothing is written. -/
def execNorEnd (slot svn revoke : Nat) (sigOk : Bool) (s : State) : Res :=
  lift (fun d => d.norOpen 7 fun d => match d.sec.nor with
    | none => d.mctp 7 0x02 []
    | some (size, l) =>
      let x : NorExt := { slot := slot, svn := svn, digest := shakeN (l.take size), revoke := revoke }
      let d0 := { d with sec := { d.sec with nor := none } }
      if size ≤ l.length && d.extOk x sigOk then
        (({ d0 with sec := { d0.sec with ext := x } } : Dev).mctp 7 0 []).coreReset.tryStart 1 true
      else (if sigOk then d0 else d0.verifyFailed).mctp 7 0x10 []) s

end Sys2Proof.Machine
end

