-- ==== Sys2Proof/Machine/Commit.lean ====
section
/-!
DEFINITION. Machine/Commit.lean: what a commit that takes effect does, and COMMIT (R52 to R56, R509).
-/
namespace Sys2Proof.Machine

/-- The shadow bank of a page copied to its active bank (R52). -/
def Dev.copyBank (d : Dev) (pg : Nat) : Dev :=
  let here (r : Nat × Word) : Bool := pageOf r.1 == pg && isBanked r.1
  { d with bank := d.regs.filter here ++ d.bank.filter fun r => !here r }

/-- The placement map switches (R136, R160): GEN is that of the image now active, PREV the generation before. -/
def Dev.mapSwitch (d : Dev) : Dev :=
  let old := d.xmap
  let gen := d.gen
  let d1 := d.copyBank pgEMH
  let d2 := { d1 with xch := { d1.xch with prevMap := old, switchTide := some d1.tide.cur } }
  let (l, _, d3) := d2.memRead pgEMH 0x40 (d2.xmap + 2) 2
  (d3.s (pgEMH + 0x60c) 16 16 gen).s (pgEMH + 0x60c) 0 16 (leNat l)

/-- A commit of a page takes effect (R52, R509): the banks are copied; buckets keep their content, clamped (R357, R361); a
commit of WIN ends the hold of peer traffic after a cove reset (R333); that of a DMA engine posts its set (R255). -/
def Dev.activate (d : Dev) (pg : Nat) : Dev :=
  match pageBlk (pg / 0x1000) with
  | some (.dma, n) =>
    (d.setEng n { d.eng n with posted := true, pImg := 0, pBad := 0 }).setCommit pg { d.commit pg with armed := none }
  | some (b, _) =>
    let d1 := match b with
      | .emh => d.mapSwitch
      | .tsq => (d.tsqSettle.copyBank pg).tsqClamp
      | .pkt => (d.polSettle.copyBank pg).polClamp
      | .win =>
        let cv := d.coves.map fun (c : Nat × Cove) => (c.1, ({ c.2 with peerHold := false } : Cove))
        ({ d with coves := cv } : Dev).copyBank pg
      | _ => if b.dbank then d.copyBank pg else d
    let c := d1.commit pg
    d1.setCommit pg { c with armed := none, seq := c.seq + 1 }
  | none => d

/-- The shadow set of this page's DMA engine is posted: ARM and NOW are ignored (R255). -/
def Dev.isPosted (d : Dev) (pg : Nat) : Bool := match engOf pg with | some n => (d.eng n).posted | none => false

/-- Who posts a set may: an engine that belongs to no cove takes work from the firmware alone (R247). -/
def Dev.mayPost (d : Dev) (fw : Bool) (pg : Nat) : Bool :=
  match engOf pg with
  | some _ => fw || d.b (pg + 0x1a4) 31
  | none => true

/-- COMMIT.NOW (R56): an armed commit is retired with it; LATE and WDROP are cleared. -/
def Dev.commitNow (d : Dev) (fw : Bool) (pg : Nat) : Dev :=
  if d.isPosted pg || !d.mayPost fw pg then d
  else (d.setCommit pg { d.commit pg with armed := none, late := false, wdrop := false }).activate pg

/-- COMMIT.CANCEL (R56): a pending armed commit is cancelled; where it posted a DMA set, the shadow set is unlocked. -/
def Dev.commitCancel (d : Dev) (pg : Nat) : Dev := d.setCommit pg { d.commit pg with armed := none }

/-- A tide armed on a page (R53): TIDE_ARM_HI:TIDE_ARM_LO. -/
def Dev.armTide (d : Dev) (pg : Nat) : DWord := (d.rd (pg + 0x34)) ++ (d.rd (pg + 0x30))

/-- COMMIT.ARM (R53 to R55). -/
def Dev.armCommit (d : Dev) (fw : Bool) (pg : Nat) : Dev :=
  if d.isPosted pg || !d.mayPost fw pg then d else d.commitArm pg (d.armTide pg)

/-- A write of COMMIT: CANCEL, then NOW, then ARM; with NOW, ARM is ignored (R56). -/
def Dev.commitWrite (d : Dev) (fw : Bool) (pg v : Nat) : Dev :=
  let d1 := if bitN v 2 then d.commitCancel pg else d
  if bitN v 1 then d1.commitNow fw pg else if bitN v 0 then d1.armCommit fw pg else d1

/-- Is there a block's page at this offset? -/
def isPage (pg : Nat) : Bool := pg % 4096 == 0 && (pageBlk (pg / 4096)).isSome

/-- COMMIT_ARM (R53 to R55), by the host driver. -/
def execCommitArm (pg : Nat) (s : State) : Res :=
  lift (fun d => d.when (isPage pg) fun d => d.onReg (pg + 0x38) fun d => d.armCommit false pg) s

/-- COMMIT_NOW (R56), by the host driver. -/
def execCommitNow (pg : Nat) (s : State) : Res :=
  lift (fun d => d.when (isPage pg) fun d => d.onReg (pg + 0x38) fun d => d.commitNow false pg) s

/-- COMMIT_CANCEL (R56). -/
def execCommitCancel (pg : Nat) (s : State) : Res :=
  lift (fun d => d.when (isPage pg) fun d => d.onReg (pg + 0x38) fun d => d.commitCancel pg) s

end Sys2Proof.Machine
end

