-- ==== Sys2Proof/Machine/RegAccess.lean ====
section
/-!
DEFINITION. Machine/RegAccess.lean: a read and a write of any register of BAR0, by host or by privileged code: what is
computed when read, and what a write does beside changing its fields (R500 to R514 and the register tables).
-/
namespace Sys2Proof.Machine

/-! ### Reading -/

/-- STS.BUSY: an operation of the block has begun and not ended (R502). -/
def Dev.blockBusy (d : Dev) (b : Blk) (n : Nat) : Bool :=
  match b with
  | .gen | .pwr | .clk | .cnt | .win => false
  | .err => d.g 0x5120 0 2 == 2
  | .tide => d.tide.hold || d.tide.pending || d.tide.start.isSome
  | .sec => d.sec.meas.isSome || !d.sec.reports.isEmpty || d.fw.verifying
  | .trc => !d.trc.copies.isEmpty
  | .fwr => !d.fw.fetched.isEmpty || d.fw.update.isSome
  | .xc => d.xc.run.any (fun r => r.q.cl == n) || d.xc.combs.any fun m => m.units.contains n
  | .mpd => (List.range 4).any fun j => d.g (pgMPD n + 0x108 + 4 * j) 16 16 ≠ 0
  | .hep => (List.range 64).any fun i => (d.eng i).rd.any (·.port == 8)
  | .ap => (List.range 64).any fun i => (d.eng i).rd.any (·.port == n)
  | .srp => !d.nvt.out.isEmpty
  | .net => !d.net.wait.isEmpty
  | .pkt => !d.net.reorder.isEmpty
  | .tsq => !d.tsq.frames.isEmpty
  | .emh => d.reqsOpen || d.rxOpen || !d.xch.run.isEmpty
  | .nvt => !d.nvt.cmds.isEmpty || !d.nvt.out.isEmpty
  | .ckp => d.ckp.run.isSome || d.ckp.restore.isSome
  | .cov => d.coves.any fun c => c.2.state == 2 || c.2.state == 4
  | .dma => (d.eng n).active

/-- STS of a page (R502, R504, R505). -/
def Dev.stsOf (d : Dev) (pg : Nat) (b : Blk) (n : Nat) : Nat :=
  let busy := d.blockBusy b n
  let safe := d.safe || d.b (pg + 8) 2
  b2n (d.b (pg + 8) 0 && !safe) + b2n busy * 2 + b2n (d.b (pg + 8) 1 && !busy) * 4 + b2n safe * 8

/-- COMMIT as it reads (Table 2.7); of a DMA engine NOW reads 1 until the posted set has moved (R255). -/
def Dev.commitReg (d : Dev) (pg : Nat) : Nat :=
  let c := d.commit pg
  b2n c.armed.isSome + b2n (d.isPosted pg) * 2 + b2n c.late * 8 + b2n c.wdrop * 16 + c.seq.toNat * 256

/-- The registers of pairs whose _LO latches _HI when read (R264, R512, Tables 19.8 and 21.16). -/
def latches (k : Nat) : Bool :=
  k == 0x3100 || k == 0x6100 || k == 0x1118 || ((engOf (pageOf k)).isSome && (k % 4096 == 0x808 || k % 4096 == 0x810))

/-- The 64-bit value of such a pair. -/
def Dev.pairNow (d : Dev) (k : Nat) : Nat :=
  if k = 0x3100 then d.tide.cur.toNat else if k = 0x6100 then d.trclk.toNat else d.rd64 k

/-- JOB_STS of a cluster (R132). -/
def Dev.jobSts (d : Dev) (n : Nat) : Nat :=
  let run := d.xc.run.filter (·.q.cl == n)
  satAt 255 (d.xc.queue.filter (·.cl == n)).length + satAt 15 run.length * 2 ^ 8
    + b2n (run.any (·.q.type == 2)) * 2 ^ 12 + b2n (d.xc.combs.any (fun m => m.units.contains n) || d.xc.held.any (·.owner == n)) * 2 ^ 13
    + b2n (run.any fun r => r.q.type == 4 && r.wait) * 2 ^ 14

/-- What is computed when a register of a block's own is read; none: its stored value. -/
def Dev.liveReg (d : Dev) (pg o : Nat) (b : Blk) (n : Nat) : Option Nat :=
  match b, o with
  | .gen, 0x118 =>
    some (b2n d.slackNow + b2n d.safe * 2 + b2n (d.g 0x8170 8 2 == 2) * 4 + b2n d.slack.cut * 8)
  | .gen, _ =>
    if 0x140 ≤ o ∧ o < 0x168 then
      some ((List.range 32).foldl (fun a j => a + b2n (d.pagePending ((o - 0x140) * 8 + j)) * 2 ^ j) 0)
    else none
  | .pwr, 0x100 => some (setFieldN (d.rd (pg + o)).toNat 6 1 (b2n (d.fwRunning && !(d.core 33).running)))
  | .clk, 0x104 => some (setFieldN (d.rd (pg + o)).toNat 8 1 (b2n (!d.vclk)))
  | .tide, 0x108 =>
    some (d.tide.dev % 1024 + b2n d.isHead * 2 ^ 10 + b2n d.tide.configured * 2 ^ 11 + d.tide.headDev % 1024 * 2 ^ 16)
  | .tide, 0x110 => some (d.tide.next.toNat % 2 ^ 32)
  | .tide, 0x114 => some (d.tide.next.toNat / 2 ^ 32)
  | .tide, 0x118 =>
    some (b2n (d.isHead && d.tide.pending) + b2n (d.isWorker && d.tide.held.isSome) * 2 + b2n d.tide.level * 4
      + satAt 65535 d.waitingReports.length * 2 ^ 16)
  | .sec, 0x108 => some (d.sec.leaf % 2 ^ 32)
  | .sec, 0x10c => some (d.sec.leaf / 2 ^ 32)
  | .sec, 0x110 => some (d.sec.resvEnd % 2 ^ 32)
  | .sec, 0x114 => some (d.sec.resvEnd / 2 ^ 32)
  | .err, 0x104 => some d.safeSts
  | .err, _ =>
    if 0x140 ≤ o ∧ o < 0x180 then
      some (leAt (d.err.recs.get (fun _ => {}) (d.g 0x5114 0 8)).bytes (o - 0x140) 4)
    else none
  | .trc, 0x140 => some ((d.trc.copies.map (·.head)).headD d.trc.nextHdr)
  | .xc, 0x100 => some (d.jobSts n)
  | .hep, 0x100 => some (d.port.lnk.getD 0 0)
  | .ap, 0x100 => some (d.port.lnk.getD (n + 1) 0)
  | .tsq, 0x1d0 => some (d.qDepth (d.g (pg + 0x100) 0 12))
  | .pkt, _ =>
    if 0x140 ≤ o ∧ o ≤ 0x17c then
      some ((d.rd (ruleKey (d.g (pg + 0x100) 0 13) ((o - 0x140) / 4))).toNat &&& ruleMask ((o - 0x140) / 4)) else none
  | .nvt, 0x104 =>
    some (d.nvMode + d.nvPower % 4 * 4 + b2n (d.nvt.san == 2) * 16 + b2n (!d.nvt.formatting.isEmpty) * 32)
  | .nvt, 0x140 =>
    some (b2n (d.b (pg + o) 4) * 16 + b2n (d.nvt.removing.contains (d.g (pg + 0x118) 0 6)) * 32)
  | .nvt, _ => if 0x11c ≤ o ∧ o < 0x140 then some (d.rd (nsReg (d.g (pg + 0x118) 0 6) o)).toNat else none
  | .ckp, 0x124 => some d.ckp.pre.length
  | .cov, 0x104 => some ((List.range 32).foldl (fun a j => a + b2n (decide ((d.cove j).state ≠ 0)) * 2 ^ j) 0)
  | .cov, 0x108 => some ((List.range 32).foldl (fun a j => a + b2n (decide ((d.cove (32 + j)).state ≠ 0)) * 2 ^ j) 0)
  | .cov, _ =>
    if 0x200 ≤ o ∧ o < 0x600 then
      let i := (o - 0x200) / 16
      some (match o % 16 with
        | 0 => d.coveSts i
        | 4 => (d.cove i).cfg.pasid
        | 8 => (d.cove i).cfg.sqMask
        | _ => d.coveRes i)
    else none
  | .dma, 0x180 =>
    let e := d.eng n
    some (b2n e.active + b2n e.posted * 2 + b2n (e.active && e.phase == 2) * 4 + b2n e.stopping * 8
      + b2n e.active * satAt 65535 e.hops * 2 ^ 16)
  | .dma, 0x1a0 => some (b2n (d.eng n).stopping)
  | _, _ => none

/-- A register as it reads, but for the latching of pairs; offsets no block defines read zero (R500). -/
def Dev.regValue (d : Dev) (k : Nat) : Nat :=
  if 0x202000 ≤ k ∧ k < 0x202040 then
    (List.range 32).foldl (fun a j => a + b2n (d.msixPend.contains ((k - 0x202000) * 8 + j)) * 2 ^ j) 0
  else if 0x200000 ≤ k ∧ k < 0x202000 then (d.rd k).toNat
  else
    let pg := pageOf k
    let o := k % 4096
    match pageBlk (pg / 4096) with
    | none => 0
    | some (b, n) =>
      if o = 0 then b.code * 65536 + n * 256 + 1
      else if o = 4 then b2n b.dbank * 256
      else if o = 0xc then d.stsOf pg b n
      else if o = 0x28 then (d.rd (pg + 0x20)).toNat
      else if o = 0x38 then d.commitReg pg
      else if 4 ≤ k ∧ latches (k - 4) then (d.latch.get (fun _ => 0) k).toNat
      else if latches k then d.pairNow k % 2 ^ 32
      else match b.fieldsAt o with
        | none => 0
        | some l =>
          (match d.liveReg pg o b n with
            | some v => v
            | none => (d.rd (d.indexed k)).toNat) &&& (maskOf l ^^^ accMask .wo l)

/-- A read of a register with its effect: _LO of a pair latches _HI (R483, R508). -/
def Dev.regRead (d : Dev) (k : Nat) : Word × Dev :=
  let v := BitVec.ofNat 32 (d.regValue k)
  if latches k then (v, { d with latch := Map.ins (fun _ => 0) (k + 4) (BitVec.ofNat 32 (d.pairNow k / 2 ^ 32)) d.latch })
  else (v, d)

/-- A 4-byte read as software makes it: a page that is not open reads zero (R265). -/
def Dev.softRead (d : Dev) (k : Nat) : Word × Dev :=
  if decide (k < 0x200000) && !d.pageOpen k then (0, d) else d.regRead k

/-! ### Writing -/

/-- CTL of a page written. EN reads 1 in the blocks R504 names; only the firmware changes SRP's EN and FREEZE (R514); SAFE
changes only in slack (R505); TIDE has SBT_EN (R512). -/
def Dev.enWrite (d : Dev) (pg : Nat) (fw v : Bool) : Dev :=
  match pageBlk (pg / 4096) with
  | some (.gen, _) | some (.tide, _) | some (.sec, _) | some (.err, _) | some (.trc, _) | some (.cnt, _) | some (.fwr, _) => d
  | some (.srp, _) => if fw then d.sb (pg + 8) 0 v else d
  | some _ => d.sb (pg + 8) 0 v
  | none => d

/-- CTL.FREEZE written (R505, R514). -/
def Dev.freezeWrite (d : Dev) (pg : Nat) (fw v : Bool) : Dev :=
  if pg = pgSRP ∧ !fw then d else if isPage pg then d.sb (pg + 8) 1 v else d

/-- CTL.SAFE written (R505). -/
def Dev.safeWrite (d : Dev) (pg : Nat) (v : Bool) : Dev :=
  if !isPage pg || v = d.b (pg + 8) 2 then d
  else if d.slackNow then d.sb (pg + 8) 2 v
  else d.configRefused pg none 8

/-- CTL written whole. -/
def Dev.ctlWrite (d : Dev) (pg : Nat) (fw : Bool) (v : Nat) : Dev :=
  let d1 := ((d.enWrite pg fw (bitN v 0)).freezeWrite pg fw (bitN v 1)).safeWrite pg (bitN v 2)
  if pg = pgTIDE then d1.sbtWrite (bitN v 8) else d1

/-- INT_SET written: each 1 sets a bit of INT_STS (R502, R507). -/
def Dev.intSet (d : Dev) (pg v : Nat) : Dev :=
  let m := match fieldsOf (pg + 0x20) with | some l => maskOf l | none => 0
  d.wr (pg + 0x20) (d.rd (pg + 0x20) ||| BitVec.ofNat 32 (v &&& m))

/-- A register of the EMH page written (R151, R378, R388, R397). -/
def Dev.emhWrite (d : Dev) (k o v : Nat) : Dev :=
  if o = 0x110 then d.sqDb (v % 65536) (fieldN v 16 12)
  else if o = 0x114 then d.connCmd (v % 65536) (fieldN v 16 3)
  else if o = 0x194 then (match v % 4 with | 1 => d.regOpen | 2 => d.regClose | _ => d)
  else if o ∈ [0x610, 0x614, 0x618, 0x61c, 0x620] then (if d.slackNow then d.writeReg k v else d)
  else d.writeReg (d.indexed k) v

/-- A register of the NVT page written (R400, R402, R406, R414). -/
def Dev.nvtWrite (d : Dev) (k o v : Nat) : Dev :=
  if o = 0x100 then d.nvCtlWrite (bitN v 0) (bitN v 1)
  else if o = 0x10c ∨ o = 0x110 then d.cacheWrite k v
  else if o = 0x140 then
    (match v % 4 with | 1 => d.nsInstall | 2 => d.nsRemove (d.g (pgNVT + 0x118) 0 6) | _ => d)
  else d.writeReg k v

/-- A register of the NET page written (R344, R367). -/
def Dev.netWrite (d : Dev) (k o v : Nat) : Dev :=
  if o = 0x100 then d.portModeWrite v
  else if o = 0x104 then d.portEnWrite v
  else if o = 0x194 then d.hnqCfgWrite v
  else if o = 0x198 ∨ o = 0x19c then d.hnqTail o v
  else if 0x184 ≤ o ∧ o ≤ 0x190 ∧ d.hnqOn (d.g (pgNET + 0x180) 0 6) then d
  else d.writeReg (d.indexed k) v

/-- A register of the TRC page written (R491). -/
def Dev.trcWrite (d : Dev) (k o v : Nat) : Dev :=
  let b := d.g (pgTRC + 0x110) 0 3
  if o = 0x114 then d.tbCtlWrite b v
  else if o = 0x144 then d.dmpTail v
  else if 0x118 ≤ o ∧ o ≤ 0x12c ∧ d.b (tbReg b 0x114) 0 then d
  else d.writeReg (d.indexed k) v

/-- A register of the FWR page written (R267, R281, R513). -/
def Dev.fwrWrite (d : Dev) (k o v : Nat) : Dev :=
  if o = 0x10c then
    let d1 := if bitN v 0 then d.loadGo else d
    if bitN v 1 then d1.adminGo else d1
  else if o = 0x170 then (if bitN v 0 then d.renew else d)
  else if o ∈ [0x100, 0x104, 0x108, 0x120, 0x124, 0x128, 0x12c, 0x130] then
    (if d.loadState = 1 ∨ d.loadState = 5 ∨ !d.b 0x8110 4 then d.writeReg k v else d)
  else d.writeReg k v

/-- A register of the ERR page written (R448, R453, R467). -/
def Dev.errWrite (d : Dev) (k o v : Nat) : Dev :=
  if o = 0x100 then
    let d1 := d.sb k 0 (bitN v 0)
    if bitN v 1 then d1.errResume else d1
  else if o = 0x108 then d.safeCtl v
  else if o = 0x110 then d.recTail v
  else d.writeReg k v

/-- A register of BAR0 written, by the firmware (`fw`) or the host (R10 to R12, R52, R500). -/
def Dev.regWrite (d : Dev) (fw : Bool) (k v : Nat) : Dev :=
  if 0x200000 ≤ k ∧ k < 0x202000 then
    (d.wr k (BitVec.ofNat 32 (if k % 16 = 12 then v % 2 else if k % 16 = 0 then v / 4 * 4 else v))).msixFlush
  else
    let pg := pageOf k
    let o := k % 4096
    match pageBlk (pg / 4096) with
    | none => d
    | some (b, n) =>
      if o = 8 then d.ctlWrite pg fw v
      else if o = 0x28 then d.intSet pg v
      else if o = 0x38 then d.commitWrite fw pg v
      else if o < 0x100 then d.writeReg k v
      else match b with
        | .tide =>
          if o = 0x100 then d.curStage (BitVec.ofNat 32 v)
          else if o = 0x104 then d.curLoad (BitVec.ofNat 32 v)
          else d.writeReg k v
        | .err => d.errWrite k o v
        | .trc => d.trcWrite k o v
        | .cnt => if o = 0x114 then d.swpTail v else d.writeReg k v
        | .fwr => d.fwrWrite k o v
        | .xc => if o = 0x10c then d.seedWrite n false v else if o = 0x110 then d.seedWrite n true v else d.writeReg k v
        | .mpd => if o = 0x100 then d.binReq n v else if o = 0x128 then d.injWrite n v else d.writeReg k v
        | .net => d.netWrite k o v
        | .pkt => if o = 0x17c then d.ruleInstall v else d.writeReg (d.indexed k) v
        | .tsq => d.writeReg (d.indexed k) v
        | .emh => d.emhWrite k o v
        | .nvt => d.nvtWrite k o v
        | .cov => if o = 0x100 then d.coveMode (bitN v 0) else d.writeReg k v
        | .dma =>
          if o = 0x1a0 then
            let d1 := if bitN v 0 then d.dmaStop n else d
            if bitN v 1 then d1.dmaDiscard n else d1
          else d.writeReg k v
        | _ => d.writeReg k v

/-- A 4-byte write of a register as it comes from software: dropped in safe state but for the registers R452 names (R511);
ignored where the page does not serve writes (R265). -/
def Dev.softWrite (d : Dev) (fw : Bool) (k v : Nat) : Dev :=
  if 0x200000 ≤ k ∧ !d.safe then d.regWrite fw k v else d.onReg k fun d => d.regWrite fw k v

/-- REGISTER_WRITE (R10 to R12). -/
def execRegisterWrite (off : Nat) (val : Word) (s : State) : Res :=
  lift (fun d => d.when (decide (off < 0x202040) && off % 4 == 0) fun d => d.softWrite false off val.toNat) s

/-- LO_READ_LATCH (R483, R512). -/
def execLoReadLatch (off : Nat) (s : State) : Res :=
  lift (fun d => d.when (latches off) fun d => (d.softRead off).2) s

/-- HCTL_EN_WRITE (R504). -/
def execHctlEnWrite (pg : Nat) (en : Bool) (s : State) : Res :=
  lift (fun d => d.when (isPage pg) fun d => d.onReg (pg + 8) fun d => d.enWrite pg false en) s

/-- HCTL_FREEZE_WRITE (R505). -/
def execHctlFreezeWrite (pg : Nat) (freeze : Bool) (s : State) : Res :=
  lift (fun d => d.when (isPage pg) fun d => d.onReg (pg + 8) fun d => d.freezeWrite pg false freeze) s

/-- HCTL_SAFE_WRITE (R505). -/
def execHctlSafeWrite (pg : Nat) (safe : Bool) (s : State) : Res :=
  lift (fun d => d.when (isPage pg) fun d => d.onReg (pg + 8) fun d => d.safeWrite pg safe) s

/-- INT_SET_WRITE (R507). -/
def execIntSetWrite (pg : Nat) (val : Word) (s : State) : Res :=
  lift (fun d => d.when (isPage pg) fun d => d.onReg (pg + 0x28) fun d => d.intSet pg val.toNat) s

end Sys2Proof.Machine
end

