-- ==== Sys2Proof/Machine/Ports.lean ====
section
/-!
DEFINITION. Machine/Ports.lean: requests of the host and of accelerators, windows, resets and enables of PF0, and the links
of HEP and the AP ports (chapter 11).
-/
namespace Sys2Proof.Machine

/-! ### Requests to PF0 -/

/-- A request answered with Unsupported Request, or a write dropped, at a port; both are counted (R296, R299, Table 11.4). -/
def Dev.unsupported (d : Dev) (p : Nat) (wr : Bool) : Dev :=
  let d1 := d.inc (pgPort p + 0x800)
  if wr then d1 else (((d1.setErr (pgPort p) 1).aerErr p 20).emit (.tlp p [] false 1))

/-- A memory request reaches PF0's BARs: the link is up; with Memory Space Enable 0 or during a function-level reset it is
unsupported (R299, R308). -/
def Dev.atBar (d : Dev) (wr : Bool) (f : Dev → Dev) : Dev :=
  d.when (d.linkUp 8) fun d =>
    let d := d.wake 8
    if d.port.flr || !d.port.mse then d.unsupported 8 wr else f d

/-- A 4-byte read of a ring-pair page (R269, Table 10.3). -/
def Dev.ringRead (d : Dev) (o : Nat) : Nat :=
  let r := d.ring (o / 65536)
  if !d.fwRunning || decide (0x1000000 ≤ o) then 0
  else
    match o % 65536 with
    | 0x00 => if r.enabled then r.sqTail else 0
    | 0x04 => if r.enabled then r.cqHead else 0
    | 0x08 =>
      b2n r.enabled + b2n r.err * 2 + r.errKind % 4 * 4 + (if r.driver then 0 else r.cove % 64) * 2 ^ 8 + b2n r.driver * 2 ^ 14
    | 0x0c => if r.enabled then r.sqHead else 0
    | 0x10 => if r.enabled then b2n r.intMask else 0
    | _ => 0

/-- A 4-byte write of a ring-pair page. -/
def Dev.ringWrite (d : Dev) (o v : Nat) : Dev :=
  let q := o / 65536
  if 256 ≤ q then d
  else match o % 65536 with
    | 0x00 => d.sqTail q v
    | 0x04 => d.cqHead q v
    | 0x10 => d.when (d.fwRunning && (d.ring q).enabled) fun d => d.setRing q { d.ring q with intMask := bitN v 0 }
    | _ => d

/-- A request that BAR0, or BAR2, serves: 4-byte accesses in ascending order (R296). -/
def Dev.barServe (d : Dev) (bar2 wr : Bool) (off size : Nat) (data : List Byte) : Dev :=
  let offs := (List.range (size / 4)).map fun i => off + 4 * i
  if wr then
    d.each offs fun o d =>
      let v := leAt data (o - off) 4
      if bar2 then d.ringWrite o v else d.softWrite false o v
  else
    let (l, d1) := offs.foldl (fun (r : List Byte × Dev) o =>
      if bar2 then (r.1 ++ leBytes (r.2.ringRead o) 4, r.2)
      else
        let (v, d) := r.2.softRead o
        (r.1 ++ leBytes v.toNat 4, d)) (([] : List Byte), d)
    d1.emit (.tlp 8 l false 0)

/-- A request to BAR0, or to BAR2, decoded (R265, R269, R295, R296, R316, R452). -/
def Dev.bar0 (d : Dev) (bar2 wr : Bool) (off size : Nat) (data : List Byte) : Dev :=
  d.atBar wr fun d =>
    if (if bar2 then 2 ^ 26 else 2 ^ 24) < off + size then d.unsupported 8 wr
    else if (size ≠ 4 ∧ size ≠ 8) ∨ off % size ≠ 0 then d.unsupported 8 wr
    else if bar2 && d.safe then (if wr then d else d.unsupported 8 false)
    else d.barServe bar2 wr off size data

/-- A list that starts at address `a`, cut at multiples of `u`. -/
def cutAt {α : Type} (u a : Nat) (l : List α) : Nat → List (List α)
  | 0 => []
  | f + 1 => if l.isEmpty then [] else
      let n := u - a % u
      l.take n :: cutAt u (a + n) (l.drop n) f

/-- A request of a port answered from memory at `a`, in the name of a domain (R301, R306): the port makes and verifies check
words (Table 7.3), and the data of a read leaves in address order, in completions of at most Max Payload Size. -/
def Dev.memServe (d : Dev) (dom port : Nat) (wr : Bool) (a size : Nat) (data : List Byte) (poison : Bool) : Dev :=
  if wr then d.memWrite (pgPort port) dom a (padTo size data) poison
  else
    let (l, d1) := d.readP (pgPort port) dom a size
    d1.each (cutAt (max 64 d.port.mps) a l (size / 64 + 2)) fun c d =>
      d.emit (.tlp port (c.map Prod.fst) (c.any Prod.snd) 0)

/-- Every site has been filled, or has failed: until then device memory accepts no access from a port (R214). -/
def Dev.filled (d : Dev) : Bool := (List.range 16).all fun n => d.b (siteSts n) 0 || d.b (siteSts n) 1

/-- The device address of a BAR4 offset (R297). -/
def Dev.bar4Addr (d : Dev) (off : Nat) : Nat := d.gA (pgHEP + 0x108) 0 18 * 2 ^ 30 + off

/-- A request to BAR4, decoded (R214, R297, R298, R301, R316). -/
def Dev.bar4 (d : Dev) (wr : Bool) (off size : Nat) (data : List Byte) (poison : Bool) : Dev :=
  d.atBar wr fun d =>
    let d := if wr && poison then d.poisonRx 8 else d
    let a := d.bar4Addr off
    if 2 ^ d.port.b4Log < off + size then d.unsupported 8 wr
    else if d.safe || !d.filled then (if wr then d else d.unsupported 8 false)
    else if !inUserMem a size then
      (if wr then d.accessDenied pgHEP none 0x40 a 8 else d.unsupported 8 false)
    else d.memServe 0x40 8 wr a size data poison

/-! ### Accelerators and WIN -/

/-- Window `n`'s fields in the active bank (Table 11.5). -/
def winReg (n o : Nat) : Nat := pgWIN + 0x100 + 16 * n + o

/-- Window `n` claims a request of port `k` (R305). -/
def Dev.claims (d : Dev) (n k : Nat) (wr : Bool) (addr : Nat) : Bool :=
  let c := (d.rdA (winReg n 0)).toNat
  let sz := fieldN c 16 6
  let base := d.gA (winReg n 4) 16 16 * 2 ^ 16 + d.gA (winReg n 8) 0 18 * 2 ^ 32
  bitN c 0 && bitN c (8 + k) && bitN c (if wr then 2 else 1) && addr % 2 ^ 50 / 2 ^ sz == base / 2 ^ sz

/-- The device address that window `n` serves a bus address from (R306). -/
def Dev.winAddr (d : Dev) (n addr : Nat) : Nat :=
  (d.rdA (winReg n 12)).toNat * 2 ^ 16 + addr % 2 ^ fieldN (d.rdA (winReg n 0)).toNat 16 6

/-- Where a claimed request is served, if all of it may be (R305, R306); and whether it breaches the cove condition. -/
def Dev.winTarget (d : Dev) (n : Nat) (wr : Bool) (addr size : Nat) : Option Nat × Bool :=
  let c := (d.rdA (winReg n 0)).toNat
  let sz := fieldN c 16 6
  let a := d.winAddr n addr
  let k := fieldN c 24 6
  let cove := bitN c 30 && ((d.cove k).peerHold || !d.inCove k wr a size)
  if 2 ^ sz < addr % 2 ^ sz + size ∨ !(inUserMem a size || inHarbour a size) ∨ cove then (none, cove) else (some a, false)

/-- A claimed request that is not served (R298, R306). -/
def Dev.winRefused (d : Dev) (n k : Nat) (wr cove : Bool) (addr : Nat) : Dev :=
  let c := (d.rdA (winReg n 0)).toNat
  let dom := if bitN c 30 then fieldN c 24 6 else 0x40
  let d1 := (d.inc (pgWIN + 0x840)).setErr pgWIN 0
  let d2 := if cove then ((d1.inc (pgWIN + 0x848)).setErr pgWIN 1).deny (fieldN c 24 6) else d1
  if wr then d2.accessDenied pgWIN none dom addr k else d2.unsupported k false

/-- The windows that claim a request of a port (R305, R310). -/
def Dev.hits (d : Dev) (port : Nat) (wr : Bool) (addr : Nat) : List Nat :=
  if d.port.apBme.getD port false && d.b (pgWIN + 8) 0 then (List.range 64).filter fun n => d.claims n port wr addr else []

/-- ACS of APk finds a violation in a request (Table 11.1): Source Validation, of a requester that is not on the buses below
the port; Translation Blocking, of a request whose address says translated. -/
def Dev.acsViolates (d : Dev) (port : Nat) (attr : ReqAttr) : Bool :=
  let s := d.port.acs.getD port 0
  let b := d.port.buses.getD (port + 1) (0, 0, 0)
  (bitN s 0 && !(decide (b.2.1 ≤ attr.bus) && decide (attr.bus ≤ b.2.2))) || (bitN s 1 && attr.trans)

/-- A request that no window claims: PCIe switch rules and ACS (R303, R310). -/
def Dev.unclaimed (d : Dev) (port : Nat) (wr : Bool) (addr size : Nat) (data : List Byte) (attr : ReqAttr) :
    Dev :=
  if !d.port.apBme.getD port false then d.unsupported port wr
  else if d.acsViolates port attr then
    let d1 := d.aerErr port 21
    if wr then d1 else d1.emit (.tlp port [] false 3)
  else
    let p := d.busPort addr
    let dst := if p ≠ 8 ∧ p ≠ port ∧ !bitN (d.port.acs.getD port 0) 2 then p else 8
    if d.linkUp dst then d.emit (.routed port dst wr addr size data attr.poison attr.pasid) else d.unsupported port wr

/-- A write claimed while the device is cut: one PEER_WRITE_STOPPED record per port, into which the later ones are merged
(R446, R458). -/
def Dev.writeStopped (d : Dev) (port addr : Nat) : Dev :=
  match d.err.stopRecs.lookup port with
  | some i =>
    let r := d.err.recs.get (fun _ => {}) i
    if r.code = 0x0016 then
      let recs := (i, { r with count := min 65535 (r.count + 1) }) :: d.err.recs.filter (·.1 ≠ i)
      ({ d with err := { d.err with recs := recs } } : Dev).inc 0x5814
    else d
  | none =>
    let d1 := { d with err := { d.err with stopRecs := (port, d.g 0x510c 0 8) :: d.err.stopRecs } }
    d1.report (pgAP port) none 0x0016 0x41 port addr

/-- A request that window `n`, and those of `rest` too, claim (R214, R305, R306, R316, R458). -/
def Dev.claimed (d1 : Dev) (n : Nat) (rest : List Nat) (port : Nat) (wr : Bool) (addr size : Nat) (data : List Byte)
    (poison : Bool) : Dev :=
  let d2 := d1.inc (pgWIN + (if wr then 0x800 else 0x804) + 8 * port)
  let d3 := if rest.isEmpty then d2 else (d2.inc (pgWIN + 0x844)).setErr pgWIN 2
  if d3.safe || d3.b (pgWIN + 8) 2 then (if wr then d3 else d3.unsupported port false)
  else if wr && d3.slack.cut then
    (d3.inc (pgWIN + 0x840)).writeStopped port addr
  else match d3.winTarget n wr addr size with
    | (none, cove) => d3.winRefused n port wr cove addr
    | (some a, _) =>
      let c := (d3.rdA (winReg n 0)).toNat
      if areaOf a = .device ∧ !d3.filled then (if wr then d3 else d3.unsupported port false)
      else d3.memServe (if bitN c 30 then fieldN c 24 6 else 0x40) port wr a size data poison

/-- A request of an accelerator, decoded (R303 to R307, R310, R316, R458). -/
def Dev.accReq (d : Dev) (port : Nat) (wr : Bool) (addr size : Nat) (data : List Byte) (attr : ReqAttr) : Dev :=
  d.when (d.linkUp port) fun d =>
    let d0 := d.wake port
    let d1 := if wr && attr.poison then d0.poisonRx port else d0
    match d1.hits port wr addr with
    | [] => d1.unclaimed port wr addr size data attr
    | n :: rest => d1.claimed n rest port wr addr size data attr.poison

/-! ### Requests that wait at a port -/

/-- The port a request comes in on. -/
def PortReq.port : PortReq → Nat
  | .bar0 .. => 8
  | .bar4 .. => 8
  | .acc p .. => p

/-- A request decoded and served. -/
def Dev.serveReq (d : Dev) : PortReq → Dev
  | .bar0 b w o n l => d.bar0 b w o n l
  | .bar4 w o n l p => d.bar4 w o n l p
  | .acc k w a n l t => d.accReq k w a n l t

/-- A request cannot be decoded yet: a boundary holds (R60, R297, R307); or its memory lies on a channel that is retraining, so
that it waits, and the later ones of its port with it (R210, R304). -/
def Dev.mustWait (d : Dev) : PortReq → Bool
  | .bar0 .. => d.tide.hold
  | .bar4 _ o n _ _ => d.tide.hold || d.blocked (d.bar4Addr o) n
  | .acc k w a n _ _ =>
    d.tide.hold || match d.hits k w a with
      | [] => false
      | m :: _ => d.blocked (d.winAddr m a) n

/-- The requests that wait are decoded in their order, those of one port after one another. -/
def Dev.serveWaiting (d : Dev) : Dev :=
  let l := d.port.waitReq
  if l.isEmpty then d
  else ({ d with port := { d.port with waitReq := [] } } : Dev).each l fun r d =>
    if d.mustWait r || d.port.waitReq.any (·.port == r.port) then
      { d with port := { d.port with waitReq := d.port.waitReq ++ [r] } }
    else d.serveReq r

/-- A request arrives at its port, behind those that wait there. -/
def Dev.arrive (d : Dev) (r : PortReq) : Dev :=
  ({ d with port := { d.port with waitReq := d.port.waitReq ++ [r] } } : Dev).serveWaiting

/-- BAR0_REQUEST (R265, R269, R295, R296, R316, R452): a request to BAR0, or to BAR2, of `size` bytes; an 8-byte request is two
4-byte accesses in ascending order. -/
def execBar0Request (bar2 wr : Bool) (off size : Nat) (data : List Byte) (s : State) : Res :=
  lift (fun d => d.when (d.linkUp 8) fun d => d.arrive (.bar0 bar2 wr off size data)) s

/-- BAR4_REQUEST (R297, R298, R301, R316). -/
def execBar4Request (wr : Bool) (off size : Nat) (data : List Byte) (poison : Bool) (s : State) : Res :=
  lift (fun d => d.when (d.linkUp 8) fun d => d.arrive (.bar4 wr off size data poison)) s

/-- ACCELERATOR_REQUEST (R303 to R307, R310, R316, R458). -/
def execAcceleratorRequest (port : Fin 8) (wr : Bool) (addr size : Nat) (data : List Byte) (attr : ReqAttr) (s : State) : Res :=
  lift (fun d => d.when (d.linkUp port && d.b (pgAP port + 8) 0) fun d =>
    d.arrive (.acc port wr addr size data attr)) s

/-! ### The hierarchy and configuration requests (R293, R299, R308, R315) -/

/-- What a configuration request names: HEP, PF0, APk's bridge, something below APk, or nothing. -/
inductive CfgDst
  | hep | pf0 | ap (k : Nat) | below (k : Nat) | nothing
deriving DecidableEq, Repr

/-- The function a configuration request names (R293): a type 0 request is for HEP; a type 1 request is routed by bus. -/
def Dev.cfgDst (d : Dev) (r : CfgReq) : CfgDst :=
  let sec := (d.port.buses.getD 0 (0, 0, 0)).2.1
  if !r.type1 then (if r.dev = 0 ∧ r.fn = 0 then .hep else .nothing)
  else if r.bus = sec then
    (if r.fn ≠ 0 then .nothing else if r.dev = 0 then .pf0 else if r.dev ≤ 8 then .ap (r.dev - 1) else .nothing)
  else match (List.range 8).find? fun k =>
      let b := d.port.buses.getD (k + 1) (0, 0, 0)
      b.2.1 ≠ 0 && decide (b.2.1 ≤ r.bus) && decide (r.bus ≤ b.2.2) with
    | some k => .below k
    | none => .nothing

/-- A configuration register of a function, by its place in the lists of `Port`, as it reads: what the model holds, and free
bits for the rest (the layouts are PCIe's: PRESUMED, log entry 78). -/
def Dev.cfgRead (d : Dev) (i : Nat) (pf0 : Bool) (reg : CfgReg) : Nat × Dev :=
  let (w, d1) := d.freeWord
  let x := w.toNat % 2 ^ 32
  let p := d.port
  match reg with
  | .command =>
    let (b, m) := if pf0 then (p.bme, p.mse) else if i = 0 then (bitN x 2, bitN x 1) else (p.apBme.getD (i - 1) false, bitN x 1)
    (setFieldN (setFieldN x 2 1 (b2n b)) 1 1 (b2n m), d1)
  | .buses =>
    let b := p.buses.getD i (0, 0, 0)
    (setFieldN (setFieldN (setFieldN x 0 8 b.1) 8 8 b.2.1) 16 8 b.2.2, d1)
  | .devCap2 => (setFieldN x 0 4 0, d1)
  | .devCtl2 => (setFieldN x 4 1 (b2n p.cplTmoDis), d1)
  | .acs => (if i = 0 then x else setFieldN x 0 16 (p.acs.getD (i - 1) 0 % 2 ^ 16), d1)
  | .dpc => (if i = 0 then x else setFieldN x 0 1 (b2n (p.dpc.getD (i - 1) false)), d1)
  | .slot => (if i = 0 then x else setFieldN (setFieldN x 3 1 (p.slot.getD (i - 1) 0 % 2)) 8 1 (p.slot.getD (i - 1) 0 / 2 % 2), d1)
  | .aer => (p.aer.getD i 0, d1)
  | .vendor => (x, d1)
  | .other _ => (x, d1)

/-- A configuration register of a function written: bus numbers, Completion Timeout Disable, ACS control, and the status bits
that a 1 clears. Bus Master Enable, Memory Space Enable and the size of BAR4 are written by commands of their own. -/
def Dev.cfgWrite (d : Dev) (i : Nat) (pf0 : Bool) (reg : CfgReg) (v : Nat) : Dev :=
  let p := d.port
  let put (p : Port) : Dev := { d with port := p }
  match reg with
  | .buses => if pf0 then d else put { p with buses := p.buses.set i (fieldN v 0 8, fieldN v 8 8, fieldN v 16 8) }
  | .devCtl2 => if pf0 then put { p with cplTmoDis := bitN v 4 } else d
  | .acs => if i = 0 then d else put { p with acs := p.acs.set (i - 1) (fieldN v 0 5) }
  | .dpc => if i ≠ 0 ∧ bitN v 0 then put { p with dpc := p.dpc.set (i - 1) false } else d
  | .slot =>
    if i = 0 then d else
      let s := p.slot.getD (i - 1) 0
      put { p with slot := p.slot.set (i - 1) (b2n (bitN s 0 && !bitN v 3) + 2 * b2n (bitN s 1 && !bitN v 8)) }
  | .aer => put { p with aer := p.aer.set i ((List.range 32).foldl (fun x j =>
      if bitN v j then setFieldN x j 1 0 else x) (p.aer.getD i 0)) }
  | .command => d
  | .vendor => d
  | .devCap2 => d
  | .other _ => d

/-- A configuration request answered with Configuration Request Retry Status (R308, R315). -/
def Dev.cfgRetry (d : Dev) : Dev := d.emit (.tlp 8 [] false 2)

/-- A configuration request to a function of the device that exists: retry status while the start-up or, at PF0, a
function-level reset lasts; a Vendor ID read is then answered with 0x0001 where software visibility is enabled (R308, R315). -/
def Dev.cfgServe (d : Dev) (i : Nat) (pf0 : Bool) (r : CfgReq) : Dev :=
  if d.port.retry then
    match r.reg, r.wr with
    | .vendor, none => if d.port.rrsVis then d.emit (.tlp 8 [1, 0, 0xff, 0xff] false 0) else d.cfgRetry
    | _, _ => d.cfgRetry
  else if pf0 && d.port.flr then d.cfgRetry
  else
    let d0 := if r.type1 then d else { d with port := { d.port with busB := r.bus } }
    match r.wr with
    | some v => (d0.cfgWrite i pf0 r.reg v.toNat).emit (.tlp 8 [] false 0)
    | none =>
      let (v, d1) := d0.cfgRead i pf0 r.reg
      d1.emit (.tlp 8 (leBytes v 4) false 0)

/-- A configuration request (R293, R299). -/
def Dev.cfgReq (d : Dev) (r : CfgReq) : Dev :=
  match d.cfgDst r with
  | .hep => d.cfgServe 0 false r
  | .pf0 => d.cfgServe 0 true r
  | .ap k => d.cfgServe (k + 1) false r
  | .below k => if d.linkUp k then d.emit (.cfg k r) else d.unsupported 8 false
  | .nothing => d.unsupported 8 false

/-- PF0_UNSUPPORTED_REQUEST (R293, R299, R308, R315): a request to HEP that is no memory request of a BAR. A memory write (`wr`)
that hits no BAR is not answered; a vendor-defined message of type 1 is discarded; a configuration request is answered by its
function, or as unsupported where no such function exists. -/
def execPf0UnsupportedRequest (wr : Bool) (r : PfReq) (s : State) : Res :=
  lift (fun d => d.when (d.linkUp 8) fun d =>
    match r with
    | .vdm1 => d.wake 8
    | .miss => (d.wake 8).unsupported 8 wr
    | .io => (d.wake 8).unsupported 8 false
    | .locked => (d.wake 8).unsupported 8 false
    | .atomic => (d.wake 8).unsupported 8 false
    | .cfg c => (d.wake 8).cfgReq c) s

/-! ### Resets and enables -/

/-- PF0's part of a function-level reset (R308): engines silent, the driver's rings deleted and pair 0 as after reset, the
lease expired, the configuration space of PF0 and its MSI-X table as after reset but for the size of BAR4 and B4_BASE, the
host network pairs off (R367). -/
def Dev.pfReset (d : Dev) : Dev :=
  let qs := (List.range 256).filter fun q => q ≠ 0 && (d.ring q).enabled && (d.ring q).driver
  let d1 := (d.dmaSilence.each qs fun q d => d.dropRing q).dropRing 0
  let d2 := (d1.each [0x8100, 0x8104, 0x8108, 0x8120, 0x8124, 0x8128, 0x812c, 0x8130] fun k d => d.wr k (regReset k)).sb 0x8110 4 false
  let d3 := d2.when (d2.fwRunning && !d2.expired) fun d => d.leaseExpire
  let port := { d3.port with
    bme := false, mse := false, mrrs := 512, mps := 128, cplTmoDis := false, aer := d3.port.aer.set 0 0 }
  ({ d3 with port := port, msixPend := [], regs := d3.regs.filter fun r => r.1 < 0x200000 || decide (0x202000 ≤ r.1) } :
    Dev).hnqOff

/-- A configuration write to PF0, or to another function, that has a command of its own: with the start-up, or at PF0 a
function-level reset, in progress it is answered with retry status (R308, R315). -/
def Dev.cfgTo (d : Dev) (pf0 : Bool) (f : Dev → Dev) : Dev :=
  d.when (d.linkUp 8) fun d => if d.port.retry || (pf0 && d.port.flr) then d.cfgRetry else f d

/-- FUNCTION_LEVEL_RESET (R308): the Initiate FLR bit of PF0 written. -/
def execFunctionLevelReset (s : State) : Res :=
  lift (fun d => d.cfgTo true fun d =>
    let d1 := d.pfReset.inc (pgHEP + 0x814)
    { d1 with port := { d1.port with flr := true } }) s

/-- FLR_COMPLETE (R308). -/
def execFlrComplete (s : State) : Res := lift (fun d => { d with port := { d.port with flr := false } }) s

/-- BUS_MASTER_CLEAR (R309): a write of PF0's Command register with Bus Master Enable 0, and Memory Space Enable as given. -/
def execBusMasterClear (mse : Bool) (s : State) : Res :=
  lift (fun d => d.cfgTo true fun d =>
    let was := d.port.bme
    let d1 := { d with port := { d.port with bme := false, mse := mse } }
    if was then d1.dmaBmeClear else d1) s

/-- BUS_MASTER_SET (R302, R309): a write of PF0's Command register with Bus Master Enable 1. -/
def execBusMasterSet (mse : Bool) (s : State) : Res :=
  lift (fun d => d.cfgTo true fun d =>
    ({ d with port := { d.port with bme := true, mse := mse } } : Dev).msixFlush) s

/-- AP_BUS_MASTER_WRITE (R303, R310): the configuration of APk's bridge: Bus Master Enable, memory window, ACS control. -/
def execApBusMasterWrite (port : Fin 8) (bme : Bool) (win : Nat × Nat) (acs : Nat) (s : State) : Res :=
  lift (fun d => d.cfgTo false fun d =>
    { d with port := { d.port with
        apBme := d.port.apBme.set port bme
        apWin := d.port.apWin.set port win
        acs := d.port.acs.set port (acs % 32) } }) s

/-- BAR4_RESIZE (R317, Tables 11.2 and 11.3): accepted only while Memory Space Enable is 0. -/
def execBar4Resize (log : Nat) (s : State) : Res :=
  lift (fun d => d.cfgTo true fun d =>
    d.when (!d.port.mse && decide (30 ≤ log) && decide (log ≤ 41)) fun d =>
      { d with port := { d.port with b4Log := log } }) s

/-! ### Links -/

/-- A link's state and LINK_STS. -/
def Dev.setLink (d : Dev) (p : Nat) (up : Bool) (sts : Nat) : Dev :=
  let i := linkIdx p
  { d with port := { d.port with
      up := d.port.up.set i up, lnk := d.port.lnk.set i sts, ltr := if up then d.port.ltr else d.port.ltr.set i 0 } }

/-- A port event of APk: DPC is triggered by a link that went down, presence and link state have changed, and the host is told
(R312). -/
def Dev.slotEvent (d : Dev) (k : Nat) (down : Bool) : Dev :=
  let p := d.port
  let d1 := { d with port := { p with dpc := if down then p.dpc.set k true else p.dpc, slot := p.slot.set k 3 } }
  if d1.linkUp 8 then d1.emit (.portEvent k) else d1

/-- The link of APk goes down (R312). Requests of its accelerator that wait at the port are gone with it. -/
def Dev.apDown (d : Dev) (k : Nat) : Dev :=
  d.when (d.linkUp k) fun d =>
    let d1 := (((((d.setLink k false 0).dmaPortDown k).setErr (pgAP k) 0).setErr (pgAP k) 4).aerErr k 5).inc (pgAP k + 0x814)
    ({ d1 with port := { d1.port with waitReq := d1.port.waitReq.filter (·.port ≠ k) } } : Dev).slotEvent k true

/-- Images that wait for the host end BUS_ERR, reported only in their registers (R311, R263). -/
def Dev.hostReadsEnd (d : Dev) : Dev :=
  d.each (List.range 64) fun n d =>
    let e := d.eng n
    match e.rd.find? (·.port == 8) with
    | some r =>
      if e.active then (d.setEng n { e with rd := [], todo := [], noRec := true, fault := some (r.addr, true) }).engReport n 0x0a
      else d
    | none => d

/-- HEP's link goes down, or receives Hot Reset (R311): as an FLR; the AP links go down; reads of the host end. RESET_CNT counts
hot resets (Table 11.4). -/
def Dev.hepDown (d : Dev) (hot : Bool) : Dev :=
  d.when (d.linkUp 8) fun d =>
    let d0 := if hot then d.inc (pgHEP + 0x814) else d
    let d1 := (((d0.hostReadsEnd.pfReset).setLink 8 false 0).setErr pgHEP 0).each (List.range 8) fun k d => d.apDown k
    { d1 with port := { d1.port with
        flr := false, waitReq := [], busB := 0, buses := List.replicate 9 (0, 0, 0), acs := List.replicate 8 0
        apBme := List.replicate 8 false, apWin := List.replicate 8 (0, 0), rrsVis := false, aer := List.replicate 9 0 } }

/-- HEP_LINK_DOWN (R311). Whether Hot Reset was received or the link went down by itself is the link partner's choice, which
the row does not say: a free bit. -/
def execHepLinkDown (s : State) : Res :=
  lift (fun d => d.when (d.linkUp 8) fun d => d.freeBit.2.hepDown d.freeBit.1) s

/-- AP_LINK_DOWN (R312). -/
def execApLinkDown (port : Fin 8) (s : State) : Res := lift (fun d => d.apDown port) s

/-- LINK_STS of a link that has trained, in L0 (Table 11.4); at 64 GT/s it is in FLIT mode, at lower rates when the partner
supports it (Table 11.1). -/
def linkWord (speed width : Nat) (flit : Bool) : Nat := speed % 16 + width % 32 * 16 + b2n (flit || speed == 6) * 2 ^ 9

/-- A link may train at a rate of 2.5 to 64 GT/s, at a width that PCIe has (Table 11.1). -/
def linkTrains (most speed width : Nat) : Bool :=
  decide (1 ≤ speed) && decide (speed ≤ 6) && decide (width ≤ most) && decide (width ∈ [1, 2, 4, 8, 16])

/-- HEP_LINK_UP (R314, R315): the link trains once the module's reset has ended; with what the host then configures: the
requests' sizes, ASPM, and Configuration RRS Software Visibility. -/
def execHepLinkUp (speed width : Nat) (flit : Bool) (mrrs mps : Nat) (host : HostSet) (s : State) : Res :=
  lift (fun d => d.when (d.pwr.started && !d.linkUp 8 && linkTrains 16 speed width) fun d =>
    let d1 := (d.setLink 8 true (linkWord speed width flit)).sb 0x2100 8 true
    { d1 with port := { d1.port with
        mrrs := min 4096 (max 128 mrrs), mps := min 512 (max 128 mps), aspm := d1.port.aspm.set 0 host.aspm, rrsVis := host.rrs } }) s

/-- AP_LINK_UP (R315): the AP links train only when retry status has ended. -/
def execApLinkUp (port : Fin 8) (speed width : Nat) (flit : Bool) (aspm : Bool × Bool × Bool) (s : State) : Res :=
  lift (fun d => d.when (d.pwr.started && !d.port.retry && !d.linkUp port && d.b (pgAP port + 8) 0
      && linkTrains 8 speed width) fun d =>
    let d1 := ((d.setLink port true (linkWord speed width flit)).sb 0x2100 8 true).slotEvent port false
    { d1 with port := { d1.port with aspm := d1.port.aspm.set (port + 1) aspm } }) s

/-- LINK_L1_IDLE (R314): a port (8: HEP) idle for L1_IDLE us enters L1, or L1.1 or L1.2, where enabled. -/
def execLinkL1Idle (port : Fin 9) (sub : Fin 3) (s : State) : Res :=
  lift (fun d =>
    let i := linkIdx port
    let e := d.port.aspm.getD i (false, false, false)
    let w := d.port.lnk.getD i 0
    let on := e.1 && ((sub.val == 0 && !e.2.1 && !e.2.2) || (sub.val == 1 && e.2.1) || (sub.val == 2 && e.2.2))
    d.when (d.linkUp port && on && fieldN w 10 2 == 0) fun d =>
      (d.setLink port true (setFieldN w 10 2 (sub + 1))).inc (pgPort port + 0x810)) s

/-- A reference clock is lost: 0 PREF, 1 NREF (R538). -/
def Dev.clockLost (d : Dev) (n : Nat) : Dev := ((d.sb 0x2100 (8 + n) false).setErr pgCLK n).inc 0x2808

/-- The loss of NREF takes every network link down (R538). -/
def Dev.nrefLost (d : Dev) : Dev := (d.clockLost 1).each (List.range 8) fun p d => d.netDown p

/-- The loss of PREF takes the HEP, AP and SRP links down (R538). -/
def Dev.prefLost (d : Dev) : Dev :=
  let d2 := ((d.clockLost 0).hepDown false).each (List.range 8) fun k d => d.apDown k
  (d2.each ((List.range 4).filter d2.ssdReady) fun p d => (d.setErr pgSRP p).ssdLost p).nvSettle

/-- REFERENCE_CLOCK_LOSS (R538) of NREF (`nref`), or of PREF. -/
def execReferenceClockLoss (nref : Bool) (s : State) : Res :=
  lift (fun d => d.when (d.pwr.started && d.b 0x2100 (8 + b2n nref)) fun d => if nref then d.nrefLost else d.prefLost) s

end Sys2Proof.Machine
end

