-- ==== Sys2Proof/Machine/Boundary.lean ====
section
/-!
DEFINITION. Machine/Boundary.lean: what is applied at a tide boundary, in the order of Table 2.8 (R60).
-/
namespace Sys2Proof.Machine

/-- Action 1: commits armed at or below the current tide, in block page order; one armed while this boundary is being
applied waits for the next (R54, R59). -/
def Dev.commitsDue (d : Dev) : Dev :=
  d.each allPages fun p d =>
    let pg := p * 0x1000
    let c := d.commit pg
    match c.armed with
    | none => d
    | some t =>
      if c.skip then d.setCommit pg { c with skip := false }
      else if t ≤ d.tide.cur then d.activate pg
      else d

/-- A tide armed for an action is due. -/
def Dev.due (d : Dev) (t : DWord) : Bool := decide (t ≤ d.tide.cur)

/-- Action 2: resizes, then freezes and thaws, of the coves (R330, R336, R337). A cove no longer in the state its armed
freeze or thaw needs answers BAD_STATE. -/
def Dev.covesDue (d : Dev) : Dev :=
  let d1 := d.each (List.range 64) fun n d =>
    match (d.cove n).resize with
    | some (_, some t, _) => if d.due t then d.applyResize n else d
    | _ => d
  let d2 := d1.each (List.range 64) fun n d =>
    match (d.cove n).freezeAt with
    | none => d
    | some (cid, t) =>
      if !d.due t then d
      else if (d.cove n).state = 1 then d.coveFreeze n cid
      else (d.setCove n { d.cove n with freezeAt := none }).complete 0 cid 0x0105 0
  d2.each (List.range 64) fun n d =>
    match (d.cove n).thawAt with
    | none => d
    | some (cid, t) =>
      if !d.due t then d
      else if (d.cove n).state = 3 then (d.coveThaw n).complete 0 cid 0 0
      else (d.setCove n { d.cove n with thawAt := none }).complete 0 cid 0x0105 0

/-- Action 3: the handover of an update whose image is verified (R276, R277). -/
def Dev.handoverDue (d : Dev) : Dev :=
  match d.fw.update with
  | some u => match u.arm with
    | some t => if u.stage = 1 ∧ d.due t then (d.handover u).serveCalls else d
    | none => d
  | none => d

/-- An assignment of the buddy ring armed at this tide takes effect; on the headland BUDDY_RING then completes, once every
member has acknowledged (R432, R433). -/
def Dev.ringDue (d : Dev) : Dev :=
  match d.ckp.offerAt, d.ckp.offer with
  | some t, some m =>
    if !d.due t then d
    else
      let d1 := d.applyOffer m
      match d1.tide.ctlOps.find? (·.req == 7) with
      | some o => if o.waiting.isEmpty then d1.ringDone o.cid else d1
      | none => d1
  | _, _ => d

/-- Action 4: the buddy ring, then the capture of a snapshot (R427, R433). `old`: FW_VER before this boundary. -/
def Dev.snapDue (d : Dev) (old : Nat) : Dev :=
  let d1 := d.ringDue
  match d1.ckp.armAt with
  | none => d1
  | some (cid, t) => if d1.due t then d1.snapCapture cid old else d1

/-- Action 6: a global stop begins to ebb (R456). -/
def Dev.stopDue (d : Dev) : Dev :=
  match d.err.gstopTide with
  | none => d
  | some t => if d.due t && d.g 0x5120 0 2 == 1 then d.s 0x5120 0 2 2 else d

/-- The placement map of a MAP_LOAD is in force: the command completes (R135). -/
def Dev.mapDue (d : Dev) : Dev :=
  let done := d.tide.ctlOps.filter fun o => o.req == 3 && o.waiting.isEmpty && d.due o.tide
  let d1 := { d with tide := { d.tide with ctlOps := d.tide.ctlOps.filter fun o => !done.contains o } }
  d1.each done fun o d => d.complete 0 o.cid 0 0

/-- Exclusions armed at this tide (R462). -/
def Dev.excludesDue (d : Dev) : Dev :=
  d.each (d.tide.excluding.filter fun e => d.due e.2) fun e d =>
    if d.isHead then d.excludeNow e.1
    else
      let d1 := { d with tide := { d.tide with excluding := d.tide.excluding.erase e } }
      if e.1 = d.tide.dev then d1.dropAssignment else d1.excludePeer e.1

/-- The credit state of a device included at this tide, on either side, and the arrivals that the included device still
holds (R152). Its arrival ring is empty then; XARR_HEAD and PHASE stand as they are (DESIGN CHOICE, log entry 94). -/
def Dev.includeOne (d : Dev) (dev : Nat) : Dev :=
  if dev = d.tide.dev then
    let d1 := { d with xch := { d.xch with arrivals := [] } }
    d1.each (d.tide.members.filter fun m => m ≠ dev) fun m d => d.freshCredit m
  else d.freshCredit dev

/-- Inclusions armed at this tide: the headland awaits the device's reports again, and MEMBER_INCLUDE completes (R463). -/
def Dev.includesDue (d : Dev) : Dev :=
  d.each (d.tide.including.filter fun e => d.due e.2) fun e d =>
    let mine := d.tide.ctlOps.filter fun o => o.req == 14 && o.dev == e.1 && o.waiting.isEmpty
    let t := { d.tide with
      including := d.tide.including.erase e, excluded := d.tide.excluded.filter (· ≠ e.1)
      ctlOps := d.tide.ctlOps.filter fun o => !mine.contains o }
    ((({ d with tide := t } : Dev).includeOne e.1).each mine fun o d => d.complete 0 o.cid 0 0)

/-- Every action armed at or below the current tide, in the order of Table 2.8. -/
def Dev.applyActions (d : Dev) : Dev :=
  let old := d.fw.image.ver
  let d1 := d.commitsDue.mapDue.excludesDue.includesDue
  ((d1.covesDue.handoverDue.snapDue old).dumpsDue).stopDue

/-- Slack that an expiry of the lease or an escalated error before this boundary brings (R282, R448). -/
def Dev.pendedSlack (d : Dev) : Dev :=
  let d1 := match d.fw.leaseSlackPend with
    | some t => if t < d.tide.cur then d.enterLease else d
    | none => d
  match d1.fw.escalSlackPend with
  | some t =>
    if t < d1.tide.cur then
      { d1 with fw := { d1.fw with escalSlackPend := none }, slack := { d1.slack with escal := true } }
    else d1
  | none => d1

/-- The TIDE record of every running traced core (Table 19.1). -/
def Dev.traceTide (d : Dev) : Dev :=
  d.each ((List.range 37).filter fun i => (d.core i).running) fun i d => d.coreRec i 7 0 d.tide.cur.toNat

/-- The hold is released: counters are swept (R484), buffers trigger on their tide (R489), the device enters slack where that
is due, takes up a mark that came meanwhile, or reports if it has finished. -/
def Dev.release (d : Dev) : Dev :=
  let d1 := ({ d with tide := { d.tide with hold := false } } : Dev).sweep
  ((d1.traceTide.triggerTide).pendedSlack).resumed.checkDone.serveWaiting

/-- BOUNDARY_APPLY (R60). -/
def execBoundaryApply (s : State) : Res :=
  lift (fun d => d.when (d.tide.hold && d.fwRunning && !d.safe) fun d => d.applyActions.release) s

end Sys2Proof.Machine
end

