-- ==== Sys2Proof/Machine/Briesk.lean ====
section
/-!
DEFINITION. Machine/Briesk.lean: the Briesk instructions (chapter 8). The instruction and what its access meets outside the
device come with the command; whether it is the word at the program counter is the sender's concern.
-/
namespace Sys2Proof.Machine

/-! ### Immediates and results -/

/-- A signed immediate (R219). -/
def sx {w : Nat} (x : BitVec w) : DWord := x.signExtend 64
/-- An unsigned immediate (R219). -/
def zx {w : Nat} (x : BitVec w) : DWord := x.zeroExtend 64

/-- The result of an arithmetic, logical or conversion instruction: POISON where an operand is (R228). -/
def Dev.giveP (d : Dev) (i : Fin 37) (k : Core) (r : BitVec 5) (v : DWord) (t : Nat) (poison : Bool) : Iss :=
  d.give i k r v (if poison then tPOISON else t)

/-- Flags after an instruction that sets them; with a POISON operand only T changes (R228, R234). -/
def Core.flagged (k : Core) (poison : Bool) (f : NZCV) : Core := if poison then { k with t := false } else k.setFlags f true

/-! ### Integer operations -/

/-- An ALU operation (R225, R228, R234, Table 8.6). -/
def Dev.alu (d : Dev) (i : Fin 37) (k : Core) (rd ra rb : BitVec 5) (fn : Nat) : Iss :=
  let a := k.reg ra
  let b := k.reg rb
  let f := fn % 64
  let cmp := f == 0x13
  let sets := cmp || decide (64 ≤ fn)
  let pz := a.tag == tPOISON || b.tag == tPOISON
  match aluOp f a.v b.v with
  | none => .trap 6 0
  | some (x, fl) =>
    let out (v : DWord) (t : Nat) (fl : NZCV) : Iss :=
      let k1 := if sets then k.flagged pz fl else k
      .done (d.setCore i (if cmp then k1 else k1.setReg rd v (if pz then tPOISON else t)))
    if (cmp && rd ≠ 0) || ((f == 0x14 || f == 0x15) && rb ≠ 0) then .trap 6 0
    else if pz then out x tINT fl
    else if a.tag = tINT ∧ b.tag = tINT then out x tINT fl
    else if (f = 0 ∨ f = 1) ∧ isAddrTag a.tag ∧ b.tag = tINT then
      let s := adrPlus a.tag a.v (if f = 0 then b.v else -b.v)
      match withAdr a.tag a.v s with
      | none => .trap 3 (BitVec.ofNat 64 s)
      | some v => out v a.tag { fl with n := v.msb, z := v == 0 }
    else if f = 1 ∧ isAddrTag a.tag ∧ a.tag = b.tag then
      let p := BitVec.ofNat 64 (adrOf a.tag a.v)
      let q := BitVec.ofNat 64 (adrOf b.tag b.v)
      out (p - q) tINT (subFlags p q)
    else if cmp && isAddrTag a.tag && a.tag == b.tag then
      out 0 tINT (subFlags (BitVec.ofNat 64 (adrOf a.tag a.v)) (BitVec.ofNat 64 (adrOf b.tag b.v)))
    else if cmp && a.tag == tTIDE && b.tag == tTIDE then out 0 tINT fl
    else .trap 1 (if a.tag = tINT then b.v else a.v)

/-- ALU (R234). -/
def execAlu (core : Fin 37) (cond : BitVec 4) (d a b : BitVec 5) (fn : BitVec 7) (s : State) : Res :=
  lift (fun x => x.insn core cond false (encA cond.toNat 0x00 d.toNat a.toNat b.toNat fn.toNat) fun k x =>
    x.alu core k d a b fn.toNat) s

/-- An integer operation of a register and an immediate: INT only, POISON passes (R228, R234). -/
def Dev.aluImm (d : Dev) (i : Fin 37) (k : Core) (rd ra : BitVec 5) (f : DWord → DWord) : Iss :=
  let a := k.reg ra
  if a.tag = tINT ∨ a.tag = tPOISON then d.giveP i k rd (f a.v) tINT (a.tag == tPOISON) else .trap 1 a.v

/-- ADDI (R225, R228). -/
def execAddi (core : Fin 37) (cond : BitVec 4) (d a : BitVec 5) (imm : BitVec 12) (s : State) : Res :=
  lift (fun x => x.insn core cond false (encI cond.toNat 0x02 d.toNat a.toNat imm.toNat) fun k x =>
    let r := k.reg a
    if isAddrTag r.tag then
      let t := adrPlus r.tag r.v (sx imm)
      match withAdr r.tag r.v t with
      | none => .trap 3 (BitVec.ofNat 64 t)
      | some v => x.give core k d v r.tag
    else x.aluImm core k d a (· + sx imm)) s

/-- ANDI (R219). -/
def execAndi (core : Fin 37) (cond : BitVec 4) (d a : BitVec 5) (imm : BitVec 12) (s : State) : Res :=
  lift (fun x => x.insn core cond false (encI cond.toNat 0x03 d.toNat a.toNat imm.toNat) fun k x =>
    x.aluImm core k d a (· &&& sx imm)) s

/-- ORI (R219). -/
def execOri (core : Fin 37) (cond : BitVec 4) (d a : BitVec 5) (imm : BitVec 12) (s : State) : Res :=
  lift (fun x => x.insn core cond false (encI cond.toNat 0x04 d.toNat a.toNat imm.toNat) fun k x =>
    x.aluImm core k d a (· ||| zx imm)) s

/-- XORI (R219). -/
def execXori (core : Fin 37) (cond : BitVec 4) (d a : BitVec 5) (imm : BitVec 12) (s : State) : Res :=
  lift (fun x => x.insn core cond false (encI cond.toNat 0x05 d.toNat a.toNat imm.toNat) fun k x =>
    x.aluImm core k d a (· ^^^ zx imm)) s

/-- SHI's shift, by imm12 [7:6] and [5:0] (Table 8.5). -/
def shiftImm (imm : Nat) (v : DWord) : DWord :=
  let n := imm % 64
  match imm / 64 % 4 with
  | 0 => v <<< n
  | 1 => v >>> n
  | 2 => v.sshiftRight n
  | _ => v.rotateRight n

/-- SHI (R219). -/
def execShi (core : Fin 37) (cond : BitVec 4) (d a : BitVec 5) (imm : BitVec 12) (s : State) : Res :=
  lift (fun x => x.insn core cond false (encI cond.toNat 0x06 d.toNat a.toNat imm.toNat) fun k x =>
    if 256 ≤ imm.toNat then .trap 6 0 else x.aluImm core k d a (shiftImm imm.toNat)) s

/-- CMPI (R220, R234). -/
def execCmpi (core : Fin 37) (cond : BitVec 4) (d a : BitVec 5) (imm : BitVec 12) (s : State) : Res :=
  lift (fun x => x.insn core cond false (encI cond.toNat 0x07 d.toNat a.toNat imm.toNat) fun k x =>
    let r := k.reg a
    if d ≠ 0 then .trap 6 0
    else if r.tag = tINT ∨ r.tag = tPOISON then
      .done (x.setCore core (k.flagged (r.tag == tPOISON) (subFlags r.v (sx imm))))
    else .trap 1 r.v) s

/-- MOVI (R219). -/
def execMovi (core : Fin 37) (cond : BitVec 4) (d : BitVec 5) (imm : BitVec 17) (s : State) : Res :=
  lift (fun x => x.insn core cond false (encM cond.toNat 0x08 d.toNat imm.toNat) fun k x => x.give core k d (sx imm) tINT) s

/-- MOVS (R219). -/
def execMovs (core : Fin 37) (cond : BitVec 4) (d : BitVec 5) (imm : BitVec 17) (s : State) : Res :=
  lift (fun x => x.insn core cond false (encM cond.toNat 0x09 d.toNat imm.toNat) fun k x =>
    if 2 ^ 16 ≤ imm.toNat then .trap 6 0
    else x.aluImm core k d d fun v => (v <<< 16) ||| zx imm) s

/-! ### FP64 -/

/-- An FPU operation (R228, R235, Table 8.7). -/
def Dev.fpu (d : Dev) (i : Fin 37) (k : Core) (rd ra rb : BitVec 5) (fn : Nat) : Iss :=
  let a := k.reg ra
  let b := k.reg rb
  let c := k.reg rd
  let x := d64 a.v
  let y := d64 b.v
  let op (ts : List (Reg × Nat)) (unary : Bool) (v : DWord) (t : Nat) : Iss :=
    if unary && rb ≠ 0 then .trap 6 0
    else
      let pz := ts.any fun p => p.1.tag == tPOISON
      match if pz then none else ts.find? fun p => p.1.tag ≠ p.2 with
      | some p => .trap 1 p.1.v
      | none => d.giveP i k rd v t pz
  let fp2 : List (Reg × Nat) := [(a, tFP), (b, tFP)]
  match fn with
  | 0x00 => op fp2 false (e64 (x.add y)) tFP
  | 0x01 => op fp2 false (e64 (x.add y.neg)) tFP
  | 0x02 => op fp2 false (e64 (x.mul y)) tFP
  | 0x03 => op fp2 false (e64 (x.div y)) tFP
  | 0x04 => op [(a, tFP)] true (e64 x.sqrt) tFP
  | 0x05 => op ((c, tFP) :: fp2) false (e64 ((d64 c.v).add (x.mul y))) tFP
  | 0x06 => op fp2 false (fpPick true a.v b.v) tFP
  | 0x07 => op fp2 false (fpPick false a.v b.v) tFP
  | 0x08 =>
    let pz := a.tag == tPOISON || b.tag == tPOISON
    if rd ≠ 0 then .trap 6 0
    else if pz || (a.tag == tFP && b.tag == tFP) then .done (d.setCore i (k.flagged pz (fcmpFlags a.v b.v)))
    else .trap 1 (if a.tag = tFP then b.v else a.v)
  | 0x09 => op [(a, tFP)] true (e64 x.neg) tFP
  | 0x0a => op [(a, tFP)] true (e64 (absFV x)) tFP
  | 0x0b => op [(a, tINT)] true (e64 (.fin (a.v.msb) a.v.toInt.natAbs 0)) tFP
  | 0x0c => op [(a, tFP)] true (ftoi a.v) tINT
  | 0x0d =>
    match f2tFormat b.v.toNat with
    | some _ =>
      op [(a, tFP), (b, tINT)] false
        (BitVec.ofNat 64 (encElem (b.v.toNat % 32) x (bitN b.v.toNat 5) none).code) tINT
    | none => if a.tag = tFP ∧ b.tag = tINT then .trap 6 b.v else op [(a, tFP), (b, tINT)] false a.v tINT
  | 0x0e =>
    match f2tFormat b.v.toNat with
    | some f => op [(a, tINT), (b, tINT)] false (e64 (f.dec (a.v.toNat % 2 ^ elemBits (b.v.toNat % 32)))) tFP
    | none => if a.tag = tINT ∧ b.tag = tINT then .trap 6 b.v else op [(a, tINT), (b, tINT)] false a.v tFP
  | _ => .trap 6 0

/-- FPU (R235). -/
def execFpu (core : Fin 37) (cond : BitVec 4) (d a b : BitVec 5) (fn : BitVec 7) (s : State) : Res :=
  lift (fun x => x.insn core cond false (encA cond.toNat 0x01 d.toNat a.toNat b.toNat fn.toNat) fun k x =>
    x.fpu core k d a b fn.toNat) s

/-! ### Accesses (R226, R227) -/

/-- What a read by a core comes to: its bytes with their poison, a wait, or a trap. -/
inductive Rd
  | got (l : List Byte) (poison : Bool) (d : Dev)
  | wait (d : Dev)
  | bad (cause : Nat) (fault : DWord)

/-- Bytes of the check region: of each site its check words, by site offset, then metadata whose contents are the device's
own (R193, Table 2.3). -/
def Dev.checkBytes (d : Dev) (a : Nat) : Nat → List Byte × Dev
  | 0 => ([], d)
  | n + 1 =>
    let site := (a - devEnd) / 0x60000000
    let x := (a - devEnd) % 0x60000000
    let (b, d1) := if x < 0x5e800000 then
        let (w, d1) := d.checkWord (addrOfSite d.fw.layout site (x / 4 * 256) / 256)
        (BitVec.ofNat 8 (w / 256 ^ (x % 4)), d1)
      else d.freeByte
    let (l, d2) := d1.checkBytes (a + 1) n
    (b :: l, d2)

/-- A bus read by core `i` at `a`, with the cove number `c` of its address value: it waits while Bus Master Enable is 0; with
no answer its bytes are free values and poisoned (R227, R300, R312). -/
def Dev.ioLoad (d : Dev) (i c a n : Nat) (io : Mio) : Rd :=
  let p := d.busPort a
  if !d.port.bme then .wait d
  else
    let d1 := d.emit (.busRead p a n (d.pasidOf (some c)) 64 i)
    match if d.linkUp p then io.bus else none with
    | some l => .got (padTo n l) io.poison (if io.poison then d1.poisonRx p else d1)
    | none =>
      let (l, d2) := d1.freeBytes n
      .got l true (d2.report (pgPort p) none 0x0007 (domOf ((d.core i).dom i)) a p)

/-- The register pages read at `a`: aligned 4- and 8-byte accesses (R296, R500), which wait during the hold (R239). -/
def Dev.pageLoad (d : Dev) (a n : Nat) : Rd :=
  if n ≠ 4 ∧ n ≠ 8 then .bad 4 (BitVec.ofNat 64 a)
  else if d.tide.hold then .wait d
  else
    let (v, d1) := d.regRead (a - pageBase)
    if n = 4 then .got (leBytes v.toNat 4) false d1
    else
      let (w, d2) := d1.regRead (a - pageBase + 4)
      .got (leBytes v.toNat 4 ++ leBytes w.toNat 4) false d2

/-- Memory read by core `i` at `a`: it waits for a channel that retrains (R210). -/
def Dev.memLoad (d : Dev) (i a n : Nat) (io : Mio) : Rd :=
  if d.blocked a n then .wait d
  else
    let (ok, d1) := d.linkErrors a io.links
    if !ok then .wait d1
    else
      let (l, bad, d2) := d1.memRead (corePage i) (domOf ((d1.core i).dom i)) a n
      .got l bad d2

/-- A read by core `i` of `n` bytes at register `r` plus `imm`, after the checks of R226. -/
def Dev.coreRead (d : Dev) (i : Nat) (r : Reg) (imm : DWord) (n align : Nat) (io : Mio) : Rd :=
  match chkAccess i r imm n align false false with
  | .bad c f => .bad c f
  | .ok a =>
    if r.tag = tIO then d.ioLoad i (fieldN r.v.toNat 58 6) a n io
    else match areaOf a with
      | .pages => d.pageLoad a n
      | .check =>
        let (l, d1) := d.checkBytes a n
        .got l false d1
      | _ => d.memLoad i a n io

/-- What a write by a core comes to. -/
inductive Wr
  | put (d : Dev)
  | wait (d : Dev)
  | bad (cause : Nat) (fault : DWord)

/-- The register pages written at `a` (R296, R500); the write waits during the hold (R239). -/
def Dev.pageStore (d : Dev) (a : Nat) (l : List Byte) : Wr :=
  if l.length ≠ 4 ∧ l.length ≠ 8 then .bad 4 (BitVec.ofNat 64 a)
  else if d.tide.hold then .wait d
  else
    let d1 := d.regWrite true (a - pageBase) (leAt l 0 4)
    .put (if l.length = 4 then d1 else d1.regWrite true (a - pageBase + 4) (leAt l 4 4))

/-- A write by core `i` of bytes at register `r` plus `imm`, after the checks of R226. -/
def Dev.coreWrite (d : Dev) (i : Nat) (r : Reg) (imm : DWord) (align : Nat) (l : List Byte) (poison : Bool) : Wr :=
  match chkAccess i r imm l.length align true false with
  | .bad c f => .bad c f
  | .ok a =>
    if r.tag = tIO then .put (d.busWrite a l poison (d.pasidOf (some (fieldN r.v.toNat 58 6))))
    else match areaOf a with
      | .pages => d.pageStore a l
      | _ => if d.blocked a l.length then .wait d else .put (d.memWrite (corePage i) (domOf ((d.core i).dom i)) a l poison)

/-- A load's result in its register, and T (R227). -/
def Dev.loaded (d : Dev) (i : Fin 37) (r : BitVec 5) (v : DWord) (t : Nat) : Iss :=
  let k := (d.core i).setReg r v t
  .done (d.setCore i { k with t := t ≠ tPOISON })

/-- The value of `n` loaded bytes, sign-extended or zero-extended (R227). -/
def loadVal (n : Nat) (signed : Bool) (x : Nat) : DWord :=
  if signed && bitN x (8 * n - 1) then BitVec.ofInt 64 ((x : Int) - 2 ^ (8 * n)) else BitVec.ofNat 64 x

/-- A load of `n` bytes (R227). -/
def Dev.load (d : Dev) (i : Fin 37) (k : Core) (rd ra : BitVec 5) (imm : BitVec 12) (n : Nat) (signed : Bool) (io : Mio) : Iss :=
  match d.coreRead i (k.reg ra) (sx imm) n n io with
  | .bad c f => .trap c f
  | .wait d1 => .stall d1
  | .got l bad d1 =>
    d1.loaded i rd (loadVal n signed (leNat l)) (if bad then tPOISON else tINT)

/-- LDB (R227). -/
def execLdb (core : Fin 37) (cond : BitVec 4) (d a : BitVec 5) (imm : BitVec 12) (io : Mio) (s : State) : Res :=
  lift (fun x => x.insn core cond false (encI cond.toNat 0x0a d.toNat a.toNat imm.toNat) fun k x =>
    x.load core k d a imm 1 false io) s

/-- LDH (R227). -/
def execLdh (core : Fin 37) (cond : BitVec 4) (d a : BitVec 5) (imm : BitVec 12) (io : Mio) (s : State) : Res :=
  lift (fun x => x.insn core cond false (encI cond.toNat 0x0b d.toNat a.toNat imm.toNat) fun k x =>
    x.load core k d a imm 2 false io) s

/-- LDW (R227). -/
def execLdw (core : Fin 37) (cond : BitVec 4) (d a : BitVec 5) (imm : BitVec 12) (io : Mio) (s : State) : Res :=
  lift (fun x => x.insn core cond false (encI cond.toNat 0x0c d.toNat a.toNat imm.toNat) fun k x =>
    x.load core k d a imm 4 false io) s

/-- LDD (R227). -/
def execLdd (core : Fin 37) (cond : BitVec 4) (d a : BitVec 5) (imm : BitVec 12) (io : Mio) (s : State) : Res :=
  lift (fun x => x.insn core cond false (encI cond.toNat 0x0d d.toNat a.toNat imm.toNat) fun k x =>
    x.load core k d a imm 8 false io) s

/-- LDBS (R227). -/
def execLdbs (core : Fin 37) (cond : BitVec 4) (d a : BitVec 5) (imm : BitVec 12) (io : Mio) (s : State) : Res :=
  lift (fun x => x.insn core cond false (encI cond.toNat 0x0e d.toNat a.toNat imm.toNat) fun k x =>
    x.load core k d a imm 1 true io) s

/-- LDHS (R227). -/
def execLdhs (core : Fin 37) (cond : BitVec 4) (d a : BitVec 5) (imm : BitVec 12) (io : Mio) (s : State) : Res :=
  lift (fun x => x.insn core cond false (encI cond.toNat 0x0f d.toNat a.toNat imm.toNat) fun k x =>
    x.load core k d a imm 2 true io) s

/-- LDWS (R227). -/
def execLdws (core : Fin 37) (cond : BitVec 4) (d a : BitVec 5) (imm : BitVec 12) (io : Mio) (s : State) : Res :=
  lift (fun x => x.insn core cond false (encI cond.toNat 0x10 d.toNat a.toNat imm.toNat) fun k x =>
    x.load core k d a imm 4 true io) s

/-- A write's outcome for the core. -/
def Wr.iss : Wr → Iss
  | .put d => .done d
  | .wait d => .stall d
  | .bad c f => .trap c f

/-- A store of the low `n` bytes of a register (R227). -/
def Dev.coreStore (d : Dev) (i : Fin 37) (k : Core) (rd ra : BitVec 5) (imm : BitVec 12) (n : Nat) : Iss :=
  let v := k.reg rd
  (d.coreWrite i (k.reg ra) (sx imm) n (leBytes (storeVal v) n) (v.tag == tPOISON)).iss

/-- STB (R227). -/
def execStb (core : Fin 37) (cond : BitVec 4) (d a : BitVec 5) (imm : BitVec 12) (s : State) : Res :=
  lift (fun x => x.insn core cond false (encI cond.toNat 0x11 d.toNat a.toNat imm.toNat) fun k x => x.coreStore core k d a imm 1) s

/-- STH (R227). -/
def execSth (core : Fin 37) (cond : BitVec 4) (d a : BitVec 5) (imm : BitVec 12) (s : State) : Res :=
  lift (fun x => x.insn core cond false (encI cond.toNat 0x12 d.toNat a.toNat imm.toNat) fun k x => x.coreStore core k d a imm 2) s

/-- STW (R227). -/
def execStw (core : Fin 37) (cond : BitVec 4) (d a : BitVec 5) (imm : BitVec 12) (s : State) : Res :=
  lift (fun x => x.insn core cond false (encI cond.toNat 0x13 d.toNat a.toNat imm.toNat) fun k x => x.coreStore core k d a imm 4) s

/-- STD (R227). -/
def execStd (core : Fin 37) (cond : BitVec 4) (d a : BitVec 5) (imm : BitVec 12) (s : State) : Res :=
  lift (fun x => x.insn core cond false (encI cond.toNat 0x14 d.toNat a.toNat imm.toNat) fun k x => x.coreStore core k d a imm 8) s

/-- LDC (R229). -/
def execLdc (core : Fin 37) (cond : BitVec 4) (d a : BitVec 5) (imm : BitVec 12) (io : Mio) (s : State) : Res :=
  lift (fun x => x.insn core cond false (encI cond.toNat 0x15 d.toNat a.toNat imm.toNat) fun k x =>
    if imm.toNat % 16 ≠ 0 then .trap 6 0
    else match x.coreRead core (k.reg a) (sx imm) 16 16 io with
      | .bad c f => .trap c f
      | .wait x1 => .stall x1
      | .got l bad x1 =>
        let v := BitVec.ofNat 64 (leAt l 0 8)
        let t := leAt l 8 1
        let at_ := adrPlus (k.reg a).tag (k.reg a).v (sx imm) % 2 ^ addrBits (k.reg a).tag
        if bad then x1.loaded core d v tPOISON
        else if !tagOk t || sealField (x1.keyOf core) at_ v t ≠ leAt l 12 4 then .trap 8 (BitVec.ofNat 64 at_)
        else x1.loaded core d v t) s

/-- STC (R229); a POISON source makes the granule poisoned, as of any store (R227). -/
def execStc (core : Fin 37) (cond : BitVec 4) (d a : BitVec 5) (imm : BitVec 12) (s : State) : Res :=
  lift (fun x => x.insn core cond false (encI cond.toNat 0x16 d.toNat a.toNat imm.toNat) fun k x =>
    if imm.toNat % 16 ≠ 0 then .trap 6 0
    else
      let at_ := adrPlus (k.reg a).tag (k.reg a).v (sx imm) % 2 ^ addrBits (k.reg a).tag
      (x.coreWrite core (k.reg a) (sx imm) 16 (sealImage (x.keyOf core) at_ (k.reg d)) ((k.reg d).tag == tPOISON)).iss) s

/-- AMO (R231): one aligned 64-bit word at its storage controller; a bus address has none (Table 11.1). -/
def execAmo (core : Fin 37) (cond : BitVec 4) (d a b : BitVec 5) (fn : BitVec 7) (io : Mio) (s : State) : Res :=
  lift (fun x => x.insn core cond false (encA cond.toNat 0x17 d.toNat a.toNat b.toNat fn.toNat) fun k x =>
    if 9 < fn.toNat then .trap 6 0
    else match chkAccess core (k.reg a) 0 8 8 true true with
      | .bad c f => .trap c f
      | .ok p =>
        if (k.reg a).tag = tIO ∨ areaOf p = .pages then .trap 4 (BitVec.ofNat 64 p)
        else match x.coreRead core (k.reg a) 0 8 8 io with
          | .bad c f => .trap c f
          | .wait x1 => .stall x1
          | .got l bad x1 =>
            let old := BitVec.ofNat 64 (leNat l)
            let new := (amoOp fn.toNat old (BitVec.ofNat 64 (storeVal (k.reg b))) (k.reg d).v).getD old
            let x2 := x1.memWrite (corePage core) (domOf (k.dom core)) p (leBytes new.toNat 8) ((k.reg b).tag == tPOISON)
            x2.give core (x2.core core) d old (if bad then tPOISON else tINT)) s

/-- FENCE (R231): the core's earlier loads, stores and atomics have completed with their instructions, so there is nothing to
wait for. -/
def execFence (core : Fin 37) (cond : BitVec 4) (s : State) : Res :=
  lift (fun x => x.insn core cond false (encA cond.toNat 0x18 0 0 0 0) fun _ x => .done x) s

/-- WAITNE (R233); `ovr`: its time has passed. With a POISON operand to compare with, it sets T to 0 and leaves Z (R228). -/
def Dev.waitne (d : Dev) (i : Fin 37) (k : Core) (rd ra rb : BitVec 5) (fn : Nat) (io : Mio) (ovr : Bool) : Iss :=
  let b := k.reg rb
  if 32 ≤ fn ∨ 20 < fn % 32 then .trap 6 0
  else match d.coreRead i (k.reg ra) 0 8 8 io with
    | .bad c f => .trap c f
    | .wait d1 => .stall d1
    | .got l bad d1 =>
      let v := BitVec.ofNat 64 (leNat l)
      let pz := b.tag == tPOISON
      if b.tag ≠ tINT ∧ !pz then .trap 1 b.v
      else if v = b.v ∧ !ovr then .stall d1
      else
        let d2 := d1.stallEnd i 1
        let k1 := (d2.core i).setReg rd v (if bad || pz then tPOISON else tINT)
        .done (d2.setCore i { k1 with t := !bad && !pz, z := if pz then k1.z else v == b.v })

/-- WAITNE (R233). -/
def execWaitne (core : Fin 37) (cond : BitVec 4) (d a b : BitVec 5) (fn : BitVec 7) (io : Mio) (s : State) : Res :=
  lift (fun x => x.insn core cond false (encA cond.toNat 0x19 d.toNat a.toNat b.toNat fn.toNat) fun k x =>
    x.waitne core k d a b fn.toNat io false) s

/-- WAITNE_TIMEOUT (R233): the core stalls at this WAITNE and its 2^k us have passed. -/
def execWaitneTimeout (core : Fin 37) (cond : BitVec 4) (d a b : BitVec 5) (fn : BitVec 7) (io : Mio) (s : State) : Res :=
  lift (fun x => x.insn core cond false (encA cond.toNat 0x19 d.toNat a.toNat b.toNat fn.toNat) fun k x =>
    x.waitne core k d a b fn.toNat io true) s

/-- Bytes of a load that may time out: the seven loads of R227, LDC, LDT and WAITNE. -/
def loadSize (op : Nat) : Nat := [1, 2, 4, 8, 1, 2, 4, 16, 16, 8].getD op 8

/-- The word of a load that may time out. WAITNE's operand b and FN are the bits of the 12-bit field. -/
def loadWord (op cond d a imm : Nat) : Nat := encI cond ([0x0a, 0x0b, 0x0c, 0x0d, 0x0e, 0x0f, 0x10, 0x15, 0x31, 0x19].getD op 0x0a) d a imm

/-- LOAD_TIMEOUT (R227): no memory answers within 1 ms. -/
def execLoadTimeout (core : Fin 37) (cond : BitVec 4) (op : Fin 10) (d a : BitVec 5) (imm : BitVec 12) (s : State) : Res :=
  lift (fun x => x.insn core cond (op == 8) (loadWord op cond.toNat d.toNat a.toNat imm.toNat) fun k x =>
    let n := loadSize op
    let b := k.reg (imm.extractLsb' 7 5)
    let fn := imm.toNat % 128
    if op = 7 ∧ imm.toNat % 16 ≠ 0 then .trap 6 0
    else if op = 9 ∧ 20 < fn then .trap 6 0
    else match chkAccess core (k.reg a) (if op = 9 then 0 else sx imm) n n false false with
      | .bad c f => .trap c f
      | .ok p =>
        let io := (k.reg a).tag == tIO
        if !io && (areaOf p = .pages || areaOf p = .check) then .stall x
        else if op = 9 ∧ b.tag ≠ tINT ∧ b.tag ≠ tPOISON then .trap 1 b.v
        else
          let (v, x0) := x.freeWord
          let x1 := if io then x0.cmplTmo (x0.busPort p) else x0
          let x2 := x1.report (corePage core) none 0x0005 (domOf (k.dom core)) p core
          let x3 := if op = 9 then x2.stallEnd core 1 else x2
          let x4 := if op = 9 ∧ b.tag = tINT then x3.setCore core { x3.core core with z := v == b.v } else x3
          x4.loaded core d v tPOISON) s

/-! ### Control transfer (R233) -/

/-- A direct branch; its target within the bound of the program counter. -/
def Dev.branch (d : Dev) (k : Core) (imm : BitVec 22) : Iss :=
  let n : DWord := sx imm <<< 2
  match pcPlus k.pc n with
  | none => .trap 3 (BitVec.ofNat 64 (adrPlus 7 k.pc n))
  | some pc => .goto d pc

/-- B (R233). -/
def execB (core : Fin 37) (cond : BitVec 4) (imm : BitVec 22) (s : State) : Res :=
  lift (fun x => x.insn core cond false (encB cond.toNat 0x1a imm.toNat) fun k x => x.branch k imm) s

/-- JAL (R233). -/
def execJal (core : Fin 37) (cond : BitVec 4) (imm : BitVec 22) (s : State) : Res :=
  lift (fun x => x.insn core cond false (encB cond.toNat 0x1b imm.toNat) fun k x =>
    (x.setCore core (k.setReg 30 (pcNext k.pc) tCODE)).branch k imm) s

/-- JR (R233). -/
def execJr (core : Fin 37) (cond : BitVec 4) (d a : BitVec 5) (s : State) : Res :=
  lift (fun x => x.insn core cond false (encA cond.toNat 0x1c d.toNat a.toNat 0 0) fun k x =>
    let r := k.reg a
    if r.tag = tPOISON then .trap 7 r.v
    else if r.tag ≠ tCODE then .trap 1 r.v
    else if r.v.toNat % 4 ≠ 0 then .trap 5 (BitVec.ofNat 64 (adrOf 7 r.v))
    else .goto (x.setCore core (k.setReg d (pcNext k.pc) tCODE)) r.v) s

/-! ### Tags (Table 8.8) -/

/-- A conversion of register `a`: POISON passes (R228); `f` answers the result, or the trap. -/
def Dev.convert (d : Dev) (i : Fin 37) (k : Core) (rd ra : BitVec 5) (f : Reg → Reg ⊕ Nat) : Iss :=
  let a := k.reg ra
  if a.tag = tPOISON then d.give i k rd a.v tPOISON
  else match f a with
    | .inl r => d.give i k rd r.v r.tag
    | .inr c => .trap c a.v

/-- TGET (R222). -/
def execTget (core : Fin 37) (cond : BitVec 4) (d a : BitVec 5) (s : State) : Res :=
  lift (fun x => x.insn core cond false (encA cond.toNat 0x1d d.toNat a.toNat 0 0x00) fun k x =>
    x.give core k d (BitVec.ofNat 64 (k.reg a).tag) tINT) s

/-- TTST (R220). -/
def execTtst (core : Fin 37) (cond : BitVec 4) (a b : BitVec 5) (s : State) : Res :=
  lift (fun x => x.insn core cond false (encA cond.toNat 0x1d 0 a.toNat b.toNat 0x01) fun k x =>
    if 16 ≤ b.toNat then .trap 6 0 else .done (x.setCore core { k with t := (k.reg a).tag == b.toNat })) s

/-- MKT (R224). -/
def execMkt (core : Fin 37) (cond : BitVec 4) (d a : BitVec 5) (s : State) : Res :=
  lift (fun x => x.insn core cond false (encA cond.toNat 0x1d d.toNat a.toNat 0 0x02) fun k x =>
    x.convert core k d a fun r => if r.tag = tINT then .inl ⟨r.v, tTIDE⟩ else .inr 1) s

/-- TINT (R224). -/
def execTint (core : Fin 37) (cond : BitVec 4) (d a : BitVec 5) (s : State) : Res :=
  lift (fun x => x.insn core cond false (encA cond.toNat 0x1d d.toNat a.toNat 0 0x03) fun k x =>
    x.convert core k d a fun r => if r.tag = tTIDE ∨ r.tag = tHNDL ∨ r.tag = tFP then .inl ⟨r.v, tINT⟩ else .inr 1) s

/-- MKH (R224). -/
def execMkh (core : Fin 37) (cond : BitVec 4) (d a : BitVec 5) (s : State) : Res :=
  lift (fun x => x.insn core cond false (encA cond.toNat 0x1d d.toNat a.toNat 0 0x04) fun k x =>
    x.convert core k d a fun r => if r.tag = tINT && layoutOk tHNDL r.v then .inl ⟨r.v, tHNDL⟩ else .inr 1) s

/-- ADDR (Table 8.8). -/
def execAddr (core : Fin 37) (cond : BitVec 4) (d a : BitVec 5) (s : State) : Res :=
  lift (fun x => x.insn core cond false (encA cond.toNat 0x1d d.toNat a.toNat 0 0x05) fun k x =>
    x.convert core k d a fun r => if isAddrTag r.tag then .inl ⟨BitVec.ofNat 64 (adrOf r.tag r.v), tINT⟩ else .inr 1) s

/-- NARROW (R224, Table 8.8). -/
def execNarrow (core : Fin 37) (cond : BitVec 4) (d a b : BitVec 5) (s : State) : Res :=
  lift (fun x => x.insn core cond false (encA cond.toNat 0x1d d.toNat a.toNat b.toNat 0x06) fun k x =>
    let n := k.reg b
    let r := k.reg a
    if n.tag = tPOISON then
      x.give core k d (if isAddrTag r.tag then BitVec.ofNat 64 (setFieldN r.v.toNat (addrBits r.tag) 6 n.v.toNat) else r.v)
        tPOISON
    else if r.tag ≠ tPOISON ∧ isAddrTag r.tag ∧ n.tag ≠ tINT then .trap 1 n.v
    else if r.tag ≠ tPOISON ∧ isAddrTag r.tag ∧ (n.v.toNat < 6 ∨ boundS r.tag r.v < n.v.toNat) then .trap 3 n.v
    else x.convert core k d a fun r =>
      if isAddrTag r.tag then .inl ⟨BitVec.ofNat 64 (setFieldN r.v.toNat (addrBits r.tag) 6 n.v.toNat), r.tag⟩ else .inr 1) s

/-- RDONLY (R224, Table 8.8). -/
def execRdonly (core : Fin 37) (cond : BitVec 4) (d a : BitVec 5) (s : State) : Res :=
  lift (fun x => x.insn core cond false (encA cond.toNat 0x1d d.toNat a.toNat 0 0x07) fun k x =>
    x.convert core k d a fun r =>
      if r.tag = tDADDR ∨ r.tag = tIO then .inl ⟨BitVec.ofNat 64 (setFieldN r.v.toNat (addrBits r.tag + 6) 1 0), r.tag⟩
      else .inr 1) s

/-- LDG (R230). -/
def execLdg (core : Fin 37) (cond : BitVec 4) (d a : BitVec 5) (s : State) : Res :=
  lift (fun x => x.insn core cond false (encA cond.toNat 0x1d d.toNat a.toNat 0 0x08) fun k x =>
    let r := k.reg a
    let none_ (x : Dev) : Iss := .done (x.setCore core { (k.setReg d 0 tINT) with t := false })
    if r.tag ≠ tINT ∨ k.ngrant ≤ r.v.toNat then none_ x
    else
      let p := k.grant + 16 * r.v.toNat
      if x.blocked p 16 then .stall x else
      let (l, bad, x1) := x.memRead (corePage core) (domOf (k.dom core)) p 16
      if bad || !bitN (leAt l 9 1) 0 || !tagOk (leAt l 8 1) then none_ x1
      else .done (x1.setCore core { (k.setReg d (BitVec.ofNat 64 (leAt l 0 8)) (leAt l 8 1)) with t := true })) s

/-! ### The tide (R236, R239) -/

/-- The tide as TCUR and TWAIT observe it: the new one only after the hold (R239). -/
def Dev.seen (d : Dev) : DWord := if d.tide.hold then d.tide.prev else d.tide.cur

/-- An operand that must be a tide: POISON and any other tag trap (R228, R236). -/
def tideOf (r : Reg) (f : DWord → Iss) : Iss :=
  if r.tag = tPOISON then .trap 7 r.v else if r.tag ≠ tTIDE then .trap 1 r.v else f r.v

/-- TCUR (R239). -/
def execTcur (core : Fin 37) (cond : BitVec 4) (d : BitVec 5) (s : State) : Res :=
  lift (fun x => x.insn core cond false (encA cond.toNat 0x1e d.toNat 0 0 0x00) fun k x =>
    if x.tide.hold then .stall x else x.give core k d x.tide.cur tTIDE) s

/-- TWAIT (R236). -/
def execTwait (core : Fin 37) (cond : BitVec 4) (a : BitVec 5) (s : State) : Res :=
  lift (fun x => x.insn core cond false (encA cond.toNat 0x1e 0 a.toNat 0 0x01) fun k x =>
    tideOf (k.reg a) fun t => if t ≤ x.seen then .done (x.stallEnd core 0) else .stall x) s

/-- TWATCH (R220). -/
def execTwatch (core : Fin 37) (cond : BitVec 4) (a : BitVec 5) (s : State) : Res :=
  lift (fun x => x.insn core cond false (encA cond.toNat 0x1e 0 a.toNat 0 0x02) fun k x =>
    tideOf (k.reg a) fun t => .done (x.setCore core { k with watch := some t })) s

/-- TREP (R43, R236). -/
def execTrep (core : Fin 37) (cond : BitVec 4) (a : BitVec 5) (s : State) : Res :=
  lift (fun x => x.insn core cond false (encA cond.toNat 0x1e 0 a.toNat 0 0x03) fun k x =>
    tideOf (k.reg a) fun t =>
      if t ≠ x.tide.cur then .trap 0x0a t
      else if !(decide (core.val < 32) && k.part) || x.tide.done.contains core.val then .done x
      else .done ({ x with tide := { x.tide with done := x.tide.done ++ [core.val] } } : Dev).checkDone) s

/-- TADV (R42, R44, R236). -/
def execTadv (core : Fin 37) (cond : BitVec 4) (a : BitVec 5) (s : State) : Res :=
  lift (fun x => x.insn core cond false (encA cond.toNat 0x1e 0 a.toNat 0 0x04) fun k x =>
    tideOf (k.reg a) fun n =>
      let last := 0xffffffffff
      if !x.isHead then .trap 0x0b n
      else if x.tide.cur.toNat / 2 ^ 24 = last ∧ n.toNat / 2 ^ 24 < last then
        .done (x.report pgTIDE (some 3) 0x0023 0x41 n.toNat 0)
      else if n ≤ x.tide.cur then .trap 0x0a n
      else if x.tide.pending then (if n = x.tide.next then .done x else .trap 0x0a n)
      else .done { x with tide := { x.tide with pending := true, next := n } }) s

/-- CLK (R485). -/
def execClk (core : Fin 37) (cond : BitVec 4) (d : BitVec 5) (s : State) : Res :=
  lift (fun x => x.insn core cond false (encA cond.toNat 0x1e d.toNat 0 0 0x05) fun k x => x.give core k d x.trclk tINT) s

/-! ### Engine issue (R237 to R239) -/

/-- The check of a descriptor, image or notice of `n` bytes: a DADDR that passes R226. -/
def chkDesc (i : Nat) (r : Reg) (n align : Nat) : Chk :=
  if r.tag ≠ tPOISON ∧ r.tag ≠ tDADDR then .bad 1 r.v
  else match chkAccess i r 0 n align false false with
    | .bad c f => .bad c f
    | .ok a => if areaOf a = .pages ∨ areaOf a = .check then .bad 4 (BitVec.ofNat 64 a) else .ok a

/-- The result of an issue in its register: INT 0 and Z where it was accepted, INT 1 where it was refused; traced
(Table 19.1). -/
def Dev.issueResult (d : Dev) (i : Fin 37) (r : BitVec 5) (kind a : Nat) (ok : Bool) : Dev :=
  let d1 := d.coreRec i 6 (kind + b2n (!ok) * 256) a
  let k := (d1.core i).setReg r (if ok then 0 else 1) tINT
  d1.setCore i { k with z := ok }

/-- An issue ends with its result. -/
def Dev.issued (d : Dev) (i : Fin 37) (r : BitVec 5) (kind a : Nat) (ok : Bool) : Iss := .done (d.issueResult i r kind a ok)

/-- The job a core enters in a queue: a copy of the descriptor (R237). -/
def Dev.jobOf (d : Dev) (i : Nat) (k : Core) (a : Nat) (types : List Nat) : QJob × Dev :=
  let (l, bad, d1) := d.memRead (corePage i) (domOf (k.dom i)) a 64
  let all := [0x01, 0x02, 0x03, 0x04, 0x10, 0x11, 0x20, 0x21, 0x22, 0x23]
  let ty := leAt l 0 1
  ({ seq := d1.xc.seq, cl := i / 2, core := i, cove := k.dom i, addr := a, desc := l, poison := bad,
     foreign := all.contains ty && !types.contains ty }, { d1 with xc := { d1.xc with seq := d1.xc.seq + 1 } })

/-- Work of a cove that is FREEZING or FROZEN is refused (R336). -/
def Dev.coveHalted (d : Dev) (cove : Option Nat) : Bool :=
  match cove with
  | some x => (d.cove x).state == 2 || (d.cove x).state == 3
  | none => false

/-- The job queue of cluster `c` takes no job of this cove: it holds 64, the cove has its JOBQ there (R326) or takes no more
work (R336), or the block accepts no operation (R504). -/
def Dev.jobFull (d : Dev) (c : Nat) (cove : Option Nat) : Bool :=
  decide (64 ≤ (d.xcQueue c).length)
    || (match cove with | some x => decide ((d.cove x).cfg.jobq ≤ d.jobsOf c cove) | none => false)
    || d.coveHalted cove || !d.b (pgXC c + 8) 0

/-- A job entered in a cluster's queue. -/
def Dev.addJob (d : Dev) (i : Nat) (k : Core) (a : Nat) (types : List Nat) : Dev :=
  let (j, d1) := d.jobOf i k a types
  { d1 with xc := { d1.xc with queue := d1.xc.queue ++ [j] } }

/-- A job entered in the exchange unit's queue. -/
def Dev.addJobX (d : Dev) (i : Nat) (k : Core) (a : Nat) : Dev :=
  let (j, d1) := d.jobOf i k a [0x10, 0x11]
  { d1 with xch := { d1.xch with queue := d1.xch.queue ++ [j] } }

/-- The image of a transfer, read by core `i` at `p`, posted to engine `n` (R238, R255). -/
def Dev.postImage (d : Dev) (i : Fin 37) (n p : Nat) (answered : Bool) : Dev :=
  let (l, bad, d1) := d.memRead (corePage i) (domOf ((d.core i).dom i)) p 64
  let d2 := if answered then
      d1.each (List.range 16) fun w x => x.wr (pgEng n + 0x100 + 4 * w) (BitVec.ofNat 32 (leAt l (4 * w) 4))
    else d
  d2.setEng n { d2.eng n with posted := true, pImg := p, pBad := if answered then b2n bad else 2 }

/-- A notice read by core `i` at `p`, posted (R237): of a service or security core, as one of cluster 0's (DESIGN CHOICE, log
entry 99). -/
def Dev.postNote (d : Dev) (i : Fin 37) (p : Nat) : Dev :=
  let (l, bad, d1) := d.memRead (corePage i) (domOf ((d.core i).dom i)) p 16
  let m := noticeOf l (if i.val < 32 then i / 2 else 0)
  (d1.postNotice { m with poison := m.poison || bad }).coreRec i 6 4 p

/-- A cluster job submitted (R237). -/
def Dev.submit (d : Dev) (i : Fin 37) (k : Core) (rd ra : BitVec 5) (kind : Nat) (types : List Nat) : Iss :=
  match chkDesc i (k.reg ra) 64 64 with
  | .bad c f => .trap c f
  | .ok a =>
    if 32 ≤ i.val then .trap 6 0
    else if d.tide.hold || d.blocked a 64 then .stall d
    else if d.jobFull (i / 2) (k.dom i) then d.issued i rd kind a false
    else (d.addJob i k a types).issued i rd kind a true

/-- JOB (R237). -/
def execJob (core : Fin 37) (cond : BitVec 4) (d a : BitVec 5) (s : State) : Res :=
  lift (fun x => x.insn core cond false (encA cond.toNat 0x1f d.toNat a.toNat 0 0x00) fun k x =>
    x.submit core k d a 0 [0x01, 0x03, 0x04, 0x20, 0x21, 0x22, 0x23]) s

/-- GATE (R237). -/
def execGate (core : Fin 37) (cond : BitVec 4) (d a : BitVec 5) (s : State) : Res :=
  lift (fun x => x.insn core cond false (encA cond.toNat 0x1f d.toNat a.toNat 0 0x01) fun k x => x.submit core k d a 1 [0x02]) s

/-- DISP (R237): the exchange unit's queue holds 256 jobs. -/
def execDisp (core : Fin 37) (cond : BitVec 4) (d a : BitVec 5) (s : State) : Res :=
  lift (fun x => x.insn core cond false (encA cond.toNat 0x1f d.toNat a.toNat 0 0x02) fun k x =>
    match chkDesc core (k.reg a) 64 64 with
    | .bad c f => .trap c f
    | .ok p =>
      if x.tide.hold || x.blocked p 64 then .stall x
      else if 256 ≤ x.xch.queue.length ∨ x.coveHalted (k.dom core) ∨ !x.b (pgEMH + 8) 0 then x.issued core d 2 p false
      else (x.addJobX core k p).issued core d 2 p true) s

/-- DMAK (R238, R255); `answered`: the read of the image was answered. -/
def execDmak (core : Fin 37) (cond : BitVec 4) (d a b : BitVec 5) (answered : Bool) (s : State) : Res :=
  lift (fun x => x.insn core cond false (encA cond.toNat 0x1f d.toNat a.toNat b.toNat 0x03) fun k x =>
    let h := k.reg a
    let n := fieldN h.v.toNat 16 16
    if h.tag = tPOISON then .trap 7 h.v
    else if h.tag ≠ tHNDL ∨ fieldN h.v.toNat 0 8 ≠ 1 ∨ 63 < n ∨ x.engOwner n ≠ k.dom core then .trap 9 h.v
    else match chkDesc core (k.reg b) 64 64 with
      | .bad c f => .trap c f
      | .ok p =>
        if x.tide.hold || x.blocked p 64 then .stall x
        else if x.locked (pgEng n) then (if (x.eng n).posted then x.inc (pgEng n + 0x828) else x).issued core d 3 p false
        else if x.coveHalted (k.dom core) || !x.b (pgEng n + 8) 0 then x.issued core d 3 p false
        else (x.postImage core n p answered).issued core d 3 p true) s

/-- NOTE (R237). -/
def execNote (core : Fin 37) (cond : BitVec 4) (a : BitVec 5) (s : State) : Res :=
  lift (fun x => x.insn core cond false (encA cond.toNat 0x1f 0 a.toNat 0 0x04) fun k x =>
    match chkDesc core (k.reg a) 16 16 with
    | .bad c f => .trap c f
    | .ok p =>
      if x.tide.hold || x.blocked p 16 then .stall x
      else .done (x.postNote core p)) s

/-! ### System instructions -/

/-- SYS (R241, R289, R497): it traps SYSCALL; a firmware that runs serves the call at once. -/
def execSys (core : Fin 37) (cond : BitVec 4) (imm : BitVec 12) (s : State) : Res :=
  lift (fun x => x.when (x.core core).running fun x =>
    (x.insn core cond false (encI cond.toNat 0x20 0 0 imm.toNat) fun _ _ => .trap 0x0c (zx imm)).serveSys core) s

/-- TRCP (R486, R489). -/
def execTrcp (core : Fin 37) (cond : BitVec 4) (a : BitVec 5) (imm : BitVec 12) (s : State) : Res :=
  lift (fun x => x.insn core cond false (encI cond.toNat 0x21 0 a.toNat imm.toNat) fun k x =>
    let r := k.reg a
    .done ((x.coreRec core 5 (imm.toNat + r.tag * 4096) r.v.toNat).triggerAll 1 fun b =>
      x.tbNames b core && x.g (tbReg b 0x12c) 0 12 == imm.toNat)) s

/-- BRK (R241). -/
def execBrk (core : Fin 37) (cond : BitVec 4) (s : State) : Res :=
  lift (fun x => x.insn core cond false (encI cond.toNat 0x22 0 0 0) fun _ _ => .trap 0x0d 0) s

/-- MINT (R222 to R224). -/
def execMint (core : Fin 37) (cond : BitVec 4) (d a b : BitVec 5) (s : State) : Res :=
  lift (fun x => x.insn core cond true (encA cond.toNat 0x30 d.toNat a.toNat b.toNat 0) fun k x =>
    let v := (k.reg a).v
    let t := b.toNat
    if 16 ≤ t then .trap 6 0
    else if !tagOk t || !layoutOk t v then .trap 1 v
    else x.give core k d v t) s

/-- LDT (R224, R227). -/
def execLdt (core : Fin 37) (cond : BitVec 4) (d a : BitVec 5) (off : BusOff) (s : State) : Res :=
  lift (fun x => x.insn core cond true (encI cond.toNat 0x31 d.toNat a.toNat off.imm.toNat) fun k x =>
    match x.coreRead core (k.reg a) (sx off.imm) 16 16 off.io with
    | .bad c f => .trap c f
    | .wait x1 => .stall x1
    | .got l bad x1 =>
      let v := BitVec.ofNat 64 (leAt l 0 8)
      let t := leAt l 8 1
      if bad then x1.loaded core d v tPOISON
      else if !tagOk t || !layoutOk t v then .trap 1 v
      else x1.loaded core d v t) s

/-- STT (R227, Table 8.5). -/
def execStt (core : Fin 37) (cond : BitVec 4) (d a : BitVec 5) (imm : BitVec 12) (s : State) : Res :=
  lift (fun x => x.insn core cond true (encI cond.toNat 0x32 d.toNat a.toNat imm.toNat) fun k x =>
    let r := k.reg d
    (x.coreWrite core (k.reg a) (sx imm) 16 (leBytes r.v.toNat 8 ++ [BitVec.ofNat 8 r.tag] ++ List.replicate 7 0)
      (r.tag == tPOISON)).iss) s

/-- CSRR (R242): control registers 0x000 to 0x005; the two that hold CODE values read as CODE. -/
def execCsrr (core : Fin 37) (cond : BitVec 4) (d : BitVec 5) (imm : BitVec 12) (s : State) : Res :=
  lift (fun x => x.insn core cond true (encI cond.toNat 0x33 d.toNat 0 imm.toNat) fun k x =>
    let n := imm.toNat
    if 5 < n then .trap 6 (zx imm)
    else
      let v := k.cr.getD n 0
      x.give core k d v (if (n = 1 ∨ n = 5) ∧ layoutOk tCODE v then tCODE else tINT)) s

/-- CSRW (R242). -/
def execCsrw (core : Fin 37) (cond : BitVec 4) (a : BitVec 5) (imm : BitVec 12) (s : State) : Res :=
  lift (fun x => x.insn core cond true (encI cond.toNat 0x34 0 a.toNat imm.toNat) fun k x =>
    let n := imm.toNat
    let r := k.reg a
    if 5 < n then .trap 6 (zx imm)
    else if r.tag = tPOISON then .trap 7 r.v
    else if r.tag ≠ (if n = 1 ∨ n = 5 then tCODE else tINT) then .trap 1 r.v
    else .done (x.setCore core { k with cr := k.cr.set n (if n = 0 then r.v &&& 1 else r.v) })) s

/-- ERET (R242). -/
def execEret (core : Fin 37) (cond : BitVec 4) (s : State) : Res :=
  lift (fun x => x.insn core cond true (encA cond.toNat 0x35 0 0 0 0) fun k x =>
    .goto (x.setCore core { k with cr := k.cr.set 0 (k.cr.getD 0 0 &&& ~~~1) }) (k.cr.getD 1 0)) s

/-- An operand that names a sequencer: INT 0 to 31. -/
def seqOf (r : Reg) (f : Nat → Iss) : Iss :=
  if r.tag = tPOISON then .trap 7 r.v
  else if r.tag ≠ tINT then .trap 1 r.v
  else if 31 < r.v.toNat then .trap 6 r.v
  else f r.v.toNat

/-- LAUNCH (R243): the sequencer is stopped in every case; `answered`: the read of the image was answered. -/
def execLaunch (core : Fin 37) (cond : BitVec 4) (a b : BitVec 5) (answered : Bool) (s : State) : Res :=
  lift (fun x => x.insn core cond true (encA cond.toNat 0x36 0 a.toNat b.toNat 0) fun k x =>
    seqOf (k.reg a) fun q =>
      let x0 := x.setCore q { x.core q with running := false }
      match chkDesc core (k.reg b) 576 64 with
      | .bad c f => .fail x0 c f
      | .ok p =>
        if x.blocked p 576 then .stall x else
        let (img, bad, x1) := x0.memRead (corePage core) 0x40 p 576
        match launchBad img (bad || !answered) with
        | some c => .fail x1 c (BitVec.ofNat 64 p)
        | none => .done ((x1.launch q img).coveWorks (some (leAt img 524 1 % 64)))) s

/-- SQCTL_STOP (R244). -/
def execSqctlStop (core : Fin 37) (cond : BitVec 4) (a : BitVec 5) (s : State) : Res :=
  lift (fun x => x.insn core cond true (encA cond.toNat 0x37 0 a.toNat 0 0) fun k x =>
    seqOf (k.reg a) fun q => .done (x.setCore q { x.core q with running := false })) s

/-- A stopped sequencer goes on: after a SYSCALL at the next instruction, else at the one it stopped at (R241, R244). -/
def Dev.resumeCore (d : Dev) (q : Nat) : Dev :=
  let k := d.core q
  if k.running then d
  else d.setCore q { k with running := true, cause := 0, sysWait := false, pc := if k.cause = 0x0c then pcNext k.pc else k.pc }

/-- SQCTL_RESUME (R244). -/
def execSqctlResume (core : Fin 37) (cond : BitVec 4) (a : BitVec 5) (s : State) : Res :=
  lift (fun x => x.insn core cond true (encA cond.toNat 0x37 0 a.toNat 0 1) fun k x =>
    seqOf (k.reg a) fun q => .done (x.resumeCore q)) s

/-- SQCTL_STATE (R244). -/
def execSqctlState (core : Fin 37) (cond : BitVec 4) (a b : BitVec 5) (s : State) : Res :=
  lift (fun x => x.insn core cond true (encA cond.toNat 0x37 0 a.toNat b.toNat 2) fun k x =>
    seqOf (k.reg a) fun q =>
      if (x.core q).running then .trap 6 0
      else if (k.reg b).tag ≠ tDADDR ∧ (k.reg b).tag ≠ tPOISON then .trap 1 (k.reg b).v
      else (x.coreWrite core (k.reg b) 0 64 (stateImage (x.core q)) false).iss) s

/-! ### Words that are no instruction, and fetches that fail -/

/-- The opcode or function code of a word is reserved (R232, Tables 8.5 to 8.8). -/
def reservedCode (w : Nat) : Bool :=
  let op := fieldN w 22 6
  let fn := fieldN w 0 7
  match op with
  | 0x00 => decide (0x15 < fn % 64)
  | 0x01 => decide (0x0e < fn)
  | 0x17 => decide (9 < fn)
  | 0x1d => decide (8 < fn)
  | 0x1e => decide (5 < fn)
  | 0x1f => decide (4 < fn)
  | 0x37 => decide (2 < fn)
  | _ => decide (0x22 < op) && !(decide (0x30 ≤ op) && decide (op ≤ 0x37))

/-- A field that the word's instruction does not use is not 0, or holds a reserved value (R219, R233, Tables 8.5 to 8.9). -/
def reservedField (w : Nat) : Bool :=
  let fn := fieldN w 0 7
  let d := fieldN w 17 5 != 0
  let a := fieldN w 12 5 != 0
  let b := fieldN w 7 5 != 0
  match fieldN w 22 6 with
  | 0x00 => (fn % 64 == 0x13 && d) || ((fn % 64 == 0x14 || fn % 64 == 0x15) && b)
  | 0x01 => (fn == 0x08 && d) || ([0x04, 0x09, 0x0a, 0x0b, 0x0c].contains fn && b)
  | 0x06 => fieldN w 8 4 != 0
  | 0x07 => d
  | 0x09 => bitN w 16
  | 0x18 => fieldN w 0 22 != 0
  | 0x19 => decide (32 ≤ fn) || decide (20 < fn % 32)
  | 0x1c => b || fn != 0
  | 0x1d => if fn = 1 then d || bitN w 11 else fn != 6 && b
  | 0x1e => b || (if fn = 0 ∨ fn = 5 then a else d)
  | 0x1f => (fn == 4 && d) || (fn != 3 && b)
  | 0x20 => d || a
  | 0x21 => d
  | 0x22 => fieldN w 0 22 != 0
  | 0x30 => bitN w 11 || fn != 0
  | 0x33 => a
  | 0x34 => d
  | 0x35 => fieldN w 0 22 != 0
  | 0x36 => d || fn != 0
  | 0x37 => d || (decide (fn < 2) && b)
  | _ => false

/-- A word that is no instruction (R232, Table 8.9). -/
def reservedWord (w : Nat) : Bool := reservedCode w || reservedField w

/-- The opcode of a word is one of level P (Table 8.5). -/
def privOp (w : Nat) : Bool := decide (0x30 ≤ fieldN w 22 6) && decide (fieldN w 22 6 ≤ 0x37)

/-- RESERVED_OPCODE (R232). -/
def execReservedOpcode (core : Fin 37) (word : BitVec 32) (s : State) : Res :=
  lift (fun x => x.when (reservedWord word.toNat) fun x =>
    x.insn core (BitVec.ofNat 4 (fieldN word.toNat 28 4)) (privOp word.toNat) word.toNat fun _ _ => .trap 6 0) s

/-- INSTRUCTION_FETCH_FAULT (R240): the word at the program counter is poisoned, or the core may not fetch there. A program
counter that has run past the end of its bound stands at the first word of the next block (DESIGN CHOICE, log entry 23). -/
def execInstructionFetchFault (core : Fin 37) (s : State) : Res :=
  lift (fun x =>
    let k := x.core core
    let a := adrOf 7 k.pc
    let ok := coreMay core false false a 4 && areaOf a != .pages && areaOf a != .check
    let (_, bad, x1) := if ok then x.memRead (corePage core) (domOf (k.dom core)) a 4 else ([], true, x)
    x.when (bad || a % 2 ^ boundS tCODE k.pc == 0) fun _ => x1.insn core 0 false 0 fun _ _ => .trap 0x0e (BitVec.ofNat 64 a)) s

end Sys2Proof.Machine
end

