-- ==== Sys2Proof/Machine/Dispatch.lean ====
section
/-!
DEFINITION. Machine/Dispatch.lean: which meaning each command has.
-/
namespace Sys2Proof.Machine

/-- The effect of a command on everything but the queue of waiting commands. -/
def exec (i : Instr) (s : State) : Host.Outcome State Fault Refusal :=
  match i with
  | .registerWrite off val => Sys2Proof.Machine.execRegisterWrite off val s
  | .loReadLatch off => Sys2Proof.Machine.execLoReadLatch off s
  | .commitArm pg => Sys2Proof.Machine.execCommitArm pg s
  | .commitNow pg => Sys2Proof.Machine.execCommitNow pg s
  | .commitCancel pg => Sys2Proof.Machine.execCommitCancel pg s
  | .hctlEnWrite pg en => Sys2Proof.Machine.execHctlEnWrite pg en s
  | .hctlFreezeWrite pg freeze => Sys2Proof.Machine.execHctlFreezeWrite pg freeze s
  | .hctlSafeWrite pg safe => Sys2Proof.Machine.execHctlSafeWrite pg safe s
  | .intSetWrite pg val => Sys2Proof.Machine.execIntSetWrite pg val s
  | .tideMarkMsg src announce tide => Sys2Proof.Machine.execTideMarkMsg src announce tide s
  | .markTimeout => Sys2Proof.Machine.execMarkTimeout s
  | .sbTideEdge soon => Sys2Proof.Machine.execSbTideEdge soon s
  | .sbTideDrive => Sys2Proof.Machine.execSbTideDrive s
  | .edgeMissTimeout => Sys2Proof.Machine.execEdgeMissTimeout s
  | .tideReportMsg src tide => Sys2Proof.Machine.execTideReportMsg src tide s
  | .tideAdvance => Sys2Proof.Machine.execTideAdvance s
  | .reportTimeout dev => Sys2Proof.Machine.execReportTimeout dev s
  | .boundaryApply => Sys2Proof.Machine.execBoundaryApply s
  | .domainStart cid => Sys2Proof.Machine.execDomainStart cid s
  | .startMsg src refuse tide => Sys2Proof.Machine.execStartMsg src refuse tide s
  | .startAckMsg src refuse tide => Sys2Proof.Machine.execStartAckMsg src refuse tide s
  | .domainStartTimeout => Sys2Proof.Machine.execDomainStartTimeout s
  | .tideCurLoStage val => Sys2Proof.Machine.execTideCurLoStage val s
  | .tideCurLoad val => Sys2Proof.Machine.execTideCurLoad val s
  | .tideSbtEnWrite en => Sys2Proof.Machine.execTideSbtEnWrite en s
  | .srSeedWrite c vec seed => Sys2Proof.Machine.execSrSeedWrite c vec seed s
  | .expertJobBegin c ix => Sys2Proof.Machine.execExpertJobBegin c ix s
  | .gateJobBegin c ix => Sys2Proof.Machine.execGateJobBegin c ix s
  | .combineJobBegin c ix => Sys2Proof.Machine.execCombineJobBegin c ix s
  | .codebookLoadBegin c ix => Sys2Proof.Machine.execCodebookLoadBegin c ix s
  | .codebookLoadDone c seq => Sys2Proof.Machine.execCodebookLoadDone c seq s
  | .jobEnd c seq => Sys2Proof.Machine.execJobEnd c seq s
  | .sliceReceive ix => Sys2Proof.Machine.execSliceReceive ix s
  | .sliceRedTimeout rgrp clmask owner => Sys2Proof.Machine.execSliceRedTimeout rgrp clmask owner s
  | .partialNotice ix => Sys2Proof.Machine.execPartialNotice ix s
  | .kvSelectBegin c ix => Sys2Proof.Machine.execKvSelectBegin c ix s
  | .kvAttendBegin c ix order => Sys2Proof.Machine.execKvAttendBegin c ix order s
  | .kvWriteBegin c ix => Sys2Proof.Machine.execKvWriteBegin c ix s
  | .kvReadBegin c ix => Sys2Proof.Machine.execKvReadBegin c ix s
  | .kvGroupResult ix => Sys2Proof.Machine.execKvGroupResult ix s
  | .kvGroupTimeout ty rgrp clmask => Sys2Proof.Machine.execKvGroupTimeout ty rgrp clmask s
  | .mapLoad cid bank t => Sys2Proof.Machine.execMapLoad cid bank t s
  | .mapArmMsg src gen tide bank => Sys2Proof.Machine.execMapArmMsg src gen tide bank s
  | .mapAckMsg src gen tide => Sys2Proof.Machine.execMapAckMsg src gen tide s
  | .dispatchJobBegin ix => Sys2Proof.Machine.execDispatchJobBegin ix s
  | .dispatchSend target => Sys2Proof.Machine.execDispatchSend target s
  | .dispatchJobComplete seq => Sys2Proof.Machine.execDispatchJobComplete seq s
  | .dispatchMsg conn msn head body poison => Sys2Proof.Machine.execDispatchMsg conn msn head body poison s
  | .returnJobBegin ix => Sys2Proof.Machine.execReturnJobBegin ix s
  | .returnJobComplete seq => Sys2Proof.Machine.execReturnJobComplete seq s
  | .returnMsg conn msn head body poison => Sys2Proof.Machine.execReturnMsg conn msn head body poison s
  | .refuseMsg conn head => Sys2Proof.Machine.execRefuseMsg conn head s
  | .creditMsg conn head => Sys2Proof.Machine.execCreditMsg conn head s
  | .creditTimeout dev => Sys2Proof.Machine.execCreditTimeout dev s
  | .xdispTimeout id => Sys2Proof.Machine.execXdispTimeout id s
  | .xretTimeout id => Sys2Proof.Machine.execXretTimeout id s
  | .xdownClear n => Sys2Proof.Machine.execXdownClear n s
  | .dmak core cond d a b answered => Sys2Proof.Machine.execDmak core cond d a b answered s
  | .dmaSetStart n => Sys2Proof.Machine.execDmaSetStart n s
  | .dmaReadback n => Sys2Proof.Machine.execDmaReadback n s
  | .dmaImageReport n => Sys2Proof.Machine.execDmaImageReport n s
  | .dmaContinue n => Sys2Proof.Machine.execDmaContinue n s
  | .dmaRequestTimeout n elem addr => Sys2Proof.Machine.execDmaRequestTimeout n elem addr s
  | .dmaBusCompletion n elem off data poison err => Sys2Proof.Machine.execDmaBusCompletion n elem off data poison err s
  | .dmaStop n => Sys2Proof.Machine.execDmaStop n s
  | .dmaDiscard n => Sys2Proof.Machine.execDmaDiscard n s
  | .loadGo => Sys2Proof.Machine.execLoadGo s
  | .imageVerified sigOk => Sys2Proof.Machine.execImageVerified sigOk s
  | .firmwareRunning => Sys2Proof.Machine.execFirmwareRunning s
  | .adminGo => Sys2Proof.Machine.execAdminGo s
  | .sqTailWrite q val => Sys2Proof.Machine.execSqTailWrite q val s
  | .cqHeadWrite q val => Sys2Proof.Machine.execCqHeadWrite q val s
  | .commandFetch q => Sys2Proof.Machine.execCommandFetch q s
  | .negotiate cid => Sys2Proof.Machine.execNegotiate cid s
  | .resume cid => Sys2Proof.Machine.execResume cid s
  | .createRings cid pair sqBase sqLog cqBase cqLog vec owner => Sys2Proof.Machine.execCreateRings cid pair sqBase sqLog cqBase cqLog vec owner s
  | .deleteRings cid pair => Sys2Proof.Machine.execDeleteRings cid pair s
  | .configDomain cid domain dev headDev members xland xslot xarr xarrSize xcredit => Sys2Proof.Machine.execConfigDomain cid domain dev headDev members xland xslot xarr xarrSize xcredit s
  | .setLayout cid w k sn b c => Sys2Proof.Machine.execSetLayout cid w k sn b c s
  | .buddyRing cid => Sys2Proof.Machine.execBuddyRing cid s
  | .fwUpdate cid => Sys2Proof.Machine.execFwUpdate cid s
  | .updateConfirm => Sys2Proof.Machine.execUpdateConfirm s
  | .updateConfirmTimeout => Sys2Proof.Machine.execUpdateConfirmTimeout s
  | .getDump cid => Sys2Proof.Machine.execGetDump cid s
  | .logCfg cid base log => Sys2Proof.Machine.execLogCfg cid base log s
  | .powerCap cid => Sys2Proof.Machine.execPowerCap cid s
  | .getSensors q cid smp => Sys2Proof.Machine.execGetSensors q cid smp s
  | .launchSq q cid sq => Sys2Proof.Machine.execLaunchSq q cid sq s
  | .stopSq q cid sq => Sys2Proof.Machine.execStopSq q cid sq s
  | .leaseRenew => Sys2Proof.Machine.execLeaseRenew s
  | .leaseExpired => Sys2Proof.Machine.execLeaseExpired s
  | .watchdogExpiry core during old handling => Sys2Proof.Machine.execWatchdogExpiry core during old handling s
  | .powerLoopPeriod watts watts1s vin step => Sys2Proof.Machine.execPowerLoopPeriod watts watts1s vin step s
  | .thermalLoopPeriod smp ceil => Sys2Proof.Machine.execThermalLoopPeriod smp ceil s
  | .pwrHoldDrop watts => Sys2Proof.Machine.execPwrHoldDrop watts s
  | .alu core cond d a b fn => Sys2Proof.Machine.execAlu core cond d a b fn s
  | .fpu core cond d a b fn => Sys2Proof.Machine.execFpu core cond d a b fn s
  | .addi core cond d a imm => Sys2Proof.Machine.execAddi core cond d a imm s
  | .andi core cond d a imm => Sys2Proof.Machine.execAndi core cond d a imm s
  | .ori core cond d a imm => Sys2Proof.Machine.execOri core cond d a imm s
  | .xori core cond d a imm => Sys2Proof.Machine.execXori core cond d a imm s
  | .shi core cond d a imm => Sys2Proof.Machine.execShi core cond d a imm s
  | .cmpi core cond d a imm => Sys2Proof.Machine.execCmpi core cond d a imm s
  | .movi core cond d imm => Sys2Proof.Machine.execMovi core cond d imm s
  | .movs core cond d imm => Sys2Proof.Machine.execMovs core cond d imm s
  | .ldb core cond d a imm io => Sys2Proof.Machine.execLdb core cond d a imm io s
  | .ldh core cond d a imm io => Sys2Proof.Machine.execLdh core cond d a imm io s
  | .ldw core cond d a imm io => Sys2Proof.Machine.execLdw core cond d a imm io s
  | .ldd core cond d a imm io => Sys2Proof.Machine.execLdd core cond d a imm io s
  | .ldbs core cond d a imm io => Sys2Proof.Machine.execLdbs core cond d a imm io s
  | .ldhs core cond d a imm io => Sys2Proof.Machine.execLdhs core cond d a imm io s
  | .ldws core cond d a imm io => Sys2Proof.Machine.execLdws core cond d a imm io s
  | .stb core cond d a imm => Sys2Proof.Machine.execStb core cond d a imm s
  | .sth core cond d a imm => Sys2Proof.Machine.execSth core cond d a imm s
  | .stw core cond d a imm => Sys2Proof.Machine.execStw core cond d a imm s
  | .std core cond d a imm => Sys2Proof.Machine.execStd core cond d a imm s
  | .loadTimeout core cond op d a imm => Sys2Proof.Machine.execLoadTimeout core cond op d a imm s
  | .ldc core cond d a imm io => Sys2Proof.Machine.execLdc core cond d a imm io s
  | .stc core cond d a imm => Sys2Proof.Machine.execStc core cond d a imm s
  | .amo core cond d a b fn io => Sys2Proof.Machine.execAmo core cond d a b fn io s
  | .fence core cond => Sys2Proof.Machine.execFence core cond s
  | .waitne core cond d a b fn io => Sys2Proof.Machine.execWaitne core cond d a b fn io s
  | .b core cond imm => Sys2Proof.Machine.execB core cond imm s
  | .jal core cond imm => Sys2Proof.Machine.execJal core cond imm s
  | .jr core cond d a => Sys2Proof.Machine.execJr core cond d a s
  | .tget core cond d a => Sys2Proof.Machine.execTget core cond d a s
  | .ttst core cond a b => Sys2Proof.Machine.execTtst core cond a b s
  | .mkt core cond d a => Sys2Proof.Machine.execMkt core cond d a s
  | .tint core cond d a => Sys2Proof.Machine.execTint core cond d a s
  | .mkh core cond d a => Sys2Proof.Machine.execMkh core cond d a s
  | .addr core cond d a => Sys2Proof.Machine.execAddr core cond d a s
  | .narrow core cond d a b => Sys2Proof.Machine.execNarrow core cond d a b s
  | .rdonly core cond d a => Sys2Proof.Machine.execRdonly core cond d a s
  | .ldg core cond d a => Sys2Proof.Machine.execLdg core cond d a s
  | .tcur core cond d => Sys2Proof.Machine.execTcur core cond d s
  | .twait core cond a => Sys2Proof.Machine.execTwait core cond a s
  | .twatch core cond a => Sys2Proof.Machine.execTwatch core cond a s
  | .trep core cond a => Sys2Proof.Machine.execTrep core cond a s
  | .tadv core cond a => Sys2Proof.Machine.execTadv core cond a s
  | .clk core cond d => Sys2Proof.Machine.execClk core cond d s
  | .job core cond d a => Sys2Proof.Machine.execJob core cond d a s
  | .gate core cond d a => Sys2Proof.Machine.execGate core cond d a s
  | .disp core cond d a => Sys2Proof.Machine.execDisp core cond d a s
  | .note core cond a => Sys2Proof.Machine.execNote core cond a s
  | .sys core cond imm => Sys2Proof.Machine.execSys core cond imm s
  | .trcp core cond a imm => Sys2Proof.Machine.execTrcp core cond a imm s
  | .brk core cond => Sys2Proof.Machine.execBrk core cond s
  | .mint core cond d a b => Sys2Proof.Machine.execMint core cond d a b s
  | .ldt core cond d a off => Sys2Proof.Machine.execLdt core cond d a off s
  | .stt core cond d a imm => Sys2Proof.Machine.execStt core cond d a imm s
  | .csrr core cond d imm => Sys2Proof.Machine.execCsrr core cond d imm s
  | .csrw core cond a imm => Sys2Proof.Machine.execCsrw core cond a imm s
  | .eret core cond => Sys2Proof.Machine.execEret core cond s
  | .launch core cond a b answered => Sys2Proof.Machine.execLaunch core cond a b answered s
  | .sqctlStop core cond a => Sys2Proof.Machine.execSqctlStop core cond a s
  | .sqctlResume core cond a => Sys2Proof.Machine.execSqctlResume core cond a s
  | .sqctlState core cond a b => Sys2Proof.Machine.execSqctlState core cond a b s
  | .bar0Request bar2 wr off size data => Sys2Proof.Machine.execBar0Request bar2 wr off size data s
  | .bar4Request wr off size data poison => Sys2Proof.Machine.execBar4Request wr off size data poison s
  | .pf0UnsupportedRequest wr r => Sys2Proof.Machine.execPf0UnsupportedRequest wr r s
  | .acceleratorRequest port wr addr size data attr => Sys2Proof.Machine.execAcceleratorRequest port wr addr size data attr s
  | .functionLevelReset => Sys2Proof.Machine.execFunctionLevelReset s
  | .flrComplete => Sys2Proof.Machine.execFlrComplete s
  | .busMasterClear mse => Sys2Proof.Machine.execBusMasterClear mse s
  | .apBusMasterWrite port bme win acs => Sys2Proof.Machine.execApBusMasterWrite port bme win acs s
  | .hepLinkDown => Sys2Proof.Machine.execHepLinkDown s
  | .apLinkDown port => Sys2Proof.Machine.execApLinkDown port s
  | .linkL1Idle port sub => Sys2Proof.Machine.execLinkL1Idle port sub s
  | .coveModeWrite fixed => Sys2Proof.Machine.execCoveModeWrite fixed s
  | .coveCreate cid => Sys2Proof.Machine.execCoveCreate cid s
  | .coveDestroy cid => Sys2Proof.Machine.execCoveDestroy cid s
  | .coveResize cid => Sys2Proof.Machine.execCoveResize cid s
  | .coveResizeComplete n => Sys2Proof.Machine.execCoveResizeComplete n s
  | .coveReset cid => Sys2Proof.Machine.execCoveReset cid s
  | .covePurgeDeadline n => Sys2Proof.Machine.execCovePurgeDeadline n s
  | .coveFreeze cid => Sys2Proof.Machine.execCoveFreeze cid s
  | .coveFreezeComplete n => Sys2Proof.Machine.execCoveFreezeComplete n s
  | .coveThaw cid => Sys2Proof.Machine.execCoveThaw cid s
  | .coveSave cid => Sys2Proof.Machine.execCoveSave cid s
  | .coveRestore cid => Sys2Proof.Machine.execCoveRestore cid s
  | .coveQuery q cid => Sys2Proof.Machine.execCoveQuery q cid s
  | .frameReceive port len bytes emh fcsOk fecOk corr => Sys2Proof.Machine.execFrameReceive port len bytes emh fcsOk fecOk corr s
  | .packetDeliver ix desc => Sys2Proof.Machine.execPacketDeliver ix desc s
  | .ruleInstall val => Sys2Proof.Machine.execRuleInstall val s
  | .portModeWrite val => Sys2Proof.Machine.execPortModeWrite val s
  | .portEnWrite val => Sys2Proof.Machine.execPortEnWrite val s
  | .netLinkChange port up => Sys2Proof.Machine.execNetLinkChange port up s
  | .tsqSend q head => Sys2Proof.Machine.execTsqSend q head s
  | .soundingSweep => Sys2Proof.Machine.execSoundingSweep s
  | .hnqCfgEnWrite val => Sys2Proof.Machine.execHnqCfgEnWrite val s
  | .hnqTxTailWrite val => Sys2Proof.Machine.execHnqTxTailWrite val s
  | .hnqTxFetch n desc bytes emh poison fail => Sys2Proof.Machine.execHnqTxFetch n desc bytes emh poison fail s
  | .hnqRxTailWrite val => Sys2Proof.Machine.execHnqRxTailWrite val s
  | .connListen conn => Sys2Proof.Machine.execConnListen conn s
  | .connOpen conn => Sys2Proof.Machine.execConnOpen conn s
  | .connClose conn => Sys2Proof.Machine.execConnClose conn s
  | .connReset conn => Sys2Proof.Machine.execConnReset conn s
  | .connRepoint conn => Sys2Proof.Machine.execConnRepoint conn s
  | .connectPkt port k => Sys2Proof.Machine.execConnectPkt port k s
  | .acceptPkt port k => Sys2Proof.Machine.execAcceptPkt port k s
  | .closePkt port k => Sys2Proof.Machine.execClosePkt port k s
  | .resetPkt port k => Sys2Proof.Machine.execResetPkt port k s
  | .openTimeout conn => Sys2Proof.Machine.execOpenTimeout conn s
  | .connectRetry conn => Sys2Proof.Machine.execConnectRetry conn s
  | .sqDbWrite conn tail => Sys2Proof.Machine.execSqDbWrite conn tail s
  | .workRequestFetch conn => Sys2Proof.Machine.execWorkRequestFetch conn s
  | .dataPacket port k => Sys2Proof.Machine.execDataPacket port k s
  | .ackPkt port k => Sys2Proof.Machine.execAckPkt port k s
  | .ackSend conn => Sys2Proof.Machine.execAckSend conn s
  | .nakPkt port k => Sys2Proof.Machine.execNakPkt port k s
  | .nakResend conn psn => Sys2Proof.Machine.execNakResend conn psn s
  | .notReadyTimeout conn msn => Sys2Proof.Machine.execNotReadyTimeout conn msn s
  | .pageTimeout conn msn => Sys2Proof.Machine.execPageTimeout conn msn s
  | .rtoExpiry conn psn => Sys2Proof.Machine.execRtoExpiry conn psn s
  | .probeTimer conn path => Sys2Proof.Machine.execProbeTimer conn path s
  | .probePkt port k => Sys2Proof.Machine.execProbePkt port k s
  | .probeAckPkt port k => Sys2Proof.Machine.execProbeAckPkt port k s
  | .sendStallRecheck conn expired => Sys2Proof.Machine.execSendStallRecheck conn expired s
  | .regOpen => Sys2Proof.Machine.execRegOpen s
  | .regClose => Sys2Proof.Machine.execRegClose s
  | .regionCloseTimeout ix => Sys2Proof.Machine.execRegionCloseTimeout ix s
  | .nvmeIcreq conn hpda maxr2t hd dd => Sys2Proof.Machine.execNvmeIcreq conn hpda maxr2t hd dd s
  | .tcpConnectAttempt conn port disc => Sys2Proof.Machine.execTcpConnectAttempt conn port disc s
  | .nvmeConnect conn cid qid sqsize kato host cntlid => Sys2Proof.Machine.execNvmeConnect conn cid qid sqsize kato host cntlid s
  | .nvmeRead conn cid nsid slba nlb => Sys2Proof.Machine.execNvmeRead conn cid nsid slba nlb s
  | .nvmeWrite conn cid nsid slba nlb fua digestOk data => Sys2Proof.Machine.execNvmeWrite conn cid nsid slba nlb fua digestOk data s
  | .nvmeFlush conn cid nsid => Sys2Proof.Machine.execNvmeFlush conn cid nsid s
  | .nvmeWriteZeroes conn cid nsid slba nlb => Sys2Proof.Machine.execNvmeWriteZeroes conn cid nsid slba nlb s
  | .nvmeDatasetManagement conn cid nsid dealloc ranges => Sys2Proof.Machine.execNvmeDatasetManagement conn cid nsid dealloc ranges s
  | .nvmeAbort conn cid sqid target => Sys2Proof.Machine.execNvmeAbort conn cid sqid target s
  | .nvmeIdentify conn cid nsid cns => Sys2Proof.Machine.execNvmeIdentify conn cid nsid cns s
  | .nvmeGetLogPage conn cid lid len => Sys2Proof.Machine.execNvmeGetLogPage conn cid lid len s
  | .nvmeGetFeatures conn cid fid => Sys2Proof.Machine.execNvmeGetFeatures conn cid fid s
  | .nvmeSetFeatures conn cid fid val => Sys2Proof.Machine.execNvmeSetFeatures conn cid fid val s
  | .nvmePowerStateSet conn cid ps => Sys2Proof.Machine.execNvmePowerStateSet conn cid ps s
  | .nvmeKeepAlive conn cid => Sys2Proof.Machine.execNvmeKeepAlive conn cid s
  | .keepAliveTimeout cntlid => Sys2Proof.Machine.execKeepAliveTimeout cntlid s
  | .nvmeAsyncEventRequest conn cid => Sys2Proof.Machine.execNvmeAsyncEventRequest conn cid s
  | .nvmePropertyGet conn cid off => Sys2Proof.Machine.execNvmePropertyGet conn cid off s
  | .nvmePropertySet conn cid off val => Sys2Proof.Machine.execNvmePropertySet conn cid off val s
  | .nvmeFormatNvm conn cid nsid lbaf ses => Sys2Proof.Machine.execNvmeFormatNvm conn cid nsid lbaf ses s
  | .nvmeSanitize conn cid action => Sys2Proof.Machine.execNvmeSanitize conn cid action s
  | .nvmeFirmwareDownload conn cid off data => Sys2Proof.Machine.execNvmeFirmwareDownload conn cid off data s
  | .nvmeFirmwareCommit conn cid slot action reset => Sys2Proof.Machine.execNvmeFirmwareCommit conn cid slot action reset s
  | .h2cDataPdu conn cid off data headOk dataOk => Sys2Proof.Machine.execH2cDataPdu conn cid off data headOk dataOk s
  | .destage nsid blk => Sys2Proof.Machine.execDestage nsid blk s
  | .ssdCommandComplete id ok data => Sys2Proof.Machine.execSsdCommandComplete id ok data s
  | .ssdLinkDown port silent => Sys2Proof.Machine.execSsdLinkDown port silent s
  | .sanitizeProgressSave prog => Sys2Proof.Machine.execSanitizeProgressSave prog s
  | .nsInstall => Sys2Proof.Machine.execNsInstall s
  | .nsRemove => Sys2Proof.Machine.execNsRemove s
  | .nvtCtlWrite en maint => Sys2Proof.Machine.execNvtCtlWrite en maint s
  | .snapSet cid most => Sys2Proof.Machine.execSnapSet cid most s
  | .snapArm cid => Sys2Proof.Machine.execSnapArm cid s
  | .snapAbort cid => Sys2Proof.Machine.execSnapAbort cid s
  | .snapStatus cid => Sys2Proof.Machine.execSnapStatus cid s
  | .snapRestore cid => Sys2Proof.Machine.execSnapRestore cid s
  | .preimageCopied g => Sys2Proof.Machine.execPreimageCopied g s
  | .snapshotCopy => Sys2Proof.Machine.execSnapshotCopy s
  | .buddyOfferMsg src m => Sys2Proof.Machine.execBuddyOfferMsg src m s
  | .buddyReplyMsg src refuse => Sys2Proof.Machine.execBuddyReplyMsg src refuse s
  | .buddyArmMsg src tide => Sys2Proof.Machine.execBuddyArmMsg src tide s
  | .buddyAckMsg src tide => Sys2Proof.Machine.execBuddyAckMsg src tide s
  | .gstop cid => Sys2Proof.Machine.execGstop cid s
  | .gstopArmMsg src tide => Sys2Proof.Machine.execGstopArmMsg src tide s
  | .gstopAckMsg src tide => Sys2Proof.Machine.execGstopAckMsg src tide s
  | .ebbComplete => Sys2Proof.Machine.execEbbComplete s
  | .ebbTimeout => Sys2Proof.Machine.execEbbTimeout s
  | .cutReportMsg src inexact tide => Sys2Proof.Machine.execCutReportMsg src inexact tide s
  | .gstopRelease cid => Sys2Proof.Machine.execGstopRelease cid s
  | .gstopReleaseMsg src tide => Sys2Proof.Machine.execGstopReleaseMsg src tide s
  | .memberExclude cid => Sys2Proof.Machine.execMemberExclude cid s
  | .memberExcludeMsg src dev tide => Sys2Proof.Machine.execMemberExcludeMsg src dev tide s
  | .memberInclude cid => Sys2Proof.Machine.execMemberInclude cid s
  | .memberIncludeMsg src dev tide => Sys2Proof.Machine.execMemberIncludeMsg src dev tide s
  | .memberAckMsg src arg tide => Sys2Proof.Machine.execMemberAckMsg src arg tide s
  | .safeCtlWrite val => Sys2Proof.Machine.execSafeCtlWrite val s
  | .errResume => Sys2Proof.Machine.execErrResume s
  | .recTailWrite val => Sys2Proof.Machine.execRecTailWrite val s
  | .sbEstopAssert => Sys2Proof.Machine.execSbEstopAssert s
  | .marginPlanPeriod low mpd worst monitor => Sys2Proof.Machine.execMarginPlanPeriod low mpd worst monitor s
  | .attReport q cid norOk => Sys2Proof.Machine.execAttReport q cid norOk s
  | .attGetCert q cid => Sys2Proof.Machine.execAttGetCert q cid s
  | .attMeasureWeights cid => Sys2Proof.Machine.execAttMeasureWeights cid s
  | .weightMeasureDone => Sys2Proof.Machine.execWeightMeasureDone s
  | .attSvnCommit cid norOk => Sys2Proof.Machine.execAttSvnCommit cid norOk s
  | .tbCtlEnWrite val => Sys2Proof.Machine.execTbCtlEnWrite val s
  | .tbSwtrig => Sys2Proof.Machine.execTbSwtrig s
  | .dumpDefine cid => Sys2Proof.Machine.execDumpDefine cid s
  | .dumpArm cid => Sys2Proof.Machine.execDumpArm cid s
  | .dumpCancel cid => Sys2Proof.Machine.execDumpCancel cid s
  | .dumpRing cid => Sys2Proof.Machine.execDumpRing cid s
  | .dumpCopyDone k => Sys2Proof.Machine.execDumpCopyDone k s
  | .dmpTailWrite val => Sys2Proof.Machine.execDmpTailWrite val s
  | .scrubStep n links ecc => Sys2Proof.Machine.execScrubStep n links ecc s
  | .channelRetrainDone n c => Sys2Proof.Machine.execChannelRetrainDone n c s
  | .retrainTimeout n c => Sys2Proof.Machine.execRetrainTimeout n c s
  | .binReqWrite m val => Sys2Proof.Machine.execBinReqWrite m val s
  | .binChange failed dead => Sys2Proof.Machine.execBinChange failed dead s
  | .errInjArm m val => Sys2Proof.Machine.execErrInjArm m val s
  | .dieLinkRetry link n failed => Sys2Proof.Machine.execDieLinkRetry link n failed s
  | .zeroFillDone => Sys2Proof.Machine.execZeroFillDone s
  | .warmExitDone => Sys2Proof.Machine.execWarmExitDone s
  | .sbPwrenAssert soon cool => Sys2Proof.Machine.execSbPwrenAssert soon cool s
  | .sbPwrenDeassert => Sys2Proof.Machine.execSbPwrenDeassert s
  | .sbRstAssert => Sys2Proof.Machine.execSbRstAssert s
  | .sbRstDeassert sigOk => Sys2Proof.Machine.execSbRstDeassert sigOk s
  | .vinRangeWarn mv => Sys2Proof.Machine.execVinRangeWarn mv s
  | .vinFault mv => Sys2Proof.Machine.execVinFault mv s
  | .railFault rail ovr => Sys2Proof.Machine.execRailFault rail ovr s
  | .senseOpen rail => Sys2Proof.Machine.execSenseOpen rail s
  | .faultValidClear bmc => Sys2Proof.Machine.execFaultValidClear bmc s
  | .temperatureWarning smp => Sys2Proof.Machine.execTemperatureWarning smp s
  | .thermalTrip sensor smp => Sys2Proof.Machine.execThermalTrip sensor smp s
  | .criticalTemperature smp => Sys2Proof.Machine.execCriticalTemperature smp s
  | .pllUnlock pll => Sys2Proof.Machine.execPllUnlock pll s
  | .referenceClockLoss nref => Sys2Proof.Machine.execReferenceClockLoss nref s
  | .mctpControlMessage code data => Sys2Proof.Machine.execMctpControlMessage code data s
  | .mctpGetStatus => Sys2Proof.Machine.execMctpGetStatus s
  | .mctpGetSensors smp => Sys2Proof.Machine.execMctpGetSensors smp s
  | .setCap watts => Sys2Proof.Machine.execSetCap watts s
  | .getErrors idx => Sys2Proof.Machine.execGetErrors idx s
  | .norBegin size => Sys2Proof.Machine.execNorBegin size s
  | .norData data => Sys2Proof.Machine.execNorData data s
  | .norEnd slot svn revoke sigOk => Sys2Proof.Machine.execNorEnd slot svn revoke sigOk s
  | .waitneTimeout core cond d a b fn io => Sys2Proof.Machine.execWaitneTimeout core cond d a b fn io s
  | .controlReplyTimeout req dev => Sys2Proof.Machine.execControlReplyTimeout req dev s
  | .siteStopsAnswering n => Sys2Proof.Machine.execSiteStopsAnswering n s
  | .siteTemperatureChange n hot => Sys2Proof.Machine.execSiteTemperatureChange n hot s
  | .bar4Resize log => Sys2Proof.Machine.execBar4Resize log s
  | .hepLinkUp speed width flit mrrs mps host => Sys2Proof.Machine.execHepLinkUp speed width flit mrrs mps host s
  | .apLinkUp port speed width flit aspm => Sys2Proof.Machine.execApLinkUp port speed width flit aspm s
  | .ssdReady port cap => Sys2Proof.Machine.execSsdReady port cap s
  | .nvmeTcpConnectionClose conn => Sys2Proof.Machine.execNvmeTcpConnectionClose conn s
  | .sbEstopDeassert => Sys2Proof.Machine.execSbEstopDeassert s
  | .vinRestored mv cool => Sys2Proof.Machine.execVinRestored mv cool s
  | .sbPwrenHoldoffEnd cool => Sys2Proof.Machine.execSbPwrenHoldoffEnd cool s
  | .railsInRegulation sigOk => Sys2Proof.Machine.execRailsInRegulation sigOk s
  | .busMasterSet mse => Sys2Proof.Machine.execBusMasterSet mse s
  | .hepFundamentalReset sigOk => Sys2Proof.Machine.execHepFundamentalReset sigOk s
  | .reservedOpcode core word => Sys2Proof.Machine.execReservedOpcode core word s
  | .instructionFetchFault core => Sys2Proof.Machine.execInstructionFetchFault core s
  | .badTypeJobBegin c ix => Sys2Proof.Machine.execBadTypeJobBegin c ix s
  | .nvmeInvalidOpcode conn cid opc => Sys2Proof.Machine.execNvmeInvalidOpcode conn cid opc s
  | .mctpUnsupportedMessage vendor cmd => Sys2Proof.Machine.execMctpUnsupportedMessage vendor cmd s
  | .smbusArp code addr => Sys2Proof.Machine.execSmbusArp code addr s
  | .fwUpdateVerified sigOk => Sys2Proof.Machine.execFwUpdateVerified sigOk s
  | .attReportSigned => Sys2Proof.Machine.execAttReportSigned s

end Sys2Proof.Machine
end

