-- ==== Sys2Proof/Machine/Tick.lean ====
section
/-!
DEFINITION. Machine/Tick.lean: what happens as time passes with no command waiting: the block's clocks, and errors that arise
in its hardware (R206, R445, R485; log entries 6 and 81).
-/
namespace Sys2Proof.Machine

/-- An error arises, of a kind and at a place (Table 7.4): kinds 0 to 3 on a channel of a site, met by the next operation
there; 4 and 5 in a granule of the harbour or of cluster SRAM; 6 a link CRC error that three retries do not cure, so that the
channel is retrained; 7 in a check-word engine or scrubber; 8 a link-layer replay of a PCIe link (Table 11.4); 9 an
uncorrectable error of the error machinery (R449). -/
def Dev.arise (d : Dev) (kind x y : Nat) : Dev :=
  let n := x % 16
  let c := x / 16 % 16
  let put (u : Upset) (ok : Bool) : Dev := if ok then { d with upsets := d.upsets ++ [u] } else d
  let sram : Bool := areaOf (y * 256) ≠ .device && storable (y * 256)
  match kind with
  | 0 => put (.link n c (y % 3 + 1)) (d.siteReady n)
  | 1 => put (.parity n c) (d.siteReady n)
  | 2 => put (.dramCe n c) (d.siteReady n)
  | 3 => put (.dramUe n c) (d.siteReady n)
  | 4 => put (.sramCe y) sram
  | 5 => put (.sramUe y) sram
  | 6 => if d.siteReady n && !d.retraining (addrOfSite d.fw.layout n (c * 256)) then d.retrainBegin n c (c * 256) else d
  | 7 => if d.siteReady n then d.engineFail (n / 4) else d
  | 8 => if d.linkUp (x % 9) then d.inc (pgPort (x % 9) + 0x80c) else d
  | 9 => (d.setErr 0x5000 1).report 0x5000 none 0x0025 0x41 x 0
  | _ => d

/-- An error arises, or none. -/
def Dev.ariseNow (d : Dev) : Dev :=
  let u := Config.upset d.fresh
  ({ d with fresh := d.fresh + 1 } : Dev).arise u.1 u.2.1 u.2.2

/-- A host network pair whose first write-back was 1 us ago reports (R370). -/
def Dev.ripen (d : Dev) : Dev :=
  let ripe := d.net.due.filter fun p => decide (1000 ≤ (d.trclk - p.2).toNat)
  let due := d.net.due.filter fun p => !ripe.contains p
  ({ d with net := { d.net with due := due } } : Dev).each ripe fun p d =>
    d.msix (d.g (pgNET + 0x194 + (p.1 + 1) * 2 ^ 24) 22 9)

/-- Cycles of NCLK, of 1.35 GHz, in which the dispatcher waits for room in the reorder stage (R353, Table 13.7). -/
def Dev.stalls (d : Dev) : Dev :=
  let t := d.trclk.toNat
  if d.net.wait.isEmpty then d else d.incBy (pgPKT + 0x810) (27 * (t + 1) / 20 - 27 * t / 20)

/-- The TRCLK counter moves on, in every state but standby (R39, R485); the handling windows that were open close (R445). -/
def Dev.clocks (d : Dev) : Dev :=
  { d with
    trclk := if d.pwr.main then d.trclk + 1 else d.trclk
    err := { d.err with windows := [] } }

/-- The device with no command waiting (DESIGN CHOICE, log entry 6): its clocks move on, requests that wait at its ports are
served if they may be, SYSCALLs that waited for the firmware too, trace records that waited are written, engines whose
requests waited at the memory go on, and an error may arise in its powered hardware. -/
def Dev.tick (d : Dev) : Dev :=
  let d0 := d.stalls.clocks.ripen.serveWaiting.serveCalls.tbFlushAll
  let d1 := d0.each (d0.dma.map (·.1)) fun n d => d.engResume n
  (if d1.pwr.main then d1.ariseNow else d1).recordFound.settle

end Sys2Proof.Machine
end

