-- ==== Sys2Proof/Safety.lean ====
section
/-!
DEFINITION. Safety.lean: what the statements are said in: that a command has its effect, what a device keeps, and the form
of its memory.
-/
namespace Sys2Proof.Machine

/-- `exec` ANSWERS A NEXT STATE on the command: its queue is the queue of `s`, and its device meets `P`. -/
def Completes (i : Instr) (s : State) (P : Dev → Prop) : Prop :=
  ∃ t, exec i s = .next t ∧ t.pending = s.pending ∧ P t.dev

/-- The command answers a next state, whatever waits in the queue: the queue stands, and the device becomes `e`, settled
(what merges found recorded, pending interrupts, the level of SB_ALERT_N, the gating of VCLK, the LTR messages). -/
def Does (i : Instr) (d e : Dev) : Prop := ∀ q : List Instr, exec i ⟨d, q⟩ = .next ⟨e.recordFound.settle, q⟩

/-- The device with a job taken from its cluster's queue. -/
def Dev.without (d : Dev) (j : QJob) : Dev := { d with xc := { d.xc with queue := d.xc.queue.filter (·.seq ≠ j.seq) } }

/-- The `i`-th queued job of cluster `c` is `j`, and it may begin: the cluster starts jobs, its TYPE is the one given, its
waits are over, its record's channel is not retraining, and its completion record passes its check. -/
def Dev.canBegin (d : Dev) (c i : Nat) (j : QJob) (type : Nat) (ready : QJob → Dev → Bool) : Prop :=
  (d.xcQueue c)[i]? = some j ∧ d.live = true ∧ d.starts (pgXC c) = true ∧ j.foreign = false ∧ j.type = type ∧
    ready j d = true ∧ d.blocked j.cmpl 16 = false ∧ (d.without j).jobAddr j true j.cmpl 16 = true

/-- The device with the `i`-th job taken from the exchange unit's queue; the job may begin, no channel of
the memory is retraining, and XCTL.EN is 1. -/
def Dev.withoutX (d : Dev) (i : Nat) : Dev := { d with xch := { d.xch with queue := d.xch.queue.eraseIdx i } }
def Dev.canXBegin (d : Dev) (i : Nat) (j : QJob) (type : Nat) : Prop :=
  d.xch.queue[i]? = some j ∧ d.live = true ∧ d.starts pgEMH = true ∧ j.foreign = false ∧ j.type = type ∧
    d.calm = true ∧ (d.withoutX i).xAddr j true j.cmpl 16 = true ∧ d.b (pgEMH + 0x600) 0 = true

/-- Core `i` runs and a condition holds for it (R220). -/
def Dev.runs (d : Dev) (i : Fin 37) (cond : BitVec 4) : Prop :=
  (d.core i).running = true ∧ d.safe = false ∧ condHolds (d.core i) d.tide.cur cond = true

/-- The device as an instruction of core `i` finds it: its issue has been traced (R486). -/
def Dev.issuing (d : Dev) (i : Fin 37) (cond : BitVec 4) : Dev :=
  if (d.tcore i).stall.isSome then d else d.traceInsn i (d.core i).pc cond true

/-- An instruction of core `i` at `pc` completed: its program counter is the next instruction's. -/
def Dev.retire (d : Dev) (i : Fin 37) (pc : DWord) : Dev := (d.setCore i { d.core i with pc := pcNext pc }).traceDone i

/-- An instruction of core `i` completed with the core's registers as given. -/
def Dev.retireWith (d : Dev) (i : Fin 37) (k : Core) : Dev := (d.setCore i k).retire i (d.core i).pc

/-- A load of core `i` of `n` bytes at register `r` plus `imm` passes its checks and reads memory at `p` (R226). -/
def Dev.canLoad (d : Dev) (i : Fin 37) (r : Reg) (imm : DWord) (n : Nat) (io : Mio) (p : Nat) : Prop :=
  chkAccess i r imm n n false false = .ok p ∧ r.tag ≠ tIO ∧ areaOf p ≠ .pages ∧ areaOf p ≠ .check ∧
    d.blocked p n = false ∧ io.links = 0

/-- A store of core `i` of `n` bytes at register `r` plus `imm` passes its checks and writes memory at `p` (R226). -/
def Dev.canStore (d : Dev) (i : Fin 37) (r : Reg) (imm : DWord) (n align p : Nat) : Prop :=
  chkAccess i r imm n align true false = .ok p ∧ r.tag ≠ tIO ∧ areaOf p ≠ .pages ∧ d.blocked p n = false

/-- What core `i` reads at `p`: page and domain are the core's. -/
def Dev.coreMem (d : Dev) (i : Fin 37) (p n : Nat) : List Byte × Bool × Dev :=
  d.memRead (corePage i) (domOf ((d.core i).dom i)) p n
/-- What core `i` writes at `p`. -/
def Dev.corePut (d : Dev) (i : Fin 37) (p : Nat) (l : List Byte) (poison : Bool) : Dev :=
  d.memWrite (corePage i) (domOf ((d.core i).dom i)) p l poison

/-- A loaded value in its register, and T (R227). -/
def Dev.loadInto (d : Dev) (i : Fin 37) (r : BitVec 5) (v : DWord) (t : Nat) : Dev :=
  d.setCore i { (d.core i).setReg r v t with t := t ≠ tPOISON }

/-- The trap of an instruction of core `i` at `pc`: its TRAP record, the triggers on traps, and the trap (R240 to R242,
R487, R489). -/
def Dev.trapped (d : Dev) (i : Fin 37) (pc : DWord) (word cause : Nat) (fault : DWord) : Dev :=
  let e := d.setTcore i { d.tcore i with stall := none }
  ((e.coreRec i 4 cause (adrOf 7 pc)).triggerAll 2 fun b => e.tbNames b i).trap i word cause fault

/-- A control transfer of core `i` completed: its program counter is `pc`, and its BRANCH record follows (R487). -/
def Dev.branched (d : Dev) (i : Fin 37) (pc : DWord) : Dev :=
  let e := (d.setCore i { d.core i with pc := pc }).traceDone i
  e.coreRec i 2 (e.tcore i).n (adrOf 7 pc)

/-- The device with a control message taken from those delivered. -/
def Dev.taking (d : Dev) (src : Nat) (m : Ctl) : Dev := { d with emh := { d.emh with inbox := d.emh.inbox.erase (src, m) } }

/-- A received packet names this device and a context that knows its sender: the checks of R371 to R373. -/
def Dev.knows (d : Dev) (k : EmhPkt) : Prop :=
  d.emhUp = true ∧ k.csumOk = true ∧ d.b (pgEMH + 0x100) 0 = true ∧ k.ver = 1 ∧
    k.domain = d.g (pgEMH + 0x108) 16 16 ∧ k.ddev = d.g (pgEMH + 0x108) 0 10 ∧ d.cState k.dconn ≠ 0 ∧
    k.sdev = d.cPeer k.dconn ∧ k.sconn = d.cf k.dconn 6 2 ∧ (k.op = 7 ∨ k.epoch = d.cf k.dconn 3 1) ∧
    d.tide.hold = false ∧ d.calm = true

/-- Connection `conn` is a queue of controller `x` in traffic: an I/O queue, or its admin queue. -/
def Dev.hosts (d : Dev) (conn : Nat) (x : NvCtl) (io : Bool) : Prop :=
  d.nvUp = true ∧ ∃ q, d.nvConn? conn = some q ∧ q.ready = true ∧ decide (q.qid ≠ 0) = io ∧ q.ctl.bind d.nvCtl? = some x

/-- Nothing waits for time to pass: no request at a port, no report of a host pair, no SYSCALL, no trace record, no engine, and
no error that the last step found. -/
def Dev.quiet (d : Dev) : Prop :=
  d.net.wait = [] ∧ d.net.due = [] ∧ d.port.waitReq = [] ∧ (∀ i, i < 32 → (d.core i).sysWait = false) ∧
    (∀ b, b < 8 → (d.tbuf b).queue = []) ∧ (∀ n, (d.eng n).active = false) ∧ d.found = []

/-- One byte of device memory, harbour or cluster SRAM as it stands. -/
def Dev.byteAt (d : Dev) (a : Nat) : Byte := Map.get (fun _ => 0) d.mem a

/-- Every byte, and every check word, stands as before. -/
def sameMem (d e : Dev) : Prop := (∀ a, e.byteAt a = d.byteAt a) ∧ ∀ g, e.mark g = d.mark g

/-- Every register but those of a list, and but the count of VCLK restarts, holds what it held. -/
def sameRegsBut (l : List Nat) (d e : Dev) : Prop := ∀ k, k ∉ l → k ≠ 0x2804 → e.rd k = d.rd k

/-- A device in which core `i` differs only in its program counter, flags and control registers and in the registers `rds`,
and nothing else but traces differs: memory, registers, banks, tide, slack, coves, errors, the other cores and what has left
the device are the same. -/
def onlyCore (i : Fin 37) (rds : List (BitVec 5)) (d e : Dev) : Prop :=
  sameMem d e ∧ e.regs = d.regs ∧ e.bank = d.bank ∧ e.tide = d.tide ∧ e.slack = d.slack ∧ e.coves = d.coves ∧
    e.err = d.err ∧ e.out = d.out ∧ e.xc = d.xc ∧ (∀ j, j ≠ i.val → e.core j = d.core j) ∧
    (∀ r, r ∉ rds → (e.core i).reg r = (d.core i).reg r) ∧ (e.core i).watch = (d.core i).watch ∧
    (e.core i).grant = (d.core i).grant ∧ (e.core i).ngrant = (d.core i).ngrant ∧ (e.core i).cove = (d.core i).cove ∧
    (e.core i).part = (d.core i).part ∧ (e.core i).sealKey = (d.core i).sealKey

/-- The core of an instruction that works on registers alone, and the registers it may write. -/
def registersOnly : Instr → Option (Fin 37 × List (BitVec 5))
  | .alu i _ rd _ _ _ => some (i, [rd])
  | .cmpi i _ _ _ _ => some (i, [])
  | .fpu i _ rd _ _ _ => some (i, [rd])
  | .addi i _ rd _ _ => some (i, [rd])
  | .andi i _ rd _ _ => some (i, [rd])
  | .ori i _ rd _ _ => some (i, [rd])
  | .xori i _ rd _ _ => some (i, [rd])
  | .shi i _ rd _ _ => some (i, [rd])
  | .movi i _ rd _ => some (i, [rd])
  | .movs i _ rd _ => some (i, [rd])
  | .tget i _ rd _ => some (i, [rd])
  | .ttst i _ _ _ => some (i, [])
  | .mkt i _ rd _ => some (i, [rd])
  | .tint i _ rd _ => some (i, [rd])
  | .mkh i _ rd _ => some (i, [rd])
  | .addr i _ rd _ => some (i, [rd])
  | .narrow i _ rd _ _ => some (i, [rd])
  | .rdonly i _ rd _ => some (i, [rd])
  | .mint i _ rd _ _ => some (i, [rd])
  | .tcur i _ rd => some (i, [rd])
  | .clk i _ rd => some (i, [rd])
  | .b i _ _ => some (i, [])
  | .jal i _ _ => some (i, [30])
  | .jr i _ rd _ => some (i, [rd])
  | _ => none

/-- The maps of the device are in canonical form: registers, active banks, memory and check words. -/
def Dev.canonical (d : Dev) : Bool :=
  Map.wf regReset d.regs && Map.wf regReset d.bank && Map.wf (fun _ => (0 : Byte)) d.mem && Map.wf (fun _ => Mark.good) d.marks

/-- `n` steps one after another, as long as each answers a next state. -/
def runSteps : Nat → State → Host.Outcome State Fault Refusal
  | 0, s => .next s
  | n + 1, s => match step s with
    | .next t => runSteps n t
    | o => o

end Sys2Proof.Machine
end

