-- ==== Sys2Proof/Certificates/Slice0/Obligations.lean ====
section
/-!
DEFINITION. Certificates/Slice0/Obligations.lean: the statements put to the provers. Each is a property of the model that the
numbered rules of spec/ give; the rules stand in its docstring. `Does c d e` says that command `c` on device `d` answers the
next state `e`, whatever waits in the queue.
-/
open Sys2Proof Sys2Proof.Machine

/-- The commands on registers complete where the page serves writes: a write reaches the register, a read of a _LO register
latches its _HI, COMMIT bits arm, switch and cancel, and the header bits change (R10, R53 to R56, R483, R504, R505, R507). -/
def Obligations.RegisterCommandsComplete : Prop :=
  (∀ (d : Dev) (off : Nat) (v : Word), off < 0x202040 → off % 4 = 0 → d.writable off = true →
    (off < 0x200000 ∨ d.safe = true) → Does (.registerWrite off v) d (d.regWrite false off v.toNat)) ∧
  (∀ (d : Dev) (off : Nat) (v : Word), 0x200000 ≤ off → off < 0x202040 → off % 4 = 0 → d.safe = false →
    Does (.registerWrite off v) d (d.regWrite false off v.toNat)) ∧
  (∀ (d : Dev) (off : Nat), off < 0x200000 → latches off = true → d.pageOpen off = true →
    Does (.loReadLatch off) d
      { d with latch := Map.ins (fun _ => 0) (off + 4) (BitVec.ofNat 32 (d.pairNow off / 2 ^ 32)) d.latch }) ∧
  (∀ (d : Dev) (pg : Nat), isPage pg = true → d.writable (pg + 0x38) = true → d.isPosted pg = false → d.mayPost false pg = true →
    Does (.commitArm pg) d (d.setCommit pg { d.commit pg with
      armed := some (d.armTide pg), wdrop := false, skip := d.tide.hold
      late := decide (d.armTide pg ≤ d.tide.cur) && !(d.slack.startup && d.armTide pg == d.tide.cur) })) ∧
  (∀ (d : Dev) (pg : Nat), isPage pg = true → d.writable (pg + 0x38) = true → d.isPosted pg = false → d.mayPost false pg = true →
    Does (.commitNow pg) d
      ((d.setCommit pg { d.commit pg with armed := none, late := false, wdrop := false }).activate pg)) ∧
  (∀ (d : Dev) (pg : Nat), isPage pg = true → d.writable (pg + 0x38) = true →
    Does (.commitCancel pg) d (d.setCommit pg { d.commit pg with armed := none })) ∧
  (∀ (d : Dev) (pg n : Nat) (b : Blk) (en : Bool), isPage pg = true → pageBlk (pg / 4096) = some (b, n) →
    b ∉ [Blk.gen, .tide, .sec, .err, .trc, .cnt, .fwr, .srp] → d.writable (pg + 8) = true →
    Does (.hctlEnWrite pg en) d (d.sb (pg + 8) 0 en)) ∧
  (∀ (d : Dev) (pg n : Nat) (b : Blk) (en : Bool), isPage pg = true → pageBlk (pg / 4096) = some (b, n) →
    b ∈ [Blk.gen, .tide, .sec, .err, .trc, .cnt, .fwr, .srp] → d.writable (pg + 8) = true →
    Does (.hctlEnWrite pg en) d d) ∧
  (∀ (d : Dev) (pg : Nat) (f : Bool), isPage pg = true → pg ≠ pgSRP → d.writable (pg + 8) = true →
    Does (.hctlFreezeWrite pg f) d (d.sb (pg + 8) 1 f)) ∧
  (∀ (d : Dev) (pg : Nat) (b : Bool), isPage pg = true → d.slackNow = true → d.writable (pg + 8) = true →
    b ≠ d.b (pg + 8) 2 → Does (.hctlSafeWrite pg b) d (d.sb (pg + 8) 2 b)) ∧
  (∀ (d : Dev) (pg : Nat) (v : Word) (m : List FieldD), isPage pg = true → d.writable (pg + 0x28) = true →
    fieldsOf (pg + 0x20) = some m →
    Does (.intSetWrite pg v) d (d.wr (pg + 0x20) (d.rd (pg + 0x20) ||| BitVec.ofNat 32 (v.toNat &&& maskOf m))))

/-- Marks, edges and reports complete: a worker takes up a greater mark of its headland or holds an announced one until the
edge or 50 us; marks that stay away bring slack; the headland counts reports and advances (R22, R24, R44, R45, R49, R50). -/
def Obligations.MarksAndReportsComplete : Prop :=
  (∀ (d : Dev) (a : Bool) (n : DWord), d.emhOn = true → d.fwRunning = true → d.isWorker = true → d.tide.cur < n →
    (a && d.b (pgTIDE + 8) 8) = false → Does (.tideMarkMsg d.tide.headDev a n) d
      (let e := d.taking d.tide.headDev { ctype := 1, announce := a, tide := n }
       ({ e with tide := { e.tide with stopping := false } } : Dev).applyMark n)) ∧
  (∀ (d : Dev) (n : DWord), d.emhOn = true → d.fwRunning = true → d.isWorker = true → d.tide.cur < n →
    d.b (pgTIDE + 8) 8 = true → Does (.tideMarkMsg d.tide.headDev true n) d
      { d.taking d.tide.headDev { ctype := 1, announce := true, tide := n } with
        tide := { d.tide with held := some n, next := n, stopping := false } }) ∧
  (∀ d : Dev, d.isWorker = true → d.fwRunning = true → d.safe = false → d.tide.reported = true → d.tide.hold = false →
    d.slack.startup = false → d.slack.stop = false → d.tide.held = none → d.tide.leaseHeld = none →
    Does .markTimeout d ({ d with tide := { d.tide with stopping := true } } : Dev).stopNow) ∧
  (∀ (d : Dev) (n : DWord), d.isWorker = true → d.b (pgTIDE + 8) 8 = true → d.fwRunning = true → d.safe = false →
    d.tide.held = some n →
    Does (.sbTideEdge false) d (({ d with tide := { d.tide with level := !d.tide.level } } : Dev).applyMark n)) ∧
  (∀ d : Dev, d.isWorker = true → d.b (pgTIDE + 8) 8 = true → d.fwRunning = true → d.safe = false → d.tide.held = none →
    Does (.sbTideEdge false) d (({ d with tide := { d.tide with level := !d.tide.level } } : Dev).inc (pgTIDE + 0x80c))) ∧
  (∀ d : Dev, d.isWorker = true → d.b (pgTIDE + 8) 8 = true → d.fwRunning = true → d.safe = false →
    Does (.sbTideEdge true) d
      ((({ d with tide := { d.tide with level := !d.tide.level } } : Dev).inc (pgTIDE + 0x814)).setErr pgTIDE 2)) ∧
  (∀ d : Dev, d.isHead = true → d.b (pgTIDE + 8) 8 = true → d.tide.announced = true → d.safe = false →
    Does .sbTideDrive d { d with tide := { d.tide with level := !d.tide.level, announced := false } }) ∧
  (∀ (d : Dev) (n : DWord), d.tide.held = some n → d.safe = false →
    Does .edgeMissTimeout d ((d.applyMark n).inc (pgTIDE + 0x810))) ∧
  (∀ (d : Dev) (src : Nat), d.emhOn = true → d.fwRunning = true → d.isHead = true → src ∈ d.workers →
    src ∉ d.tide.reports → d.slack.startup = false → Does (.tideReportMsg src d.tide.cur) d
      { d.taking src { ctype := 2, dev := src, tide := d.tide.cur } with
        tide := { d.tide with reports := d.tide.reports ++ [src] } }) ∧
  (∀ d : Dev, d.isHead = true → d.live = true → d.slackNow = false → d.tide.pending = true → d.tide.cur < d.tide.next →
    d.waitingReports = [] → d.gated d.tide.next = false → d.tide.announced = false → d.tide.including = [] →
    Does .tideAdvance d
      (let e := d.each d.workers fun w e => e.sendCtl w { ctype := 1, announce := d.b (pgTIDE + 8) 8, tide := d.tide.next }
       ({ e with tide := { e.tide with pending := false, announced := d.b (pgTIDE + 8) 8 } } : Dev).reach d.tide.next [])) ∧
  (∀ (d : Dev) (dev : Nat), d.isHead = true → d.fwRunning = true → d.safe = false → d.tide.reported = true →
    dev ∈ d.waitingReports → dev ∉ d.tide.tmoSeen → Does (.reportTimeout dev) d
      (({ d with tide := { d.tide with tmoSeen := d.tide.tmoSeen ++ [dev] } } : Dev).missing dev)) ∧
  (∀ (d : Dev) (req dev : Nat) (o : CtlOp), d.safe = false →
    d.tide.ctlOps.find? (fun o => o.req == req && o.waiting.contains dev && !o.late.contains dev) = some o →
    Does (.controlReplyTimeout req dev) d
      (({ d with tide := { d.tide with ctlOps := d.tide.ctlOps.map fun (x : CtlOp) =>
            if x = o then { x with late := x.late ++ [dev] } else x } } : Dev).missing dev))

/-- The boundary, the start of a domain and the registers of TIDE complete (R47, R48, R60, R88, R132, R512). -/
def Obligations.BoundaryAndStartComplete : Prop :=
  (∀ d : Dev, d.tide.hold = true → d.fwRunning = true → d.safe = false → Does .boundaryApply d d.applyActions.release) ∧
  (∀ (d : Dev) (cid : Nat) (c : Cmd), d.cmd? 0 cid 0x0014 = some c → d.isHead = true → d.tide.start = none →
    d.slack.startup = true → d.workers ≠ [] → Does (.domainStart cid) d
      (let e := (d.hold c).each d.workers fun w e => e.sendCtl w { ctype := 16, tide := e.tide.cur }
       { e with tide := { e.tide with start := some (cid, d.tide.cur, d.workers, []) } })) ∧
  (∀ d : Dev, d.emhOn = true → d.fwRunning = true → d.isWorker = true → d.slack.startup = true →
    Does (.startMsg d.tide.headDev false d.tide.cur) d
      (let e := (d.taking d.tide.headDev { ctype := 16, tide := d.tide.cur }).sendCtl d.tide.headDev
         { ctype := 17, dev := d.tide.dev, tide := d.tide.cur }
       ({ e with tide := { e.tide with startS := some d.tide.cur, restart := false } } : Dev).begin)) ∧
  (∀ (d : Dev) (cid src : Nat) (ag : List Nat) (t : DWord), d.emhOn = true → d.fwRunning = true →
    d.tide.configured = true → d.tide.start = some (cid, t, [src], ag) → Does (.startAckMsg src false t) d
      (({ d.taking src { ctype := 17, dev := src, tide := t } with tide := { d.tide with start := none } } : Dev).begin.complete
        0 cid 0 0)) ∧
  (∀ (d : Dev) (cid src w : Nat) (ws ag : List Nat) (t : DWord), d.emhOn = true → d.fwRunning = true →
    d.tide.configured = true → d.tide.start = some (cid, t, src :: w :: ws, ag) → Does (.startAckMsg src false t) d
      { d.taking src { ctype := 17, dev := src, tide := t } with
        tide := { d.tide with start := some (cid, t, w :: ws, ag ++ [src]) } }) ∧
  (∀ (d : Dev) (cid w : Nat) (ws ag : List Nat) (t : DWord), d.tide.start = some (cid, t, w :: ws, ag) → d.safe = false →
    Does .domainStartTimeout d
      (let e := d.each ag fun w e => e.sendCtl w { ctype := 16, refuse := true, tide := t }
       ({ e with tide := { e.tide with start := none, reports := [] } } : Dev).complete 0 cid 0x0012 w)) ∧
  (∀ (d : Dev) (v : Word), d.writable (pgTIDE + 0x100) = true →
    Does (.tideCurLoStage v) d { d with tide := { d.tide with stage := v } }) ∧
  (∀ (d : Dev) (v : Word), d.writable (pgTIDE + 0x104) = true → d.slackNow = true → d.anyArmed = false →
    let t := v ++ d.tide.stage
    let keep := decide (t < d.tide.next)
    Does (.tideCurLoad v) d { d with tide := { d.tide with
      cur := t, prev := t, done := if d.tide.cur = t then d.tide.done else [], reported := false, reports := [], tmoSeen := []
      leaseHeld := none, pending := d.tide.pending && keep, held := if keep then d.tide.held else none
      next := if keep && (d.tide.pending || d.tide.held.isSome) then d.tide.next else t } }) ∧
  (∀ (d : Dev) (en : Bool), d.writable (pgTIDE + 8) = true → d.slackNow = true → en ≠ d.b (pgTIDE + 8) 8 →
    Does (.tideSbtEnWrite en) d (d.sb (pgTIDE + 8) 8 en)) ∧
  (∀ (d : Dev) (c : Fin 16) (vec : Bool) (x : Word), d.writable (pgXC c + 0x10c) = true →
    Does (.srSeedWrite c vec x) d
      (let e := d.wr (pgXC c + if vec then 0x110 else 0x10c) x
       { e with xc := { e.xc with gen := e.xc.gen.set (2 * c + b2n vec) (BitVec.ofNat 32 (srSeed x.toNat)) } }))

/-- The jobs of the clusters complete: a queued job that may begin and passes its checks leaves the queue and does its work;
loads, slices, notices and results are taken up; a job that waits for nothing ends (R104 to R130, R165 to R184). -/
def Obligations.ClusterCommandsComplete : Prop :=
  (∀ (d : Dev) (c : Fin 16) (i : Nat) (j : QJob), d.canBegin c i j 1 expertReady → expertChecks j = 0 →
    (d.without j).jobAddrs j (expertRanges j) = none → Does (.expertJobBegin c i) d ((d.without j).expertDo j)) ∧
  (∀ (d : Dev) (c : Fin 16) (i : Nat) (j : QJob), d.canBegin c i j 2 (fun j d => d.reaches (gateRanges j)) → gateChecks j = 0 →
    areaOf (j.b8 24) = .sram c → (d.without j).jobAddrs j (gateRanges j) = none →
    Does (.gateJobBegin c i) d ((d.without j).gateDo j)) ∧
  (∀ (d : Dev) (c : Fin 16) (i : Nat) (j : QJob), d.canBegin c i j 3 combReady → combChecks j = 0 →
    (d.without j).jobAddrs j (combRanges j) = none → Does (.combineJobBegin c i) d ((d.without j).combineDo j)) ∧
  (∀ (d : Dev) (c : Fin 16) (i : Nat) (j : QJob), d.canBegin c i j 4 cbReady →
    (d.without j).jobAddrs j [(false, j.b8 8, 33280)] = none → Does (.codebookLoadBegin c i) d
      (((d.without j).sb (pgXC c + 0x104) j.slot false).running { q := j, wait := true, poison := j.poison })) ∧
  (∀ (d : Dev) (c : Fin 16) (i : Nat) (j : QJob), d.canBegin c i j 0x20 kvReady →
    Does (.kvSelectBegin c i) d ((d.without j).kvSelectDo j)) ∧
  (∀ (d : Dev) (c : Fin 16) (i : Nat) (j : QJob) (o : List Nat), d.canBegin c i j 0x21 kvReady →
    Does (.kvAttendBegin c i o) d ((d.without j).kvAttendDo j o)) ∧
  (∀ (d : Dev) (c : Fin 16) (i : Nat) (j : QJob), d.canBegin c i j 0x22 kvReady →
    Does (.kvWriteBegin c i) d ((d.without j).kvWriteDo j)) ∧
  (∀ (d : Dev) (c : Fin 16) (i : Nat) (j : QJob), d.canBegin c i j 0x23 kvReady →
    Does (.kvReadBegin c i) d ((d.without j).kvReadDo j)) ∧
  (∀ (d : Dev) (c : Fin 17) (i : Nat) (j : QJob), c.val < 16 → (d.xcQueue c)[i]? = some j → d.live = true →
    d.starts (pgXC c) = true → (j.foreign = true ∨ j.type ∉ [1, 2, 3, 4, 0x20, 0x21, 0x22, 0x23]) →
    (d.without j).jobAddr j true j.cmpl 16 = true →
    Does (.badTypeJobBegin c i) d ((d.without j).endJob j 7 false 0 0)) ∧
  (∀ (d : Dev) (c : Fin 16) (seq : Nat) (r : RunJob),
    (d.xcRun c).find? (fun r => r.q.seq == seq && r.q.type == 4 && r.wait) = some r →
    d.reaches [(false, r.q.b8 8, 33280)] = true →
    Does (.codebookLoadDone c seq) d (d.codebookDone c r)) ∧
  (∀ (d : Dev) (c : Fin 16) (seq : Nat) (r : RunJob),
    (d.xcRun c).find? (fun r => r.q.seq == seq && !r.wait) = some r → r.q.type ≠ 3 →
    d.xc.combs.find? (·.seq == seq) = none → Does (.jobEnd c seq) d
      ((((({ d with xc := { d.xc with run := d.xc.run.filter (·.q.seq ≠ seq) } } : Dev).each r.fin
        fun w d => d.memWrite (pgXC c) r.q.dom w.1 w.2.1 w.2.2).dropComb seq).endJob r.q r.status r.poison r.ca r.cb))) ∧
  (∀ (d : Dev) (i : Nat) (x : Slice), d.xc.slices[i]? = some x → d.safe = false →
    (∀ r, d.segOwner x.rgrp x.clmask x.owner = some r → d.reaches (expertRanges r.q) = true) →
    (d.xc.held.filter fun y => y.rgrp == x.rgrp && y.clmask == x.clmask && y.owner == x.owner).length + 1
      < popN x.clmask 16 → Does (.sliceReceive i) d
      { d with xc := { d.xc with slices := d.xc.slices.eraseIdx i, held := d.xc.held ++ [x] } }) ∧
  (∀ (d : Dev) (g m : Nat) (o : Fin 16) (r : RunJob), d.safe = false →
    (d.xc.held.filter fun y => y.rgrp == g && y.clmask == m && y.owner == o.val) ≠ [] →
    d.segOwner g m o = some r → Does (.sliceRedTimeout g m o) d
      (let same (y : Slice) : Bool := y.rgrp == g && y.clmask == m && y.owner == o.val
       let e := { d with xc := { d.xc with held := d.xc.held.filter fun y => !same y } }
       ((((e.writeSegment r (d.xc.held.filter same) true).1).setErr (pgXC o) 2).poisonSlices o g m).setRun r.q.seq fun r =>
         { r with status := 6, wait := false, poison := true })) ∧
  (∀ (d : Dev) (i : Nat) (n : Notice), d.xc.notices[i]? = some n → d.safe = false → d.noticeWaits n = false →
    Does (.partialNotice i) d
      (({ d with xc := { d.xc with notices := d.xc.notices.eraseIdx i } } : Dev).notice n)) ∧
  (∀ (d : Dev) (i : Nat) (m : KvMsg), d.xc.kvmsgs[i]? = some m → d.safe = false → d.calm = true →
    (d.xc.kvheld.filter fun y => y.type == m.type && y.rgrp == m.rgrp && y.clmask == m.clmask).length + 1
      < popN m.clmask 16 → Does (.kvGroupResult i) d
      { d with xc := { d.xc with kvmsgs := d.xc.kvmsgs.eraseIdx i, kvheld := d.xc.kvheld ++ [m] } }) ∧
  (∀ (d : Dev) (ty g m : Nat), d.safe = false → d.calm = true →
    (d.xc.kvheld.filter fun y => y.type == ty && y.rgrp == g && y.clmask == m) ≠ [] → Does (.kvGroupTimeout ty g m) d
      (let same (y : KvMsg) : Bool := y.type == ty && y.rgrp == g && y.clmask == m
       let (e, _, sel) := d.kvOutputs (d.xc.kvheld.filter same) true
       let f := { e with xc := { e.xc with kvheld := e.xc.kvheld.filter fun y => !same y } }
       (f.s (pgXC ((bitList m 16).headD 0) + 0x200) 1 1 1).kvRelease ty g m true true sel))

/-- The exchange completes: jobs begin and complete, messages are sent, land, return and are refused, credits move, waits
end, and the map is loaded and its switch armed (R134 to R159, R539). -/
def Obligations.ExchangeCommandsComplete : Prop :=
  (∀ (d : Dev) (i : Nat) (j : QJob), d.canXBegin i j 0x10 → (d.withoutX i).dispatchBad j = false →
    (d.withoutX i).partOk j (dispatchPart j) = true →
    ((dispatchReads j).find? fun r => !(d.withoutX i).xAddr j false r.1 r.2) = none →
    Does (.dispatchJobBegin i) d ((d.withoutX i).dispatchDo j)) ∧
  (∀ (d : Dev) (t c : Nat) (m : XMsg) (x : Sel) (r : List Sel),
    d.xch.msgs.find? (fun m => m.target == t && m.phase == 0) = some m → d.takesWork = true → d.credit t ≠ 0 →
    d.openOf m = x :: r → d.findCtx 1 t m.cove = some c → Does (.dispatchSend t) d (d.dispatchOut t m x r c)) ∧
  (∀ (d : Dev) (seq : Nat) (r : XJob),
    d.xch.run.find? (fun r => r.q.seq == seq && r.q.type == 0x10 && r.waiting.isEmpty) = some r → d.calm = true →
    Does (.dispatchJobComplete seq) d
      (({ d with xch := { d.xch with run := d.xch.run.filter (·.q.seq ≠ seq) } } : Dev).xEnd r.q
        (if r.failed then 6 else 0) (r.failed || r.poison) r.nlocal r.sent)) ∧
  (∀ (d : Dev) (conn msn k w : Nat) (h b : List Byte) (p : Bool), d.takesWork = true →
    (d.takeXin conn (some msn) h b p).slotFor conn msn h b = (some k, w) → Does (.dispatchMsg conn msn h b p) d
      (let e := d.takeXin conn (some msn) h b p
       ({ e with xch := { e.xch with pre := e.xch.pre.eraseP fun x => x.1 == conn && x.2.1 == msn } } : Dev).dispatchIn
         conn h b p k)) ∧
  (∀ (d : Dev) (conn msn w : Nat) (h b : List Byte) (p : Bool), d.takesWork = true →
    (d.takeXin conn (some msn) h b p).slotFor conn msn h b = (none, w) → Does (.dispatchMsg conn msn h b p) d
      (let e := d.takeXin conn (some msn) h b p
       ({ e with xch := { e.xch with pre := e.xch.pre.eraseP fun x => x.1 == conn && x.2.1 == msn } } : Dev).dispatchRefuse
         conn h w)) ∧
  (∀ (d e : Dev) (i idx : Nat) (j : QJob) (a0 a : Arrival), d.canXBegin i j 0x11 →
    (d.withoutX i).returnIdx j = some idx → (d.withoutX i).xAddr j false (j.b8 8) 128 = true →
    d.xch.arrivals.find? (·.idx == idx) = some a0 → (d.withoutX i).arrivalRec j a0 = (a, e) → returnOk j a = true →
    e.xAddr j false (j.b8 16) 128 = true → Does (.returnJobBegin i) d (e.returnDo j a idx)) ∧
  (∀ (d : Dev) (seq : Nat) (r : XJob),
    d.xch.run.find? (fun r => r.q.seq == seq && r.q.type == 0x11 && r.waiting.isEmpty) = some r → d.calm = true →
    Does (.returnJobComplete seq) d
      (let e := { d with xch := { d.xch with run := d.xch.run.filter (·.q.seq ≠ seq) } }
       (match r.release with | none => e | some n => Dev.freeArrival e n true).xEnd r.q r.status r.poison 0 r.sent)) ∧
  (∀ (d : Dev) (conn msn : Nat) (h b : List Byte) (p : Bool) (x : Sel), d.takesWork = true →
    let e := (d.takeXin conn (some msn) h b p).addCredit (beAt h 4 2 % 1024) (beAt h 6 2)
    e.openFor h = some x → Does (.returnMsg conn msn h b p) d (e.returnIn h b p x)) ∧
  (∀ (d : Dev) (conn msn : Nat) (h b : List Byte) (p : Bool), d.takesWork = true →
    let e := (d.takeXin conn (some msn) h b p).addCredit (beAt h 4 2 % 1024) (beAt h 6 2)
    e.openFor h = none → Does (.returnMsg conn msn h b p) d (e.incBy (pgEMH + 0x914) (d.xinPkts conn msn h b p))) ∧
  (∀ (d : Dev) (conn : Nat) (h : List Byte) (m : XMsg), d.takesWork = true →
    let e := ((d.takeXin conn none h [] false).addCredit (beAt h 4 2 % 1024) (beAt h 6 2)).inc (pgEMH + 0x918)
    e.xch.msgs.find? (e.refusedBy h) = some m → Does (.refuseMsg conn h) d (e.unreachable m false)) ∧
  (∀ (d : Dev) (id : Nat) (m : XMsg), d.safe = false →
    d.xch.msgs.find? (fun m => m.id == id && decide (m.phase < 2)) = some m →
    Does (.xdispTimeout id) d (d.unreachable m true)) ∧
  (∀ (d : Dev) (id : Nat) (m : XMsg), d.safe = false →
    d.xch.msgs.find? (fun m => m.id == id && m.phase == 2) = some m → d.openOf m ≠ [] →
    Does (.xretTimeout id) d (d.unreachable m true)) ∧
  (∀ (d : Dev) (conn : Nat) (h : List Byte), d.takesWork = true → Does (.creditMsg conn h) d
    ((d.takeXin conn none h [] false).addCredit (beAt h 4 2 % 1024) (beAt h 6 2))) ∧
  (∀ (d : Dev) (dev : Nat), d.safe = false → Does (.creditTimeout dev) d (d.sendCredit dev)) ∧
  (∀ (d : Dev) (n : Fin 16), d.writable (pgEMH + 0x640 + 4 * n) = true →
    Does (.xdownClear n) d (d.sb (pgEMH + 0x640 + 4 * n) 31 false)) ∧
  (∀ (d e f : Dev) (cid bank : Nat) (t : DWord) (c : Cmd) (h l : List Byte), d.cmd? 0 cid 0x0012 = some c →
    d.isHead = true → d.bufOk c false c.buflen = true → inUserMem bank (17 * 2 ^ 20) = true → bank % 64 = 0 →
    d.mapBusy = false → 64 ≤ c.buflen → d.memRead pgFWR 0x40 c.buf 64 = (h, false, f) →
    leAt h 8 4 ≤ 17 * 2 ^ 20 → leAt h 8 4 ≤ c.buflen → f.memRead pgFWR 0x40 c.buf (leAt h 8 4) = (l, false, e) →
    mapInvalid l (d.g (pgEMH + 0x60c) 0 16) = false →
    Does (.mapLoad cid bank t) d (e.mapSpread cid c l bank (d.pickTide c t))) ∧
  (∀ (d : Dev) (gen bank : Nat) (t : DWord), d.emhOn = true → d.fwRunning = true → d.isWorker = true →
    Does (.mapArmMsg d.tide.headDev gen t bank) d
      (((d.taking d.tide.headDev { ctype := 3, arg := gen, tide := t }).armMap bank t).sendCtl d.tide.headDev
        { ctype := 4, dev := d.tide.dev, arg := gen, tide := t })) ∧
  (∀ (d : Dev) (src gen : Nat) (t : DWord), d.emhOn = true → d.fwRunning = true → d.tide.configured = true →
    Does (.mapAckMsg src gen t) d
      ((d.taking src { ctype := 4, dev := src, arg := gen, tide := t }).answered src fun o =>
        o.req == 3 && o.arg == gen && o.tide == t))

/-- The commands of the DMA engines complete: a posted set starts, an image reads back, reports and continues, completions
place data, a missing one ends the image TIMEOUT, STOP and DISCARD act (R255 to R262, R300). -/
def Obligations.DmaCommandsComplete : Prop :=
  (∀ (d : Dev) (n : Fin 64), (d.eng n).posted = true → (d.eng n).active = false → d.live = true →
    d.starts (pgEng n) = true → d.ebbing = false → Does (.dmaSetStart n) d (d.takePosted n)) ∧
  (∀ (d : Dev) (n : Fin 64), (d.eng n).active = true → (d.eng n).phase = 1 → d.safe = false → d.chains n = false →
    d.reportWaits n = false → Does (.dmaReadback n) d (d.readback n)) ∧
  (∀ (d : Dev) (n : Fin 64), (d.eng n).active = true → (d.eng n).phase = 1 → d.safe = false → d.chains n = true →
    d.mayContinue n = true → d.reportWaits n = false → Does (.dmaReadback n) d ((d.readNext n).readback n)) ∧
  (∀ (d : Dev) (n : Fin 64), (d.eng n).active = true → (d.eng n).phase = 2 → (d.eng n).rd = [] → d.safe = false →
    Does (.dmaImageReport n) d
      (d.engReport n (if (d.eng n).status = 0 && (d.eng n).stopping then 0x0c else (d.eng n).status))) ∧
  (∀ (d : Dev) (n : Fin 64) (l : List Byte), (d.eng n).active = true → (d.eng n).phase = 3 →
    (d.eng n).nextImg = some l → d.mayContinue n = true → Does (.dmaContinue n) d
      (((d.inc (pgEng n + 0x800)).inc (pgEng n + 0x818)).startImg n l (d.actImg n).next ((d.eng n).hops + 1) 0
        (d.eng n).owner)) ∧
  (∀ (d : Dev) (n : Fin 64) (a : Nat) (r : BusRd), (d.eng n).active = true → d.safe = false →
    (d.eng n).rd.find? (fun x => x.elem == r.elem && decide (x.addr ≤ a) && decide (a < x.addr + x.size)) = some r →
    Does (.dmaRequestTimeout n r.elem a) d
      (((d.cmplTmo r.port).engTimeout n { d.eng n with rd := (d.eng n).rd.erase r } a true).engDone n)) ∧
  (∀ (d : Dev) (n : Fin 64) (k off : Nat) (l : List Byte) (p : Bool) (r : BusRd), (d.eng n).awaits k off = some r →
    d.safe = false → k < 2 ^ 24 → (r.dbus = true ∨ d.blocked (r.dst + (off - r.off)) l.length = false) →
    Does (.dmaBusCompletion n k off l p false) d (d.busPiece n r off l p)) ∧
  (∀ (d : Dev) (n : Fin 64), d.writable (pgEng n + 0x1a0) = true → (d.eng n).active = true → (d.eng n).phase ≠ 4 →
    Does (.dmaStop n) d (d.setEng n
      { d.eng n with stopping := true, phase := if (d.eng n).phase = 3 then 1 else (d.eng n).phase, nextImg := none
                     todo := (d.eng n).todo.take 1 })) ∧
  (∀ (d : Dev) (n : Fin 64), d.writable (pgEng n + 0x1a0) = true → Does (.dmaDiscard n) d
    ((d.setCommit (pgEng n) { d.commit (pgEng n) with armed := none }).setEng n
      { d.eng n with posted := false, pImg := 0, pBad := 0 }))

/-- Loading the firmware and the rings complete: an image is verified and started, pair 0 is enabled, tails and heads move,
entries are fetched, rings are made and removed, the interface, the domain and the layout are set (R20, R36, R267 to
R274, R513). -/
def Obligations.LoadingAndRingCommandsComplete : Prop :=
  (∀ d : Dev, d.writable (pgFWR + 0x10c) = true → (d.loadState = 1 ∨ d.loadState = 5) → d.g 0x8110 8 8 ≠ 7 →
    Does .loadGo d { (d.s 0x8110 0 4 2).s 0x8110 8 8 0 with fw := { d.fw with verifying := true } }) ∧
  (∀ (d e : Dev) (ok bad : Bool), d.loadState = 2 → d.safe = false →
    d.imageRead (d.rd64 0x8100 % 2 ^ 48) (d.g 0x8108 0 26) = (bad, e) →
    e.imageCheck (d.rd64 0x8100 % 2 ^ 48) (d.g 0x8108 0 26) bad ok = 0 → Does (.imageVerified ok) d
      (let f := { e with fw := { e.fw with verifying := false } }
       let a := d.rd64 0x8100 % 2 ^ 48
       (((Dev.copyGranules f a (slotBase false) ((d.g 0x8108 0 26 + 255) / 256 * 256)).startImage false
         (imageOf (Dev.bytes f a 256))).s 0x8110 0 4 3))) ∧
  (∀ (d e : Dev) (ok bad : Bool) (n : Nat), d.loadState = 2 → d.safe = false →
    d.imageRead (d.rd64 0x8100 % 2 ^ 48) (d.g 0x8108 0 26) = (bad, e) →
    e.imageCheck (d.rd64 0x8100 % 2 ^ 48) (d.g 0x8108 0 26) bad ok = n → n ∉ [0, 2] → Does (.imageVerified ok) d
      (let f := { e with fw := { e.fw with verifying := false } }
       ((Dev.s f 0x8110 0 4 5).s 0x8110 8 8 n).setErr pgFWR 0)) ∧
  (∀ d : Dev, d.loadState = 3 → d.safe = false → Does .firmwareRunning d
    ((({ d with slack := { d.slack with startup := true } } : Dev).s 0x8110 0 4 4).adminOn.history.nvResume)) ∧
  (∀ d : Dev, d.writable (pgFWR + 0x10c) = true → d.fwRunning = true → d.b 0x8110 4 = false →
    Does .adminGo d d.adminOn) ∧
  (∀ (d : Dev) (q : Fin 256) (v : Word), d.doorbell q = true → v.toNat % 65536 < 2 ^ (d.ring q).sqLog →
    Does (.sqTailWrite q v) d (d.setRing q { d.ring q with sqTail := v.toNat % 65536 })) ∧
  (∀ (d : Dev) (q : Fin 256) (v : Word), d.doorbell q = true → 2 ^ (d.ring q).sqLog ≤ v.toNat % 65536 →
    Does (.sqTailWrite q v) d (d.ringError q 1)) ∧
  (∀ (d : Dev) (q : Fin 256) (v : Word), d.doorbell q = true → q.val ≠ 0 → v.toNat % 65536 < 2 ^ (d.ring q).cqLog →
    (v.toNat % 65536 + 2 ^ (d.ring q).cqLog - (d.ring q).cqHead) % 2 ^ (d.ring q).cqLog
      ≤ ((d.ring q).cqTail + 2 ^ (d.ring q).cqLog - (d.ring q).cqHead) % 2 ^ (d.ring q).cqLog →
    Does (.cqHeadWrite q v) d (d.setRing q { d.ring q with cqHead := v.toNat % 65536 })) ∧
  (∀ (d : Dev) (q : Fin 256), d.fetches q = true → (d.ring q).sqHead ≠ (d.ring q).sqTail → 0 < (d.ring q).free →
    Does (.commandFetch q) d (d.fetchNext q)) ∧
  (∀ (d : Dev) (cid : Nat) (c : Cmd), d.cmd? 0 cid 0x0001 = some c → leAt c.param 0 1 = d.fw.image.ifMaj →
    leAt c.param 2 14 = 0 → d.mayNegotiate (leAt c.param 16 16) = true → 32 ≤ c.buflen → d.bufOk c true 32 = true →
    Does (.negotiate cid) d (d.negotiate c)) ∧
  (∀ (d : Dev) (cid : Nat) (c : Cmd), d.cmd? 0 cid 0x0002 = some c → d.expired = true → d.fw.renewed = true →
    Does (.resume cid) d
      (let e := (d.setLease 1).complete 0 cid 0 0
       ({ e with slack := { e.slack with lease := false }
                 fw := { e.fw with renewed := false, leaseSlackPend := none } } : Dev).resumed)) ∧
  (∀ (d : Dev) (cid p sb sl cb cl v : Nat) (o : Option Nat) (c : Cmd), d.cmd? 0 cid 0x0003 = some c →
    d.ringsOk p sb sl cb cl v o = true → Does (.createRings cid p sb sl cb cl v o) d
      ((d.setRing p { enabled := true, driver := o.isNone, cove := o.getD 0, sqBase := sb, sqLog := sl, cqBase := cb
                      cqLog := cl, vec := v }).complete 0 cid 0 0)) ∧
  (∀ (d : Dev) (cid p : Nat) (c : Cmd), d.cmd? 0 cid 0x0004 = some c → 1 ≤ p → p ≤ 255 → (d.ring p).enabled = true →
    Does (.deleteRings cid p) d ((d.dropRing p).complete 0 cid 0 0)) ∧
  (∀ (d : Dev) (cid dom dev hd xl xs xa n xc : Nat) (ms : List Nat) (c : Cmd), d.cmd? 0 cid 0x0010 = some c →
    d.slackNow = true → membersOk dom dev hd ms = true → exchangeOk xl xs n xc ms.length = true →
    Does (.configDomain cid dom dev hd ms xl xs xa n xc) d
      (((d.joinDomain dom dev hd ms xl xs xa n xc).complete 0 cid 0 0).resumed)) ∧
  (∀ (d : Dev) (cid : Nat) (w k s b x : Nat × Nat) (c : Cmd), d.cmd? 0 cid 0x0011 = some c → d.slackNow = true →
    d.ckp.run = none → layoutValid ⟨w.1, w.2, k.1, k.2, s.1, s.2, b.1, b.2, x.1, x.2⟩ = true →
    Does (.setLayout cid w k s b x) d
      ((d.relayout ⟨w.1, w.2, k.1, k.2, s.1, s.2, b.1, b.2, x.1, x.2⟩).complete 0 cid 0 0))

/-- The firmware's services complete: updates, dumps, logs, sensors, caps, the loops, the lease, crashes, and sequencers
launched and stopped by command (R276 to R292, R325, R327, R475, R532, R535). -/
def Obligations.FirmwareServicesComplete : Prop :=
  (∀ (d : Dev) (cid : Nat) (c : Cmd), d.cmd? 0 cid 0x0020 = some c → d.fw.update = none → d.secDown = false →
    (c.arm = true ∨ d.slackNow = true) → Does (.fwUpdate cid) d
      (let e := d.hold c
       { e with fw := { e.fw with
           update := some { cid := cid, arm := if c.arm then some c.tide else none, img := {}, stage := 0 } } })) ∧
  (∀ (d : Dev) (ok : Bool) (u : Update) (c : Cmd), d.fw.update = some u → u.stage = 0 → d.safe = false →
    d.fw.fetched.find? (fun c => c.pair == 0 && c.cid == u.cid && c.opc == 0x0020) = some c →
    Does (.fwUpdateVerified ok) d (d.takeImage u c ok)) ∧
  (∀ (d : Dev) (u : Update), d.fw.update = some u → u.stage = 2 → d.safe = false → Does .updateConfirm d
    (((({ d with fw := { d.fw with update := none } } : Dev).complete 0 u.cid 0 u.img.ver).event 0x8005 u.img.ver).inc
      (pgFWR + 0x80c))) ∧
  (∀ (d : Dev) (u : Update), d.fw.update = some u → u.stage = 2 → d.safe = false →
    Does .updateConfirmTimeout d d.rollback) ∧
  (∀ (d e : Dev) (cid : Nat) (c : Cmd) (l : List Byte) (bad : Bool), d.cmd? 0 cid 0x0021 = some c → 65536 ≤ c.buflen →
    leAt c.param 0 1 < min 8 d.fw.dumps → d.bufOk c true 65536 = true →
    d.memRead pgFWR 0x40 (dumpAddr (leAt c.param 0 1)) 65536 = (l, bad, e) → Does (.getDump cid) d
      ((e.memWrite pgFWR 0x40 c.buf l bad).complete 0 cid 0 0)) ∧
  (∀ (d : Dev) (cid base log : Nat) (c : Cmd), d.cmd? 0 cid 0x0022 = some c → 6 ≤ log → log ≤ 16 → base % 64 = 0 →
    d.inStaging base (64 * 2 ^ log) = true → Does (.logCfg cid base log) d
      (({ d with fw := { d.fw with logBase := base, logLog2 := log, logOn := true, logSeq := 0 } } : Dev).complete 0 cid 0 0)) ∧
  (∀ (d : Dev) (cid : Nat) (c : Cmd), d.cmd? 0 cid 0x0030 = some c → 600 ≤ leAt c.param 0 2 → leAt c.param 0 2 ≤ 1650 →
    Does (.powerCap cid) d (({ d with fw := { d.fw with capDrv := leAt c.param 0 2 } } : Dev).complete 0 cid 0 0)) ∧
  (∀ (d : Dev) (q : Fin 256) (cid : Nat) (m : Sample) (c : Cmd), d.cmd? q cid 0x0031 = some c →
    Does (.getSensors q cid m) d (d.answer c (d.sensorRecord m) 0)) ∧
  (∀ (d e f : Dev) (q : Fin 256) (cid : Nat) (sq : Fin 32) (c : Cmd) (l t : List Byte) (bad tbad : Bool),
    d.cmd? q cid 0x0040 = some c → d.memRead pgFWR (domOf (d.cmdCove c)) c.buf 576 = (l, bad, e) → 576 ≤ c.buflen →
    d.bufOk c false 576 = true → c.buf % 64 = 0 → (grantOf l).2 ≤ 65536 →
    e.memRead pgFWR 0x40 (grantOf l).1 (grantOf l).2 = (t, tbad, f) → d.mayLaunch c sq l t bad = true →
    launchBad l bad = none → Does (.launchSq q cid sq) d (f.launchImage q cid sq l)) ∧
  (∀ (d : Dev) (q : Fin 256) (cid : Nat) (sq : Fin 32) (c : Cmd), d.cmd? q cid 0x0041 = some c → d.cmdCove c = none →
    576 ≤ c.buflen → d.bufOk c true 576 = true → c.buf % 64 = 0 → Does (.stopSq q cid sq) d
      ((d.setCore sq { d.core sq with running := false }).answer c (stateImage { d.core sq with running := false }) 0)) ∧
  (∀ d : Dev, d.writable (pgFWR + 0x170) = true → d.expired = true →
    Does .leaseRenew d { d with fw := { d.fw with renewed := true } }) ∧
  (∀ d : Dev, d.g 0x8170 8 2 = 1 → d.fwRunning = true → d.safe = false → Does .leaseExpired d d.leaseExpire) ∧
  (∀ (d : Dev) (k : Fin 5) (old : Nat), d.fwRunning = true → d.safe = false → (k.val = 4 ∨ d.restarts k false = false) →
    d.fw.crashes.getD k 0 - old + 1 < 3 →
    Does (.watchdogExpiry k false old false) d ((d.countCrash k (d.fw.crashes.getD k 0 - old + 1)).restartCore k)) ∧
  (∀ (d : Dev) (w w1 v : Nat) (n : Fin 5), d.loops = true → Does (.powerLoopPeriod w w1 v n) d (d.powerLoop w w1 v n)) ∧
  (∀ (d : Dev) (m : Sample) (n : Fin 64), d.loops = true → Does (.thermalLoopPeriod m n) d (d.thermalLoop m n)) ∧
  (∀ (d : Dev) (w : Nat), d.fwRunning = true → d.safe = false → (d.core 33).running = false →
    11 * d.g 0x1104 0 11 < 10 * w → Does (.pwrHoldDrop w) d
      (let n := max 16 (d.g 0x1100 0 6 - 8)
       let e : Dev := { d with fw := { d.fw with pLevel := min d.fw.pLevel n } }
       (if n = d.g 0x1100 0 6 then e else e.levelTo n 256).inc 0x1808))

/-- The arithmetic and tag instructions complete on the operands their checks pass, with the result in the destination and
the flags R234 gives (R219 to R225, R234, R235, R239, R485). -/
def Obligations.ArithmeticInstructionsComplete : Prop :=
  (∀ (d : Dev) (i : Fin 37) (c : BitVec 4) (rd ra rb : BitVec 5) (fn : BitVec 7) (x : DWord) (fl : NZCV),
    let k := d.core i
    d.runs i c → aluOp (fn.toNat % 64) (k.reg ra).v (k.reg rb).v = some (x, fl) → fn.toNat % 64 ≠ 0x13 →
    (fn.toNat % 64 ∈ [0x14, 0x15] → rb = 0) → (k.reg ra).tag = tINT → (k.reg rb).tag = tINT →
    Does (.alu i c rd ra rb fn) d ((d.issuing i c).retireWith i
      ((if 64 ≤ fn.toNat then k.setFlags fl true else k).setReg rd x tINT))) ∧
  (∀ (d : Dev) (i : Fin 37) (c : BitVec 4) (ra : BitVec 5) (imm : BitVec 12), d.runs i c →
    ((d.core i).reg ra).tag = tINT → Does (.cmpi i c 0 ra imm) d ((d.issuing i c).retireWith i
      ((d.core i).setFlags (subFlags ((d.core i).reg ra).v (imm.signExtend 64)) true))) ∧
  (∀ (d : Dev) (i : Fin 37) (c : BitVec 4) (rd ra rb : BitVec 5) (fn : Fin 4),
    let k := d.core i
    let x := d64 (k.reg ra).v
    let y := d64 (k.reg rb).v
    d.runs i c → (k.reg ra).tag = tFP → (k.reg rb).tag = tFP →
    Does (.fpu i c rd ra rb (BitVec.ofNat 7 fn.val)) d ((d.issuing i c).retireWith i (k.setReg rd (e64
      (match fn with | 0 => x.add y | 1 => x.add y.neg | 2 => x.mul y | 3 => x.div y)) tFP))) ∧
  (∀ (d : Dev) (i : Fin 37) (c : BitVec 4) (rd ra : BitVec 5) (imm : BitVec 12),
    let k := d.core i
    d.runs i c → (k.reg ra).tag = tINT →
    Does (.addi i c rd ra imm) d ((d.issuing i c).retireWith i
      (k.setReg rd ((k.reg ra).v + imm.signExtend 64) tINT)) ∧
    Does (.andi i c rd ra imm) d ((d.issuing i c).retireWith i
      (k.setReg rd ((k.reg ra).v &&& imm.signExtend 64) tINT)) ∧
    Does (.ori i c rd ra imm) d ((d.issuing i c).retireWith i
      (k.setReg rd ((k.reg ra).v ||| imm.zeroExtend 64) tINT)) ∧
    Does (.xori i c rd ra imm) d ((d.issuing i c).retireWith i
      (k.setReg rd ((k.reg ra).v ^^^ imm.zeroExtend 64) tINT)) ∧
    (imm.toNat < 256 → Does (.shi i c rd ra imm) d ((d.issuing i c).retireWith i
      (k.setReg rd (shiftImm imm.toNat (k.reg ra).v) tINT)))) ∧
  (∀ (d : Dev) (i : Fin 37) (c : BitVec 4) (rd ra : BitVec 5) (imm : BitVec 12) (v : DWord),
    let k := d.core i
    d.runs i c → isAddrTag (k.reg ra).tag = true →
    withAdr (k.reg ra).tag (k.reg ra).v (adrPlus (k.reg ra).tag (k.reg ra).v (imm.signExtend 64)) = some v →
    Does (.addi i c rd ra imm) d ((d.issuing i c).retireWith i (k.setReg rd v (k.reg ra).tag))) ∧
  (∀ (d : Dev) (i : Fin 37) (c : BitVec 4) (rd : BitVec 5) (imm : BitVec 17),
    let k := d.core i
    d.runs i c →
    Does (.movi i c rd imm) d ((d.issuing i c).retireWith i (k.setReg rd (imm.signExtend 64) tINT)) ∧
    (imm.toNat < 2 ^ 16 → (k.reg rd).tag = tINT → Does (.movs i c rd imm) d ((d.issuing i c).retireWith i
      (k.setReg rd (((k.reg rd).v <<< 16) ||| imm.zeroExtend 64) tINT)))) ∧
  (∀ (d : Dev) (i : Fin 37) (c : BitVec 4) (rd ra rb : BitVec 5),
    let k := d.core i
    d.runs i c →
    Does (.tget i c rd ra) d ((d.issuing i c).retireWith i (k.setReg rd (BitVec.ofNat 64 (k.reg ra).tag) tINT)) ∧
    (rb.toNat < 16 → Does (.ttst i c ra rb) d ((d.issuing i c).retireWith i { k with t := (k.reg ra).tag == rb.toNat })) ∧
    ((k.reg ra).tag = tINT → Does (.mkt i c rd ra) d ((d.issuing i c).retireWith i (k.setReg rd (k.reg ra).v tTIDE))) ∧
    ((k.reg ra).tag ∈ [tTIDE, tHNDL, tFP] →
      Does (.tint i c rd ra) d ((d.issuing i c).retireWith i (k.setReg rd (k.reg ra).v tINT))) ∧
    ((k.reg ra).tag = tINT → layoutOk tHNDL (k.reg ra).v = true →
      Does (.mkh i c rd ra) d ((d.issuing i c).retireWith i (k.setReg rd (k.reg ra).v tHNDL))) ∧
    (isAddrTag (k.reg ra).tag = true → Does (.addr i c rd ra) d ((d.issuing i c).retireWith i
      (k.setReg rd (BitVec.ofNat 64 (adrOf (k.reg ra).tag (k.reg ra).v)) tINT))) ∧
    (isAddrTag (k.reg ra).tag = true → (k.reg rb).tag = tINT → 6 ≤ (k.reg rb).v.toNat →
      (k.reg rb).v.toNat ≤ boundS (k.reg ra).tag (k.reg ra).v → Does (.narrow i c rd ra rb) d
      ((d.issuing i c).retireWith i (k.setReg rd (BitVec.ofNat 64
        (setFieldN (k.reg ra).v.toNat (addrBits (k.reg ra).tag) 6 (k.reg rb).v.toNat)) (k.reg ra).tag))) ∧
    ((k.reg ra).tag ∈ [tDADDR, tIO] → Does (.rdonly i c rd ra) d ((d.issuing i c).retireWith i
      (k.setReg rd (BitVec.ofNat 64 (setFieldN (k.reg ra).v.toNat (addrBits (k.reg ra).tag + 6) 1 0)) (k.reg ra).tag))) ∧
    (32 ≤ i.val → tagOk rb.toNat = true → layoutOk rb.toNat (k.reg ra).v = true →
      Does (.mint i c rd ra rb) d ((d.issuing i c).retireWith i (k.setReg rd (k.reg ra).v rb.toNat)))) ∧
  (∀ (d : Dev) (i : Fin 37) (c : BitVec 4) (rd : BitVec 5), d.runs i c →
    (d.tide.hold = false → Does (.tcur i c rd) d
      ((d.issuing i c).retireWith i ((d.core i).setReg rd d.tide.cur tTIDE))) ∧
    Does (.clk i c rd) d ((d.issuing i c).retireWith i ((d.core i).setReg rd d.trclk tINT)))

/-- The loads, stores and other memory instructions complete where their checks pass and memory answers (R227 to R233). -/
def Obligations.MemoryInstructionsComplete : Prop :=
  (∀ (d e : Dev) (i : Fin 37) (c : BitVec 4) (rd ra : BitVec 5) (imm : BitVec 12) (io : Mio) (n p : Nat) (l : List Byte)
      (bad : Bool),
    let k := d.core i
    let x := d.issuing i c
    let after (signed : Bool) : Dev :=
      (e.loadInto i rd (loadVal n signed (leNat l)) (if bad then tPOISON else tINT)).retire i k.pc
    d.runs i c → x.canLoad i (k.reg ra) (imm.signExtend 64) n io p → x.coreMem i p n = (l, bad, e) →
    (n = 1 → Does (.ldb i c rd ra imm io) d (after false) ∧ Does (.ldbs i c rd ra imm io) d (after true)) ∧
    (n = 2 → Does (.ldh i c rd ra imm io) d (after false) ∧ Does (.ldhs i c rd ra imm io) d (after true)) ∧
    (n = 4 → Does (.ldw i c rd ra imm io) d (after false) ∧ Does (.ldws i c rd ra imm io) d (after true)) ∧
    (n = 8 → Does (.ldd i c rd ra imm io) d (after false))) ∧
  (∀ (d : Dev) (i : Fin 37) (c : BitVec 4) (rd ra : BitVec 5) (imm : BitVec 12) (n p : Nat),
    let k := d.core i
    let x := d.issuing i c
    let after := (x.corePut i p (leBytes (storeVal (k.reg rd)) n) ((k.reg rd).tag == tPOISON)).retire i k.pc
    d.runs i c → x.canStore i (k.reg ra) (imm.signExtend 64) n n p →
    (n = 1 → Does (.stb i c rd ra imm) d after) ∧ (n = 2 → Does (.sth i c rd ra imm) d after) ∧
    (n = 4 → Does (.stw i c rd ra imm) d after) ∧ (n = 8 → Does (.std i c rd ra imm) d after)) ∧
  (∀ (d : Dev) (i : Fin 37) (c : BitVec 4) (op : Fin 10) (rd ra : BitVec 5) (imm : BitVec 12) (p : Nat),
    let k := d.core i
    let x := (d.issuing i c).freeWord
    d.runs i c → op ≠ 9 → (op = 7 → imm.toNat % 16 = 0) → (op = 8 → 32 ≤ i.val) →
    chkAccess i (k.reg ra) (imm.signExtend 64) (loadSize op) (loadSize op) false false = .ok p →
    ((k.reg ra).tag ≠ tIO → areaOf p ≠ .pages ∧ areaOf p ≠ .check →
      Does (.loadTimeout i c op rd ra imm) d
        (((x.2.report (corePage i) none 0x0005 (domOf (k.dom i)) p i).loadInto i rd x.1 tPOISON).retire i k.pc)) ∧
    ((k.reg ra).tag = tIO → Does (.loadTimeout i c op rd ra imm) d
      ((((x.2.cmplTmo (x.2.busPort p)).report (corePage i) none 0x0005 (domOf (k.dom i)) p i).loadInto i rd x.1
        tPOISON).retire i k.pc))) ∧
  (∀ (d e : Dev) (i : Fin 37) (c : BitVec 4) (rd ra : BitVec 5) (imm : BitVec 12) (io : Mio) (p : Nat) (l : List Byte),
    let k := d.core i
    let x := d.issuing i c
    let v := BitVec.ofNat 64 (leAt l 0 8)
    let t := leAt l 8 1
    d.runs i c → x.canLoad i (k.reg ra) (imm.signExtend 64) 16 io p → x.coreMem i p 16 = (l, false, e) →
    (imm.toNat % 16 = 0 → tagOk t = true → sealField (e.keyOf i) p v t = leAt l 12 4 →
      Does (.ldc i c rd ra imm io) d ((e.loadInto i rd v t).retire i k.pc)) ∧
    (32 ≤ i.val → tagOk t = true → layoutOk t v = true →
      Does (.ldt i c rd ra ⟨imm, io⟩) d ((e.loadInto i rd v t).retire i k.pc))) ∧
  (∀ (d : Dev) (i : Fin 37) (c : BitVec 4) (rd ra : BitVec 5) (imm : BitVec 12) (p : Nat),
    let k := d.core i
    let x := d.issuing i c
    let v := k.reg rd
    d.runs i c → x.canStore i (k.reg ra) (imm.signExtend 64) 16 16 p →
    (imm.toNat % 16 = 0 → Does (.stc i c rd ra imm) d
      ((x.corePut i p (sealImage (x.keyOf i) p v) (v.tag == tPOISON)).retire i k.pc)) ∧
    (32 ≤ i.val → Does (.stt i c rd ra imm) d
      ((x.corePut i p (leBytes v.v.toNat 8 ++ [BitVec.ofNat 8 v.tag] ++ List.replicate 7 0) (v.tag == tPOISON)).retire i k.pc))) ∧
  (∀ (d e : Dev) (i : Fin 37) (c : BitVec 4) (rd ra rb : BitVec 5) (fn : BitVec 7) (io : Mio) (p : Nat) (l : List Byte)
      (bad : Bool) (new : DWord),
    let k := d.core i
    let x := d.issuing i c
    let old := BitVec.ofNat 64 (leNat l)
    let f := e.memWrite (corePage i) (domOf (k.dom i)) p (leBytes new.toNat 8) ((k.reg rb).tag == tPOISON)
    d.runs i c → fn.toNat ≤ 9 → chkAccess i (k.reg ra) 0 8 8 true true = .ok p →
    x.canLoad i (k.reg ra) 0 8 io p → x.coreMem i p 8 = (l, bad, e) →
    amoOp fn.toNat old (BitVec.ofNat 64 (storeVal (k.reg rb))) (k.reg rd).v = some new →
    Does (.amo i c rd ra rb fn io) d
      ((f.setCore i ((f.core i).setReg rd old (if bad then tPOISON else tINT))).retire i k.pc)) ∧
  (∀ (d : Dev) (i : Fin 37) (c : BitVec 4), d.runs i c → Does (.fence i c) d ((d.issuing i c).retire i (d.core i).pc)) ∧
  (∀ (d e : Dev) (i : Fin 37) (c : BitVec 4) (rd ra rb : BitVec 5) (fn : BitVec 7) (io : Mio) (p : Nat) (l : List Byte)
      (bad : Bool),
    let k := d.core i
    let x := d.issuing i c
    let v := BitVec.ofNat 64 (leNat l)
    let f := e.stallEnd i 1
    let after := (f.setCore i { (f.core i).setReg rd v (if bad then tPOISON else tINT) with
      t := !bad, z := v == (k.reg rb).v }).retire i k.pc
    d.runs i c → fn.toNat ≤ 20 → x.canLoad i (k.reg ra) 0 8 io p → x.coreMem i p 8 = (l, bad, e) →
    (k.reg rb).tag = tINT →
    (v ≠ (k.reg rb).v → Does (.waitne i c rd ra rb fn io) d after) ∧
    Does (.waitneTimeout i c rd ra rb fn io) d after) ∧
  (∀ (d e : Dev) (i : Fin 37) (c : BitVec 4) (rd ra : BitVec 5) (l : List Byte),
    let k := d.core i
    let x := d.issuing i c
    d.runs i c → (k.reg ra).tag = tINT → (k.reg ra).v.toNat < k.ngrant →
    x.blocked (k.grant + 16 * (k.reg ra).v.toNat) 16 = false →
    x.memRead (corePage i) (domOf (k.dom i)) (k.grant + 16 * (k.reg ra).v.toNat) 16 = (l, false, e) →
    bitN (leAt l 9 1) 0 = true → tagOk (leAt l 8 1) = true → Does (.ldg i c rd ra) d
      ((e.setCore i { k.setReg rd (BitVec.ofNat 64 (leAt l 0 8)) (leAt l 8 1) with t := true }).retire i k.pc))

/-- Control transfers, the tide's instructions and the system instructions complete; those whose effect is a trap take it
(R42, R43, R232, R233, R236, R240 to R242, R486). -/
def Obligations.ControlInstructionsComplete : Prop :=
  (∀ (d : Dev) (i : Fin 37) (c : BitVec 4) (imm : BitVec 22) (pc : DWord),
    let k := d.core i
    d.runs i c → pcPlus k.pc (imm.signExtend 64 <<< 2) = some pc →
    Does (.b i c imm) d ((d.issuing i c).branched i pc) ∧
    Does (.jal i c imm) d (((d.issuing i c).setCore i (k.setReg 30 (pcNext k.pc) tCODE)).branched i pc)) ∧
  (∀ (d : Dev) (i : Fin 37) (c : BitVec 4) (rd ra : BitVec 5),
    let k := d.core i
    d.runs i c → (k.reg ra).tag = tCODE → (k.reg ra).v.toNat % 4 = 0 → Does (.jr i c rd ra) d
      (((d.issuing i c).setCore i (k.setReg rd (pcNext k.pc) tCODE)).branched i (k.reg ra).v)) ∧
  (∀ (d : Dev) (i : Fin 37) (c : BitVec 4) (ra : BitVec 5),
    let k := d.core i
    let x := d.issuing i c
    d.runs i c → (k.reg ra).tag = tTIDE →
    ((k.reg ra).v ≤ d.seen → Does (.twait i c ra) d ((x.stallEnd i 0).retire i k.pc)) ∧
    Does (.twatch i c ra) d (x.retireWith i { k with watch := some (k.reg ra).v }) ∧
    ((k.reg ra).v = d.tide.cur → i.val < 32 → k.part = true → i.val ∉ d.tide.done → Does (.trep i c ra) d
      ((({ x with tide := { x.tide with done := x.tide.done ++ [i.val] } } : Dev).checkDone).retire i k.pc)) ∧
    (d.isHead = true → d.tide.cur < (k.reg ra).v → d.tide.cur.toNat / 2 ^ 24 < 0xffffffffff →
      d.tide.pending = false → Does (.tadv i c ra) d
      (({ x with tide := { x.tide with pending := true, next := (k.reg ra).v } } : Dev).retire i k.pc))) ∧
  (∀ (d : Dev) (i : Fin 37) (c : BitVec 4) (imm : BitVec 12),
    let k := d.core i
    d.runs i c →
    (let t := (d.issuing i c).trapped i k.pc (encI c.toNat 0x20 0 0 imm.toNat) 0x0c (imm.zeroExtend 64)
     Does (.sys i c imm) d (t.serveSys i) ∧ (32 ≤ i.val → Does (.sys i c imm) d t) ∧
     (i.val < 32 → t.fwRunning = true → t.safe = false → (t.core i).sysWait = true → (t.core i).cause = 0x0c →
      (t.core i).running = false → (t.core i).fault.toNat ∉ [0x001, 0x010] → Does (.sys i c imm) d
        (t.setCore i { (t.core i).setReg 1 (BitVec.ofNat 64 (2 ^ 64 - 1)) tINT with
          running := true, cause := 0, sysWait := false, pc := pcNext (t.core i).pc }))) ∧
    Does (.brk i c) d ((d.issuing i c).trapped i k.pc (encI c.toNat 0x22 0 0 0) 0x0d 0)) ∧
  (∀ (d : Dev) (i : Fin 37) (c : BitVec 4) (ra : BitVec 5) (imm : BitVec 12),
    let k := d.core i
    let x := (d.issuing i c).coreRec i 5 (imm.toNat + (k.reg ra).tag * 4096) (k.reg ra).v.toNat
    d.runs i c → Does (.trcp i c ra imm) d
      ((x.triggerAll 1 fun b => (d.issuing i c).tbNames b i && (d.issuing i c).g (tbReg b 0x12c) 0 12 == imm.toNat).retire i
        k.pc)) ∧
  (∀ (d : Dev) (i : Fin 37) (c : BitVec 4) (r : BitVec 5) (n : BitVec 12),
    let k := d.core i
    let x := d.issuing i c
    d.runs i c → 32 ≤ i.val → n.toNat ≤ 5 →
    (n.toNat ≠ 1 → n.toNat ≠ 5 → Does (.csrr i c r n) d (x.retireWith i (k.setReg r (k.cr.getD n.toNat 0) tINT))) ∧
    ((k.reg r).tag = (if n.toNat = 1 ∨ n.toNat = 5 then tCODE else tINT) → Does (.csrw i c r n) d
      (x.retireWith i { k with cr := k.cr.set n.toNat (if n.toNat = 0 then (k.reg r).v &&& 1 else (k.reg r).v) })) ∧
    Does (.eret i c) d
      ((x.setCore i { k with cr := k.cr.set 0 (k.cr.getD 0 0 &&& ~~~1) }).branched i (k.cr.getD 1 0))) ∧
  (∀ (d : Dev) (i : Fin 37) (w : BitVec 32),
    let c := BitVec.ofNat 4 (fieldN w.toNat 28 4)
    d.runs i c → reservedWord w.toNat = true → privOp w.toNat = false →
    Does (.reservedOpcode i w) d ((d.issuing i c).trapped i (d.core i).pc w.toNat 6 0)) ∧
  (∀ (d : Dev) (i : Fin 37),
    let a := adrOf 7 (d.core i).pc
    d.runs i 0 → (coreMay i false false a 4 = false ∨ areaOf a = .pages ∨ areaOf a = .check) →
    Does (.instructionFetchFault i) d ((d.issuing i 0).trapped i (d.core i).pc 0 0x0e (BitVec.ofNat 64 a)))

/-- The instructions that enter work in the engines' queues complete, with the result 0 and Z where the queue takes it, and
so do those by which service cores start, stop and read sequencers (R237 to R239, R243, R244). -/
def Obligations.IssueInstructionsComplete : Prop :=
  (∀ (d : Dev) (i : Fin 37) (c : BitVec 4) (rd ra rb : BitVec 5) (p : Nat),
    let k := d.core i
    let x := d.issuing i c
    d.runs i c → d.tide.hold = false → chkDesc i (k.reg ra) 64 64 = .ok p → x.blocked p 64 = false →
    (i.val < 32 → x.jobFull (i / 2) (k.dom i) = false →
      Does (.job i c rd ra) d
        (((x.addJob i k p [0x01, 0x03, 0x04, 0x20, 0x21, 0x22, 0x23]).issueResult i rd 0 p true).retire i k.pc) ∧
      Does (.gate i c rd ra) d (((x.addJob i k p [0x02]).issueResult i rd 1 p true).retire i k.pc)) ∧
    (x.xch.queue.length < 256 → x.coveHalted (k.dom i) = false → x.b (pgEMH + 8) 0 = true →
      Does (.disp i c rd ra) d (((x.addJobX i k p).issueResult i rd 2 p true).retire i k.pc)) ∧
    (∀ (n : Nat) (answered : Bool), (k.reg rb).tag = tHNDL → fieldN (k.reg rb).v.toNat 0 8 = 1 →
      fieldN (k.reg rb).v.toNat 16 16 = n → n ≤ 63 → x.engOwner n = k.dom i → x.locked (pgEng n) = false →
      x.b (pgEng n + 8) 0 = true → x.coveHalted (k.dom i) = false →
      Does (.dmak i c rd rb ra answered) d (((x.postImage i n p answered).issueResult i rd 3 p true).retire i k.pc))) ∧
  (∀ (d : Dev) (i : Fin 37) (c : BitVec 4) (ra : BitVec 5) (p : Nat),
    d.runs i c → d.tide.hold = false → chkDesc i ((d.core i).reg ra) 16 16 = .ok p →
    (d.issuing i c).blocked p 16 = false →
    Does (.note i c ra) d (((d.issuing i c).postNote i p).retire i (d.core i).pc)) ∧
  (∀ (d : Dev) (i : Fin 37) (c : BitVec 4) (ra rb : BitVec 5) (q : Nat),
    let k := d.core i
    let x := d.issuing i c
    let x0 := x.setCore q { d.core q with running := false }
    d.runs i c → 32 ≤ i.val → (k.reg ra).tag = tINT → (k.reg ra).v.toNat = q → q ≤ 31 →
    Does (.sqctlStop i c ra) d (x0.retire i k.pc) ∧
    Does (.sqctlResume i c ra) d ((x.resumeCore q).retire i k.pc) ∧
    (∀ p, (d.core q).running = false → (k.reg rb).tag = tDADDR → x.canStore i (k.reg rb) 0 576 64 p →
      Does (.sqctlState i c ra rb) d ((x.corePut i p (stateImage (d.core q)) false).retire i k.pc)) ∧
    (∀ (p : Nat) (img : List Byte) (x1 : Dev), chkDesc i (k.reg rb) 576 64 = .ok p → x.blocked p 576 = false →
      x0.memRead (corePage i) 0x40 p 576 = (img, false, x1) → launchBad img false = none →
      Does (.launch i c ra rb true) d (((x1.launch q img).coveWorks (some (leAt img 524 1 % 64))).retire i k.pc)))

/-- Requests of the host and of accelerators are served, or wait at their port while a boundary holds, resets and enables of PF0 and of the AP bridges take effect, and links
come up, idle and go down (R295 to R317, R538). -/
def Obligations.PortCommandsComplete : Prop :=
  (∀ (d : Dev) (bar2 wr : Bool) (off size : Nat) (data : List Byte), d.linkUp 8 = true → d.port.waitReq = [] →
    (d.tide.hold = true → Does (.bar0Request bar2 wr off size data) d
      { d with port := { d.port with waitReq := [.bar0 bar2 wr off size data] } }) ∧
    (d.tide.hold = false → d.port.flr = false → d.port.mse = true → off + size ≤ (if bar2 then 2 ^ 26 else 2 ^ 24) →
      (size = 4 ∨ size = 8) → off % size = 0 → (bar2 = false ∨ d.safe = false) →
      Does (.bar0Request bar2 wr off size data) d ((d.wake 8).barServe bar2 wr off size data))) ∧
  (∀ (d : Dev) (wr : Bool) (off size : Nat) (data : List Byte) (poison : Bool), d.linkUp 8 = true → d.port.waitReq = [] →
    d.tide.hold = false → d.blocked (d.bar4Addr off) size = false → d.port.flr = false → d.port.mse = true →
    let e := if wr && poison then (d.wake 8).poisonRx 8 else d.wake 8
    let a := e.bar4Addr off
    e.safe = false → e.filled = true → off + size ≤ 2 ^ e.port.b4Log → inUserMem a size = true →
    Does (.bar4Request wr off size data poison) d (e.memServe 0x40 8 wr a size data poison)) ∧
  (∀ (d : Dev) (wr : Bool) (c : CfgReq), d.linkUp 8 = true →
    Does (.pf0UnsupportedRequest wr .vdm1) d (d.wake 8) ∧
    Does (.pf0UnsupportedRequest wr .miss) d ((d.wake 8).unsupported 8 wr) ∧
    (∀ r ∈ [PfReq.io, .locked, .atomic], Does (.pf0UnsupportedRequest wr r) d ((d.wake 8).unsupported 8 false)) ∧
    Does (.pf0UnsupportedRequest wr (.cfg c)) d ((d.wake 8).cfgReq c)) ∧
  (∀ (d : Dev) (k : Fin 8) (wr : Bool) (addr size : Nat) (data : List Byte) (attr : ReqAttr),
    let e := if wr && attr.poison then (d.wake k).poisonRx k else d.wake k
    d.linkUp k = true → d.port.waitReq = [] → d.mustWait (.acc k wr addr size data attr) = false →
    d.b (pgAP k + 8) 0 = true →
    (e.hits k wr addr = [] →
      Does (.acceleratorRequest k wr addr size data attr) d (e.unclaimed k wr addr size data attr)) ∧
    (∀ (n a : Nat) (x : Bool), e.hits k wr addr = [n] →
      let f := e.inc (pgWIN + (if wr then 0x800 else 0x804) + 8 * k)
      f.safe = false → f.b (pgWIN + 8) 2 = false → (wr = false ∨ f.slack.cut = false) →
      f.winTarget n wr addr size = (some a, x) → (areaOf a ≠ .device ∨ f.filled = true) →
      Does (.acceleratorRequest k wr addr size data attr) d
        (f.memServe (if bitN (f.rdA (winReg n 0)).toNat 30 then fieldN (f.rdA (winReg n 0)).toNat 24 6 else 0x40) k wr a
          size data attr.poison))) ∧
  (∀ (d : Dev) (mse : Bool), d.linkUp 8 = true → d.port.retry = false →
    Does .flrComplete d { d with port := { d.port with flr := false } } ∧
    (∀ (k : Fin 8) (bme : Bool) (win : Nat × Nat) (acs : Nat), Does (.apBusMasterWrite k bme win acs) d
      { d with port := { d.port with
          apBme := d.port.apBme.set k bme, apWin := d.port.apWin.set k win, acs := d.port.acs.set k (acs % 32) } }) ∧
    (d.port.flr = false →
      let e : Dev := { d with port := { d.port with bme := false, mse := mse } }
      let f := d.pfReset.inc (pgHEP + 0x814)
      Does .functionLevelReset d { f with port := { f.port with flr := true } } ∧
      Does (.busMasterClear mse) d (if d.port.bme then e.dmaBmeClear else e) ∧
      Does (.busMasterSet mse) d ({ d with port := { d.port with bme := true, mse := mse } } : Dev).msixFlush) ∧
    (∀ log : Nat, d.port.flr = false → d.port.mse = false → 30 ≤ log → log ≤ 41 →
      Does (.bar4Resize log) d { d with port := { d.port with b4Log := log } })) ∧
  (∀ d : Dev, (d.linkUp 8 = true → Does .hepLinkDown d (d.freeBit.2.hepDown d.freeBit.1)) ∧
    ∀ k : Fin 8, Does (.apLinkDown k) d (d.apDown k)) ∧
  (∀ (d : Dev) (speed width mrrs mps : Nat) (flit : Bool) (aspm : Bool × Bool × Bool) (host : HostSet),
    d.pwr.started = true →
    (linkTrains 16 speed width = true → d.linkUp 8 = false →
      let e := (d.setLink 8 true (linkWord speed width flit)).sb 0x2100 8 true
      Does (.hepLinkUp speed width flit mrrs mps host) d
        { e with port := { e.port with
            mrrs := min 4096 (max 128 mrrs), mps := min 512 (max 128 mps), aspm := e.port.aspm.set 0 host.aspm
            rrsVis := host.rrs } }) ∧
    (∀ k : Fin 8, linkTrains 8 speed width = true → d.port.retry = false → d.linkUp k = false →
      d.b (pgAP k + 8) 0 = true →
      let e := ((d.setLink k true (linkWord speed width flit)).sb 0x2100 8 true).slotEvent k false
      Does (.apLinkUp k speed width flit aspm) d { e with port := { e.port with aspm := e.port.aspm.set (k + 1) aspm } })) ∧
  (∀ (d : Dev) (p : Fin 9) (sub : Fin 3),
    let w := d.port.lnk.getD (linkIdx p) 0
    let a := d.port.aspm.getD (linkIdx p) (false, false, false)
    d.linkUp p = true → a.1 = true →
    (sub.val = 0 ∧ a.2.1 = false ∧ a.2.2 = false ∨ sub.val = 1 ∧ a.2.1 = true ∨ sub.val = 2 ∧ a.2.2 = true) →
    fieldN w 10 2 = 0 →
    Does (.linkL1Idle p sub) d ((d.setLink p true (setFieldN w 10 2 (sub + 1))).inc (pgPort p + 0x810))) ∧
  (∀ d : Dev, d.pwr.started = true →
    (d.b 0x2100 9 = true → Does (.referenceClockLoss true) d d.nrefLost) ∧
    (d.b 0x2100 8 = true → Does (.referenceClockLoss false) d d.prefLost))

/-- Power, start-up, sideband, thermal, clock and management commands complete (R214, R453, R454, R460, R470, R471, R515 to
R518, R524 to R529, R531, R535, R538). -/
def Obligations.PowerAndManagementComplete : Prop :=
  (∀ (d : Dev) (soon cool : Bool), d.pwr.pwren = false → d.pwr.aon = true →
    let e : Dev := { d with pwr := { d.pwr with pwren := true, holdoff := soon } }
    Does (.sbPwrenAssert soon cool) d (if soon then e else e.powerUp true cool)) ∧
  (∀ (d : Dev) (cool : Bool), d.pwr.pwren = true →
    (d.pwr.holdoff = true → Does (.sbPwrenHoldoffEnd cool) d
      (({ d with pwr := { d.pwr with holdoff := false } } : Dev).powerUp false cool)) ∧
    Does .sbPwrenDeassert d ({ d with pwr := { d.pwr with pwren := false, holdoff := false } } : Dev).railsOff) ∧
  (∀ (d : Dev) (ok : Bool),
    (d.pwr.main = true → d.b 0x1100 16 = false →
      Does (.railsInRegulation ok) d ((d.sb 0x1100 16 true).tryStart 1 ok)) ∧
    (d.pwr.rst = false → Does .sbRstAssert d ({ d with pwr := { d.pwr with rst := true } } : Dev).coreReset) ∧
    (d.pwr.rst = true →
      Does (.sbRstDeassert ok) d (({ d with pwr := { d.pwr with rst := false } } : Dev).tryStart 1 ok)) ∧
    (d.b 0x1100 16 = true → d.pwr.rst = false → Does (.hepFundamentalReset ok) d (d.coreReset.tryStart 2 ok))) ∧
  (∀ d : Dev,
    (d.pwr.started = true → d.pwr.warming = false → d.loadState = 0 → d.safe = false → Does .zeroFillDone d d.zeroFilled) ∧
    (d.pwr.warming = true →
      Does .warmExitDone d ({ d with pwr := { d.pwr with warming := false } } : Dev).sitesReady.planned) ∧
    (d.writable 0x5108 = true → d.warmOk = true → Does (.safeCtlWrite 0x1a5) d d.warmExit) ∧
    (let e := ({ d with pwr := { d.pwr with estop := true } } : Dev).sb 0x5104 2 true
     d.pwr.estop = false → d.pwr.started = true → e.loadState ≠ 0 →
     Does .sbEstopAssert d (e.report pgERR none 0x0026 0x41 0 0)) ∧
    Does .sbEstopDeassert d (({ d with pwr := { d.pwr with estop := false } } : Dev).sb 0x5104 2 false)) ∧
  (∀ (d : Dev) (mv : Nat) (cool : Bool),
    (d.pwr.main = true → d.pwr.started = true → 80000 < mv → mv ≤ 82000 → Does (.vinRangeWarn mv) d (d.vinWarned mv)) ∧
    (d.pwr.aon = true → 82000 < mv → Does (.vinFault mv) d
      (({ d with pwr := { d.pwr with
          vinOk := false, vinUp := decide (58000 < mv)
          aon := decide (36000 ≤ mv) && decide (mv ≤ 100000) } } : Dev).powerFault 2 0)) ∧
    (36000 ≤ mv → mv ≤ 100000 → d.pwr.holdoff = false → Does (.vinRestored mv cool) d
      (({ d with pwr := { d.pwr with
          aon := true, vinUp := d.pwr.vinUp || decide (58000 < mv)
          vinOk := decide (60000 ≤ mv) && decide (mv ≤ 80000) } } : Dev).powerUp false cool))) ∧
  (∀ (d : Dev) (rail : Fin 10) (ovr : Bool), d.pwr.main = true →
    Does (.railFault rail ovr) d (d.powerFault (if ovr then 4 else 3) rail) ∧
    (d.pwr.started = true →
      Does (.senseOpen rail) d ((d.sb 0x1114 rail true).report pgPWR (some 1) 0x0032 0x41 rail 0))) ∧
  (∀ d : Dev, (d.pwr.aon = true → Does (.faultValidClear true) d (d.sb 0x1110 31 false)) ∧
    (d.writable 0x1110 = true → Does (.faultValidClear false) d (d.sb 0x1110 31 false))) ∧
  (∀ (d : Dev) (m : Sample) (n : Nat),
    (d.pwr.main = true → (d.heat m).b 0x1100 17 = false → tempAbove m 999 999 1149 = true →
      Does (.temperatureWarning m) d ((((d.heat m).sb 0x1100 17 true).setErr pgPWR 2).inc 0x180c)) ∧
    (d.pwr.started = true → tempAbove m 1099 1049 1249 = true →
      Does (.thermalTrip n m) d (d.report pgPWR (some 3) 0x0027 0x41 n 0)) ∧
    (d.pwr.main = true → tempAbove m 1199 1149 1349 = true → Does (.criticalTemperature m) d (d.powerFault 5 0))) ∧
  (∀ (d : Dev) (p : Fin 8), d.pwr.started = true → d.b 0x2100 p = true →
    Does (.pllUnlock p) d
      (if p.val < 6 then (d.sb 0x2100 p false).report pgCLK (some 2) 0x0034 0x41 p 0
       else (d.sb 0x2100 p false).setErr pgCLK 2)) ∧
  (∀ (d : Dev) (data : List Byte) (code addr : Nat), d.pwr.aon = true →
    Does (.mctpControlMessage 1 data) d
      (({ d with pwr := { d.pwr with eid := (data.getD 1 0).toNat } } : Dev).mctp 1 0
        [0, BitVec.ofNat 8 (data.getD 1 0).toNat, 0]) ∧
    Does (.mctpControlMessage 2 data) d (d.mctp 2 0 [BitVec.ofNat 8 d.pwr.eid, 0, 0]) ∧
    Does (.smbusArp 4 addr) d
      (({ d with pwr := { d.pwr with smbAddr := addr % 128, arped := true } } : Dev).emit (.smbus 4 [])) ∧
    Does (.mctpUnsupportedMessage true 0) d (d.mctp 0 5 []) ∧
    (7 < code → Does (.mctpUnsupportedMessage true code) d (d.mctp code 5 [])) ∧
    Does .mctpGetStatus d (d.mctp 1 0 (leBytes d.devState 4 ++ leBytes (d.rd 0x8110).toNat 4 ++
      leBytes (d.rd 0x1110).toNat 4 ++ leBytes d.safeSts 4))) ∧
  (∀ (d : Dev) (m : Sample) (n : Nat), d.pwr.main = true → (d.fwRunning = true ∨ d.safe = true) →
    Does (.mctpGetSensors m) d (d.mctp 2 0 (d.sensorRecord m)) ∧
    ((n = 0 ∨ (600 ≤ n ∧ n ≤ 1650)) → Does (.setCap n) d
      ((({ d with fw := { d.fw with capBmc := n } } : Dev).s 0x1104 16 11 n).mctp 3 0 [])) ∧
    (n < 256 → Does (.getErrors n) d (d.mctp 4 0 (d.err.recs.get (fun _ => {}) n).bytes))) ∧
  (∀ (d : Dev) (n : Nat) (l data : List Byte) (slot svn revoke : Nat), d.loadState = 5 → d.g 0x8110 8 8 = 7 →
    let x : NorExt := { slot := slot, svn := svn, digest := shakeN (l.take n), revoke := revoke }
    let e : Dev := { d with sec := { d.sec with nor := none } }
    Does (.norBegin n) d (({ d with sec := { d.sec with nor := some (n, []) } } : Dev).mctp 5 0 []) ∧
    (d.sec.nor = some (n, l) → l.length < n → data.length = 64 →
      Does (.norData data) d (({ d with sec := { d.sec with nor := some (n, l ++ data) } } : Dev).mctp 6 0 [])) ∧
    (d.sec.nor = some (n, l) → n ≤ l.length → d.extOk x true = true → Does (.norEnd slot svn revoke true) d
      ((({ e with sec := { e.sec with ext := x } } : Dev).mctp 7 0 []).coreReset.tryStart 1 true)))

/-- Memory, trace, dump and attestation commands complete (R30, R189, R206 to R217, R464, R473, R476 to R479, R489, R491, R493
to R497). -/
def Obligations.MemoryTraceAndAttestationComplete : Prop :=
  (∀ (d e : Dev) (n : Fin 16) (links : Nat) (ecc : Fin 4),
    let o := 256 * d.scrub.getD n 0
    let a := addrOfSite d.fw.layout n o
    d.siteReady n = true → d.safe = false → d.b (mpdOf n + 0x104) 0 = true → d.starts (mpdOf n) = true →
    d.b (siteSts n) (16 + channelOf o) = false → d.tide.hold = false →
    (ecc ≠ 3 → d.linkErrors a links = (true, e) → Does (.scrubStep n links ecc) d (e.scrubRead n ecc o a)) ∧
    Does (.scrubStep n links 3) d (d.engineFail (n / 4))) ∧
  (∀ (d : Dev) (n c : Fin 16), d.b (siteSts n) (16 + c) = true →
    (let e := d.sb (siteSts n) (16 + c) false
     Does (.channelRetrainDone n c) d
       (({ e with retrained := e.retrained.filter (· ≠ (n.val, c.val)) } : Dev).report (mpdOf n) none 0x0004 0x41 3 0)) ∧
    (let e := (d.setErr (mpdOf n) 3).lastErrAt n c 4 0
     (e.retrained.contains (n.val, c.val) = true → Does (.retrainTimeout n c) d (e.siteFail n)) ∧
     (e.retrained.contains (n.val, c.val) = false → Does (.retrainTimeout n c) d
       (({ e with retrained := e.retrained ++ [(n.val, c.val)] } : Dev).inc (siteCnt n 0x18))))) ∧
  (∀ (d : Dev) (n : Fin 16) (hot : Bool), d.siteReady n = true →
    Does (.siteStopsAnswering n) d (d.siteFail n) ∧ Does (.siteTemperatureChange n hot) d (d.sb (siteSts n) 2 hot)) ∧
  (∀ (d : Dev) (m : Fin 4) (v : Word),
    (d.writable (pgMPD m + 0x100) = true → Does (.binReqWrite m v) d (d.binReq m v.toNat)) ∧
    (d.writable (pgMPD m + 0x128) = true → Does (.errInjArm m v) d (d.injWrite m v.toNat))) ∧
  (∀ (d : Dev) (failed : List Nat),
    let pend := (List.range 4).filter fun m => d.b (pgMPD m + 0x100) 6
    d.fwRunning = true → d.safe = false → d.slackNow = true → pend ≠ [] → Does (.binChange failed []) d
      ((d.each pend fun m x => x.binChange m (failed.contains m)).sb 0x5128 13 false)) ∧
  (∀ (d : Dev) (link n : Nat), d.pwr.started = true → 0 < n → Does (.dieLinkRetry link n false) d
    (({ d with dieRetries := (link, d.dieRetries.get (fun _ => 0) link + n) :: d.dieRetries.filter (·.1 ≠ link) } :
      Dev).report pgCNT none 0x0004 0x41 n 0)) ∧
  (∀ (d : Dev) (mpd : Option (Fin 4)) (w m : Nat), d.fwRunning = true → d.safe = false → (d.core 33).running = true →
    d.g 0x5128 8 4 < 8 →
    Does (.marginPlanPeriod true mpd w m) d (d.s 0x5128 8 4 (d.g 0x5128 8 4 + 1)).replanned) ∧
  (∀ (d : Dev) (v : Word),
    (d.writable (pgTRC + 0x114) = true →
      Does (.tbCtlEnWrite v) d (d.tbCtlWrite (d.g (pgTRC + 0x110) 0 3) v.toNat) ∧
      Does .tbSwtrig d (d.trigger (d.g (pgTRC + 0x110) 0 3) 5 0)) ∧
    (d.writable (pgTRC + 0x144) = true → Does (.dmpTailWrite v) d (d.dmpTail v.toNat))) ∧
  (∀ (d : Dev) (cid : Nat) (c : Cmd), d.cmd? 0 cid 0x0500 = some c →
    let a := leAt c.param 8 8
    let n := leAt c.param 16 4
    leAt c.param 2 1 = 255 → 256 ≤ n → n ≤ 2 ^ 26 → (inUserMem a n = true ∨ inHarbour a n = true) →
    Does (.dumpDefine cid) d
      ((d.defTensor (leAt c.param 0 2) { cove := none, addr := a, len := n, fmt := leAt c.param 3 1 }).complete 0 cid 0 0)) ∧
  (∀ (d : Dev) (cid : Nat) (c : Cmd) (x : Tensor), d.cmd? 0 cid 0x0501 = some c → c.arm = true → leAt c.param 4 2 ≠ 0 →
    d.tensor? (leAt c.param 0 2) = some x → d.armRefused x = false → Does (.dumpArm cid) d
      ((d.hold c).armDump { tensor := leAt c.param 0 2, cid := some cid, tide := c.tide, every := leAt c.param 2 2,
                            count := leAt c.param 4 2 })) ∧
  (∀ (d : Dev) (cid : Nat) (c : Cmd), d.cmd? 0 cid 0x0502 = some c → Does (.dumpCancel cid) d
    ((d.dropArms fun a => a.tensor == leAt c.param 0 2).complete 0 cid 0 0)) ∧
  (∀ (d : Dev) (cid : Nat) (c : Cmd), d.cmd? 0 cid 0x0503 = some c →
    let hb := leAt c.param 0 8
    let h := leAt c.param 8 1
    let sb := leAt c.param 16 8
    let sl := leAt c.param 24 1
    let n := leAt c.param 26 2
    d.trc.arms = [] → d.trc.copies = [] → 6 ≤ h → h ≤ 16 → 12 ≤ sl → sl ≤ 26 → 0 < n → n ≤ 4096 → n ≤ 2 ^ h →
    hb % 256 = 0 → sb % 256 = 0 → d.placed hb (64 * 2 ^ h) = true → d.placed sb (n * 2 ^ sl) = true →
    Does (.dumpRing cid) d
      ((({ d with trc := { d.trc with
          ring := some (hb, h, sb, sl, n), phase := true, nextHdr := 0, nextSlot := 0, taken := [] } } : Dev).wr
        (pgTRC + 0x144) 0).complete 0 cid 0 0)) ∧
  (∀ (d : Dev) (k hb h sb sl n : Nat) (c : DumpCopy), d.trc.copies[k]? = some c → d.trc.ring = some (hb, h, sb, sl, n) →
    d.safe = false → Does (.dumpCopyDone k) d
      (({ d with trc := { d.trc with copies := d.trc.copies.eraseIdx k } } : Dev).dumpDone c (sb + c.slot * 2 ^ sl))) ∧
  (∀ (d : Dev) (q : Fin 256) (cid : Nat) (c : Cmd), d.cmd? q cid 0x0400 = some c → d.secDown = false →
    d.reportTurn c = true → d.cmdCove c = none → 10149 ≤ c.buflen → d.bufOk c true 10149 = true →
    leAt c.param 32 1 = 255 → d.sec.leaf < 2 ^ 40 → d.sec.leaf < d.sec.resvEnd →
    Does (.attReport q cid true) d (d.sampleReport q cid 255 c)) ∧
  (∀ (d : Dev) (q cid buf leaf : Nat) (l : List Byte) (r : List (Nat × Nat × Nat × List Byte × Nat)) (c : Cmd),
    d.sec.reports = (q, cid, buf, l, leaf) :: r → d.safe = false →
    (d.fw.fetched.find? fun x => x.pair == q && x.cid == cid && x.opc == 0x0400) = some c → Does .attReportSigned d
      (({ d with sec := { d.sec with reports := r } } : Dev).signReport q cid buf leaf l c)) ∧
  (∀ (d : Dev) (q : Fin 256) (cid : Nat) (c : Cmd), d.cmd? q cid 0x0401 = some c → d.secDown = false →
    Does (.attGetCert q cid) d
      (d.answer c (leBytes 0x4b434552 4 ++ leBytes 1 4 ++ d.serial ++ padTo 9993 Config.certificate) 0)) ∧
  (∀ (d : Dev) (cid : Nat) (c : Cmd), d.cmd? 0 cid 0x0402 = some c → d.secDown = false → d.sec.meas = none →
    leAt c.param 0 8 % 65536 = 0 → leAt c.param 0 8 ≤ d.fw.layout.wSize / 16 → 32 ≤ c.buflen → d.bufOk c true 32 = true →
    Does (.attMeasureWeights cid) d
      (({ d.hold c with sec := { d.sec with meas := some (cid, leAt c.param 0 8, false) } } : Dev).sb (pgSEC + 0x118) 0 true)) ∧
  (∀ (d e : Dev) (cid len w : Nat), d.sec.meas = some (cid, len, false) → d.safe = false →
    (({ d with sec := { d.sec with meas := none } } : Dev).sb (pgSEC + 0x118) 0 false).weightHash len = (w, false, e) →
    Does .weightMeasureDone d (e.weightsMeasured cid len w)) ∧
  (∀ (d : Dev) (cid : Nat) (c : Cmd), d.cmd? 0 cid 0x0403 = some c → d.secDown = false → d.fw.update = none →
    Does (.attSvnCommit cid true) d (d.svnCommit cid (leAt c.param 0 1 = 1)))

/-- Global stop, exclusion and inclusion of members, the buddy ring and the records of errors: the commands and messages
complete (R431 to R434, R448, R455 to R459, R462, R463, R467). -/
def Obligations.RecoveryCommandsComplete : Prop :=
  (∀ (d : Dev) (cid : Nat) (c : Cmd), d.isHead = true →
    (d.cmd? 0 cid 0x0300 = some c → c.arm = true → d.stopActive = false → Does (.gstop cid) d (d.gstop cid c)) ∧
    (d.cmd? 0 cid 0x0301 = some c → d.err.gstopCid = none → d.g 0x5120 0 2 = 3 → d.slack.cut = true →
      Does (.gstopRelease cid) d
        ((d.each d.workers fun w x => x.sendCtl w { ctype := 12, tide := x.tide.cur }).uncut.complete 0 cid 0 0)) ∧
    (d.cmd? 0 cid 0x0302 = some c → leAt c.param 0 2 ∈ d.workers →
      Does (.memberExclude cid) d (d.exclude cid (leAt c.param 0 2) c)) ∧
    (d.cmd? 0 cid 0x0303 = some c → c.arm = true → leAt c.param 0 2 ∈ d.tide.excluded →
      (d.tide.including.any fun x => x.1 == leAt c.param 0 2) = false →
      Does (.memberInclude cid) d (d.incl cid (leAt c.param 0 2) c)) ∧
    (∀ (l : List Byte) (e : Dev), d.cmd? 0 cid 0x0013 = some c → (c.arm = true ∨ d.slackNow = true) → c.buflen % 8 = 0 →
      d.ckp.newRing = none → d.bufOk c false c.buflen = true → d.memRead pgFWR 0x40 c.buf c.buflen = (l, false, e) →
      ringBad (ringEntries l c.buflen) = false → e.offerOk (ringOffer (ringEntries l c.buflen) e.tide.dev) = true →
      Does (.buddyRing cid) d (e.offerRing cid c (ringEntries l c.buflen)))) ∧
  (∀ (d : Dev) (t : DWord) (dev : Nat),
    let h := d.tide.headDev
    d.emhOn = true → d.fwRunning = true → d.isWorker = true →
    (let x := d.taking h { ctype := 9, tide := t }
     Does (.gstopArmMsg h t) d ((x.armStop t).sendCtl h { ctype := 10, dev := d.tide.dev, tide := t })) ∧
    (let x := d.taking h { ctype := 12, tide := t }
     d.slack.cut = true → Does (.gstopReleaseMsg h t) d x.uncut) ∧
    (let x := d.taking h { ctype := 13, dev := dev, tide := t }
     Does (.memberExcludeMsg h dev t) d
      ((if d.tide.cur < t then { x with tide := { x.tide with excluding := x.tide.excluding ++ [(dev, t)] } }
        else if dev = d.tide.dev then x.dropAssignment else x.excludePeer dev).sendCtl h { ctype := 15, dev := d.tide.dev, arg := 13, tide := t })) ∧
    (let x := d.taking h { ctype := 14, dev := dev, tide := t }
     (dev ≠ d.tide.dev ∨ d.slackNow = true) → Does (.memberIncludeMsg h dev t) d
      (({ x with tide := { x.tide with including := x.tide.including ++ [(dev, t)] } } : Dev).sendCtl h
        { ctype := 15, dev := d.tide.dev, arg := 14, tide := t })) ∧
    (∀ m : Ctl, m.ctype = 5 → d.offerOk m = true → Does (.buddyOfferMsg h m) d
      (((d.taking h m).takeOffer m).sendCtl h { ctype := 6, dev := d.tide.dev, refuse := false })) ∧
    (∀ m : Ctl, d.ckp.offer = some m → t ≠ 0 →
      let x := d.taking h { ctype := 7, tide := t }
      Does (.buddyArmMsg h t) d
        (({ x with ckp := { x.ckp with offerAt := some t } } : Dev).sendCtl h { ctype := 8, dev := d.tide.dev, tide := t }))) ∧
  (∀ (d : Dev) (src arg : Nat) (t : DWord) (o : CtlOp), d.emhOn = true → d.fwRunning = true → d.isHead = true →
    Does (.gstopAckMsg src t) d
      ((d.taking src { ctype := 10, dev := src, tide := t }).answered src fun o => o.req == 9 && o.tide == t) ∧
    (∀ inexact : Bool, src ∈ d.err.cutWait → d.err.gstopTide = some t →
      let x := d.taking src { ctype := 11, inexact := inexact, dev := src, tide := t }
      Does (.cutReportMsg src inexact t) d
        ({ x with err := { x.err with
            cutWait := x.err.cutWait.erase src, cutInexact := x.err.cutInexact || inexact } } : Dev).gstopCheck) ∧
    Does (.memberAckMsg src arg t) d
      (((d.taking src { ctype := 15, dev := src, arg := arg, tide := t }).answered src fun o =>
        o.req == arg && [13, 14].contains o.req && o.tide == t).opsDone) ∧
    ((d.tide.ctlOps.find? fun o => o.req == 5 && o.waiting.contains src) = some o →
      (o.waiting = [src] → Does (.buddyReplyMsg src false) d
        (((d.taking src { ctype := 6, dev := src, refuse := false }).answered src fun x => x.req == 5).ringArm)) ∧
      Does (.buddyReplyMsg src true) d ((d.taking src { ctype := 6, dev := src, refuse := true }).ringRefused o.cid src)) ∧
    ((d.tide.ctlOps.find? fun o => o.req == 7 && o.tide == t && o.waiting.contains src) = some o → o.waiting = [src] →
      d.ckp.offerAt = none → Does (.buddyAckMsg src t) d
        (((d.taking src { ctype := 8, dev := src, tide := t }).answered src fun x => x.req == 7 && x.tide == t).ringDone
          o.cid))) ∧
  (∀ d : Dev, d.g 0x5120 0 2 = 2 → d.fwRunning = true → d.safe = false →
    (d.reqsOpen = false → d.rxOpen = false → d.dmaOpen = false → Does .ebbComplete d d.cut) ∧
    ((d.reqsOpen = true ∨ d.rxOpen = true ∨ d.dmaOpen = true) → Does .ebbTimeout d
      ((((d.freeWord).2.sb 0x5120 2 true).report pgERR none 0x0015 0x41 (d.freeWord).1.toNat 0).cut))) ∧
  (∀ (d : Dev) (v : Word), (d.writable 0x5100 = true → Does .errResume d d.errResume) ∧
    (d.writable 0x5110 = true → Does (.recTailWrite v) d (d.recTail v.toNat)))

/-- Coves and snapshots: the commands complete (R320 to R340, R425 to R430, R436 to R440). -/
def Obligations.CovesAndSnapshotsComplete : Prop :=
  (∀ (d : Dev) (fixed : Bool), d.writable (pgCOV + 0x100) = true →
    (d.coves.any fun c => c.2.state ≠ 0) = false → Does (.coveModeWrite fixed) d (d.sb (pgCOV + 0x100) 0 fixed)) ∧
  (∀ (d e : Dev) (cid n : Nat) (c : Cmd) (g : CoveCfg), d.cfgOf c = (.inr (n, g), e) → e.rangesOk n g = true →
    (d.cmd? 0 cid 0x0100 = some c → (e.cove n).state = 0 → (e.coves.any fun k => k.2.state ≠ 0 && k.2.cfg.pasid == g.pasid) = false →
      (e.b (pgCOV + 0x100) 0 = true ∨ e.feature 1 = true) → e.taken n {} g = false →
      Does (.coveCreate cid) d ((e.createCove n g).complete 0 cid 0 0)) ∧
    (d.cmd? 0 cid 0x0102 = some c → ((e.cove n).state = 1 ∨ (e.cove n).state = 3) → e.b (pgCOV + 0x100) 0 = false →
      g.pasid = (e.cove n).cfg.pasid → (c.arm = true ∨ e.slackNow = true) → (e.cove n).resize = none →
      e.taken n (e.cove n).cfg g = false → e.inUse n (e.cove n).cfg g = false →
      Does (.coveResize cid) d (e.beginResize n cid c g))) ∧
  (∀ (d : Dev) (cid n : Nat) (c : Cmd), leAt c.param 0 1 = n → n ≤ 63 →
    (d.cmd? 0 cid 0x0103 = some c → (d.cove n).state = 1 → c.arm = false →
      Does (.coveReset cid) d ((d.hold c).coveReset n (some cid) none)) ∧
    (d.cmd? 0 cid 0x0101 = some c → (d.cove n).state = 1 →
      Does (.coveDestroy cid) d ((d.hold c).coveReset n none (some cid))) ∧
    (d.cmd? 0 cid 0x0104 = some c → (d.cove n).state = 1 →
      (c.arm = false → Does (.coveFreeze cid) d ((d.hold c).coveFreeze n cid)) ∧
      (c.arm = true → (d.cove n).freezeAt = none → Does (.coveFreeze cid) d
        ((d.hold c).setCove n { d.cove n with freezeAt := some (cid, c.tide) }))) ∧
    (d.cmd? 0 cid 0x0105 = some c → (d.cove n).state = 3 → c.arm = false →
      Does (.coveThaw cid) d ((d.coveThaw n).complete 0 cid 0 0)) ∧
    (∀ (img : List Byte) (bad : Bool) (e : Dev), d.cmd? 0 cid 0x0106 = some c → (d.cove n).state = 3 →
      d.saveImage n = (img, bad, e) →
      img.length ≤ c.buflen → d.inScratch c.buf img.length = true → inUserMem c.buf img.length = true →
      d.clearOfCoves c.buf img.length = true →
      Does (.coveSave cid) d ((e.memWrite pgFWR 0x40 c.buf img bad).complete 0 cid 0 img.length)) ∧
    (∀ (l : List Byte) (e : Dev) (m : Nat) (g : CoveCfg), d.cmd? 0 cid 0x0107 = some c → (d.cove n).state = 3 →
      (d.cove n).worked = false → inUserMem c.buf c.buflen = true →
      d.memRead pgFWR 0x40 c.buf c.buflen = (l, false, e) → e.saveBad l false = false →
      parseCfg ((l.drop 32).take 384) = some (m, g) →
      let o := 432 + 16 * leAt l 6 2 + 576 * popN g.sqMask 32
      leAt l 12 4 = o + 256 * leAt l 8 4 → sameShape g (d.cove n).cfg = true →
      leAt l 6 2 = (bitList (d.cove n).cfg.ringMask 256).length → leAt l 8 4 ≤ (e.namedCtxs n).length →
      Does (.coveRestore cid) d ((e.loadSave n l o (leAt l 8 4)).complete 0 cid 0 0)) ∧
    (∀ q : Fin 256, d.cmd? q cid 0x0108 = some c → ((d.ring q).driver = true ∨ n = (d.ring q).cove) →
      (d.cove n).state ≠ 0 → Does (.coveQuery q cid) d (d.answer c (padTo 384 (d.cove n).cfg.raw) 0))) ∧
  (∀ (d : Dev) (n : Fin 64), d.fwRunning = true → d.safe = false →
    (∀ (cid : Nat) (t : Option DWord) (old : CoveCfg), (d.cove n).resize = some (cid, t, old) →
      (d.cove n).resizeDone = true → d.resizeBusy n = false → Does (.coveResizeComplete n) d
        (((d.setOwner ((d.enginesGone n old).foldl (fun m i => m + 2 ^ i) 0) none).setCove n
          { d.cove n with resize := none, resizeDone := false, resizeWork := [] }).complete 0 cid 0 0)) ∧
    ((d.cove n).state = 4 → Does (.covePurgeDeadline n) d (d.purged n)) ∧
    (∀ cid : Nat, (d.cove n).state = 2 → d.coveBusy n = false → (d.cove n).freezeCid = some cid →
      Does (.coveFreezeComplete n) d
        (((d.setCove n { d.cove n with state := 3, freezeCid := none }).inc (pgCOV + 0x908)).complete 0 cid 0 0))) ∧
  (∀ (d e : Dev) (cid : Nat) (c : Cmd) (w : List Byte), d.cmd? 0 cid 0x0200 = some c → d.ckp.run = none →
    1216 ≤ c.buflen → d.bufOk c false 1216 = true → d.memRead pgFWR 0x40 c.buf 1216 = (w, false, e) →
    e.setOk w none = true → Does (.snapSet cid none) d
      ((e.putSet { raw := w, setMax := leAt w 2 2, ranges := setRanges w }).complete 0 cid 0 0)) ∧
  (∀ (d : Dev) (cid : Nat) (c : Cmd), d.ckp.run = none → d.ckp.restore = none → d.ckp.set.isSome = true →
    (d.cmd? 0 cid 0x0201 = some c → d.ckp.armAt = none → d.buddy.isSome = true →
      (c.arm = true → Does (.snapArm cid) d { d.hold c with ckp := { (d.hold c).ckp with armAt := some (cid, c.tide) } }) ∧
      (c.arm = false → d.slackNow = true → Does (.snapArm cid) d ((d.hold c).snapCapture cid d.fw.image.ver))) ∧
    (∀ (b x : Nat), d.cmd? 0 cid 0x0204 = some c → d.slackNow = true → leAt c.param 0 1 ≤ 2 → d.buddy = some b →
      d.buddyCtx = some x →
      let e := (d.hold c).ckpState 3
      Does (.snapRestore cid) d
        (({ e with ckp := { e.ckp with restore := some { cid := cid, src := leAt c.param 0 1 } } } : Dev).readMeta x
          (if leAt c.param 0 1 = 2 then 1 else 0)))) ∧
  (∀ (d : Dev) (cid : Nat) (c : Cmd),
    (d.cmd? 0 cid 0x0202 = some c → Does (.snapAbort cid) d ((d.snapEnd 0x0206).complete 0 cid 0 0)) ∧
    (∀ (l : List Byte) (e : Dev), d.cmd? 0 cid 0x0203 = some c → d.ckp.last ≠ [] → d.wardRecord = (some l, e) →
      Does (.snapStatus cid) d (e.answer c (d.ckp.last ++ l) 0))) ∧
  (∀ (d : Dev) (g : Nat) (p : PreImg), (d.ckp.copying.find? fun p => p.gran == g) = some p →
    ((d.ckp.pre.length + 1) * 65536 ≤ d.fw.layout.sSize → Does (.preimageCopied g) d (d.preserve p)) ∧
    (d.fw.layout.sSize < (d.ckp.pre.length + 1) * 65536 → Does (.preimageCopied g) d (d.snapEnd 0x0204))) ∧
  (∀ d : Dev, d.safe = false → d.starts pgCKP = true → d.emhOn = true → d.tide.hold = false → Does .snapshotCopy d d.copyStep)

/-- The network's commands complete: frames received, classified, delivered and sent, host pairs, rules, ports and sounding
(R344 to R370). -/
def Obligations.NetworkCommandsComplete : Prop :=
  (∀ (d : Dev) (p : Fin 8) (len corr : Nat) (bytes : List Byte) (emh : Option EmhPkt) (fcs fec : Bool),
    d.netUp p = true → d.b (pgNET + 8) 0 = true → Does (.frameReceive p len bytes emh fcs fec corr) d
      ((d.incBy (pgNET + 0x800 + 32 * p + 0x10) corr).takeFrame p len bytes emh fcs fec)) ∧
  (∀ (d : Dev) (i : Nat) (f : NetFrame) (desc : List Byte), d.net.reorder[i]? = some f → d.mayDeliver i f = true →
    Does (.packetDeliver i desc) d (d.deliver i f desc)) ∧
  (∀ (d : Dev) (v : Word),
    (d.writable (pgPKT + 0x17c) = true → Does (.ruleInstall v) d (d.ruleInstall v.toNat)) ∧
    (d.writable (pgNET + 0x100) = true → Does (.portModeWrite v) d (d.portModeWrite v.toNat)) ∧
    (d.writable (pgNET + 0x104) = true → Does (.portEnWrite v) d (d.portEnWrite v.toNat)) ∧
    (d.writable (pgNET + 0x194) = true → Does (.hnqCfgEnWrite v) d (d.hnqCfgWrite v.toNat)) ∧
    (d.writable (pgNET + 0x198) = true → Does (.hnqTxTailWrite v) d (d.hnqTail 0x198 v.toNat)) ∧
    (d.writable (pgNET + 0x19c) = true → Does (.hnqRxTailWrite v) d (d.hnqTail 0x19c v.toNat))) ∧
  (∀ (d : Dev) (p : Fin 8), Does (.netLinkChange p false) d (d.netDown p)) ∧
  (∀ (d : Dev) (p : Fin 8), p.val < d.numPorts → d.b (pgNET + 0x104) p = true → d.b (pgNET + 8) 0 = true →
    Does (.netLinkChange p true) d (d.netRise p)) ∧
  (∀ (d : Dev) (n : Fin 64) (desc bytes : List Byte) (emh : Option EmhPkt) (poison fail : Bool), d.hnqReady n = true →
    Does (.hnqTxFetch n desc bytes emh poison fail) d (d.hnqSend n desc bytes emh poison fail)) ∧
  (∀ (d : Dev) (q : Fin 4096) (head : List Byte) (f : Frame) (dn dq : Map Nat), d.headFrame q = some f →
    let n := d.nodeOf q
    d.drr (d.tsqNodes n f.len) (0x10000 + n) = some dn → d.drr (d.tsqQueues n) q = some dq → d.safe = false →
    d.netUp (d.portOf n) = true → d.tide.hold = false → d.starts pgTSQ = true → d.mayFlow (0x20000 + d.portOf n) = true →
    (d.frameLoops f head = false ∨ d.net.reorder.length < 4096) →
    Does (.tsqSend q head) d (d.sendFrame q f dn dq head)) ∧
  (∀ d : Dev,
    let first := d.g (pgTSQ + 0x1b8) 0 12
    let last := d.g (pgTSQ + 0x1b8) 16 12
    let size := 2 ^ d.g (pgTSQ + 0x1c4) 0 5
    d.g (pgTSQ + 0x1b4) 0 16 ≠ 0 → first ≤ last → d.safe = false → d.starts pgTSQ = true → d.fwRunning = true →
    (d.g (pgTSQ + 0x1c8) 0 20 + size - d.g (pgTSQ + 0x1cc) 0 20 % size) % size + (last + 1 - first) < size →
    Does .soundingSweep d (d.soundPut first (last + 1 - first)))

/-- The transport's commands complete: contexts, packets, work requests, timers, paths and regions (R371 to R392). -/
def Obligations.TransportCommandsComplete : Prop :=
  (∀ (d : Dev) (c : Fin 65536), d.writable (pgEMH + 0x114) = true →
    Does (.connListen c) d (d.connCmd c 1) ∧ Does (.connOpen c) d (d.connCmd c 2) ∧
    Does (.connClose c) d (d.connCmd c 3) ∧ Does (.connReset c) d (d.connCmd c 4) ∧
    Does (.connRepoint c) d (d.connCmd c 5)) ∧
  (∀ (d : Dev) (c : Fin 65536) (tail : Fin 4096), d.writable (pgEMH + 0x110) = true →
    Does (.sqDbWrite c tail) d (d.sqDb c tail)) ∧
  (∀ (d : Dev) (port : Nat) (k : EmhPkt), d.knows k →
    let c := k.dconn
    let x := (d.takingPkt port k).cTouch c
    (k.op = 7 → (x.cState c = 1 ∨ x.cState c = 3) → Does (.connectPkt port k) d (x.connectIn c k)) ∧
    (k.op = 8 → x.cState c = 2 → Does (.acceptPkt port k) d (x.established c)) ∧
    (k.op = 9 → x.cState c ≠ 6 →
      Does (.closePkt port k) d (((x.endAll c 0x24).clearCtx c []).setCf c 0 1 0).checkDone) ∧
    (k.op = 10 → x.cState c ≠ 6 → Does (.resetPkt port k) d (x.failCtx c false).checkDone) ∧
    (k.op = 11 → x.cState c ≠ 6 → Does (.probePkt port k) d (x.sendBare c k.path 0xc)) ∧
    (k.op = 12 → x.cState c ≠ 6 → k.path % 8 < x.cf c 8 1 → bitN (x.cf c 9 1) (k.path % 8) = false →
      Does (.probeAckPkt port k) d (x.pathUp c (k.path % 8))) ∧
    (x.cState c = 3 →
      (k.op = 5 → Does (.ackPkt port k) d (x.ackIn c k.payload)) ∧
      (∀ t : TxPkt, k.op = 6 → (x.nakCount c (beAt k.payload 0 2)).cState c = 3 →
        (x.nakCount c (beAt k.payload 0 2)).txOf c (beAt k.payload 4 4) = some t →
        Does (.nakPkt port k) d ((x.nakCount c (beAt k.payload 0 2)).nakOf c (beAt k.payload 0 2) t)) ∧
      (psnLt k.psn (x.cf c 112 4) = false → k.psn ∉ (x.ctx c).ahead →
        ((k.op = 1 ∧ (x.cService c = 1 ∨ x.cService c = 2)) ∨ ((k.op = 2 ∨ k.op = 3 ∨ k.op = 4) ∧ x.cService c = 0)) →
        Does (.dataPacket port k) d (x.dataIn c k)))) ∧
  (∀ (d : Dev) (c : Fin 65536), d.cState c = 2 →
    (d.emhUp = true → Does (.openTimeout c) d (d.failCtx c true).checkDone) ∧
    Does (.connectRetry c) d (d.sendBare c (d.anyPath c) 7)) ∧
  (∀ (d : Dev) (c : Fin 65536), d.mayFetch c = true → Does (.workRequestFetch c) d (d.fetchReq c)) ∧
  (∀ (d : Dev) (c : Fin 65536) (r : Req), d.emhOn = true → d.takesWork = true → (d.ctx c).stalled = some r →
    (d.localSegs c r = none → Does (.sendStallRecheck c false) d
      (((d.setCtx { d.ctx c with stalled := none }).tryIssue c r).ctxSettle c)) ∧
    (∀ (l : List (Nat × Nat)) (p : Nat) (g : List Nat), d.localSegs c r = some (l, p :: g) →
      Does (.sendStallRecheck c true) d
        (((d.setCtx { d.ctx c with stalled := none }).endReq c { r with msn := 2 ^ 32 } 0x23).ctxSettle c))) ∧
  (∀ (d : Dev) (c : Fin 65536), d.emhOn = true → (d.ctx c).ackDue = true →
    Does (.ackSend c) d (d.sendAck c (d.ctx c).ackPath)) ∧
  (∀ (d : Dev) (c : Fin 65536) (psn : Nat) (t : TxPkt), d.txOf c psn = some t → d.emhOn = true → d.calm = true → d.cState c = 3 →
    (t.delayed = true → Does (.nakResend c psn) d
      (d.transmit c t (if bitN (d.cf c 9 1) t.path then t.path else d.otherPath c t.path) false)) ∧
    (t.delayed = false → Does (.rtoExpiry c psn) d (d.rtoExpired c t))) ∧
  (∀ (d : Dev) (c : Fin 65536) (msn : Nat) (t : TxPkt), d.emhUp = true → t ∈ (d.ctx c).tx → t.sent = true →
    t.pkt.msn = msn → t.pkt.op ≠ 4 →
    ((t.nak = 1 ∨ t.nak = 2) →
      Does (.notReadyTimeout c msn) d (((d.endMsn c msn 0x25).setUna c).ctxSettle c)) ∧
    (t.nak = 3 → Does (.pageTimeout c msn) d (((d.endMsn c msn 0x23).setUna c).ctxSettle c))) ∧
  (∀ (d : Dev) (c : Fin 65536) (p : Fin 8), d.cState c = 3 → p.val < d.cf c 8 1 → bitN (d.cf c 9 1) p = false →
    Does (.probeTimer c p) d (d.sendBare c p 0xb)) ∧
  (∀ d : Dev, d.writable (pgEMH + 0x194) = true → Does .regOpen d d.regOpen ∧ Does .regClose d d.regClose) ∧
  (∀ (d : Dev) (i : Fin 4096), d.regState i = 2 → d.emhUp = true → Does (.regionCloseTimeout i) d (d.regDrop i))

/-- The storage target's commands complete: connections, the commands of hosts, data, SSDs and namespaces (R398 to R423). -/
def Obligations.StorageCommandsComplete : Prop :=
  (∀ (d : Dev) (conn port : Nat) (disc : Bool), d.safe = false → d.nvConn? conn = none →
    (d.nvMode = 0 → Does (.tcpConnectAttempt conn port disc) d ((d.inc (pgNVT + 0x81c)).emit (.tcpReset port))) ∧
    (d.nvMode ≠ 0 → Does (.tcpConnectAttempt conn port disc) d (d.setConn { conn := conn, disc := disc }))) ∧
  (∀ (d : Dev) (conn hpda m : Nat) (hd dd : Bool) (q : NvConn), d.nvConn? conn = some q → d.nvUp = true →
    q.ready = false → hpda ≤ 31 → Does (.nvmeIcreq conn hpda m hd dd) d
      ((d.setConn { q with ready := true, hd := hd, dd := dd, maxr2t := m }).nvSend conn (.icResp 0 131072 hd dd))) ∧
  (∀ (d : Dev) (conn cid size kato host k : Nat) (q : NvConn), d.nvConn? conn = some q → d.nvUp = true →
    q.ready = true → q.ctl = none → d.nvMode ≠ 0 → d.nvt.ctls.length < 256 → size ≤ 4095 → d.nvCtl? k = none →
    let x : NvCtl := { id := k, host := host, kato := if kato = 0 then 0 else max 1000 kato, last := d.trclk }
    Does (.nvmeConnect conn cid 0 size kato host k) d
      (((d.setNvCtl x).setConn { q with ctl := some k }).nvResp conn cid 0 k)) ∧
  (∀ (d : Dev) (conn : Nat), Does (.nvmeTcpConnectionClose conn) d (d.nvClose conn).nvSettle) ∧
  (∀ (d : Dev) (conn cid nsid slba nlb opc : Nat) (x : NvCtl), d.hosts conn x true →
    let e := d.nvTouch x
    let y := { x with last := d.trclk }
    let lb := e.nsLb (nsid - 1)
    (e.nvRefuse y nsid [(slba * lb, nlb * lb)] true = none →
      Does (.nvmeRead conn cid nsid slba nlb) d (e.nvAccept
        { seq := 0, conn := conn, cid := cid, op := .read, nss := [nsid - 1], ext := [(slba * lb, nlb * lb)] }) ∧
      (∀ (fua : Bool) (data : List Byte), Does (.nvmeWrite conn cid nsid slba nlb fua true data) d (e.nvAccept
        { seq := 0, conn := conn, cid := cid, op := .write, nss := [nsid - 1], ext := [(slba * lb, nlb * lb)], fua := fua,
          data := data.take 8192 }))) ∧
    (e.nvRefuse y nsid [(slba * lb, nlb * lb)] false = none →
      Does (.nvmeWriteZeroes conn cid nsid slba nlb) d (e.nvAccept
        { seq := 0, conn := conn, cid := cid, op := .zeroes, nss := [nsid - 1], ext := [(slba * lb, nlb * lb)] }) ∧
      Does (.nvmeDatasetManagement conn cid nsid true [(slba, nlb)]) d (e.nvAccept
        { seq := 0, conn := conn, cid := cid, op := .dealloc, nss := [nsid - 1], ext := [(slba * lb, nlb * lb)] })) ∧
    (e.nvRefuse y nsid [] false = none → nsid ≠ 0xffffffff → Does (.nvmeFlush conn cid nsid) d
      (e.nvAccept { seq := 0, conn := conn, cid := cid, op := .flush, nss := [nsid - 1] })) ∧
    (opc ∉ [0, 1, 2, 8, 9] → Does (.nvmeInvalidOpcode conn cid opc) d (e.nvResp conn cid 0x01 0))) ∧
  (∀ (d : Dev) (conn cid : Nat) (x : NvCtl), d.hosts conn x false → d.nvMode = 1 →
    let e := d.nvTouch x
    let y := { x with last := d.trclk }
    (∀ sqid target : Nat,
      let q := (e.nvt.conns.filter fun c => c.ctl == some y.id && c.qid == sqid).map (·.conn)
      let waits := e.nvt.cmds.find? fun c => q.contains c.conn && c.cid == target && c.phase == 0
      (∀ c : NvCmd, waits = some c → Does (.nvmeAbort conn cid sqid target) d
        (((e.nvEnd c 0x07 0).inc (pgNVT + 0x820)).nvResp conn cid 0 0).nvSettle) ∧
      (waits = none → Does (.nvmeAbort conn cid sqid target) d ((e.inc (pgNVT + 0x824)).nvResp conn cid 0 1))) ∧
    (∀ nsid : Nat, Does (.nvmeIdentify conn cid nsid 1) d
      (((e.freeBytes 4096).2.nvData conn cid (idController (e.freeBytes 4096).1 y)).nvResp conn cid 0 0)) ∧
    (∀ lid len : Nat, lid ≠ 0x81 → Does (.nvmeGetLogPage conn cid lid len) d
      (((e.freeBytes len).2.nvData conn cid (e.freeBytes len).1).nvResp conn cid 0 0)) ∧
    Does (.nvmeGetFeatures conn cid 0xc0) d (e.nvResp conn cid 0 e.nvt.fwPort) ∧
    (∀ v : Nat, Does (.nvmeSetFeatures conn cid 7 v) d
      ((e.setNvCtl { y with feats := (7, v) :: y.feats.filter (·.1 ≠ 7) }).nvResp conn cid 0 v)) ∧
    (∀ ps : Nat, Does (.nvmePowerStateSet conn cid ps) d (e.nvPowerSet y conn cid ps)) ∧
    Does (.nvmeKeepAlive conn cid) d (e.nvResp conn cid 0 0) ∧
    (y.notes = [] → Does (.nvmeAsyncEventRequest conn cid) d (e.setNvCtl { y with aers := y.aers ++ [cid] })) ∧
    Does (.nvmePropertyGet conn cid 8) d (e.nvResp conn cid 0 0x20000) ∧
    (∀ v : Nat, Does (.nvmePropertySet conn cid 0x14 v) d ((e.setNvCtl { y with cc := v }).nvResp conn cid 0 0)) ∧
    (∀ nsid lbaf ses : Nat, ses < 2 → lbaf < 2 → nsid ≠ 0 → nsid ≠ 0xffffffff → e.nsAttached y (nsid - 1) = true →
      e.nvt.san ≠ 2 → nsid - 1 ∉ e.nvt.formatting → e.ssdReady (e.nsPort (nsid - 1)) = true →
      Does (.nvmeFormatNvm conn cid nsid lbaf ses) d (e.format conn cid lbaf ses [nsid - 1])) ∧
    (∀ a : Nat, (a = 2 ∨ a = 4) → e.nvt.san ≠ 2 → Does (.nvmeSanitize conn cid a) d (e.sanitize conn cid a))) ∧
  (∀ (d : Dev) (conn cid : Nat) (x : NvCtl), d.hosts conn x false → d.nvMode = 2 →
    let e := d.nvTouch x
    (∀ (off : Nat) (data : List Byte),
      Does (.nvmeFirmwareDownload conn cid off data) d (e.nvFirmware conn cid (.fwDownload off data))) ∧
    (∀ slot a : Nat,
      Does (.nvmeFirmwareCommit conn cid slot a false) d (e.nvFirmware conn cid (.fwCommit slot a)) ∧
      (e.ssdReady e.nvt.fwPort = true → Does (.nvmeFirmwareCommit conn cid slot a true) d (e.fwReset conn cid slot a)))) ∧
  (∀ (d : Dev) (k : Nat) (x : NvCtl) (c : NvConn), d.nvCtl? k = some x →
    (d.nvt.conns.find? fun c => c.ctl == some k && c.qid == 0) = some c → d.fwRunning = true → x.kato ≠ 0 →
    Does (.keepAliveTimeout k) d (d.nvTerm c.conn).nvSettle) ∧
  (∀ (d : Dev) (conn cid off : Nat) (data : List Byte) (q : NvConn) (c : NvCmd) (r : Nat × Nat), d.nvUp = true →
    d.nvConn? conn = some q →
    (d.nvt.cmds.find? fun c => c.conn == conn && c.cid == cid && c.op == .write && c.phase == 1) = some c →
    (c.r2t.find? fun r => decide (r.1 ≤ off) && decide (off + data.length ≤ r.1 + r.2)) = some r →
    Does (.h2cDataPdu conn cid off data true true) d (d.h2cPlace c r off data)) ∧
  (∀ (d : Dev) (nsid blk : Nat) (x : NvBlk), d.nvBlk? (nsid - 1) blk = some x → d.nvUp = true → 1 ≤ nsid →
    x.covers ≠ [] → x.stuck = false → d.ssdReady (d.nsPort x.ns) = true →
    d.beingWritten x = false →
    Does (.destage nsid blk) d (d.writeOut x false none).nvSettle) ∧
  (∀ (d : Dev) (id : Nat) (ok : Bool) (data : List Byte) (c : SsdCmd), (d.nvt.out.find? fun o => o.id == id) = some c →
    d.fwRunning = true → Does (.ssdCommandComplete id ok data) d
      ((d.setNvt { d.nvt with out := d.nvt.out.erase c }).ssdOver c ok data).nvSettle) ∧
  (∀ (d : Dev) (p : Fin 4) (silent : Bool), d.ssdReady p = true → Does (.ssdLinkDown p silent) d
    ((if silent then (d.setErr pgSRP (4 + p)).setErr pgNVT 0 else d.setErr pgSRP p).ssdLost p).nvSettle) ∧
  (∀ (d : Dev) (p : Fin 4) (cap : Nat), d.fwRunning = true → d.ssdReady p = false →
    Does (.ssdReady p cap) d (d.ssdBack p cap)) ∧
  (∀ (d : Dev) (prog : List Nat) (r : NvRecord), d.fwRunning = true → d.nvt.record = some r →
    Does (.sanitizeProgressSave prog) d (d.setNvt { d.nvt with record := some { r with prog := prog } })) ∧
  (∀ (d : Dev) (en maint : Bool),
    (d.writable (pgNVT + 0x140) = true →
      Does .nsInstall d d.nsInstall ∧ Does .nsRemove d (d.nsRemove (d.g (pgNVT + 0x118) 0 6))) ∧
    (d.writable (pgNVT + 0x100) = true → Does (.nvtCtlWrite en maint) d (d.nvCtlWrite en maint)))

/-- A step takes the command at the front of the queue and gives its effect, with the rest of the queue standing. -/
def Obligations.StepRunsTheFrontCommand : Prop :=
  ∀ (c : Instr) (d : Dev) (q : List Instr), step ⟨d, c :: q⟩ = exec c ⟨d, q⟩

/-- With no command waiting a step is a nanosecond of TRCLK and answers a next state with the queue still empty. Where nothing
else waits for time to pass, only the clocks move on, and in a powered device an error may arise: TRCLK counts one up, but not
in standby, where no register but VCLK's and no memory changes (R39, R485). The tick is the model's choice (DESIGN CHOICE,
log entries 6 and 81). -/
def Obligations.EmptyQueueLetsTimePass : Prop :=
  (∀ d : Dev, ∃ e : Dev, step ⟨d, []⟩ = .next ⟨e, []⟩) ∧
  (∀ d : Dev, d.quiet →
    let c : Dev := { d with trclk := d.trclk + 1, err := { d.err with windows := [] } }
    (d.pwr.main = true → step ⟨d, []⟩ = .next ⟨c.ariseNow.recordFound.settle, []⟩) ∧
    (d.pwr.main = false → ∃ e : Dev, step ⟨d, []⟩ = .next ⟨e, []⟩ ∧ e.trclk = d.trclk ∧
      (∀ k, k ≠ 0x2804 → e.rd k = d.rd k) ∧ sameMem d e ∧ e.cores = d.cores ∧ e.tide = d.tide ∧ e.slack = d.slack))

/-- The table of commands gives no command any bits, so no word spells one (DESIGN CHOICE, log entry 1). -/
def Obligations.NoWordSpellsACommand : Prop :=
  ∀ (nbits w : Nat) (s : State), decodeTableWord nbits w = none ∧ s.withFetchWord nbits w = s

/-- Every command answers a next state, in every state: none is refused and none faults; and it leaves the queue alone. -/
def Obligations.EveryCommandAnswersANextState : Prop :=
  ∀ (i : Instr) (s : State), ∃ t : State, exec i s = .next t ∧ t.pending = s.pending

/-- Reset: no command waits; the general registers are zero with tag INT and no core runs; the device is unconfigured with
tide 0 and LOAD_STS.STATE 0; every register of the map reads its reset value in both banks; both generators of every cluster
hold 0x6A5D_39C1; the maps are canonical (R10, R88, R221, R265, R520). The pool layout is that of Table 2.4. Where the
spec gives a register no reset value, the value is the model's choice (DESIGN CHOICE, PRESUMED: log entry 3). -/
def Obligations.ResetState : Prop :=
  State.reset.pending = [] ∧ State.reset.dev.canonical = true ∧
  (∀ i j, ((State.reset.dev.core i).reg j = {}) ∧ (State.reset.dev.core i).running = false) ∧
  State.reset.dev.tide.cur = 0 ∧ State.reset.dev.tide.configured = false ∧ State.reset.dev.loadState = 0 ∧
  (∀ k, State.reset.dev.rd k = regReset k ∧ State.reset.dev.rdA k = regReset k) ∧
  (∀ n, n < 32 → State.reset.dev.xc.gen[n]? = some 0x6a5d39c1) ∧ State.reset.dev.fw.layout = {}

/-- From every state whose maps are canonical a step gives a state whose maps are canonical: registers, active banks, memory
and check words keep rising keys and hold no entry that reads as an unlisted key does. -/
def Obligations.EveryStepKeepsTheCanonicalForm : Prop :=
  ∀ s t : State, s.dev.canonical = true → step s = .next t → t.dev.canonical = true

/-- Whatever waits is done: from every state, as many steps as commands wait all answer next states, and none waits any more;
in between, the maps stay canonical. -/
def Obligations.WaitingCommandsAreAllDone : Prop :=
  ∀ s : State, s.dev.canonical = true →
    ∃ t, runSteps s.pending.length s = .next t ∧ t.pending = [] ∧ t.dev.canonical = true

/-- R46: a worker discards a tide mark of its headland whose value is not greater than its current tide, and counts it in
TIDE.STALE_CNT; nothing else of the tide, of slack, of memory, of the registers or of the cores changes. In addition to the
source check of R22: a mark of any other device is discarded and counted in TIDE.SOURCE_DROP, whatever its value. -/
def Obligations.StaleAndForeignMarksAreDiscarded : Prop :=
  ∀ (d : Dev) (src : Nat) (ann : Bool) (t : DWord), d.isWorker = true → d.emhOn = true → d.fwRunning = true →
    (src = d.tide.headDev ∧ t ≤ d.tide.cur ∨ src ≠ d.tide.headDev) →
    ∃ e : Dev, Does (.tideMarkMsg src ann t) d e ∧ e.tide = d.tide ∧ e.slack = d.slack ∧ e.cores = d.cores ∧
      sameMem d e ∧ e.bank = d.bank ∧ e.commits = d.commits ∧
      (src = d.tide.headDev → e.rd 0x3804 = d.rd 0x3804 + 1 ∧ sameRegsBut [0x3804] d e) ∧
      (src ≠ d.tide.headDev → e.rd 0x3808 = d.rd 0x3808 + 1 ∧ sameRegsBut [0x3808] d e)

/-- A mark greater than the current tide that is no announcement takes a worker to its value: the tide before is kept, the
boundary's hold begins, signals and reports start anew, the boundary is counted, and a stop of R24 ends; an announcement with
SBT_EN is held for the edge (R22, R24, R43, R49, R50, R60). -/
def Obligations.GreaterMarksAreTaken : Prop :=
  ∀ (d : Dev) (ann : Bool) (t : DWord), d.isWorker = true → d.emhOn = true → d.fwRunning = true → ¬ t ≤ d.tide.cur →
    (ann = false ∨ d.b 0x3008 8 = false →
      d.slack.startup = false → d.slack.lease = false → d.slack.escal = false → d.slack.cut = false → d.tide.hold = false →
      ∃ e : Dev, Does (.tideMarkMsg d.tide.headDev ann t) d e ∧ e.tide.cur = t ∧ e.tide.prev = d.tide.cur ∧
        e.tide.hold = true ∧ e.tide.done = [] ∧ e.tide.reported = false ∧ e.tide.next = t ∧ e.slack.stop = false ∧
        e.rd 0x3800 = d.rd 0x3800 + 1 ∧ sameRegsBut [0x3800] d e ∧ sameMem d e ∧ e.cores = d.cores ∧ e.commits = d.commits) ∧
    (ann = true → d.b 0x3008 8 = true →
      ∃ e : Dev, Does (.tideMarkMsg d.tide.headDev ann t) d e ∧ e.tide.held = some t ∧ e.tide.cur = d.tide.cur ∧
        e.tide.hold = d.tide.hold ∧ e.slack = d.slack ∧ sameRegsBut [] d e ∧ sameMem d e)

/-- The headland does not advance while a report for its tide is missing (R44, R45). -/
def Obligations.NoAdvanceBeforeEveryReport : Prop :=
  ∀ (d : Dev) (m : Nat), d.isHead = true → (m = d.tide.dev ∨ m ∈ d.workers) → m ∉ d.tide.reports → Does .tideAdvance d d

/-- TIDE.CUR_HI written: in slack with no armed commit the tide becomes the value written, with CUR_LO as it was staged, and
reports, and signals for another value, are void; at any other time the tide stands (R47, R512). -/
def Obligations.TideIsLoadedOnlyInSlack : Prop :=
  ∀ (d : Dev) (v : Word), d.writable 0x3104 = true →
    (d.slackNow = true → d.anyArmed = false →
      ∃ e : Dev, Does (.tideCurLoad v) d e ∧ e.tide.cur = v ++ d.tide.stage ∧
        (d.tide.cur ≠ v ++ d.tide.stage → e.tide.done = []) ∧ e.tide.reports = [] ∧
        e.tide.reported = false ∧ e.tide.role = d.tide.role ∧ e.tide.members = d.tide.members ∧ e.slack = d.slack ∧
        sameRegsBut [] d e ∧ sameMem d e ∧ e.cores = d.cores) ∧
    (d.slackNow = false ∨ d.anyArmed = true →
      ∃ e : Dev, Does (.tideCurLoad v) d e ∧ e.tide.cur = d.tide.cur ∧ e.tide.reports = d.tide.reports ∧
        e.commits = d.commits)

/-- The access codes of Table 0.3 and R12, for every field within 32 bits and every value written: RW takes the value, unless
that is a reserved encoding, which leaves the field as it was; W1C clears and W1S sets where the value has a 1; RO is left;
and every field apart keeps its value, so the rest of a write is applied. -/
def Obligations.FieldsAreWrittenByTheirAccessCodes : Prop :=
  ∀ (f : FieldD) (v old : Nat), old < 2 ^ 32 → f.lo + f.w ≤ 32 →
    let x := fieldN v f.lo f.w
    let was := fieldN old f.lo f.w
    f.write v old < 2 ^ 32 ∧
    (f.acc = .rw → f.min ≤ x → x ≤ f.max → fieldN (f.write v old) f.lo f.w = x) ∧
    (f.acc = .rw → (x < f.min ∨ f.max < x) → f.write v old = old) ∧
    (f.acc = .w1c → ∀ i, i < f.w → bitN (fieldN (f.write v old) f.lo f.w) i = (bitN was i && !bitN x i)) ∧
    (f.acc = .w1s → ∀ i, i < f.w → bitN (fieldN (f.write v old) f.lo f.w) i = (bitN was i || bitN x i)) ∧
    (f.acc = .ro → f.write v old = old) ∧
    ∀ lo w, (f.lo + f.w ≤ lo ∨ lo + w ≤ f.lo) → fieldN (f.write v old) lo w = fieldN old lo w

/-- A write to a double-banked register of a cluster, of HEP or of WIN goes to its shadow bank, by the access codes of its
fields, and leaves the active bank, every other register, memory and the commits alone; a locked shadow bank discards it and
sets COMMIT.WDROP (R52, R55). -/
def Obligations.WritesReachTheShadowBank : Prop :=
  ∀ (d : Dev) (off n : Nat) (b : Blk) (l : List FieldD) (v : Word), off < 0x200000 → off % 4 = 0 →
    pageBlk (off / 4096) = some (b, n) → b ∈ [Blk.xc, .hep, .win] → isBanked off = true → fieldsOf off = some l →
    d.writable off = true →
    ∃ e : Dev, Does (.registerWrite off v) d e ∧ (∀ k, e.rdA k = d.rdA k) ∧ sameMem d e ∧
      (d.locked (pageOf off) = false → e.rd off = BitVec.ofNat 32 (l.foldl (fun a f => f.write v.toNat a) (d.rd off).toNat) ∧
        sameRegsBut [off] d e ∧ e.commits = d.commits) ∧
      (d.locked (pageOf off) = true → sameRegsBut [] d e ∧
        e.commit (pageOf off) = { d.commit (pageOf off) with wdrop := true })

/-- A commit that takes effect at once makes the active bank of its page hold what the shadow bank holds, leaves the shadow
bank and every other page's active bank as they were, advances SEQ, and leaves no commit armed (R52, R56). -/
def Obligations.CommitsCopyTheShadowBank : Prop :=
  ∀ (d : Dev) (pg n : Nat) (b : Blk), isPage pg = true → pageBlk (pg / 4096) = some (b, n) → b ∈ [Blk.xc, .hep, .win] →
    d.writable (pg + 0x38) = true →
    ∃ e : Dev, Does (.commitNow pg) d e ∧
      (∀ k, pageOf k = pg → isBanked k = true → e.rdA k = d.rd k) ∧
      (∀ k, (pageOf k ≠ pg ∨ isBanked k = false) → e.rdA k = d.rdA k) ∧ sameRegsBut [] d e ∧ sameMem d e ∧
      e.commit pg = { armed := none, late := false, wdrop := false, skip := (d.commit pg).skip, seq := (d.commit pg).seq + 1 } ∧
      ∀ p, p ≠ pg → e.commit p = d.commit p

/-- R53 and R54: writing 1 to COMMIT.ARM arms the commit at the value TIDE_ARM_HI:TIDE_ARM_LO has then, whatever was armed
before; LATE is set where that value is not greater than the current tide, but for a commit armed at S in start-up slack with
tide S; WDROP is cleared; both banks, the registers and memory stand. -/
def Obligations.ArmingTakesTheArmedTide : Prop :=
  ∀ (d : Dev) (pg : Nat), isPage pg = true → d.writable (pg + 0x38) = true → d.isPosted pg = false → d.mayPost false pg = true →
    ∃ e : Dev, Does (.commitArm pg) d e ∧ (e.commit pg).armed = some (d.rd (pg + 0x34) ++ d.rd (pg + 0x30)) ∧
      ((e.commit pg).late = true ↔ d.rd (pg + 0x34) ++ d.rd (pg + 0x30) ≤ d.tide.cur ∧
        ¬ (d.slack.startup = true ∧ d.rd (pg + 0x34) ++ d.rd (pg + 0x30) = d.tide.cur)) ∧
      (e.commit pg).wdrop = false ∧ (e.commit pg).seq = (d.commit pg).seq ∧ e.locked pg = true ∧
      (∀ p, p ≠ pg → e.commit p = d.commit p) ∧ (∀ k, e.rdA k = d.rdA k) ∧ sameRegsBut [] d e ∧ sameMem d e

/-- In safe state a BAR0 write that R452 does not let through changes nothing but GEN.WDROP_CNT and GEN.ERR_STS (with its
ERR_FIRST); memory, the active bank, commits and cores stand (R452, R511). -/
def Obligations.SafeStateDropsWrites : Prop :=
  ∀ (d : Dev) (off : Nat) (v : Word), d.safe = true → d.pageOpen off = true → off < 0x202040 → off % 4 = 0 →
    off ∉ [0x5110, 0x5114, 0x5020, 0x5010, 0x5108] →
    ∃ e : Dev, Does (.registerWrite off v) d e ∧ e.rd 0x800 = d.rd 0x800 + 1 ∧ e.b 0x10 0 = true ∧
      sameRegsBut [0x800, 0x10, 0x1c] d e ∧ (∀ k, e.rdA k = d.rdA k) ∧ sameMem d e ∧ e.commits = d.commits ∧
      e.cores = d.cores ∧ e.tide = d.tide

/-- R204: 256 bytes written to a whole granule, where a memory is, whose site stands and that no injection awaits, are what its
bytes then read as; without poison the granule's check word is their CRC-32C and any poison is cleared, with poison it is
the poison mark; every other byte and check word stands. -/
def Obligations.WholeGranuleWrites : Prop :=
  ∀ (d : Dev) (a : Nat) (l : List Byte) (poison : Bool), a % 256 = 0 → l.length = 256 → storable a = true →
    d.siteFailed a = false → d.injected a 3 = false →
    let e := (d.store a l poison).1
    e.bytes a 256 = l ∧ e.mark (a / 256) = (if poison then .poison else .good) ∧
      (e.checkWord (a / 256)).1 = (if poison then crc32c l ^^^ 0xa5c30f96 else crc32c l) ∧
      (∀ x, (x < a ∨ a + 256 ≤ x) → e.byteAt x = d.byteAt x) ∧ ∀ g, g ≠ a / 256 → e.mark g = d.mark g

/-- A write of part of a granule is merged: the bytes written read back, every other byte stands, and the merged granule is
good only where it was good as the merge found it and the bytes came without poison; a granule poisoned or failing its check
before, or in which the merge meets an uncorrectable error, is stored with the poison mark (R200, R206). -/
def Obligations.PartialWritesAreMerged : Prop :=
  ∀ (d : Dev) (a : Nat) (l : List Byte) (poison : Bool), 0 < l.length → l.length < 256 → a % 256 + l.length ≤ 256 →
    storable a = true → d.siteFailed a = false →
    let e := (d.store a l poison).1
    e.bytes a l.length = l ∧ (∀ x, (x < a ∨ a + l.length ≤ x) → e.byteAt x = d.byteAt x) ∧
      e.mark (a / 256) = (if poison = false ∧ (d.meet a).1.mark (a / 256) = .good then .good else .poison) ∧
      ∀ g, g ≠ a / 256 → e.mark g = d.mark g

/-- A write of one granule, whole or part, to a failed site is dropped: every byte stands, and every check word of another
granule (R213). A write to a granule marked UNCOPIED is made, but the 64 KiB as they were before it are kept as the pre-image,
once, and the write is counted (R429). -/
def Obligations.DroppedAndPreservedWrites : Prop :=
  ∀ (d : Dev) (a : Nat) (l : List Byte) (poison : Bool), 0 < l.length → a % 256 + l.length ≤ 256 → storable a = true →
    let e := (d.store a l poison).1
    (d.siteFailed a = true → (∀ x, e.byteAt x = d.byteAt x) ∧ ∀ g, (g ≠ a / 256 ∨ l.length = 256) → e.mark g = d.mark g) ∧
    (d.ckp.gran.get (fun _ => 0) (a / 65536) = 1 → d.meets a = [] →
      e.ckp = { d.ckp with copying :=
        if d.ckp.copying.any (·.gran == a / 65536) then d.ckp.copying else d.ckp.copying ++ [d.preImage (a / 65536)] } ∧
      (d.siteFailed a = false → e.bytes a l.length = l))

/-- The address map of R192 under a layout whose weight pool starts and ends at multiples of 64 KiB and whose slices are equal:
every address has one of sixteen sites, no two addresses share a site and site offset, each granule lies wholly in one site
and one channel, an address of the weight pool lies in the slice of its site, and every other address behind it. -/
def Obligations.SitesDivideMemory : Prop :=
  ∀ y : Layout, y.wBase % 65536 = 0 → y.wSize % 65536 = 0 →
    (∀ a, (siteOf y a).1 < 16 ∧ addrOfSite y (siteOf y a).1 (siteOf y a).2 = a) ∧
    (∀ a b, siteOf y a = siteOf y b → a = b) ∧
    (∀ a b, a / 256 = b / 256 → (siteOf y a).1 = (siteOf y b).1 ∧ channelOf (siteOf y a).2 = channelOf (siteOf y b).2) ∧
    ∀ a, y.wBase ≤ a ∧ a < y.wBase + y.wSize ↔ (siteOf y a).2 < y.wSize / 16

/-- Numbers in memory are little-endian: `n` bytes hold a number modulo 256 to the `n`, the least significant byte first, and
are read back as it (R6). -/
def Obligations.NumbersAreLittleEndian : Prop :=
  ∀ (n x : Nat), (leBytes x n).length = n ∧ leNat (leBytes x n) = x % 256 ^ n ∧ beNat (beBytes x n) = x % 256 ^ n ∧
    ∀ i, i < n → ((leBytes x n).getD i 0).toNat = x / 256 ^ i % 256

/-- What the instructions that work on registers alone leave unchanged, in every state: on a core no enabled trace buffer
names, such an instruction that does not stop its core changes only the core's destination register, its program counter and
flags (and, where a privileged core traps, the control registers R242 names): every byte and check word of memory, every
register and its active bank, the tide, slack, coves, records, jobs, the other cores and what left the device stand (R219,
R221, R234). -/
def Obligations.RegisterInstructionsChangeOnlyTheirDestination : Prop :=
  ∀ (d : Dev) (c : Instr) (i : Fin 37) (rds : List (BitVec 5)), registersOnly c = some (i, rds) → d.tbOf i = none →
    ∃ e : Dev, Does c d e ∧ ((e.core i).running = true → onlyCore i rds d e)

/-- Every code of the nine floating-point formats is the conversion of the value it stands for, by nearest rounding or by a
stochastic draw: a finite code without SAT and with it, an infinity without SAT; and the canonical NaN of a format that has
one is what a NaN converts to (R66, R68, R85, R86). -/
def Obligations.CodesAreConversionsOfTheirValues : Prop :=
  ∀ (f : FF) (x : Nat) (sat : Bool) (sr : Option Nat), f ∈ [fp64, fp32, bf16, fp16, e4m3, e5m2, e3m2, e2m3, e2m1] →
    x < 2 ^ f.w →
    (∀ neg m e, f.dec x = .fin neg m e → f.enc (f.dec x) sat sr = ⟨x, false, false⟩) ∧
    (∀ neg, f.dec x = .inf neg → sat = false → f.enc (f.dec x) sat sr = ⟨x, false, false⟩) ∧
    (f.dec x = .nan → (f.enc (f.dec x) sat sr).code = f.nanCode ∧ f.dec f.nanCode = .nan)

/-- R70 and R72: INT8 and INT4 codes stand for the integers from -128 to 127 and from -8 to 7 in two's complement; an E8M0
code below 0xFF stands for 2 to the code minus 127, and 0xFF for NaN. -/
def Obligations.IntegerAndScaleCodes : Prop :=
  (∀ x, x < 256 → ∃ v : Int, decElem 8 x = fvInt v 0 ∧ -128 ≤ v ∧ v ≤ 127 ∧ v % 256 = (x : Int)) ∧
  (∀ x, x < 16 → ∃ v : Int, decElem 9 x = fvInt v 0 ∧ -8 ≤ v ∧ v ≤ 7 ∧ v % 16 = (x : Int)) ∧
  (∀ c, c < 255 → e8m0 c = some ((c : Int) - 127)) ∧ e8m0 255 = none

/-- The generators of R88 never reach zero: a seed loads a state that is not zero, and every draw from such a state leaves
one; two states do not draw to the same one. -/
def Obligations.GeneratorsNeverReachZero : Prop :=
  (∀ s, srSeed s ≠ 0 ∧ srSeed s < 2 ^ 32) ∧ (∀ x, x < 2 ^ 32 → x ≠ 0 → srNext x ≠ 0 ∧ srNext x < 2 ^ 32) ∧
  ∀ x y, x < 2 ^ 32 → y < 2 ^ 32 → srNext x = srNext y → x = y

/-- BRK and SYS on a core that runs and that no enabled trace buffer names, SYS of a sequencer while no firmware runs that would
serve it. A sequencer stops with its trap record: cause, instruction, operand and tide, its program counter at the instruction (R240, R241). A
service or security core outside a trap saves its program counter, the cause, the instruction and the operand in control
registers 0x001 to 0x004, sets IN_TRAP and goes on at control register 0x005 (R242). Either way nothing else of the core, no
other core, no register, no memory and no tide changes, and nothing leaves the device. -/
def Obligations.SystemCallsAndBreaksTrap : Prop :=
  ∀ (d : Dev) (i : Fin 37) (c : BitVec 4) (imm : BitVec 12) (sys : Bool), d.runs i c → d.tbOf i = none →
    d.cores.length = 37 → (sys = true → d.fwRunning = false ∨ 32 ≤ i.val) →
    let k := d.core i
    let w := if sys then encI c.toNat 0x20 0 0 imm.toNat else encI c.toNat 0x22 0 0 0
    let cause := if sys then 0x0c else 0x0d
    let fault : DWord := if sys then imm.zeroExtend 64 else 0
    ∃ e : Dev, Does (if sys then .sys i c imm else .brk i c) d e ∧ sameMem d e ∧ e.regs = d.regs ∧ e.tide = d.tide ∧
      e.out = d.out ∧ (∀ j, j ≠ i.val → e.core j = d.core j) ∧
      (i.val < 32 → e.core i = { k with running := false, cause := cause, insn := w, fault := fault,
                                        tideAt := d.tide.cur, sysWait := sys }) ∧
      (32 ≤ i.val → bitN (k.cr.getD 0 0).toNat 0 = false → e.core i = { k with
        pc := k.cr.getD 5 0
        cr := [k.cr.getD 0 0 ||| 1, k.pc, BitVec.ofNat 64 cause, BitVec.ofNat 64 w, fault, k.cr.getD 5 0] }) ∧
      (32 ≤ i.val → bitN (k.cr.getD 0 0).toNat 0 = true → (e.core i).running = false)

/-- A privileged instruction on a sequencer traps: the sequencer stops with cause PRIV (0x02), its registers and its program
counter standing (R218, R232, R240, R241). -/
def Obligations.PrivilegedInstructionsTrapOnSequencers : Prop :=
  ∀ (d : Dev) (i : Fin 37) (c : BitVec 4) (rd ra rb : BitVec 5) (imm : BitVec 12), i.val < 32 → d.runs i c →
    d.cores.length = 37 →
    ∀ x ∈ [Instr.mint i c rd ra rb, .ldt i c rd ra ⟨imm, {}⟩, .stt i c rd ra imm, .csrr i c rd imm, .csrw i c rd imm, .eret i c],
      ∃ e : Dev, Does x d e ∧ (e.core i).running = false ∧ (e.core i).cause = 2 ∧ (e.core i).pc = (d.core i).pc ∧
        (e.core i).gr = (d.core i).gr ∧ (e.core i).tideAt = d.tide.cur

/-- A false condition: the instruction, whichever of these it is, only moves the program counter to the next instruction; on a
core that is stopped, or in safe state, it does not run at all (R220, R450). -/
def Obligations.ConditionsGovernInstructions : Prop :=
  ∀ (d : Dev) (i : Fin 37) (c : BitVec 4) (rd ra rb : BitVec 5) (fn : BitVec 7) (imm : BitVec 12) (io : Mio),
    ∀ x ∈ [Instr.alu i c rd ra rb fn, .fpu i c rd ra rb fn, .addi i c rd ra imm, .stb i c rd ra imm, .std i c rd ra imm,
        .ldd i c rd ra imm io, .amo i c rd ra rb fn io, .jr i c rd ra, .tadv i c ra, .trep i c ra, .sys i c imm, .brk i c],
      ((d.core i).running = false ∨ d.safe = true → Does x d d) ∧
      ((d.core i).running = true → d.safe = false → condHolds (d.core i) d.tide.cur c = false → d.tbOf i = none →
        Does x d (d.retire i (d.core i).pc))

/-- R372: while Emham is enabled and neither a hold nor a retraining channel keeps it waiting, a received packet, whichever it is, is dropped, counted in BAD_PKT_CNT and answered by
nothing when its VER is not 1, its DOMAIN or DDEV is not this device's, its DCONN is a CLOSED context, its SDEV or SCONN is not
that context's peer, or, but for a CONNECT, its EPOCH is not the context's: memory, every register but the count and ERR_STS
with ERR_FIRST, the tide, the cores and all that was sent stand; the packet is gone. -/
def Obligations.BadPacketsAreDropped : Prop :=
  ∀ (d : Dev) (port : Nat) (k : EmhPkt) (c : Instr),
    (c, k.op) ∈ [(Instr.connectPkt port k, 7), (.acceptPkt port k, 8), (.closePkt port k, 9), (.resetPkt port k, 10),
      (.ackPkt port k, 5), (.nakPkt port k, 6), (.probePkt port k, 11), (.probeAckPkt port k, 12), (.dataPacket port k, 1),
      (.dataPacket port k, 2), (.dataPacket port k, 3), (.dataPacket port k, 4)] →
    d.tide.hold = false → d.calm = true → d.emhUp = true → k.csumOk = true → d.b 0x53100 0 = true →
    (k.ver ≠ 1 ∨ k.domain ≠ d.g 0x53108 16 16 ∨ k.ddev ≠ d.g 0x53108 0 10 ∨ d.cState k.dconn = 0 ∨
      k.sdev ≠ d.cPeer k.dconn ∨ k.sconn ≠ d.cf k.dconn 6 2 ∨ (k.op ≠ 7 ∧ k.epoch ≠ d.cf k.dconn 3 1)) →
    ∃ e : Dev, Does c d e ∧ e.rd 0x53818 = d.rd 0x53818 + 1 ∧ e.b 0x53010 4 = true ∧
      sameRegsBut [0x53818, 0x53010, 0x5301c] d e ∧ sameMem d e ∧ e.out = d.out ∧ e.tsq = d.tsq ∧ e.tide = d.tide ∧
      e.cores = d.cores ∧ e.emh = { d.emh with inq := d.emh.inq.erase (port, k) }

/-- R527: SET_CAP with 600 to 1,650 W, or 0, is taken, and PWR.CAP.BMC shows it; any other value answers INVALID_DATA (0x02)
and leaves the cap. The cap does not survive standby, and in safe state it is recorded. Memory, every other register and the
tide stand. -/
def Obligations.BaseboardCap : Prop :=
  (∀ (d : Dev) (w : Nat), d.pwr.main = true → d.pwr.aon = true → (d.fwRunning = true ∨ d.safe = true) →
    ∃ e : Dev, Does (.setCap w) d e ∧ sameRegsBut [0x1104] d e ∧ sameMem d e ∧ e.tide = d.tide ∧
      (w = 0 ∨ (600 ≤ w ∧ w ≤ 1650) → e.fw.capBmc = w ∧ e.g 0x1104 16 11 = w ∧ e.g 0x1104 0 11 = d.g 0x1104 0 11 ∧
        e.out = .mctp 3 0 [] :: d.out) ∧
      (¬ (w = 0 ∨ (600 ≤ w ∧ w ≤ 1650)) → e.fw = d.fw ∧ sameRegsBut [] d e ∧ e.out = .mctp 3 0x02 [] :: d.out)) ∧
  ∀ d : Dev, d.standby.fw.capBmc = 0

/-- While no sanitize runs, a read, a write or a write of zeros of a namespace that is not attached to the controller completes
with Invalid Namespace or Format (0x0B), whatever
it asks: no byte of memory changes, no register, and nothing goes to an SSD. A namespace is attached when it is VALID, is not
being removed, and either ANYHOST is 1 or its HOSTID is the controller's (R401, R402, R416). -/
def Obligations.UnattachedNamespacesAreRefused : Prop :=
  ∀ (d : Dev) (conn cid nsid slba nlb : Nat) (x : NvCtl) (fua : Bool) (data : List Byte), d.hosts conn x true → d.nvt.san < 2 →
    (nsid = 0 ∨ 64 < nsid ∨ d.b (nsReg (nsid - 1) 0x11c) 0 = false ∨ nsid - 1 ∈ d.nvt.removing ∨
      (d.b (nsReg (nsid - 1) 0x11c) 4 = false ∧ d.nsHost (nsid - 1) ≠ x.host)) →
    ∀ c ∈ [Instr.nvmeRead conn cid nsid slba nlb, .nvmeWrite conn cid nsid slba nlb fua true data,
        .nvmeWriteZeroes conn cid nsid slba nlb],
      Does c d ((d.nvTouch x).nvResp conn cid 0x0b 0) ∧ ((d.nvTouch x).nvResp conn cid 0x0b 0).nvt.cmds = d.nvt.cmds ∧
        ((d.nvTouch x).nvResp conn cid 0x0b 0).nvt.out = d.nvt.out ∧
        sameRegsBut [] d ((d.nvTouch x).nvResp conn cid 0x0b 0) ∧ sameMem d ((d.nvTouch x).nvResp conn cid 0x0b 0)

/-- What a store leaves unchanged (R226, R227, R232): on a core no enabled trace buffer names, where its checks pass, the site
stands, its operation meets no error, the granule passes its check, and no snapshot needs its pre-image, a store puts its bytes at the address its checks give;
every other byte of memory and every other granule's check word stand, and so do every core's registers, all of every other
core, the active register banks, the tide, the slack, the coves, the error records, the jobs and what left the device. Counts
and watches of memory may change. -/
def Obligations.StoresChangeOnlyTheirBytes : Prop :=
  ∀ (d : Dev) (i : Fin 37) (c : BitVec 4) (rd ra : BitVec 5) (imm : BitVec 12) (ins : Instr) (n p : Nat) (l : List Byte),
    let r := (d.core i).reg rd
    ((ins, n, l) ∈ [(Instr.stb i c rd ra imm, 1, leBytes (storeVal r) 1), (.sth i c rd ra imm, 2, leBytes (storeVal r) 2),
        (.stw i c rd ra imm, 4, leBytes (storeVal r) 4), (.std i c rd ra imm, 8, leBytes (storeVal r) 8)] ∨
      (ins, n, l) = (.stc i c rd ra imm, 16, sealImage (d.keyOf i) p r) ∧ imm.toNat % 16 = 0 ∨
      (ins, n, l) = (.stt i c rd ra imm, 16, leBytes r.v.toNat 8 ++ [BitVec.ofNat 8 r.tag] ++ List.replicate 7 0) ∧
        32 ≤ i.val) →
    d.runs i c → d.tbOf i = none → d.canStore i ((d.core i).reg ra) (imm.signExtend 64) n n p → d.siteFailed p = false →
    d.meets p = [] → d.mark (p / 256) ≠ .bad → d.ckp.gran.get (fun _ => 0) (p / 65536) ≠ 1 → d.ckp.copying = [] →
    ∃ e, Does ins d e ∧ e.bytes p n = l ∧ (∀ x, (x < p ∨ p + n ≤ x) → e.byteAt x = d.byteAt x) ∧
      (∀ g, g ≠ p / 256 → e.mark g = d.mark g) ∧ (∀ j, j ≠ i.val → e.core j = d.core j) ∧
      (∀ q, (e.core i).reg q = (d.core i).reg q) ∧ e.bank = d.bank ∧ e.tide = d.tide ∧ e.slack = d.slack ∧
      e.coves = d.coves ∧ e.err = d.err ∧ e.xc = d.xc ∧ e.out = d.out

/-- The other forms of the arithmetic instructions complete too: the rest of the FPU functions, arithmetic and comparison of
address and TIDE values, the comparison of integers, and operations with a POISON operand, whose result is POISON and which
change no flag but T (R225, R228, R234, R235). -/
def Obligations.OtherArithmeticFormsComplete : Prop :=
  ∀ (d : Dev) (i : Fin 37) (c : BitVec 4) (rd ra rb : BitVec 5),
    let k := d.core i
    let a := k.reg ra
    let b := k.reg rb
    let x := d64 a.v
    let y := d64 b.v
    let fpu (n : Nat) (v : DWord) (t : Nat) : Prop :=
      Does (.fpu i c rd ra rb (BitVec.ofNat 7 n)) d ((d.issuing i c).retireWith i (k.setReg rd v t))
    let alu (fn : BitVec 7) (k1 : Core) : Prop := Does (.alu i c rd ra rb fn) d ((d.issuing i c).retireWith i k1)
    let flags (fn : BitVec 7) (fl : NZCV) : Core := if 64 ≤ fn.toNat then k.setFlags fl true else k
    d.runs i c →
    (a.tag = tFP → rb = 0 → fpu 0x04 (e64 x.sqrt) tFP ∧ fpu 0x09 (e64 x.neg) tFP ∧ fpu 0x0a (e64 (absFV x)) tFP ∧
      fpu 0x0c (ftoi a.v) tINT) ∧
    (a.tag = tINT → rb = 0 → fpu 0x0b (e64 (.fin a.v.msb a.v.toInt.natAbs 0)) tFP) ∧
    (a.tag = tFP → b.tag = tFP → fpu 0x06 (fpPick true a.v b.v) tFP ∧ fpu 0x07 (fpPick false a.v b.v) tFP ∧
      ((k.reg rd).tag = tFP → fpu 0x05 (e64 ((d64 (k.reg rd).v).add (x.mul y))) tFP) ∧
      (rd = 0 → Does (.fpu i c rd ra rb 0x08) d
        ((d.issuing i c).retireWith i (k.setFlags (fcmpFlags a.v b.v) true)))) ∧
    (∀ f, f2tFormat b.v.toNat = some f → b.tag = tINT →
      (a.tag = tFP → fpu 0x0d (BitVec.ofNat 64 (encElem (b.v.toNat % 32) x (bitN b.v.toNat 5) none).code) tINT) ∧
      (a.tag = tINT → fpu 0x0e (e64 (f.dec (a.v.toNat % 2 ^ elemBits (b.v.toNat % 32)))) tFP)) ∧
    (∀ (fn : BitVec 7) (r : DWord) (fl : NZCV), aluOp (fn.toNat % 64) a.v b.v = some (r, fl) →
      (fn.toNat % 64 ∈ [0, 1] → isAddrTag a.tag = true → b.tag = tINT → ∀ v,
        withAdr a.tag a.v (adrPlus a.tag a.v (if fn.toNat % 64 = 0 then b.v else -b.v)) = some v →
        alu fn ((flags fn { fl with n := v.msb, z := v == 0 }).setReg rd v a.tag)) ∧
      (fn.toNat % 64 = 1 → isAddrTag a.tag = true → a.tag = b.tag →
        alu fn ((flags fn (subFlags (BitVec.ofNat 64 (adrOf a.tag a.v)) (BitVec.ofNat 64 (adrOf b.tag b.v)))).setReg rd
          (BitVec.ofNat 64 (adrOf a.tag a.v) - BitVec.ofNat 64 (adrOf b.tag b.v)) tINT)) ∧
      (fn.toNat % 64 = 0x13 → rd = 0 → a.tag = b.tag → (a.tag = tINT ∨ a.tag = tTIDE → alu fn (k.setFlags fl true)) ∧
        (isAddrTag a.tag = true → alu fn
          (k.setFlags (subFlags (BitVec.ofNat 64 (adrOf a.tag a.v)) (BitVec.ofNat 64 (adrOf b.tag b.v))) true))) ∧
      (fn.toNat % 64 ≠ 0x13 → (fn.toNat % 64 ∈ [0x14, 0x15] → rb = 0) → a.tag = tPOISON ∨ b.tag = tPOISON →
        alu fn ((if 64 ≤ fn.toNat then { k with t := false } else k).setReg rd r tPOISON)))

/-- An Emham packet as bytes: every field of the header stands at its offset of Table 14.1 with its most significant byte first,
and behind it, in a WRITE and a READ_REQ alone, every field of the remote extension at its offset of Table 14.2; then the
payload. And a receiver reads from these bytes the packet that was sent, whatever the values of its fields (R6, R371). -/
def Obligations.PacketsAreBigEndianBytes : Prop :=
  ∀ k : EmhPkt, k.ver < 2 ^ 4 → k.op < 2 ^ 4 → k.path < 2 ^ 3 → k.epoch < 2 ^ 8 → k.domain < 2 ^ 16 → k.sdev < 2 ^ 10 →
    k.ddev < 2 ^ 10 → k.dconn < 2 ^ 16 → k.sconn < 2 ^ 16 → k.psn < 2 ^ 32 → k.msn < 2 ^ 32 → k.offset < 2 ^ 32 →
    k.mlen < 2 ^ 32 → k.rkey < 2 ^ 32 → k.raddr < 2 ^ 64 → k.rlen < 2 ^ 32 → k.payload.length ≤ 4096 →
    let remote := k.op = 2 ∨ k.op = 3
    let header := [(0, 1, k.ver * 16 + k.op), (1, 1, b2n k.poison + 2 * b2n k.retx), (2, 1, k.path), (3, 1, k.epoch),
      (4, 2, k.domain), (6, 2, k.sdev), (8, 2, k.ddev), (10, 2, k.dconn), (12, 2, k.sconn), (14, 2, k.payload.length),
      (16, 4, k.psn), (20, 4, k.msn), (24, 4, k.offset), (28, 4, k.mlen)]
    let extension := [(32, 4, k.rkey), (36, 8, k.raddr), (44, 4, k.rlen)]
    (∀ f ∈ if remote then header ++ extension else header, ∀ i, i < f.2.1 →
      (pktWire k)[f.1 + i]? = some (BitVec.ofNat 8 (f.2.2 / 256 ^ (f.2.1 - 1 - i)))) ∧
    (pktWire k).drop (if remote then 48 else 32) = k.payload ∧
    pktReceived k = if remote then k else { k with rkey := 0, raddr := 0, rlen := 0 }
end

