-- ==== Sys2Proof/Laws/Map.lean ====
section
/-!
SUPPORT. Laws/Map.lean: what sparse maps read as after a write and after folding, and that folding gives the canonical form.
-/
namespace Sys2Proof.Machine

variable {β : Type}

/-- Read after write. -/
@[simp] theorem Map.get_nil (d : Nat → β) (k : Nat) : Map.get d [] k = d k := rfl

theorem Map.get_cons (d : Nat → β) (c : Nat × β) (m : Map β) (k : Nat) :
    Map.get d (c :: m) k = if c.1 = k then c.2 else Map.get d m k := rfl

theorem Map.get_put (d : Nat → β) (m : Map β) (j k : Nat) (v : β) :
    (m.put j v).get d k = if j = k then v else m.get d k := rfl

@[simp] theorem Map.get_put_same (d : Nat → β) (m : Map β) (k : Nat) (v : β) : (m.put k v).get d k = v := by
  simp [Map.get_put]

theorem Map.get_put_other (d : Nat → β) (m : Map β) {j k : Nat} (v : β) (h : j ≠ k) : (m.put j v).get d k = m.get d k := by
  simp [Map.get_put, h]

/-- A byte of a list written at consecutive keys. -/
theorem Map.get_putList_outside (d : Nat → β) (l : List β) : ∀ (m : Map β) (a k : Nat), (k < a ∨ a + l.length ≤ k) →
    (m.putList a l).get d k = m.get d k := by
  induction l with
  | nil => intro m a k _; rfl
  | cons v t ih =>
    intro m a k h
    simp only [List.length_cons] at h
    rw [Map.putList, ih (m.put a v) (a + 1) k (by omega), Map.get_put_other d m v (by omega)]

variable [DecidableEq β]

/-- A canonical list that rises from above `lo` gives no value below. -/
theorem Map.get_of_le (d : Nat → β) : ∀ (m : Map β) (lo k : Nat), Map.wfFrom d (some lo) m = true → k ≤ lo →
    m.get d k = d k
  | [], _, _, _, _ => rfl
  | (j, v) :: t, lo, k, h, hk => by
    simp only [Map.wfFrom, Bool.and_eq_true, decide_eq_true_eq] at h
    rw [Map.get_cons, if_neg (by simp; omega)]
    exact Map.get_of_le d t j k h.2 (by omega)

/-- A bound from below may be lowered. -/
theorem Map.wfFrom_mono (d : Nat → β) {lo lo' : Nat} (hl : lo' ≤ lo) : ∀ {m : Map β}, Map.wfFrom d (some lo) m = true →
    Map.wfFrom d (some lo') m = true
  | [], _ => rfl
  | (j, v) :: t, h => by
    simp only [Map.wfFrom, Bool.and_eq_true, decide_eq_true_eq] at h ⊢
    exact ⟨⟨by omega, h.1.2⟩, h.2⟩

theorem Map.wfFrom_none (d : Nat → β) {lo : Nat} : ∀ {m : Map β}, Map.wfFrom d (some lo) m = true → Map.wfFrom d none m = true
  | [], _ => rfl
  | (j, v) :: t, h => by
    simp only [Map.wfFrom, Bool.and_eq_true, decide_eq_true_eq] at h ⊢
    exact ⟨⟨trivial, h.1.2⟩, h.2⟩

/-- An insertion above `lo` keeps the form above `lo`. -/
theorem Map.wfFrom_ins (d : Nat → β) (k : Nat) (v : β) : ∀ (m : Map β) (lo : Nat), lo < k → Map.wfFrom d (some lo) m = true →
    Map.wfFrom d (some lo) (Map.ins d k v m) = true
  | [], lo, hk, _ => by
    unfold Map.ins; split
    · rfl
    · rename_i hv; simp [Map.wfFrom, hk, hv]
  | (j, u) :: t, lo, hk, h => by
    have h' := h
    simp only [Map.wfFrom, Bool.and_eq_true, decide_eq_true_eq] at h
    unfold Map.ins
    split
    · split
      · exact h'
      · rename_i hkj hv; simp [Map.wfFrom, hk, hv, hkj, h.1.2, h.2]
    · split
      · rename_i hkj
        split
        · exact Map.wfFrom_mono d (by omega) (hkj ▸ h.2)
        · rename_i hv; simp [Map.wfFrom, hk, hv, hkj ▸ h.2]
      · have := Map.wfFrom_ins d k v t j (by omega) h.2
        simp [Map.wfFrom, h.1.1, h.1.2, this]

theorem Map.wf_ins (d : Nat → β) (k : Nat) (v : β) (m : Map β) (h : m.wf d = true) : (Map.ins d k v m).wf d = true := by
  match m, h with
  | [], _ =>
    unfold Map.ins; split
    · rfl
    · rename_i hv; simp [Map.wf, Map.wfFrom, hv]
  | (j, u) :: t, h =>
    have h' := h
    simp only [Map.wf, Map.wfFrom, Bool.and_eq_true, decide_eq_true_eq] at h
    unfold Map.ins
    split
    · split
      · exact h'
      · rename_i hkj hv; simp [Map.wf, Map.wfFrom, hv, hkj, h.1.2, h.2]
    · split
      · rename_i hkj
        split
        · exact Map.wfFrom_none d (hkj ▸ h.2)
        · rename_i hv; simp [Map.wf, Map.wfFrom, hv, hkj ▸ h.2]
      · have := Map.wfFrom_ins d k v t j (by omega) h.2
        simp [Map.wf, Map.wfFrom, h.1.2, this]

theorem Map.get_ins_from (d : Nat → β) (k : Nat) (v : β) : ∀ (m : Map β) (lo : Nat), Map.wfFrom d (some lo) m = true →
    ∀ i, (Map.ins d k v m).get d i = if k = i then v else m.get d i
  | [], lo, _, i => by
    unfold Map.ins; split
    · rename_i hv; split
      · rename_i hi; subst hi; simp [hv]
      · rfl
    · rfl
  | (j, u) :: t, lo, h, i => by
    simp only [Map.wfFrom, Bool.and_eq_true, decide_eq_true_eq] at h
    unfold Map.ins
    split
    · rename_i hkj
      split
      · rename_i hv; split
        · rename_i hi; subst hi
          rw [Map.get_cons, if_neg (by simp; omega), Map.get_of_le d t j k h.2 (by omega), hv]
        · rfl
      · rfl
    · split
      · rename_i hkj; subst hkj
        split
        · rename_i hv; split
          · rename_i hi; subst hi; rw [Map.get_of_le d t k k h.2 (Nat.le_refl _), hv]
          · rename_i hi; simp [Map.get_cons, hi]
        · simp only [Map.get_cons]; split <;> rfl
      · simp only [Map.get_cons]
        rw [Map.get_ins_from d k v t j h.2 i]
        split
        · rename_i hj
          have hj' : j = i := hj
          rw [if_neg (by omega)]
        · rfl

theorem Map.get_ins (d : Nat → β) (k : Nat) (v : β) (m : Map β) (h : m.wf d = true) (i : Nat) :
    (Map.ins d k v m).get d i = if k = i then v else m.get d i := by
  match m, h with
  | [], _ => exact Map.get_ins_from d k v [] 0 rfl i
  | (j, u) :: t, h =>
    simp only [Map.wf, Map.wfFrom, Bool.and_eq_true, decide_eq_true_eq] at h
    by_cases hj : 0 < j
    · exact Map.get_ins_from d k v ((j, u) :: t) 0 (by simp [Map.wfFrom, hj, h.1.2, h.2]) i
    · have hj0 : j = 0 := by omega
      subst hj0
      by_cases hk : k = 0
      · subst hk
        unfold Map.ins
        simp only [Nat.lt_irrefl, if_false, if_true]
        split
        · rename_i hv; split
          · rename_i hi; subst hi; rw [Map.get_of_le d t 0 0 h.2 (Nat.le_refl _), hv]
          · rename_i hi; simp [Map.get_cons, hi]
        · simp only [Map.get_cons]; split <;> rfl
      · unfold Map.ins
        rw [if_neg (by omega), if_neg hk, Map.get_cons, Map.get_cons, Map.get_ins_from d k v t 0 h.2 i]
        split
        · rename_i hi
          have hi' : (0 : Nat) = i := hi
          rw [if_neg (by omega)]
        · rfl

/-- Folding gives the canonical form. -/
theorem Map.wf_canon (d : Nat → β) (m : Map β) : (Map.canon d m).wf d = true := by
  induction m with
  | nil => rfl
  | cons c t ih => exact Map.wf_ins d c.1 c.2 _ ih

/-- Folding changes nothing that is read. -/
@[simp] theorem Map.get_canon (d : Nat → β) (m : Map β) (k : Nat) : (Map.canon d m).get d k = m.get d k := by
  induction m with
  | nil => rfl
  | cons c t ih =>
    have : Map.canon d (c :: t) = Map.ins d c.1 c.2 (Map.canon d t) := rfl
    rw [this, Map.get_ins d c.1 c.2 _ (Map.wf_canon d t), ih, Map.get_cons]

end Sys2Proof.Machine
end

