-- ==== Sys2Proof/Laws/State.lean ====
section
/-!
SUPPORT. Laws/State.lean: what every update of the device leaves as it was, one lemma per update and component; what a
register reads after it; and what follows a command's effect.
-/
namespace Sys2Proof.Machine

variable (d : Dev)

/-! ### Registers -/

@[simp] theorem Dev.wr_bank (k : Nat) (v : Word) : (d.wr k v).bank = d.bank := rfl
@[simp] theorem Dev.wr_latch (k : Nat) (v : Word) : (d.wr k v).latch = d.latch := rfl
@[simp] theorem Dev.wr_mem (k : Nat) (v : Word) : (d.wr k v).mem = d.mem := rfl
@[simp] theorem Dev.wr_marks (k : Nat) (v : Word) : (d.wr k v).marks = d.marks := rfl
@[simp] theorem Dev.wr_commits (k : Nat) (v : Word) : (d.wr k v).commits = d.commits := rfl
@[simp] theorem Dev.wr_tide (k : Nat) (v : Word) : (d.wr k v).tide = d.tide := rfl
@[simp] theorem Dev.wr_slack (k : Nat) (v : Word) : (d.wr k v).slack = d.slack := rfl
@[simp] theorem Dev.wr_err (k : Nat) (v : Word) : (d.wr k v).err = d.err := rfl
@[simp] theorem Dev.wr_fw (k : Nat) (v : Word) : (d.wr k v).fw = d.fw := rfl
@[simp] theorem Dev.wr_coves (k : Nat) (v : Word) : (d.wr k v).coves = d.coves := rfl
@[simp] theorem Dev.wr_cores (k : Nat) (v : Word) : (d.wr k v).cores = d.cores := rfl
@[simp] theorem Dev.wr_port (k : Nat) (v : Word) : (d.wr k v).port = d.port := rfl
@[simp] theorem Dev.wr_ckp (k : Nat) (v : Word) : (d.wr k v).ckp = d.ckp := rfl
@[simp] theorem Dev.wr_emh (k : Nat) (v : Word) : (d.wr k v).emh = d.emh := rfl
@[simp] theorem Dev.wr_tsq (k : Nat) (v : Word) : (d.wr k v).tsq = d.tsq := rfl
@[simp] theorem Dev.wr_net (k : Nat) (v : Word) : (d.wr k v).net = d.net := rfl
@[simp] theorem Dev.wr_nvt (k : Nat) (v : Word) : (d.wr k v).nvt = d.nvt := rfl
@[simp] theorem Dev.wr_trc (k : Nat) (v : Word) : (d.wr k v).trc = d.trc := rfl
@[simp] theorem Dev.wr_xc (k : Nat) (v : Word) : (d.wr k v).xc = d.xc := rfl
@[simp] theorem Dev.wr_xch (k : Nat) (v : Word) : (d.wr k v).xch = d.xch := rfl
@[simp] theorem Dev.wr_dma (k : Nat) (v : Word) : (d.wr k v).dma = d.dma := rfl
@[simp] theorem Dev.wr_sec (k : Nat) (v : Word) : (d.wr k v).sec = d.sec := rfl
@[simp] theorem Dev.wr_pwr (k : Nat) (v : Word) : (d.wr k v).pwr = d.pwr := rfl
@[simp] theorem Dev.wr_scrub (k : Nat) (v : Word) : (d.wr k v).scrub = d.scrub := rfl
@[simp] theorem Dev.wr_retrained (k : Nat) (v : Word) : (d.wr k v).retrained = d.retrained := rfl
@[simp] theorem Dev.wr_dieRetries (k : Nat) (v : Word) : (d.wr k v).dieRetries = d.dieRetries := rfl
@[simp] theorem Dev.wr_vclk (k : Nat) (v : Word) : (d.wr k v).vclk = d.vclk := rfl
@[simp] theorem Dev.wr_msixPend (k : Nat) (v : Word) : (d.wr k v).msixPend = d.msixPend := rfl
@[simp] theorem Dev.wr_trclk (k : Nat) (v : Word) : (d.wr k v).trclk = d.trclk := rfl
@[simp] theorem Dev.wr_irqPend (k : Nat) (v : Word) : (d.wr k v).irqPend = d.irqPend := rfl
@[simp] theorem Dev.wr_fresh (k : Nat) (v : Word) : (d.wr k v).fresh = d.fresh := rfl
@[simp] theorem Dev.wr_out (k : Nat) (v : Word) : (d.wr k v).out = d.out := rfl

@[simp] theorem Dev.s_bank (k lo w v : Nat) : (d.s k lo w v).bank = d.bank := rfl
@[simp] theorem Dev.s_latch (k lo w v : Nat) : (d.s k lo w v).latch = d.latch := rfl
@[simp] theorem Dev.s_mem (k lo w v : Nat) : (d.s k lo w v).mem = d.mem := rfl
@[simp] theorem Dev.s_marks (k lo w v : Nat) : (d.s k lo w v).marks = d.marks := rfl
@[simp] theorem Dev.s_commits (k lo w v : Nat) : (d.s k lo w v).commits = d.commits := rfl
@[simp] theorem Dev.s_tide (k lo w v : Nat) : (d.s k lo w v).tide = d.tide := rfl
@[simp] theorem Dev.s_slack (k lo w v : Nat) : (d.s k lo w v).slack = d.slack := rfl
@[simp] theorem Dev.s_err (k lo w v : Nat) : (d.s k lo w v).err = d.err := rfl
@[simp] theorem Dev.s_fw (k lo w v : Nat) : (d.s k lo w v).fw = d.fw := rfl
@[simp] theorem Dev.s_coves (k lo w v : Nat) : (d.s k lo w v).coves = d.coves := rfl
@[simp] theorem Dev.s_cores (k lo w v : Nat) : (d.s k lo w v).cores = d.cores := rfl
@[simp] theorem Dev.s_port (k lo w v : Nat) : (d.s k lo w v).port = d.port := rfl
@[simp] theorem Dev.s_ckp (k lo w v : Nat) : (d.s k lo w v).ckp = d.ckp := rfl
@[simp] theorem Dev.s_emh (k lo w v : Nat) : (d.s k lo w v).emh = d.emh := rfl
@[simp] theorem Dev.s_tsq (k lo w v : Nat) : (d.s k lo w v).tsq = d.tsq := rfl
@[simp] theorem Dev.s_net (k lo w v : Nat) : (d.s k lo w v).net = d.net := rfl
@[simp] theorem Dev.s_nvt (k lo w v : Nat) : (d.s k lo w v).nvt = d.nvt := rfl
@[simp] theorem Dev.s_trc (k lo w v : Nat) : (d.s k lo w v).trc = d.trc := rfl
@[simp] theorem Dev.s_xc (k lo w v : Nat) : (d.s k lo w v).xc = d.xc := rfl
@[simp] theorem Dev.s_xch (k lo w v : Nat) : (d.s k lo w v).xch = d.xch := rfl
@[simp] theorem Dev.s_dma (k lo w v : Nat) : (d.s k lo w v).dma = d.dma := rfl
@[simp] theorem Dev.s_sec (k lo w v : Nat) : (d.s k lo w v).sec = d.sec := rfl
@[simp] theorem Dev.s_pwr (k lo w v : Nat) : (d.s k lo w v).pwr = d.pwr := rfl
@[simp] theorem Dev.s_scrub (k lo w v : Nat) : (d.s k lo w v).scrub = d.scrub := rfl
@[simp] theorem Dev.s_retrained (k lo w v : Nat) : (d.s k lo w v).retrained = d.retrained := rfl
@[simp] theorem Dev.s_dieRetries (k lo w v : Nat) : (d.s k lo w v).dieRetries = d.dieRetries := rfl
@[simp] theorem Dev.s_vclk (k lo w v : Nat) : (d.s k lo w v).vclk = d.vclk := rfl
@[simp] theorem Dev.s_msixPend (k lo w v : Nat) : (d.s k lo w v).msixPend = d.msixPend := rfl
@[simp] theorem Dev.s_trclk (k lo w v : Nat) : (d.s k lo w v).trclk = d.trclk := rfl
@[simp] theorem Dev.s_irqPend (k lo w v : Nat) : (d.s k lo w v).irqPend = d.irqPend := rfl
@[simp] theorem Dev.s_fresh (k lo w v : Nat) : (d.s k lo w v).fresh = d.fresh := rfl
@[simp] theorem Dev.s_out (k lo w v : Nat) : (d.s k lo w v).out = d.out := rfl

@[simp] theorem Dev.sb_bank (k i : Nat) (v : Bool) : (d.sb k i v).bank = d.bank := rfl
@[simp] theorem Dev.sb_latch (k i : Nat) (v : Bool) : (d.sb k i v).latch = d.latch := rfl
@[simp] theorem Dev.sb_mem (k i : Nat) (v : Bool) : (d.sb k i v).mem = d.mem := rfl
@[simp] theorem Dev.sb_marks (k i : Nat) (v : Bool) : (d.sb k i v).marks = d.marks := rfl
@[simp] theorem Dev.sb_commits (k i : Nat) (v : Bool) : (d.sb k i v).commits = d.commits := rfl
@[simp] theorem Dev.sb_tide (k i : Nat) (v : Bool) : (d.sb k i v).tide = d.tide := rfl
@[simp] theorem Dev.sb_slack (k i : Nat) (v : Bool) : (d.sb k i v).slack = d.slack := rfl
@[simp] theorem Dev.sb_err (k i : Nat) (v : Bool) : (d.sb k i v).err = d.err := rfl
@[simp] theorem Dev.sb_fw (k i : Nat) (v : Bool) : (d.sb k i v).fw = d.fw := rfl
@[simp] theorem Dev.sb_coves (k i : Nat) (v : Bool) : (d.sb k i v).coves = d.coves := rfl
@[simp] theorem Dev.sb_cores (k i : Nat) (v : Bool) : (d.sb k i v).cores = d.cores := rfl
@[simp] theorem Dev.sb_port (k i : Nat) (v : Bool) : (d.sb k i v).port = d.port := rfl
@[simp] theorem Dev.sb_ckp (k i : Nat) (v : Bool) : (d.sb k i v).ckp = d.ckp := rfl
@[simp] theorem Dev.sb_emh (k i : Nat) (v : Bool) : (d.sb k i v).emh = d.emh := rfl
@[simp] theorem Dev.sb_tsq (k i : Nat) (v : Bool) : (d.sb k i v).tsq = d.tsq := rfl
@[simp] theorem Dev.sb_net (k i : Nat) (v : Bool) : (d.sb k i v).net = d.net := rfl
@[simp] theorem Dev.sb_nvt (k i : Nat) (v : Bool) : (d.sb k i v).nvt = d.nvt := rfl
@[simp] theorem Dev.sb_trc (k i : Nat) (v : Bool) : (d.sb k i v).trc = d.trc := rfl
@[simp] theorem Dev.sb_xc (k i : Nat) (v : Bool) : (d.sb k i v).xc = d.xc := rfl
@[simp] theorem Dev.sb_xch (k i : Nat) (v : Bool) : (d.sb k i v).xch = d.xch := rfl
@[simp] theorem Dev.sb_dma (k i : Nat) (v : Bool) : (d.sb k i v).dma = d.dma := rfl
@[simp] theorem Dev.sb_sec (k i : Nat) (v : Bool) : (d.sb k i v).sec = d.sec := rfl
@[simp] theorem Dev.sb_pwr (k i : Nat) (v : Bool) : (d.sb k i v).pwr = d.pwr := rfl
@[simp] theorem Dev.sb_scrub (k i : Nat) (v : Bool) : (d.sb k i v).scrub = d.scrub := rfl
@[simp] theorem Dev.sb_retrained (k i : Nat) (v : Bool) : (d.sb k i v).retrained = d.retrained := rfl
@[simp] theorem Dev.sb_dieRetries (k i : Nat) (v : Bool) : (d.sb k i v).dieRetries = d.dieRetries := rfl
@[simp] theorem Dev.sb_vclk (k i : Nat) (v : Bool) : (d.sb k i v).vclk = d.vclk := rfl
@[simp] theorem Dev.sb_msixPend (k i : Nat) (v : Bool) : (d.sb k i v).msixPend = d.msixPend := rfl
@[simp] theorem Dev.sb_trclk (k i : Nat) (v : Bool) : (d.sb k i v).trclk = d.trclk := rfl
@[simp] theorem Dev.sb_irqPend (k i : Nat) (v : Bool) : (d.sb k i v).irqPend = d.irqPend := rfl
@[simp] theorem Dev.sb_fresh (k i : Nat) (v : Bool) : (d.sb k i v).fresh = d.fresh := rfl
@[simp] theorem Dev.sb_out (k i : Nat) (v : Bool) : (d.sb k i v).out = d.out := rfl

@[simp] theorem Dev.incBy_bank (k n : Nat) : (d.incBy k n).bank = d.bank := rfl
@[simp] theorem Dev.incBy_latch (k n : Nat) : (d.incBy k n).latch = d.latch := rfl
@[simp] theorem Dev.incBy_mem (k n : Nat) : (d.incBy k n).mem = d.mem := rfl
@[simp] theorem Dev.incBy_marks (k n : Nat) : (d.incBy k n).marks = d.marks := rfl
@[simp] theorem Dev.incBy_commits (k n : Nat) : (d.incBy k n).commits = d.commits := rfl
@[simp] theorem Dev.incBy_tide (k n : Nat) : (d.incBy k n).tide = d.tide := rfl
@[simp] theorem Dev.incBy_slack (k n : Nat) : (d.incBy k n).slack = d.slack := rfl
@[simp] theorem Dev.incBy_err (k n : Nat) : (d.incBy k n).err = d.err := rfl
@[simp] theorem Dev.incBy_fw (k n : Nat) : (d.incBy k n).fw = d.fw := rfl
@[simp] theorem Dev.incBy_coves (k n : Nat) : (d.incBy k n).coves = d.coves := rfl
@[simp] theorem Dev.incBy_cores (k n : Nat) : (d.incBy k n).cores = d.cores := rfl
@[simp] theorem Dev.incBy_port (k n : Nat) : (d.incBy k n).port = d.port := rfl
@[simp] theorem Dev.incBy_ckp (k n : Nat) : (d.incBy k n).ckp = d.ckp := rfl
@[simp] theorem Dev.incBy_emh (k n : Nat) : (d.incBy k n).emh = d.emh := rfl
@[simp] theorem Dev.incBy_tsq (k n : Nat) : (d.incBy k n).tsq = d.tsq := rfl
@[simp] theorem Dev.incBy_net (k n : Nat) : (d.incBy k n).net = d.net := rfl
@[simp] theorem Dev.incBy_nvt (k n : Nat) : (d.incBy k n).nvt = d.nvt := rfl
@[simp] theorem Dev.incBy_trc (k n : Nat) : (d.incBy k n).trc = d.trc := rfl
@[simp] theorem Dev.incBy_xc (k n : Nat) : (d.incBy k n).xc = d.xc := rfl
@[simp] theorem Dev.incBy_xch (k n : Nat) : (d.incBy k n).xch = d.xch := rfl
@[simp] theorem Dev.incBy_dma (k n : Nat) : (d.incBy k n).dma = d.dma := rfl
@[simp] theorem Dev.incBy_sec (k n : Nat) : (d.incBy k n).sec = d.sec := rfl
@[simp] theorem Dev.incBy_pwr (k n : Nat) : (d.incBy k n).pwr = d.pwr := rfl
@[simp] theorem Dev.incBy_scrub (k n : Nat) : (d.incBy k n).scrub = d.scrub := rfl
@[simp] theorem Dev.incBy_retrained (k n : Nat) : (d.incBy k n).retrained = d.retrained := rfl
@[simp] theorem Dev.incBy_dieRetries (k n : Nat) : (d.incBy k n).dieRetries = d.dieRetries := rfl
@[simp] theorem Dev.incBy_vclk (k n : Nat) : (d.incBy k n).vclk = d.vclk := rfl
@[simp] theorem Dev.incBy_msixPend (k n : Nat) : (d.incBy k n).msixPend = d.msixPend := rfl
@[simp] theorem Dev.incBy_trclk (k n : Nat) : (d.incBy k n).trclk = d.trclk := rfl
@[simp] theorem Dev.incBy_irqPend (k n : Nat) : (d.incBy k n).irqPend = d.irqPend := rfl
@[simp] theorem Dev.incBy_fresh (k n : Nat) : (d.incBy k n).fresh = d.fresh := rfl
@[simp] theorem Dev.incBy_out (k n : Nat) : (d.incBy k n).out = d.out := rfl

@[simp] theorem Dev.inc_bank (k : Nat) : (d.inc k).bank = d.bank := rfl
@[simp] theorem Dev.inc_latch (k : Nat) : (d.inc k).latch = d.latch := rfl
@[simp] theorem Dev.inc_mem (k : Nat) : (d.inc k).mem = d.mem := rfl
@[simp] theorem Dev.inc_marks (k : Nat) : (d.inc k).marks = d.marks := rfl
@[simp] theorem Dev.inc_commits (k : Nat) : (d.inc k).commits = d.commits := rfl
@[simp] theorem Dev.inc_tide (k : Nat) : (d.inc k).tide = d.tide := rfl
@[simp] theorem Dev.inc_slack (k : Nat) : (d.inc k).slack = d.slack := rfl
@[simp] theorem Dev.inc_err (k : Nat) : (d.inc k).err = d.err := rfl
@[simp] theorem Dev.inc_fw (k : Nat) : (d.inc k).fw = d.fw := rfl
@[simp] theorem Dev.inc_coves (k : Nat) : (d.inc k).coves = d.coves := rfl
@[simp] theorem Dev.inc_cores (k : Nat) : (d.inc k).cores = d.cores := rfl
@[simp] theorem Dev.inc_port (k : Nat) : (d.inc k).port = d.port := rfl
@[simp] theorem Dev.inc_ckp (k : Nat) : (d.inc k).ckp = d.ckp := rfl
@[simp] theorem Dev.inc_emh (k : Nat) : (d.inc k).emh = d.emh := rfl
@[simp] theorem Dev.inc_tsq (k : Nat) : (d.inc k).tsq = d.tsq := rfl
@[simp] theorem Dev.inc_net (k : Nat) : (d.inc k).net = d.net := rfl
@[simp] theorem Dev.inc_nvt (k : Nat) : (d.inc k).nvt = d.nvt := rfl
@[simp] theorem Dev.inc_trc (k : Nat) : (d.inc k).trc = d.trc := rfl
@[simp] theorem Dev.inc_xc (k : Nat) : (d.inc k).xc = d.xc := rfl
@[simp] theorem Dev.inc_xch (k : Nat) : (d.inc k).xch = d.xch := rfl
@[simp] theorem Dev.inc_dma (k : Nat) : (d.inc k).dma = d.dma := rfl
@[simp] theorem Dev.inc_sec (k : Nat) : (d.inc k).sec = d.sec := rfl
@[simp] theorem Dev.inc_pwr (k : Nat) : (d.inc k).pwr = d.pwr := rfl
@[simp] theorem Dev.inc_scrub (k : Nat) : (d.inc k).scrub = d.scrub := rfl
@[simp] theorem Dev.inc_retrained (k : Nat) : (d.inc k).retrained = d.retrained := rfl
@[simp] theorem Dev.inc_dieRetries (k : Nat) : (d.inc k).dieRetries = d.dieRetries := rfl
@[simp] theorem Dev.inc_vclk (k : Nat) : (d.inc k).vclk = d.vclk := rfl
@[simp] theorem Dev.inc_msixPend (k : Nat) : (d.inc k).msixPend = d.msixPend := rfl
@[simp] theorem Dev.inc_trclk (k : Nat) : (d.inc k).trclk = d.trclk := rfl
@[simp] theorem Dev.inc_irqPend (k : Nat) : (d.inc k).irqPend = d.irqPend := rfl
@[simp] theorem Dev.inc_fresh (k : Nat) : (d.inc k).fresh = d.fresh := rfl
@[simp] theorem Dev.inc_out (k : Nat) : (d.inc k).out = d.out := rfl

@[simp] theorem Dev.wr64_bank (k v : Nat) : (d.wr64 k v).bank = d.bank := rfl
@[simp] theorem Dev.wr64_latch (k v : Nat) : (d.wr64 k v).latch = d.latch := rfl
@[simp] theorem Dev.wr64_mem (k v : Nat) : (d.wr64 k v).mem = d.mem := rfl
@[simp] theorem Dev.wr64_marks (k v : Nat) : (d.wr64 k v).marks = d.marks := rfl
@[simp] theorem Dev.wr64_commits (k v : Nat) : (d.wr64 k v).commits = d.commits := rfl
@[simp] theorem Dev.wr64_tide (k v : Nat) : (d.wr64 k v).tide = d.tide := rfl
@[simp] theorem Dev.wr64_slack (k v : Nat) : (d.wr64 k v).slack = d.slack := rfl
@[simp] theorem Dev.wr64_err (k v : Nat) : (d.wr64 k v).err = d.err := rfl
@[simp] theorem Dev.wr64_fw (k v : Nat) : (d.wr64 k v).fw = d.fw := rfl
@[simp] theorem Dev.wr64_coves (k v : Nat) : (d.wr64 k v).coves = d.coves := rfl
@[simp] theorem Dev.wr64_cores (k v : Nat) : (d.wr64 k v).cores = d.cores := rfl
@[simp] theorem Dev.wr64_port (k v : Nat) : (d.wr64 k v).port = d.port := rfl
@[simp] theorem Dev.wr64_ckp (k v : Nat) : (d.wr64 k v).ckp = d.ckp := rfl
@[simp] theorem Dev.wr64_emh (k v : Nat) : (d.wr64 k v).emh = d.emh := rfl
@[simp] theorem Dev.wr64_tsq (k v : Nat) : (d.wr64 k v).tsq = d.tsq := rfl
@[simp] theorem Dev.wr64_net (k v : Nat) : (d.wr64 k v).net = d.net := rfl
@[simp] theorem Dev.wr64_nvt (k v : Nat) : (d.wr64 k v).nvt = d.nvt := rfl
@[simp] theorem Dev.wr64_trc (k v : Nat) : (d.wr64 k v).trc = d.trc := rfl
@[simp] theorem Dev.wr64_xc (k v : Nat) : (d.wr64 k v).xc = d.xc := rfl
@[simp] theorem Dev.wr64_xch (k v : Nat) : (d.wr64 k v).xch = d.xch := rfl
@[simp] theorem Dev.wr64_dma (k v : Nat) : (d.wr64 k v).dma = d.dma := rfl
@[simp] theorem Dev.wr64_sec (k v : Nat) : (d.wr64 k v).sec = d.sec := rfl
@[simp] theorem Dev.wr64_pwr (k v : Nat) : (d.wr64 k v).pwr = d.pwr := rfl
@[simp] theorem Dev.wr64_scrub (k v : Nat) : (d.wr64 k v).scrub = d.scrub := rfl
@[simp] theorem Dev.wr64_retrained (k v : Nat) : (d.wr64 k v).retrained = d.retrained := rfl
@[simp] theorem Dev.wr64_dieRetries (k v : Nat) : (d.wr64 k v).dieRetries = d.dieRetries := rfl
@[simp] theorem Dev.wr64_vclk (k v : Nat) : (d.wr64 k v).vclk = d.vclk := rfl
@[simp] theorem Dev.wr64_msixPend (k v : Nat) : (d.wr64 k v).msixPend = d.msixPend := rfl
@[simp] theorem Dev.wr64_trclk (k v : Nat) : (d.wr64 k v).trclk = d.trclk := rfl
@[simp] theorem Dev.wr64_irqPend (k v : Nat) : (d.wr64 k v).irqPend = d.irqPend := rfl
@[simp] theorem Dev.wr64_fresh (k v : Nat) : (d.wr64 k v).fresh = d.fresh := rfl
@[simp] theorem Dev.wr64_out (k v : Nat) : (d.wr64 k v).out = d.out := rfl

@[simp] theorem Dev.setInt_bank (pg i : Nat) : (d.setInt pg i).bank = d.bank := rfl
@[simp] theorem Dev.setInt_latch (pg i : Nat) : (d.setInt pg i).latch = d.latch := rfl
@[simp] theorem Dev.setInt_mem (pg i : Nat) : (d.setInt pg i).mem = d.mem := rfl
@[simp] theorem Dev.setInt_marks (pg i : Nat) : (d.setInt pg i).marks = d.marks := rfl
@[simp] theorem Dev.setInt_commits (pg i : Nat) : (d.setInt pg i).commits = d.commits := rfl
@[simp] theorem Dev.setInt_tide (pg i : Nat) : (d.setInt pg i).tide = d.tide := rfl
@[simp] theorem Dev.setInt_slack (pg i : Nat) : (d.setInt pg i).slack = d.slack := rfl
@[simp] theorem Dev.setInt_err (pg i : Nat) : (d.setInt pg i).err = d.err := rfl
@[simp] theorem Dev.setInt_fw (pg i : Nat) : (d.setInt pg i).fw = d.fw := rfl
@[simp] theorem Dev.setInt_coves (pg i : Nat) : (d.setInt pg i).coves = d.coves := rfl
@[simp] theorem Dev.setInt_cores (pg i : Nat) : (d.setInt pg i).cores = d.cores := rfl
@[simp] theorem Dev.setInt_port (pg i : Nat) : (d.setInt pg i).port = d.port := rfl
@[simp] theorem Dev.setInt_ckp (pg i : Nat) : (d.setInt pg i).ckp = d.ckp := rfl
@[simp] theorem Dev.setInt_emh (pg i : Nat) : (d.setInt pg i).emh = d.emh := rfl
@[simp] theorem Dev.setInt_tsq (pg i : Nat) : (d.setInt pg i).tsq = d.tsq := rfl
@[simp] theorem Dev.setInt_net (pg i : Nat) : (d.setInt pg i).net = d.net := rfl
@[simp] theorem Dev.setInt_nvt (pg i : Nat) : (d.setInt pg i).nvt = d.nvt := rfl
@[simp] theorem Dev.setInt_trc (pg i : Nat) : (d.setInt pg i).trc = d.trc := rfl
@[simp] theorem Dev.setInt_xc (pg i : Nat) : (d.setInt pg i).xc = d.xc := rfl
@[simp] theorem Dev.setInt_xch (pg i : Nat) : (d.setInt pg i).xch = d.xch := rfl
@[simp] theorem Dev.setInt_dma (pg i : Nat) : (d.setInt pg i).dma = d.dma := rfl
@[simp] theorem Dev.setInt_sec (pg i : Nat) : (d.setInt pg i).sec = d.sec := rfl
@[simp] theorem Dev.setInt_pwr (pg i : Nat) : (d.setInt pg i).pwr = d.pwr := rfl
@[simp] theorem Dev.setInt_scrub (pg i : Nat) : (d.setInt pg i).scrub = d.scrub := rfl
@[simp] theorem Dev.setInt_retrained (pg i : Nat) : (d.setInt pg i).retrained = d.retrained := rfl
@[simp] theorem Dev.setInt_dieRetries (pg i : Nat) : (d.setInt pg i).dieRetries = d.dieRetries := rfl
@[simp] theorem Dev.setInt_vclk (pg i : Nat) : (d.setInt pg i).vclk = d.vclk := rfl
@[simp] theorem Dev.setInt_msixPend (pg i : Nat) : (d.setInt pg i).msixPend = d.msixPend := rfl
@[simp] theorem Dev.setInt_trclk (pg i : Nat) : (d.setInt pg i).trclk = d.trclk := rfl
@[simp] theorem Dev.setInt_irqPend (pg i : Nat) : (d.setInt pg i).irqPend = d.irqPend := rfl
@[simp] theorem Dev.setInt_fresh (pg i : Nat) : (d.setInt pg i).fresh = d.fresh := rfl
@[simp] theorem Dev.setInt_out (pg i : Nat) : (d.setInt pg i).out = d.out := rfl

@[simp] theorem Dev.setErr_bank (pg i : Nat) : (d.setErr pg i).bank = d.bank := by unfold Dev.setErr; dsimp only; split <;> rfl
@[simp] theorem Dev.setErr_latch (pg i : Nat) : (d.setErr pg i).latch = d.latch := by unfold Dev.setErr; dsimp only; split <;> rfl
@[simp] theorem Dev.setErr_mem (pg i : Nat) : (d.setErr pg i).mem = d.mem := by unfold Dev.setErr; dsimp only; split <;> rfl
@[simp] theorem Dev.setErr_marks (pg i : Nat) : (d.setErr pg i).marks = d.marks := by unfold Dev.setErr; dsimp only; split <;> rfl
@[simp] theorem Dev.setErr_commits (pg i : Nat) : (d.setErr pg i).commits = d.commits := by unfold Dev.setErr; dsimp only; split <;> rfl
@[simp] theorem Dev.setErr_tide (pg i : Nat) : (d.setErr pg i).tide = d.tide := by unfold Dev.setErr; dsimp only; split <;> rfl
@[simp] theorem Dev.setErr_slack (pg i : Nat) : (d.setErr pg i).slack = d.slack := by unfold Dev.setErr; dsimp only; split <;> rfl
@[simp] theorem Dev.setErr_err (pg i : Nat) : (d.setErr pg i).err = d.err := by unfold Dev.setErr; dsimp only; split <;> rfl
@[simp] theorem Dev.setErr_fw (pg i : Nat) : (d.setErr pg i).fw = d.fw := by unfold Dev.setErr; dsimp only; split <;> rfl
@[simp] theorem Dev.setErr_coves (pg i : Nat) : (d.setErr pg i).coves = d.coves := by unfold Dev.setErr; dsimp only; split <;> rfl
@[simp] theorem Dev.setErr_cores (pg i : Nat) : (d.setErr pg i).cores = d.cores := by unfold Dev.setErr; dsimp only; split <;> rfl
@[simp] theorem Dev.setErr_port (pg i : Nat) : (d.setErr pg i).port = d.port := by unfold Dev.setErr; dsimp only; split <;> rfl
@[simp] theorem Dev.setErr_ckp (pg i : Nat) : (d.setErr pg i).ckp = d.ckp := by unfold Dev.setErr; dsimp only; split <;> rfl
@[simp] theorem Dev.setErr_emh (pg i : Nat) : (d.setErr pg i).emh = d.emh := by unfold Dev.setErr; dsimp only; split <;> rfl
@[simp] theorem Dev.setErr_tsq (pg i : Nat) : (d.setErr pg i).tsq = d.tsq := by unfold Dev.setErr; dsimp only; split <;> rfl
@[simp] theorem Dev.setErr_net (pg i : Nat) : (d.setErr pg i).net = d.net := by unfold Dev.setErr; dsimp only; split <;> rfl
@[simp] theorem Dev.setErr_nvt (pg i : Nat) : (d.setErr pg i).nvt = d.nvt := by unfold Dev.setErr; dsimp only; split <;> rfl
@[simp] theorem Dev.setErr_trc (pg i : Nat) : (d.setErr pg i).trc = d.trc := by unfold Dev.setErr; dsimp only; split <;> rfl
@[simp] theorem Dev.setErr_xc (pg i : Nat) : (d.setErr pg i).xc = d.xc := by unfold Dev.setErr; dsimp only; split <;> rfl
@[simp] theorem Dev.setErr_xch (pg i : Nat) : (d.setErr pg i).xch = d.xch := by unfold Dev.setErr; dsimp only; split <;> rfl
@[simp] theorem Dev.setErr_dma (pg i : Nat) : (d.setErr pg i).dma = d.dma := by unfold Dev.setErr; dsimp only; split <;> rfl
@[simp] theorem Dev.setErr_sec (pg i : Nat) : (d.setErr pg i).sec = d.sec := by unfold Dev.setErr; dsimp only; split <;> rfl
@[simp] theorem Dev.setErr_pwr (pg i : Nat) : (d.setErr pg i).pwr = d.pwr := by unfold Dev.setErr; dsimp only; split <;> rfl
@[simp] theorem Dev.setErr_scrub (pg i : Nat) : (d.setErr pg i).scrub = d.scrub := by unfold Dev.setErr; dsimp only; split <;> rfl
@[simp] theorem Dev.setErr_retrained (pg i : Nat) : (d.setErr pg i).retrained = d.retrained := by unfold Dev.setErr; dsimp only; split <;> rfl
@[simp] theorem Dev.setErr_dieRetries (pg i : Nat) : (d.setErr pg i).dieRetries = d.dieRetries := by unfold Dev.setErr; dsimp only; split <;> rfl
@[simp] theorem Dev.setErr_vclk (pg i : Nat) : (d.setErr pg i).vclk = d.vclk := by unfold Dev.setErr; dsimp only; split <;> rfl
@[simp] theorem Dev.setErr_msixPend (pg i : Nat) : (d.setErr pg i).msixPend = d.msixPend := by unfold Dev.setErr; dsimp only; split <;> rfl
@[simp] theorem Dev.setErr_trclk (pg i : Nat) : (d.setErr pg i).trclk = d.trclk := by unfold Dev.setErr; dsimp only; split <;> rfl
@[simp] theorem Dev.setErr_irqPend (pg i : Nat) : (d.setErr pg i).irqPend = d.irqPend := by unfold Dev.setErr; dsimp only; split <;> rfl
@[simp] theorem Dev.setErr_fresh (pg i : Nat) : (d.setErr pg i).fresh = d.fresh := by unfold Dev.setErr; dsimp only; split <;> rfl
@[simp] theorem Dev.setErr_out (pg i : Nat) : (d.setErr pg i).out = d.out := by unfold Dev.setErr; dsimp only; split <;> rfl

theorem Dev.rd_wr (k j : Nat) (v : Word) : (d.wr k v).rd j = if k = j then v else d.rd j := rfl
@[simp] theorem Dev.rd_wr_same (k : Nat) (v : Word) : (d.wr k v).rd k = v := by simp [Dev.rd_wr]
theorem Dev.rd_wr_other {k j : Nat} (v : Word) (h : k ≠ j) : (d.wr k v).rd j = d.rd j := by simp [Dev.rd_wr, h]
@[simp] theorem Dev.rd_inc_same (k : Nat) : (d.inc k).rd k = BitVec.ofNat 32 ((d.rd k).toNat + 1) := by
  simp [Dev.inc, Dev.incBy]
theorem Dev.rd_inc_other {k j : Nat} (h : k ≠ j) : (d.inc k).rd j = d.rd j := by simp [Dev.inc, Dev.incBy, Dev.rd_wr, h]
theorem Dev.rd_s_other {k j : Nat} (lo w v : Nat) (h : k ≠ j) : (d.s k lo w v).rd j = d.rd j := by simp [Dev.s, Dev.rd_wr, h]

/-- A component that no step of an iteration changes is not changed by the iteration. -/
theorem Dev.each_proj {α β : Type} (p : Dev → β) (l : List α) (f : α → Dev → Dev) (h : ∀ a e, p (f a e) = p e) :
    p (d.each l f) = p d := by
  induction l generalizing d with
  | nil => rfl
  | cons a t ih => exact (ih (f a d)).trans (h a d)

/-- A property that every step of an iteration keeps is kept by the iteration. -/
theorem Dev.each_keep {α : Type} (P : Dev → Prop) (l : List α) (f : α → Dev → Dev) (h : ∀ a e, P e → P (f a e)) (hd : P d) :
    P (d.each l f) := by
  induction l generalizing d with
  | nil => exact hd
  | cons a t ih => exact ih (f a d) (h a d hd)

@[simp] theorem Dev.each_nil {α : Type} (f : α → Dev → Dev) : d.each [] f = d := rfl
theorem Dev.each_cons {α : Type} (a : α) (t : List α) (f : α → Dev → Dev) : d.each (a :: t) f = (f a d).each t f := rfl
@[simp] theorem Dev.when_true (f : Dev → Dev) : d.when true f = f d := rfl
@[simp] theorem Dev.when_false (f : Dev → Dev) : d.when false f = d := rfl

/-! ### What leaves the device, and interrupts -/

@[simp] theorem Dev.wake_regs (p : Nat) : (d.wake p).regs = d.regs := rfl
@[simp] theorem Dev.wake_bank (p : Nat) : (d.wake p).bank = d.bank := rfl
@[simp] theorem Dev.wake_latch (p : Nat) : (d.wake p).latch = d.latch := rfl
@[simp] theorem Dev.wake_mem (p : Nat) : (d.wake p).mem = d.mem := rfl
@[simp] theorem Dev.wake_marks (p : Nat) : (d.wake p).marks = d.marks := rfl
@[simp] theorem Dev.wake_commits (p : Nat) : (d.wake p).commits = d.commits := rfl
@[simp] theorem Dev.wake_tide (p : Nat) : (d.wake p).tide = d.tide := rfl
@[simp] theorem Dev.wake_slack (p : Nat) : (d.wake p).slack = d.slack := rfl
@[simp] theorem Dev.wake_err (p : Nat) : (d.wake p).err = d.err := rfl
@[simp] theorem Dev.wake_fw (p : Nat) : (d.wake p).fw = d.fw := rfl
@[simp] theorem Dev.wake_coves (p : Nat) : (d.wake p).coves = d.coves := rfl
@[simp] theorem Dev.wake_cores (p : Nat) : (d.wake p).cores = d.cores := rfl
@[simp] theorem Dev.wake_ckp (p : Nat) : (d.wake p).ckp = d.ckp := rfl
@[simp] theorem Dev.wake_emh (p : Nat) : (d.wake p).emh = d.emh := rfl
@[simp] theorem Dev.wake_tsq (p : Nat) : (d.wake p).tsq = d.tsq := rfl
@[simp] theorem Dev.wake_net (p : Nat) : (d.wake p).net = d.net := rfl
@[simp] theorem Dev.wake_nvt (p : Nat) : (d.wake p).nvt = d.nvt := rfl
@[simp] theorem Dev.wake_trc (p : Nat) : (d.wake p).trc = d.trc := rfl
@[simp] theorem Dev.wake_xc (p : Nat) : (d.wake p).xc = d.xc := rfl
@[simp] theorem Dev.wake_xch (p : Nat) : (d.wake p).xch = d.xch := rfl
@[simp] theorem Dev.wake_dma (p : Nat) : (d.wake p).dma = d.dma := rfl
@[simp] theorem Dev.wake_sec (p : Nat) : (d.wake p).sec = d.sec := rfl
@[simp] theorem Dev.wake_pwr (p : Nat) : (d.wake p).pwr = d.pwr := rfl
@[simp] theorem Dev.wake_scrub (p : Nat) : (d.wake p).scrub = d.scrub := rfl
@[simp] theorem Dev.wake_retrained (p : Nat) : (d.wake p).retrained = d.retrained := rfl
@[simp] theorem Dev.wake_dieRetries (p : Nat) : (d.wake p).dieRetries = d.dieRetries := rfl
@[simp] theorem Dev.wake_vclk (p : Nat) : (d.wake p).vclk = d.vclk := rfl
@[simp] theorem Dev.wake_msixPend (p : Nat) : (d.wake p).msixPend = d.msixPend := rfl
@[simp] theorem Dev.wake_trclk (p : Nat) : (d.wake p).trclk = d.trclk := rfl
@[simp] theorem Dev.wake_irqPend (p : Nat) : (d.wake p).irqPend = d.irqPend := rfl
@[simp] theorem Dev.wake_fresh (p : Nat) : (d.wake p).fresh = d.fresh := rfl
@[simp] theorem Dev.wake_out (p : Nat) : (d.wake p).out = d.out := rfl

@[simp] theorem Dev.emit_regs (o : Out) : (d.emit o).regs = d.regs := by unfold Dev.emit; split <;> rfl
@[simp] theorem Dev.emit_bank (o : Out) : (d.emit o).bank = d.bank := by unfold Dev.emit; split <;> rfl
@[simp] theorem Dev.emit_latch (o : Out) : (d.emit o).latch = d.latch := by unfold Dev.emit; split <;> rfl
@[simp] theorem Dev.emit_mem (o : Out) : (d.emit o).mem = d.mem := by unfold Dev.emit; split <;> rfl
@[simp] theorem Dev.emit_marks (o : Out) : (d.emit o).marks = d.marks := by unfold Dev.emit; split <;> rfl
@[simp] theorem Dev.emit_commits (o : Out) : (d.emit o).commits = d.commits := by unfold Dev.emit; split <;> rfl
@[simp] theorem Dev.emit_tide (o : Out) : (d.emit o).tide = d.tide := by unfold Dev.emit; split <;> rfl
@[simp] theorem Dev.emit_slack (o : Out) : (d.emit o).slack = d.slack := by unfold Dev.emit; split <;> rfl
@[simp] theorem Dev.emit_err (o : Out) : (d.emit o).err = d.err := by unfold Dev.emit; split <;> rfl
@[simp] theorem Dev.emit_fw (o : Out) : (d.emit o).fw = d.fw := by unfold Dev.emit; split <;> rfl
@[simp] theorem Dev.emit_coves (o : Out) : (d.emit o).coves = d.coves := by unfold Dev.emit; split <;> rfl
@[simp] theorem Dev.emit_cores (o : Out) : (d.emit o).cores = d.cores := by unfold Dev.emit; split <;> rfl
@[simp] theorem Dev.emit_ckp (o : Out) : (d.emit o).ckp = d.ckp := by unfold Dev.emit; split <;> rfl
@[simp] theorem Dev.emit_emh (o : Out) : (d.emit o).emh = d.emh := by unfold Dev.emit; split <;> rfl
@[simp] theorem Dev.emit_tsq (o : Out) : (d.emit o).tsq = d.tsq := by unfold Dev.emit; split <;> rfl
@[simp] theorem Dev.emit_net (o : Out) : (d.emit o).net = d.net := by unfold Dev.emit; split <;> rfl
@[simp] theorem Dev.emit_nvt (o : Out) : (d.emit o).nvt = d.nvt := by unfold Dev.emit; split <;> rfl
@[simp] theorem Dev.emit_trc (o : Out) : (d.emit o).trc = d.trc := by unfold Dev.emit; split <;> rfl
@[simp] theorem Dev.emit_xc (o : Out) : (d.emit o).xc = d.xc := by unfold Dev.emit; split <;> rfl
@[simp] theorem Dev.emit_xch (o : Out) : (d.emit o).xch = d.xch := by unfold Dev.emit; split <;> rfl
@[simp] theorem Dev.emit_dma (o : Out) : (d.emit o).dma = d.dma := by unfold Dev.emit; split <;> rfl
@[simp] theorem Dev.emit_sec (o : Out) : (d.emit o).sec = d.sec := by unfold Dev.emit; split <;> rfl
@[simp] theorem Dev.emit_pwr (o : Out) : (d.emit o).pwr = d.pwr := by unfold Dev.emit; split <;> rfl
@[simp] theorem Dev.emit_scrub (o : Out) : (d.emit o).scrub = d.scrub := by unfold Dev.emit; split <;> rfl
@[simp] theorem Dev.emit_retrained (o : Out) : (d.emit o).retrained = d.retrained := by unfold Dev.emit; split <;> rfl
@[simp] theorem Dev.emit_dieRetries (o : Out) : (d.emit o).dieRetries = d.dieRetries := by unfold Dev.emit; split <;> rfl
@[simp] theorem Dev.emit_vclk (o : Out) : (d.emit o).vclk = d.vclk := by unfold Dev.emit; split <;> rfl
@[simp] theorem Dev.emit_msixPend (o : Out) : (d.emit o).msixPend = d.msixPend := by unfold Dev.emit; split <;> rfl
@[simp] theorem Dev.emit_trclk (o : Out) : (d.emit o).trclk = d.trclk := by unfold Dev.emit; split <;> rfl
@[simp] theorem Dev.emit_irqPend (o : Out) : (d.emit o).irqPend = d.irqPend := by unfold Dev.emit; split <;> rfl
@[simp] theorem Dev.emit_fresh (o : Out) : (d.emit o).fresh = d.fresh := by unfold Dev.emit; split <;> rfl

@[simp] theorem Dev.msix_regs (v : Nat) : (d.msix v).regs = d.regs := by unfold Dev.msix; dsimp only; (repeat' split) <;> simp
@[simp] theorem Dev.msix_bank (v : Nat) : (d.msix v).bank = d.bank := by unfold Dev.msix; dsimp only; (repeat' split) <;> simp
@[simp] theorem Dev.msix_latch (v : Nat) : (d.msix v).latch = d.latch := by unfold Dev.msix; dsimp only; (repeat' split) <;> simp
@[simp] theorem Dev.msix_mem (v : Nat) : (d.msix v).mem = d.mem := by unfold Dev.msix; dsimp only; (repeat' split) <;> simp
@[simp] theorem Dev.msix_marks (v : Nat) : (d.msix v).marks = d.marks := by unfold Dev.msix; dsimp only; (repeat' split) <;> simp
@[simp] theorem Dev.msix_commits (v : Nat) : (d.msix v).commits = d.commits := by unfold Dev.msix; dsimp only; (repeat' split) <;> simp
@[simp] theorem Dev.msix_tide (v : Nat) : (d.msix v).tide = d.tide := by unfold Dev.msix; dsimp only; (repeat' split) <;> simp
@[simp] theorem Dev.msix_slack (v : Nat) : (d.msix v).slack = d.slack := by unfold Dev.msix; dsimp only; (repeat' split) <;> simp
@[simp] theorem Dev.msix_err (v : Nat) : (d.msix v).err = d.err := by unfold Dev.msix; dsimp only; (repeat' split) <;> simp
@[simp] theorem Dev.msix_fw (v : Nat) : (d.msix v).fw = d.fw := by unfold Dev.msix; dsimp only; (repeat' split) <;> simp
@[simp] theorem Dev.msix_coves (v : Nat) : (d.msix v).coves = d.coves := by unfold Dev.msix; dsimp only; (repeat' split) <;> simp
@[simp] theorem Dev.msix_cores (v : Nat) : (d.msix v).cores = d.cores := by unfold Dev.msix; dsimp only; (repeat' split) <;> simp
@[simp] theorem Dev.msix_ckp (v : Nat) : (d.msix v).ckp = d.ckp := by unfold Dev.msix; dsimp only; (repeat' split) <;> simp
@[simp] theorem Dev.msix_emh (v : Nat) : (d.msix v).emh = d.emh := by unfold Dev.msix; dsimp only; (repeat' split) <;> simp
@[simp] theorem Dev.msix_tsq (v : Nat) : (d.msix v).tsq = d.tsq := by unfold Dev.msix; dsimp only; (repeat' split) <;> simp
@[simp] theorem Dev.msix_net (v : Nat) : (d.msix v).net = d.net := by unfold Dev.msix; dsimp only; (repeat' split) <;> simp
@[simp] theorem Dev.msix_nvt (v : Nat) : (d.msix v).nvt = d.nvt := by unfold Dev.msix; dsimp only; (repeat' split) <;> simp
@[simp] theorem Dev.msix_trc (v : Nat) : (d.msix v).trc = d.trc := by unfold Dev.msix; dsimp only; (repeat' split) <;> simp
@[simp] theorem Dev.msix_xc (v : Nat) : (d.msix v).xc = d.xc := by unfold Dev.msix; dsimp only; (repeat' split) <;> simp
@[simp] theorem Dev.msix_xch (v : Nat) : (d.msix v).xch = d.xch := by unfold Dev.msix; dsimp only; (repeat' split) <;> simp
@[simp] theorem Dev.msix_dma (v : Nat) : (d.msix v).dma = d.dma := by unfold Dev.msix; dsimp only; (repeat' split) <;> simp
@[simp] theorem Dev.msix_sec (v : Nat) : (d.msix v).sec = d.sec := by unfold Dev.msix; dsimp only; (repeat' split) <;> simp
@[simp] theorem Dev.msix_pwr (v : Nat) : (d.msix v).pwr = d.pwr := by unfold Dev.msix; dsimp only; (repeat' split) <;> simp
@[simp] theorem Dev.msix_scrub (v : Nat) : (d.msix v).scrub = d.scrub := by unfold Dev.msix; dsimp only; (repeat' split) <;> simp
@[simp] theorem Dev.msix_retrained (v : Nat) : (d.msix v).retrained = d.retrained := by unfold Dev.msix; dsimp only; (repeat' split) <;> simp
@[simp] theorem Dev.msix_dieRetries (v : Nat) : (d.msix v).dieRetries = d.dieRetries := by unfold Dev.msix; dsimp only; (repeat' split) <;> simp
@[simp] theorem Dev.msix_vclk (v : Nat) : (d.msix v).vclk = d.vclk := by unfold Dev.msix; dsimp only; (repeat' split) <;> simp
@[simp] theorem Dev.msix_trclk (v : Nat) : (d.msix v).trclk = d.trclk := by unfold Dev.msix; dsimp only; (repeat' split) <;> simp
@[simp] theorem Dev.msix_irqPend (v : Nat) : (d.msix v).irqPend = d.irqPend := by unfold Dev.msix; dsimp only; (repeat' split) <;> simp
@[simp] theorem Dev.msix_fresh (v : Nat) : (d.msix v).fresh = d.fresh := by unfold Dev.msix; dsimp only; (repeat' split) <;> simp

@[simp] theorem Dev.vclkSettle_bank : (d.vclkSettle).bank = d.bank := by unfold Dev.vclkSettle; dsimp only; split <;> rfl
@[simp] theorem Dev.vclkSettle_latch : (d.vclkSettle).latch = d.latch := by unfold Dev.vclkSettle; dsimp only; split <;> rfl
@[simp] theorem Dev.vclkSettle_mem : (d.vclkSettle).mem = d.mem := by unfold Dev.vclkSettle; dsimp only; split <;> rfl
@[simp] theorem Dev.vclkSettle_marks : (d.vclkSettle).marks = d.marks := by unfold Dev.vclkSettle; dsimp only; split <;> rfl
@[simp] theorem Dev.vclkSettle_commits : (d.vclkSettle).commits = d.commits := by unfold Dev.vclkSettle; dsimp only; split <;> rfl
@[simp] theorem Dev.vclkSettle_tide : (d.vclkSettle).tide = d.tide := by unfold Dev.vclkSettle; dsimp only; split <;> rfl
@[simp] theorem Dev.vclkSettle_slack : (d.vclkSettle).slack = d.slack := by unfold Dev.vclkSettle; dsimp only; split <;> rfl
@[simp] theorem Dev.vclkSettle_err : (d.vclkSettle).err = d.err := by unfold Dev.vclkSettle; dsimp only; split <;> rfl
@[simp] theorem Dev.vclkSettle_fw : (d.vclkSettle).fw = d.fw := by unfold Dev.vclkSettle; dsimp only; split <;> rfl
@[simp] theorem Dev.vclkSettle_coves : (d.vclkSettle).coves = d.coves := by unfold Dev.vclkSettle; dsimp only; split <;> rfl
@[simp] theorem Dev.vclkSettle_cores : (d.vclkSettle).cores = d.cores := by unfold Dev.vclkSettle; dsimp only; split <;> rfl
@[simp] theorem Dev.vclkSettle_port : (d.vclkSettle).port = d.port := by unfold Dev.vclkSettle; dsimp only; split <;> rfl
@[simp] theorem Dev.vclkSettle_ckp : (d.vclkSettle).ckp = d.ckp := by unfold Dev.vclkSettle; dsimp only; split <;> rfl
@[simp] theorem Dev.vclkSettle_emh : (d.vclkSettle).emh = d.emh := by unfold Dev.vclkSettle; dsimp only; split <;> rfl
@[simp] theorem Dev.vclkSettle_tsq : (d.vclkSettle).tsq = d.tsq := by unfold Dev.vclkSettle; dsimp only; split <;> rfl
@[simp] theorem Dev.vclkSettle_net : (d.vclkSettle).net = d.net := by unfold Dev.vclkSettle; dsimp only; split <;> rfl
@[simp] theorem Dev.vclkSettle_nvt : (d.vclkSettle).nvt = d.nvt := by unfold Dev.vclkSettle; dsimp only; split <;> rfl
@[simp] theorem Dev.vclkSettle_trc : (d.vclkSettle).trc = d.trc := by unfold Dev.vclkSettle; dsimp only; split <;> rfl
@[simp] theorem Dev.vclkSettle_xc : (d.vclkSettle).xc = d.xc := by unfold Dev.vclkSettle; dsimp only; split <;> rfl
@[simp] theorem Dev.vclkSettle_xch : (d.vclkSettle).xch = d.xch := by unfold Dev.vclkSettle; dsimp only; split <;> rfl
@[simp] theorem Dev.vclkSettle_dma : (d.vclkSettle).dma = d.dma := by unfold Dev.vclkSettle; dsimp only; split <;> rfl
@[simp] theorem Dev.vclkSettle_sec : (d.vclkSettle).sec = d.sec := by unfold Dev.vclkSettle; dsimp only; split <;> rfl
@[simp] theorem Dev.vclkSettle_pwr : (d.vclkSettle).pwr = d.pwr := by unfold Dev.vclkSettle; dsimp only; split <;> rfl
@[simp] theorem Dev.vclkSettle_scrub : (d.vclkSettle).scrub = d.scrub := by unfold Dev.vclkSettle; dsimp only; split <;> rfl
@[simp] theorem Dev.vclkSettle_retrained : (d.vclkSettle).retrained = d.retrained := by unfold Dev.vclkSettle; dsimp only; split <;> rfl
@[simp] theorem Dev.vclkSettle_dieRetries : (d.vclkSettle).dieRetries = d.dieRetries := by unfold Dev.vclkSettle; dsimp only; split <;> rfl
@[simp] theorem Dev.vclkSettle_msixPend : (d.vclkSettle).msixPend = d.msixPend := by unfold Dev.vclkSettle; dsimp only; split <;> rfl
@[simp] theorem Dev.vclkSettle_trclk : (d.vclkSettle).trclk = d.trclk := by unfold Dev.vclkSettle; dsimp only; split <;> rfl
@[simp] theorem Dev.vclkSettle_irqPend : (d.vclkSettle).irqPend = d.irqPend := by unfold Dev.vclkSettle; dsimp only; split <;> rfl
@[simp] theorem Dev.vclkSettle_fresh : (d.vclkSettle).fresh = d.fresh := by unfold Dev.vclkSettle; dsimp only; split <;> rfl
@[simp] theorem Dev.vclkSettle_out : (d.vclkSettle).out = d.out := by unfold Dev.vclkSettle; dsimp only; split <;> rfl

@[simp] theorem Dev.ltrSettle_bank : d.ltrSettle.bank = d.bank := d.each_proj (·.bank) _ _ fun _ _ => rfl
@[simp] theorem Dev.ltrSettle_latch : d.ltrSettle.latch = d.latch := d.each_proj (·.latch) _ _ fun _ _ => rfl
@[simp] theorem Dev.ltrSettle_mem : d.ltrSettle.mem = d.mem := d.each_proj (·.mem) _ _ fun _ _ => rfl
@[simp] theorem Dev.ltrSettle_marks : d.ltrSettle.marks = d.marks := d.each_proj (·.marks) _ _ fun _ _ => rfl
@[simp] theorem Dev.ltrSettle_commits : d.ltrSettle.commits = d.commits := d.each_proj (·.commits) _ _ fun _ _ => rfl
@[simp] theorem Dev.ltrSettle_tide : d.ltrSettle.tide = d.tide := d.each_proj (·.tide) _ _ fun _ _ => rfl
@[simp] theorem Dev.ltrSettle_slack : d.ltrSettle.slack = d.slack := d.each_proj (·.slack) _ _ fun _ _ => rfl
@[simp] theorem Dev.ltrSettle_err : d.ltrSettle.err = d.err := d.each_proj (·.err) _ _ fun _ _ => rfl
@[simp] theorem Dev.ltrSettle_fw : d.ltrSettle.fw = d.fw := d.each_proj (·.fw) _ _ fun _ _ => rfl
@[simp] theorem Dev.ltrSettle_coves : d.ltrSettle.coves = d.coves := d.each_proj (·.coves) _ _ fun _ _ => rfl
@[simp] theorem Dev.ltrSettle_cores : d.ltrSettle.cores = d.cores := d.each_proj (·.cores) _ _ fun _ _ => rfl
@[simp] theorem Dev.ltrSettle_ckp : d.ltrSettle.ckp = d.ckp := d.each_proj (·.ckp) _ _ fun _ _ => rfl
@[simp] theorem Dev.ltrSettle_emh : d.ltrSettle.emh = d.emh := d.each_proj (·.emh) _ _ fun _ _ => rfl
@[simp] theorem Dev.ltrSettle_tsq : d.ltrSettle.tsq = d.tsq := d.each_proj (·.tsq) _ _ fun _ _ => rfl
@[simp] theorem Dev.ltrSettle_net : d.ltrSettle.net = d.net := d.each_proj (·.net) _ _ fun _ _ => rfl
@[simp] theorem Dev.ltrSettle_nvt : d.ltrSettle.nvt = d.nvt := d.each_proj (·.nvt) _ _ fun _ _ => rfl
@[simp] theorem Dev.ltrSettle_trc : d.ltrSettle.trc = d.trc := d.each_proj (·.trc) _ _ fun _ _ => rfl
@[simp] theorem Dev.ltrSettle_xc : d.ltrSettle.xc = d.xc := d.each_proj (·.xc) _ _ fun _ _ => rfl
@[simp] theorem Dev.ltrSettle_xch : d.ltrSettle.xch = d.xch := d.each_proj (·.xch) _ _ fun _ _ => rfl
@[simp] theorem Dev.ltrSettle_dma : d.ltrSettle.dma = d.dma := d.each_proj (·.dma) _ _ fun _ _ => rfl
@[simp] theorem Dev.ltrSettle_sec : d.ltrSettle.sec = d.sec := d.each_proj (·.sec) _ _ fun _ _ => rfl
@[simp] theorem Dev.ltrSettle_pwr : d.ltrSettle.pwr = d.pwr := d.each_proj (·.pwr) _ _ fun _ _ => rfl
@[simp] theorem Dev.ltrSettle_scrub : d.ltrSettle.scrub = d.scrub := d.each_proj (·.scrub) _ _ fun _ _ => rfl
@[simp] theorem Dev.ltrSettle_retrained : d.ltrSettle.retrained = d.retrained := d.each_proj (·.retrained) _ _ fun _ _ => rfl
@[simp] theorem Dev.ltrSettle_dieRetries : d.ltrSettle.dieRetries = d.dieRetries := d.each_proj (·.dieRetries) _ _ fun _ _ => rfl
@[simp] theorem Dev.ltrSettle_msixPend : d.ltrSettle.msixPend = d.msixPend := d.each_proj (·.msixPend) _ _ fun _ _ => rfl
@[simp] theorem Dev.ltrSettle_trclk : d.ltrSettle.trclk = d.trclk := d.each_proj (·.trclk) _ _ fun _ _ => rfl
@[simp] theorem Dev.ltrSettle_irqPend : d.ltrSettle.irqPend = d.irqPend := d.each_proj (·.irqPend) _ _ fun _ _ => rfl
@[simp] theorem Dev.ltrSettle_fresh : d.ltrSettle.fresh = d.fresh := d.each_proj (·.fresh) _ _ fun _ _ => rfl
@[simp] theorem Dev.ltrSettle_regs : d.ltrSettle.regs = d.regs := d.each_proj (·.regs) _ _ fun _ _ => rfl
@[simp] theorem Dev.ltrSettle_vclk : d.ltrSettle.vclk = d.vclk := d.each_proj (·.vclk) _ _ fun _ _ => rfl

theorem Dev.rd_vclkSettle {k : Nat} (h : 0x2804 ≠ k) : d.vclkSettle.rd k = d.rd k := by
  unfold Dev.vclkSettle; dsimp only; split
  · rw [Dev.rd_inc_other _ h]; rfl
  · rfl

/-! ### What follows a command's effect -/

@[simp] theorem Dev.settle_latch : d.settle.latch = d.latch := by unfold Dev.settle; dsimp only; split <;> simp
@[simp] theorem Dev.settle_commits : d.settle.commits = d.commits := by unfold Dev.settle; dsimp only; split <;> simp
@[simp] theorem Dev.settle_tide : d.settle.tide = d.tide := by unfold Dev.settle; dsimp only; split <;> simp
@[simp] theorem Dev.settle_slack : d.settle.slack = d.slack := by unfold Dev.settle; dsimp only; split <;> simp
@[simp] theorem Dev.settle_fw : d.settle.fw = d.fw := by unfold Dev.settle; dsimp only; split <;> simp
@[simp] theorem Dev.settle_coves : d.settle.coves = d.coves := by unfold Dev.settle; dsimp only; split <;> simp
@[simp] theorem Dev.settle_cores : d.settle.cores = d.cores := by unfold Dev.settle; dsimp only; split <;> simp
@[simp] theorem Dev.settle_ckp : d.settle.ckp = d.ckp := by unfold Dev.settle; dsimp only; split <;> simp
@[simp] theorem Dev.settle_emh : d.settle.emh = d.emh := by unfold Dev.settle; dsimp only; split <;> simp
@[simp] theorem Dev.settle_tsq : d.settle.tsq = d.tsq := by unfold Dev.settle; dsimp only; split <;> simp
@[simp] theorem Dev.settle_net : d.settle.net = d.net := by unfold Dev.settle; dsimp only; split <;> simp
@[simp] theorem Dev.settle_nvt : d.settle.nvt = d.nvt := by unfold Dev.settle; dsimp only; split <;> simp
@[simp] theorem Dev.settle_trc : d.settle.trc = d.trc := by unfold Dev.settle; dsimp only; split <;> simp
@[simp] theorem Dev.settle_xc : d.settle.xc = d.xc := by unfold Dev.settle; dsimp only; split <;> simp
@[simp] theorem Dev.settle_xch : d.settle.xch = d.xch := by unfold Dev.settle; dsimp only; split <;> simp
@[simp] theorem Dev.settle_dma : d.settle.dma = d.dma := by unfold Dev.settle; dsimp only; split <;> simp
@[simp] theorem Dev.settle_sec : d.settle.sec = d.sec := by unfold Dev.settle; dsimp only; split <;> simp
@[simp] theorem Dev.settle_pwr : d.settle.pwr = d.pwr := by unfold Dev.settle; dsimp only; split <;> simp
@[simp] theorem Dev.settle_scrub : d.settle.scrub = d.scrub := by unfold Dev.settle; dsimp only; split <;> simp
@[simp] theorem Dev.settle_retrained : d.settle.retrained = d.retrained := by unfold Dev.settle; dsimp only; split <;> simp
@[simp] theorem Dev.settle_dieRetries : d.settle.dieRetries = d.dieRetries := by unfold Dev.settle; dsimp only; split <;> simp
@[simp] theorem Dev.settle_trclk : d.settle.trclk = d.trclk := by unfold Dev.settle; dsimp only; split <;> simp
@[simp] theorem Dev.settle_fresh : d.settle.fresh = d.fresh := by unfold Dev.settle; dsimp only; split <;> simp

/-- What every register but VCLK_RESTARTS reads is as the command left it. -/
theorem Dev.rd_settle {k : Nat} (h : 0x2804 ≠ k) : d.settle.rd k = d.rd k := by
  unfold Dev.settle Dev.rd; dsimp only; rw [Map.get_canon]
  have e (x : Dev) : Map.get regReset x.vclkSettle.regs k = Map.get regReset x.regs k := Dev.rd_vclkSettle x h
  rw [Dev.ltrSettle_regs, e]; split <;> simp

/-- Every byte reads as the command left it. -/
@[simp] theorem Dev.byte_settle (a : Nat) : Map.get (fun _ => (0 : Byte)) d.settle.mem a = Map.get (fun _ => 0) d.mem a := by
  unfold Dev.settle; dsimp only; rw [Map.get_canon, Dev.ltrSettle_mem, Dev.vclkSettle_mem]; split <;> simp

/-- Every check word stands as the command left it. -/
@[simp] theorem Dev.markOf_settle (g : Nat) : Map.get (fun _ => Mark.good) d.settle.marks g = Map.get (fun _ => .good) d.marks g := by
  unfold Dev.settle; dsimp only; rw [Map.get_canon, Dev.ltrSettle_marks, Dev.vclkSettle_marks]; split <;> simp

/-- The error ring is as the command left it. -/
@[simp] theorem Dev.settle_recs : d.settle.err.recs = d.err.recs := by
  unfold Dev.settle; dsimp only; rw [Dev.ltrSettle_err, Dev.vclkSettle_err]; split <;> simp

/-- A command changes nothing but the device, and answers a next state. -/
theorem lift_eq (f : Dev → Dev) (s : State) : lift f s = .next { s with dev := (f s.dev).recordFound.settle } := rfl

end Sys2Proof.Machine
end

