-- ==== Sys2Proof/Laws/Exec.lean ====
section
/-!
SUPPORT. Laws/Exec.lean: how the effect of a command is shown: every meaning is the settled effect of a function on the
device.
-/
namespace Sys2Proof.Machine

/-- A command whose meaning is `lift f` completes with what `f` does. -/
theorem completes_of {i : Instr} {s : State} {f : Dev → Dev} {P : Dev → Prop} (h : exec i s = lift f s)
    (hp : P (f s.dev).recordFound.settle) : Completes i s P :=
  ⟨_, h, rfl, hp⟩

/-- A command whose meaning is `lift f` does what `f` does. -/
theorem does_of {i : Instr} {f : Dev → Dev} {d e : Dev} (h : ∀ s, exec i s = lift f s) (hp : f d = e) : Does i d e :=
  fun q => by rw [h]; exact congrArg (fun x : Dev => Host.Outcome.next (State.mk x.recordFound.settle q)) hp

theorem Dev.onReg_pos {d : Dev} {k : Nat} (f : Dev → Dev) (h : d.writable k = true) : d.onReg k f = f d := by
  unfold Dev.onReg; exact if_pos h

theorem Dev.when_pos {d : Dev} {c : Bool} (f : Dev → Dev) (h : c = true) : d.when c f = f d := by
  unfold Dev.when; exact if_pos h

/-- The folded maps are canonical after every command. -/
theorem Dev.canonical_settle (d : Dev) : d.settle.canonical = true := by
  unfold Dev.canonical Dev.settle; dsimp only
  simp [Map.wf_canon]

@[simp] theorem Dev.byteAt_settle (d : Dev) (a : Nat) : d.settle.byteAt a = d.byteAt a := Dev.byte_settle d a

end Sys2Proof.Machine
end

