-- ==== Sys2Proof/Laws/Arms.lean ====
section
/-!
SUPPORT. Laws/Arms.lean: the meaning each command has, as an equation for each, and that every one is the settled effect of
a function on the device.
-/
namespace Sys2Proof.Machine

theorem exec_registerWrite (off : Nat) (val : Word) (s : State) : exec (.registerWrite off val) s = execRegisterWrite off val s := rfl
theorem exec_loReadLatch (off : Nat) (s : State) : exec (.loReadLatch off) s = execLoReadLatch off s := rfl
theorem exec_commitArm (pg : Nat) (s : State) : exec (.commitArm pg) s = execCommitArm pg s := rfl
theorem exec_commitNow (pg : Nat) (s : State) : exec (.commitNow pg) s = execCommitNow pg s := rfl
theorem exec_commitCancel (pg : Nat) (s : State) : exec (.commitCancel pg) s = execCommitCancel pg s := rfl
theorem exec_hctlEnWrite (pg : Nat) (en : Bool) (s : State) : exec (.hctlEnWrite pg en) s = execHctlEnWrite pg en s := rfl
theorem exec_hctlFreezeWrite (pg : Nat) (freeze : Bool) (s : State) : exec (.hctlFreezeWrite pg freeze) s = execHctlFreezeWrite pg freeze s := rfl
theorem exec_hctlSafeWrite (pg : Nat) (safe : Bool) (s : State) : exec (.hctlSafeWrite pg safe) s = execHctlSafeWrite pg safe s := rfl
theorem exec_intSetWrite (pg : Nat) (val : Word) (s : State) : exec (.intSetWrite pg val) s = execIntSetWrite pg val s := rfl
theorem exec_tideMarkMsg (src : Nat) (announce : Bool) (tide : DWord) (s : State) : exec (.tideMarkMsg src announce tide) s = execTideMarkMsg src announce tide s := rfl
theorem exec_markTimeout (s : State) : exec .markTimeout s = execMarkTimeout s := rfl
theorem exec_sbTideEdge (soon : Bool) (s : State) : exec (.sbTideEdge soon) s = execSbTideEdge soon s := rfl
theorem exec_sbTideDrive (s : State) : exec .sbTideDrive s = execSbTideDrive s := rfl
theorem exec_edgeMissTimeout (s : State) : exec .edgeMissTimeout s = execEdgeMissTimeout s := rfl
theorem exec_tideReportMsg (src : Nat) (tide : DWord) (s : State) : exec (.tideReportMsg src tide) s = execTideReportMsg src tide s := rfl
theorem exec_tideAdvance (s : State) : exec .tideAdvance s = execTideAdvance s := rfl
theorem exec_reportTimeout (dev : Nat) (s : State) : exec (.reportTimeout dev) s = execReportTimeout dev s := rfl
theorem exec_boundaryApply (s : State) : exec .boundaryApply s = execBoundaryApply s := rfl
theorem exec_domainStart (cid : Nat) (s : State) : exec (.domainStart cid) s = execDomainStart cid s := rfl
theorem exec_startMsg (src : Nat) (refuse : Bool) (tide : DWord) (s : State) : exec (.startMsg src refuse tide) s = execStartMsg src refuse tide s := rfl
theorem exec_startAckMsg (src : Nat) (refuse : Bool) (tide : DWord) (s : State) : exec (.startAckMsg src refuse tide) s = execStartAckMsg src refuse tide s := rfl
theorem exec_domainStartTimeout (s : State) : exec .domainStartTimeout s = execDomainStartTimeout s := rfl
theorem exec_tideCurLoStage (val : Word) (s : State) : exec (.tideCurLoStage val) s = execTideCurLoStage val s := rfl
theorem exec_tideCurLoad (val : Word) (s : State) : exec (.tideCurLoad val) s = execTideCurLoad val s := rfl
theorem exec_tideSbtEnWrite (en : Bool) (s : State) : exec (.tideSbtEnWrite en) s = execTideSbtEnWrite en s := rfl
theorem exec_srSeedWrite (c : Fin 16) (vec : Bool) (seed : Word) (s : State) : exec (.srSeedWrite c vec seed) s = execSrSeedWrite c vec seed s := rfl
theorem exec_expertJobBegin (c : Fin 16) (ix : Nat) (s : State) : exec (.expertJobBegin c ix) s = execExpertJobBegin c ix s := rfl
theorem exec_gateJobBegin (c : Fin 16) (ix : Nat) (s : State) : exec (.gateJobBegin c ix) s = execGateJobBegin c ix s := rfl
theorem exec_combineJobBegin (c : Fin 16) (ix : Nat) (s : State) : exec (.combineJobBegin c ix) s = execCombineJobBegin c ix s := rfl
theorem exec_codebookLoadBegin (c : Fin 16) (ix : Nat) (s : State) : exec (.codebookLoadBegin c ix) s = execCodebookLoadBegin c ix s := rfl
theorem exec_codebookLoadDone (c : Fin 16) (seq : Nat) (s : State) : exec (.codebookLoadDone c seq) s = execCodebookLoadDone c seq s := rfl
theorem exec_jobEnd (c : Fin 16) (seq : Nat) (s : State) : exec (.jobEnd c seq) s = execJobEnd c seq s := rfl
theorem exec_sliceReceive (ix : Nat) (s : State) : exec (.sliceReceive ix) s = execSliceReceive ix s := rfl
theorem exec_sliceRedTimeout (rgrp clmask : Nat) (owner : Fin 16) (s : State) : exec (.sliceRedTimeout rgrp clmask owner) s = execSliceRedTimeout rgrp clmask owner s := rfl
theorem exec_partialNotice (ix : Nat) (s : State) : exec (.partialNotice ix) s = execPartialNotice ix s := rfl
theorem exec_kvSelectBegin (c : Fin 16) (ix : Nat) (s : State) : exec (.kvSelectBegin c ix) s = execKvSelectBegin c ix s := rfl
theorem exec_kvAttendBegin (c : Fin 16) (ix : Nat) (order : List Nat) (s : State) : exec (.kvAttendBegin c ix order) s = execKvAttendBegin c ix order s := rfl
theorem exec_kvWriteBegin (c : Fin 16) (ix : Nat) (s : State) : exec (.kvWriteBegin c ix) s = execKvWriteBegin c ix s := rfl
theorem exec_kvReadBegin (c : Fin 16) (ix : Nat) (s : State) : exec (.kvReadBegin c ix) s = execKvReadBegin c ix s := rfl
theorem exec_kvGroupResult (ix : Nat) (s : State) : exec (.kvGroupResult ix) s = execKvGroupResult ix s := rfl
theorem exec_kvGroupTimeout (ty rgrp clmask : Nat) (s : State) : exec (.kvGroupTimeout ty rgrp clmask) s = execKvGroupTimeout ty rgrp clmask s := rfl
theorem exec_mapLoad (cid bank : Nat) (t : DWord) (s : State) : exec (.mapLoad cid bank t) s = execMapLoad cid bank t s := rfl
theorem exec_mapArmMsg (src gen : Nat) (tide : DWord) (bank : Nat) (s : State) : exec (.mapArmMsg src gen tide bank) s = execMapArmMsg src gen tide bank s := rfl
theorem exec_mapAckMsg (src gen : Nat) (tide : DWord) (s : State) : exec (.mapAckMsg src gen tide) s = execMapAckMsg src gen tide s := rfl
theorem exec_dispatchJobBegin (ix : Nat) (s : State) : exec (.dispatchJobBegin ix) s = execDispatchJobBegin ix s := rfl
theorem exec_dispatchSend (target : Nat) (s : State) : exec (.dispatchSend target) s = execDispatchSend target s := rfl
theorem exec_dispatchJobComplete (seq : Nat) (s : State) : exec (.dispatchJobComplete seq) s = execDispatchJobComplete seq s := rfl
theorem exec_dispatchMsg (conn msn : Nat) (head body : List Byte) (poison : Bool) (s : State) : exec (.dispatchMsg conn msn head body poison) s = execDispatchMsg conn msn head body poison s := rfl
theorem exec_returnJobBegin (ix : Nat) (s : State) : exec (.returnJobBegin ix) s = execReturnJobBegin ix s := rfl
theorem exec_returnJobComplete (seq : Nat) (s : State) : exec (.returnJobComplete seq) s = execReturnJobComplete seq s := rfl
theorem exec_returnMsg (conn msn : Nat) (head body : List Byte) (poison : Bool) (s : State) : exec (.returnMsg conn msn head body poison) s = execReturnMsg conn msn head body poison s := rfl
theorem exec_refuseMsg (conn : Nat) (head : List Byte) (s : State) : exec (.refuseMsg conn head) s = execRefuseMsg conn head s := rfl
theorem exec_creditMsg (conn : Nat) (head : List Byte) (s : State) : exec (.creditMsg conn head) s = execCreditMsg conn head s := rfl
theorem exec_creditTimeout (dev : Nat) (s : State) : exec (.creditTimeout dev) s = execCreditTimeout dev s := rfl
theorem exec_xdispTimeout (id : Nat) (s : State) : exec (.xdispTimeout id) s = execXdispTimeout id s := rfl
theorem exec_xretTimeout (id : Nat) (s : State) : exec (.xretTimeout id) s = execXretTimeout id s := rfl
theorem exec_xdownClear (n : Fin 16) (s : State) : exec (.xdownClear n) s = execXdownClear n s := rfl
theorem exec_dmak (core : Fin 37) (cond : BitVec 4) (d a b : BitVec 5) (answered : Bool) (s : State) : exec (.dmak core cond d a b answered) s = execDmak core cond d a b answered s := rfl
theorem exec_dmaSetStart (n : Fin 64) (s : State) : exec (.dmaSetStart n) s = execDmaSetStart n s := rfl
theorem exec_dmaReadback (n : Fin 64) (s : State) : exec (.dmaReadback n) s = execDmaReadback n s := rfl
theorem exec_dmaImageReport (n : Fin 64) (s : State) : exec (.dmaImageReport n) s = execDmaImageReport n s := rfl
theorem exec_dmaContinue (n : Fin 64) (s : State) : exec (.dmaContinue n) s = execDmaContinue n s := rfl
theorem exec_dmaRequestTimeout (n : Fin 64) (elem addr : Nat) (s : State) : exec (.dmaRequestTimeout n elem addr) s = execDmaRequestTimeout n elem addr s := rfl
theorem exec_dmaBusCompletion (n : Fin 64) (elem off : Nat) (data : List Byte) (poison err : Bool) (s : State) : exec (.dmaBusCompletion n elem off data poison err) s = execDmaBusCompletion n elem off data poison err s := rfl
theorem exec_dmaStop (n : Fin 64) (s : State) : exec (.dmaStop n) s = execDmaStop n s := rfl
theorem exec_dmaDiscard (n : Fin 64) (s : State) : exec (.dmaDiscard n) s = execDmaDiscard n s := rfl
theorem exec_loadGo (s : State) : exec .loadGo s = execLoadGo s := rfl
theorem exec_imageVerified (sigOk : Bool) (s : State) : exec (.imageVerified sigOk) s = execImageVerified sigOk s := rfl
theorem exec_firmwareRunning (s : State) : exec .firmwareRunning s = execFirmwareRunning s := rfl
theorem exec_adminGo (s : State) : exec .adminGo s = execAdminGo s := rfl
theorem exec_sqTailWrite (q : Fin 256) (val : Word) (s : State) : exec (.sqTailWrite q val) s = execSqTailWrite q val s := rfl
theorem exec_cqHeadWrite (q : Fin 256) (val : Word) (s : State) : exec (.cqHeadWrite q val) s = execCqHeadWrite q val s := rfl
theorem exec_commandFetch (q : Fin 256) (s : State) : exec (.commandFetch q) s = execCommandFetch q s := rfl
theorem exec_negotiate (cid : Nat) (s : State) : exec (.negotiate cid) s = execNegotiate cid s := rfl
theorem exec_resume (cid : Nat) (s : State) : exec (.resume cid) s = execResume cid s := rfl
theorem exec_createRings (cid pair sqBase sqLog cqBase cqLog vec : Nat) (owner : Option Nat) (s : State) : exec (.createRings cid pair sqBase sqLog cqBase cqLog vec owner) s = execCreateRings cid pair sqBase sqLog cqBase cqLog vec owner s := rfl
theorem exec_deleteRings (cid pair : Nat) (s : State) : exec (.deleteRings cid pair) s = execDeleteRings cid pair s := rfl
theorem exec_configDomain (cid domain dev headDev : Nat) (members : List Nat) (xland xslot xarr xarrSize xcredit : Nat) (s : State) : exec (.configDomain cid domain dev headDev members xland xslot xarr xarrSize xcredit) s = execConfigDomain cid domain dev headDev members xland xslot xarr xarrSize xcredit s := rfl
theorem exec_setLayout (cid : Nat) (w k sn b c : Nat × Nat) (s : State) : exec (.setLayout cid w k sn b c) s = execSetLayout cid w k sn b c s := rfl
theorem exec_buddyRing (cid : Nat) (s : State) : exec (.buddyRing cid) s = execBuddyRing cid s := rfl
theorem exec_fwUpdate (cid : Nat) (s : State) : exec (.fwUpdate cid) s = execFwUpdate cid s := rfl
theorem exec_updateConfirm (s : State) : exec .updateConfirm s = execUpdateConfirm s := rfl
theorem exec_updateConfirmTimeout (s : State) : exec .updateConfirmTimeout s = execUpdateConfirmTimeout s := rfl
theorem exec_getDump (cid : Nat) (s : State) : exec (.getDump cid) s = execGetDump cid s := rfl
theorem exec_logCfg (cid base log : Nat) (s : State) : exec (.logCfg cid base log) s = execLogCfg cid base log s := rfl
theorem exec_powerCap (cid : Nat) (s : State) : exec (.powerCap cid) s = execPowerCap cid s := rfl
theorem exec_getSensors (q : Fin 256) (cid : Nat) (smp : Sample) (s : State) : exec (.getSensors q cid smp) s = execGetSensors q cid smp s := rfl
theorem exec_launchSq (q : Fin 256) (cid : Nat) (sq : Fin 32) (s : State) : exec (.launchSq q cid sq) s = execLaunchSq q cid sq s := rfl
theorem exec_stopSq (q : Fin 256) (cid : Nat) (sq : Fin 32) (s : State) : exec (.stopSq q cid sq) s = execStopSq q cid sq s := rfl
theorem exec_leaseRenew (s : State) : exec .leaseRenew s = execLeaseRenew s := rfl
theorem exec_leaseExpired (s : State) : exec .leaseExpired s = execLeaseExpired s := rfl
theorem exec_watchdogExpiry (core : Fin 5) (during : Bool) (old : Nat) (handling : Bool) (s : State) : exec (.watchdogExpiry core during old handling) s = execWatchdogExpiry core during old handling s := rfl
theorem exec_powerLoopPeriod (watts watts1s vin : Nat) (step : Fin 5) (s : State) : exec (.powerLoopPeriod watts watts1s vin step) s = execPowerLoopPeriod watts watts1s vin step s := rfl
theorem exec_thermalLoopPeriod (smp : Sample) (ceil : Fin 64) (s : State) : exec (.thermalLoopPeriod smp ceil) s = execThermalLoopPeriod smp ceil s := rfl
theorem exec_pwrHoldDrop (watts : Nat) (s : State) : exec (.pwrHoldDrop watts) s = execPwrHoldDrop watts s := rfl
theorem exec_alu (core : Fin 37) (cond : BitVec 4) (d a b : BitVec 5) (fn : BitVec 7) (s : State) : exec (.alu core cond d a b fn) s = execAlu core cond d a b fn s := rfl
theorem exec_fpu (core : Fin 37) (cond : BitVec 4) (d a b : BitVec 5) (fn : BitVec 7) (s : State) : exec (.fpu core cond d a b fn) s = execFpu core cond d a b fn s := rfl
theorem exec_addi (core : Fin 37) (cond : BitVec 4) (d a : BitVec 5) (imm : BitVec 12) (s : State) : exec (.addi core cond d a imm) s = execAddi core cond d a imm s := rfl
theorem exec_andi (core : Fin 37) (cond : BitVec 4) (d a : BitVec 5) (imm : BitVec 12) (s : State) : exec (.andi core cond d a imm) s = execAndi core cond d a imm s := rfl
theorem exec_ori (core : Fin 37) (cond : BitVec 4) (d a : BitVec 5) (imm : BitVec 12) (s : State) : exec (.ori core cond d a imm) s = execOri core cond d a imm s := rfl
theorem exec_xori (core : Fin 37) (cond : BitVec 4) (d a : BitVec 5) (imm : BitVec 12) (s : State) : exec (.xori core cond d a imm) s = execXori core cond d a imm s := rfl
theorem exec_shi (core : Fin 37) (cond : BitVec 4) (d a : BitVec 5) (imm : BitVec 12) (s : State) : exec (.shi core cond d a imm) s = execShi core cond d a imm s := rfl
theorem exec_cmpi (core : Fin 37) (cond : BitVec 4) (d a : BitVec 5) (imm : BitVec 12) (s : State) : exec (.cmpi core cond d a imm) s = execCmpi core cond d a imm s := rfl
theorem exec_movi (core : Fin 37) (cond : BitVec 4) (d : BitVec 5) (imm : BitVec 17) (s : State) : exec (.movi core cond d imm) s = execMovi core cond d imm s := rfl
theorem exec_movs (core : Fin 37) (cond : BitVec 4) (d : BitVec 5) (imm : BitVec 17) (s : State) : exec (.movs core cond d imm) s = execMovs core cond d imm s := rfl
theorem exec_ldb (core : Fin 37) (cond : BitVec 4) (d a : BitVec 5) (imm : BitVec 12) (io : Mio) (s : State) : exec (.ldb core cond d a imm io) s = execLdb core cond d a imm io s := rfl
theorem exec_ldh (core : Fin 37) (cond : BitVec 4) (d a : BitVec 5) (imm : BitVec 12) (io : Mio) (s : State) : exec (.ldh core cond d a imm io) s = execLdh core cond d a imm io s := rfl
theorem exec_ldw (core : Fin 37) (cond : BitVec 4) (d a : BitVec 5) (imm : BitVec 12) (io : Mio) (s : State) : exec (.ldw core cond d a imm io) s = execLdw core cond d a imm io s := rfl
theorem exec_ldd (core : Fin 37) (cond : BitVec 4) (d a : BitVec 5) (imm : BitVec 12) (io : Mio) (s : State) : exec (.ldd core cond d a imm io) s = execLdd core cond d a imm io s := rfl
theorem exec_ldbs (core : Fin 37) (cond : BitVec 4) (d a : BitVec 5) (imm : BitVec 12) (io : Mio) (s : State) : exec (.ldbs core cond d a imm io) s = execLdbs core cond d a imm io s := rfl
theorem exec_ldhs (core : Fin 37) (cond : BitVec 4) (d a : BitVec 5) (imm : BitVec 12) (io : Mio) (s : State) : exec (.ldhs core cond d a imm io) s = execLdhs core cond d a imm io s := rfl
theorem exec_ldws (core : Fin 37) (cond : BitVec 4) (d a : BitVec 5) (imm : BitVec 12) (io : Mio) (s : State) : exec (.ldws core cond d a imm io) s = execLdws core cond d a imm io s := rfl
theorem exec_stb (core : Fin 37) (cond : BitVec 4) (d a : BitVec 5) (imm : BitVec 12) (s : State) : exec (.stb core cond d a imm) s = execStb core cond d a imm s := rfl
theorem exec_sth (core : Fin 37) (cond : BitVec 4) (d a : BitVec 5) (imm : BitVec 12) (s : State) : exec (.sth core cond d a imm) s = execSth core cond d a imm s := rfl
theorem exec_stw (core : Fin 37) (cond : BitVec 4) (d a : BitVec 5) (imm : BitVec 12) (s : State) : exec (.stw core cond d a imm) s = execStw core cond d a imm s := rfl
theorem exec_std (core : Fin 37) (cond : BitVec 4) (d a : BitVec 5) (imm : BitVec 12) (s : State) : exec (.std core cond d a imm) s = execStd core cond d a imm s := rfl
theorem exec_loadTimeout (core : Fin 37) (cond : BitVec 4) (op : Fin 10) (d a : BitVec 5) (imm : BitVec 12) (s : State) : exec (.loadTimeout core cond op d a imm) s = execLoadTimeout core cond op d a imm s := rfl
theorem exec_ldc (core : Fin 37) (cond : BitVec 4) (d a : BitVec 5) (imm : BitVec 12) (io : Mio) (s : State) : exec (.ldc core cond d a imm io) s = execLdc core cond d a imm io s := rfl
theorem exec_stc (core : Fin 37) (cond : BitVec 4) (d a : BitVec 5) (imm : BitVec 12) (s : State) : exec (.stc core cond d a imm) s = execStc core cond d a imm s := rfl
theorem exec_amo (core : Fin 37) (cond : BitVec 4) (d a b : BitVec 5) (fn : BitVec 7) (io : Mio) (s : State) : exec (.amo core cond d a b fn io) s = execAmo core cond d a b fn io s := rfl
theorem exec_fence (core : Fin 37) (cond : BitVec 4) (s : State) : exec (.fence core cond) s = execFence core cond s := rfl
theorem exec_waitne (core : Fin 37) (cond : BitVec 4) (d a b : BitVec 5) (fn : BitVec 7) (io : Mio) (s : State) : exec (.waitne core cond d a b fn io) s = execWaitne core cond d a b fn io s := rfl
theorem exec_b (core : Fin 37) (cond : BitVec 4) (imm : BitVec 22) (s : State) : exec (.b core cond imm) s = execB core cond imm s := rfl
theorem exec_jal (core : Fin 37) (cond : BitVec 4) (imm : BitVec 22) (s : State) : exec (.jal core cond imm) s = execJal core cond imm s := rfl
theorem exec_jr (core : Fin 37) (cond : BitVec 4) (d a : BitVec 5) (s : State) : exec (.jr core cond d a) s = execJr core cond d a s := rfl
theorem exec_tget (core : Fin 37) (cond : BitVec 4) (d a : BitVec 5) (s : State) : exec (.tget core cond d a) s = execTget core cond d a s := rfl
theorem exec_ttst (core : Fin 37) (cond : BitVec 4) (a b : BitVec 5) (s : State) : exec (.ttst core cond a b) s = execTtst core cond a b s := rfl
theorem exec_mkt (core : Fin 37) (cond : BitVec 4) (d a : BitVec 5) (s : State) : exec (.mkt core cond d a) s = execMkt core cond d a s := rfl
theorem exec_tint (core : Fin 37) (cond : BitVec 4) (d a : BitVec 5) (s : State) : exec (.tint core cond d a) s = execTint core cond d a s := rfl
theorem exec_mkh (core : Fin 37) (cond : BitVec 4) (d a : BitVec 5) (s : State) : exec (.mkh core cond d a) s = execMkh core cond d a s := rfl
theorem exec_addr (core : Fin 37) (cond : BitVec 4) (d a : BitVec 5) (s : State) : exec (.addr core cond d a) s = execAddr core cond d a s := rfl
theorem exec_narrow (core : Fin 37) (cond : BitVec 4) (d a b : BitVec 5) (s : State) : exec (.narrow core cond d a b) s = execNarrow core cond d a b s := rfl
theorem exec_rdonly (core : Fin 37) (cond : BitVec 4) (d a : BitVec 5) (s : State) : exec (.rdonly core cond d a) s = execRdonly core cond d a s := rfl
theorem exec_ldg (core : Fin 37) (cond : BitVec 4) (d a : BitVec 5) (s : State) : exec (.ldg core cond d a) s = execLdg core cond d a s := rfl
theorem exec_tcur (core : Fin 37) (cond : BitVec 4) (d : BitVec 5) (s : State) : exec (.tcur core cond d) s = execTcur core cond d s := rfl
theorem exec_twait (core : Fin 37) (cond : BitVec 4) (a : BitVec 5) (s : State) : exec (.twait core cond a) s = execTwait core cond a s := rfl
theorem exec_twatch (core : Fin 37) (cond : BitVec 4) (a : BitVec 5) (s : State) : exec (.twatch core cond a) s = execTwatch core cond a s := rfl
theorem exec_trep (core : Fin 37) (cond : BitVec 4) (a : BitVec 5) (s : State) : exec (.trep core cond a) s = execTrep core cond a s := rfl
theorem exec_tadv (core : Fin 37) (cond : BitVec 4) (a : BitVec 5) (s : State) : exec (.tadv core cond a) s = execTadv core cond a s := rfl
theorem exec_clk (core : Fin 37) (cond : BitVec 4) (d : BitVec 5) (s : State) : exec (.clk core cond d) s = execClk core cond d s := rfl
theorem exec_job (core : Fin 37) (cond : BitVec 4) (d a : BitVec 5) (s : State) : exec (.job core cond d a) s = execJob core cond d a s := rfl
theorem exec_gate (core : Fin 37) (cond : BitVec 4) (d a : BitVec 5) (s : State) : exec (.gate core cond d a) s = execGate core cond d a s := rfl
theorem exec_disp (core : Fin 37) (cond : BitVec 4) (d a : BitVec 5) (s : State) : exec (.disp core cond d a) s = execDisp core cond d a s := rfl
theorem exec_note (core : Fin 37) (cond : BitVec 4) (a : BitVec 5) (s : State) : exec (.note core cond a) s = execNote core cond a s := rfl
theorem exec_sys (core : Fin 37) (cond : BitVec 4) (imm : BitVec 12) (s : State) : exec (.sys core cond imm) s = execSys core cond imm s := rfl
theorem exec_trcp (core : Fin 37) (cond : BitVec 4) (a : BitVec 5) (imm : BitVec 12) (s : State) : exec (.trcp core cond a imm) s = execTrcp core cond a imm s := rfl
theorem exec_brk (core : Fin 37) (cond : BitVec 4) (s : State) : exec (.brk core cond) s = execBrk core cond s := rfl
theorem exec_mint (core : Fin 37) (cond : BitVec 4) (d a b : BitVec 5) (s : State) : exec (.mint core cond d a b) s = execMint core cond d a b s := rfl
theorem exec_ldt (core : Fin 37) (cond : BitVec 4) (d a : BitVec 5) (off : BusOff) (s : State) : exec (.ldt core cond d a off) s = execLdt core cond d a off s := rfl
theorem exec_stt (core : Fin 37) (cond : BitVec 4) (d a : BitVec 5) (imm : BitVec 12) (s : State) : exec (.stt core cond d a imm) s = execStt core cond d a imm s := rfl
theorem exec_csrr (core : Fin 37) (cond : BitVec 4) (d : BitVec 5) (imm : BitVec 12) (s : State) : exec (.csrr core cond d imm) s = execCsrr core cond d imm s := rfl
theorem exec_csrw (core : Fin 37) (cond : BitVec 4) (a : BitVec 5) (imm : BitVec 12) (s : State) : exec (.csrw core cond a imm) s = execCsrw core cond a imm s := rfl
theorem exec_eret (core : Fin 37) (cond : BitVec 4) (s : State) : exec (.eret core cond) s = execEret core cond s := rfl
theorem exec_launch (core : Fin 37) (cond : BitVec 4) (a b : BitVec 5) (answered : Bool) (s : State) : exec (.launch core cond a b answered) s = execLaunch core cond a b answered s := rfl
theorem exec_sqctlStop (core : Fin 37) (cond : BitVec 4) (a : BitVec 5) (s : State) : exec (.sqctlStop core cond a) s = execSqctlStop core cond a s := rfl
theorem exec_sqctlResume (core : Fin 37) (cond : BitVec 4) (a : BitVec 5) (s : State) : exec (.sqctlResume core cond a) s = execSqctlResume core cond a s := rfl
theorem exec_sqctlState (core : Fin 37) (cond : BitVec 4) (a b : BitVec 5) (s : State) : exec (.sqctlState core cond a b) s = execSqctlState core cond a b s := rfl
theorem exec_bar0Request (bar2 wr : Bool) (off size : Nat) (data : List Byte) (s : State) : exec (.bar0Request bar2 wr off size data) s = execBar0Request bar2 wr off size data s := rfl
theorem exec_bar4Request (wr : Bool) (off size : Nat) (data : List Byte) (poison : Bool) (s : State) : exec (.bar4Request wr off size data poison) s = execBar4Request wr off size data poison s := rfl
theorem exec_pf0UnsupportedRequest (wr : Bool) (r : PfReq) (s : State) : exec (.pf0UnsupportedRequest wr r) s = execPf0UnsupportedRequest wr r s := rfl
theorem exec_acceleratorRequest (port : Fin 8) (wr : Bool) (addr size : Nat) (data : List Byte) (attr : ReqAttr) (s : State) : exec (.acceleratorRequest port wr addr size data attr) s = execAcceleratorRequest port wr addr size data attr s := rfl
theorem exec_functionLevelReset (s : State) : exec .functionLevelReset s = execFunctionLevelReset s := rfl
theorem exec_flrComplete (s : State) : exec .flrComplete s = execFlrComplete s := rfl
theorem exec_busMasterClear (mse : Bool) (s : State) : exec (.busMasterClear mse) s = execBusMasterClear mse s := rfl
theorem exec_apBusMasterWrite (port : Fin 8) (bme : Bool) (win : Nat × Nat) (acs : Nat) (s : State) : exec (.apBusMasterWrite port bme win acs) s = execApBusMasterWrite port bme win acs s := rfl
theorem exec_hepLinkDown (s : State) : exec .hepLinkDown s = execHepLinkDown s := rfl
theorem exec_apLinkDown (port : Fin 8) (s : State) : exec (.apLinkDown port) s = execApLinkDown port s := rfl
theorem exec_linkL1Idle (port : Fin 9) (sub : Fin 3) (s : State) : exec (.linkL1Idle port sub) s = execLinkL1Idle port sub s := rfl
theorem exec_coveModeWrite (fixed : Bool) (s : State) : exec (.coveModeWrite fixed) s = execCoveModeWrite fixed s := rfl
theorem exec_coveCreate (cid : Nat) (s : State) : exec (.coveCreate cid) s = execCoveCreate cid s := rfl
theorem exec_coveDestroy (cid : Nat) (s : State) : exec (.coveDestroy cid) s = execCoveDestroy cid s := rfl
theorem exec_coveResize (cid : Nat) (s : State) : exec (.coveResize cid) s = execCoveResize cid s := rfl
theorem exec_coveResizeComplete (n : Fin 64) (s : State) : exec (.coveResizeComplete n) s = execCoveResizeComplete n s := rfl
theorem exec_coveReset (cid : Nat) (s : State) : exec (.coveReset cid) s = execCoveReset cid s := rfl
theorem exec_covePurgeDeadline (n : Fin 64) (s : State) : exec (.covePurgeDeadline n) s = execCovePurgeDeadline n s := rfl
theorem exec_coveFreeze (cid : Nat) (s : State) : exec (.coveFreeze cid) s = execCoveFreeze cid s := rfl
theorem exec_coveFreezeComplete (n : Fin 64) (s : State) : exec (.coveFreezeComplete n) s = execCoveFreezeComplete n s := rfl
theorem exec_coveThaw (cid : Nat) (s : State) : exec (.coveThaw cid) s = execCoveThaw cid s := rfl
theorem exec_coveSave (cid : Nat) (s : State) : exec (.coveSave cid) s = execCoveSave cid s := rfl
theorem exec_coveRestore (cid : Nat) (s : State) : exec (.coveRestore cid) s = execCoveRestore cid s := rfl
theorem exec_coveQuery (q : Fin 256) (cid : Nat) (s : State) : exec (.coveQuery q cid) s = execCoveQuery q cid s := rfl
theorem exec_frameReceive (port : Fin 8) (len : Nat) (bytes : List Byte) (emh : Option EmhPkt) (fcsOk fecOk : Bool) (corr : Nat) (s : State) : exec (.frameReceive port len bytes emh fcsOk fecOk corr) s = execFrameReceive port len bytes emh fcsOk fecOk corr s := rfl
theorem exec_packetDeliver (ix : Nat) (desc : List Byte) (s : State) : exec (.packetDeliver ix desc) s = execPacketDeliver ix desc s := rfl
theorem exec_ruleInstall (val : Word) (s : State) : exec (.ruleInstall val) s = execRuleInstall val s := rfl
theorem exec_portModeWrite (val : Word) (s : State) : exec (.portModeWrite val) s = execPortModeWrite val s := rfl
theorem exec_portEnWrite (val : Word) (s : State) : exec (.portEnWrite val) s = execPortEnWrite val s := rfl
theorem exec_netLinkChange (port : Fin 8) (up : Bool) (s : State) : exec (.netLinkChange port up) s = execNetLinkChange port up s := rfl
theorem exec_tsqSend (q : Fin 4096) (head : List Byte) (s : State) : exec (.tsqSend q head) s = execTsqSend q head s := rfl
theorem exec_soundingSweep (s : State) : exec .soundingSweep s = execSoundingSweep s := rfl
theorem exec_hnqCfgEnWrite (val : Word) (s : State) : exec (.hnqCfgEnWrite val) s = execHnqCfgEnWrite val s := rfl
theorem exec_hnqTxTailWrite (val : Word) (s : State) : exec (.hnqTxTailWrite val) s = execHnqTxTailWrite val s := rfl
theorem exec_hnqTxFetch (n : Fin 64) (desc bytes : List Byte) (emh : Option EmhPkt) (poison fail : Bool) (s : State) : exec (.hnqTxFetch n desc bytes emh poison fail) s = execHnqTxFetch n desc bytes emh poison fail s := rfl
theorem exec_hnqRxTailWrite (val : Word) (s : State) : exec (.hnqRxTailWrite val) s = execHnqRxTailWrite val s := rfl
theorem exec_connListen (conn : Fin 65536) (s : State) : exec (.connListen conn) s = execConnListen conn s := rfl
theorem exec_connOpen (conn : Fin 65536) (s : State) : exec (.connOpen conn) s = execConnOpen conn s := rfl
theorem exec_connClose (conn : Fin 65536) (s : State) : exec (.connClose conn) s = execConnClose conn s := rfl
theorem exec_connReset (conn : Fin 65536) (s : State) : exec (.connReset conn) s = execConnReset conn s := rfl
theorem exec_connRepoint (conn : Fin 65536) (s : State) : exec (.connRepoint conn) s = execConnRepoint conn s := rfl
theorem exec_connectPkt (port : Nat) (k : EmhPkt) (s : State) : exec (.connectPkt port k) s = execConnectPkt port k s := rfl
theorem exec_acceptPkt (port : Nat) (k : EmhPkt) (s : State) : exec (.acceptPkt port k) s = execAcceptPkt port k s := rfl
theorem exec_closePkt (port : Nat) (k : EmhPkt) (s : State) : exec (.closePkt port k) s = execClosePkt port k s := rfl
theorem exec_resetPkt (port : Nat) (k : EmhPkt) (s : State) : exec (.resetPkt port k) s = execResetPkt port k s := rfl
theorem exec_openTimeout (conn : Fin 65536) (s : State) : exec (.openTimeout conn) s = execOpenTimeout conn s := rfl
theorem exec_connectRetry (conn : Fin 65536) (s : State) : exec (.connectRetry conn) s = execConnectRetry conn s := rfl
theorem exec_sqDbWrite (conn : Fin 65536) (tail : Fin 4096) (s : State) : exec (.sqDbWrite conn tail) s = execSqDbWrite conn tail s := rfl
theorem exec_workRequestFetch (conn : Fin 65536) (s : State) : exec (.workRequestFetch conn) s = execWorkRequestFetch conn s := rfl
theorem exec_dataPacket (port : Nat) (k : EmhPkt) (s : State) : exec (.dataPacket port k) s = execDataPacket port k s := rfl
theorem exec_ackPkt (port : Nat) (k : EmhPkt) (s : State) : exec (.ackPkt port k) s = execAckPkt port k s := rfl
theorem exec_ackSend (conn : Fin 65536) (s : State) : exec (.ackSend conn) s = execAckSend conn s := rfl
theorem exec_nakPkt (port : Nat) (k : EmhPkt) (s : State) : exec (.nakPkt port k) s = execNakPkt port k s := rfl
theorem exec_nakResend (conn : Fin 65536) (psn : Nat) (s : State) : exec (.nakResend conn psn) s = execNakResend conn psn s := rfl
theorem exec_notReadyTimeout (conn : Fin 65536) (msn : Nat) (s : State) : exec (.notReadyTimeout conn msn) s = execNotReadyTimeout conn msn s := rfl
theorem exec_pageTimeout (conn : Fin 65536) (msn : Nat) (s : State) : exec (.pageTimeout conn msn) s = execPageTimeout conn msn s := rfl
theorem exec_rtoExpiry (conn : Fin 65536) (psn : Nat) (s : State) : exec (.rtoExpiry conn psn) s = execRtoExpiry conn psn s := rfl
theorem exec_probeTimer (conn : Fin 65536) (path : Fin 8) (s : State) : exec (.probeTimer conn path) s = execProbeTimer conn path s := rfl
theorem exec_probePkt (port : Nat) (k : EmhPkt) (s : State) : exec (.probePkt port k) s = execProbePkt port k s := rfl
theorem exec_probeAckPkt (port : Nat) (k : EmhPkt) (s : State) : exec (.probeAckPkt port k) s = execProbeAckPkt port k s := rfl
theorem exec_sendStallRecheck (conn : Fin 65536) (expired : Bool) (s : State) : exec (.sendStallRecheck conn expired) s = execSendStallRecheck conn expired s := rfl
theorem exec_regOpen (s : State) : exec .regOpen s = execRegOpen s := rfl
theorem exec_regClose (s : State) : exec .regClose s = execRegClose s := rfl
theorem exec_regionCloseTimeout (ix : Fin 4096) (s : State) : exec (.regionCloseTimeout ix) s = execRegionCloseTimeout ix s := rfl
theorem exec_nvmeIcreq (conn hpda maxr2t : Nat) (hd dd : Bool) (s : State) : exec (.nvmeIcreq conn hpda maxr2t hd dd) s = execNvmeIcreq conn hpda maxr2t hd dd s := rfl
theorem exec_tcpConnectAttempt (conn port : Nat) (disc : Bool) (s : State) : exec (.tcpConnectAttempt conn port disc) s = execTcpConnectAttempt conn port disc s := rfl
theorem exec_nvmeConnect (conn cid qid sqsize kato host cntlid : Nat) (s : State) : exec (.nvmeConnect conn cid qid sqsize kato host cntlid) s = execNvmeConnect conn cid qid sqsize kato host cntlid s := rfl
theorem exec_nvmeRead (conn cid nsid slba nlb : Nat) (s : State) : exec (.nvmeRead conn cid nsid slba nlb) s = execNvmeRead conn cid nsid slba nlb s := rfl
theorem exec_nvmeWrite (conn cid nsid slba nlb : Nat) (fua digestOk : Bool) (data : List Byte) (s : State) : exec (.nvmeWrite conn cid nsid slba nlb fua digestOk data) s = execNvmeWrite conn cid nsid slba nlb fua digestOk data s := rfl
theorem exec_nvmeFlush (conn cid nsid : Nat) (s : State) : exec (.nvmeFlush conn cid nsid) s = execNvmeFlush conn cid nsid s := rfl
theorem exec_nvmeWriteZeroes (conn cid nsid slba nlb : Nat) (s : State) : exec (.nvmeWriteZeroes conn cid nsid slba nlb) s = execNvmeWriteZeroes conn cid nsid slba nlb s := rfl
theorem exec_nvmeDatasetManagement (conn cid nsid : Nat) (dealloc : Bool) (ranges : List (Nat × Nat)) (s : State) : exec (.nvmeDatasetManagement conn cid nsid dealloc ranges) s = execNvmeDatasetManagement conn cid nsid dealloc ranges s := rfl
theorem exec_nvmeAbort (conn cid sqid target : Nat) (s : State) : exec (.nvmeAbort conn cid sqid target) s = execNvmeAbort conn cid sqid target s := rfl
theorem exec_nvmeIdentify (conn cid nsid cns : Nat) (s : State) : exec (.nvmeIdentify conn cid nsid cns) s = execNvmeIdentify conn cid nsid cns s := rfl
theorem exec_nvmeGetLogPage (conn cid lid len : Nat) (s : State) : exec (.nvmeGetLogPage conn cid lid len) s = execNvmeGetLogPage conn cid lid len s := rfl
theorem exec_nvmeGetFeatures (conn cid fid : Nat) (s : State) : exec (.nvmeGetFeatures conn cid fid) s = execNvmeGetFeatures conn cid fid s := rfl
theorem exec_nvmeSetFeatures (conn cid fid val : Nat) (s : State) : exec (.nvmeSetFeatures conn cid fid val) s = execNvmeSetFeatures conn cid fid val s := rfl
theorem exec_nvmePowerStateSet (conn cid ps : Nat) (s : State) : exec (.nvmePowerStateSet conn cid ps) s = execNvmePowerStateSet conn cid ps s := rfl
theorem exec_nvmeKeepAlive (conn cid : Nat) (s : State) : exec (.nvmeKeepAlive conn cid) s = execNvmeKeepAlive conn cid s := rfl
theorem exec_keepAliveTimeout (cntlid : Nat) (s : State) : exec (.keepAliveTimeout cntlid) s = execKeepAliveTimeout cntlid s := rfl
theorem exec_nvmeAsyncEventRequest (conn cid : Nat) (s : State) : exec (.nvmeAsyncEventRequest conn cid) s = execNvmeAsyncEventRequest conn cid s := rfl
theorem exec_nvmePropertyGet (conn cid off : Nat) (s : State) : exec (.nvmePropertyGet conn cid off) s = execNvmePropertyGet conn cid off s := rfl
theorem exec_nvmePropertySet (conn cid off val : Nat) (s : State) : exec (.nvmePropertySet conn cid off val) s = execNvmePropertySet conn cid off val s := rfl
theorem exec_nvmeFormatNvm (conn cid nsid lbaf ses : Nat) (s : State) : exec (.nvmeFormatNvm conn cid nsid lbaf ses) s = execNvmeFormatNvm conn cid nsid lbaf ses s := rfl
theorem exec_nvmeSanitize (conn cid action : Nat) (s : State) : exec (.nvmeSanitize conn cid action) s = execNvmeSanitize conn cid action s := rfl
theorem exec_nvmeFirmwareDownload (conn cid off : Nat) (data : List Byte) (s : State) : exec (.nvmeFirmwareDownload conn cid off data) s = execNvmeFirmwareDownload conn cid off data s := rfl
theorem exec_nvmeFirmwareCommit (conn cid slot action : Nat) (reset : Bool) (s : State) : exec (.nvmeFirmwareCommit conn cid slot action reset) s = execNvmeFirmwareCommit conn cid slot action reset s := rfl
theorem exec_h2cDataPdu (conn cid off : Nat) (data : List Byte) (headOk dataOk : Bool) (s : State) : exec (.h2cDataPdu conn cid off data headOk dataOk) s = execH2cDataPdu conn cid off data headOk dataOk s := rfl
theorem exec_destage (nsid blk : Nat) (s : State) : exec (.destage nsid blk) s = execDestage nsid blk s := rfl
theorem exec_ssdCommandComplete (id : Nat) (ok : Bool) (data : List Byte) (s : State) : exec (.ssdCommandComplete id ok data) s = execSsdCommandComplete id ok data s := rfl
theorem exec_ssdLinkDown (port : Fin 4) (silent : Bool) (s : State) : exec (.ssdLinkDown port silent) s = execSsdLinkDown port silent s := rfl
theorem exec_sanitizeProgressSave (prog : List Nat) (s : State) : exec (.sanitizeProgressSave prog) s = execSanitizeProgressSave prog s := rfl
theorem exec_nsInstall (s : State) : exec .nsInstall s = execNsInstall s := rfl
theorem exec_nsRemove (s : State) : exec .nsRemove s = execNsRemove s := rfl
theorem exec_nvtCtlWrite (en maint : Bool) (s : State) : exec (.nvtCtlWrite en maint) s = execNvtCtlWrite en maint s := rfl
theorem exec_snapSet (cid : Nat) (most : Option Nat) (s : State) : exec (.snapSet cid most) s = execSnapSet cid most s := rfl
theorem exec_snapArm (cid : Nat) (s : State) : exec (.snapArm cid) s = execSnapArm cid s := rfl
theorem exec_snapAbort (cid : Nat) (s : State) : exec (.snapAbort cid) s = execSnapAbort cid s := rfl
theorem exec_snapStatus (cid : Nat) (s : State) : exec (.snapStatus cid) s = execSnapStatus cid s := rfl
theorem exec_snapRestore (cid : Nat) (s : State) : exec (.snapRestore cid) s = execSnapRestore cid s := rfl
theorem exec_preimageCopied (g : Nat) (s : State) : exec (.preimageCopied g) s = execPreimageCopied g s := rfl
theorem exec_snapshotCopy (s : State) : exec .snapshotCopy s = execSnapshotCopy s := rfl
theorem exec_buddyOfferMsg (src : Nat) (m : Ctl) (s : State) : exec (.buddyOfferMsg src m) s = execBuddyOfferMsg src m s := rfl
theorem exec_buddyReplyMsg (src : Nat) (refuse : Bool) (s : State) : exec (.buddyReplyMsg src refuse) s = execBuddyReplyMsg src refuse s := rfl
theorem exec_buddyArmMsg (src : Nat) (tide : DWord) (s : State) : exec (.buddyArmMsg src tide) s = execBuddyArmMsg src tide s := rfl
theorem exec_buddyAckMsg (src : Nat) (tide : DWord) (s : State) : exec (.buddyAckMsg src tide) s = execBuddyAckMsg src tide s := rfl
theorem exec_gstop (cid : Nat) (s : State) : exec (.gstop cid) s = execGstop cid s := rfl
theorem exec_gstopArmMsg (src : Nat) (tide : DWord) (s : State) : exec (.gstopArmMsg src tide) s = execGstopArmMsg src tide s := rfl
theorem exec_gstopAckMsg (src : Nat) (tide : DWord) (s : State) : exec (.gstopAckMsg src tide) s = execGstopAckMsg src tide s := rfl
theorem exec_ebbComplete (s : State) : exec .ebbComplete s = execEbbComplete s := rfl
theorem exec_ebbTimeout (s : State) : exec .ebbTimeout s = execEbbTimeout s := rfl
theorem exec_cutReportMsg (src : Nat) (inexact : Bool) (tide : DWord) (s : State) : exec (.cutReportMsg src inexact tide) s = execCutReportMsg src inexact tide s := rfl
theorem exec_gstopRelease (cid : Nat) (s : State) : exec (.gstopRelease cid) s = execGstopRelease cid s := rfl
theorem exec_gstopReleaseMsg (src : Nat) (tide : DWord) (s : State) : exec (.gstopReleaseMsg src tide) s = execGstopReleaseMsg src tide s := rfl
theorem exec_memberExclude (cid : Nat) (s : State) : exec (.memberExclude cid) s = execMemberExclude cid s := rfl
theorem exec_memberExcludeMsg (src dev : Nat) (tide : DWord) (s : State) : exec (.memberExcludeMsg src dev tide) s = execMemberExcludeMsg src dev tide s := rfl
theorem exec_memberInclude (cid : Nat) (s : State) : exec (.memberInclude cid) s = execMemberInclude cid s := rfl
theorem exec_memberIncludeMsg (src dev : Nat) (tide : DWord) (s : State) : exec (.memberIncludeMsg src dev tide) s = execMemberIncludeMsg src dev tide s := rfl
theorem exec_memberAckMsg (src arg : Nat) (tide : DWord) (s : State) : exec (.memberAckMsg src arg tide) s = execMemberAckMsg src arg tide s := rfl
theorem exec_safeCtlWrite (val : Word) (s : State) : exec (.safeCtlWrite val) s = execSafeCtlWrite val s := rfl
theorem exec_errResume (s : State) : exec .errResume s = execErrResume s := rfl
theorem exec_recTailWrite (val : Word) (s : State) : exec (.recTailWrite val) s = execRecTailWrite val s := rfl
theorem exec_sbEstopAssert (s : State) : exec .sbEstopAssert s = execSbEstopAssert s := rfl
theorem exec_marginPlanPeriod (low : Bool) (mpd : Option (Fin 4)) (worst monitor : Nat) (s : State) : exec (.marginPlanPeriod low mpd worst monitor) s = execMarginPlanPeriod low mpd worst monitor s := rfl
theorem exec_attReport (q : Fin 256) (cid : Nat) (norOk : Bool) (s : State) : exec (.attReport q cid norOk) s = execAttReport q cid norOk s := rfl
theorem exec_attGetCert (q : Fin 256) (cid : Nat) (s : State) : exec (.attGetCert q cid) s = execAttGetCert q cid s := rfl
theorem exec_attMeasureWeights (cid : Nat) (s : State) : exec (.attMeasureWeights cid) s = execAttMeasureWeights cid s := rfl
theorem exec_weightMeasureDone (s : State) : exec .weightMeasureDone s = execWeightMeasureDone s := rfl
theorem exec_attSvnCommit (cid : Nat) (norOk : Bool) (s : State) : exec (.attSvnCommit cid norOk) s = execAttSvnCommit cid norOk s := rfl
theorem exec_tbCtlEnWrite (val : Word) (s : State) : exec (.tbCtlEnWrite val) s = execTbCtlEnWrite val s := rfl
theorem exec_tbSwtrig (s : State) : exec .tbSwtrig s = execTbSwtrig s := rfl
theorem exec_dumpDefine (cid : Nat) (s : State) : exec (.dumpDefine cid) s = execDumpDefine cid s := rfl
theorem exec_dumpArm (cid : Nat) (s : State) : exec (.dumpArm cid) s = execDumpArm cid s := rfl
theorem exec_dumpCancel (cid : Nat) (s : State) : exec (.dumpCancel cid) s = execDumpCancel cid s := rfl
theorem exec_dumpRing (cid : Nat) (s : State) : exec (.dumpRing cid) s = execDumpRing cid s := rfl
theorem exec_dumpCopyDone (k : Nat) (s : State) : exec (.dumpCopyDone k) s = execDumpCopyDone k s := rfl
theorem exec_dmpTailWrite (val : Word) (s : State) : exec (.dmpTailWrite val) s = execDmpTailWrite val s := rfl
theorem exec_scrubStep (n : Fin 16) (links : Nat) (ecc : Fin 4) (s : State) : exec (.scrubStep n links ecc) s = execScrubStep n links ecc s := rfl
theorem exec_channelRetrainDone (n c : Fin 16) (s : State) : exec (.channelRetrainDone n c) s = execChannelRetrainDone n c s := rfl
theorem exec_retrainTimeout (n c : Fin 16) (s : State) : exec (.retrainTimeout n c) s = execRetrainTimeout n c s := rfl
theorem exec_binReqWrite (m : Fin 4) (val : Word) (s : State) : exec (.binReqWrite m val) s = execBinReqWrite m val s := rfl
theorem exec_binChange (failed dead : List Nat) (s : State) : exec (.binChange failed dead) s = execBinChange failed dead s := rfl
theorem exec_errInjArm (m : Fin 4) (val : Word) (s : State) : exec (.errInjArm m val) s = execErrInjArm m val s := rfl
theorem exec_dieLinkRetry (link n : Nat) (failed : Bool) (s : State) : exec (.dieLinkRetry link n failed) s = execDieLinkRetry link n failed s := rfl
theorem exec_zeroFillDone (s : State) : exec .zeroFillDone s = execZeroFillDone s := rfl
theorem exec_warmExitDone (s : State) : exec .warmExitDone s = execWarmExitDone s := rfl
theorem exec_sbPwrenAssert (soon cool : Bool) (s : State) : exec (.sbPwrenAssert soon cool) s = execSbPwrenAssert soon cool s := rfl
theorem exec_sbPwrenDeassert (s : State) : exec .sbPwrenDeassert s = execSbPwrenDeassert s := rfl
theorem exec_sbRstAssert (s : State) : exec .sbRstAssert s = execSbRstAssert s := rfl
theorem exec_sbRstDeassert (sigOk : Bool) (s : State) : exec (.sbRstDeassert sigOk) s = execSbRstDeassert sigOk s := rfl
theorem exec_vinRangeWarn (mv : Nat) (s : State) : exec (.vinRangeWarn mv) s = execVinRangeWarn mv s := rfl
theorem exec_vinFault (mv : Nat) (s : State) : exec (.vinFault mv) s = execVinFault mv s := rfl
theorem exec_railFault (rail : Fin 10) (ovr : Bool) (s : State) : exec (.railFault rail ovr) s = execRailFault rail ovr s := rfl
theorem exec_senseOpen (rail : Fin 10) (s : State) : exec (.senseOpen rail) s = execSenseOpen rail s := rfl
theorem exec_faultValidClear (bmc : Bool) (s : State) : exec (.faultValidClear bmc) s = execFaultValidClear bmc s := rfl
theorem exec_temperatureWarning (smp : Sample) (s : State) : exec (.temperatureWarning smp) s = execTemperatureWarning smp s := rfl
theorem exec_thermalTrip (sensor : Nat) (smp : Sample) (s : State) : exec (.thermalTrip sensor smp) s = execThermalTrip sensor smp s := rfl
theorem exec_criticalTemperature (smp : Sample) (s : State) : exec (.criticalTemperature smp) s = execCriticalTemperature smp s := rfl
theorem exec_pllUnlock (pll : Fin 8) (s : State) : exec (.pllUnlock pll) s = execPllUnlock pll s := rfl
theorem exec_referenceClockLoss (nref : Bool) (s : State) : exec (.referenceClockLoss nref) s = execReferenceClockLoss nref s := rfl
theorem exec_mctpControlMessage (code : Nat) (data : List Byte) (s : State) : exec (.mctpControlMessage code data) s = execMctpControlMessage code data s := rfl
theorem exec_mctpGetStatus (s : State) : exec .mctpGetStatus s = execMctpGetStatus s := rfl
theorem exec_mctpGetSensors (smp : Sample) (s : State) : exec (.mctpGetSensors smp) s = execMctpGetSensors smp s := rfl
theorem exec_setCap (watts : Nat) (s : State) : exec (.setCap watts) s = execSetCap watts s := rfl
theorem exec_getErrors (idx : Nat) (s : State) : exec (.getErrors idx) s = execGetErrors idx s := rfl
theorem exec_norBegin (size : Nat) (s : State) : exec (.norBegin size) s = execNorBegin size s := rfl
theorem exec_norData (data : List Byte) (s : State) : exec (.norData data) s = execNorData data s := rfl
theorem exec_norEnd (slot svn revoke : Nat) (sigOk : Bool) (s : State) : exec (.norEnd slot svn revoke sigOk) s = execNorEnd slot svn revoke sigOk s := rfl
theorem exec_waitneTimeout (core : Fin 37) (cond : BitVec 4) (d a b : BitVec 5) (fn : BitVec 7) (io : Mio) (s : State) : exec (.waitneTimeout core cond d a b fn io) s = execWaitneTimeout core cond d a b fn io s := rfl
theorem exec_controlReplyTimeout (req : Nat) (dev : Nat) (s : State) : exec (.controlReplyTimeout req dev) s = execControlReplyTimeout req dev s := rfl
theorem exec_siteStopsAnswering (n : Fin 16) (s : State) : exec (.siteStopsAnswering n) s = execSiteStopsAnswering n s := rfl
theorem exec_siteTemperatureChange (n : Fin 16) (hot : Bool) (s : State) : exec (.siteTemperatureChange n hot) s = execSiteTemperatureChange n hot s := rfl
theorem exec_bar4Resize (log : Nat) (s : State) : exec (.bar4Resize log) s = execBar4Resize log s := rfl
theorem exec_hepLinkUp (speed width : Nat) (flit : Bool) (mrrs mps : Nat) (host : HostSet) (s : State) : exec (.hepLinkUp speed width flit mrrs mps host) s = execHepLinkUp speed width flit mrrs mps host s := rfl
theorem exec_apLinkUp (port : Fin 8) (speed width : Nat) (flit : Bool) (aspm : Bool × Bool × Bool) (s : State) : exec (.apLinkUp port speed width flit aspm) s = execApLinkUp port speed width flit aspm s := rfl
theorem exec_ssdReady (port : Fin 4) (cap : Nat) (s : State) : exec (.ssdReady port cap) s = execSsdReady port cap s := rfl
theorem exec_nvmeTcpConnectionClose (conn : Nat) (s : State) : exec (.nvmeTcpConnectionClose conn) s = execNvmeTcpConnectionClose conn s := rfl
theorem exec_sbEstopDeassert (s : State) : exec .sbEstopDeassert s = execSbEstopDeassert s := rfl
theorem exec_vinRestored (mv : Nat) (cool : Bool) (s : State) : exec (.vinRestored mv cool) s = execVinRestored mv cool s := rfl
theorem exec_sbPwrenHoldoffEnd (cool : Bool) (s : State) : exec (.sbPwrenHoldoffEnd cool) s = execSbPwrenHoldoffEnd cool s := rfl
theorem exec_railsInRegulation (sigOk : Bool) (s : State) : exec (.railsInRegulation sigOk) s = execRailsInRegulation sigOk s := rfl
theorem exec_busMasterSet (mse : Bool) (s : State) : exec (.busMasterSet mse) s = execBusMasterSet mse s := rfl
theorem exec_hepFundamentalReset (sigOk : Bool) (s : State) : exec (.hepFundamentalReset sigOk) s = execHepFundamentalReset sigOk s := rfl
theorem exec_reservedOpcode (core : Fin 37) (word : BitVec 32) (s : State) : exec (.reservedOpcode core word) s = execReservedOpcode core word s := rfl
theorem exec_instructionFetchFault (core : Fin 37) (s : State) : exec (.instructionFetchFault core) s = execInstructionFetchFault core s := rfl
theorem exec_badTypeJobBegin (c : Fin 17) (ix : Nat) (s : State) : exec (.badTypeJobBegin c ix) s = execBadTypeJobBegin c ix s := rfl
theorem exec_nvmeInvalidOpcode (conn cid opc : Nat) (s : State) : exec (.nvmeInvalidOpcode conn cid opc) s = execNvmeInvalidOpcode conn cid opc s := rfl
theorem exec_mctpUnsupportedMessage (vendor : Bool) (cmd : Nat) (s : State) : exec (.mctpUnsupportedMessage vendor cmd) s = execMctpUnsupportedMessage vendor cmd s := rfl
theorem exec_smbusArp (code addr : Nat) (s : State) : exec (.smbusArp code addr) s = execSmbusArp code addr s := rfl
theorem exec_fwUpdateVerified (sigOk : Bool) (s : State) : exec (.fwUpdateVerified sigOk) s = execFwUpdateVerified sigOk s := rfl
theorem exec_attReportSigned (s : State) : exec .attReportSigned s = execAttReportSigned s := rfl

/-- Every meaning is the settled effect of a function on the device; so every command answers a next state. -/
theorem exec_lift (i : Instr) (s : State) : ∃ f : Dev → Dev, exec i s = lift f s :=
  match i with
  | .registerWrite off val => ⟨_, exec_registerWrite off val s⟩
  | .loReadLatch off => ⟨_, exec_loReadLatch off s⟩
  | .commitArm pg => ⟨_, exec_commitArm pg s⟩
  | .commitNow pg => ⟨_, exec_commitNow pg s⟩
  | .commitCancel pg => ⟨_, exec_commitCancel pg s⟩
  | .hctlEnWrite pg en => ⟨_, exec_hctlEnWrite pg en s⟩
  | .hctlFreezeWrite pg freeze => ⟨_, exec_hctlFreezeWrite pg freeze s⟩
  | .hctlSafeWrite pg safe => ⟨_, exec_hctlSafeWrite pg safe s⟩
  | .intSetWrite pg val => ⟨_, exec_intSetWrite pg val s⟩
  | .tideMarkMsg src announce tide => ⟨_, exec_tideMarkMsg src announce tide s⟩
  | .markTimeout => ⟨_, exec_markTimeout s⟩
  | .sbTideEdge soon => ⟨_, exec_sbTideEdge soon s⟩
  | .sbTideDrive => ⟨_, exec_sbTideDrive s⟩
  | .edgeMissTimeout => ⟨_, exec_edgeMissTimeout s⟩
  | .tideReportMsg src tide => ⟨_, exec_tideReportMsg src tide s⟩
  | .tideAdvance => ⟨_, exec_tideAdvance s⟩
  | .reportTimeout dev => ⟨_, exec_reportTimeout dev s⟩
  | .boundaryApply => ⟨_, exec_boundaryApply s⟩
  | .domainStart cid => ⟨_, exec_domainStart cid s⟩
  | .startMsg src refuse tide => ⟨_, exec_startMsg src refuse tide s⟩
  | .startAckMsg src refuse tide => ⟨_, exec_startAckMsg src refuse tide s⟩
  | .domainStartTimeout => ⟨_, exec_domainStartTimeout s⟩
  | .tideCurLoStage val => ⟨_, exec_tideCurLoStage val s⟩
  | .tideCurLoad val => ⟨_, exec_tideCurLoad val s⟩
  | .tideSbtEnWrite en => ⟨_, exec_tideSbtEnWrite en s⟩
  | .srSeedWrite c vec seed => ⟨_, exec_srSeedWrite c vec seed s⟩
  | .expertJobBegin c ix => ⟨_, exec_expertJobBegin c ix s⟩
  | .gateJobBegin c ix => ⟨_, exec_gateJobBegin c ix s⟩
  | .combineJobBegin c ix => ⟨_, exec_combineJobBegin c ix s⟩
  | .codebookLoadBegin c ix => ⟨_, exec_codebookLoadBegin c ix s⟩
  | .codebookLoadDone c seq => ⟨_, exec_codebookLoadDone c seq s⟩
  | .jobEnd c seq => ⟨_, exec_jobEnd c seq s⟩
  | .sliceReceive ix => ⟨_, exec_sliceReceive ix s⟩
  | .sliceRedTimeout rgrp clmask owner => ⟨_, exec_sliceRedTimeout rgrp clmask owner s⟩
  | .partialNotice ix => ⟨_, exec_partialNotice ix s⟩
  | .kvSelectBegin c ix => ⟨_, exec_kvSelectBegin c ix s⟩
  | .kvAttendBegin c ix order => ⟨_, exec_kvAttendBegin c ix order s⟩
  | .kvWriteBegin c ix => ⟨_, exec_kvWriteBegin c ix s⟩
  | .kvReadBegin c ix => ⟨_, exec_kvReadBegin c ix s⟩
  | .kvGroupResult ix => ⟨_, exec_kvGroupResult ix s⟩
  | .kvGroupTimeout ty rgrp clmask => ⟨_, exec_kvGroupTimeout ty rgrp clmask s⟩
  | .mapLoad cid bank t => ⟨_, exec_mapLoad cid bank t s⟩
  | .mapArmMsg src gen tide bank => ⟨_, exec_mapArmMsg src gen tide bank s⟩
  | .mapAckMsg src gen tide => ⟨_, exec_mapAckMsg src gen tide s⟩
  | .dispatchJobBegin ix => ⟨_, exec_dispatchJobBegin ix s⟩
  | .dispatchSend target => ⟨_, exec_dispatchSend target s⟩
  | .dispatchJobComplete seq => ⟨_, exec_dispatchJobComplete seq s⟩
  | .dispatchMsg conn msn head body poison => ⟨_, exec_dispatchMsg conn msn head body poison s⟩
  | .returnJobBegin ix => ⟨_, exec_returnJobBegin ix s⟩
  | .returnJobComplete seq => ⟨_, exec_returnJobComplete seq s⟩
  | .returnMsg conn msn head body poison => ⟨_, exec_returnMsg conn msn head body poison s⟩
  | .refuseMsg conn head => ⟨_, exec_refuseMsg conn head s⟩
  | .creditMsg conn head => ⟨_, exec_creditMsg conn head s⟩
  | .creditTimeout dev => ⟨_, exec_creditTimeout dev s⟩
  | .xdispTimeout id => ⟨_, exec_xdispTimeout id s⟩
  | .xretTimeout id => ⟨_, exec_xretTimeout id s⟩
  | .xdownClear n => ⟨_, exec_xdownClear n s⟩
  | .dmak core cond d a b answered => ⟨_, exec_dmak core cond d a b answered s⟩
  | .dmaSetStart n => ⟨_, exec_dmaSetStart n s⟩
  | .dmaReadback n => ⟨_, exec_dmaReadback n s⟩
  | .dmaImageReport n => ⟨_, exec_dmaImageReport n s⟩
  | .dmaContinue n => ⟨_, exec_dmaContinue n s⟩
  | .dmaRequestTimeout n elem addr => ⟨_, exec_dmaRequestTimeout n elem addr s⟩
  | .dmaBusCompletion n elem off data poison err => ⟨_, exec_dmaBusCompletion n elem off data poison err s⟩
  | .dmaStop n => ⟨_, exec_dmaStop n s⟩
  | .dmaDiscard n => ⟨_, exec_dmaDiscard n s⟩
  | .loadGo => ⟨_, exec_loadGo s⟩
  | .imageVerified sigOk => ⟨_, exec_imageVerified sigOk s⟩
  | .firmwareRunning => ⟨_, exec_firmwareRunning s⟩
  | .adminGo => ⟨_, exec_adminGo s⟩
  | .sqTailWrite q val => ⟨_, exec_sqTailWrite q val s⟩
  | .cqHeadWrite q val => ⟨_, exec_cqHeadWrite q val s⟩
  | .commandFetch q => ⟨_, exec_commandFetch q s⟩
  | .negotiate cid => ⟨_, exec_negotiate cid s⟩
  | .resume cid => ⟨_, exec_resume cid s⟩
  | .createRings cid pair sqBase sqLog cqBase cqLog vec owner => ⟨_, exec_createRings cid pair sqBase sqLog cqBase cqLog vec owner s⟩
  | .deleteRings cid pair => ⟨_, exec_deleteRings cid pair s⟩
  | .configDomain cid domain dev headDev members xland xslot xarr xarrSize xcredit => ⟨_, exec_configDomain cid domain dev headDev members xland xslot xarr xarrSize xcredit s⟩
  | .setLayout cid w k sn b c => ⟨_, exec_setLayout cid w k sn b c s⟩
  | .buddyRing cid => ⟨_, exec_buddyRing cid s⟩
  | .fwUpdate cid => ⟨_, exec_fwUpdate cid s⟩
  | .updateConfirm => ⟨_, exec_updateConfirm s⟩
  | .updateConfirmTimeout => ⟨_, exec_updateConfirmTimeout s⟩
  | .getDump cid => ⟨_, exec_getDump cid s⟩
  | .logCfg cid base log => ⟨_, exec_logCfg cid base log s⟩
  | .powerCap cid => ⟨_, exec_powerCap cid s⟩
  | .getSensors q cid smp => ⟨_, exec_getSensors q cid smp s⟩
  | .launchSq q cid sq => ⟨_, exec_launchSq q cid sq s⟩
  | .stopSq q cid sq => ⟨_, exec_stopSq q cid sq s⟩
  | .leaseRenew => ⟨_, exec_leaseRenew s⟩
  | .leaseExpired => ⟨_, exec_leaseExpired s⟩
  | .watchdogExpiry core during old handling => ⟨_, exec_watchdogExpiry core during old handling s⟩
  | .powerLoopPeriod watts watts1s vin step => ⟨_, exec_powerLoopPeriod watts watts1s vin step s⟩
  | .thermalLoopPeriod smp ceil => ⟨_, exec_thermalLoopPeriod smp ceil s⟩
  | .pwrHoldDrop watts => ⟨_, exec_pwrHoldDrop watts s⟩
  | .alu core cond d a b fn => ⟨_, exec_alu core cond d a b fn s⟩
  | .fpu core cond d a b fn => ⟨_, exec_fpu core cond d a b fn s⟩
  | .addi core cond d a imm => ⟨_, exec_addi core cond d a imm s⟩
  | .andi core cond d a imm => ⟨_, exec_andi core cond d a imm s⟩
  | .ori core cond d a imm => ⟨_, exec_ori core cond d a imm s⟩
  | .xori core cond d a imm => ⟨_, exec_xori core cond d a imm s⟩
  | .shi core cond d a imm => ⟨_, exec_shi core cond d a imm s⟩
  | .cmpi core cond d a imm => ⟨_, exec_cmpi core cond d a imm s⟩
  | .movi core cond d imm => ⟨_, exec_movi core cond d imm s⟩
  | .movs core cond d imm => ⟨_, exec_movs core cond d imm s⟩
  | .ldb core cond d a imm io => ⟨_, exec_ldb core cond d a imm io s⟩
  | .ldh core cond d a imm io => ⟨_, exec_ldh core cond d a imm io s⟩
  | .ldw core cond d a imm io => ⟨_, exec_ldw core cond d a imm io s⟩
  | .ldd core cond d a imm io => ⟨_, exec_ldd core cond d a imm io s⟩
  | .ldbs core cond d a imm io => ⟨_, exec_ldbs core cond d a imm io s⟩
  | .ldhs core cond d a imm io => ⟨_, exec_ldhs core cond d a imm io s⟩
  | .ldws core cond d a imm io => ⟨_, exec_ldws core cond d a imm io s⟩
  | .stb core cond d a imm => ⟨_, exec_stb core cond d a imm s⟩
  | .sth core cond d a imm => ⟨_, exec_sth core cond d a imm s⟩
  | .stw core cond d a imm => ⟨_, exec_stw core cond d a imm s⟩
  | .std core cond d a imm => ⟨_, exec_std core cond d a imm s⟩
  | .loadTimeout core cond op d a imm => ⟨_, exec_loadTimeout core cond op d a imm s⟩
  | .ldc core cond d a imm io => ⟨_, exec_ldc core cond d a imm io s⟩
  | .stc core cond d a imm => ⟨_, exec_stc core cond d a imm s⟩
  | .amo core cond d a b fn io => ⟨_, exec_amo core cond d a b fn io s⟩
  | .fence core cond => ⟨_, exec_fence core cond s⟩
  | .waitne core cond d a b fn io => ⟨_, exec_waitne core cond d a b fn io s⟩
  | .b core cond imm => ⟨_, exec_b core cond imm s⟩
  | .jal core cond imm => ⟨_, exec_jal core cond imm s⟩
  | .jr core cond d a => ⟨_, exec_jr core cond d a s⟩
  | .tget core cond d a => ⟨_, exec_tget core cond d a s⟩
  | .ttst core cond a b => ⟨_, exec_ttst core cond a b s⟩
  | .mkt core cond d a => ⟨_, exec_mkt core cond d a s⟩
  | .tint core cond d a => ⟨_, exec_tint core cond d a s⟩
  | .mkh core cond d a => ⟨_, exec_mkh core cond d a s⟩
  | .addr core cond d a => ⟨_, exec_addr core cond d a s⟩
  | .narrow core cond d a b => ⟨_, exec_narrow core cond d a b s⟩
  | .rdonly core cond d a => ⟨_, exec_rdonly core cond d a s⟩
  | .ldg core cond d a => ⟨_, exec_ldg core cond d a s⟩
  | .tcur core cond d => ⟨_, exec_tcur core cond d s⟩
  | .twait core cond a => ⟨_, exec_twait core cond a s⟩
  | .twatch core cond a => ⟨_, exec_twatch core cond a s⟩
  | .trep core cond a => ⟨_, exec_trep core cond a s⟩
  | .tadv core cond a => ⟨_, exec_tadv core cond a s⟩
  | .clk core cond d => ⟨_, exec_clk core cond d s⟩
  | .job core cond d a => ⟨_, exec_job core cond d a s⟩
  | .gate core cond d a => ⟨_, exec_gate core cond d a s⟩
  | .disp core cond d a => ⟨_, exec_disp core cond d a s⟩
  | .note core cond a => ⟨_, exec_note core cond a s⟩
  | .sys core cond imm => ⟨_, exec_sys core cond imm s⟩
  | .trcp core cond a imm => ⟨_, exec_trcp core cond a imm s⟩
  | .brk core cond => ⟨_, exec_brk core cond s⟩
  | .mint core cond d a b => ⟨_, exec_mint core cond d a b s⟩
  | .ldt core cond d a off => ⟨_, exec_ldt core cond d a off s⟩
  | .stt core cond d a imm => ⟨_, exec_stt core cond d a imm s⟩
  | .csrr core cond d imm => ⟨_, exec_csrr core cond d imm s⟩
  | .csrw core cond a imm => ⟨_, exec_csrw core cond a imm s⟩
  | .eret core cond => ⟨_, exec_eret core cond s⟩
  | .launch core cond a b answered => ⟨_, exec_launch core cond a b answered s⟩
  | .sqctlStop core cond a => ⟨_, exec_sqctlStop core cond a s⟩
  | .sqctlResume core cond a => ⟨_, exec_sqctlResume core cond a s⟩
  | .sqctlState core cond a b => ⟨_, exec_sqctlState core cond a b s⟩
  | .bar0Request bar2 wr off size data => ⟨_, exec_bar0Request bar2 wr off size data s⟩
  | .bar4Request wr off size data poison => ⟨_, exec_bar4Request wr off size data poison s⟩
  | .pf0UnsupportedRequest wr r => ⟨_, exec_pf0UnsupportedRequest wr r s⟩
  | .acceleratorRequest port wr addr size data attr => ⟨_, exec_acceleratorRequest port wr addr size data attr s⟩
  | .functionLevelReset => ⟨_, exec_functionLevelReset s⟩
  | .flrComplete => ⟨_, exec_flrComplete s⟩
  | .busMasterClear mse => ⟨_, exec_busMasterClear mse s⟩
  | .apBusMasterWrite port bme win acs => ⟨_, exec_apBusMasterWrite port bme win acs s⟩
  | .hepLinkDown => ⟨_, exec_hepLinkDown s⟩
  | .apLinkDown port => ⟨_, exec_apLinkDown port s⟩
  | .linkL1Idle port sub => ⟨_, exec_linkL1Idle port sub s⟩
  | .coveModeWrite fixed => ⟨_, exec_coveModeWrite fixed s⟩
  | .coveCreate cid => ⟨_, exec_coveCreate cid s⟩
  | .coveDestroy cid => ⟨_, exec_coveDestroy cid s⟩
  | .coveResize cid => ⟨_, exec_coveResize cid s⟩
  | .coveResizeComplete n => ⟨_, exec_coveResizeComplete n s⟩
  | .coveReset cid => ⟨_, exec_coveReset cid s⟩
  | .covePurgeDeadline n => ⟨_, exec_covePurgeDeadline n s⟩
  | .coveFreeze cid => ⟨_, exec_coveFreeze cid s⟩
  | .coveFreezeComplete n => ⟨_, exec_coveFreezeComplete n s⟩
  | .coveThaw cid => ⟨_, exec_coveThaw cid s⟩
  | .coveSave cid => ⟨_, exec_coveSave cid s⟩
  | .coveRestore cid => ⟨_, exec_coveRestore cid s⟩
  | .coveQuery q cid => ⟨_, exec_coveQuery q cid s⟩
  | .frameReceive port len bytes emh fcsOk fecOk corr => ⟨_, exec_frameReceive port len bytes emh fcsOk fecOk corr s⟩
  | .packetDeliver ix desc => ⟨_, exec_packetDeliver ix desc s⟩
  | .ruleInstall val => ⟨_, exec_ruleInstall val s⟩
  | .portModeWrite val => ⟨_, exec_portModeWrite val s⟩
  | .portEnWrite val => ⟨_, exec_portEnWrite val s⟩
  | .netLinkChange port up => ⟨_, exec_netLinkChange port up s⟩
  | .tsqSend q head => ⟨_, exec_tsqSend q head s⟩
  | .soundingSweep => ⟨_, exec_soundingSweep s⟩
  | .hnqCfgEnWrite val => ⟨_, exec_hnqCfgEnWrite val s⟩
  | .hnqTxTailWrite val => ⟨_, exec_hnqTxTailWrite val s⟩
  | .hnqTxFetch n desc bytes emh poison fail => ⟨_, exec_hnqTxFetch n desc bytes emh poison fail s⟩
  | .hnqRxTailWrite val => ⟨_, exec_hnqRxTailWrite val s⟩
  | .connListen conn => ⟨_, exec_connListen conn s⟩
  | .connOpen conn => ⟨_, exec_connOpen conn s⟩
  | .connClose conn => ⟨_, exec_connClose conn s⟩
  | .connReset conn => ⟨_, exec_connReset conn s⟩
  | .connRepoint conn => ⟨_, exec_connRepoint conn s⟩
  | .connectPkt port k => ⟨_, exec_connectPkt port k s⟩
  | .acceptPkt port k => ⟨_, exec_acceptPkt port k s⟩
  | .closePkt port k => ⟨_, exec_closePkt port k s⟩
  | .resetPkt port k => ⟨_, exec_resetPkt port k s⟩
  | .openTimeout conn => ⟨_, exec_openTimeout conn s⟩
  | .connectRetry conn => ⟨_, exec_connectRetry conn s⟩
  | .sqDbWrite conn tail => ⟨_, exec_sqDbWrite conn tail s⟩
  | .workRequestFetch conn => ⟨_, exec_workRequestFetch conn s⟩
  | .dataPacket port k => ⟨_, exec_dataPacket port k s⟩
  | .ackPkt port k => ⟨_, exec_ackPkt port k s⟩
  | .ackSend conn => ⟨_, exec_ackSend conn s⟩
  | .nakPkt port k => ⟨_, exec_nakPkt port k s⟩
  | .nakResend conn psn => ⟨_, exec_nakResend conn psn s⟩
  | .notReadyTimeout conn msn => ⟨_, exec_notReadyTimeout conn msn s⟩
  | .pageTimeout conn msn => ⟨_, exec_pageTimeout conn msn s⟩
  | .rtoExpiry conn psn => ⟨_, exec_rtoExpiry conn psn s⟩
  | .probeTimer conn path => ⟨_, exec_probeTimer conn path s⟩
  | .probePkt port k => ⟨_, exec_probePkt port k s⟩
  | .probeAckPkt port k => ⟨_, exec_probeAckPkt port k s⟩
  | .sendStallRecheck conn expired => ⟨_, exec_sendStallRecheck conn expired s⟩
  | .regOpen => ⟨_, exec_regOpen s⟩
  | .regClose => ⟨_, exec_regClose s⟩
  | .regionCloseTimeout ix => ⟨_, exec_regionCloseTimeout ix s⟩
  | .nvmeIcreq conn hpda maxr2t hd dd => ⟨_, exec_nvmeIcreq conn hpda maxr2t hd dd s⟩
  | .tcpConnectAttempt conn port disc => ⟨_, exec_tcpConnectAttempt conn port disc s⟩
  | .nvmeConnect conn cid qid sqsize kato host cntlid => ⟨_, exec_nvmeConnect conn cid qid sqsize kato host cntlid s⟩
  | .nvmeRead conn cid nsid slba nlb => ⟨_, exec_nvmeRead conn cid nsid slba nlb s⟩
  | .nvmeWrite conn cid nsid slba nlb fua digestOk data => ⟨_, exec_nvmeWrite conn cid nsid slba nlb fua digestOk data s⟩
  | .nvmeFlush conn cid nsid => ⟨_, exec_nvmeFlush conn cid nsid s⟩
  | .nvmeWriteZeroes conn cid nsid slba nlb => ⟨_, exec_nvmeWriteZeroes conn cid nsid slba nlb s⟩
  | .nvmeDatasetManagement conn cid nsid dealloc ranges => ⟨_, exec_nvmeDatasetManagement conn cid nsid dealloc ranges s⟩
  | .nvmeAbort conn cid sqid target => ⟨_, exec_nvmeAbort conn cid sqid target s⟩
  | .nvmeIdentify conn cid nsid cns => ⟨_, exec_nvmeIdentify conn cid nsid cns s⟩
  | .nvmeGetLogPage conn cid lid len => ⟨_, exec_nvmeGetLogPage conn cid lid len s⟩
  | .nvmeGetFeatures conn cid fid => ⟨_, exec_nvmeGetFeatures conn cid fid s⟩
  | .nvmeSetFeatures conn cid fid val => ⟨_, exec_nvmeSetFeatures conn cid fid val s⟩
  | .nvmePowerStateSet conn cid ps => ⟨_, exec_nvmePowerStateSet conn cid ps s⟩
  | .nvmeKeepAlive conn cid => ⟨_, exec_nvmeKeepAlive conn cid s⟩
  | .keepAliveTimeout cntlid => ⟨_, exec_keepAliveTimeout cntlid s⟩
  | .nvmeAsyncEventRequest conn cid => ⟨_, exec_nvmeAsyncEventRequest conn cid s⟩
  | .nvmePropertyGet conn cid off => ⟨_, exec_nvmePropertyGet conn cid off s⟩
  | .nvmePropertySet conn cid off val => ⟨_, exec_nvmePropertySet conn cid off val s⟩
  | .nvmeFormatNvm conn cid nsid lbaf ses => ⟨_, exec_nvmeFormatNvm conn cid nsid lbaf ses s⟩
  | .nvmeSanitize conn cid action => ⟨_, exec_nvmeSanitize conn cid action s⟩
  | .nvmeFirmwareDownload conn cid off data => ⟨_, exec_nvmeFirmwareDownload conn cid off data s⟩
  | .nvmeFirmwareCommit conn cid slot action reset => ⟨_, exec_nvmeFirmwareCommit conn cid slot action reset s⟩
  | .h2cDataPdu conn cid off data headOk dataOk => ⟨_, exec_h2cDataPdu conn cid off data headOk dataOk s⟩
  | .destage nsid blk => ⟨_, exec_destage nsid blk s⟩
  | .ssdCommandComplete id ok data => ⟨_, exec_ssdCommandComplete id ok data s⟩
  | .ssdLinkDown port silent => ⟨_, exec_ssdLinkDown port silent s⟩
  | .sanitizeProgressSave prog => ⟨_, exec_sanitizeProgressSave prog s⟩
  | .nsInstall => ⟨_, exec_nsInstall s⟩
  | .nsRemove => ⟨_, exec_nsRemove s⟩
  | .nvtCtlWrite en maint => ⟨_, exec_nvtCtlWrite en maint s⟩
  | .snapSet cid most => ⟨_, exec_snapSet cid most s⟩
  | .snapArm cid => ⟨_, exec_snapArm cid s⟩
  | .snapAbort cid => ⟨_, exec_snapAbort cid s⟩
  | .snapStatus cid => ⟨_, exec_snapStatus cid s⟩
  | .snapRestore cid => ⟨_, exec_snapRestore cid s⟩
  | .preimageCopied g => ⟨_, exec_preimageCopied g s⟩
  | .snapshotCopy => ⟨_, exec_snapshotCopy s⟩
  | .buddyOfferMsg src m => ⟨_, exec_buddyOfferMsg src m s⟩
  | .buddyReplyMsg src refuse => ⟨_, exec_buddyReplyMsg src refuse s⟩
  | .buddyArmMsg src tide => ⟨_, exec_buddyArmMsg src tide s⟩
  | .buddyAckMsg src tide => ⟨_, exec_buddyAckMsg src tide s⟩
  | .gstop cid => ⟨_, exec_gstop cid s⟩
  | .gstopArmMsg src tide => ⟨_, exec_gstopArmMsg src tide s⟩
  | .gstopAckMsg src tide => ⟨_, exec_gstopAckMsg src tide s⟩
  | .ebbComplete => ⟨_, exec_ebbComplete s⟩
  | .ebbTimeout => ⟨_, exec_ebbTimeout s⟩
  | .cutReportMsg src inexact tide => ⟨_, exec_cutReportMsg src inexact tide s⟩
  | .gstopRelease cid => ⟨_, exec_gstopRelease cid s⟩
  | .gstopReleaseMsg src tide => ⟨_, exec_gstopReleaseMsg src tide s⟩
  | .memberExclude cid => ⟨_, exec_memberExclude cid s⟩
  | .memberExcludeMsg src dev tide => ⟨_, exec_memberExcludeMsg src dev tide s⟩
  | .memberInclude cid => ⟨_, exec_memberInclude cid s⟩
  | .memberIncludeMsg src dev tide => ⟨_, exec_memberIncludeMsg src dev tide s⟩
  | .memberAckMsg src arg tide => ⟨_, exec_memberAckMsg src arg tide s⟩
  | .safeCtlWrite val => ⟨_, exec_safeCtlWrite val s⟩
  | .errResume => ⟨_, exec_errResume s⟩
  | .recTailWrite val => ⟨_, exec_recTailWrite val s⟩
  | .sbEstopAssert => ⟨_, exec_sbEstopAssert s⟩
  | .marginPlanPeriod low mpd worst monitor => ⟨_, exec_marginPlanPeriod low mpd worst monitor s⟩
  | .attReport q cid norOk => ⟨_, exec_attReport q cid norOk s⟩
  | .attGetCert q cid => ⟨_, exec_attGetCert q cid s⟩
  | .attMeasureWeights cid => ⟨_, exec_attMeasureWeights cid s⟩
  | .weightMeasureDone => ⟨_, exec_weightMeasureDone s⟩
  | .attSvnCommit cid norOk => ⟨_, exec_attSvnCommit cid norOk s⟩
  | .tbCtlEnWrite val => ⟨_, exec_tbCtlEnWrite val s⟩
  | .tbSwtrig => ⟨_, exec_tbSwtrig s⟩
  | .dumpDefine cid => ⟨_, exec_dumpDefine cid s⟩
  | .dumpArm cid => ⟨_, exec_dumpArm cid s⟩
  | .dumpCancel cid => ⟨_, exec_dumpCancel cid s⟩
  | .dumpRing cid => ⟨_, exec_dumpRing cid s⟩
  | .dumpCopyDone k => ⟨_, exec_dumpCopyDone k s⟩
  | .dmpTailWrite val => ⟨_, exec_dmpTailWrite val s⟩
  | .scrubStep n links ecc => ⟨_, exec_scrubStep n links ecc s⟩
  | .channelRetrainDone n c => ⟨_, exec_channelRetrainDone n c s⟩
  | .retrainTimeout n c => ⟨_, exec_retrainTimeout n c s⟩
  | .binReqWrite m val => ⟨_, exec_binReqWrite m val s⟩
  | .binChange failed dead => ⟨_, exec_binChange failed dead s⟩
  | .errInjArm m val => ⟨_, exec_errInjArm m val s⟩
  | .dieLinkRetry link n failed => ⟨_, exec_dieLinkRetry link n failed s⟩
  | .zeroFillDone => ⟨_, exec_zeroFillDone s⟩
  | .warmExitDone => ⟨_, exec_warmExitDone s⟩
  | .sbPwrenAssert soon cool => ⟨_, exec_sbPwrenAssert soon cool s⟩
  | .sbPwrenDeassert => ⟨_, exec_sbPwrenDeassert s⟩
  | .sbRstAssert => ⟨_, exec_sbRstAssert s⟩
  | .sbRstDeassert sigOk => ⟨_, exec_sbRstDeassert sigOk s⟩
  | .vinRangeWarn mv => ⟨_, exec_vinRangeWarn mv s⟩
  | .vinFault mv => ⟨_, exec_vinFault mv s⟩
  | .railFault rail ovr => ⟨_, exec_railFault rail ovr s⟩
  | .senseOpen rail => ⟨_, exec_senseOpen rail s⟩
  | .faultValidClear bmc => ⟨_, exec_faultValidClear bmc s⟩
  | .temperatureWarning smp => ⟨_, exec_temperatureWarning smp s⟩
  | .thermalTrip sensor smp => ⟨_, exec_thermalTrip sensor smp s⟩
  | .criticalTemperature smp => ⟨_, exec_criticalTemperature smp s⟩
  | .pllUnlock pll => ⟨_, exec_pllUnlock pll s⟩
  | .referenceClockLoss nref => ⟨_, exec_referenceClockLoss nref s⟩
  | .mctpControlMessage code data => ⟨_, exec_mctpControlMessage code data s⟩
  | .mctpGetStatus => ⟨_, exec_mctpGetStatus s⟩
  | .mctpGetSensors smp => ⟨_, exec_mctpGetSensors smp s⟩
  | .setCap watts => ⟨_, exec_setCap watts s⟩
  | .getErrors idx => ⟨_, exec_getErrors idx s⟩
  | .norBegin size => ⟨_, exec_norBegin size s⟩
  | .norData data => ⟨_, exec_norData data s⟩
  | .norEnd slot svn revoke sigOk => ⟨_, exec_norEnd slot svn revoke sigOk s⟩
  | .waitneTimeout core cond d a b fn io => ⟨_, exec_waitneTimeout core cond d a b fn io s⟩
  | .controlReplyTimeout req dev => ⟨_, exec_controlReplyTimeout req dev s⟩
  | .siteStopsAnswering n => ⟨_, exec_siteStopsAnswering n s⟩
  | .siteTemperatureChange n hot => ⟨_, exec_siteTemperatureChange n hot s⟩
  | .bar4Resize log => ⟨_, exec_bar4Resize log s⟩
  | .hepLinkUp speed width flit mrrs mps host => ⟨_, exec_hepLinkUp speed width flit mrrs mps host s⟩
  | .apLinkUp port speed width flit aspm => ⟨_, exec_apLinkUp port speed width flit aspm s⟩
  | .ssdReady port cap => ⟨_, exec_ssdReady port cap s⟩
  | .nvmeTcpConnectionClose conn => ⟨_, exec_nvmeTcpConnectionClose conn s⟩
  | .sbEstopDeassert => ⟨_, exec_sbEstopDeassert s⟩
  | .vinRestored mv cool => ⟨_, exec_vinRestored mv cool s⟩
  | .sbPwrenHoldoffEnd cool => ⟨_, exec_sbPwrenHoldoffEnd cool s⟩
  | .railsInRegulation sigOk => ⟨_, exec_railsInRegulation sigOk s⟩
  | .busMasterSet mse => ⟨_, exec_busMasterSet mse s⟩
  | .hepFundamentalReset sigOk => ⟨_, exec_hepFundamentalReset sigOk s⟩
  | .reservedOpcode core word => ⟨_, exec_reservedOpcode core word s⟩
  | .instructionFetchFault core => ⟨_, exec_instructionFetchFault core s⟩
  | .badTypeJobBegin c ix => ⟨_, exec_badTypeJobBegin c ix s⟩
  | .nvmeInvalidOpcode conn cid opc => ⟨_, exec_nvmeInvalidOpcode conn cid opc s⟩
  | .mctpUnsupportedMessage vendor cmd => ⟨_, exec_mctpUnsupportedMessage vendor cmd s⟩
  | .smbusArp code addr => ⟨_, exec_smbusArp code addr s⟩
  | .fwUpdateVerified sigOk => ⟨_, exec_fwUpdateVerified sigOk s⟩
  | .attReportSigned => ⟨_, exec_attReportSigned s⟩

end Sys2Proof.Machine
end

