-- ==== Sys2Proof/Laws/Word.lean ====
section
/-!
SUPPORT. Laws/Word.lean: fields of numbers and of registers after one of them is replaced.
-/
namespace Sys2Proof

/-- A field is smaller than its width allows. -/
theorem fieldN_lt (x lo w : Nat) : fieldN x lo w < 2 ^ w := Nat.mod_lt _ (Nat.two_pow_pos w)

/-- A number as what lies above a field, the field, and what lies below. -/
theorem field_split (x lo w : Nat) :
    x = 2 ^ lo * (x / 2 ^ lo / 2 ^ w * 2 ^ w + fieldN x lo w) + x % 2 ^ lo := by
  unfold fieldN; rw [Nat.shiftRight_eq_div_pow]
  have h1 := Nat.div_add_mod x (2 ^ lo)
  have h2 := Nat.div_add_mod (x / 2 ^ lo) (2 ^ w)
  rw [Nat.mul_comm (x / 2 ^ lo / 2 ^ w), h2, h1]

/-- The number with a field replaced, in the same parts. -/
theorem setFieldN_eq (x lo w v : Nat) :
    setFieldN x lo w v = 2 ^ lo * (x / 2 ^ lo / 2 ^ w * 2 ^ w + v % 2 ^ w) + x % 2 ^ lo := by
  have h := field_split x lo w
  unfold setFieldN
  rw [Nat.mul_add] at h ⊢
  rw [Nat.mul_comm (fieldN x lo w), Nat.mul_comm (v % 2 ^ w)]
  omega

/-- The field replaced reads what was put there. -/
@[simp] theorem fieldN_setFieldN (x lo w v : Nat) : fieldN (setFieldN x lo w v) lo w = v % 2 ^ w := by
  rw [setFieldN_eq]; unfold fieldN; rw [Nat.shiftRight_eq_div_pow]
  rw [Nat.mul_add_div (Nat.two_pow_pos lo), Nat.div_eq_of_lt (Nat.mod_lt _ (Nat.two_pow_pos lo)), Nat.add_zero]
  rw [Nat.add_comm, Nat.add_mul_mod_self_right, Nat.mod_mod]

/-- Replacing a field within a width keeps the number within it. -/
theorem setFieldN_lt {x lo w v n : Nat} (hx : x < 2 ^ n) (hw : lo + w ≤ n) : setFieldN x lo w v < 2 ^ n := by
  rw [setFieldN_eq]
  have hv : v % 2 ^ w < 2 ^ w := Nat.mod_lt _ (Nat.two_pow_pos w)
  have hl : x % 2 ^ lo < 2 ^ lo := Nat.mod_lt _ (Nat.two_pow_pos lo)
  have hh : x / 2 ^ lo / 2 ^ w < 2 ^ (n - lo - w) := by
    rw [Nat.div_div_eq_div_mul, ← Nat.pow_add]
    rw [Nat.div_lt_iff_lt_mul (Nat.two_pow_pos _), ← Nat.pow_add]
    rwa [show n - lo - w + (lo + w) = n by omega]
  have e : 2 ^ n = 2 ^ lo * (2 ^ (n - lo - w) * 2 ^ w) := by rw [← Nat.pow_add, ← Nat.pow_add]; congr 1; omega
  rw [e]
  have h1 : x / 2 ^ lo / 2 ^ w * 2 ^ w + v % 2 ^ w + 1 ≤ 2 ^ (n - lo - w) * 2 ^ w := by
    have := Nat.mul_le_mul_right (2 ^ w) hh
    rw [Nat.succ_mul] at this; omega
  have h2 := Nat.mul_le_mul_left (2 ^ lo) h1
  rw [Nat.mul_add, Nat.mul_one] at h2
  omega

/-- A field that lies apart is not changed. -/
theorem fieldN_setFieldN_other {x lo w v lo' w' : Nat} (h : lo + w ≤ lo' ∨ lo' + w' ≤ lo) :
    fieldN (setFieldN x lo w v) lo' w' = fieldN x lo' w' := by
  have tb (y i : Nat) : (fieldN y lo' w').testBit i = (decide (i < w') && y.testBit (lo' + i)) := by
    unfold fieldN; rw [Nat.testBit_mod_two_pow, Nat.testBit_shiftRight]
  apply Nat.eq_of_testBit_eq; intro i
  rw [tb, tb]
  by_cases hi : i < w'
  · simp only [hi, decide_true, Bool.true_and]
    have key (y : Nat) (a b c : Nat) (hb : b < 2 ^ w) (hc : c < 2 ^ lo) (hy : y = 2 ^ lo * (a * 2 ^ w + b) + c) :
        y.testBit (lo' + i) = if lo' + i < lo then c.testBit (lo' + i) else a.testBit (lo' + i - lo - w) := by
      subst hy
      rw [Nat.testBit_two_pow_mul_add _ hc]
      by_cases hl : lo' + i < lo
      · simp [hl]
      · simp only [hl, if_false]
        rw [Nat.mul_comm a, Nat.testBit_two_pow_mul_add _ hb, if_neg (by omega)]
    have hl : x % 2 ^ lo < 2 ^ lo := Nat.mod_lt _ (Nat.two_pow_pos lo)
    rw [key _ _ _ _ (Nat.mod_lt v (Nat.two_pow_pos w)) hl (setFieldN_eq x lo w v),
      key x _ _ _ (fieldN_lt x lo w) hl (field_split x lo w)]
  · simp [hi]

@[simp] theorem bitN_b2n (x : Bool) : bitN (b2n x) 0 = x := by cases x <;> rfl

namespace Machine

/-- A field of a register after it is replaced. -/
theorem Dev.g_s_same (d : Dev) {k lo w v : Nat} (h : lo + w ≤ 32) : (d.s k lo w v).g k lo w = v % 2 ^ w := by
  unfold Dev.g Dev.s
  rw [Dev.rd_wr_same, BitVec.toNat_ofNat, Nat.mod_eq_of_lt (setFieldN_lt (d.rd k).isLt h), fieldN_setFieldN]

/-- A field apart from the one replaced, or of another register. -/
theorem Dev.g_s_other (d : Dev) {k lo w v j lo' w' : Nat} (hw : lo + w ≤ 32) (h : k ≠ j ∨ lo + w ≤ lo' ∨ lo' + w' ≤ lo) :
    (d.s k lo w v).g j lo' w' = d.g j lo' w' := by
  unfold Dev.g Dev.s
  by_cases hk : k = j
  · subst hk
    rw [Dev.rd_wr_same, BitVec.toNat_ofNat, Nat.mod_eq_of_lt (setFieldN_lt (d.rd k).isLt hw),
      fieldN_setFieldN_other (by omega)]
  · rw [Dev.rd_wr_other _ _ hk]

theorem Dev.b_eq (d : Dev) (k i : Nat) : d.b k i = (d.g k i 1 == 1) := rfl

/-- A bit of a register after it is replaced. -/
theorem Dev.b_sb_same (d : Dev) {k i : Nat} (v : Bool) (h : i < 32) : (d.sb k i v).b k i = v := by
  rw [Dev.b_eq, Dev.sb, Dev.g_s_same d (by omega)]; cases v <;> rfl

/-- A bit apart from the one replaced, or of another register. -/
theorem Dev.b_sb_other (d : Dev) {k i j m : Nat} (v : Bool) (hi : i < 32) (h : k ≠ j ∨ i ≠ m) : (d.sb k i v).b j m = d.b j m := by
  rw [Dev.b_eq, Dev.sb, Dev.g_s_other d (by omega) (by omega), ← Dev.b_eq]

/-- Fields and bits after a command: as it left them, but for VCLK_RESTARTS. -/
theorem Dev.g_settle (d : Dev) {k : Nat} (lo w : Nat) (h : 0x2804 ≠ k) : d.settle.g k lo w = d.g k lo w := by
  unfold Dev.g; rw [Dev.rd_settle d h]
theorem Dev.b_settle (d : Dev) {k : Nat} (i : Nat) (h : 0x2804 ≠ k) : d.settle.b k i = d.b k i := by
  unfold Dev.b; rw [Dev.rd_settle d h]

end Machine

end Sys2Proof
end

