-- ==== Sys2Proof/Laws/Banks.lean ====
section
/-!
SUPPORT. Laws/Banks.lean: the banks of a page and its commit (R52 to R56).
-/
namespace Sys2Proof.Laws
open Sys2Proof Sys2Proof.Machine

/-- Reading a key of a map that is one map where `f` holds and another beside it. -/
theorem get_filterT (f : Nat → Bool) (m : Map Word) (k : Nat) (r : Map Word) (h : f k = true) :
    Map.get regReset (m.filter (fun c => f c.1) ++ r) k = Map.get regReset (m ++ r) k := by
  induction m with
  | nil => rfl
  | cons c t ih =>
    rw [List.filter_cons]
    by_cases hk : c.1 = k
    · subst hk; simp [h, Map.get_cons]
    · by_cases hc : f c.1 = true
      · rw [if_pos hc, List.cons_append, List.cons_append, Map.get_cons, Map.get_cons, if_neg hk, if_neg hk, ih]
      · rw [if_neg hc, ih, List.cons_append, Map.get_cons, if_neg hk]
theorem get_filterF (f : Nat → Bool) (m : Map Word) (k : Nat) (r : Map Word) (h : f k = false) :
    Map.get regReset (m.filter (fun c => f c.1) ++ r) k = Map.get regReset r k := by
  induction m with
  | nil => rfl
  | cons c t ih =>
    rw [List.filter_cons]
    by_cases hc : f c.1 = true
    · rw [if_pos hc, List.cons_append, Map.get_cons, if_neg (by intro e; rw [e, h] at hc; exact absurd hc (by decide)), ih]
    · rw [if_neg hc, ih]
theorem get_app (m r : Map Word) (k : Nat) (h : Map.get regReset r k = regReset k) :
    Map.get regReset (m ++ r) k = Map.get regReset m k := by
  induction m with
  | nil => exact h
  | cons c t ih => rw [List.cons_append, Map.get_cons, Map.get_cons, ih]
/-- A bank copied: what the active bank reads. -/
theorem copyBank_rdA (d : Dev) (pg k : Nat) : (d.copyBank pg).rdA k = if pageOf k = pg ∧ isBanked k = true then d.rd k else d.rdA k := by
  unfold Dev.copyBank Dev.rdA Dev.rd
  dsimp only
  have e : ∀ r : Map Word, (r.filter fun c => !(pageOf c.1 == pg && isBanked c.1)) = (r.filter fun c => !(pageOf c.1 == pg && isBanked c.1)) ++ [] := fun r => (List.append_nil _).symm
  by_cases h : pageOf k = pg ∧ isBanked k = true
  · have h' : (pageOf k == pg && isBanked k) = true := by simp [h.1, h.2]
    rw [if_pos h, get_filterT (fun k => pageOf k == pg && isBanked k) _ _ _ h', get_app]
    rw [e, get_filterF (fun k => !(pageOf k == pg && isBanked k)) _ _ _ (by rw [h']; rfl)]; rfl
  · have h' : (pageOf k == pg && isBanked k) = false := by
      rw [Bool.and_eq_false_iff]; by_cases h1 : pageOf k = pg
      · right; simpa [h1] using h
      · left; simpa using h1
    rw [if_neg h, get_filterF (fun k => pageOf k == pg && isBanked k) _ _ _ h', e,
      get_filterT (fun k => !(pageOf k == pg && isBanked k)) _ _ _ (by rw [h']; rfl), List.append_nil]
/-- The commit of a page set, and every other. -/
theorem commit_set (d : Dev) (pg p : Nat) (c : Commit) : (d.setCommit pg c).commit p = if p = pg then c else d.commit p := by
  unfold Dev.setCommit Dev.commit
  dsimp only
  rw [Map.get_cons]
  by_cases h : p = pg
  · simp [h]
  · rw [if_neg (Ne.symm h), if_neg h]
    have : ∀ m : Map Commit, Map.get (fun _ => ({} : Commit)) (m.filter (·.1 ≠ pg)) p = Map.get (fun _ => {}) m p := by
      intro m
      induction m with
      | nil => rfl
      | cons x t ih =>
        rw [List.filter_cons]
        by_cases hx : x.1 = pg
        · simp only [hx, ne_eq, not_true_eq_false, decide_false, Bool.false_eq_true, if_false]
          rw [Map.get_cons, if_neg (by rw [hx]; exact Ne.symm h)]; exact ih
        · simp only [hx, ne_eq, not_false_eq_true, decide_true, if_true]
          rw [Map.get_cons, Map.get_cons, ih]
    exact this _
/-- The page of a register offset. -/
theorem pageOf_lt {off : Nat} (h : off < 0x200000) : pageOf off / 4096 = off / 4096 ∧ off / 4096 % 4096 = off / 4096 := by unfold pageOf; omega

end Sys2Proof.Laws
end

