-- ==== Sys2Proof/Laws/Frames.lean ====
section
/-!
SUPPORT. Laws/Frames.lean: what the shared operations leave as it was. Each `rest…` is the device with everything a group
of operations may change set aside; an operation of the group leaves it unchanged.
-/
namespace Sys2Proof.Machine

/-- All but registers, memory with its check words, the errors that operations meet and what merges found, pre-images being
copied, dumps running, and the running weight measurement. -/
def Dev.restM (d : Dev) : Dev :=
  { d with regs := [], mem := [], marks := [], upsets := [], found := [], ckp := { d.ckp with copying := [] }
           trc := { d.trc with copies := [] }, sec := { d.sec with meas := none } }

/-- All but those, and what a completion, an event or an MSI-X message changes. -/
def Dev.restC (d : Dev) : Dev :=
  { d.restM with fw := { d.fw with fetched := [], rings := [] }, port := { d.port with lnk := [] }, out := [], msixPend := [] }

/-- All but those, and what the recording of an error changes. -/
def Dev.restE (d : Dev) : Dev :=
  { d.restC with
    err := {}, coves := [], cores := []
    fw := { d.restC.fw with escalSlackPend := none }
    tide := { d.tide with hold := false }, slack := { d.slack with escal := false }
    ckp := { d.ckp with run := none, gran := [], pre := [], copying := [] }
    net := { d.net with reorder := [] }
    trc := { d.trc with copies := [], bufs := [], cores := [] } }

/-- All but those, and what the sending of a packet changes. -/
def Dev.restS (d : Dev) : Dev := { d.restE with emh := { d.emh with ctx := [] }, tsq := { d.tsq with frames := [] }, fresh := 0 }

theorem restC_of_restM {x y : Dev} (h : x.restM = y.restM) : x.restC = y.restC := by
  have h2 := congrArg (fun d : Dev => ({ d with fw := { d.fw with fetched := [], rings := [] }, port := { d.port with lnk := [] }, out := [], msixPend := [] } : Dev)) h
  exact h2

theorem restE_of_restC {x y : Dev} (h : x.restC = y.restC) : x.restE = y.restE := by
  have h2 := congrArg (fun d : Dev => ({ d with
    err := {}, coves := [], cores := []
    fw := { d.fw with escalSlackPend := none }
    tide := { d.tide with hold := false }, slack := { d.slack with escal := false }
    ckp := { d.ckp with run := none, gran := [], pre := [], copying := [] }
    net := { d.net with reorder := [] }
    trc := { d.trc with copies := [], bufs := [], cores := [] } } : Dev)) h
  exact h2

theorem restS_of_restE {x y : Dev} (h : x.restE = y.restE) : x.restS = y.restS := by
  have h2 := congrArg (fun d : Dev => ({ d with emh := { d.emh with ctx := [] }, tsq := { d.tsq with frames := [] }, fresh := 0 } : Dev)) h
  exact h2

variable (d : Dev)

/-! ### Registers and memory -/

@[simp] theorem Dev.setErr_restM (pg i : Nat) : (d.setErr pg i).restM = d.restM := by
  unfold Dev.setErr; dsimp only; split <;> rfl

@[simp] theorem Dev.countWrite_restM (a : Nat) (w mis : Bool) (m : Mark) : (d.countWrite a w mis m).restM = d.restM := by
  unfold Dev.countWrite; dsimp only; (repeat' split) <;> first | rfl | simp [Dev.setErr_restM]; first | done | rfl

@[simp] theorem Dev.watchWrite_restM (a : Nat) : (d.watchWrite a).restM = d.restM := by
  unfold Dev.watchWrite; dsimp only; (repeat' split) <;> rfl

@[simp] theorem Dev.granPut_restM (a : Nat) (l : List Byte) (m : Mark) (mis : Bool) : (d.granPut a l m mis).restM = d.restM := by
  unfold Dev.granPut
  split
  · rfl
  · have key : ∀ (e : Dev) (x : List Host.Cell) (k : Map Mark) (b w : Bool) (mm : Mark), e.restM = d.restM →
        (if b then (({ e with mem := x, marks := k } : Dev).countWrite a w mis mm).injectDone a
          else ({ e with mem := x, marks := k } : Dev).countWrite a w mis mm).restM = d.restM := by
      intro e x k b w mm he
      have h : (({ e with mem := x, marks := k } : Dev).countWrite a w mis mm).restM = d.restM := by
        rw [Dev.countWrite_restM]; exact he
      split <;> exact h
    exact key _ _ _ _ _ _ (Dev.watchWrite_restM d a)

theorem Dev.granStore_restM (a : Nat) (l : List Byte) (p : Bool) : (d.granStore a l p).1.restM = d.restM :=
  Dev.granPut_restM d a l _ _

theorem Dev.cow_restM (a : Nat) : (d.cow a).restM = d.restM := by unfold Dev.cow; dsimp only; split <;> rfl

/-- A read that meets errors changes the errors, check words and registers. -/
theorem Dev.meet_restM (a : Nat) : (d.meet a).1.restM = d.restM := by
  unfold Dev.meet; dsimp only; (repeat' split) <;> rfl

theorem Dev.writeMeets_restM (a : Nat) (w : Bool) : (d.writeMeets a w).1.restM = d.restM := by
  unfold Dev.writeMeets; split
  · rfl
  · exact Dev.meet_restM d a

theorem Dev.storePiece_restM (a : Nat) (l : List Byte) (p : Bool) : (d.storePiece a l p).1.restM = d.restM :=
  (Dev.granStore_restM _ a l p).trans ((Dev.cow_restM _ a).trans (Dev.writeMeets_restM d a _))

theorem Dev.store_restM (a : Nat) (l : List Byte) (p : Bool) : (d.store a l p).1.restM = d.restM := by
  unfold Dev.store
  suffices h : ∀ (ps : List (Nat × List Byte)) (r : Dev × List (Option Upset × Nat)), r.1.restM = d.restM →
      (ps.foldl (fun (r : Dev × List (Option Upset × Nat)) x =>
        if !storable x.1 then r
        else
          let q := r.1.storePiece x.1 x.2 p
          (q.1, r.2 ++ q.2)) r).1.restM = d.restM from h _ _ rfl
  intro ps
  induction ps with
  | nil => intro r hr; exact hr
  | cons x t ih =>
    intro r hr
    rw [List.foldl_cons]
    refine ih _ ?_
    split
    · exact hr
    · exact (Dev.storePiece_restM r.1 _ _ _).trans hr

@[simp] theorem Dev.poke_restM (a : Nat) (l : List Byte) : (d.poke a l).restM = d.restM := by
  unfold Dev.poke; dsimp only; split
  · exact Dev.store_restM d a l false
  · exact Dev.store_restM d a l false

/-! ### Rings -/

@[simp] theorem Dev.msix_restC (v : Nat) : (d.msix v).restC = d.restC := by
  unfold Dev.msix; dsimp only; (repeat' split) <;> first | rfl | (unfold Dev.emit; rfl)

@[simp] theorem Dev.cqWrite_restC (q cid st fl r : Nat) : (d.cqWrite q cid st fl r).restC = d.restC := by
  unfold Dev.cqWrite; dsimp only
  have h := restC_of_restM (Dev.poke_restM d ((d.ring q).cqBase + 16 * (d.ring q).cqTail)
    (cqEntry cid st (d.ring q).sqHead (fl + b2n (d.ring q).phase) r))
  split
  · exact h
  · rw [Dev.msix_restC]; exact h

@[simp] theorem Dev.complete_restC (q cid st r : Nat) : (d.complete q cid st r).restC = d.restC := by
  unfold Dev.complete
  split
  · rfl
  · dsimp only; split
    · rw [Dev.cqWrite_restC]; rfl
    · rfl

@[simp] theorem Dev.event_restC (c r : Nat) : (d.event c r).restC = d.restC := by
  unfold Dev.event; dsimp only; (repeat' split) <;> first | rfl | simp

/-! ### Errors -/

theorem Dev.poke_restE (a : Nat) (l : List Byte) : (d.poke a l).restE = d.restE :=
  restE_of_restC (restC_of_restM (Dev.poke_restM d a l))

@[simp] theorem Dev.setTbuf_restE (b : Nat) (x : TraceBuf) : (d.setTbuf b x).restE = d.restE := rfl
@[simp] theorem Dev.sb_restE (k i : Nat) (v : Bool) : (d.sb k i v).restE = d.restE := rfl
@[simp] theorem Dev.s_restE (k lo w v : Nat) : (d.s k lo w v).restE = d.restE := rfl
@[simp] theorem Dev.inc_restE (k : Nat) : (d.inc k).restE = d.restE := rfl
@[simp] theorem Dev.setInt_restE (k i : Nat) : (d.setInt k i).restE = d.restE := rfl
@[simp] theorem Dev.setErr_restE (k i : Nat) : (d.setErr k i).restE = d.restE :=
  restE_of_restC (restC_of_restM (Dev.setErr_restM d k i))
@[simp] theorem Dev.tbWrite_restE (b : Nat) (l : List Byte) : (d.tbWrite b l).restE = d.restE := by
  unfold Dev.tbWrite
  split
  · rfl
  · extract_lets n w d1 pol d2 d3
    have h1 : d1.restE = d.restE := (Dev.s_restE _ _ _ _ _).trans (Dev.poke_restE d _ l)
    have h2 : d2.restE = d.restE := by
      change (if _ then (if _ then d1.sb _ 0 true else d1.sb _ 2 true) else d1).restE = _
      split
      · split <;> exact (Dev.sb_restE d1 _ _ _).trans h1
      · exact h1
    split
    · exact h2
    · rename_i k _
      change (if _ then (d2.setTbuf b _).sb _ 0 true else d2.setTbuf b _).restE = _
      have h3 := (Dev.setTbuf_restE d2 b { d2.tbuf b with left := some (k - 1) }).trans h2
      split
      · exact (Dev.sb_restE _ _ _ _).trans h3
      · exact h3

@[simp] theorem Dev.oweSync_restE (b : Nat) : (d.oweSync b).restE = d.restE :=
  Dev.each_proj d Dev.restE _ _ fun _ _ => rfl

@[simp] theorem Dev.tbFlush_restE (b f : Nat) : (d.tbFlush b f).restE = d.restE := by
  induction f generalizing d with
  | zero => rfl
  | succ f ih =>
    unfold Dev.tbFlush; dsimp only
    split
    · rfl
    · split
      · rfl
      · rw [ih]; split <;> simp

@[simp] theorem Dev.tbPut_restE (b : Nat) (l : List Byte) : (d.tbPut b l).restE = d.restE := by
  unfold Dev.tbPut; extract_lets d1 x first
  have h : d1.restE = d.restE := Dev.tbFlush_restE d b _
  split
  · rw [Dev.tbWrite_restE, h]
  · split
    · rw [Dev.setTbuf_restE, h]
    · rw [Dev.inc_restE, Dev.setTbuf_restE, h]

@[simp] theorem Dev.tbRec_restE (b ty src n dt : Nat) : (d.tbRec b ty src n dt).restE = d.restE := by
  unfold Dev.tbRec; dsimp only; (repeat' split) <;> simp

theorem Dev.markRange_restE (a n : Nat) (m : Mark) : (d.markRange a n m).restE = d.restE := by
  unfold Dev.markRange
  split
  · rfl
  · exact Dev.each_proj d Dev.restE _ _ fun _ _ => rfl

theorem Dev.err_restE (e : Err) : ({ d with err := e } : Dev).restE = d.restE := rfl
theorem Dev.escal_restE (b : Bool) : ({ d with slack := { d.slack with escal := b } } : Dev).restE = d.restE := rfl
theorem Dev.pend_restE (x : Option DWord) : ({ d with fw := { d.fw with escalSlackPend := x } } : Dev).restE = d.restE := rfl

@[simp] theorem Dev.trigger_restE (b c t : Nat) : (d.trigger b c t).restE = d.restE := by
  unfold Dev.trigger
  split
  · extract_lets d1 k x d2
    have h1 : d1.restE = d.restE := (Dev.tbRec_restE _ b _ _ _ _).trans (Dev.sb_restE d _ _ _)
    have h2 : d2.restE = d.restE := (Dev.setTbuf_restE d1 b _).trans h1
    split
    · split
      · exact (Dev.sb_restE d2 _ _ _).trans h2
      · exact h2
    · exact h1
  · rfl

@[simp] theorem Dev.triggerAll_restE (c : Nat) (p : Nat → Bool) : (d.triggerAll c p).restE = d.restE := by
  unfold Dev.triggerAll; exact Dev.each_proj d Dev.restE _ _ fun a e => Dev.trigger_restE e a c 0

theorem Dev.event_restE (c r : Nat) : (d.event c r).restE = d.restE := restE_of_restC (Dev.event_restC d c r)

@[simp] theorem Dev.putRec_restE (r : ErrRec) : (d.putRec r).restE = d.restE := by
  have h5 (x : Dev) : (x.setErr 0x5000 0).restE = x.restE := restE_of_restC (restC_of_restM (Dev.setErr_restM x _ _))
  unfold Dev.putRec; dsimp only
  split <;> split <;> first
    | (rw [Dev.triggerAll_restE, Dev.event_restE]; first | (refine (h5 _).trans ?_; rfl) | rfl)
    | (rw [Dev.event_restE]; first | (refine (h5 _).trans ?_; rfl) | rfl)

@[simp] theorem Dev.freezeCove_restE (n : Nat) : (d.freezeCove n).restE = d.restE := by
  unfold Dev.freezeCove; dsimp only; split <;> rfl

@[simp] theorem Dev.enterSafe_restE (c : Nat) : (d.enterSafe c).restE = d.restE := by
  have hc (l : List Cmd) (x : Dev) : (x.each l fun k d => d.complete k.pair k.cid 0x0304 0).restE = x.restE :=
    Dev.each_proj x Dev.restE _ _ fun a e => restE_of_restC (Dev.complete_restC e _ _ _ _)
  have hg (x : Dev) : x.spoilLanding.restE = x.restE := by
    unfold Dev.spoilLanding; exact Dev.each_proj x Dev.restE _ _ fun r e => Dev.markRange_restE e _ _ _
  unfold Dev.enterSafe
  extract_lets s0 d0 d1 d2 s2 d3 s3 s4 d4 d5
  have h1 : d1.restE = d.restE := rfl
  have h2 : d2.restE = d.restE := (hc _ d1).trans h1
  clear_value d2
  have h4 : d4.restE = d2.restE := rfl
  have h5 : d5.restE = d.restE := (hg d4).trans (h4.trans h2)
  clear_value d5
  split
  · rfl
  · split
    · exact (Dev.setErr_restE _ _ _).trans h5
    · exact h5

/-- What a class does once its record is written. -/
theorem Dev.afterRecord_restE (x : Dev) (e b : Bool) (w : Err) (dom : Nat) (h : x.restE = d.restE) :
    (if e then
      let d4 := if b then { x with err := w } else x
      if dom < 0x40 then d4.freezeCove dom
      else if d4.slackNow then { d4 with slack := { d4.slack with escal := true } }
      else { d4 with fw := { d4.fw with escalSlackPend := some d4.tide.cur } }
    else if b then { x with err := w } else x).restE = d.restE := by
  have h4 : (if b then ({ x with err := w } : Dev) else x).restE = d.restE := by
    split
    · exact (Dev.err_restE x w).trans h
    · exact h
  generalize (if b then ({ x with err := w } : Dev) else x) = y at h4
  dsimp only
  split
  · split
    · exact (Dev.freezeCove_restE y dom).trans h4
    · split
      · exact (Dev.escal_restE y true).trans h4
      · exact (Dev.pend_restE y _).trans h4
  · exact h4

@[simp] theorem Dev.recordAs_restE (pg c dom base cls : Nat) (e : Bool) (i0 i1 : Nat) :
    (d.recordAs pg c dom base cls e i0 i1).restE = d.restE := by
  unfold Dev.recordAs
  generalize srcOf pg = q
  obtain ⟨ty, ins⟩ := q
  dsimp only
  have hp (x : Dev) (r : ErrRec) (hx : x.restE = d.restE) : (x.putRec r).restE = d.restE := (Dev.putRec_restE x r).trans hx
  have h2 : (if e then (d.inc ([0x5800, 0x5804, 0x5808, 0x580c].getD cls 0x580c)).inc 0x5810
      else d.inc ([0x5800, 0x5804, 0x5808, 0x580c].getD cls 0x580c)).restE = d.restE := by split <;> simp
  generalize (if e then (d.inc ([0x5800, 0x5804, 0x5808, 0x580c].getD cls 0x580c)).inc 0x5810
      else d.inc ([0x5800, 0x5804, 0x5808, 0x580c].getD cls 0x580c)) = x2 at h2 ⊢
  have h3 := fun r => hp x2 r h2
  split
  · generalize hx : x2.putRec _ = x3
    have h4 : x3.restE = d.restE := hx ▸ h3 _
    exact (Dev.enterSafe_restE _ c).trans ((Dev.err_restE x3 _).trans h4)
  · generalize hx : x2.putRec _ = x3
    have h4 : x3.restE = d.restE := hx ▸ h3 _
    exact Dev.afterRecord_restE d x3 _ _ _ dom h4

/-- What follows the setting of ERR_STS. -/
theorem Dev.report_body (x : Dev) (pg c dom i0 i1 cls ty ins : Nat) (msk : Bool) (h0 : x.restE = d.restE) :
   (if msk && decide (cls ≤ 1) then x.inc (if cls = 0 then 0x5800 else 0x5804)
  else if cls = 0 then
    if x.err.corrSeen.any fun y => y.1 == (pg, c) && decide ((x.trclk - y.2).toNat < 1000000000) then x.inc 0x5800
    else
      let l := ((pg, c), x.trclk) :: x.err.corrSeen.filter (·.1 ≠ (pg, c))
      ({ x with err := { x.err with corrSeen := l } } : Dev).recordAs pg c dom (errClass c) 0 false i0 i1
  else if cls = 3 then x.recordAs pg c dom (errClass c) 3 false i0 i1
  else
    let ws := x.err.windows.filter (·.domain = dom)
    match ws.find? fun w => w.code == c && w.srcType == ty && w.srcInst == ins with
    | some w =>
      let r := x.err.recs.get (fun _ => {}) w.idx
      let recs := (w.idx, { r with count := min 65535 (r.count + 1) }) :: x.err.recs.filter (·.1 ≠ w.idx)
      ({ x with err := { x.err with recs := recs } } : Dev).inc 0x5814
    | none =>
      if ws.isEmpty || !errOpens c then x.recordAs pg c dom (errClass c) cls false i0 i1
      else if dom < 0x40 then x.recordAs pg c dom (errClass c) 2 true i0 i1
      else if ws.length = 1 then x.recordAs pg c dom (errClass c) (cls + 1) true i0 i1
      else x.recordAs pg c dom (errClass c) 3 true i0 i1).restE = d.restE := by
    have hr (y : Dev) (b cl : Nat) (e : Bool) (hy : y.restE = d.restE) : (y.recordAs pg c dom b cl e i0 i1).restE = d.restE :=
      (Dev.recordAs_restE y pg c dom b cl e i0 i1).trans hy
    have hi (y : Dev) (k : Nat) (hy : y.restE = d.restE) : (y.inc k).restE = d.restE := hy
    have he (e : Err) : ({ x with err := e } : Dev).restE = d.restE := (Dev.err_restE x e).trans h0
    dsimp only
    split
    · exact hi _ _ h0
    · split
      · split
        · exact hi _ _ h0
        · exact hr _ _ _ _ (he _)
      · split
        · exact hr _ _ _ _ h0
        · split
          · exact hi _ _ (he _)
          · split
            · exact hr _ _ _ _ h0
            · split
              · exact hr _ _ _ _ h0
              · split
                · exact hr _ _ _ _ h0
                · exact hr _ _ _ _ h0
@[simp] theorem Dev.report_restE (pg : Nat) (bit : Option Nat) (c dom i0 i1 : Nat) :
    (d.report pg bit c dom i0 i1).restE = d.restE := by
  unfold Dev.report
  cases bit with
  | some b => exact Dev.report_body d (d.setErr pg b) pg c dom i0 i1 _ _ _ _ (by simp)
  | none => exact Dev.report_body d d pg c dom i0 i1 _ _ _ _ rfl

/-! ### Sending -/

theorem Dev.report_restS (pg : Nat) (bit : Option Nat) (c dom i0 i1 : Nat) :
    (d.report pg bit c dom i0 i1).restS = d.restS := restS_of_restE (Dev.report_restE d pg bit c dom i0 i1)
theorem Dev.setErr_restS (pg i : Nat) : (d.setErr pg i).restS = d.restS := restS_of_restE (Dev.setErr_restE d pg i)
theorem Dev.inc_restS (k : Nat) : (d.inc k).restS = d.restS := rfl
theorem Dev.complete_restS (q cid st r : Nat) : (d.complete q cid st r).restS = d.restS :=
  restS_of_restE (restE_of_restC (Dev.complete_restC d q cid st r))
theorem Dev.event_restS (c r : Nat) : (d.event c r).restS = d.restS := restS_of_restE (Dev.event_restE d c r)
theorem Dev.pokeN_restS (a n v : Nat) : (d.pokeN a n v).restS = d.restS :=
  restS_of_restE (restE_of_restC (restC_of_restM (Dev.poke_restM d a _)))
theorem Dev.setCtx_restS (x : Ctx) : (d.setCtx x).restS = d.restS := rfl
theorem Dev.lastMemErr_restS (a k : Nat) : (d.lastMemErr a k).restS = d.restS := by
  unfold Dev.lastMemErr; generalize siteOf d.fw.layout a = q; obtain ⟨n, o⟩ := q; rfl

theorem Dev.cwMismatch_restS (pg dom a : Nat) : (d.cwMismatch pg dom a).restS = d.restS := by
  unfold Dev.cwMismatch; generalize srcOf pg = q; obtain ⟨t, i⟩ := q; exact Dev.report_restS d _ _ _ _ _ _

theorem Dev.linkRetries_restS (a k : Nat) : (d.linkRetries a k).restS = d.restS := by
  unfold Dev.linkRetries; dsimp only
  split
  · rfl
  · exact (Dev.report_restS _ _ _ _ _ _ _).trans rfl

theorem Dev.upsetRec_restS (a : Nat) (u : Upset) : (d.upsetRec a u).restS = d.restS := by
  unfold Dev.upsetRec; dsimp only
  split
  · exact Dev.linkRetries_restS d _ _
  · rfl
  · rfl
  · exact (Dev.report_restS _ _ _ _ _ _ _).trans ((Dev.lastMemErr_restS _ _ _).trans rfl)
  · rfl
  · exact Dev.report_restS d _ _ _ _ _ _

theorem Dev.readInject_restS (a : Nat) : (d.readInject a).restS = d.restS := by
  unfold Dev.readInject
  exact (Dev.each_proj _ Dev.restS _ _ fun u e => Dev.upsetRec_restS e a u).trans
    (restS_of_restE (restE_of_restC (restC_of_restM (Dev.meet_restM d a))))

theorem Dev.ctlMismatch_restS (pg dom g : Nat) : (d.ctlMismatch pg dom g).restS = d.restS := by
  unfold Dev.ctlMismatch; dsimp only
  split
  · exact (Dev.lastMemErr_restS _ _ _).trans ((Dev.setErr_restS _ _ _).trans (Dev.cwMismatch_restS d _ _ _))
  · exact Dev.cwMismatch_restS d _ _ _

/-- What is found in a merge is recorded, and no more. -/
theorem Dev.foundRec_restS (f : Found) : (d.foundRec f).restS = d.restS := by
  unfold Dev.foundRec
  split
  · exact Dev.upsetRec_restS d _ _
  · exact Dev.ctlMismatch_restS d _ _ _

theorem Dev.recordFound_restS : d.recordFound.restS = d.restS := by
  unfold Dev.recordFound
  split
  · rfl
  · exact (Dev.each_proj _ Dev.restS _ _ fun f e => Dev.foundRec_restS e f).trans rfl

/-- A snapshot that ends changes what a snapshot is, and completes its command. -/
theorem Dev.snapEnd_restS (st : Nat) : (d.snapEnd st).restS = d.restS := by
  unfold Dev.snapEnd
  split
  · rfl
  · extract_lets s d1 d2 d3
    have h2 : d2.restS = d.restS := (Dev.setErr_restS _ _ _).trans rfl
    have h3 : d3.restS = d.restS := by
      change (if _ then d2.setErr _ 1 else if _ then d2.setErr _ 2 else d2).restS = _
      split
      · exact (Dev.setErr_restS d2 _ _).trans h2
      · split
        · exact (Dev.setErr_restS d2 _ _).trans h2
        · exact h2
    exact (Dev.complete_restS _ _ _ _ _).trans ((show (d3.s 0x55124 0 32 0).restS = d3.restS from rfl).trans h3)

theorem Dev.cowCheck_restS : d.cowCheck.restS = d.restS := by
  unfold Dev.cowCheck; split
  · exact Dev.snapEnd_restS d _
  · rfl

/-- A write changes memory, and records what merges found. -/
theorem Dev.memWrite_restS (pg dom a : Nat) (l : List Byte) (p : Bool) : (d.memWrite pg dom a l p).restS = d.restS := by
  unfold Dev.memWrite
  exact (Dev.cowCheck_restS _).trans ((Dev.each_proj _ Dev.restS _ _ fun f e => Dev.foundRec_restS e _).trans
    (restS_of_restE (restE_of_restC (restC_of_restM (Dev.store_restM d a l p)))))

theorem Dev.setCf_restS (c o n v : Nat) : (d.setCf c o n v).restS = d.restS := by
  unfold Dev.setCf Dev.emhStore
  split
  · exact Dev.report_restS d _ _ _ _ _ _
  · exact Dev.memWrite_restS d _ _ _ _ _

/-- A verified read changes nothing but what it records. -/
theorem Dev.memRead_restS (pg dom a n : Nat) : (d.memRead pg dom a n).2.2.restS = d.restS := by
  have h1 : (d.each (granules a n) fun g d => d.readInject (g * 256)).restS = d.restS :=
    Dev.each_proj d Dev.restS _ _ fun g e => Dev.readInject_restS e _
  unfold Dev.memRead; dsimp only
  generalize (d.each (granules a n) fun g d => d.readInject (g * 256)) = x at h1 ⊢
  refine (Dev.each_proj x Dev.restS _ _ fun g e => ?_).trans h1
  split
  · exact Dev.cwMismatch_restS e _ _ _
  · split
    · exact (Dev.ctlMismatch_restS _ _ _ _).trans (Dev.inc_restS _ _)
    · exact Dev.ctlMismatch_restS e _ _ _

theorem Dev.enqueue_restS (f : Frame) : (d.enqueue f).restS = d.restS := by
  unfold Dev.enqueue; dsimp only
  split
  · exact (Dev.setErr_restS _ _ _).trans rfl
  · rfl

theorem Dev.sendOn_restS (c p : Nat) (k : EmhPkt) : (d.sendOn c p k).restS = d.restS := by
  unfold Dev.sendOn; dsimp only
  split
  · rfl
  · split <;> exact Dev.enqueue_restS _ _

theorem Dev.fill_restS (c : Nat) (t : TxPkt) : (d.fill c t).2.restS = d.restS := by
  unfold Dev.fill
  split
  · rfl
  · dsimp only
    suffices h : ∀ (l : List (Nat × Nat)) (r : List Byte × Bool × Dev), r.2.2.restS = d.restS →
        (l.foldl (fun (r : List Byte × Bool × Dev) (p : Nat × Nat) =>
          let (l, bad, d1) := r.2.2.memRead pgEMH (domOf (d.cOwner c)) p.1 p.2
          (r.1 ++ l, r.2.1 || bad, d1)) r).2.2.restS = d.restS from h _ _ rfl
    intro l
    induction l with
    | nil => intro r hr; exact hr
    | cons a t ih =>
      intro r hr
      rw [List.foldl_cons]
      exact ih _ ((Dev.memRead_restS r.2.2 _ _ _ _).trans hr)

theorem Dev.transmit_restS (c : Nat) (t : TxPkt) (p : Nat) (re : Bool) : (d.transmit c t p re).restS = d.restS := by
  unfold Dev.transmit
  have h : (if t.sent || t.pkt.payload.isEmpty then d.fill c t else (t, d)).2.restS = d.restS := by
    split
    · exact Dev.fill_restS d c t
    · rfl
  generalize (if t.sent || t.pkt.payload.isEmpty then d.fill c t else (t, d)) = q at h ⊢
  obtain ⟨t1, d1⟩ := q
  exact (Dev.sendOn_restS _ _ _ _).trans h

theorem Dev.pump_restS (c : Nat) : (d.pump c).restS = d.restS := by
  unfold Dev.pump
  split
  · rfl
  · generalize (d.ctx c).tx.filter (fun t => !t.sent) = l
    suffices h : ∀ (e : Dev), e.restS = d.restS → (l.foldl (fun d t =>
        let psn := d.cf c 104 4
        let una := d.cf c 108 4
        if 4096 ≤ (psn + 2 ^ 32 - una) % 2 ^ 32 then d
        else
          let x := d.ctx c
          match d.nextUp c x.nextPath with
          | none => d
          | some p =>
            let d1 := (d.setCtx { x with nextPath := (p + 1) % max 1 (d.cf c 8 1) }).setCf c 104 4 ((psn + 1) % 2 ^ 32)
            d1.transmit c { t with pkt := { t.pkt with psn := psn } } p false) e).restS = d.restS from h d rfl
    induction l with
    | nil => intro e he; exact he
    | cons a t ih =>
      intro e he
      rw [List.foldl_cons]
      refine ih _ ?_
      dsimp only
      split
      · exact he
      · split
        · exact he
        · exact (Dev.transmit_restS _ _ _ _ _).trans ((Dev.setCf_restS _ _ _ _ _).trans he)

theorem Dev.post_restS (c : Nat) (l : List TxPkt) : (d.post c l).restS = d.restS := by
  unfold Dev.post; exact (Dev.pump_restS _ c).trans rfl

theorem Dev.sendMsg_restS (c : Nat) (hd bd : List Byte) (p : Bool) (m : Nat) (src : Option Nat) :
    (d.sendMsg c hd bd p m src).restS = d.restS := by
  unfold Dev.sendMsg Dev.takeMsn
  exact (Dev.post_restS _ _ _).trans ((Dev.setCf_restS _ _ _ _ _).trans (Dev.memRead_restS d _ _ _ _))

/-- A control message sent changes nothing but contexts, queues, memory and registers, and what reading records. -/
theorem Dev.sendCtl_restS (w : Nat) (m : Ctl) : (d.sendCtl w m).restS = d.restS := by
  unfold Dev.sendCtl
  split
  · rfl
  · exact Dev.sendMsg_restS _ _ _ _ _ _ _

/-- Control messages sent to a list of members. -/
theorem Dev.sendAll_restS (l : List Nat) (m : Ctl) : (d.each l fun w e => e.sendCtl w m).restS = d.restS :=
  Dev.each_proj d Dev.restS l _ fun w e => Dev.sendCtl_restS e w m

/-! ### What `restS` leaves in view -/

variable {d}

theorem cur_of_restS {x : Dev} (h : x.restS = d.restS) : x.tide.cur = d.tide.cur := by have e := congrArg (fun e : Dev => e.tide.cur) h; exact e
theorem emhin_of_restS {x : Dev} (h : x.restS = d.restS) : x.emh.inbox = d.emh.inbox := by have e := congrArg (fun e : Dev => e.emh.inbox) h; exact e
theorem nvt_of_restS {x : Dev} (h : x.restS = d.restS) : x.nvt = d.nvt := by have e := congrArg Dev.nvt h; exact e
theorem xc_of_restS {x : Dev} (h : x.restS = d.restS) : x.xc = d.xc := by have e := congrArg Dev.xc h; exact e
theorem pwr_of_restS {x : Dev} (h : x.restS = d.restS) : x.pwr = d.pwr := by have e := congrArg Dev.pwr h; exact e
theorem dma_of_restS {x : Dev} (h : x.restS = d.restS) : x.dma = d.dma := by have e := congrArg Dev.dma h; exact e
theorem commits_of_restS {x : Dev} (h : x.restS = d.restS) : x.commits = d.commits := by have e := congrArg Dev.commits h; exact e
/-- The tide, but for its hold. -/
theorem tide_of_restS {x : Dev} (h : x.restS = d.restS) : x.tide = { d.tide with hold := x.tide.hold } := by
  have e := by have e := congrArg Dev.tide h; exact e
  have e2 : x.tide = { ({ x.tide with hold := false } : Tide) with hold := x.tide.hold } := rfl
  rw [e2, show ({ x.tide with hold := false } : Tide) = { d.tide with hold := false } from e]
/-- The reasons for slack, but for an escalation. -/
theorem slack_of_restS {x : Dev} (h : x.restS = d.restS) : x.slack = { d.slack with escal := x.slack.escal } := by
  have e := by have e := congrArg Dev.slack h; exact e
  have e2 : x.slack = { ({ x.slack with escal := false } : Slack) with escal := x.slack.escal } := rfl
  rw [e2, show ({ x.slack with escal := false } : Slack) = { d.slack with escal := false } from e]

end Sys2Proof.Machine
end

