-- ==== Sys2Proof/Laws/Trace.lean ====
section
/-!
SUPPORT. Laws/Trace.lean: what the tracing of a core leaves as it was, and how an instruction ends.
-/
namespace Sys2Proof.Machine

/-- All that `restM` keeps, but the trace unit. -/
def Dev.restT (d : Dev) : Dev := { d.restM with trc := {} }

theorem restT_of_restM {x y : Dev} (h : x.restM = y.restM) : x.restT = y.restT := by
  have h2 := congrArg (fun d : Dev => ({ d with trc := {} } : Dev)) h
  exact h2

variable (d : Dev)

@[simp] theorem Dev.poke_restT (a : Nat) (l : List Byte) : (d.poke a l).restT = d.restT := restT_of_restM (Dev.poke_restM d a l)
@[simp] theorem Dev.sb_restT (k i : Nat) (v : Bool) : (d.sb k i v).restT = d.restT := rfl
@[simp] theorem Dev.s_restT (k lo w v : Nat) : (d.s k lo w v).restT = d.restT := rfl
@[simp] theorem Dev.inc_restT (k : Nat) : (d.inc k).restT = d.restT := rfl
@[simp] theorem Dev.setTbuf_restT (b : Nat) (x : TraceBuf) : (d.setTbuf b x).restT = d.restT := rfl
@[simp] theorem Dev.setTcore_restT (i : Nat) (x : TraceCore) : (d.setTcore i x).restT = d.restT := rfl

@[simp] theorem Dev.tbWrite_restT (b : Nat) (l : List Byte) : (d.tbWrite b l).restT = d.restT := by
  unfold Dev.tbWrite; dsimp only; (repeat' split) <;> simp

@[simp] theorem Dev.oweSync_restT (b : Nat) : (d.oweSync b).restT = d.restT := Dev.each_proj d Dev.restT _ _ fun _ _ => rfl

@[simp] theorem Dev.tbFlush_restT (b f : Nat) : (d.tbFlush b f).restT = d.restT := by
  induction f generalizing d with
  | zero => rfl
  | succ f ih =>
    unfold Dev.tbFlush; dsimp only
    split
    · rfl
    · split
      · rfl
      · rw [ih]; split <;> simp

@[simp] theorem Dev.tbPut_restT (b : Nat) (l : List Byte) : (d.tbPut b l).restT = d.restT := by
  unfold Dev.tbPut; extract_lets d1 x first
  have h : d1.restT = d.restT := Dev.tbFlush_restT d b _
  split
  · rw [Dev.tbWrite_restT, h]
  · split
    · rw [Dev.setTbuf_restT, h]
    · rw [Dev.inc_restT, Dev.setTbuf_restT, h]

@[simp] theorem Dev.tbRec_restT (b ty src n dt : Nat) : (d.tbRec b ty src n dt).restT = d.restT := by
  unfold Dev.tbRec; dsimp only; (repeat' split) <;> simp

@[simp] theorem Dev.trigger_restT (b c t : Nat) : (d.trigger b c t).restT = d.restT := by
  unfold Dev.trigger
  split
  · extract_lets d1 k x d2
    have h1 : d1.restT = d.restT := (Dev.tbRec_restT _ b _ _ _ _).trans (Dev.sb_restT d _ _ _)
    have h2 : d2.restT = d.restT := (Dev.setTbuf_restT d1 b _).trans h1
    split
    · split
      · exact (Dev.sb_restT d2 _ _ _).trans h2
      · exact h2
    · exact h1
  · rfl

@[simp] theorem Dev.triggerAll_restT (c : Nat) (p : Nat → Bool) : (d.triggerAll c p).restT = d.restT := by
  unfold Dev.triggerAll; exact Dev.each_proj d Dev.restT _ _ fun b e => Dev.trigger_restT e b c 0

@[simp] theorem Dev.condRec_restT (b i : Nat) : (d.condRec b i).restT = d.restT := by
  unfold Dev.condRec; dsimp only; split <;> simp

@[simp] theorem Dev.coreRec_restT (i ty n data : Nat) : (d.coreRec i ty n data).restT = d.restT := by
  unfold Dev.coreRec; split <;> simp

@[simp] theorem Dev.traceInsn_restT (i : Nat) (pc : DWord) (c : BitVec 4) (h : Bool) :
    (d.traceInsn i pc c h).restT = d.restT := by
  unfold Dev.traceInsn; split
  · rfl
  · dsimp only; (repeat' split) <;> simp

@[simp] theorem Dev.traceDone_restT (i : Nat) : (d.traceDone i).restT = d.restT := rfl

@[simp] theorem Dev.stallEnd_restT (i k : Nat) : (d.stallEnd i k).restT = d.restT := by
  unfold Dev.stallEnd; split <;> simp

@[simp] theorem Dev.issuing_restT (i : Fin 37) (c : BitVec 4) : (d.issuing i c).restT = d.restT := by
  unfold Dev.issuing; split <;> simp

@[simp] theorem Dev.issuing_cores (i : Fin 37) (c : BitVec 4) : (d.issuing i c).cores = d.cores :=
  by have e := congrArg Dev.cores (Dev.issuing_restT d i c); exact e
@[simp] theorem Dev.issuing_core (i : Fin 37) (c : BitVec 4) (j : Nat) : (d.issuing i c).core j = d.core j :=
  by have e := congrArg (fun x : Dev => x.core j) (Dev.issuing_restT d i c); exact e
@[simp] theorem Dev.issuing_tide (i : Fin 37) (c : BitVec 4) : (d.issuing i c).tide = d.tide :=
  by have e := congrArg Dev.tide (Dev.issuing_restT d i c); exact e
@[simp] theorem Dev.issuing_trclk (i : Fin 37) (c : BitVec 4) : (d.issuing i c).trclk = d.trclk :=
  by have e := congrArg Dev.trclk (Dev.issuing_restT d i c); exact e
@[simp] theorem Dev.issuing_xc (i : Fin 37) (c : BitVec 4) : (d.issuing i c).xc = d.xc :=
  by have e := congrArg Dev.xc (Dev.issuing_restT d i c); exact e

variable {d} {i : Fin 37} {c : BitVec 4} {p : Bool} {w : Nat} {f : Core → Dev → Iss} {e : Dev}

/-- An instruction whose condition holds and whose effect is done retires. -/
theorem insn_done (h : d.runs i c) (hp : p = true → 32 ≤ i.val) (hf : f (d.core i) (d.issuing i c) = .done e) :
    d.insn i c p w f = e.retire i (d.core i).pc := by
  obtain ⟨h1, h2, h3⟩ := h
  unfold Dev.insn; dsimp only
  rw [if_neg (by simp [h1, h2]), h3, if_neg (by simp),
    if_neg (by simp only [Bool.and_eq_true, decide_eq_true_eq, not_and]; intro a; exact Nat.not_lt.2 (hp a))]
  rw [show (if (d.tcore i).stall.isSome = true then d else d.traceInsn i (d.core i).pc c true) = d.issuing i c from rfl, hf]
  unfold Dev.retire; dsimp only

/-- An instruction whose effect is to change its core's registers retires with them. -/
theorem insn_with {k : Core} (h : d.runs i c) (hp : p = true → 32 ≤ i.val)
    (hf : f (d.core i) (d.issuing i c) = .done ((d.issuing i c).setCore i k)) :
    d.insn i c p w f = (d.issuing i c).retireWith i k := by
  rw [insn_done h hp hf, Dev.retireWith, Dev.issuing_core]

/-- An instruction that transfers control branches. -/
theorem insn_goto {pc : DWord} (h : d.runs i c) (hp : p = true → 32 ≤ i.val)
    (hf : f (d.core i) (d.issuing i c) = .goto e pc) : d.insn i c p w f = e.branched i pc := by
  obtain ⟨h1, h2, h3⟩ := h
  unfold Dev.insn; dsimp only
  rw [if_neg (by simp [h1, h2]), h3, if_neg (by simp),
    if_neg (by simp only [Bool.and_eq_true, decide_eq_true_eq, not_and]; intro a; exact Nat.not_lt.2 (hp a))]
  rw [show (if (d.tcore i).stall.isSome = true then d else d.traceInsn i (d.core i).pc c true) = d.issuing i c from rfl, hf]
  unfold Dev.branched; dsimp only

/-- An instruction whose checks or effect trap takes the trap. -/
theorem insn_trap {n : Nat} {x : DWord} (h : d.runs i c) (hp : p = true → 32 ≤ i.val)
    (hf : f (d.core i) (d.issuing i c) = .trap n x) : d.insn i c p w f = (d.issuing i c).trapped i (d.core i).pc w n x := by
  obtain ⟨h1, h2, h3⟩ := h
  unfold Dev.insn; dsimp only
  rw [if_neg (by simp [h1, h2]), h3, if_neg (by simp),
    if_neg (by simp only [Bool.and_eq_true, decide_eq_true_eq, not_and]; intro a; exact Nat.not_lt.2 (hp a))]
  rw [show (if (d.tcore i).stall.isSome = true then d else d.traceInsn i (d.core i).pc c true) = d.issuing i c from rfl, hf]
  unfold Dev.trapped; dsimp only

end Sys2Proof.Machine
end

