-- ==== Sys2Proof/Laws/Commands.lean ====
section
/-!
SUPPORT. Laws/Commands.lean: what the guards around a command come to when its conditions hold, and what they leave.
-/
namespace Sys2Proof.Laws
open Sys2Proof Sys2Proof.Machine

/-- A worker is of a configured domain. -/
theorem conf_of_worker {d : Dev} (h : d.isWorker = true) : d.tide.configured = true := by
  simp [Dev.isWorker] at h; exact h.1
/-- So is the headland. -/
theorem conf_of_head {d : Dev} (h : d.isHead = true) : d.tide.configured = true := by
  simp [Dev.isHead] at h; exact h.1
/-- A worker is no headland. -/
theorem nothead_of_worker {d : Dev} (h : d.isWorker = true) : d.isHead = false := by
  simp [Dev.isWorker] at h; simp [Dev.isHead, h.2]
/-- A control message taken (R22, Table 14.10). -/
theorem ctlIn_pos {d : Dev} {src m b f} (h1 : d.emhOn = true) (h2 : d.fwRunning = true) (h3 : d.tide.configured = true) (h4 : b = false ∨ src = d.tide.headDev) :
  d.ctlIn src m b f = f (d.taking src m) := by
  unfold Dev.ctlIn; rw [if_neg (by simp [h1,h2,h3])]; dsimp only; rw [if_neg]; rfl
  rcases h4 with h | h <;> simp [h]
/-- A command of pair 0 fetched: its row runs (R270). -/
theorem admin_pos {d : Dev} {cid opc c} (f) (h : d.cmd? 0 cid opc = some c) : d.admin cid opc f = f c d := by
  unfold Dev.admin; rw [h]
/-- A command for the headland, at the headland (R20). -/
theorem headCmd_pos {d : Dev} {cid opc c} (f) (h : d.cmd? 0 cid opc = some c) (hh : d.isHead = true) : d.headCmd cid opc f = f c d := by
  unfold Dev.headCmd; rw [admin_pos _ h, if_pos hh]
/-- What taking a message leaves. -/
@[simp] theorem taking_tide (d : Dev) (s m) : (d.taking s m).tide = d.tide := rfl
@[simp] theorem taking_slack (d : Dev) (s m) : (d.taking s m).slack = d.slack := rfl
@[simp] theorem taking_regs (d : Dev) (s m) : (d.taking s m).regs = d.regs := rfl
theorem taking_isHead (d : Dev) (s m) : (d.taking s m).isHead = d.isHead := rfl
theorem taking_b (d : Dev) (s m k i) : (d.taking s m).b k i = d.b k i := rfl
theorem taking_isWorker (d : Dev) (s m) : (d.taking s m).isWorker = d.isWorker := rfl
theorem taking_slackNow (d : Dev) (s m) : (d.taking s m).slackNow = d.slackNow := rfl
theorem taking_cove (d : Dev) (s m k) : (d.taking s m).cove k = d.cove k := rfl
theorem taking_safe (d : Dev) (s m) : (d.taking s m).safe = d.safe := rfl
/-- A counter incremented, and every other register. -/
theorem inc_rd (d : Dev) (k : Nat) : (d.inc k).rd k = d.rd k + 1 := by
  simp only [Dev.inc, Dev.incBy, Dev.rd_wr_same]; bv_omega
theorem inc_rd_other (d : Dev) {k j : Nat} (h : j ≠ k) : (d.inc k).rd j = d.rd j := by
  simp only [Dev.inc, Dev.incBy]; rw [Dev.rd_wr_other _ _ (Ne.symm h)]
/-- A condition that fails leaves the device. -/
theorem when_neg {d : Dev} {c : Bool} (f : Dev → Dev) (h : c = false) : d.when c f = d := by
  unfold Dev.when; rw [h]; rfl
/-- ERR_STS with ERR_FIRST: every other register stands; the bit is set. -/
theorem setErr_rd (d : Dev) (pg i k : Nat) (h1 : k ≠ pg + 0x10) (h2 : k ≠ pg + 0x1c) : (d.setErr pg i).rd k = d.rd k := by
  unfold Dev.setErr; dsimp only; split
  · rw [Dev.rd_wr_other _ _ (Ne.symm h2), Dev.rd_wr_other _ _ (Ne.symm h1)]
  · rw [Dev.rd_wr_other _ _ (Ne.symm h1)]
theorem setErr_same (d : Dev) (pg i : Nat) : (d.setErr pg i).rd (pg + 0x10) = d.rd (pg + 0x10) ||| BitVec.ofNat 32 (2 ^ i) := by
  unfold Dev.setErr; dsimp only; split
  · rw [Dev.rd_wr_other _ _ (by omega), Dev.rd_wr_same]
  · rw [Dev.rd_wr_same]
/-- A command on an I/O queue of a live controller runs (R399). -/
theorem nvIo_pos {d : Dev} {conn x f} (h : d.hosts conn x true) : d.nvIo conn f = f { x with last := d.trclk } (d.nvTouch x) := by
  obtain ⟨h1, q, h2, h3, h4, h5⟩ := h
  unfold Dev.nvIo; rw [if_neg (by simp [h1]), h2]; dsimp only
  rw [if_neg (by simp only [h3, Bool.not_true, Bool.false_or, decide_eq_true_eq]; simpa using h4), h5]
/-- An instruction on a stopped core, or in safe state, does nothing (R450). -/
theorem insn_off {d : Dev} {i : Fin 37} {c : BitVec 4} {p : Bool} {w : Nat} {f : Core → Dev → Iss} (h : (d.core i).running = false ∨ d.safe = true) : d.insn i c p w f = d := by
  unfold Dev.insn; dsimp only; rw [if_pos (by rcases h with h | h <;> simp [h])]
/-- A false condition moves the program counter on (R220). -/
theorem insn_false {d : Dev} {i : Fin 37} {c : BitVec 4} {p : Bool} {w : Nat} {f : Core → Dev → Iss} (h1 : (d.core i).running = true) (h2 : d.safe = false)
    (h3 : condHolds (d.core i) d.tide.cur c = false) (ht : d.tbOf i = none) : d.insn i c p w f = d.retire i (d.core i).pc := by
  unfold Dev.insn; dsimp only; rw [if_neg (by simp [h1, h2]), h3, if_pos (by simp)]
  have hx : (if (d.tcore i).stall.isSome = true then d else d.traceInsn i (d.core i).pc c false) = d := by
    split
    · rfl
    · unfold Dev.traceInsn; rw [ht]
  rw [hx]; rfl

end Sys2Proof.Laws
end

