-- ==== Sys2Proof/Laws/Cores.lean ====
section
/-!
SUPPORT. Laws/Cores.lean: a core set, and what recording an error does to the cores (R441, R447, R448).
-/
namespace Sys2Proof.Laws
open Sys2Proof Sys2Proof.Machine

/-- A core set, and every other core. -/
theorem core_set (d : Dev) (i j : Nat) (k : Core) (hi : i < d.cores.length) : (d.setCore i k).core j = if j = i then k else d.core j := by
  unfold Dev.setCore Dev.core; dsimp only
  rw [List.getD_eq_getElem?_getD, List.getElem?_set]
  by_cases h : i = j
  · subst h; simp [hi]
  · rw [if_neg h, if_neg (Ne.symm h), List.getD_eq_getElem?_getD]
theorem core_set_ne (d : Dev) (i j : Nat) (k : Core) (h : j ≠ i) : (d.setCore i k).core j = d.core j := by
  unfold Dev.setCore Dev.core; dsimp only
  rw [List.getD_eq_getElem?_getD, List.getElem?_set, if_neg (Ne.symm h), List.getD_eq_getElem?_getD]
theorem core_set_self (d : Dev) (i : Nat) (k : Core) : (d.setCore i k).core i = k ∨ ((d.setCore i k).core i = {} ∧ d.core i = {} ∧ d.cores.length ≤ i) := by
  by_cases hi : i < d.cores.length
  · left; rw [core_set _ _ _ _ hi, if_pos rfl]
  · right; unfold Dev.setCore Dev.core; dsimp only
    rw [List.getD_eq_getElem?_getD, List.getD_eq_getElem?_getD, List.getElem?_eq_none (by simp; omega), List.getElem?_eq_none (by omega)]
    exact ⟨rfl, rfl, by omega⟩
/-- Cores as they were, but that some may have stopped. -/
def Stops (d e : Dev) : Prop := ∀ j, e.core j = d.core j ∨ e.core j = { d.core j with running := false }
theorem Stops.rfl' {d e : Dev} (h : e.cores = d.cores) : Stops d e := fun j => Or.inl (by unfold Dev.core; rw [h])
theorem Stops.trans {d e f : Dev} (h : Stops d e) (g : Stops e f) : Stops d f := by
  intro j
  rcases h j with h | h <;> rcases g j with g | g
  · left; rw [g, h]
  · right; rw [g, h]
  · right; rw [g, h]
  · right; rw [g, h]
theorem Stops.then {d e f : Dev} (h : Stops d e) (g : f.cores = e.cores) : Stops d f := h.trans (Stops.rfl' g)
/-- What leaves the cores. -/
theorem triggerAll_cores (d : Dev) (c : Nat) (p : Nat → Bool) : (d.triggerAll c p).cores = d.cores := by
  have h := congrArg Dev.cores (Dev.triggerAll_restT d c p); exact h
theorem event_cores (d : Dev) (c r : Nat) : (d.event c r).cores = d.cores := by
  have h := congrArg Dev.cores (Dev.event_restC d c r); exact h
theorem complete_cores (d : Dev) (q c s r : Nat) : (d.complete q c s r).cores = d.cores := by
  have h := congrArg Dev.cores (Dev.complete_restC d q c s r); exact h
theorem setErr_cores' (d : Dev) (p i : Nat) : (d.setErr p i).cores = d.cores := by simp
theorem putRec_cores (d : Dev) (r : ErrRec) : (d.putRec r).cores = d.cores := by
  unfold Dev.putRec; dsimp only
  split <;> split <;> first
    | (rw [triggerAll_cores, event_cores]; first | rfl | simp)
    | (rw [event_cores]; first | rfl | simp)
/-- A cove frozen stops its sequencers, and no more (R336). -/
theorem freezeCove_stops (d : Dev) (n : Nat) : Stops d (d.freezeCove n) := by
  intro j
  unfold Dev.freezeCove; dsimp only
  split
  · unfold Dev.core; dsimp only
    rw [List.getD_eq_getElem?_getD, List.getElem?_map, List.getElem?_zipIdx, List.getD_eq_getElem?_getD]
    cases h : d.cores[j]? with
    | none => left; rfl
    | some k =>
      simp only [Option.map_some, Option.getD_some]
      split
      · right; rfl
      · left; rfl
  · left; rfl
theorem enterSafe_cores (d : Dev) (c : Nat) : (d.enterSafe c).cores = d.cores := by
  have hc (l : List Cmd) (x : Dev) : (x.each l fun k d => d.complete k.pair k.cid 0x0304 0).cores = x.cores :=
    Dev.each_proj x Dev.cores _ _ fun a e => complete_cores e _ _ _ _
  have hm (x : Dev) (a n : Nat) (m : Mark) : (x.markRange a n m).cores = x.cores := by
    unfold Dev.markRange; split
    · rfl
    · exact Dev.each_proj x Dev.cores _ _ fun _ _ => rfl
  have hg (x : Dev) : x.spoilLanding.cores = x.cores := by
    unfold Dev.spoilLanding; exact Dev.each_proj x Dev.cores _ _ fun r e => hm e _ _ _
  unfold Dev.enterSafe
  extract_lets s0 d0 d1 d2 s2 d3 s3 s4 d4 d5
  have h2 : d2.cores = d.cores := (hc _ d1).trans rfl
  have h5 : d5.cores = d.cores := (hg d4).trans h2
  clear_value d5
  split
  · rfl
  · split
    · exact (setErr_cores' _ _ _).trans h5
    · exact h5
theorem ite_cores {x y z : Dev} {c : Prop} [Decidable c] (h : x.cores = z.cores) (g : y.cores = z.cores) : (if c then x else y).cores = z.cores := by split <;> assumption
/-- An error recorded stops cores, and no more (R448). -/
theorem recordAs_stops (d : Dev) (pg c dom base cls : Nat) (e : Bool) (i0 i1 : Nat) : Stops d (d.recordAs pg c dom base cls e i0 i1) := by
  unfold Dev.recordAs
  generalize srcOf pg = q
  obtain ⟨ty, ins⟩ := q
  dsimp only
  have h2 : (if e then (d.inc ([0x5800, 0x5804, 0x5808, 0x580c].getD cls 0x580c)).inc 0x5810
      else d.inc ([0x5800, 0x5804, 0x5808, 0x580c].getD cls 0x580c)).cores = d.cores := ite_cores rfl rfl
  generalize (if e then (d.inc ([0x5800, 0x5804, 0x5808, 0x580c].getD cls 0x580c)).inc 0x5810
      else d.inc ([0x5800, 0x5804, 0x5808, 0x580c].getD cls 0x580c)) = x2 at h2 ⊢
  have h3 := fun r => (putRec_cores x2 r).trans h2
  split
  · generalize hx : x2.putRec _ = x3
    have h4 : x3.cores = d.cores := hx ▸ h3 _
    exact Stops.rfl' ((enterSafe_cores _ c).trans h4)
  · generalize hx : x2.putRec _ = x3
    have h4 : x3.cores = d.cores := hx ▸ h3 _
    generalize hw : (if errOpens c then ({ x3 with err := _ } : Dev) else x3) = y
    have hy : y.cores = d.cores := by rw [← hw]; exact ite_cores h4 h4
    split
    · split
      · exact (Stops.rfl' hy).trans (freezeCove_stops y dom)
      · split
        · exact Stops.rfl' hy
        · exact Stops.rfl' hy
    · exact Stops.rfl' hy
theorem report_stops_body (d x : Dev) (pg c dom i0 i1 cls ty ins base : Nat) (msk : Bool) (h0 : x.cores = d.cores) :
   Stops d (if msk && decide (cls ≤ 1) then x.inc (if cls = 0 then 0x5800 else 0x5804)
  else if cls = 0 then
    if x.err.corrSeen.any fun y => y.1 == (pg, c) && decide ((x.trclk - y.2).toNat < 1000000000) then x.inc 0x5800
    else
      let l := ((pg, c), x.trclk) :: x.err.corrSeen.filter (·.1 ≠ (pg, c))
      ({ x with err := { x.err with corrSeen := l } } : Dev).recordAs pg c dom base 0 false i0 i1
  else if cls = 3 then x.recordAs pg c dom base 3 false i0 i1
  else
    let ws := x.err.windows.filter (·.domain = dom)
    match ws.find? fun w => w.code == c && w.srcType == ty && w.srcInst == ins with
    | some w =>
      let r := x.err.recs.get (fun _ => {}) w.idx
      let recs := (w.idx, { r with count := min 65535 (r.count + 1) }) :: x.err.recs.filter (·.1 ≠ w.idx)
      ({ x with err := { x.err with recs := recs } } : Dev).inc 0x5814
    | none =>
      if ws.isEmpty || !errOpens c then x.recordAs pg c dom base cls false i0 i1
      else if dom < 0x40 then x.recordAs pg c dom base 2 true i0 i1
      else if ws.length = 1 then x.recordAs pg c dom base (cls + 1) true i0 i1
      else x.recordAs pg c dom base 3 true i0 i1) := by
  have hr (y : Dev) (b cl : Nat) (e : Bool) (hy : y.cores = d.cores) : Stops d (y.recordAs pg c dom b cl e i0 i1) :=
    (Stops.rfl' hy).trans (recordAs_stops y pg c dom b cl e i0 i1)
  have hi (y : Dev) (k : Nat) (hy : y.cores = d.cores) : Stops d (y.inc k) := Stops.rfl' hy
  dsimp only
  split
  · exact hi _ _ h0
  · split
    · split
      · exact hi _ _ h0
      · exact hr _ _ _ _ h0
    · split
      · exact hr _ _ _ _ h0
      · split
        · exact hi _ _ h0
        · split
          · exact hr _ _ _ _ h0
          · split
            · exact hr _ _ _ _ h0
            · split
              · exact hr _ _ _ _ h0
              · exact hr _ _ _ _ h0
/-- An error reported stops cores, and no more. -/
theorem report_stops (d : Dev) (pg : Nat) (bit : Option Nat) (c dom i0 i1 : Nat) : Stops d (d.report pg bit c dom i0 i1) := by
  unfold Dev.report
  cases bit with
  | some b => exact report_stops_body d (d.setErr pg b) pg c dom i0 i1 _ _ _ _ _ (by simp)
  | none => exact report_stops_body d d pg c dom i0 i1 _ _ _ _ _ rfl
theorem Stops.running {d e : Dev} (h : Stops d e) (j : Nat) (hr : (e.core j).running = true) : e.core j = d.core j := by
  rcases h j with h | h
  · exact h
  · rw [h] at hr; exact Bool.noConfusion hr
/-- No enabled trace buffer names the core: nothing is triggered. -/
theorem triggerAll_untraced (d : Dev) (c i : Nat) (h : d.tbOf i = none) : (d.triggerAll c fun b => d.tbNames b i) = d := by
  unfold Dev.triggerAll
  have hb : ∀ b ∈ List.range 8, d.tbNames b i = true → d.b (tbReg b 0x114) 0 = false := by
    intro b hb hn
    have := List.find?_eq_none.1 h b hb
    cases hq : d.b (tbReg b 0x114) 0
    · rfl
    · exact absurd (by rw [hq, hn]; rfl) this
  have : ∀ l : List Nat, (∀ b ∈ l, d.b (tbReg b 0x114) 0 = false) → (d.each l fun b e => e.trigger b c 0) = d := by
    intro l
    induction l with
    | nil => intro _; rfl
    | cons b t ih =>
      intro hl
      have hz : d.trigger b c 0 = d := by unfold Dev.trigger; rw [if_neg (by simp [hl b (List.mem_cons_self ..)])]
      show Dev.each (d.trigger b c 0) t _ = d
      rw [hz]; exact ih fun b hb => hl b (List.mem_cons_of_mem _ hb)
  refine this _ fun b hb' => ?_
  have hm := List.mem_filter.1 hb'
  exact hb b hm.1 hm.2

end Sys2Proof.Laws
end

