-- ==== Sys2Proof/Laws/Ports.lean ====
section
/-!
SUPPORT. Laws/Ports.lean: what a port does with a request that arrives.
-/
namespace Sys2Proof.Machine

/-- With nothing waiting, a request that need not wait is served at once. -/
theorem Dev.arrive_now {d : Dev} {r : PortReq} (h : d.port.waitReq = []) (hw : d.mustWait r = false) :
    d.arrive r = d.serveReq r := by
  have e : ({ d with port := { d.port with waitReq := [] } } : Dev) = d := by
    rw [← h]
  simp [Dev.arrive, Dev.serveWaiting, h, Dev.each, e, hw]

/-- With nothing waiting, a request that must wait is held at its port. -/
theorem Dev.arrive_waits {d : Dev} {r : PortReq} (h : d.port.waitReq = []) (hw : d.mustWait r = true) :
    d.arrive r = { d with port := { d.port with waitReq := [r] } } := by
  have e : ({ d with port := { d.port with waitReq := [] } } : Dev) = d := by
    rw [← h]
  simp [Dev.arrive, Dev.serveWaiting, h, Dev.each, e, hw]

/-- A request at PF0's BARs reaches its meaning: the link is up, memory space is enabled and no reset runs (R299, R308). -/
theorem Dev.atBar_pos {d : Dev} {wr : Bool} {f : Dev → Dev} (h1 : d.linkUp 8 = true) (h3 : d.port.flr = false)
    (h4 : d.port.mse = true) : d.atBar wr f = f (d.wake 8) := by
  have e : (d.wake 8).port.flr = d.port.flr ∧ (d.wake 8).port.mse = d.port.mse := by
    unfold Dev.wake; dsimp only; (repeat' split) <;> exact ⟨rfl, rfl⟩
  unfold Dev.atBar; rw [Dev.when_pos _ h1]; dsimp only; rw [if_neg (by simp [*])]

/-- A configuration request with a command of its own reaches its function (R308, R315). -/
theorem Dev.cfgTo_pos {d : Dev} {pf0 : Bool} {f : Dev → Dev} (h1 : d.linkUp 8 = true) (h2 : d.port.retry = false)
    (h3 : pf0 = false ∨ d.port.flr = false) : d.cfgTo pf0 f = f d := by
  unfold Dev.cfgTo; rw [Dev.when_pos _ h1, if_neg (by rcases h3 with h | h <;> simp [h, h2])]

end Sys2Proof.Machine
end

