-- ==== Sys2Proof/Laws/Tick.lean ====
section
/-!
SUPPORT. Laws/Tick.lean: what a tick does where nothing waits for one.
-/
namespace Sys2Proof.Machine

/-- An operation that changes nothing for any entry of a list changes nothing for the list. -/
theorem Dev.each_id {α : Type} {d : Dev} {l : List α} {f : α → Dev → Dev} (h : ∀ a ∈ l, f a d = d) : d.each l f = d := by
  induction l with
  | nil => rfl
  | cons a t ih =>
    have e : d.each (a :: t) f = (f a d).each t f := rfl
    rw [e, h a (by simp)]
    exact ih fun b hb => h b (by simp [hb])

/-- Where nothing waits, a tick moves the clocks on, and an error arises, or none. -/
theorem Dev.tick_quiet {d : Dev} (h : d.quiet) :
    d.tick = (if d.pwr.main then d.clocks.ariseNow else d.clocks).recordFound.settle := by
  obtain ⟨h1, h2, h3, h4, h5, h6, h7⟩ := h
  have e1 : d.stalls = d := by simp [Dev.stalls, h1]
  have e2 : d.clocks.ripen = d.clocks := by
    have : ({ d.clocks with net := { d.clocks.net with due := [] } } : Dev) = d.clocks := by
      show ({ d.clocks with net := { d.net with due := [] } } : Dev) = _
      rw [← h2]; rfl
    simp [Dev.ripen, show d.clocks.net.due = [] from h2, Dev.each, this]
  have e3 : d.clocks.serveWaiting = d.clocks := by simp [Dev.serveWaiting, show d.clocks.port.waitReq = [] from h3]
  have e4 : d.clocks.serveCalls = d.clocks := by
    refine Dev.each_id fun i hi => ?_
    have : (d.clocks.core i).sysWait = false := h4 i (List.mem_range.1 hi)
    unfold Dev.serveSys; dsimp only; rw [if_pos (by simp [this])]
  have e5 : d.clocks.tbFlushAll = d.clocks := by
    refine Dev.each_id fun b hb => ?_
    have : (d.clocks.tbuf b).queue = [] := h5 b (List.mem_range.1 hb)
    unfold Dev.tbFlush; dsimp only; rw [this]
  have e6 : (d.clocks.each (d.clocks.dma.map (·.1)) fun n d => d.engResume n) = d.clocks := by
    refine Dev.each_id fun n _ => ?_
    have : (d.clocks.eng n).active = false := h6 n
    unfold Dev.engResume; dsimp only; rw [if_pos (by simp [this])]
  unfold Dev.tick; dsimp only; rw [e1, e2, e3, e4, e5, e6]; rfl

end Sys2Proof.Machine
end

