-- ==== Sys2Proof/Laws/Reads.lean ====
section
/-!
SUPPORT. Laws/Reads.lean: what a verified read of memory does where it meets nothing.
-/
namespace Sys2Proof.Machine

/-- A read of an address that meets no error changes nothing. -/
theorem Dev.readInject_none {d : Dev} {a : Nat} (h : d.meets a = []) : d.readInject a = d := by
  unfold Dev.readInject Dev.meet
  rw [h]
  rfl

/-- A verified read of granules that meet no error, stand good and lie in sites that have not failed gives their bytes, unpoisoned,
and changes nothing (R199). -/
theorem Dev.memRead_clean {d : Dev} {pg dom a n : Nat} (h : ∀ g ∈ granules a n, d.meets (g * 256) = [] ∧ d.siteFailed (g * 256) = false)
    (hm : ∀ g, d.mark g = .good) : d.memRead pg dom a n = (d.bytes a n, false, d) := by
  have h1 : (d.each (granules a n) fun g d => d.readInject (g * 256)) = d := Dev.each_id fun g hg => Dev.readInject_none (h g hg).1
  have h2 : ((granules a n).filter fun g => d.mark g = .bad) = [] := by simp [hm]
  have h3 : d.anyBad a n = false := by
    unfold Dev.anyBad
    split <;> simp [hm]
  have h4 : ((granules a n).any fun g => d.siteFailed (g * 256)) = false := by
    simpa using fun g hg => (h g hg).2
  unfold Dev.memRead
  simp only [h1, h2, h3, h4]
  rfl
end Sys2Proof.Machine
end

