-- ==== Sys2Proof/Laws/Stores.lean ====
section
/-!
SUPPORT. Laws/Stores.lean: what a store to memory does to bytes and check words, and what the checks of a core give (R200, R204, R226).
-/
namespace Sys2Proof.Laws
open Sys2Proof Sys2Proof.Machine

/-- A write within one granule is one piece. -/
theorem pieces_one (a : Nat) (l : List Byte) (f : Nat) (h0 : 0 < l.length) (h : a % 256 + l.length ≤ 256) :
    pieces a l (f + 2) = [(a, l)] := by
  have e1 : l.isEmpty = false := by cases l with | nil => simp at h0 | cons => rfl
  have e2 : pieces (a + (256 - a % 256)) (l.drop (256 - a % 256)) (f + 1) = [] := by
    rw [List.drop_of_length_le (by omega)]; rfl
  rw [show f + 2 = (f + 1) + 1 from rfl]
  unfold pieces; rw [if_neg (by simp [e1])]; dsimp only
  rw [e2, List.take_of_length_le (by omega)]
/-- A write within one granule (R200, R213, R429): what its operation meets, the pre-image, the bytes. -/
theorem store_one (d : Dev) (a : Nat) (l : List Byte) (p : Bool) (h0 : 0 < l.length) (h : a % 256 + l.length ≤ 256)
    (hs : storable a = true) :
    (d.store a l p).1 = ((((d.writeMeets a (l.length == 256)).1).cow a).granStore a l p).1 := by
  unfold Dev.store; rw [pieces_one a l _ h0 h, List.foldl_cons, List.foldl_nil]
  rw [if_neg (by simp [hs])]; rfl
/-- What the operation of a write meets leaves the bytes and every other granule's check word. -/
theorem meet_keeps (d : Dev) (a : Nat) : (d.meet a).1.mem = d.mem ∧ (∀ g, g ≠ a / 256 → (d.meet a).1.mark g = d.mark g) ∧
    (d.meet a).1.fw = d.fw ∧ (d.meet a).1.ckp = d.ckp ∧ ∀ k, (∀ n, k ≠ pgMPD n + 0x128) → (d.meet a).1.rd k = d.rd k := by
  unfold Dev.meet; dsimp only
  split
  · exact ⟨rfl, fun _ _ => rfl, rfl, rfl, fun _ _ => rfl⟩
  · have key : ∀ x : Dev, x.mem = d.mem → x.marks = d.marks → x.fw = d.fw → x.ckp = d.ckp →
        (∀ k, (∀ n, k ≠ pgMPD n + 0x128) → x.rd k = d.rd k) → ∀ b : Bool,
        (if b then x.setMark (a / 256) .poison else x).mem = d.mem ∧
          (∀ g, g ≠ a / 256 → (if b then x.setMark (a / 256) .poison else x).mark g = d.mark g) ∧
          (if b then x.setMark (a / 256) .poison else x).fw = d.fw ∧ (if b then x.setMark (a / 256) .poison else x).ckp = d.ckp ∧
          ∀ k, (∀ n, k ≠ pgMPD n + 0x128) → (if b then x.setMark (a / 256) .poison else x).rd k = d.rd k := by
      intro x h1 h2 h3 h4 h5 b
      cases b
      · exact ⟨h1, fun g _ => congrArg (fun m : Map Mark => m.get (fun _ => Mark.good) g) h2, h3, h4, h5⟩
      · refine ⟨h1, fun g hg => ?_, h3, h4, h5⟩
        have e := Map.get_put_other (fun _ => Mark.good) x.marks .poison (Ne.symm hg)
        exact e.trans (congrArg (fun m : Map Mark => m.get (fun _ => Mark.good) g) h2)
    refine key _ ?_ ?_ ?_ ?_ ?_ _
    · split <;> rfl
    · split <;> rfl
    · split <;> rfl
    · split <;> rfl
    · intro k hk
      split
      · exact Dev.rd_wr_other _ _ (Ne.symm (hk _))
      · rfl
theorem writeMeets_keeps (d : Dev) (a : Nat) (w : Bool) : (d.writeMeets a w).1.mem = d.mem ∧
    (∀ g, g ≠ a / 256 → (d.writeMeets a w).1.mark g = d.mark g) ∧ (d.writeMeets a w).1.fw = d.fw ∧
    (d.writeMeets a w).1.ckp = d.ckp ∧ ∀ k, (∀ n, k ≠ pgMPD n + 0x128) → (d.writeMeets a w).1.rd k = d.rd k := by
  unfold Dev.writeMeets; split
  · exact ⟨rfl, fun _ _ => rfl, rfl, rfl, fun _ _ => rfl⟩
  · exact meet_keeps d a
/-- A pre-image being copied leaves memory, and counts. -/
theorem cow_keeps (d : Dev) (a : Nat) : (d.cow a).mem = d.mem ∧ (d.cow a).marks = d.marks ∧ (d.cow a).fw = d.fw ∧
    ∀ k, k ≠ 0x5580c → (d.cow a).rd k = d.rd k := by
  unfold Dev.cow; dsimp only
  split
  · exact ⟨rfl, rfl, rfl, fun k hk => Dev.rd_wr_other _ _ (Ne.symm hk)⟩
  · exact ⟨rfl, rfl, rfl, fun _ _ => rfl⟩
/-- A number has as many bytes as it is given. -/
theorem leBytes_len (v n : Nat) : (leBytes v n).length = n := by
  induction n generalizing v with
  | zero => rfl
  | succ n ih => simp [leBytes, ih]
/-- Bytes put are read back. -/
theorem putList_get (l : List Byte) : ∀ (m : Map Byte) (a i : Nat), i < l.length →
    Map.get (fun _ => (0 : Byte)) (Map.putList m a l) (a + i) = l.getD i 0 := by
  induction l with
  | nil => intro m a i h; simp at h
  | cons v t ih =>
    intro m a i h
    rw [Map.putList]
    cases i with
    | zero => rw [Map.get_putList_outside _ _ _ _ _ (by omega), Nat.add_zero, Map.get_put_same]; rfl
    | succ i => rw [show a + (i + 1) = a + 1 + i by omega, ih _ _ _ (by simpa using h)]; rfl
theorem getList_putList (m : Map Byte) (a : Nat) (l : List Byte) : Map.getList (fun _ => (0 : Byte)) (Map.putList m a l) a l.length = l := by
  unfold Map.getList
  apply List.ext_getElem
  · simp
  · intro i h1 h2
    simp only [List.getElem_map, List.getElem_range]
    rw [putList_get _ _ _ _ h2, List.getD_eq_getElem?_getD, List.getElem?_eq_getElem h2]; rfl
/-- ERR_STS leaves memory. -/
theorem setErr_mem (d : Dev) (pg i : Nat) : (d.setErr pg i).mem = d.mem ∧ (d.setErr pg i).marks = d.marks := by
  unfold Dev.setErr; dsimp only; split <;> exact ⟨rfl, rfl⟩
/-- Counting a write leaves memory. -/
theorem countWrite_mem (d : Dev) (a : Nat) (w mis : Bool) (m : Mark) : (d.countWrite a w mis m).mem = d.mem ∧ (d.countWrite a w mis m).marks = d.marks := by
  unfold Dev.countWrite; split
  · exact ⟨rfl, rfl⟩
  · dsimp only
    have key : ∀ (b c : Bool) (k1 k2 k3 pg : Nat) (x : Dev), (if b then ((if c then x.inc k2 else x).inc k3).setErr pg 2 else (if c then x.inc k2 else x)).mem = x.mem ∧ (if b then ((if c then x.inc k2 else x).inc k3).setErr pg 2 else (if c then x.inc k2 else x)).marks = x.marks := by
      intro b c k1 k2 k3 pg x
      cases b <;> cases c <;> first | exact ⟨rfl, rfl⟩ | exact setErr_mem _ _ _
    have h2 := key mis (decide (m = .poison)) 0 (siteCnt (siteOf d.fw.layout a).1 0x10) (siteCnt (siteOf d.fw.layout a).1 0xc) (pgMPD ((siteOf d.fw.layout a).1 / 4)) (if w then d else d.inc (siteCnt (siteOf d.fw.layout a).1 0x14))
    have h3 : (if w then d else d.inc (siteCnt (siteOf d.fw.layout a).1 0x14)).mem = d.mem ∧ (if w then d else d.inc (siteCnt (siteOf d.fw.layout a).1 0x14)).marks = d.marks := by split <;> exact ⟨rfl, rfl⟩
    simp only [decide_eq_true_eq] at h2
    exact ⟨h2.1.trans h3.1, h2.2.trans h3.2⟩
/-- A granule written: its bytes and its check word (R200, R204). -/
theorem granStore_mem (d : Dev) (a : Nat) (l : List Byte) (p : Bool) (hf : d.siteFailed a = false) :
    ∃ m : Mark, (d.granStore a l p).1.mem = Map.putList d.mem a l ∧ (d.granStore a l p).1.marks = d.marks.put (a / 256) m ∧
      m = (if l.length == 256 && d.injected a 3 then .bad else if p then .poison else if l.length == 256 then .good
        else if d.mark (a / 256) = .good then .good else .poison) := by
  unfold Dev.granStore Dev.granPut
  dsimp only
  rw [if_neg (by simp [hf])]
  refine ⟨_, ?_, ?_, rfl⟩
  · split
    · exact (countWrite_mem _ _ _ _ _).1
    · exact (countWrite_mem _ _ _ _ _).1
  · split
    · exact (countWrite_mem _ _ _ _ _).2
    · exact (countWrite_mem _ _ _ _ _).2
/-- The device that a write to a granule finds: what its operation meets is met, the pre-image is kept (R200, R429). -/
def readied (d : Dev) (a : Nat) (whole : Bool) : Dev := (d.writeMeets a whole).1.cow a
/-- It has the bytes and the other granules' check words as they were, and the same failed sites. -/
theorem readied_keeps (d : Dev) (a : Nat) (w : Bool) : (readied d a w).mem = d.mem ∧
    (∀ g, g ≠ a / 256 → (readied d a w).mark g = d.mark g) ∧ (readied d a w).siteFailed a = d.siteFailed a ∧
    ∀ k, k ≠ 0x5580c → (∀ n, k ≠ pgMPD n + 0x128) → (readied d a w).rd k = d.rd k := by
  obtain ⟨w1, w2, w3, w4, w5⟩ := writeMeets_keeps d a w
  obtain ⟨c1, c2, c3, c4⟩ := cow_keeps (d.writeMeets a w).1 a
  have hr : ∀ k, k ≠ 0x5580c → (∀ n, k ≠ pgMPD n + 0x128) → (readied d a w).rd k = d.rd k := fun k h1 h2 =>
    (c4 k h1).trans (w5 k h2)
  refine ⟨c1.trans w1, fun g hg => ?_, ?_, hr⟩
  · exact (congrArg (fun m : Map Mark => m.get (fun _ => Mark.good) g) c2).trans (w2 g hg)
  · unfold Dev.siteFailed Dev.b
    rw [show (readied d a w).fw = d.fw from c3.trans w3, hr _ (by unfold siteSts pgMPD; omega) (by intro n; unfold siteSts pgMPD; omega)]
/-- For a whole granule it has that granule's check word and injections too. -/
theorem readied_whole (d : Dev) (a k : Nat) : (readied d a true).marks = d.marks ∧ (readied d a true).injected a k = d.injected a k := by
  have hm : (d.writeMeets a true).1 = { d with upsets := (d.writeMeets a true).1.upsets } := rfl
  obtain ⟨c1, c2, c3, c4⟩ := cow_keeps (d.writeMeets a true).1 a
  refine ⟨c2.trans (by rw [hm]), ?_⟩
  have hr : ∀ j, j ≠ 0x5580c → (readied d a true).rd j = d.rd j := fun j hj => c4 j hj
  unfold Dev.injected Dev.g Dev.b
  rw [show (readied d a true).fw = d.fw from c3]
  dsimp only
  rw [hr _ (by unfold pgMPD; omega)]
/-- A write within one granule of a site that stands: the bytes, and the granule's check word (R200, R204). -/
theorem store_granule (d : Dev) (a : Nat) (l : List Byte) (p : Bool) (h0 : 0 < l.length) (h : a % 256 + l.length ≤ 256)
    (hs : storable a = true) (hf : d.siteFailed a = false) :
    ∃ m : Mark, (d.store a l p).1.mem = Map.putList d.mem a l ∧
      (d.store a l p).1.marks = (readied d a (l.length == 256)).marks.put (a / 256) m ∧
      m = (if l.length == 256 && d.injected a 3 then .bad else if p then .poison else if l.length == 256 then .good
        else if (readied d a false).mark (a / 256) = .good then .good else .poison) := by
  obtain ⟨k1, _, k3, _⟩ := readied_keeps d a (l.length == 256)
  obtain ⟨m, g1, g2, g3⟩ := granStore_mem (readied d a (l.length == 256)) a l p (k3.trans hf)
  rw [store_one d a l p h0 h hs]
  refine ⟨m, g1.trans (by rw [k1]), g2, g3.trans ?_⟩
  cases hl : l.length == 256
  · rfl
  · rw [(readied_whole d a 3).2]; simp
/-- A write within one granule of a failed site is dropped (R213). -/
theorem store_dropped (d : Dev) (a : Nat) (l : List Byte) (p : Bool) (h0 : 0 < l.length) (h : a % 256 + l.length ≤ 256)
    (hs : storable a = true) (hf : d.siteFailed a = true) : (d.store a l p).1 = readied d a (l.length == 256) := by
  rw [store_one d a l p h0 h hs]
  have := (readied_keeps d a (l.length == 256)).2.2.1.trans hf
  unfold Dev.granStore Dev.granPut
  exact if_pos this

/-- What leaves the snapshot alone. -/
theorem setErr_ckp (d : Dev) (pg i : Nat) : (d.setErr pg i).ckp = d.ckp := by
  unfold Dev.setErr; dsimp only; split <;> rfl
theorem countWrite_ckp (d : Dev) (a : Nat) (w mis : Bool) (m : Mark) : (d.countWrite a w mis m).ckp = d.ckp := by
  unfold Dev.countWrite; split
  · rfl
  · dsimp only
    generalize siteCnt (siteOf d.fw.layout a).1 0x14 = k1
    generalize siteCnt (siteOf d.fw.layout a).1 0x10 = k2
    generalize siteCnt (siteOf d.fw.layout a).1 0xc = k3
    generalize pgMPD ((siteOf d.fw.layout a).1 / 4) = k4
    have e1 : (if w then d else d.inc k1).ckp = d.ckp := by split <;> rfl
    generalize (if w then d else d.inc k1) = x at *
    have e2 : (if m = .poison then x.inc k2 else x).ckp = d.ckp := by split <;> exact e1
    generalize (if m = .poison then x.inc k2 else x) = y at *
    split
    · rw [setErr_ckp]; exact e2
    · exact e2
theorem watchWrite_ckp (d : Dev) (a : Nat) : (d.watchWrite a).ckp = d.ckp := by
  unfold Dev.watchWrite; dsimp only
  (repeat' split) <;> rfl
theorem granStore_ckp (d : Dev) (a : Nat) (l : List Byte) (p : Bool) : (d.granStore a l p).1.ckp = d.ckp := by
  unfold Dev.granStore Dev.granPut
  dsimp only
  split
  · rfl
  · split
    · exact (countWrite_ckp _ _ _ _ _).trans (watchWrite_ckp d a)
    · exact (countWrite_ckp _ _ _ _ _).trans (watchWrite_ckp d a)
/-- The address that passed its checks (R226). -/
theorem chk_addr {i r imm n al w at_ p} (h : chkAccess i r imm n al w at_ = .ok p) : p = adrPlus r.tag r.v imm % 2 ^ addrBits r.tag := by
  unfold chkAccess at h
  split at h; · simp at h
  split at h; · simp at h
  dsimp only at h
  split at h; · simp at h
  (repeat' split at h) <;> simp at h
  exact h.symm
/-- Where a core may write there is memory. -/
theorem core_may {i : Fin 37} {a n at_} (h : coreMay i true at_ a n = true) (hp : areaOf a ≠ .pages) : storable a = true := by
  unfold coreMay at h; unfold storable
  split at h <;> split at h <;> simp_all
theorem chk_more {i : Fin 37} {r imm n al at_ p} (h : chkAccess i r imm n al true at_ = .ok p) (ht : r.tag ≠ tIO) : coreMay i true at_ p n = true ∧ p % al = 0 := by
  unfold chkAccess at h
  split at h; · simp at h
  split at h; · simp at h
  rename_i h2
  dsimp only at h
  split at h; · simp at h
  split at h; · simp at h
  split at h; · simp at h
  rename_i h3
  split at h; · simp at h
  split at h; · simp at h
  rename_i h4
  simp at h; subst h
  have t2 : r.tag = 2 := by simp [tIO] at ht; omega
  simp [t2] at h4
  exact ⟨by rw [t2]; exact h4, by simpa using h3⟩

end Sys2Proof.Laws
end

