-- ==== Sys2Proof/WellFormed.lean ====
section
/-!
DEFINITION. WellFormed.lean: what every operand of a command that can come from outside satisfies: a number fits the field
that carries it. The meanings do not ask for it: they are total on every command.
-/
namespace Sys2Proof

/-- A device number (R20). -/
def isDev (n : Nat) : Bool := decide (n < 1024)
/-- A command tag, or another 16-bit field (Table 10.5). -/
def isCid (n : Nat) : Bool := decide (n < 65536)
/-- A ring pair (R268). -/
def isPair (n : Nat) : Bool := decide (n < 256)
/-- A register page (Table 20.1). -/
def isPageOff (n : Nat) : Bool := n % 4096 == 0 && decide (n < 0x140000)
/-- An aligned register offset of BAR0 (R9, R500). -/
def isRegOff (n : Nat) : Bool := n % 4 == 0 && decide (n < 2 ^ 24)
/-- A network port (chapter 13). -/
def isPort (n : Nat) : Bool := decide (n < 8)
/-- A connection (R371). -/
def isConn (n : Nat) : Bool := decide (n < 65536)
/-- A field of one byte, of 32 and of 64 bits. -/
def isByte (n : Nat) : Bool := decide (n < 256)
def isWord (n : Nat) : Bool := decide (n < 2 ^ 32)
def isDWord (n : Nat) : Bool := decide (n < 2 ^ 64)

/-- Every field of an Emham packet fits (Tables 14.1 and 14.2). -/
def EmhPkt.ok (k : EmhPkt) : Bool :=
  decide (k.ver < 16) && decide (k.op < 16) && decide (k.path < 8) && isByte k.epoch && isCid k.domain && isDev k.sdev
    && isDev k.ddev && isConn k.dconn && isConn k.sconn
    && isWord k.psn && isWord k.msn && isWord k.offset && isWord k.mlen && isWord k.rkey && isDWord k.raddr && isWord k.rlen
    && decide (k.payload.length ≤ 4096)

/-- Every field of a control message fits (Table 14.10). -/
def Ctl.ok (m : Ctl) : Bool := isByte m.ctype && isDev m.dev && isWord m.arg

/-- A configuration request names a bus, a device and a function (R293). -/
def CfgReq.ok (c : CfgReq) : Bool := isByte c.bus && decide (c.dev < 32) && decide (c.fn < 8)
/-- A request at HEP is well formed (R299). -/
def PfReq.ok : PfReq → Bool
  | .cfg c => c.ok
  | _ => true

/-- What an accelerator's request carries: its bus number and its PASID of 20 bits (R294, R303). -/
def ReqAttr.ok (a : ReqAttr) : Bool := isByte a.bus && a.pasid.all fun p => decide (p < 2 ^ 20)

/-- The command is well formed. -/
def Instr.wellFormed : Instr → Bool
  | .registerWrite off _ => isRegOff off
  | .loReadLatch off => isRegOff off
  | .commitArm pg => isPageOff pg
  | .commitNow pg => isPageOff pg
  | .commitCancel pg => isPageOff pg
  | .hctlEnWrite pg _ => isPageOff pg
  | .hctlFreezeWrite pg _ => isPageOff pg
  | .hctlSafeWrite pg _ => isPageOff pg
  | .intSetWrite pg _ => isPageOff pg
  | .tideMarkMsg src _ _ => isDev src
  | .tideReportMsg src _ => isDev src
  | .reportTimeout dev => isDev dev
  | .domainStart cid => isCid cid
  | .startMsg src _ _ => isDev src
  | .startAckMsg src _ _ => isDev src
  | .sliceRedTimeout rgrp clmask _ => isWord rgrp && isWord clmask
  | .kvGroupTimeout _ rgrp clmask => isWord rgrp && isWord clmask
  | .mapLoad cid _ _ => isCid cid
  | .mapArmMsg src gen _ _ => isDev src && isCid gen
  | .mapAckMsg src gen _ => isDev src && isCid gen
  | .dispatchSend target => isDev target
  | .dispatchMsg conn msn _ _ _ => isConn conn && isWord msn
  | .returnMsg conn msn _ _ _ => isConn conn && isWord msn
  | .refuseMsg conn _ => isConn conn
  | .creditMsg conn _ => isConn conn
  | .creditTimeout dev => isDev dev
  | .negotiate cid => isCid cid
  | .resume cid => isCid cid
  | .createRings cid pair _ _ _ _ _ _ => isCid cid && isPair pair
  | .deleteRings cid pair => isCid cid && isPair pair
  | .configDomain cid _ dev headDev members _ _ _ _ _ => isCid cid && isDev dev && isDev headDev && members.all isDev
  | .setLayout cid _ _ _ _ _ => isCid cid
  | .buddyRing cid => isCid cid
  | .fwUpdate cid => isCid cid
  | .getDump cid => isCid cid
  | .logCfg cid _ _ => isCid cid
  | .powerCap cid => isCid cid
  | .getSensors _ cid _ => isCid cid
  | .launchSq _ cid _ => isCid cid
  | .stopSq _ cid _ => isCid cid
  | .bar0Request _ _ _ size _ => isWord size
  | .bar4Request _ _ size _ _ => isWord size
  | .acceleratorRequest _ _ _ size _ attr => isWord size && attr.ok
  | .pf0UnsupportedRequest _ r => r.ok
  | .coveCreate cid => isCid cid
  | .coveDestroy cid => isCid cid
  | .coveResize cid => isCid cid
  | .coveReset cid => isCid cid
  | .coveFreeze cid => isCid cid
  | .coveThaw cid => isCid cid
  | .coveSave cid => isCid cid
  | .coveRestore cid => isCid cid
  | .coveQuery _ cid => isCid cid
  | .frameReceive _ _ _ emh _ _ _ => emh.all EmhPkt.ok
  | .hnqTxFetch _ _ _ emh _ _ => emh.all EmhPkt.ok
  | .connectPkt port k => isPort port && k.ok
  | .acceptPkt port k => isPort port && k.ok
  | .closePkt port k => isPort port && k.ok
  | .resetPkt port k => isPort port && k.ok
  | .dataPacket port k => isPort port && k.ok
  | .ackPkt port k => isPort port && k.ok
  | .nakPkt port k => isPort port && k.ok
  | .nakResend _ psn => isWord psn
  | .notReadyTimeout _ msn => isWord msn
  | .pageTimeout _ msn => isWord msn
  | .rtoExpiry _ psn => isWord psn
  | .probePkt port k => isPort port && k.ok
  | .probeAckPkt port k => isPort port && k.ok
  | .nvmeIcreq conn hpda _ _ _ => isConn conn && isByte hpda
  | .tcpConnectAttempt conn port _ => isConn conn && isPort port
  | .nvmeConnect conn cid qid sqsize kato _ _ => isConn conn && isCid cid && isCid qid && isCid sqsize && isWord kato
  | .nvmeRead conn cid nsid slba nlb => isConn conn && isCid cid && isWord nsid && isDWord slba && isCid nlb
  | .nvmeWrite conn cid nsid slba nlb _ _ _ => isConn conn && isCid cid && isWord nsid && isDWord slba && isCid nlb
  | .nvmeFlush conn cid nsid => isConn conn && isCid cid && isWord nsid
  | .nvmeWriteZeroes conn cid nsid slba nlb => isConn conn && isCid cid && isWord nsid && isDWord slba && isCid nlb
  | .nvmeDatasetManagement conn cid nsid _ _ => isConn conn && isCid cid && isWord nsid
  | .nvmeAbort conn cid sqid target => isConn conn && isCid cid && isCid sqid && isCid target
  | .nvmeIdentify conn cid nsid cns => isConn conn && isCid cid && isWord nsid && isByte cns
  | .nvmeGetLogPage conn cid lid _ => isConn conn && isCid cid && isByte lid
  | .nvmeGetFeatures conn cid fid => isConn conn && isCid cid && isByte fid
  | .nvmeSetFeatures conn cid fid val => isConn conn && isCid cid && isByte fid && isWord val
  | .nvmePowerStateSet conn cid ps => isConn conn && isCid cid && isByte ps
  | .nvmeKeepAlive conn cid => isConn conn && isCid cid
  | .nvmeAsyncEventRequest conn cid => isConn conn && isCid cid
  | .nvmePropertyGet conn cid _ => isConn conn && isCid cid
  | .nvmePropertySet conn cid _ val => isConn conn && isCid cid && isWord val
  | .nvmeFormatNvm conn cid nsid _ _ => isConn conn && isCid cid && isWord nsid
  | .nvmeSanitize conn cid _ => isConn conn && isCid cid
  | .nvmeFirmwareDownload conn cid _ _ => isConn conn && isCid cid
  | .nvmeFirmwareCommit conn cid _ _ _ => isConn conn && isCid cid
  | .h2cDataPdu conn cid _ _ _ _ => isConn conn && isCid cid
  | .destage nsid _ => isWord nsid
  | .snapSet cid _ => isCid cid
  | .snapArm cid => isCid cid
  | .snapAbort cid => isCid cid
  | .snapStatus cid => isCid cid
  | .snapRestore cid => isCid cid
  | .buddyOfferMsg src m => isDev src && m.ok
  | .buddyReplyMsg src _ => isDev src
  | .buddyArmMsg src _ => isDev src
  | .buddyAckMsg src _ => isDev src
  | .gstop cid => isCid cid
  | .gstopArmMsg src _ => isDev src
  | .gstopAckMsg src _ => isDev src
  | .cutReportMsg src _ _ => isDev src
  | .gstopRelease cid => isCid cid
  | .gstopReleaseMsg src _ => isDev src
  | .memberExclude cid => isCid cid
  | .memberExcludeMsg src dev _ => isDev src && isDev dev
  | .memberInclude cid => isCid cid
  | .memberIncludeMsg src dev _ => isDev src && isDev dev
  | .memberAckMsg src _ _ => isDev src
  | .attReport _ cid _ => isCid cid
  | .attGetCert _ cid => isCid cid
  | .attMeasureWeights cid => isCid cid
  | .attSvnCommit cid _ => isCid cid
  | .dumpDefine cid => isCid cid
  | .dumpArm cid => isCid cid
  | .dumpCancel cid => isCid cid
  | .dumpRing cid => isCid cid
  | .mctpControlMessage code _ => isByte code
  | .norBegin size => isWord size
  | .controlReplyTimeout _ dev => isDev dev
  | .nvmeTcpConnectionClose conn => isConn conn
  | .nvmeInvalidOpcode conn cid opc => isConn conn && isCid cid && isByte opc
  | .smbusArp code _ => isByte code
  | .markTimeout | .sbTideEdge .. | .sbTideDrive | .edgeMissTimeout
  | .tideAdvance | .boundaryApply | .domainStartTimeout | .tideCurLoStage .. => true
  | .tideCurLoad .. | .tideSbtEnWrite .. | .srSeedWrite .. | .expertJobBegin ..
  | .gateJobBegin .. | .combineJobBegin .. | .codebookLoadBegin .. | .codebookLoadDone .. => true
  | .jobEnd .. | .sliceReceive .. | .partialNotice .. | .kvSelectBegin ..
  | .kvAttendBegin .. | .kvWriteBegin .. | .kvReadBegin .. | .kvGroupResult .. => true
  | .dispatchJobBegin .. | .dispatchJobComplete .. | .returnJobBegin .. | .returnJobComplete ..
  | .xdispTimeout .. | .xretTimeout .. | .xdownClear .. | .dmak .. => true
  | .dmaSetStart .. | .dmaReadback .. | .dmaImageReport .. | .dmaContinue ..
  | .dmaRequestTimeout .. | .dmaBusCompletion .. | .dmaStop .. | .dmaDiscard .. => true
  | .loadGo | .imageVerified .. | .firmwareRunning | .adminGo
  | .sqTailWrite .. | .cqHeadWrite .. | .commandFetch .. | .updateConfirm => true
  | .updateConfirmTimeout | .leaseRenew | .leaseExpired | .watchdogExpiry ..
  | .powerLoopPeriod .. | .thermalLoopPeriod .. | .pwrHoldDrop .. | .alu .. => true
  | .fpu .. | .addi .. | .andi .. | .ori .. | .xori .. | .shi .. | .cmpi .. | .movi .. => true
  | .movs .. | .ldb .. | .ldh .. | .ldw .. | .ldd .. | .ldbs .. | .ldhs .. | .ldws .. => true
  | .stb .. | .sth .. | .stw .. | .std .. | .loadTimeout .. | .ldc .. | .stc .. | .amo .. => true
  | .fence .. | .waitne .. | .b .. | .jal .. | .jr .. | .tget .. | .ttst .. | .mkt .. => true
  | .tint .. | .mkh .. | .addr .. | .narrow .. | .rdonly .. | .ldg .. | .tcur .. | .twait .. => true
  | .twatch .. | .trep .. | .tadv .. | .clk .. | .job .. | .gate .. | .disp .. | .note .. => true
  | .sys .. | .trcp .. | .brk .. | .mint .. | .ldt .. | .stt .. | .csrr .. | .csrw .. => true
  | .eret .. | .launch .. | .sqctlStop .. | .sqctlResume ..
  | .sqctlState .. | .functionLevelReset | .flrComplete => true
  | .busMasterClear .. | .apBusMasterWrite .. | .hepLinkDown | .apLinkDown ..
  | .linkL1Idle .. | .coveModeWrite .. | .coveResizeComplete .. | .covePurgeDeadline .. => true
  | .coveFreezeComplete .. | .packetDeliver .. | .ruleInstall .. | .portModeWrite ..
  | .portEnWrite .. | .netLinkChange .. | .tsqSend .. | .soundingSweep => true
  | .hnqCfgEnWrite .. | .hnqTxTailWrite .. | .hnqRxTailWrite .. | .connListen ..
  | .connOpen .. | .connClose .. | .connReset .. | .connRepoint .. => true
  | .openTimeout .. | .connectRetry .. | .sqDbWrite .. | .workRequestFetch ..
  | .ackSend .. | .probeTimer .. | .sendStallRecheck .. | .regOpen => true
  | .regClose | .regionCloseTimeout .. | .keepAliveTimeout .. | .ssdCommandComplete ..
  | .ssdLinkDown .. | .sanitizeProgressSave .. | .nsInstall | .nsRemove => true
  | .nvtCtlWrite .. | .preimageCopied .. | .snapshotCopy | .ebbComplete
  | .ebbTimeout | .safeCtlWrite .. | .errResume | .recTailWrite .. => true
  | .sbEstopAssert | .marginPlanPeriod .. | .weightMeasureDone | .tbCtlEnWrite ..
  | .tbSwtrig | .dumpCopyDone .. | .dmpTailWrite .. | .scrubStep .. => true
  | .channelRetrainDone .. | .retrainTimeout .. | .binReqWrite .. | .binChange ..
  | .errInjArm .. | .dieLinkRetry .. | .zeroFillDone | .warmExitDone => true
  | .sbPwrenAssert .. | .sbPwrenDeassert | .sbRstAssert | .sbRstDeassert ..
  | .vinRangeWarn .. | .vinFault .. | .railFault .. | .senseOpen .. => true
  | .faultValidClear .. | .temperatureWarning .. | .thermalTrip .. | .criticalTemperature ..
  | .pllUnlock .. | .referenceClockLoss .. | .mctpGetStatus | .mctpGetSensors .. => true
  | .setCap .. | .getErrors .. | .norData .. | .norEnd ..
  | .waitneTimeout .. | .siteStopsAnswering .. | .siteTemperatureChange .. | .bar4Resize .. => true
  | .hepLinkUp .. | .apLinkUp .. | .ssdReady .. | .sbEstopDeassert
  | .vinRestored .. | .sbPwrenHoldoffEnd .. | .railsInRegulation .. | .busMasterSet .. => true
  | .hepFundamentalReset .. | .reservedOpcode .. | .instructionFetchFault ..
  | .badTypeJobBegin .. | .mctpUnsupportedMessage .. | .fwUpdateVerified .. | .attReportSigned => true

end Sys2Proof
end

