-- ==== Sys2Proof/Tests/Slice0.lean ====
section
/-!
SUPPORT. Tests/Slice0.lean: for every statement that has hypotheses, a concrete state and operands that meet all of them
(a conjunct for each of its clauses); ill-formed operands refused; the spec's worked examples.
-/
namespace Sys2Proof.Tests.Slice0
open Sys2Proof Sys2Proof.Machine
set_option Elab.async false

/-! Devices for the witnesses below. -/
/-- The device after reset with some registers as given. -/
def dv (l : List (Nat × Word)) : Dev := l.foldl (fun d r => d.wr r.1 r.2) State.reset.dev
/-- The firmware runs, and EMH is enabled. -/
def up : Dev := dv [(0x8110, 4), (0x53008, 1), (0x53100, 1)]
/-- A worker, device 1, of a domain whose headland is device 2. -/
def wk : Dev := { up with tide := { up.tide with configured := true, role := .worker, dev := 1, headDev := 2, members := [2] } }
/-- A headland, device 2, with one worker, device 1. -/
def hl : Dev := { up with tide := { up.tide with configured := true, role := .headland, dev := 2, headDev := 2, members := [1] } }
/-- In safe state. -/
def sf : Dev := dv [(0x8110, 4), (0x5104, 1)]
/-- A device with changes to its tide, to its slack. -/
def td (d : Dev) (f : Tide → Tide) : Dev := { d with tide := f d.tide }
def slk (d : Dev) (x : Slack) : Dev := { d with slack := x }
/-- Driver ring pair 0 in use, and a command of it fetched. -/
def ringed (d : Dev) : Dev := d.setRing 0 { enabled := true, driver := true, sqLog := 4, cqLog := 4 }
def ask (d : Dev) (opc : Nat) (param : List Byte) (buflen : Nat) (arm : Bool) (buf : Nat) : Dev :=
  { ringed d with fw := { (ringed d).fw with fetched := [{ pair := 0, cid := 7, opc := opc, arm := arm, buf := buf, buflen := buflen, param := param }] } }
def cmdOf (opc : Nat) (param : List Byte) (buflen : Nat) (arm : Bool) (buf : Nat) : Cmd :=
  { pair := 0, cid := 7, opc := opc, arm := arm, buf := buf, buflen := buflen, param := param }
/-- `n` bytes, zero but for fields: offset, width, value. -/
def image (n : Nat) (l : List (Nat × Nat × Nat)) : List Byte :=
  l.foldl (fun b f => b.take f.1 ++ leBytes f.2.2 f.2.1 ++ b.drop (f.1 + f.2.1)) (List.replicate n 0)
/-- A job of cluster 0 with a descriptor; the device with it queued, and begun. -/
def job (l : List (Nat × Nat × Nat)) : QJob := { seq := 1, cl := 0, core := 0, cove := none, addr := 0x1000, desc := image 64 l }
def queued (j : QJob) : Dev := { up.sb 0x10008 0 true with xc := { up.xc with queue := [j] } }
def begun (r : RunJob) : Dev := { up with xc := { up.xc with run := [r] } }
def xdev (f : Xcs → Xcs) : Dev := { up with xc := f up.xc }
/-- A connection context 5: its first bytes in memory at EMH.CTX 0, STATE, SERVICE, OWNER driver, EPOCH, peer 2 and its context 6, one
path, up. -/
def ctxed (d : Dev) (state service : Nat) : Dev :=
  { d with mem := Map.putList d.mem 1280 (image 16 [(0, 1, state), (1, 1, service), (3, 1, 1), (4, 2, 2), (6, 2, 6), (8, 1, 1), (9, 1, 1)]) }
def xch (d : Dev) (f : Xch → Xch) : Dev := { d with xch := f d.xch }
/-- The lowest context of a service where one context lives. -/
theorem findCtx_one (d : Dev) (s p c : Nat) (o : Option Nat)
    (h : (d.mem.filterMap fun x =>
      if d.ctxAddr 0 ≤ x.1 ∧ x.1 < d.ctxAddr 0 + 16777216 ∧ (x.1 - d.ctxAddr 0) % 256 = 0 ∧
      d.cState ((x.1 - d.ctxAddr 0) / 256) ≠ 0
      then some ((x.1 - d.ctxAddr 0) / 256) else none).eraseDups = [c])
    (h2 : (d.cState c == 3 && d.cService c == s && d.cPeer c == p && d.cOwner c == o) = true) : d.findCtx s p o = some c := by
  unfold Dev.findCtx Dev.liveCtxs
  dsimp only
  rw [h, List.mergeSort_singleton, List.find?_cons, h2]
/-- A read of memory is its parts. -/
theorem read_parts {d : Dev} {pg dom a n : Nat} {b : Bool} (h : (d.memRead pg dom a n).2.1 = b) :
    d.memRead pg dom a n = ((d.memRead pg dom a n).1, b, (d.memRead pg dom a n).2.2) := by rw [← h]
/-- Registers g1 up: INT 5, FP64 1, a writable DADDR 0x10000 with a bound of 64 KiB, CODE 0x20000, TIDE 0, HNDL of DMA engine 0, POISON,
IOADDR 0x10000, INT 8, FP64 2. -/
def regs1 : List Reg :=
  [⟨0, 0⟩, ⟨5, 0⟩, ⟨0x3ff0000000000000, 1⟩, ⟨0x0050000000010000, 2⟩, ⟨0x0010000000020000, 7⟩, ⟨0, 5⟩, ⟨1, 4⟩, ⟨0, 15⟩,
   ⟨0x0140000000010000, 3⟩, ⟨8, 0⟩, ⟨0x4000000000000000, 1⟩, ⟨0xffffffffffffffff, 0⟩] ++ List.replicate 20 ⟨0, 0⟩
/-- Core `i` runs with those registers, its program counter at CODE 0x20000. -/
def cpu (i : Nat) : Dev := up.setCore i { up.core i with running := true, gr := regs1, pc := 0x0010000000020000 }
def cpuOf (i : Nat) (f : Core → Core) : Dev := (cpu i).setCore i (f ((cpu i).core i))
/-- What core `i` reads of `n` bytes at 0x10000, as an instruction finds it. -/
def cpuRead (i : Fin 37) (n : Nat) : List Byte × Bool × Dev := ((cpu i).issuing i 0).coreMem i 0x10000 n
theorem core_parts {d : Dev} {i : Fin 37} {p n : Nat} {b : Bool} (h : (d.coreMem i p n).2.1 = b) :
    d.coreMem i p n = ((d.coreMem i p n).1, b, (d.coreMem i p n).2.2) := by rw [← h]
/-- The scratch pool's base, where rings and images are staged; a device whose power core runs. -/
def stage : Nat := 0x16800000000
def looped : Dev := up.setCore 33 { up.core 33 with running := true }
/-- With nothing in memory no context lives. -/
theorem liveCtxs_none {d : Dev} (h : d.mem = []) : d.liveCtxs = [] := by
  unfold Dev.liveCtxs
  rw [h]
  simp
theorem opt_get {α : Type} {o : Option α} {x : α} (h : o.isSome = true) : o = some (o.getD x) := by
  cases o with
  | none => simp at h
  | some v => rfl
/-- A CRC-32C whose running value is evaluated at each byte, for the kernel. -/
def atNat {α : Type} (n : Nat) (k : Nat → α) : α := Nat.rec (k 0) (fun m _ => k (m + 1)) n
theorem atNat_eq {α : Type} (n : Nat) (k : Nat → α) : atNat n k = k n := by cases n <;> rfl
def crcF : List Byte → Nat → Nat
  | [], c => c
  | b :: t, c => atNat (crcBits (c ^^^ b.toNat) 8) fun x => crcF t x
theorem crcF_eq (l : List Byte) (c : Nat) : crcFrom c l = crcF l c := by
  induction l generalizing c with
  | nil => rfl
  | cons b t ih =>
    unfold crcF
    rw [atNat_eq, ← ih]
    rfl
theorem crc_of {l : List Byte} {v : Nat} (h : crcF l 0xffffffff ^^^ 0xffffffff = v) : crc32c l = v := by
  unfold crc32c
  rw [crcF_eq, h]

theorem test_meets_RegisterCommandsComplete :
    (∃ (d : Dev) (off : Nat), off < 0x202040 ∧ off % 4 = 0 ∧ d.writable off = true ∧ (off < 0x200000 ∨ d.safe = true)) ∧
    (∃ (d : Dev) (off : Nat), 0x200000 ≤ off ∧ off < 0x202040 ∧ off % 4 = 0 ∧ d.safe = false) ∧
    (∃ (d : Dev) (off : Nat), off < 0x200000 ∧ latches off = true ∧ d.pageOpen off = true) ∧
    (∃ (d : Dev) (pg : Nat), isPage pg = true ∧ d.writable (pg + 0x38) = true ∧ d.isPosted pg = false ∧
      d.mayPost false pg = true) ∧
    (∃ (d : Dev) (pg n : Nat) (b : Blk), isPage pg = true ∧ pageBlk (pg / 4096) = some (b, n) ∧
      b ∉ [Blk.gen, .tide, .sec, .err, .trc, .cnt, .fwr, .srp] ∧ d.writable (pg + 8) = true) ∧
    (∃ (d : Dev) (pg n : Nat) (b : Blk), isPage pg = true ∧ pageBlk (pg / 4096) = some (b, n) ∧
      b ∈ [Blk.gen, .tide, .sec, .err, .trc, .cnt, .fwr, .srp] ∧ d.writable (pg + 8) = true) ∧
    (∃ (d : Dev) (pg : Nat), isPage pg = true ∧ pg ≠ pgSRP ∧ d.writable (pg + 8) = true) ∧
    (∃ (d : Dev) (pg : Nat) (b : Bool), isPage pg = true ∧ d.slackNow = true ∧ d.writable (pg + 8) = true ∧
      b ≠ d.b (pg + 8) 2) ∧
    (∃ (d : Dev) (pg : Nat) (m : List FieldD), isPage pg = true ∧ d.writable (pg + 0x28) = true ∧
      fieldsOf (pg + 0x20) = some m) :=
  ⟨⟨up, 0x3100, by decide +kernel⟩,
   ⟨up, 0x200010, by decide +kernel⟩,
   ⟨up, 0x3100, by decide +kernel⟩,
   ⟨up, 0x10000, by decide +kernel⟩,
   ⟨up, 0x53000, 0, .emh, by decide +kernel⟩,
   ⟨up, 0x3000, 0, .tide, by decide +kernel⟩,
   ⟨up, 0x3000, by decide +kernel⟩,
   ⟨slk up { stop := true }, 0x53000, true, by decide +kernel⟩,
   ⟨up, 0x3000, _, by decide +kernel, by decide +kernel, rfl⟩⟩

theorem test_meets_MarksAndReportsComplete :
    (∃ (d : Dev) (a : Bool) (n : DWord), d.emhOn = true ∧ d.fwRunning = true ∧ d.isWorker = true ∧ d.tide.cur < n ∧
      (a && d.b (pgTIDE + 8) 8) = false) ∧
    (∃ (d : Dev) (n : DWord), d.emhOn = true ∧ d.fwRunning = true ∧ d.isWorker = true ∧ d.tide.cur < n ∧
      d.b (pgTIDE + 8) 8 = true) ∧
    (∃ d : Dev, d.isWorker = true ∧ d.fwRunning = true ∧ d.safe = false ∧ d.tide.reported = true ∧ d.tide.hold = false ∧
      d.slack.startup = false ∧ d.slack.stop = false ∧ d.tide.held = none ∧ d.tide.leaseHeld = none) ∧
    (∃ (d : Dev) (n : DWord), d.isWorker = true ∧ d.b (pgTIDE + 8) 8 = true ∧ d.fwRunning = true ∧ d.safe = false ∧
      d.tide.held = some n) ∧
    (∃ d : Dev, d.isWorker = true ∧ d.b (pgTIDE + 8) 8 = true ∧ d.fwRunning = true ∧ d.safe = false ∧ d.tide.held = none) ∧
    (∃ d : Dev, d.isHead = true ∧ d.b (pgTIDE + 8) 8 = true ∧ d.tide.announced = true ∧ d.safe = false) ∧
    (∃ (d : Dev) (n : DWord), d.tide.held = some n ∧ d.safe = false) ∧
    (∃ (d : Dev) (src : Nat), d.emhOn = true ∧ d.fwRunning = true ∧ d.isHead = true ∧ src ∈ d.workers ∧
      src ∉ d.tide.reports ∧ d.slack.startup = false) ∧
    (∃ d : Dev, d.isHead = true ∧ d.live = true ∧ d.slackNow = false ∧ d.tide.pending = true ∧ d.tide.cur < d.tide.next ∧
      d.waitingReports = [] ∧ d.gated d.tide.next = false ∧ d.tide.announced = false ∧ d.tide.including = []) ∧
    (∃ (d : Dev) (dev : Nat), d.isHead = true ∧ d.fwRunning = true ∧ d.safe = false ∧ d.tide.reported = true ∧
      dev ∈ d.waitingReports ∧ dev ∉ d.tide.tmoSeen) ∧
    (∃ (d : Dev) (req dev : Nat) (o : CtlOp), d.safe = false ∧
      d.tide.ctlOps.find? (fun o => o.req == req && o.waiting.contains dev && !o.late.contains dev) = some o) :=
  ⟨⟨wk, false, 5, by decide +kernel⟩,
   ⟨wk.sb 0x3008 8 true, 5, by decide +kernel⟩,
   ⟨td wk fun t => { t with reported := true }, by decide +kernel⟩,
   ⟨td (wk.sb 0x3008 8 true) fun t => { t with held := some 5 }, 5, by decide +kernel⟩,
   ⟨wk.sb 0x3008 8 true, by decide +kernel⟩,
   ⟨td (hl.sb 0x3008 8 true) fun t => { t with announced := true }, by decide +kernel⟩,
   ⟨td up fun t => { t with held := some 5 }, 5, by decide +kernel⟩,
   ⟨hl, 1, by decide +kernel⟩,
   ⟨td hl fun t => { t with pending := true, next := 0x1000000, reports := [1, 2] }, by decide +kernel⟩,
   ⟨td hl fun t => { t with reported := true, reports := [2] }, 1, by decide +kernel⟩,
   ⟨td up fun t => { t with ctlOps := [{ req := 9, cid := 1, tide := 0, waiting := [4] }] }, 9, 4, { req := 9, cid := 1, tide := 0, waiting := [4] }, by decide +kernel⟩⟩

theorem test_meets_BoundaryAndStartComplete :
    (∃ d : Dev, d.tide.hold = true ∧ d.fwRunning = true ∧ d.safe = false) ∧
    (∃ (d : Dev) (cid : Nat) (c : Cmd), d.cmd? 0 cid 0x0014 = some c ∧ d.isHead = true ∧ d.tide.start = none ∧
      d.slack.startup = true ∧ d.workers ≠ []) ∧
    (∃ d : Dev, d.emhOn = true ∧ d.fwRunning = true ∧ d.isWorker = true ∧ d.slack.startup = true) ∧
    (∃ (d : Dev) (cid src : Nat) (ag : List Nat) (t : DWord), d.emhOn = true ∧ d.fwRunning = true ∧
      d.tide.configured = true ∧ d.tide.start = some (cid, t, [src], ag)) ∧
    (∃ (d : Dev) (cid src w : Nat) (ws ag : List Nat) (t : DWord), d.emhOn = true ∧ d.fwRunning = true ∧
      d.tide.configured = true ∧ d.tide.start = some (cid, t, src :: w :: ws, ag)) ∧
    (∃ (d : Dev) (cid w : Nat) (ws ag : List Nat) (t : DWord), d.tide.start = some (cid, t, w :: ws, ag) ∧ d.safe = false) ∧
    (∃ (d : Dev), d.writable (pgTIDE + 0x100) = true) ∧
    (∃ (d : Dev), d.writable (pgTIDE + 0x104) = true ∧ d.slackNow = true ∧ d.anyArmed = false) ∧
    (∃ (d : Dev) (en : Bool), d.writable (pgTIDE + 8) = true ∧ d.slackNow = true ∧ en ≠ d.b (pgTIDE + 8) 8) ∧
    (∃ (d : Dev) (c : Fin 16), d.writable (pgXC c + 0x10c) = true) :=
  ⟨⟨td up fun t => { t with hold := true }, by decide +kernel⟩,
   ⟨slk (ask hl 0x14 [] 0 false 0) { startup := true }, 7, cmdOf 0x14 [] 0 false 0, by decide +kernel⟩,
   ⟨slk wk { startup := true }, by decide +kernel⟩,
   ⟨td hl fun t => { t with start := some (7, 0, [1], []) }, 7, 1, [], 0, by decide +kernel⟩,
   ⟨td hl fun t => { t with start := some (7, 0, [1, 3], []) }, 7, 1, 3, [], [], 0, by decide +kernel⟩,
   ⟨td hl fun t => { t with start := some (7, 0, [1], []) }, 7, 1, [], [], 0, by decide +kernel⟩,
   ⟨up, by decide +kernel⟩,
   ⟨slk up { startup := true }, by decide +kernel⟩,
   ⟨slk up { startup := true }, true, by decide +kernel⟩,
   ⟨up, 15, by decide +kernel⟩⟩

def jExpert : QJob := job [(0, 1, 1), (4, 2, 1), (56, 2, 1), (58, 1, 1), (62, 2, 1), (59, 1, 0), (6, 1, 0), (7, 1, 0)]
def jGate : QJob := job [(0, 1, 2), (1, 1, 1), (2, 1, 1), (6, 2, 4), (10, 1, 1), (5, 1, 1), (24, 8, 0x800100000000)]
def jComb : QJob := job [(0, 1, 3), (1, 1, 1), (2, 1, 1), (4, 2, 1), (6, 1, 1)]
def jCb : QJob := job [(0, 1, 4), (8, 8, 0x10000)]
def jKv (t : Nat) : QJob := job [(0, 1, t)]
def aSlice : Slice := { rgrp := 1, clmask := 3, owner := 0, src := 1, bad := false, sig := (1, 1, 0, 0), data := [] }
def aKv : KvMsg := { type := 0x20, rgrp := 1, clmask := 3, seq := 1, cl := 0, cove := none, desc := [], dim := 64, list := 0 }
def aSeg : RunJob := { q := job [(0, 1, 1), (1, 1, 2), (60, 2, 1), (62, 2, 3)], wait := true }
def aNote : Notice := { addr := 0, batch := 0, token := 0, rank := 0, bf16 := false, poison := false, cl := 0 }

theorem test_meets_ClusterCommandsComplete_1 :
    (∃ (d : Dev) (c : Fin 16) (i : Nat) (j : QJob), d.canBegin c i j 1 expertReady ∧ expertChecks j = 0 ∧
      (d.without j).jobAddrs j (expertRanges j) = none) ∧
    (∃ (d : Dev) (c : Fin 16) (i : Nat) (j : QJob), d.canBegin c i j 2 (fun j d => d.reaches (gateRanges j)) ∧
      gateChecks j = 0 ∧ areaOf (j.b8 24) = .sram c ∧ (d.without j).jobAddrs j (gateRanges j) = none) ∧
    (∃ (d : Dev) (c : Fin 16) (i : Nat) (j : QJob), d.canBegin c i j 3 combReady ∧ combChecks j = 0 ∧
      (d.without j).jobAddrs j (combRanges j) = none) ∧
    (∃ (d : Dev) (c : Fin 16) (i : Nat) (j : QJob), d.canBegin c i j 4 cbReady ∧
      (d.without j).jobAddrs j [(false, j.b8 8, 33280)] = none) ∧
    (∃ (d : Dev) (c : Fin 16) (i : Nat) (j : QJob), d.canBegin c i j 0x20 kvReady) ∧
    (∃ (d : Dev) (c : Fin 16) (i : Nat) (j : QJob), d.canBegin c i j 0x21 kvReady) ∧
    (∃ (d : Dev) (c : Fin 16) (i : Nat) (j : QJob), d.canBegin c i j 0x22 kvReady) ∧
    (∃ (d : Dev) (c : Fin 16) (i : Nat) (j : QJob), d.canBegin c i j 0x23 kvReady) :=
  ⟨⟨queued jExpert, 0, 0, jExpert, ⟨by decide +kernel, by decide +kernel⟩, by decide +kernel⟩,
   ⟨queued jGate, 0, 0, jGate, ⟨by decide +kernel, by decide +kernel⟩, by decide +kernel⟩,
   ⟨queued jComb, 0, 0, jComb, ⟨by decide +kernel, by decide +kernel⟩, by decide +kernel⟩,
   ⟨queued jCb, 0, 0, jCb, ⟨by decide +kernel, by decide +kernel⟩, by decide +kernel⟩,
   ⟨queued (jKv 0x20), 0, 0, jKv 0x20, ⟨by decide +kernel, by decide +kernel⟩⟩,
   ⟨queued (jKv 0x21), 0, 0, jKv 0x21, ⟨by decide +kernel, by decide +kernel⟩⟩,
   ⟨queued (jKv 0x22), 0, 0, jKv 0x22, ⟨by decide +kernel, by decide +kernel⟩⟩,
   ⟨queued (jKv 0x23), 0, 0, jKv 0x23, ⟨by decide +kernel, by decide +kernel⟩⟩⟩
theorem test_meets_ClusterCommandsComplete_2 :
    (∃ (d : Dev) (c : Fin 17) (i : Nat) (j : QJob), c.val < 16 ∧ (d.xcQueue c)[i]? = some j ∧ d.live = true ∧
      d.starts (pgXC c) = true ∧ (j.foreign = true ∨ j.type ∉ [1, 2, 3, 4, 0x20, 0x21, 0x22, 0x23]) ∧
      (d.without j).jobAddr j true j.cmpl 16 = true) ∧
    (∃ (d : Dev) (c : Fin 16) (seq : Nat) (r : RunJob), (d.xcRun c).find? (fun r => r.q.seq == seq && r.q.type == 4 && r.wait) = some r ∧ d.reaches [(false, r.q.b8 8, 33280)] = true) ∧
    (∃ (d : Dev) (c : Fin 16) (seq : Nat) (r : RunJob), (d.xcRun c).find? (fun r => r.q.seq == seq && !r.wait) = some r ∧
      r.q.type ≠ 3 ∧ d.xc.combs.find? (·.seq == seq) = none) ∧
    (∃ (d : Dev) (i : Nat) (x : Slice), d.xc.slices[i]? = some x ∧ d.safe = false ∧
      (∀ r, d.segOwner x.rgrp x.clmask x.owner = some r → d.reaches (expertRanges r.q) = true) ∧
      (d.xc.held.filter fun y => y.rgrp == x.rgrp && y.clmask == x.clmask && y.owner == x.owner).length + 1 < popN x.clmask 16) ∧
    (∃ (d : Dev) (g m : Nat) (o : Fin 16) (r : RunJob), d.safe = false ∧
      (d.xc.held.filter fun y => y.rgrp == g && y.clmask == m && y.owner == o.val) ≠ [] ∧ d.segOwner g m o = some r) ∧
    (∃ (d : Dev) (i : Nat) (n : Notice), d.xc.notices[i]? = some n ∧ d.safe = false ∧ d.noticeWaits n = false) ∧
    (∃ (d : Dev) (i : Nat) (m : KvMsg), d.xc.kvmsgs[i]? = some m ∧ d.safe = false ∧ d.calm = true ∧
      (d.xc.kvheld.filter fun y => y.type == m.type && y.rgrp == m.rgrp && y.clmask == m.clmask).length + 1 < popN m.clmask 16) ∧
    (∃ (d : Dev) (ty g m : Nat), d.safe = false ∧ d.calm = true ∧
      (d.xc.kvheld.filter fun y => y.type == ty && y.rgrp == g && y.clmask == m) ≠ []) :=
  ⟨⟨queued (jKv 9), 0, 0, jKv 9, by decide +kernel⟩,
   ⟨begun { q := jCb, wait := true }, 0, 1, { q := jCb, wait := true }, by decide +kernel⟩,
   ⟨begun { q := jExpert }, 0, 1, { q := jExpert }, by decide +kernel⟩,
   ⟨xdev fun x => { x with slices := [aSlice] }, 0, aSlice, by decide +kernel,
      by decide +kernel, fun r h => absurd (h.symm.trans (by decide +kernel)) (Option.some_ne_none r), by decide +kernel⟩,
   ⟨{ begun aSeg with xc := { (begun aSeg).xc with held := [aSlice] } }, 1, 3, 0, aSeg, by decide +kernel⟩,
   ⟨xdev fun x => { x with notices := [aNote] }, 0, aNote, by decide +kernel⟩,
   ⟨xdev fun x => { x with kvmsgs := [aKv] }, 0, aKv, by decide +kernel⟩,
   ⟨xdev fun x => { x with kvheld := [aKv] }, 0x20, 1, 3, by decide +kernel⟩⟩

def xup : Dev := (up.wr 0x53600 1).poke 4 (leBytes 1 2)
def jDisp : QJob := job [(0, 1, 0x10), (1, 1, 1), (2, 1, 1), (6, 1, 1), (40, 8, 0x800000000000)]
def jRet : QJob := job [(0, 1, 0x11), (2, 2, 1)]
def aSel : Sel := { job := 1, cove := none, batch := 0, layer := 0, gen := 0, token := 0, rank := 0, expert := 0, home := some 2, x := 0, xfmt := 0, ldiv := 1, pbf := false, part := 0x800000000000, tide := 0 }
def aMsg : XMsg := { id := 1, job := 1, cove := none, target := 2, replica := false, batch := 0, token := 0, ranks := [0] }
def anArr : Arrival := { idx := 0, origin := 2, gen := 0, batch := 0, token := 0, flags := 0, ldiv := 1, part := 0, slot := 0, conn := 5, cove := none, sels := [(0, 0)] }
def retDev : Dev := xch ((xup.wr 0x53620 6).poke 7 [1]) fun x => { x with queue := [jRet], arrivals := [anArr] }
/-- A header of an exchange message of device 2 for batch 0, token 0, rank 0. -/
def head2 : List Byte := [3, 0, 0, 0, 0, 2, 0, 0, 0, 0, 0, 0, 0, 0, 0, 1] ++ beBytes 0x800000000000 8
def mapReq : Dev := (ask hl 0x12 [] 64 false 0x10000).poke 0x10000 (image 64 [(0, 1, 1), (2, 2, 1), (8, 4, 64)])
def mapR : List Byte × Bool × Dev := mapReq.memRead pgFWR 0x40 0x10000 64

theorem test_meets_ExchangeCommandsComplete_1 :
    (∃ (d : Dev) (i : Nat) (j : QJob), d.canXBegin i j 0x10 ∧ (d.withoutX i).dispatchBad j = false ∧
      (d.withoutX i).partOk j (dispatchPart j) = true ∧
      ((dispatchReads j).find? fun r => !(d.withoutX i).xAddr j false r.1 r.2) = none) ∧
    (∃ (d : Dev) (t c : Nat) (m : XMsg) (x : Sel) (r : List Sel), d.xch.msgs.find? (fun m => m.target == t && m.phase == 0) = some m ∧ d.takesWork = true ∧ d.credit t ≠ 0 ∧ d.openOf m = x :: r ∧ d.findCtx 1 t m.cove = some c) ∧
    (∃ (d : Dev) (seq : Nat) (r : XJob), d.xch.run.find? (fun r => r.q.seq == seq && r.q.type == 0x10 && r.waiting.isEmpty) = some r ∧ d.calm = true) ∧
    (∃ (d : Dev) (conn msn k w : Nat) (h b : List Byte) (p : Bool), d.takesWork = true ∧
      (d.takeXin conn (some msn) h b p).slotFor conn msn h b = (some k, w)) ∧
    (∃ (d : Dev) (conn msn w : Nat) (h b : List Byte) (p : Bool), d.takesWork = true ∧
      (d.takeXin conn (some msn) h b p).slotFor conn msn h b = (none, w)) ∧
    (∃ (d e : Dev) (i idx : Nat) (j : QJob) (a0 a : Arrival), d.canXBegin i j 0x11 ∧
      (d.withoutX i).returnIdx j = some idx ∧ (d.withoutX i).xAddr j false (j.b8 8) 128 = true ∧
      d.xch.arrivals.find? (·.idx == idx) = some a0 ∧ (d.withoutX i).arrivalRec j a0 = (a, e) ∧ returnOk j a = true ∧
      e.xAddr j false (j.b8 16) 128 = true) ∧
    (∃ (d : Dev) (seq : Nat) (r : XJob), d.xch.run.find? (fun r => r.q.seq == seq && r.q.type == 0x11 && r.waiting.isEmpty) = some r ∧ d.calm = true) ∧
    (∃ (d : Dev) (conn msn : Nat) (h b : List Byte) (p : Bool) (x : Sel), d.takesWork = true ∧
      let e := (d.takeXin conn (some msn) h b p).addCredit (beAt h 4 2 % 1024) (beAt h 6 2); e.openFor h = some x) ∧
    (∃ (d : Dev) (conn msn : Nat) (h b : List Byte) (p : Bool), d.takesWork = true ∧
      let e := (d.takeXin conn (some msn) h b p).addCredit (beAt h 4 2 % 1024) (beAt h 6 2); e.openFor h = none) :=
  ⟨⟨xch (xup.wr 0x53610 0x402) fun x => { x with queue := [jDisp] }, 0, jDisp, ⟨by decide +kernel, by decide +kernel⟩,
      by decide +kernel⟩,
   ⟨xch (ctxed up 3 1) fun x => { x with msgs := [aMsg], sels := [aSel], joinCredit := 4 }, 2, 5, aMsg, aSel, [],
      by decide +kernel, by decide +kernel, by decide +kernel,
      by decide +kernel, findCtx_one _ _ _ _ _ (by decide +kernel) (by decide +kernel)⟩,
   ⟨xch up fun x => { x with run := [{ q := jDisp }] }, 1, { q := jDisp }, by decide +kernel⟩,
   ⟨xch up fun x => { x with pre := [(5, 1, some 0, 0)] }, 5, 1, 0, 0, [], [], false, by decide +kernel⟩,
   ⟨xch up fun x => { x with pre := [(5, 1, none, 5)] }, 5, 1, 5, [], [], false, by decide +kernel⟩,
   ⟨retDev, ((retDev.withoutX 0).arrivalRec jRet anArr).2, 0, 0, jRet, anArr, ((retDev.withoutX 0).arrivalRec jRet anArr).1, ⟨by decide +kernel, by decide +kernel⟩, by decide +kernel⟩,
   ⟨xch up fun x => { x with run := [{ q := jRet }] }, 1, { q := jRet }, by decide +kernel⟩,
   ⟨xch up fun x => { x with sels := [aSel] }, 5, 0, head2, [], false, aSel, by decide +kernel⟩,
   ⟨up, 5, 0, head2, [], false, by decide +kernel⟩⟩
theorem test_meets_ExchangeCommandsComplete_2 :
    (∃ (d : Dev) (conn : Nat) (h : List Byte) (m : XMsg), d.takesWork = true ∧
      let e := ((d.takeXin conn none h [] false).addCredit (beAt h 4 2 % 1024) (beAt h 6 2)).inc (pgEMH + 0x918); e.xch.msgs.find? (e.refusedBy h) = some m) ∧
    (∃ (d : Dev) (id : Nat) (m : XMsg), d.safe = false ∧
      d.xch.msgs.find? (fun m => m.id == id && decide (m.phase < 2)) = some m) ∧
    (∃ (d : Dev) (id : Nat) (m : XMsg), d.safe = false ∧
      d.xch.msgs.find? (fun m => m.id == id && m.phase == 2) = some m ∧ d.openOf m ≠ []) ∧
    (∃ (d : Dev), d.takesWork = true) ∧
    (∃ (d : Dev), d.safe = false) ∧
    (∃ (d : Dev) (n : Fin 16), d.writable (pgEMH + 0x640 + 4 * n) = true) ∧
    (∃ (d e f : Dev) (cid bank : Nat) (c : Cmd) (h l : List Byte), d.cmd? 0 cid 0x0012 = some c ∧ d.isHead = true ∧
      d.bufOk c false c.buflen = true ∧ inUserMem bank (17 * 2 ^ 20) = true ∧ bank % 64 = 0 ∧ d.mapBusy = false ∧
      64 ≤ c.buflen ∧ d.memRead pgFWR 0x40 c.buf 64 = (h, false, f) ∧ leAt h 8 4 ≤ 17 * 2 ^ 20 ∧ leAt h 8 4 ≤ c.buflen ∧
      f.memRead pgFWR 0x40 c.buf (leAt h 8 4) = (l, false, e) ∧ mapInvalid l (d.g (pgEMH + 0x60c) 0 16) = false) ∧
    (∃ (d : Dev), d.emhOn = true ∧ d.fwRunning = true ∧ d.isWorker = true) ∧
    (∃ (d : Dev), d.emhOn = true ∧ d.fwRunning = true ∧ d.tide.configured = true) :=
  ⟨⟨xch up fun x => { x with msgs := [{ aMsg with phase := 1 }], sels := [aSel] }, 5, head2, { aMsg with phase := 1 },
      by decide +kernel⟩,
   ⟨xch up fun x => { x with msgs := [{ aMsg with phase := 1 }] }, 1, { aMsg with phase := 1 }, by decide +kernel⟩,
   ⟨xch up fun x => { x with msgs := [{ aMsg with phase := 2 }], sels := [aSel] }, 1, { aMsg with phase := 2 },
      by decide +kernel⟩,
   ⟨up, by decide +kernel⟩,
   ⟨up, by decide +kernel⟩,
   ⟨up, 3, by decide +kernel⟩,
   ⟨mapReq, mapR.2.2, mapR.2.2, 7, 0x100000, cmdOf 0x12 [] 64 false 0x10000, mapR.1, mapR.1, by decide +kernel,
      by decide +kernel, by decide +kernel, by decide +kernel, by decide +kernel, by decide +kernel,
      by decide +kernel, read_parts (by decide +kernel), by decide +kernel,
      by decide +kernel, read_parts (by decide +kernel), by decide +kernel⟩,
   ⟨wk, by decide +kernel⟩,
   ⟨hl, by decide +kernel⟩⟩

def engd (e : Dma) : Dev := (up.sb 0x100008 0 true).setEng 0 e
def aRd : BusRd := { elem := 3, off := 0, port := 8, addr := 0, size := 4, dst := 0, dbus := false }

/-- A firmware image's header staged. -/
def staged : Dev :=
  ((((dv [(0x8110, 2), (0x8108, 10149)]).wr64 0x8100 stage).poke stage
    (image 256 [(0, 4, 0x4b465731), (12, 4, 10149), (48, 4, 256), (52, 4, 9893)])))
def updating (st : Nat) : Dev :=
  { ask up 0x20 [] 0 true 0 with fw := { (ask up 0x20 [] 0 true 0).fw with update := some { cid := 7, arm := none, img := {}, stage := st } } }
def anUpd (st : Nat) : Update := { cid := 7, arm := none, img := {}, stage := st }
def sqReq (opc : Nat) : Dev :=
  { (ask up opc [] 576 false 0x20000).poke 0x20000 (image 576 [(0, 8, 0x0010000000010000), (8, 1, 7)]) with
    coves := [(0, { state := 1, cfg := { ranges := [⟨0x10000, 0x10000, true⟩] } })] }

def sqC : Cmd := cmdOf 0x40 [] 576 false 0x20000
def sqD : Dev := sqReq 0x40
def sqR : List Byte × Bool × Dev := sqD.memRead pgFWR (domOf (sqD.cmdCove sqC)) sqC.buf 576
theorem sqR_eq : sqD.memRead pgFWR (domOf (sqD.cmdCove sqC)) sqC.buf 576 = (sqR.1, false, sqR.2.2) := read_parts (by decide +kernel)
def imgR (d : Dev) : Bool × Dev := d.imageRead (d.rd64 0x8100 % 2 ^ 48) (d.g 0x8108 0 26)
def sqT : List Byte × Bool × Dev := sqR.2.2.memRead pgFWR 0x40 (grantOf sqR.1).1 (grantOf sqR.1).2
def crashD : Dev := { ask up 0x21 [] 65536 false 0 with fw := { (ask up 0x21 [] 65536 false 0).fw with dumps := 1 } }
def crashR : List Byte × Bool × Dev := crashD.memRead pgFWR 0x40 (dumpAddr 0) 65536
/-- A pair, and a triple, is its parts. -/
theorem pair_parts {α β : Type} (x : α × β) : x = (x.1, x.2) := rfl
theorem triple_parts {α β γ : Type} (x : α × β × γ) : x = (x.1, x.2.1, x.2.2) := rfl

theorem test_meets_DmaCommandsComplete :
    (∃ (d : Dev) (n : Fin 64), (d.eng n).posted = true ∧ (d.eng n).active = false ∧ d.live = true ∧
      d.starts (pgEng n) = true ∧ d.ebbing = false) ∧
    (∃ (d : Dev) (n : Fin 64), (d.eng n).active = true ∧ (d.eng n).phase = 1 ∧ d.safe = false ∧ d.chains n = false ∧
      d.reportWaits n = false) ∧
    (∃ (d : Dev) (n : Fin 64), (d.eng n).active = true ∧ (d.eng n).phase = 1 ∧ d.safe = false ∧ d.chains n = true ∧
      d.mayContinue n = true ∧ d.reportWaits n = false) ∧
    (∃ (d : Dev) (n : Fin 64), (d.eng n).active = true ∧ (d.eng n).phase = 2 ∧ (d.eng n).rd = [] ∧ d.safe = false) ∧
    (∃ (d : Dev) (n : Fin 64) (l : List Byte), (d.eng n).active = true ∧ (d.eng n).phase = 3 ∧
      (d.eng n).nextImg = some l ∧ d.mayContinue n = true) ∧
    (∃ (d : Dev) (n : Fin 64) (a : Nat) (r : BusRd), (d.eng n).active = true ∧ d.safe = false ∧
      (d.eng n).rd.find? (fun x => x.elem == r.elem && decide (x.addr ≤ a) && decide (a < x.addr + x.size)) = some r) ∧
    (∃ (d : Dev) (n : Fin 64) (k off : Nat) (l : List Byte) (r : BusRd), (d.eng n).awaits k off = some r ∧
      d.safe = false ∧ k < 2 ^ 24 ∧ (r.dbus = true ∨ d.blocked (r.dst + (off - r.off)) l.length = false)) ∧
    (∃ (d : Dev) (n : Fin 64), d.writable (pgEng n + 0x1a0) = true ∧ (d.eng n).active = true ∧ (d.eng n).phase ≠ 4) :=
  ⟨⟨engd { posted := true }, 0, by decide +kernel⟩,
   ⟨engd { active := true, phase := 1, status := 1 }, 0, by decide +kernel⟩,
   ⟨(engd { active := true, phase := 1 }).wr 0x100170 64, 0, by decide +kernel⟩,
   ⟨engd { active := true, phase := 2 }, 0, by decide +kernel⟩,
   ⟨engd { active := true, phase := 3, nextImg := some [] }, 0, [], by decide +kernel⟩,
   ⟨engd { active := true, rd := [aRd] }, 0, 0, aRd, by decide +kernel⟩,
   ⟨engd { active := true, rd := [aRd] }, 0, 3, 0, [], aRd, by decide +kernel⟩,
   ⟨engd { active := true, phase := 1 }, 0, by decide +kernel⟩⟩

theorem test_meets_LoadingAndRingCommandsComplete_1 :
    (∃ d : Dev, d.writable (pgFWR + 0x10c) = true ∧ (d.loadState = 1 ∨ d.loadState = 5) ∧ d.g 0x8110 8 8 ≠ 7) ∧
    (∃ (d e : Dev) (ok bad : Bool), d.loadState = 2 ∧ d.safe = false ∧
      d.imageRead (d.rd64 0x8100 % 2 ^ 48) (d.g 0x8108 0 26) = (bad, e) ∧
      e.imageCheck (d.rd64 0x8100 % 2 ^ 48) (d.g 0x8108 0 26) bad ok = 0) ∧
    (∃ (d e : Dev) (ok bad : Bool) (n : Nat), d.loadState = 2 ∧ d.safe = false ∧
      d.imageRead (d.rd64 0x8100 % 2 ^ 48) (d.g 0x8108 0 26) = (bad, e) ∧
      e.imageCheck (d.rd64 0x8100 % 2 ^ 48) (d.g 0x8108 0 26) bad ok = n ∧ n ∉ [0, 2]) ∧
    (∃ d : Dev, d.loadState = 3 ∧ d.safe = false) ∧
    (∃ d : Dev, d.writable (pgFWR + 0x10c) = true ∧ d.fwRunning = true ∧ d.b 0x8110 4 = false) ∧
    (∃ (d : Dev) (q : Fin 256) (v : Word), d.doorbell q = true ∧ v.toNat % 65536 < 2 ^ (d.ring q).sqLog) ∧
    (∃ (d : Dev) (q : Fin 256) (v : Word), d.doorbell q = true ∧ 2 ^ (d.ring q).sqLog ≤ v.toNat % 65536) ∧
    (∃ (d : Dev) (q : Fin 256) (v : Word), d.doorbell q = true ∧ q.val ≠ 0 ∧ v.toNat % 65536 < 2 ^ (d.ring q).cqLog ∧
      (v.toNat % 65536 + 2 ^ (d.ring q).cqLog - (d.ring q).cqHead) % 2 ^ (d.ring q).cqLog ≤ ((d.ring q).cqTail + 2 ^ (d.ring q).cqLog - (d.ring q).cqHead) % 2 ^ (d.ring q).cqLog) :=
  ⟨⟨dv [(0x8110, 1)], by decide +kernel⟩,
   ⟨staged, (imgR staged).2, true, (imgR staged).1, by decide +kernel, by decide +kernel, pair_parts _, by decide +kernel⟩,
   ⟨dv [(0x8110, 2)], (imgR (dv [(0x8110, 2)])).2, true, (imgR (dv [(0x8110, 2)])).1, 4, by decide +kernel,
      by decide +kernel, pair_parts _, by decide +kernel⟩,
   ⟨dv [(0x8110, 3)], by decide +kernel⟩,
   ⟨up, by decide +kernel⟩,
   ⟨ringed up, 0, 15, by decide +kernel⟩,
   ⟨ringed up, 0, 16, by decide +kernel⟩,
   ⟨(ringed up).setRing 2 { enabled := true, driver := true, cqLog := 4, cqTail := 3 }, 2, 3, by decide +kernel⟩⟩
theorem test_meets_LoadingAndRingCommandsComplete_2 :
    (∃ (d : Dev) (q : Fin 256), d.fetches q = true ∧ (d.ring q).sqHead ≠ (d.ring q).sqTail ∧ 0 < (d.ring q).free) ∧
    (∃ (d : Dev) (cid : Nat) (c : Cmd), d.cmd? 0 cid 0x0001 = some c ∧ leAt c.param 0 1 = d.fw.image.ifMaj ∧
      leAt c.param 2 14 = 0 ∧ d.mayNegotiate (leAt c.param 16 16) = true ∧ 32 ≤ c.buflen ∧ d.bufOk c true 32 = true) ∧
    (∃ (d : Dev) (cid : Nat) (c : Cmd), d.cmd? 0 cid 0x0002 = some c ∧ d.expired = true ∧ d.fw.renewed = true) ∧
    (∃ (d : Dev) (cid p sb sl cb cl v : Nat) (o : Option Nat) (c : Cmd), d.cmd? 0 cid 0x0003 = some c ∧
      d.ringsOk p sb sl cb cl v o = true) ∧
    (∃ (d : Dev) (cid p : Nat) (c : Cmd), d.cmd? 0 cid 0x0004 = some c ∧ 1 ≤ p ∧ p ≤ 255 ∧ (d.ring p).enabled = true) ∧
    (∃ (d : Dev) (cid dom dev hd xl xs n xc : Nat) (ms : List Nat) (c : Cmd), d.cmd? 0 cid 0x0010 = some c ∧
      d.slackNow = true ∧ membersOk dom dev hd ms = true ∧ exchangeOk xl xs n xc ms.length = true) ∧
    (∃ (d : Dev) (cid : Nat) (w k s b x : Nat × Nat) (c : Cmd), d.cmd? 0 cid 0x0011 = some c ∧ d.slackNow = true ∧
      d.ckp.run = none ∧ layoutValid ⟨w.1, w.2, k.1, k.2, s.1, s.2, b.1, b.2, x.1, x.2⟩ = true) :=
  ⟨⟨(up.setCore 32 { up.core 32 with running := true }).setRing 0 { enabled := true, driver := true, sqLog := 4, cqLog := 4, sqTail := 1 }, 0, by decide +kernel⟩,
   ⟨ask up 1 [] 32 false 0, 7, cmdOf 1 [] 32 false 0, by decide +kernel⟩,
   ⟨{ (ask up 2 [] 0 false 0).s 0x8170 8 2 2 with fw := { ((ask up 2 [] 0 false 0).s 0x8170 8 2 2).fw with renewed := true } }, 7, cmdOf 2 [] 0 false 0, by decide +kernel⟩,
   ⟨ask up 3 [] 0 false 0, 7, 1, stage, 4, stage + 4096, 4, 0, none, cmdOf 3 [] 0 false 0, by decide +kernel⟩,
   ⟨(ask up 4 [] 0 false 0).setRing 1 { enabled := true }, 7, 1, cmdOf 4 [] 0 false 0, by decide +kernel⟩,
   ⟨slk (ask up 0x10 [] 0 false 0) { startup := true }, 7, 0, 1, 1, 1024, 0, 6, 1, [], cmdOf 0x10 [] 0 false 0,
      by decide +kernel⟩,
   ⟨slk (ask up 0x11 [] 0 false 0) { startup := true }, 7, (0, 640 * 2 ^ 30), (640 * 2 ^ 30, 384 * 2 ^ 30), (1024 * 2 ^ 30, 96 * 2 ^ 30), (1120 * 2 ^ 30, 320 * 2 ^ 30), (1440 * 2 ^ 30, 72 * 2 ^ 30), cmdOf 0x11 [] 0 false 0, by decide +kernel⟩⟩

theorem test_meets_FirmwareServicesComplete_1 :
    (∃ (d : Dev) (cid : Nat) (c : Cmd), d.cmd? 0 cid 0x0020 = some c ∧ d.fw.update = none ∧ d.secDown = false ∧
      (c.arm = true ∨ d.slackNow = true)) ∧
    (∃ (d : Dev) (u : Update) (c : Cmd), d.fw.update = some u ∧ u.stage = 0 ∧ d.safe = false ∧
      d.fw.fetched.find? (fun c => c.pair == 0 && c.cid == u.cid && c.opc == 0x0020) = some c) ∧
    (∃ (d : Dev) (u : Update), d.fw.update = some u ∧ u.stage = 2 ∧ d.safe = false) ∧
    (∃ (d e : Dev) (cid : Nat) (c : Cmd) (l : List Byte) (bad : Bool), d.cmd? 0 cid 0x0021 = some c ∧ 65536 ≤ c.buflen ∧
      leAt c.param 0 1 < min 8 d.fw.dumps ∧ d.bufOk c true 65536 = true ∧
      d.memRead pgFWR 0x40 (dumpAddr (leAt c.param 0 1)) 65536 = (l, bad, e)) ∧
    (∃ (d : Dev) (cid base log : Nat) (c : Cmd), d.cmd? 0 cid 0x0022 = some c ∧ 6 ≤ log ∧ log ≤ 16 ∧ base % 64 = 0 ∧
      d.inStaging base (64 * 2 ^ log) = true) ∧
    (∃ (d : Dev) (cid : Nat) (c : Cmd), d.cmd? 0 cid 0x0030 = some c ∧ 600 ≤ leAt c.param 0 2 ∧ leAt c.param 0 2 ≤ 1650) ∧
    (∃ (d : Dev) (q : Fin 256) (cid : Nat) (c : Cmd), d.cmd? q cid 0x0031 = some c) ∧
    (∃ (d e f : Dev) (q : Fin 256) (cid : Nat) (sq : Fin 32) (c : Cmd) (l t : List Byte) (bad tbad : Bool), d.cmd? q cid 0x0040 = some c ∧ d.memRead pgFWR (domOf (d.cmdCove c)) c.buf 576 = (l, bad, e) ∧ 576 ≤ c.buflen ∧ d.bufOk c false 576 = true ∧ c.buf % 64 = 0 ∧ (grantOf l).2 ≤ 65536 ∧ e.memRead pgFWR 0x40 (grantOf l).1 (grantOf l).2 = (t, tbad, f) ∧ d.mayLaunch c sq l t bad = true ∧ launchBad l bad = none) :=
  ⟨⟨ask up 0x20 [] 0 true 0, 7, cmdOf 0x20 [] 0 true 0, by decide +kernel⟩,
   ⟨updating 0, anUpd 0, cmdOf 0x20 [] 0 true 0, by decide +kernel⟩,
   ⟨updating 2, anUpd 2, by decide +kernel⟩,
   ⟨crashD, crashR.2.2, 7, cmdOf 0x21 [] 65536 false 0, crashR.1, crashR.2.1, by decide +kernel, by decide +kernel,
      by decide +kernel, by decide +kernel, triple_parts _⟩,
   ⟨ask up 0x22 [] 0 false 0, 7, stage, 6, cmdOf 0x22 [] 0 false 0, by decide +kernel⟩,
   ⟨ask up 0x30 [0xe8, 3] 0 false 0, 7, cmdOf 0x30 [0xe8, 3] 0 false 0, by decide +kernel⟩,
   ⟨ask up 0x31 [] 0 false 0, 0, 7, cmdOf 0x31 [] 0 false 0, by decide +kernel⟩,
   ⟨sqD, sqR.2.2, sqT.2.2, 0, 7, 3, sqC, sqR.1, sqT.1, false, sqT.2.1, by decide +kernel, sqR_eq, by decide +kernel,
      by decide +kernel, by decide +kernel, by decide +kernel, triple_parts _, by decide +kernel⟩⟩
theorem test_meets_FirmwareServicesComplete_2 :
    (∃ (d : Dev) (q : Fin 256) (cid : Nat) (c : Cmd), d.cmd? q cid 0x0041 = some c ∧ d.cmdCove c = none ∧
      576 ≤ c.buflen ∧ d.bufOk c true 576 = true ∧ c.buf % 64 = 0) ∧
    (∃ d : Dev, d.writable (pgFWR + 0x170) = true ∧ d.expired = true) ∧
    (∃ d : Dev, d.g 0x8170 8 2 = 1 ∧ d.fwRunning = true ∧ d.safe = false) ∧
    (∃ (d : Dev) (k : Fin 5) (old : Nat), d.fwRunning = true ∧ d.safe = false ∧
      (k.val = 4 ∨ d.restarts k false = false) ∧ d.fw.crashes.getD k 0 - old + 1 < 3) ∧
    (∃ (d : Dev), d.loops = true) ∧
    (∃ (d : Dev), d.loops = true) ∧
    (∃ (d : Dev) (w : Nat), d.fwRunning = true ∧ d.safe = false ∧ (d.core 33).running = false ∧
      11 * d.g 0x1104 0 11 < 10 * w) :=
  ⟨⟨sqReq 0x41, 0, 7, cmdOf 0x41 [] 576 false 0x20000, by decide +kernel⟩,
   ⟨up.s 0x8170 8 2 2, by decide +kernel⟩,
   ⟨up.s 0x8170 8 2 1, by decide +kernel⟩,
   ⟨up, 2, 0, by decide +kernel⟩,
   ⟨looped, by decide +kernel⟩,
   ⟨looped, by decide +kernel⟩,
   ⟨up.s 0x1104 0 11 1000, 1101, by decide +kernel⟩⟩

def grantD : Dev := (cpuOf 3 fun k => { k with grant := 0x30000, ngrant := 6 }).poke 0x30050 (image 16 [(0, 8, 9), (8, 1, 1), (9, 1, 1)])
def grantR : List Byte × Bool × Dev :=
  (grantD.issuing 3 0).memRead (corePage 3) (domOf ((grantD.core 3).dom 3)) ((grantD.core 3).grant + 16 * ((grantD.core 3).reg 1).v.toNat) 16
theorem grantR_eq : (grantD.issuing 3 0).memRead (corePage 3) (domOf ((grantD.core 3).dom 3))
    ((grantD.core 3).grant + 16 * ((grantD.core 3).reg 1).v.toNat) 16 = (grantR.1, false, grantR.2.2) := read_parts (by decide +kernel)
def launchD : Dev := (cpu 32).poke 0x10000 (image 576 [(0, 8, 0x0010000000010000), (8, 1, 7)])
def launchR : List Byte × Bool × Dev :=
  (let x := launchD.issuing 32 0
   x.setCore 5 { launchD.core 5 with running := false }).memRead (corePage 32) 0x40 0x10000 576
theorem launchR_eq : (let x := launchD.issuing 32 0
   x.setCore 5 { launchD.core 5 with running := false }).memRead (corePage 32) 0x40 0x10000 576 = (launchR.1, false, launchR.2.2) :=
  read_parts (by decide +kernel)
/-- A zero of tag INT sealed at 0x10000: its seal field is an opaque function of the place and the value. -/
def sealS : Nat := sealField 0 0x10000 0 0
def sealD : Dev :=
  { cpu 3 with mem := [(0x1000c, BitVec.ofNat 8 sealS), (0x1000d, BitVec.ofNat 8 (sealS / 256)), (0x1000e, BitVec.ofNat 8 (sealS / 65536)), (0x1000f, BitVec.ofNat 8 (sealS / 16777216))] }
def sealR : List Byte × Bool × Dev := (sealD.issuing (3 : Fin 37) 0).coreMem 3 0x10000 16
theorem sealed_at : leAt sealR.1 12 4 = sealS := by
  have h : leAt sealR.1 12 4 = leNat [BitVec.ofNat 8 sealS, BitVec.ofNat 8 (sealS / 256), BitVec.ofNat 8 (sealS / 65536), BitVec.ofNat 8 (sealS / 16777216)] := by
    unfold leAt
    congr 1
  have b : sealS < 2 ^ 32 := Nat.mod_lt _ (by decide)
  rw [h]
  simp only [leNat, BitVec.toNat_ofNat]
  omega
theorem sealed_eq : sealField (sealR.2.2.keyOf 3) 0x10000 (BitVec.ofNat 64 (leAt sealR.1 0 8)) (leAt sealR.1 8 1) = leAt sealR.1 12 4 := by
  rw [sealed_at, show sealR.2.2.keyOf 3 = 0 from by decide +kernel, show leAt sealR.1 0 8 = 0 from by decide +kernel,
    show leAt sealR.1 8 1 = 0 from by decide +kernel]
  rfl

theorem test_meets_ArithmeticInstructionsComplete_1 :
    (∃ (d : Dev) (i : Fin 37) (c : BitVec 4) (ra rb : BitVec 5) (fn : BitVec 7) (x : DWord) (fl : NZCV), let k := d.core i; d.runs i c ∧ aluOp (fn.toNat % 64) (k.reg ra).v (k.reg rb).v = some (x, fl) ∧ fn.toNat % 64 ≠ 0x13 ∧ (fn.toNat % 64 ∈ [0x14, 0x15] → rb = 0) ∧ (k.reg ra).tag = tINT ∧ (k.reg rb).tag = tINT) ∧
    (∃ (d : Dev) (i : Fin 37) (c : BitVec 4) (ra : BitVec 5), d.runs i c ∧ ((d.core i).reg ra).tag = tINT) ∧
    (∃ (d : Dev) (i : Fin 37) (c : BitVec 4) (ra rb : BitVec 5), let k := d.core i; d.runs i c ∧ (k.reg ra).tag = tFP ∧
      (k.reg rb).tag = tFP) ∧
    (∃ (d : Dev) (i : Fin 37) (c : BitVec 4) (ra : BitVec 5) (imm : BitVec 12), let k := d.core i; d.runs i c ∧
      (k.reg ra).tag = tINT ∧ imm.toNat < 256) ∧
    (∃ (d : Dev) (i : Fin 37) (c : BitVec 4) (ra : BitVec 5) (imm : BitVec 12) (v : DWord), let k := d.core i; d.runs i c ∧ isAddrTag (k.reg ra).tag = true ∧ withAdr (k.reg ra).tag (k.reg ra).v (adrPlus (k.reg ra).tag (k.reg ra).v (imm.signExtend 64)) = some v) ∧
    (∃ (d : Dev) (i : Fin 37) (c : BitVec 4) (rd : BitVec 5) (imm : BitVec 17), let k := d.core i; d.runs i c ∧
      imm.toNat < 2 ^ 16 ∧ (k.reg rd).tag = tINT) ∧
    (∃ (d : Dev) (i : Fin 37) (c : BitVec 4) (rb : BitVec 5), d.runs i c ∧ rb.toNat < 16) :=
  ⟨⟨cpu 3, 3, 0, 1, 9, 0x40, 13, { n := false, z := false, c := false, v := false }, ⟨by decide +kernel,
      by decide +kernel⟩, by decide +kernel⟩,
   ⟨cpu 3, 3, 0, 1, ⟨by decide +kernel, by decide +kernel⟩, by decide +kernel⟩,
   ⟨cpu 3, 3, 0, 2, 10, ⟨by decide +kernel, by decide +kernel⟩, by decide +kernel⟩,
   ⟨cpu 3, 3, 0, 1, 255, ⟨by decide +kernel, by decide +kernel⟩, by decide +kernel⟩,
   ⟨cpu 3, 3, 0, 3, 0x7ff, 0x00500000000107ff, ⟨by decide +kernel, by decide +kernel⟩, by decide +kernel⟩,
   ⟨cpu 3, 3, 0, 1, 0xffff, ⟨by decide +kernel, by decide +kernel⟩, by decide +kernel⟩,
   ⟨cpu 3, 3, 0, 15, ⟨by decide +kernel, by decide +kernel⟩, by decide +kernel⟩⟩
theorem test_meets_ArithmeticInstructionsComplete_2 :
    (∃ (d : Dev) (i : Fin 37) (c : BitVec 4) (ra : BitVec 5), let k := d.core i; d.runs i c ∧
      (k.reg ra).tag ∈ [tTIDE, tHNDL, tFP]) ∧
    (∃ (d : Dev) (i : Fin 37) (c : BitVec 4) (ra : BitVec 5), let k := d.core i; d.runs i c ∧ (k.reg ra).tag = tINT ∧
      layoutOk tHNDL (k.reg ra).v = true) ∧
    (∃ (d : Dev) (i : Fin 37) (c : BitVec 4) (ra rb : BitVec 5), let k := d.core i; d.runs i c ∧
      isAddrTag (k.reg ra).tag = true ∧ (k.reg rb).tag = tINT ∧ 6 ≤ (k.reg rb).v.toNat ∧
      (k.reg rb).v.toNat ≤ boundS (k.reg ra).tag (k.reg ra).v) ∧
    (∃ (d : Dev) (i : Fin 37) (c : BitVec 4) (ra : BitVec 5), let k := d.core i; d.runs i c ∧
      (k.reg ra).tag ∈ [tDADDR, tIO]) ∧
    (∃ (d : Dev) (i : Fin 37) (c : BitVec 4) (ra rb : BitVec 5), let k := d.core i; d.runs i c ∧ 32 ≤ i.val ∧
      tagOk rb.toNat = true ∧ layoutOk rb.toNat (k.reg ra).v = true) ∧
    (∃ (d : Dev) (i : Fin 37) (c : BitVec 4), d.runs i c ∧ d.tide.hold = false) :=
  ⟨⟨cpu 3, 3, 0, 2, ⟨by decide +kernel, by decide +kernel⟩, by decide +kernel⟩,
   ⟨cpuOf 3 (fun k => k.setReg 1 1 0), 3, 0, 1, ⟨by decide +kernel, by decide +kernel⟩, by decide +kernel⟩,
   ⟨cpu 3, 3, 0, 3, 9, ⟨by decide +kernel, by decide +kernel⟩, by decide +kernel⟩,
   ⟨cpu 3, 3, 0, 3, ⟨by decide +kernel, by decide +kernel⟩, by decide +kernel⟩,
   ⟨cpu 32, 32, 0, 1, 0, ⟨by decide +kernel, by decide +kernel⟩, by decide +kernel⟩,
   ⟨cpu 3, 3, 0, ⟨by decide +kernel, by decide +kernel⟩, by decide +kernel⟩⟩

theorem test_meets_MemoryInstructionsComplete_1 :
    (∃ (d e : Dev) (i : Fin 37) (c : BitVec 4) (ra : BitVec 5) (imm : BitVec 12) (io : Mio) (n p : Nat) (l : List Byte) (bad : Bool), let k := d.core i; let x := d.issuing i c; d.runs i c ∧ x.canLoad i (k.reg ra) (imm.signExtend 64) n io p ∧ x.coreMem i p n = (l, bad, e) ∧ n = 1) ∧
    (∃ (d e : Dev) (i : Fin 37) (c : BitVec 4) (ra : BitVec 5) (imm : BitVec 12) (io : Mio) (n p : Nat) (l : List Byte) (bad : Bool), let k := d.core i; let x := d.issuing i c; d.runs i c ∧ x.canLoad i (k.reg ra) (imm.signExtend 64) n io p ∧ x.coreMem i p n = (l, bad, e) ∧ n = 2) ∧
    (∃ (d e : Dev) (i : Fin 37) (c : BitVec 4) (ra : BitVec 5) (imm : BitVec 12) (io : Mio) (n p : Nat) (l : List Byte) (bad : Bool), let k := d.core i; let x := d.issuing i c; d.runs i c ∧ x.canLoad i (k.reg ra) (imm.signExtend 64) n io p ∧ x.coreMem i p n = (l, bad, e) ∧ n = 4) ∧
    (∃ (d e : Dev) (i : Fin 37) (c : BitVec 4) (ra : BitVec 5) (imm : BitVec 12) (io : Mio) (n p : Nat) (l : List Byte) (bad : Bool), let k := d.core i; let x := d.issuing i c; d.runs i c ∧ x.canLoad i (k.reg ra) (imm.signExtend 64) n io p ∧ x.coreMem i p n = (l, bad, e) ∧ n = 8) ∧
    (∃ (d : Dev) (i : Fin 37) (c : BitVec 4) (ra : BitVec 5) (imm : BitVec 12) (n p : Nat), let k := d.core i; let x := d.issuing i c; d.runs i c ∧ x.canStore i (k.reg ra) (imm.signExtend 64) n n p ∧ n = 1) ∧
    (∃ (d : Dev) (i : Fin 37) (c : BitVec 4) (ra : BitVec 5) (imm : BitVec 12) (n p : Nat), let k := d.core i; let x := d.issuing i c; d.runs i c ∧ x.canStore i (k.reg ra) (imm.signExtend 64) n n p ∧ n = 2) ∧
    (∃ (d : Dev) (i : Fin 37) (c : BitVec 4) (ra : BitVec 5) (imm : BitVec 12) (n p : Nat), let k := d.core i; let x := d.issuing i c; d.runs i c ∧ x.canStore i (k.reg ra) (imm.signExtend 64) n n p ∧ n = 4) ∧
    (∃ (d : Dev) (i : Fin 37) (c : BitVec 4) (ra : BitVec 5) (imm : BitVec 12) (n p : Nat), let k := d.core i; let x := d.issuing i c; d.runs i c ∧ x.canStore i (k.reg ra) (imm.signExtend 64) n n p ∧ n = 8) ∧
    (∃ (d : Dev) (i : Fin 37) (c : BitVec 4) (op : Fin 10) (ra : BitVec 5) (imm : BitVec 12) (p : Nat), let k := d.core i; d.runs i c ∧ op ≠ 9 ∧ (op = 7 → imm.toNat % 16 = 0) ∧ (op = 8 → 32 ≤ i.val) ∧ chkAccess i (k.reg ra) (imm.signExtend 64) (loadSize op) (loadSize op) false false = .ok p ∧ (k.reg ra).tag ≠ tIO ∧ (areaOf p ≠ .pages ∧ areaOf p ≠ .check)) :=
  ⟨⟨cpu 3, (cpuRead 3 1).2.2, 3, 0, 3, 0, {}, 1, 0x10000, (cpuRead 3 1).1, false, ⟨by decide +kernel,
      by decide +kernel⟩, ⟨by decide +kernel, by decide +kernel⟩, core_parts (by decide +kernel), by decide +kernel⟩,
   ⟨cpu 3, (cpuRead 3 2).2.2, 3, 0, 3, 0, {}, 2, 0x10000, (cpuRead 3 2).1, false, ⟨by decide +kernel,
      by decide +kernel⟩, ⟨by decide +kernel, by decide +kernel⟩, core_parts (by decide +kernel), by decide +kernel⟩,
   ⟨cpu 3, (cpuRead 3 4).2.2, 3, 0, 3, 0, {}, 4, 0x10000, (cpuRead 3 4).1, false, ⟨by decide +kernel,
      by decide +kernel⟩, ⟨by decide +kernel, by decide +kernel⟩, core_parts (by decide +kernel), by decide +kernel⟩,
   ⟨cpu 3, (cpuRead 3 8).2.2, 3, 0, 3, 0, {}, 8, 0x10000, (cpuRead 3 8).1, false, ⟨by decide +kernel,
      by decide +kernel⟩, ⟨by decide +kernel, by decide +kernel⟩, core_parts (by decide +kernel), by decide +kernel⟩,
   ⟨cpu 3, 3, 0, 3, 1, 1, 0x10001, ⟨by decide +kernel, by decide +kernel⟩, ⟨by decide +kernel, by decide +kernel⟩,
      by decide +kernel⟩,
   ⟨cpu 3, 3, 0, 3, 2, 2, 0x10002, ⟨by decide +kernel, by decide +kernel⟩, ⟨by decide +kernel, by decide +kernel⟩,
      by decide +kernel⟩,
   ⟨cpu 3, 3, 0, 3, 4, 4, 0x10004, ⟨by decide +kernel, by decide +kernel⟩, ⟨by decide +kernel, by decide +kernel⟩,
      by decide +kernel⟩,
   ⟨cpu 3, 3, 0, 3, 8, 8, 0x10008, ⟨by decide +kernel, by decide +kernel⟩, ⟨by decide +kernel, by decide +kernel⟩,
      by decide +kernel⟩,
   ⟨cpu 3, 3, 0, 3, 3, 8, 0x10008, ⟨by decide +kernel, by decide +kernel⟩, by decide +kernel⟩⟩
theorem test_meets_MemoryInstructionsComplete_2 :
    (∃ (d : Dev) (i : Fin 37) (c : BitVec 4) (op : Fin 10) (ra : BitVec 5) (imm : BitVec 12) (p : Nat), let k := d.core i; d.runs i c ∧ op ≠ 9 ∧ (op = 7 → imm.toNat % 16 = 0) ∧ (op = 8 → 32 ≤ i.val) ∧ chkAccess i (k.reg ra) (imm.signExtend 64) (loadSize op) (loadSize op) false false = .ok p ∧ (k.reg ra).tag = tIO) ∧
    (∃ (d e : Dev) (i : Fin 37) (c : BitVec 4) (ra : BitVec 5) (imm : BitVec 12) (io : Mio) (p : Nat) (l : List Byte), let k := d.core i; let x := d.issuing i c; let v := BitVec.ofNat 64 (leAt l 0 8); let t := leAt l 8 1; d.runs i c ∧ x.canLoad i (k.reg ra) (imm.signExtend 64) 16 io p ∧ x.coreMem i p 16 = (l, false, e) ∧ imm.toNat % 16 = 0 ∧ tagOk t = true ∧ sealField (e.keyOf i) p v t = leAt l 12 4) ∧
    (∃ (d e : Dev) (i : Fin 37) (c : BitVec 4) (ra : BitVec 5) (imm : BitVec 12) (io : Mio) (p : Nat) (l : List Byte), let k := d.core i; let x := d.issuing i c; let v := BitVec.ofNat 64 (leAt l 0 8); let t := leAt l 8 1; d.runs i c ∧ x.canLoad i (k.reg ra) (imm.signExtend 64) 16 io p ∧ x.coreMem i p 16 = (l, false, e) ∧ 32 ≤ i.val ∧ tagOk t = true ∧ layoutOk t v = true) ∧
    (∃ (d : Dev) (i : Fin 37) (c : BitVec 4) (ra : BitVec 5) (imm : BitVec 12) (p : Nat), let k := d.core i; let x := d.issuing i c; d.runs i c ∧ x.canStore i (k.reg ra) (imm.signExtend 64) 16 16 p ∧ imm.toNat % 16 = 0) ∧
    (∃ (d : Dev) (i : Fin 37) (c : BitVec 4) (ra : BitVec 5) (imm : BitVec 12) (p : Nat), let k := d.core i; let x := d.issuing i c; d.runs i c ∧ x.canStore i (k.reg ra) (imm.signExtend 64) 16 16 p ∧ 32 ≤ i.val) ∧
    (∃ (d e : Dev) (i : Fin 37) (c : BitVec 4) (rd ra rb : BitVec 5) (fn : BitVec 7) (io : Mio) (p : Nat) (l : List Byte) (bad : Bool) (new : DWord), let k := d.core i; let x := d.issuing i c; let old := BitVec.ofNat 64 (leNat l); d.runs i c ∧ fn.toNat ≤ 9 ∧ chkAccess i (k.reg ra) 0 8 8 true true = .ok p ∧ x.canLoad i (k.reg ra) 0 8 io p ∧ x.coreMem i p 8 = (l, bad, e) ∧ amoOp fn.toNat old (BitVec.ofNat 64 (storeVal (k.reg rb))) (k.reg rd).v = some new) ∧
    (∃ (d : Dev) (i : Fin 37) (c : BitVec 4), d.runs i c) ∧
    (∃ (d e : Dev) (i : Fin 37) (c : BitVec 4) (ra rb : BitVec 5) (fn : BitVec 7) (io : Mio) (p : Nat) (l : List Byte) (bad : Bool), let k := d.core i; let x := d.issuing i c; let v := BitVec.ofNat 64 (leNat l); d.runs i c ∧ fn.toNat ≤ 20 ∧ x.canLoad i (k.reg ra) 0 8 io p ∧ x.coreMem i p 8 = (l, bad, e) ∧ (k.reg rb).tag = tINT ∧ v ≠ (k.reg rb).v) ∧
    (∃ (d e : Dev) (i : Fin 37) (c : BitVec 4) (ra : BitVec 5) (l : List Byte), let k := d.core i; let x := d.issuing i c; d.runs i c ∧ (k.reg ra).tag = tINT ∧ (k.reg ra).v.toNat < k.ngrant ∧ x.blocked (k.grant + 16 * (k.reg ra).v.toNat) 16 = false ∧ x.memRead (corePage i) (domOf (k.dom i)) (k.grant + 16 * (k.reg ra).v.toNat) 16 = (l, false, e) ∧ bitN (leAt l 9 1) 0 = true ∧ tagOk (leAt l 8 1) = true) :=
  ⟨⟨cpu 3, 3, 0, 3, 8, 8, 0x10008, ⟨by decide +kernel, by decide +kernel⟩, by decide +kernel⟩,
   ⟨sealD, sealR.2.2, 3, 0, 3, 0, {}, 0x10000, sealR.1, ⟨by decide +kernel, by decide +kernel⟩, ⟨by decide +kernel,
      by decide +kernel⟩, core_parts (by decide +kernel), by decide +kernel, by decide +kernel, sealed_eq⟩,
   ⟨cpu 32, (cpuRead 32 16).2.2, 32, 0, 3, 0, {}, 0x10000, (cpuRead 32 16).1, ⟨by decide +kernel,
      by decide +kernel⟩, ⟨by decide +kernel, by decide +kernel⟩, core_parts (by decide +kernel), by decide +kernel⟩,
   ⟨cpu 3, 3, 0, 3, 16, 0x10010, ⟨by decide +kernel, by decide +kernel⟩, ⟨by decide +kernel, by decide +kernel⟩,
      by decide +kernel⟩,
   ⟨cpu 32, 32, 0, 3, 0, 0x10000, ⟨by decide +kernel, by decide +kernel⟩, ⟨by decide +kernel, by decide +kernel⟩,
      by decide +kernel⟩,
   ⟨cpu 3, (cpuRead 3 8).2.2, 3, 0, 12, 3, 1, 9, {}, 0x10000, (cpuRead 3 8).1, false, 5, ⟨by decide +kernel,
      by decide +kernel⟩, by decide +kernel, by decide +kernel, ⟨by decide +kernel,
      by decide +kernel⟩, core_parts (by decide +kernel), by decide +kernel⟩,
   ⟨cpu 3, 3, 0, ⟨by decide +kernel, by decide +kernel⟩⟩,
   ⟨cpu 3, (cpuRead 3 8).2.2, 3, 0, 3, 1, 20, {}, 0x10000, (cpuRead 3 8).1, false, ⟨by decide +kernel,
      by decide +kernel⟩, by decide +kernel, ⟨by decide +kernel, by decide +kernel⟩, core_parts (by decide +kernel),
      by decide +kernel⟩,
   ⟨grantD, grantR.2.2, 3, 0, 1, grantR.1, ⟨by decide +kernel, by decide +kernel⟩, by decide +kernel,
      by decide +kernel, by decide +kernel, grantR_eq, by decide +kernel⟩⟩

theorem test_meets_ControlInstructionsComplete :
    (∃ (d : Dev) (i : Fin 37) (c : BitVec 4) (imm : BitVec 22) (pc : DWord), let k := d.core i; d.runs i c ∧
      pcPlus k.pc (imm.signExtend 64 <<< 2) = some pc) ∧
    (∃ (d : Dev) (i : Fin 37) (c : BitVec 4) (ra : BitVec 5), let k := d.core i; d.runs i c ∧ (k.reg ra).tag = tCODE ∧
      (k.reg ra).v.toNat % 4 = 0) ∧
    (∃ (d : Dev) (i : Fin 37) (c : BitVec 4) (ra : BitVec 5), let k := d.core i; d.runs i c ∧ (k.reg ra).tag = tTIDE ∧
      (k.reg ra).v ≤ d.seen) ∧
    (∃ (d : Dev) (i : Fin 37) (c : BitVec 4) (ra : BitVec 5), let k := d.core i; d.runs i c ∧ (k.reg ra).tag = tTIDE ∧
      (k.reg ra).v = d.tide.cur ∧ i.val < 32 ∧ k.part = true ∧ i.val ∉ d.tide.done) ∧
    (∃ (d : Dev) (i : Fin 37) (c : BitVec 4) (ra : BitVec 5), let k := d.core i; d.runs i c ∧ (k.reg ra).tag = tTIDE ∧
      d.isHead = true ∧ d.tide.cur < (k.reg ra).v ∧ d.tide.cur.toNat / 2 ^ 24 < 0xffffffffff ∧ d.tide.pending = false) ∧
    (∃ (d : Dev) (i : Fin 37) (c : BitVec 4), d.runs i c ∧ 32 ≤ i.val) ∧
    (∃ (d : Dev) (i : Fin 37) (c : BitVec 4) (imm : BitVec 12), let k := d.core i; d.runs i c ∧
      let t := (d.issuing i c).trapped i k.pc (encI c.toNat 0x20 0 0 imm.toNat) 0x0c (imm.zeroExtend 64); i.val < 32 ∧
      t.fwRunning = true ∧ t.safe = false ∧ (t.core i).sysWait = true ∧ (t.core i).cause = 0x0c ∧
      (t.core i).running = false ∧ (t.core i).fault.toNat ∉ [0x001, 0x010]) ∧
    (∃ (d : Dev) (i : Fin 37) (c : BitVec 4), d.runs i c) ∧
    (∃ (d : Dev) (i : Fin 37) (c : BitVec 4) (n : BitVec 12), d.runs i c ∧ 32 ≤ i.val ∧ n.toNat ≤ 5 ∧ n.toNat ≠ 1 ∧
      n.toNat ≠ 5) ∧
    (∃ (d : Dev) (i : Fin 37) (c : BitVec 4) (r : BitVec 5) (n : BitVec 12), let k := d.core i; d.runs i c ∧ 32 ≤ i.val ∧
      n.toNat ≤ 5 ∧ (k.reg r).tag = (if n.toNat = 1 ∨ n.toNat = 5 then tCODE else tINT)) ∧
    (∃ (d : Dev) (i : Fin 37) (w : BitVec 32), let c := BitVec.ofNat 4 (fieldN w.toNat 28 4); d.runs i c ∧
      reservedWord w.toNat = true ∧ privOp w.toNat = false) ∧
    (∃ (d : Dev) (i : Fin 37), let a := adrOf 7 (d.core i).pc; d.runs i 0 ∧
      (coreMay i false false a 4 = false ∨ areaOf a = .pages ∨ areaOf a = .check)) :=
  ⟨⟨cpu 3, 3, 0, 4, 0x0010000000020010, ⟨by decide +kernel, by decide +kernel⟩, by decide +kernel⟩,
   ⟨cpu 3, 3, 0, 4, ⟨by decide +kernel, by decide +kernel⟩, by decide +kernel⟩,
   ⟨cpu 3, 3, 0, 5, ⟨by decide +kernel, by decide +kernel⟩, by decide +kernel⟩,
   ⟨cpuOf 3 (fun k => { k with part := true }), 3, 0, 5, ⟨by decide +kernel, by decide +kernel⟩, by decide +kernel⟩,
   ⟨{ td hl (fun t => t) with cores := (cpuOf 3 (fun k => k.setReg 5 0x1000000 5)).cores }, 3, 0, 5, ⟨by decide +kernel, by decide +kernel⟩, by decide +kernel⟩,
   ⟨cpu 32, 32, 0, ⟨by decide +kernel, by decide +kernel⟩, by decide +kernel⟩,
   ⟨cpu 3, 3, 0, 0x011, ⟨by decide +kernel, by decide +kernel⟩, by decide +kernel⟩,
   ⟨cpu 3, 3, 0, ⟨by decide +kernel, by decide +kernel⟩⟩,
   ⟨cpu 32, 32, 0, 4, ⟨by decide +kernel, by decide +kernel⟩, by decide +kernel⟩,
   ⟨cpu 32, 32, 0, 4, 5, ⟨by decide +kernel, by decide +kernel⟩, by decide +kernel⟩,
   ⟨cpu 3, 3, 0x0f000000, ⟨by decide +kernel, by decide +kernel⟩, by decide +kernel⟩,
   ⟨cpuOf 32 (fun k => { k with pc := 0x0010800000000000 }), 32, ⟨by decide +kernel, by decide +kernel⟩, by decide +kernel⟩⟩

theorem test_meets_IssueInstructionsComplete :
    (∃ (d : Dev) (i : Fin 37) (c : BitVec 4) (ra : BitVec 5) (p : Nat), let k := d.core i; let x := d.issuing i c; d.runs i c ∧ d.tide.hold = false ∧ chkDesc i (k.reg ra) 64 64 = .ok p ∧ x.blocked p 64 = false ∧ i.val < 32 ∧ x.jobFull (i / 2) (k.dom i) = false) ∧
    (∃ (d : Dev) (i : Fin 37) (c : BitVec 4) (ra : BitVec 5) (p : Nat), let k := d.core i; let x := d.issuing i c; d.runs i c ∧ d.tide.hold = false ∧ chkDesc i (k.reg ra) 64 64 = .ok p ∧ x.blocked p 64 = false ∧ x.xch.queue.length < 256 ∧ x.coveHalted (k.dom i) = false ∧ x.b (pgEMH + 8) 0 = true) ∧
    (∃ (d : Dev) (i : Fin 37) (c : BitVec 4) (ra rb : BitVec 5) (p : Nat), let k := d.core i; let x := d.issuing i c; d.runs i c ∧ d.tide.hold = false ∧ chkDesc i (k.reg ra) 64 64 = .ok p ∧ x.blocked p 64 = false ∧ ∃ (n : Nat), (k.reg rb).tag = tHNDL ∧ fieldN (k.reg rb).v.toNat 0 8 = 1 ∧ fieldN (k.reg rb).v.toNat 16 16 = n ∧ n ≤ 63 ∧ x.engOwner n = k.dom i ∧ x.locked (pgEng n) = false ∧ x.b (pgEng n + 8) 0 = true ∧ x.coveHalted (k.dom i) = false) ∧
    (∃ (d : Dev) (i : Fin 37) (c : BitVec 4) (ra : BitVec 5) (p : Nat), d.runs i c ∧ d.tide.hold = false ∧
      chkDesc i ((d.core i).reg ra) 16 16 = .ok p ∧ (d.issuing i c).blocked p 16 = false) ∧
    (∃ (d : Dev) (i : Fin 37) (c : BitVec 4) (ra rb : BitVec 5) (q : Nat), let k := d.core i; let x := d.issuing i c; d.runs i c ∧ 32 ≤ i.val ∧ (k.reg ra).tag = tINT ∧ (k.reg ra).v.toNat = q ∧ q ≤ 31 ∧ ∃ p, (d.core q).running = false ∧ (k.reg rb).tag = tDADDR ∧ x.canStore i (k.reg rb) 0 576 64 p) ∧
    (∃ (d : Dev) (i : Fin 37) (c : BitVec 4) (ra rb : BitVec 5) (q : Nat), let k := d.core i; let x := d.issuing i c; let x0 := x.setCore q { d.core q with running := false }; d.runs i c ∧ 32 ≤ i.val ∧ (k.reg ra).tag = tINT ∧ (k.reg ra).v.toNat = q ∧ q ≤ 31 ∧ ∃ (p : Nat) (img : List Byte) (x1 : Dev), chkDesc i (k.reg rb) 576 64 = .ok p ∧ x.blocked p 576 = false ∧ x0.memRead (corePage i) 0x40 p 576 = (img, false, x1) ∧ launchBad img false = none) :=
  ⟨⟨(cpu 3).sb 0x11008 0 true, 3, 0, 3, 0x10000, ⟨by decide +kernel, by decide +kernel⟩, by decide +kernel⟩,
   ⟨cpu 3, 3, 0, 3, 0x10000, ⟨by decide +kernel, by decide +kernel⟩, by decide +kernel⟩,
   ⟨(cpu 3).sb 0x100008 0 true, 3, 0, 3, 6, 0x10000, ⟨by decide +kernel, by decide +kernel⟩, by decide +kernel,
      by decide +kernel, by decide +kernel, 0, by decide +kernel⟩,
   ⟨cpu 3, 3, 0, 3, 0x10000, ⟨by decide +kernel, by decide +kernel⟩, by decide +kernel⟩,
   ⟨cpu 32, 32, 0, 1, 3, 5, ⟨by decide +kernel, by decide +kernel⟩, by decide +kernel, by decide +kernel,
      by decide +kernel, by decide +kernel, 0x10000, by decide +kernel, by decide +kernel, ⟨by decide +kernel,
      by decide +kernel⟩⟩,
   ⟨launchD, 32, 0, 1, 3, 5, ⟨by decide +kernel, by decide +kernel⟩, by decide +kernel, by decide +kernel,
      by decide +kernel, by decide +kernel, 0x10000, launchR.1, launchR.2.2, by decide +kernel,
      by decide +kernel, launchR_eq, by decide +kernel⟩⟩

/-- Every link is up, the host has enabled PF0. -/
def ported : Dev :=
  { (up.sb (pgAP 3 + 8) 0 true) with port := { up.port with up := List.replicate 9 true, mse := true, bme := true, retry := false, apBme := List.replicate 8 true } }
/-- Window 0 claims accesses of port 3 in 64 KiB at bus address 0x10000, at device address 0x20000. -/
def windowed : Dev :=
  { ported.sb (pgWIN + 8) 0 true with bank := [(winReg 0 0, 0x100807), (winReg 0 4, 0x10000), (winReg 0 12, 2)] }
/-- Powered and started. -/
def started : Dev := { up with pwr := { up.pwr with pwren := true, main := true, started := true, rst := false } }
def norD (n : Nat) (l : List Byte) : Dev := { dv [(0x8110, 0x705)] with sec := { up.sec with nor := some (n, l) } }
def memD : Dev := (up.sb (siteSts 0) 0 true).wr (mpdOf 0 + 8) 1 |>.sb (mpdOf 0 + 0x104) 0 true
def dumpDef : List Byte := image 56 [(2, 1, 255), (8, 8, 0x10000), (16, 4, 256)]
def dumpArm : List Byte := image 56 [(4, 2, 1)]
def aTensor : Tensor := { cove := none, addr := 0x10000, len := 256, fmt := 0 }
def dumpD : Dev :=
  { ask up 0x501 dumpArm 0 true 0 with trc := { up.trc with tensors := [(0, aTensor)], ring := some (0x16800000000, 6, 0x16800010000, 12, 1) } }
def dumpRing : List Byte := image 56 [(0, 8, 0x16800000000), (8, 1, 6), (16, 8, 0x16800010000), (24, 1, 12), (26, 2, 1)]
def aCopy : DumpCopy := { tensor := 0, dfn := aTensor, head := 0, phase := true, slot := 0, tide := 0, remain := 0 }
def attP : List Byte := image 56 [(32, 1, 255)]
theorem link_parts {d : Dev} {a k : Nat} (h : (d.linkErrors a k).1 = true) : d.linkErrors a k = (true, (d.linkErrors a k).2) := by rw [← h]
def measD : Dev := { up with sec := { up.sec with meas := some (7, 65536, false) } }
def measE : Dev := ({ measD with sec := { measD.sec with meas := none } } : Dev).sb (pgSEC + 0x118) 0 false
/-- No site of that device has failed, and no error waits for a read. -/
theorem meas_calm (a : Nat) : measE.meets a = [] ∧ measE.siteFailed a = false := by
  have hs : (siteOf measE.fw.layout a).1 < 16 := by
    have hy : measE.fw.layout = {} := rfl
    rw [hy]
    unfold siteOf
    dsimp only
    split
    · dsimp only
      omega
    · exact Nat.xor_lt_two_pow (n := 4) (by omega) (by omega)
  have hr : ∀ n, n < 16 → measE.b (pgMPD (n / 4) + 0x128) 8 = false ∧ measE.b (siteSts n) 1 = false := by decide +kernel
  have hu : measE.upsets = [] := rfl
  unfold Dev.meets Dev.siteFailed Dev.injected
  generalize siteOf measE.fw.layout a = x at hs
  simp [hr x.1 hs, hu]
theorem meas_good : (measE.weightHash 65536).2.1 = false := by
  have h (a : Nat) : measE.memRead pgSEC 0x40 a 65536 = (measE.bytes a 65536, false, measE) :=
    Dev.memRead_clean (fun g _ => meas_calm _) fun g => rfl
  have f {β : Type} (F : β × Bool × Dev → Nat → β × Bool × Dev)
      (hF : ∀ r n, r.2 = (false, measE) → (F r n).2 = (false, measE)) (l : List Nat) :
      ∀ r, r.2 = (false, measE) → (l.foldl F r).2 = (false, measE) := by
    induction l with
    | nil => exact fun r hr => hr
    | cons n t ih => exact fun r hr => ih _ (hF r n hr)
  unfold Dev.weightHash
  dsimp only
  rw [f _ ?_ _ _ rfl]
  intro r n hr
  obtain ⟨b, c, e⟩ := r
  obtain ⟨rfl, rfl⟩ : c = false ∧ e = measE := by simpa using hr
  dsimp only
  rw [h]
  rfl
theorem triple_at {α γ : Type} {x : α × Bool × γ} {b : Bool} (h : x.2.1 = b) : x = (x.1, b, x.2.2) := by rw [← h]
/-- Every site is filled. -/
def fullD (d : Dev) : Dev := (List.range 16).foldl (fun d n => d.sb (siteSts n) 0 true) d

theorem test_meets_PortCommandsComplete_1 :
    (∃ (d : Dev), d.linkUp 8 = true ∧ d.port.waitReq = [] ∧ d.tide.hold = true) ∧
    (∃ (d : Dev) (bar2 : Bool) (off size : Nat), d.linkUp 8 = true ∧ d.port.waitReq = [] ∧ d.tide.hold = false ∧
      d.port.flr = false ∧ d.port.mse = true ∧ off + size ≤ (if bar2 then 2 ^ 26 else 2 ^ 24) ∧ (size = 4 ∨ size = 8) ∧
      off % size = 0 ∧ (bar2 = false ∨ d.safe = false)) ∧
    (∃ (d : Dev) (wr : Bool) (off size : Nat) (poison : Bool), d.linkUp 8 = true ∧ d.port.waitReq = [] ∧
      d.tide.hold = false ∧ d.blocked (d.bar4Addr off) size = false ∧ d.port.flr = false ∧ d.port.mse = true ∧
      let e := if wr && poison then (d.wake 8).poisonRx 8 else d.wake 8; let a := e.bar4Addr off; e.safe = false ∧
      e.filled = true ∧ off + size ≤ 2 ^ e.port.b4Log ∧ inUserMem a size = true) ∧
    (∃ (d : Dev), d.linkUp 8 = true) ∧
    (∃ (d : Dev) (k : Fin 8) (wr : Bool) (addr size : Nat) (data : List Byte) (attr : ReqAttr), let e := if wr && attr.poison then (d.wake k).poisonRx k else d.wake k; d.linkUp k = true ∧ d.port.waitReq = [] ∧ d.mustWait (.acc k wr addr size data attr) = false ∧ d.b (pgAP k + 8) 0 = true ∧ e.hits k wr addr = []) ∧
    (∃ (d : Dev) (k : Fin 8) (wr : Bool) (addr size : Nat) (data : List Byte) (attr : ReqAttr), let e := if wr && attr.poison then (d.wake k).poisonRx k else d.wake k; d.linkUp k = true ∧ d.port.waitReq = [] ∧ d.mustWait (.acc k wr addr size data attr) = false ∧ d.b (pgAP k + 8) 0 = true ∧ ∃ (n a : Nat) (x : Bool), e.hits k wr addr = [n] ∧ let f := e.inc (pgWIN + (if wr then 0x800 else 0x804) + 8 * k); f.safe = false ∧ f.b (pgWIN + 8) 2 = false ∧ (wr = false ∨ f.slack.cut = false) ∧ f.winTarget n wr addr size = (some a, x) ∧ (areaOf a ≠ .device ∨ f.filled = true)) ∧
    (∃ (d : Dev), d.linkUp 8 = true ∧ d.port.retry = false) ∧
    (∃ (d : Dev), d.linkUp 8 = true ∧ d.port.retry = false ∧ d.port.flr = false) :=
  ⟨⟨td ported fun t => { t with hold := true }, by decide +kernel⟩,
   ⟨ported, false, 0xfffff8, 8, by decide +kernel⟩,
   ⟨fullD ported, false, 0x100, 4, false, by decide +kernel⟩,
   ⟨ported, by decide +kernel⟩,
   ⟨ported, 3, false, 0x40000, 4, [], {}, by decide +kernel⟩,
   ⟨fullD windowed, 3, false, 0x10000, 4, [], {}, by decide +kernel, by decide +kernel, by decide +kernel,
      by decide +kernel, 0, 0x20000, false, by decide +kernel⟩,
   ⟨ported, by decide +kernel⟩,
   ⟨ported, by decide +kernel⟩⟩
theorem test_meets_PortCommandsComplete_2 :
    (∃ (d : Dev), d.linkUp 8 = true ∧ d.port.retry = false ∧ ∃ log : Nat, d.port.flr = false ∧ d.port.mse = false ∧
      30 ≤ log ∧ log ≤ 41) ∧
    (∃ d : Dev, d.linkUp 8 = true) ∧
    (∃ (d : Dev) (speed width : Nat), d.pwr.started = true ∧ linkTrains 16 speed width = true ∧ d.linkUp 8 = false) ∧
    (∃ (d : Dev) (speed width : Nat), d.pwr.started = true ∧ ∃ k : Fin 8, linkTrains 8 speed width = true ∧
      d.port.retry = false ∧ d.linkUp k = false ∧ d.b (pgAP k + 8) 0 = true) ∧
    (∃ (d : Dev) (p : Fin 9) (sub : Fin 3), let w := d.port.lnk.getD (linkIdx p) 0; let a := d.port.aspm.getD (linkIdx p) (false, false, false); d.linkUp p = true ∧ a.1 = true ∧ (sub.val = 0 ∧ a.2.1 = false ∧ a.2.2 = false ∨ sub.val = 1 ∧ a.2.1 = true ∨ sub.val = 2 ∧ a.2.2 = true) ∧ fieldN w 10 2 = 0) ∧
    (∃ d : Dev, d.pwr.started = true ∧ d.b 0x2100 9 = true) ∧
    (∃ d : Dev, d.pwr.started = true ∧ d.b 0x2100 8 = true) :=
  ⟨⟨{ ported with port := { ported.port with mse := false } }, by decide +kernel, by decide +kernel, 41, by decide +kernel⟩,
   ⟨ported, by decide +kernel⟩,
   ⟨started, 6, 16, by decide +kernel⟩,
   ⟨{ started.sb (pgAP 0 + 8) 0 true with port := { started.port with retry := false } }, 6, 8, by decide +kernel, 0,
      by decide +kernel⟩,
   ⟨{ ported with port := { ported.port with aspm := List.replicate 9 (true, false, false) } }, 8, 0, by decide +kernel⟩,
   ⟨started.wr 0x2100 0x3ff, by decide +kernel⟩,
   ⟨started.wr 0x2100 0x3ff, by decide +kernel⟩⟩

theorem test_meets_PowerAndManagementComplete_1 :
    (∃ (d : Dev), d.pwr.pwren = false ∧ d.pwr.aon = true) ∧
    (∃ (d : Dev), d.pwr.pwren = true ∧ d.pwr.holdoff = true) ∧
    (∃ (d : Dev), d.pwr.main = true ∧ d.b 0x1100 16 = false) ∧
    (∃ (d : Dev), d.pwr.rst = false) ∧
    (∃ (d : Dev), d.pwr.rst = true) ∧
    (∃ (d : Dev), d.b 0x1100 16 = true ∧ d.pwr.rst = false) ∧
    (∃ d : Dev, d.pwr.started = true ∧ d.pwr.warming = false ∧ d.loadState = 0 ∧ d.safe = false) ∧
    (∃ d : Dev, d.pwr.warming = true) ∧
    (∃ d : Dev, d.writable 0x5108 = true ∧ d.warmOk = true) :=
  ⟨⟨up, by decide +kernel⟩,
   ⟨{ up with pwr := { up.pwr with pwren := true, holdoff := true } }, by decide +kernel⟩,
   ⟨started, by decide +kernel⟩,
   ⟨{ started with pwr := { started.pwr with rst := false } }, by decide +kernel⟩,
   ⟨up, by decide +kernel⟩,
   ⟨({ started with pwr := { started.pwr with rst := false } }).sb 0x1100 16 true, by decide +kernel⟩,
   ⟨{ dv [] with pwr := { started.pwr with warming := false } }, by decide +kernel⟩,
   ⟨{ up with pwr := { up.pwr with warming := true } }, by decide +kernel⟩,
   ⟨sf, by decide +kernel⟩⟩
theorem test_meets_PowerAndManagementComplete_2 :
    (∃ d : Dev, let e := ({ d with pwr := { d.pwr with estop := true } } : Dev).sb 0x5104 2 true; d.pwr.estop = false ∧
      d.pwr.started = true ∧ e.loadState ≠ 0) ∧
    (∃ (d : Dev) (mv : Nat), d.pwr.main = true ∧ d.pwr.started = true ∧ 80000 < mv ∧ mv ≤ 82000) ∧
    (∃ (d : Dev) (mv : Nat), d.pwr.aon = true ∧ 82000 < mv) ∧
    (∃ (d : Dev) (mv : Nat), 36000 ≤ mv ∧ mv ≤ 100000 ∧ d.pwr.holdoff = false) ∧
    (∃ (d : Dev), d.pwr.main = true ∧ d.pwr.started = true) ∧
    (∃ d : Dev, d.pwr.aon = true) ∧
    (∃ d : Dev, d.writable 0x1110 = true) ∧
    (∃ (d : Dev) (m : Sample), d.pwr.main = true ∧ (d.heat m).b 0x1100 17 = false ∧ tempAbove m 999 999 1149 = true) ∧
    (∃ (d : Dev) (m : Sample), d.pwr.started = true ∧ tempAbove m 1099 1049 1249 = true) :=
  ⟨⟨started, by decide +kernel⟩,
   ⟨started, 82000, by decide +kernel⟩,
   ⟨started, 82001, by decide +kernel⟩,
   ⟨started, 36000, by decide +kernel⟩,
   ⟨started, by decide +kernel⟩,
   ⟨up, by decide +kernel⟩,
   ⟨up, by decide +kernel⟩,
   ⟨started, { tCore := 1000 }, by decide +kernel⟩,
   ⟨started, { tCore := 1100 }, by decide +kernel⟩⟩
theorem test_meets_PowerAndManagementComplete_3 :
    (∃ (d : Dev) (m : Sample), d.pwr.main = true ∧ tempAbove m 1199 1149 1349 = true) ∧
    (∃ (d : Dev) (p : Fin 8), d.pwr.started = true ∧ d.b 0x2100 p = true) ∧
    (∃ (d : Dev) (code : Nat), d.pwr.aon = true ∧ 7 < code) ∧
    (∃ (d : Dev) (n : Nat), d.pwr.main = true ∧ (d.fwRunning = true ∨ d.safe = true) ∧ (n = 0 ∨ (600 ≤ n ∧ n ≤ 1650))) ∧
    (∃ (d : Dev) (n : Nat), d.pwr.main = true ∧ (d.fwRunning = true ∨ d.safe = true) ∧ n < 256) ∧
    (∃ (d : Dev) (n : Nat) (l data : List Byte), d.loadState = 5 ∧ d.g 0x8110 8 8 = 7 ∧ d.sec.nor = some (n, l) ∧
      l.length < n ∧ data.length = 64) ∧
    (∃ (d : Dev) (n : Nat) (l : List Byte) (slot svn revoke : Nat), d.loadState = 5 ∧ d.g 0x8110 8 8 = 7 ∧
      let x : NorExt := { slot := slot, svn := svn, digest := shakeN (l.take n), revoke := revoke }; d.sec.nor = some (n, l) ∧ n ≤ l.length ∧ d.extOk x true = true) :=
  ⟨⟨started, { tCore := 1200 }, by decide +kernel⟩,
   ⟨started.wr 0x2100 0x3ff, 7, by decide +kernel⟩,
   ⟨up, 8, by decide +kernel⟩,
   ⟨started, 1650, by decide +kernel⟩,
   ⟨started, 255, by decide +kernel⟩,
   ⟨norD 128 [], 128, [], List.replicate 64 0, by decide +kernel⟩,
   ⟨norD 1 [5], 1, [5], 3, 0, 0, by decide +kernel⟩⟩

theorem test_meets_MemoryTraceAndAttestationComplete_1 :
    (∃ (d e : Dev) (n : Fin 16) (links : Nat) (ecc : Fin 4), let o := 256 * d.scrub.getD n 0; let a := addrOfSite d.fw.layout n o; d.siteReady n = true ∧ d.safe = false ∧ d.b (mpdOf n + 0x104) 0 = true ∧ d.starts (mpdOf n) = true ∧ d.b (siteSts n) (16 + channelOf o) = false ∧ d.tide.hold = false ∧ ecc ≠ 3 ∧ d.linkErrors a links = (true, e)) ∧
    (∃ (d : Dev) (n c : Fin 16), d.b (siteSts n) (16 + c) = true) ∧
    (∃ (d : Dev) (n c : Fin 16), d.b (siteSts n) (16 + c) = true ∧
      let e := (d.setErr (mpdOf n) 3).lastErrAt n c 4 0; e.retrained.contains (n.val, c.val) = true) ∧
    (∃ (d : Dev) (n c : Fin 16), d.b (siteSts n) (16 + c) = true ∧
      let e := (d.setErr (mpdOf n) 3).lastErrAt n c 4 0; e.retrained.contains (n.val, c.val) = false) ∧
    (∃ (d : Dev) (n : Fin 16), d.siteReady n = true) ∧
    (∃ (d : Dev) (m : Fin 4), d.writable (pgMPD m + 0x100) = true) ∧
    (∃ (d : Dev) (m : Fin 4), d.writable (pgMPD m + 0x128) = true) ∧
    (∃ (d : Dev), let pend := (List.range 4).filter fun m => d.b (pgMPD m + 0x100) 6; d.fwRunning = true ∧
      d.safe = false ∧ d.slackNow = true ∧ pend ≠ []) ∧
    (∃ (d : Dev) (n : Nat), d.pwr.started = true ∧ 0 < n) ∧
    (∃ (d : Dev), d.fwRunning = true ∧ d.safe = false ∧ (d.core 33).running = true ∧ d.g 0x5128 8 4 < 8) ∧
    (∃ (d : Dev), d.writable (pgTRC + 0x114) = true) ∧
    (∃ (d : Dev), d.writable (pgTRC + 0x144) = true) :=
  ⟨⟨memD, (memD.linkErrors (addrOfSite memD.fw.layout 0 (256 * memD.scrub.getD 0 0)) 3).2, 0, 3, 2, by decide +kernel,
      by decide +kernel, by decide +kernel, by decide +kernel, by decide +kernel, by decide +kernel,
      by decide +kernel, link_parts (by decide +kernel)⟩,
   ⟨up.sb (siteSts 1) 19 true, 1, 3, by decide +kernel⟩,
   ⟨{ up.sb (siteSts 1) 19 true with retrained := [(1, 3)] }, 1, 3, by decide +kernel⟩,
   ⟨up.sb (siteSts 1) 19 true, 1, 3, by decide +kernel⟩,
   ⟨up.sb (siteSts 15) 0 true, 15, by decide +kernel⟩,
   ⟨up, 3, by decide +kernel⟩,
   ⟨up, 0, by decide +kernel⟩,
   ⟨slk (up.sb (pgMPD 2 + 0x100) 6 true) { startup := true }, by decide +kernel⟩,
   ⟨started, 3, by decide +kernel⟩,
   ⟨looped, by decide +kernel⟩,
   ⟨up, by decide +kernel⟩,
   ⟨up, by decide +kernel⟩⟩
theorem test_meets_MemoryTraceAndAttestationComplete_2 :
    (∃ (d : Dev) (cid : Nat) (c : Cmd), d.cmd? 0 cid 0x0500 = some c ∧
      let a := leAt c.param 8 8; let n := leAt c.param 16 4; leAt c.param 2 1 = 255 ∧ 256 ≤ n ∧ n ≤ 2 ^ 26 ∧
      (inUserMem a n = true ∨ inHarbour a n = true)) ∧
    (∃ (d : Dev) (cid : Nat) (c : Cmd) (x : Tensor), d.cmd? 0 cid 0x0501 = some c ∧ c.arm = true ∧ leAt c.param 4 2 ≠ 0 ∧
      d.tensor? (leAt c.param 0 2) = some x ∧ d.armRefused x = false) ∧
    (∃ (d : Dev) (cid : Nat) (c : Cmd), d.cmd? 0 cid 0x0502 = some c) ∧
    (∃ (d : Dev) (cid : Nat) (c : Cmd), d.cmd? 0 cid 0x0503 = some c ∧
      let hb := leAt c.param 0 8; let h := leAt c.param 8 1; let sb := leAt c.param 16 8; let sl := leAt c.param 24 1; let n := leAt c.param 26 2; d.trc.arms = [] ∧ d.trc.copies = [] ∧ 6 ≤ h ∧ h ≤ 16 ∧ 12 ≤ sl ∧ sl ≤ 26 ∧ 0 < n ∧ n ≤ 4096 ∧ n ≤ 2 ^ h ∧ hb % 256 = 0 ∧ sb % 256 = 0 ∧ d.placed hb (64 * 2 ^ h) = true ∧ d.placed sb (n * 2 ^ sl) = true) ∧
    (∃ (d : Dev) (k hb h sb sl n : Nat) (c : DumpCopy), d.trc.copies[k]? = some c ∧
      d.trc.ring = some (hb, h, sb, sl, n) ∧ d.safe = false) ∧
    (∃ (d : Dev) (q : Fin 256) (cid : Nat) (c : Cmd), d.cmd? q cid 0x0400 = some c ∧ d.secDown = false ∧
      d.reportTurn c = true ∧ d.cmdCove c = none ∧ 10149 ≤ c.buflen ∧ d.bufOk c true 10149 = true ∧
      leAt c.param 32 1 = 255 ∧ d.sec.leaf < 2 ^ 40 ∧ d.sec.leaf < d.sec.resvEnd) ∧
    (∃ (d : Dev) (q cid buf leaf : Nat) (l : List Byte) (r : List (Nat × Nat × Nat × List Byte × Nat)) (c : Cmd), d.sec.reports = (q, cid, buf, l, leaf) :: r ∧ d.safe = false ∧ (d.fw.fetched.find? fun x => x.pair == q && x.cid == cid && x.opc == 0x0400) = some c) ∧
    (∃ (d : Dev) (q : Fin 256) (cid : Nat) (c : Cmd), d.cmd? q cid 0x0401 = some c ∧ d.secDown = false) ∧
    (∃ (d : Dev) (cid : Nat) (c : Cmd), d.cmd? 0 cid 0x0402 = some c ∧ d.secDown = false ∧ d.sec.meas = none ∧
      leAt c.param 0 8 % 65536 = 0 ∧ leAt c.param 0 8 ≤ d.fw.layout.wSize / 16 ∧ 32 ≤ c.buflen ∧ d.bufOk c true 32 = true) ∧
    (∃ (d e : Dev) (cid len w : Nat), d.sec.meas = some (cid, len, false) ∧ d.safe = false ∧
      (({ d with sec := { d.sec with meas := none } } : Dev).sb (pgSEC + 0x118) 0 false).weightHash len = (w, false, e)) ∧
    (∃ (d : Dev) (cid : Nat) (c : Cmd), d.cmd? 0 cid 0x0403 = some c ∧ d.secDown = false ∧ d.fw.update = none) :=
  ⟨⟨ask up 0x500 dumpDef 0 false 0, 7, cmdOf 0x500 dumpDef 0 false 0, by decide +kernel⟩,
   ⟨dumpD, 7, cmdOf 0x501 dumpArm 0 true 0, aTensor, by decide +kernel⟩,
   ⟨ask up 0x502 [] 0 false 0, 7, cmdOf 0x502 [] 0 false 0, by decide +kernel⟩,
   ⟨ask up 0x503 dumpRing 0 false 0, 7, cmdOf 0x503 dumpRing 0 false 0, by decide +kernel⟩,
   ⟨{ up with trc := { up.trc with copies := [aCopy], ring := some (stage, 6, stage, 12, 1) } }, 0, stage, 6, stage, 12, 1, aCopy, by decide +kernel⟩,
   ⟨{ ask up 0x400 attP 10149 false 0x20000 with sec := { up.sec with resvEnd := 1 } }, 0, 7, cmdOf 0x400 attP 10149 false 0x20000, by decide +kernel⟩,
   ⟨{ ask up 0x400 [] 10149 false 0x20000 with sec := { up.sec with reports := [(0, 7, 0x20000, [], 1)] } }, 0, 7, 0x20000, 1, [], [], cmdOf 0x400 [] 10149 false 0x20000, by decide +kernel⟩,
   ⟨ask up 0x401 [] 0 false 0, 0, 7, cmdOf 0x401 [] 0 false 0, by decide +kernel⟩,
   ⟨ask up 0x402 (leBytes 65536 8) 32 false 0x20000, 7, cmdOf 0x402 (leBytes 65536 8) 32 false 0x20000, by decide +kernel⟩,
   ⟨measD, (measE.weightHash 65536).2.2, 7, 65536, (measE.weightHash 65536).1, by decide +kernel,
      by decide +kernel, triple_at meas_good⟩,
   ⟨ask up 0x403 [] 0 false 0, 7, cmdOf 0x403 [] 0 false 0, by decide +kernel⟩⟩

def rec16 (n : Nat) : List Byte := image 56 [(0, 2, n)]
def ringD : Dev := slk ((ask hl 0x13 [] 16 false stage).poke stage (image 16 [(0, 2, 2), (8, 2, 1)])) { startup := true }
def ringR : List Byte × Bool × Dev := ringD.memRead pgFWR 0x40 stage 16
theorem ringR_eq : ringD.memRead pgFWR 0x40 stage 16 = (ringR.1, false, ringR.2.2) := read_parts (by decide +kernel)
def anOp (r : Nat) : CtlOp := { req := r, cid := 9, tide := 0, waiting := [1] }

theorem test_meets_RecoveryCommandsComplete_1 :
    (∃ (d : Dev) (cid : Nat) (c : Cmd), d.isHead = true ∧ d.cmd? 0 cid 0x0300 = some c ∧ c.arm = true ∧
      d.stopActive = false) ∧
    (∃ (d : Dev) (cid : Nat) (c : Cmd), d.isHead = true ∧ d.cmd? 0 cid 0x0301 = some c ∧ d.err.gstopCid = none ∧
      d.g 0x5120 0 2 = 3 ∧ d.slack.cut = true) ∧
    (∃ (d : Dev) (cid : Nat) (c : Cmd), d.isHead = true ∧ d.cmd? 0 cid 0x0302 = some c ∧ leAt c.param 0 2 ∈ d.workers) ∧
    (∃ (d : Dev) (cid : Nat) (c : Cmd), d.isHead = true ∧ d.cmd? 0 cid 0x0303 = some c ∧ c.arm = true ∧
      leAt c.param 0 2 ∈ d.tide.excluded ∧ (d.tide.including.any fun x => x.1 == leAt c.param 0 2) = false) ∧
    (∃ (d : Dev) (cid : Nat) (c : Cmd), d.isHead = true ∧ ∃ (l : List Byte) (e : Dev), d.cmd? 0 cid 0x0013 = some c ∧
      (c.arm = true ∨ d.slackNow = true) ∧ c.buflen % 8 = 0 ∧ d.ckp.newRing = none ∧ d.bufOk c false c.buflen = true ∧
      d.memRead pgFWR 0x40 c.buf c.buflen = (l, false, e) ∧ ringBad (ringEntries l c.buflen) = false ∧
      e.offerOk (ringOffer (ringEntries l c.buflen) e.tide.dev) = true) ∧
    (∃ (d : Dev), d.emhOn = true ∧ d.fwRunning = true ∧ d.isWorker = true) ∧
    (∃ (d : Dev), d.emhOn = true ∧ d.fwRunning = true ∧ d.isWorker = true ∧ d.slack.cut = true) ∧
    (∃ (d : Dev), d.emhOn = true ∧ d.fwRunning = true ∧ d.isWorker = true) ∧
    (∃ (d : Dev) (dev : Nat), d.emhOn = true ∧ d.fwRunning = true ∧ d.isWorker = true ∧
      (dev ≠ d.tide.dev ∨ d.slackNow = true)) :=
  ⟨⟨ask hl 0x300 [] 0 true 0, 7, cmdOf 0x300 [] 0 true 0, by decide +kernel⟩,
   ⟨slk ((ask hl 0x301 [] 0 false 0).s 0x5120 0 2 3) { cut := true }, 7, cmdOf 0x301 [] 0 false 0, by decide +kernel⟩,
   ⟨ask hl 0x302 (rec16 1) 0 false 0, 7, cmdOf 0x302 (rec16 1) 0 false 0, by decide +kernel⟩,
   ⟨td (ask hl 0x303 (rec16 3) 0 true 0) fun t => { t with excluded := [3] }, 7, cmdOf 0x303 (rec16 3) 0 true 0,
      by decide +kernel⟩,
   ⟨ringD, 7, cmdOf 0x13 [] 16 false stage, by decide +kernel, ringR.1, ringR.2.2, by decide +kernel,
      by decide +kernel, by decide +kernel, by decide +kernel, by decide +kernel, ringR_eq, by decide +kernel⟩,
   ⟨wk, by decide +kernel⟩,
   ⟨slk wk { cut := true }, by decide +kernel⟩,
   ⟨wk, by decide +kernel⟩,
   ⟨wk, 3, by decide +kernel⟩⟩
theorem test_meets_RecoveryCommandsComplete_2 :
    (∃ (d : Dev), d.emhOn = true ∧ d.fwRunning = true ∧ d.isWorker = true ∧ ∃ m : Ctl, m.ctype = 5 ∧ d.offerOk m = true) ∧
    (∃ (d : Dev) (t : DWord), d.emhOn = true ∧ d.fwRunning = true ∧ d.isWorker = true ∧ ∃ m : Ctl, d.ckp.offer = some m ∧
      t ≠ 0) ∧
    (∃ (d : Dev) (src : Nat) (t : DWord), d.emhOn = true ∧ d.fwRunning = true ∧ d.isHead = true ∧ src ∈ d.err.cutWait ∧
      d.err.gstopTide = some t) ∧
    (∃ (d : Dev) (src : Nat) (o : CtlOp), d.emhOn = true ∧ d.fwRunning = true ∧ d.isHead = true ∧
      (d.tide.ctlOps.find? fun o => o.req == 5 && o.waiting.contains src) = some o ∧ o.waiting = [src]) ∧
    (∃ (d : Dev) (src : Nat) (t : DWord) (o : CtlOp), d.emhOn = true ∧ d.fwRunning = true ∧ d.isHead = true ∧
      (d.tide.ctlOps.find? fun o => o.req == 7 && o.tide == t && o.waiting.contains src) = some o ∧ o.waiting = [src] ∧
      d.ckp.offerAt = none) ∧
    (∃ d : Dev, d.g 0x5120 0 2 = 2 ∧ d.fwRunning = true ∧ d.safe = false ∧ d.reqsOpen = false ∧ d.rxOpen = false ∧
      d.dmaOpen = false) ∧
    (∃ d : Dev, d.g 0x5120 0 2 = 2 ∧ d.fwRunning = true ∧ d.safe = false ∧
      (d.reqsOpen = true ∨ d.rxOpen = true ∨ d.dmaOpen = true)) ∧
    (∃ (d : Dev), d.writable 0x5100 = true) ∧
    (∃ (d : Dev), d.writable 0x5110 = true) :=
  ⟨⟨wk, by decide +kernel, by decide +kernel, by decide +kernel, { ctype := 5 }, by decide +kernel⟩,
   ⟨{ wk with ckp := { wk.ckp with offer := some { ctype := 5 } } }, 5, by decide +kernel, by decide +kernel,
      by decide +kernel, { ctype := 5 }, by decide +kernel⟩,
   ⟨{ hl with err := { hl.err with cutWait := [1], gstopTide := some 5 } }, 1, 5, by decide +kernel⟩,
   ⟨td hl fun t => { t with ctlOps := [anOp 5] }, 1, anOp 5, by decide +kernel⟩,
   ⟨td hl fun t => { t with ctlOps := [anOp 7] }, 1, 0, anOp 7, by decide +kernel⟩,
   ⟨up.s 0x5120 0 2 2, by decide +kernel, by decide +kernel, by decide +kernel,
      by unfold Dev.reqsOpen; rw [liveCtxs_none rfl]; rfl, by unfold Dev.rxOpen; rw [liveCtxs_none rfl]; rfl,
      by decide +kernel⟩,
   ⟨(up.s 0x5120 0 2 2).setEng 0 { active := true }, by decide +kernel⟩,
   ⟨up, by decide +kernel⟩,
   ⟨up, by decide +kernel⟩⟩

/-- The device with nothing in memory but these bytes, at `a` and up. -/
def lay (d : Dev) (a : Nat) (l : List (Nat × Byte)) : Dev := { d with mem := l.map fun c => (a + c.1, c.2) }
def inCov (d : Dev) (n : Nat) (c : Cove) : Dev := d.setCove n c
/-- A configuration record of cove 3: PASID 7, five jobs. -/
def covRec : List Byte := [3, 0, 0, 0, 7, 0, 0, 0, 0, 0, 0, 0, 5] ++ List.replicate 371 0
def cfgG : CoveCfg := { pasid := 7, jobq := 5, raw := covRec }
def mkD : Dev := lay ((ask up 0x100 [] 384 false stage).sb (pgCOV + 0x100) 0 true) stage [(0, 3), (4, 7), (12, 5)]
def szD : Dev := lay (slk (inCov (ask up 0x102 [] 384 false stage) 3 { state := 1, cfg := cfgG }) { startup := true }) stage [(0, 3), (4, 7), (12, 5)]
def bufC (opc n : Nat) : Cmd := cmdOf opc [] n false stage
theorem cfg_parts {d : Dev} {c : Cmd} {x : Nat × CoveCfg} (h : (d.cfgOf c).1 = .inr x) : d.cfgOf c = (.inr x, (d.cfgOf c).2) := by
  rw [← h]
def p3 : List Byte := [3]
def cvD (opc st : Nat) (arm : Bool) : Dev := inCov (ask up opc p3 0 arm 0) 3 { state := st }
def cvC (opc : Nat) (arm : Bool) : Cmd := cmdOf opc p3 0 arm 0
def saveC : Cmd := cmdOf 0x106 p3 500 false stage
def saveD : Dev := inCov (ask up 0x106 p3 500 false stage) 3 { state := 3 }
theorem save_length : (saveD.saveImage 3).1.length = 432 := by
  unfold Dev.saveImage Dev.coveCtxs
  dsimp only
  rw [liveCtxs_none rfl]
  decide +kernel
def restTail : List Byte := covRec ++ [5] ++ List.replicate 15 0
/-- Cove 3 frozen, and a save image of it at the scratch pool's base, with the CRC-32C of its bytes from 32. -/
def restD : Dev :=
  lay (inCov (ask up 0x107 p3 432 false stage) 3 { state := 3, cfg := cfgG }) stage
    [(0, 0x31), (1, 0x56), (2, 0x43), (3, 0x4b), (12, 0xb0), (13, 1), (24, 0xd7), (25, 0x18), (26, 0xe0), (27, 0xfa), (32, 3), (36, 7), (44, 5), (416, 5)]
def restC : Cmd := cmdOf 0x107 p3 432 false stage
def restR : List Byte × Bool × Dev := restD.memRead pgFWR 0x40 stage 432
theorem restR_eq : restD.memRead pgFWR 0x40 restC.buf restC.buflen = (restR.1, false, restR.2.2) := read_parts (by decide +kernel)
theorem rest_ok : restR.2.2.saveBad restR.1 false = false := by
  unfold Dev.saveBad
  dsimp only
  rw [show (restR.1.take (leAt restR.1 12 4)).drop 32 = restTail from by decide +kernel,
    show crc32c restTail = 0xfae018d7 from crc_of (by decide +kernel)]
  decide +kernel
/-- A set of one granule at the KV pool's base. -/
def setD : Dev := lay (ask up 0x200 [] 1216 false stage) stage [(0, 1), (2, 1), (196, 0xa0), (200, 1)]
def setR : List Byte × Bool × Dev := setD.memRead pgFWR 0x40 stage 1216
theorem setR_eq : setD.memRead pgFWR 0x40 stage 1216 = (setR.1, false, setR.2.2) := read_parts (by decide +kernel)
def snp (d : Dev) : Dev := { ((d.s (pgCKP + 0x104) 0 10 2).sb (pgCKP + 0x104) 10 true) with ckp := { d.ckp with set := some {} } }
/-- The ward is device 4; slot A holds its commit record, over 1,216 bytes of zeros. -/
def wardD : Dev :=
  let d := ((ask up 0x203 [] 0 false 0).s (pgCKP + 0x104) 16 10 4).sb (pgCKP + 0x104) 26 true
  lay { d with ckp := { d.ckp with last := [1] } } 0x11800000000
    [(0, 0x31), (1, 0x4e), (2, 0x53), (3, 0x4b), (4, 1), (28, 0x9e), (29, 0x30), (30, 0xe8), (31, 0xa8), (32, 4)]
theorem zeros_of {l : List Byte} {a b : Nat} (h1 : l.take a = List.replicate a 0) (h2 : l.drop a = List.replicate b 0) :
    l = List.replicate (a + b) 0 := by
  rw [← List.take_append_drop a l, h1, h2, List.replicate_append_replicate]
def wardR : List Byte × Bool × Dev := wardD.memRead pgFWR 0x40 (wardD.ownSlot 0) 1280
theorem ward_ok : metaValid wardR.1 wardR.2.1 4 = true := by
  unfold metaValid
  rw [show (wardR.1.drop 64).take 1216 = List.replicate (400 + (400 + 416)) 0 from
      zeros_of (by decide +kernel) (zeros_of (by decide +kernel) (by decide +kernel)),
    show crc32c (List.replicate (400 + (400 + 416)) 0) = 0xa8e8309e from crc_of (by decide +kernel)]
  decide +kernel
theorem slot_some {d : Dev} {w k : Nat} (h : metaValid (d.memRead pgFWR 0x40 (d.ownSlot k) 1280).1
    (d.memRead pgFWR 0x40 (d.ownSlot k) 1280).2.1 w = true) : (d.slotRecord w k).1.isSome = true := by
  unfold Dev.slotRecord
  dsimp only
  rw [h]
  rfl
theorem ward_parts {d : Dev} (h : d.wardRecord.1.isSome = true) : d.wardRecord = (some (d.wardRecord.1.getD []), d.wardRecord.2) := by
  rw [← opt_get h]
/-- A granule whose pre-image is being copied, and the scratch pool with no room for it. -/
def copyD : Dev := { up with ckp := { up.ckp with copying := [{ gran := 1, cells := [], marks := [] }] } }
def fullSlots (d : Dev) : Dev := { d with fw := { d.fw with layout := { sSize := 0 } } }
theorem ward_isSome {d : Dev} {w : Nat} (h : d.ward = some w)
    (h2 : (d.slotRecord w 0).1.isSome = true) : d.wardRecord.1.isSome = true := by
  unfold Dev.wardRecord
  rw [h]
  dsimp only
  generalize (d.slotRecord w 0).1 = x at h2
  generalize ((d.slotRecord w 0).2.slotRecord w 1).1 = y
  cases x with
  | none => simp at h2
  | some x => cases y <;> simp
theorem ward_some : wardD.wardRecord.1.isSome = true := ward_isSome (w := 4) (by decide +kernel) (slot_some ward_ok)

theorem test_meets_CovesAndSnapshotsComplete_1 :
    (∃ (d : Dev), d.writable (pgCOV + 0x100) = true ∧ (d.coves.any fun c => c.2.state ≠ 0) = false) ∧
    (∃ (d e : Dev) (cid n : Nat) (c : Cmd) (g : CoveCfg), d.cfgOf c = (.inr (n, g), e) ∧ e.rangesOk n g = true ∧
      d.cmd? 0 cid 0x0100 = some c ∧ (e.cove n).state = 0 ∧
      (e.coves.any fun k => k.2.state ≠ 0 && k.2.cfg.pasid == g.pasid) = false ∧
      (e.b (pgCOV + 0x100) 0 = true ∨ e.feature 1 = true) ∧ e.taken n {} g = false) ∧
    (∃ (d e : Dev) (cid n : Nat) (c : Cmd) (g : CoveCfg), d.cfgOf c = (.inr (n, g), e) ∧ e.rangesOk n g = true ∧
      d.cmd? 0 cid 0x0102 = some c ∧ ((e.cove n).state = 1 ∨ (e.cove n).state = 3) ∧ e.b (pgCOV + 0x100) 0 = false ∧
      g.pasid = (e.cove n).cfg.pasid ∧ (c.arm = true ∨ e.slackNow = true) ∧ (e.cove n).resize = none ∧
      e.taken n (e.cove n).cfg g = false ∧ e.inUse n (e.cove n).cfg g = false) ∧
    (∃ (d : Dev) (cid n : Nat) (c : Cmd), leAt c.param 0 1 = n ∧ n ≤ 63 ∧ d.cmd? 0 cid 0x0103 = some c ∧
      (d.cove n).state = 1 ∧ c.arm = false) ∧
    (∃ (d : Dev) (cid n : Nat) (c : Cmd), leAt c.param 0 1 = n ∧ n ≤ 63 ∧ d.cmd? 0 cid 0x0101 = some c ∧
      (d.cove n).state = 1) ∧
    (∃ (d : Dev) (cid n : Nat) (c : Cmd), leAt c.param 0 1 = n ∧ n ≤ 63 ∧ d.cmd? 0 cid 0x0104 = some c ∧
      (d.cove n).state = 1 ∧ c.arm = false) ∧
    (∃ (d : Dev) (cid n : Nat) (c : Cmd), leAt c.param 0 1 = n ∧ n ≤ 63 ∧ d.cmd? 0 cid 0x0104 = some c ∧
      (d.cove n).state = 1 ∧ c.arm = true ∧ (d.cove n).freezeAt = none) ∧
    (∃ (d : Dev) (cid n : Nat) (c : Cmd), leAt c.param 0 1 = n ∧ n ≤ 63 ∧ d.cmd? 0 cid 0x0105 = some c ∧
      (d.cove n).state = 3 ∧ c.arm = false) ∧
    (∃ (d : Dev) (cid n : Nat) (c : Cmd), leAt c.param 0 1 = n ∧ n ≤ 63 ∧
      ∃ (img : List Byte) (bad : Bool) (e : Dev), d.cmd? 0 cid 0x0106 = some c ∧ (d.cove n).state = 3 ∧
      d.saveImage n = (img, bad, e) ∧ img.length ≤ c.buflen ∧ d.inScratch c.buf img.length = true ∧
      inUserMem c.buf img.length = true ∧ d.clearOfCoves c.buf img.length = true) ∧
    (∃ (d : Dev) (cid n : Nat) (c : Cmd), leAt c.param 0 1 = n ∧ n ≤ 63 ∧
      ∃ (l : List Byte) (e : Dev) (m : Nat) (g : CoveCfg), d.cmd? 0 cid 0x0107 = some c ∧ (d.cove n).state = 3 ∧
      (d.cove n).worked = false ∧ inUserMem c.buf c.buflen = true ∧ d.memRead pgFWR 0x40 c.buf c.buflen = (l, false, e) ∧
      e.saveBad l false = false ∧ parseCfg ((l.drop 32).take 384) = some (m, g) ∧
      let o := 432 + 16 * leAt l 6 2 + 576 * popN g.sqMask 32; leAt l 12 4 = o + 256 * leAt l 8 4 ∧
      sameShape g (d.cove n).cfg = true ∧ leAt l 6 2 = (bitList (d.cove n).cfg.ringMask 256).length ∧
      leAt l 8 4 ≤ (e.namedCtxs n).length) ∧
    (∃ (d : Dev) (cid n : Nat) (c : Cmd), leAt c.param 0 1 = n ∧ n ≤ 63 ∧ ∃ q : Fin 256, d.cmd? q cid 0x0108 = some c ∧
      ((d.ring q).driver = true ∨ n = (d.ring q).cove) ∧ (d.cove n).state ≠ 0) ∧
    (∃ (d : Dev) (n : Fin 64), d.fwRunning = true ∧ d.safe = false ∧
      ∃ (cid : Nat) (t : Option DWord) (old : CoveCfg), (d.cove n).resize = some (cid, t, old) ∧
      (d.cove n).resizeDone = true ∧ d.resizeBusy n = false) :=
  ⟨⟨up, by decide +kernel⟩,
   ⟨mkD, (mkD.cfgOf (bufC 0x100 384)).2, 7, 3, bufC 0x100 384, cfgG, cfg_parts (by decide +kernel), by decide +kernel⟩,
   ⟨szD, (szD.cfgOf (bufC 0x102 384)).2, 7, 3, bufC 0x102 384, cfgG, cfg_parts (by decide +kernel), by decide +kernel⟩,
   ⟨cvD 0x103 1 false, 7, 3, cvC 0x103 false, by decide +kernel⟩,
   ⟨cvD 0x101 1 false, 7, 3, cvC 0x101 false, by decide +kernel⟩,
   ⟨cvD 0x104 1 false, 7, 3, cvC 0x104 false, by decide +kernel⟩,
   ⟨cvD 0x104 1 true, 7, 3, cvC 0x104 true, by decide +kernel⟩,
   ⟨cvD 0x105 3 false, 7, 3, cvC 0x105 false, by decide +kernel⟩,
   ⟨saveD, 7, 3, saveC, by decide +kernel,
      by decide +kernel, (saveD.saveImage 3).1, (saveD.saveImage 3).2.1, (saveD.saveImage 3).2.2, by decide +kernel,
      by decide +kernel, rfl, by rw [save_length]; decide, by rw [save_length]; decide, by rw [save_length]; decide,
      by rw [save_length]; decide⟩,
   ⟨restD, 7, 3, restC, by decide +kernel, by decide +kernel, restR.1, restR.2.2, 3, cfgG, by decide +kernel,
      by decide +kernel, by decide +kernel, by decide +kernel, restR_eq, rest_ok, by decide +kernel⟩,
   ⟨cvD 0x108 1 false, 7, 3, cvC 0x108 false, by decide +kernel, by decide +kernel, 0, by decide +kernel⟩,
   ⟨inCov up 3 { state := 1, resize := some (9, none, {}), resizeDone := true }, 3, by decide +kernel,
      by decide +kernel, 9, none, {}, by decide +kernel⟩⟩
theorem test_meets_CovesAndSnapshotsComplete_2 :
    (∃ (d : Dev) (n : Fin 64), d.fwRunning = true ∧ d.safe = false ∧ (d.cove n).state = 4) ∧
    (∃ (d : Dev) (n : Fin 64), d.fwRunning = true ∧ d.safe = false ∧ ∃ cid : Nat, (d.cove n).state = 2 ∧
      d.coveBusy n = false ∧ (d.cove n).freezeCid = some cid) ∧
    (∃ (d e : Dev) (cid : Nat) (c : Cmd) (w : List Byte), d.cmd? 0 cid 0x0200 = some c ∧ d.ckp.run = none ∧
      1216 ≤ c.buflen ∧ d.bufOk c false 1216 = true ∧ d.memRead pgFWR 0x40 c.buf 1216 = (w, false, e) ∧
      e.setOk w none = true) ∧
    (∃ (d : Dev) (cid : Nat) (c : Cmd), d.ckp.run = none ∧ d.ckp.restore = none ∧ d.ckp.set.isSome = true ∧
      d.cmd? 0 cid 0x0201 = some c ∧ d.ckp.armAt = none ∧ d.buddy.isSome = true ∧ c.arm = true) ∧
    (∃ (d : Dev) (cid : Nat) (c : Cmd), d.ckp.run = none ∧ d.ckp.restore = none ∧ d.ckp.set.isSome = true ∧
      d.cmd? 0 cid 0x0201 = some c ∧ d.ckp.armAt = none ∧ d.buddy.isSome = true ∧ c.arm = false ∧ d.slackNow = true) ∧
    (∃ (d : Dev) (cid : Nat) (c : Cmd), d.ckp.run = none ∧ d.ckp.restore = none ∧ d.ckp.set.isSome = true ∧
      ∃ (b x : Nat), d.cmd? 0 cid 0x0204 = some c ∧ d.slackNow = true ∧ leAt c.param 0 1 ≤ 2 ∧ d.buddy = some b ∧
      d.buddyCtx = some x) ∧
    (∃ (d : Dev) (cid : Nat) (c : Cmd), d.cmd? 0 cid 0x0202 = some c) ∧
    (∃ (d : Dev) (cid : Nat) (c : Cmd), ∃ (l : List Byte) (e : Dev), d.cmd? 0 cid 0x0203 = some c ∧ d.ckp.last ≠ [] ∧
      d.wardRecord = (some l, e)) ∧
    (∃ (d : Dev) (g : Nat) (p : PreImg), (d.ckp.copying.find? fun p => p.gran == g) = some p ∧
      (d.ckp.pre.length + 1) * 65536 ≤ d.fw.layout.sSize) ∧
    (∃ (d : Dev) (g : Nat) (p : PreImg), (d.ckp.copying.find? fun p => p.gran == g) = some p ∧
      d.fw.layout.sSize < (d.ckp.pre.length + 1) * 65536) ∧
    (∃ d : Dev, d.safe = false ∧ d.starts pgCKP = true ∧ d.emhOn = true ∧ d.tide.hold = false) :=
  ⟨⟨inCov up 3 { state := 4 }, 3, by decide +kernel⟩,
   ⟨inCov up 3 { state := 2, freezeCid := some 9 }, 3, by decide +kernel, by decide +kernel, 9, by decide +kernel⟩,
   ⟨setD, setR.2.2, 7, cmdOf 0x200 [] 1216 false stage, setR.1, by decide +kernel, by decide +kernel,
      by decide +kernel, by decide +kernel, setR_eq, by decide +kernel⟩,
   ⟨snp (ask up 0x201 [] 0 true 0), 7, cmdOf 0x201 [] 0 true 0, by decide +kernel⟩,
   ⟨slk (snp (ask up 0x201 [] 0 false 0)) { startup := true }, 7, cmdOf 0x201 [] 0 false 0, by decide +kernel⟩,
   ⟨slk (snp (ctxed (ask up 0x204 [] 0 false 0) 3 0)) { startup := true }, 7, cmdOf 0x204 [] 0 false 0,
      by decide +kernel, by decide +kernel, by decide +kernel, 2, 5, by decide +kernel, by decide +kernel,
      by decide +kernel, by decide +kernel, findCtx_one _ _ _ _ _ (by decide +kernel) (by decide +kernel)⟩,
   ⟨ask up 0x202 [] 0 false 0, 7, cmdOf 0x202 [] 0 false 0, by decide +kernel⟩,
   ⟨wardD, 7, cmdOf 0x203 [] 0 false 0, wardD.wardRecord.1.getD [], wardD.wardRecord.2, by decide +kernel,
      by decide +kernel, ward_parts ward_some⟩,
   ⟨copyD, 1, { gran := 1, cells := [], marks := [] }, by decide +kernel⟩,
   ⟨fullSlots copyD, 1, { gran := 1, cells := [], marks := [] }, by decide +kernel⟩,
   ⟨up.sb (pgCKP + 8) 0 true, by decide +kernel⟩⟩

/-- Port 0 of the network is up, the classifier and the scheduler run. -/
def netD : Dev := (((up.sb (pgNET + 0x110) 0 true).sb (pgNET + 8) 0 true).sb (pgPKT + 8) 0 true).sb (pgTSQ + 8) 0 true
def aNet : NetFrame := { port := 0, len := 64, bytes := [] }
def hnqD : Dev := { (netD.wr (hnqReg 0 0x194) 0x100006 |>.wr (hnqReg 0 0x198) 1) with port := { up.port with bme := true } }
def aFrame : Frame := { q := 0, len := 84 }
def tsqD : Dev := { netD with tsq := { frames := [aFrame] } }

theorem test_meets_NetworkCommandsComplete :
    (∃ (d : Dev) (p : Fin 8), d.netUp p = true ∧ d.b (pgNET + 8) 0 = true) ∧
    (∃ (d : Dev) (i : Nat) (f : NetFrame), d.net.reorder[i]? = some f ∧ d.mayDeliver i f = true) ∧
    (∃ (d : Dev), d.writable (pgPKT + 0x17c) = true) ∧
    (∃ (d : Dev), d.writable (pgNET + 0x100) = true) ∧
    (∃ (d : Dev), d.writable (pgNET + 0x104) = true) ∧
    (∃ (d : Dev), d.writable (pgNET + 0x194) = true) ∧
    (∃ (d : Dev), d.writable (pgNET + 0x198) = true) ∧
    (∃ (d : Dev), d.writable (pgNET + 0x19c) = true) ∧
    (∃ (d : Dev) (p : Fin 8), p.val < d.numPorts ∧ d.b (pgNET + 0x104) p = true ∧ d.b (pgNET + 8) 0 = true) ∧
    (∃ (d : Dev) (n : Fin 64), d.hnqReady n = true) ∧
    (∃ (d : Dev) (q : Fin 4096) (head : List Byte) (f : Frame) (dn dq : Map Nat), d.headFrame q = some f ∧
      let n := d.nodeOf q; d.drr (d.tsqNodes n f.len) (0x10000 + n) = some dn ∧ d.drr (d.tsqQueues n) q = some dq ∧
      d.safe = false ∧ d.netUp (d.portOf n) = true ∧ d.tide.hold = false ∧ d.starts pgTSQ = true ∧
      d.mayFlow (0x20000 + d.portOf n) = true ∧ (d.frameLoops f head = false ∨ d.net.reorder.length < 4096)) ∧
    (∃ d : Dev, let first := d.g (pgTSQ + 0x1b8) 0 12; let last := d.g (pgTSQ + 0x1b8) 16 12; let size := 2 ^ d.g (pgTSQ + 0x1c4) 0 5; d.g (pgTSQ + 0x1b4) 0 16 ≠ 0 ∧ first ≤ last ∧ d.safe = false ∧ d.starts pgTSQ = true ∧ d.fwRunning = true ∧ (d.g (pgTSQ + 0x1c8) 0 20 + size - d.g (pgTSQ + 0x1cc) 0 20 % size) % size + (last + 1 - first) < size) :=
  ⟨⟨netD, 0, by decide +kernel⟩,
   ⟨{ netD with net := { netD.net with reorder := [aNet] } }, 0, aNet, by decide +kernel⟩,
   ⟨up, by decide +kernel⟩,
   ⟨hl, by decide +kernel⟩,
   ⟨wk, by decide +kernel⟩,
   ⟨up, by decide +kernel⟩,
   ⟨hl, by decide +kernel⟩,
   ⟨wk, by decide +kernel⟩,
   ⟨netD.wr (pgNET + 0x104) 0xff, 0, by decide +kernel⟩,
   ⟨hnqD, 0, by decide +kernel⟩,
   ⟨tsqD, 0, [], aFrame, (tsqD.drr (tsqD.tsqNodes 0 84) 0x10000).getD [], (tsqD.drr (tsqD.tsqQueues 0) 0).getD [],
      by decide +kernel, opt_get (by decide +kernel), opt_get (by decide +kernel), by decide +kernel⟩,
   ⟨((netD.wr (pgTSQ + 0x1b4) 1).wr (pgTSQ + 0x1c4) 4).wr (pgTSQ + 0x1b8) 0, by decide +kernel⟩⟩

/-- Context 5 with a state and a service, and more of it as given: bytes at offsets, what it keeps apart from memory. -/
def cx (state service : Nat) (l : List (Nat × Nat)) (x : Ctx) : Dev :=
  let d := (ctxed up state service).setCtx { x with conn := 5 }
  { d with mem := l.foldl (fun m c => Map.put m (1280 + c.1) (BitVec.ofNat 8 c.2)) d.mem }
def noCtx : Ctx := { conn := 5 }
def pk (op path : Nat) (l : List Byte) : EmhPkt := { op := op, path := path, sdev := 2, dconn := 5, sconn := 6, epoch := 1, payload := l }
def nakP : List Byte := [0, 2, 0, 0, 0, 0, 0, 7]
def txp (delayed : Bool) (nak : Nat) : TxPkt := { pkt := { op := 1, psn := 7, msn := 3 }, sent := true, delayed := delayed, nak := nak }
def aReq : Req := { addr := 0, msn := 0, lkeyV := true, len := 64, lkey := 1 }
/-- Region 1 is open, in pages that are away. -/
def regD (d : Dev) : Dev := ((d.wr (regKey 1 0x194) 0x10).wr (regKey 1 0x188) 1).wr (regKey 1 0x18c) 0xc

theorem test_meets_TransportCommandsComplete_1 :
    (∃ (d : Dev), d.writable (pgEMH + 0x114) = true) ∧
    (∃ (d : Dev), d.writable (pgEMH + 0x110) = true) ∧
    (∃ (d : Dev) (port : Nat) (k : EmhPkt), d.knows k ∧
      let c := k.dconn; let x := (d.takingPkt port k).cTouch c; k.op = 7 ∧ (x.cState c = 1 ∨ x.cState c = 3)) ∧
    (∃ (d : Dev) (port : Nat) (k : EmhPkt), d.knows k ∧
      let c := k.dconn; let x := (d.takingPkt port k).cTouch c; k.op = 8 ∧ x.cState c = 2) ∧
    (∃ (d : Dev) (port : Nat) (k : EmhPkt), d.knows k ∧
      let c := k.dconn; let x := (d.takingPkt port k).cTouch c; k.op = 9 ∧ x.cState c ≠ 6) ∧
    (∃ (d : Dev) (port : Nat) (k : EmhPkt), d.knows k ∧
      let c := k.dconn; let x := (d.takingPkt port k).cTouch c; k.op = 10 ∧ x.cState c ≠ 6) ∧
    (∃ (d : Dev) (port : Nat) (k : EmhPkt), d.knows k ∧
      let c := k.dconn; let x := (d.takingPkt port k).cTouch c; k.op = 11 ∧ x.cState c ≠ 6) ∧
    (∃ (d : Dev) (port : Nat) (k : EmhPkt), d.knows k ∧
      let c := k.dconn; let x := (d.takingPkt port k).cTouch c; k.op = 12 ∧ x.cState c ≠ 6 ∧ k.path % 8 < x.cf c 8 1 ∧
      bitN (x.cf c 9 1) (k.path % 8) = false) ∧
    (∃ (d : Dev) (port : Nat) (k : EmhPkt), d.knows k ∧
      let c := k.dconn; let x := (d.takingPkt port k).cTouch c; x.cState c = 3 ∧ k.op = 5) ∧
    (∃ (d : Dev) (port : Nat) (k : EmhPkt), d.knows k ∧
      let c := k.dconn; let x := (d.takingPkt port k).cTouch c; x.cState c = 3 ∧ ∃ t : TxPkt, k.op = 6 ∧
      (x.nakCount c (beAt k.payload 0 2)).cState c = 3 ∧
      (x.nakCount c (beAt k.payload 0 2)).txOf c (beAt k.payload 4 4) = some t) ∧
    (∃ (d : Dev) (port : Nat) (k : EmhPkt), d.knows k ∧
      let c := k.dconn; let x := (d.takingPkt port k).cTouch c; x.cState c = 3 ∧ psnLt k.psn (x.cf c 112 4) = false ∧
      k.psn ∉ (x.ctx c).ahead ∧ ((k.op = 1 ∧ (x.cService c = 1 ∨ x.cService c = 2)) ∨ ((k.op = 2 ∨ k.op = 3 ∨ k.op = 4) ∧
      x.cService c = 0))) ∧
    (∃ (d : Dev) (c : Fin 65536), d.cState c = 2 ∧ d.emhUp = true) :=
  ⟨⟨up, by decide +kernel⟩,
   ⟨up, by decide +kernel⟩,
   ⟨cx 3 0 [] noCtx, 0, pk 7 0 [], ⟨by decide +kernel, by decide +kernel⟩, by decide +kernel⟩,
   ⟨cx 2 0 [] noCtx, 0, pk 8 0 [], ⟨by decide +kernel, by decide +kernel⟩, by decide +kernel⟩,
   ⟨cx 3 0 [] noCtx, 0, pk 9 0 [], ⟨by decide +kernel, by decide +kernel⟩, by decide +kernel⟩,
   ⟨cx 3 0 [] noCtx, 0, pk 10 0 [], ⟨by decide +kernel, by decide +kernel⟩, by decide +kernel⟩,
   ⟨cx 3 0 [] noCtx, 0, pk 11 0 [], ⟨by decide +kernel, by decide +kernel⟩, by decide +kernel⟩,
   ⟨cx 3 0 [(9, 0)] noCtx, 0, pk 12 0 [], ⟨by decide +kernel, by decide +kernel⟩, by decide +kernel⟩,
   ⟨cx 3 0 [] noCtx, 0, pk 5 0 [], ⟨by decide +kernel, by decide +kernel⟩, by decide +kernel⟩,
   ⟨cx 3 0 [] { noCtx with tx := [txp false 0] }, 0, pk 6 0 nakP, ⟨by decide +kernel, by decide +kernel⟩,
      by decide +kernel, txp false 0, by decide +kernel⟩,
   ⟨cx 3 1 [] noCtx, 0, pk 1 0 [], ⟨by decide +kernel, by decide +kernel⟩, by decide +kernel⟩,
   ⟨cx 2 0 [] noCtx, 5, by decide +kernel⟩⟩
theorem test_meets_TransportCommandsComplete_2 :
    (∃ (d : Dev) (c : Fin 65536), d.mayFetch c = true) ∧
    (∃ (d : Dev) (c : Fin 65536) (r : Req), d.emhOn = true ∧ d.takesWork = true ∧ (d.ctx c).stalled = some r ∧
      d.localSegs c r = none) ∧
    (∃ (d : Dev) (c : Fin 65536) (r : Req), d.emhOn = true ∧ d.takesWork = true ∧ (d.ctx c).stalled = some r ∧
      ∃ (l : List (Nat × Nat)) (p : Nat) (g : List Nat), d.localSegs c r = some (l, p :: g)) ∧
    (∃ (d : Dev) (c : Fin 65536), d.emhOn = true ∧ (d.ctx c).ackDue = true) ∧
    (∃ (d : Dev) (c : Fin 65536) (psn : Nat) (t : TxPkt), d.txOf c psn = some t ∧ d.emhOn = true ∧ d.calm = true ∧
      d.cState c = 3 ∧ t.delayed = true) ∧
    (∃ (d : Dev) (c : Fin 65536) (psn : Nat) (t : TxPkt), d.txOf c psn = some t ∧ d.emhOn = true ∧ d.calm = true ∧
      d.cState c = 3 ∧ t.delayed = false) ∧
    (∃ (d : Dev) (c : Fin 65536) (msn : Nat) (t : TxPkt), d.emhUp = true ∧ t ∈ (d.ctx c).tx ∧ t.sent = true ∧
      t.pkt.msn = msn ∧ t.pkt.op ≠ 4 ∧ (t.nak = 1 ∨ t.nak = 2)) ∧
    (∃ (d : Dev) (c : Fin 65536) (msn : Nat) (t : TxPkt), d.emhUp = true ∧ t ∈ (d.ctx c).tx ∧ t.sent = true ∧
      t.pkt.msn = msn ∧ t.pkt.op ≠ 4 ∧ t.nak = 3) ∧
    (∃ (d : Dev) (c : Fin 65536) (p : Fin 8), d.cState c = 3 ∧ p.val < d.cf c 8 1 ∧ bitN (d.cf c 9 1) p = false) ∧
    (∃ d : Dev, d.writable (pgEMH + 0x194) = true) ∧
    (∃ (d : Dev) (i : Fin 4096), d.regState i = 2 ∧ d.emhUp = true) :=
  ⟨⟨cx 3 0 [(92, 1)] noCtx, 5, by decide +kernel⟩,
   ⟨cx 3 0 [] { noCtx with stalled := some aReq }, 5, aReq, by decide +kernel⟩,
   ⟨regD (cx 3 0 [] { noCtx with stalled := some aReq }), 5, aReq, by decide +kernel, by decide +kernel,
      by decide +kernel, [(0, 64)], 0, [], by decide +kernel⟩,
   ⟨cx 3 0 [] { noCtx with ackDue := true }, 5, by decide +kernel⟩,
   ⟨cx 3 0 [] { noCtx with tx := [txp true 0] }, 5, 7, txp true 0, by decide +kernel⟩,
   ⟨cx 3 0 [] { noCtx with tx := [txp false 0] }, 5, 7, txp false 0, by decide +kernel⟩,
   ⟨cx 3 0 [] { noCtx with tx := [txp false 2] }, 5, 3, txp false 2, by decide +kernel⟩,
   ⟨cx 3 0 [] { noCtx with tx := [txp false 3] }, 5, 3, txp false 3, by decide +kernel⟩,
   ⟨cx 3 0 [(9, 0)] noCtx, 5, 0, by decide +kernel⟩,
   ⟨up, by decide +kernel⟩,
   ⟨up.wr (regKey 1 0x194) 0x20, 1, by decide +kernel⟩⟩

def aCtl : NvCtl := { id := 1, host := 9, kato := 1000, last := 0 }
def admConn : NvConn := { conn := 0, disc := false, ready := true, ctl := some 1 }
def ioConn : NvConn := { conn := 1, disc := false, ready := true, ctl := some 1, qid := 1 }
/-- The target in a mode (1 normal, 3 maintenance), a controller with its admin and one I/O connection, four SSDs, namespace 1 shared. -/
def nvt (m : Nat) (f : Nvt → Nvt) : Dev :=
  let d := (((up.sb (pgNVT + 8) 0 true).s (pgNVT + 0x100) 0 2 m).wr (nsReg 0 0x11c) 0x11).wr (nsReg 0 0x128) 256
  { d with nvt := f { ctls := [aCtl], conns := [admConn, ioConn], ssds := List.replicate 4 { ready := true, cap := 1024 } } }
def wrCmd : NvCmd := { seq := 0, conn := 1, cid := 5, op := .write, nss := [0], ext := [(0, 4096)], phase := 1, r2t := [(0, 4096)] }
def aBlk : NvBlk := { ns := 0, blk := 2, slot := 0, parts := 255, covers := [1] }
def anSsd : SsdCmd := { id := 3, port := 0, op := .read 0 255 }

theorem test_meets_StorageCommandsComplete_1 :
    (∃ (d : Dev) (conn : Nat), d.safe = false ∧ d.nvConn? conn = none ∧ d.nvMode = 0) ∧
    (∃ (d : Dev) (conn : Nat), d.safe = false ∧ d.nvConn? conn = none ∧ d.nvMode ≠ 0) ∧
    (∃ (d : Dev) (conn hpda : Nat) (q : NvConn), d.nvConn? conn = some q ∧ d.nvUp = true ∧ q.ready = false ∧ hpda ≤ 31) ∧
    (∃ (d : Dev) (conn size k : Nat) (q : NvConn), d.nvConn? conn = some q ∧ d.nvUp = true ∧ q.ready = true ∧
      q.ctl = none ∧ d.nvMode ≠ 0 ∧ d.nvt.ctls.length < 256 ∧ size ≤ 4095 ∧ d.nvCtl? k = none) ∧
    (∃ (d : Dev) (conn nsid slba nlb : Nat) (x : NvCtl), d.hosts conn x true ∧
      let e := d.nvTouch x; let y := { x with last := d.trclk }; let lb := e.nsLb (nsid - 1); e.nvRefuse y nsid [(slba * lb, nlb * lb)] true = none) ∧
    (∃ (d : Dev) (conn nsid slba nlb : Nat) (x : NvCtl), d.hosts conn x true ∧
      let e := d.nvTouch x; let y := { x with last := d.trclk }; let lb := e.nsLb (nsid - 1); e.nvRefuse y nsid [(slba * lb, nlb * lb)] false = none) ∧
    (∃ (d : Dev) (conn nsid : Nat) (x : NvCtl), d.hosts conn x true ∧
      let e := d.nvTouch x; let y := { x with last := d.trclk }; e.nvRefuse y nsid [] false = none ∧ nsid ≠ 0xffffffff) ∧
    (∃ (d : Dev) (conn opc : Nat) (x : NvCtl), d.hosts conn x true ∧ opc ∉ [0, 1, 2, 8, 9]) ∧
    (∃ (d : Dev) (conn : Nat) (x : NvCtl), d.hosts conn x false ∧ d.nvMode = 1 ∧
      let e := d.nvTouch x; let y := { x with last := d.trclk }; ∃ sqid target : Nat, let q := (e.nvt.conns.filter fun c => c.ctl == some y.id && c.qid == sqid).map (·.conn); let waits := e.nvt.cmds.find? fun c => q.contains c.conn && c.cid == target && c.phase == 0; ∃ c : NvCmd, waits = some c) ∧
    (∃ (d : Dev) (conn : Nat) (x : NvCtl), d.hosts conn x false ∧ d.nvMode = 1 ∧
      let e := d.nvTouch x; let y := { x with last := d.trclk }; ∃ sqid target : Nat, let q := (e.nvt.conns.filter fun c => c.ctl == some y.id && c.qid == sqid).map (·.conn); let waits := e.nvt.cmds.find? fun c => q.contains c.conn && c.cid == target && c.phase == 0; waits = none) :=
  ⟨⟨up, 3, by decide +kernel⟩,
   ⟨nvt 1 id, 3, by decide +kernel⟩,
   ⟨nvt 1 fun t => { t with conns := [{ conn := 3, disc := false }] }, 3, 31, { conn := 3, disc := false },
      by decide +kernel⟩,
   ⟨nvt 1 fun t => { t with conns := [{ conn := 3, disc := false, ready := true }] }, 3, 4095, 2, { conn := 3, disc := false, ready := true }, by decide +kernel⟩,
   ⟨nvt 1 id, 1, 1, 0, 1, aCtl, ⟨by decide, _, rfl, by decide +kernel⟩, by decide +kernel⟩,
   ⟨nvt 1 id, 1, 1, 0, 1, aCtl, ⟨by decide, _, rfl, by decide +kernel⟩, by decide +kernel⟩,
   ⟨nvt 1 id, 1, 1, aCtl, ⟨by decide, _, rfl, by decide +kernel⟩, by decide +kernel⟩,
   ⟨nvt 1 id, 1, 3, aCtl, ⟨by decide, _, rfl, by decide +kernel⟩, by decide +kernel⟩,
   ⟨nvt 1 fun t => { t with cmds := [{ wrCmd with phase := 0 }] }, 0, aCtl, ⟨by decide, _, rfl, by decide +kernel⟩,
      by decide +kernel, 1, 5, { wrCmd with phase := 0 }, by decide +kernel⟩,
   ⟨nvt 1 id, 0, aCtl, ⟨by decide, _, rfl, by decide +kernel⟩, by decide +kernel, 1, 5, by decide +kernel⟩⟩
theorem test_meets_StorageCommandsComplete_2 :
    (∃ (d : Dev) (conn : Nat) (x : NvCtl), d.hosts conn x false ∧ d.nvMode = 1) ∧
    (∃ (d : Dev) (conn : Nat) (x : NvCtl), d.hosts conn x false ∧ d.nvMode = 1 ∧ ∃ lid : Nat, lid ≠ 0x81) ∧
    (∃ (d : Dev) (conn : Nat) (x : NvCtl), d.hosts conn x false ∧ d.nvMode = 1) ∧
    (∃ (d : Dev) (conn : Nat) (x : NvCtl), d.hosts conn x false ∧ d.nvMode = 1) ∧
    (∃ (d : Dev) (conn : Nat) (x : NvCtl), d.hosts conn x false ∧ d.nvMode = 1 ∧
      let y := { x with last := d.trclk }; y.notes = []) ∧
    (∃ (d : Dev) (conn : Nat) (x : NvCtl), d.hosts conn x false ∧ d.nvMode = 1 ∧
      let e := d.nvTouch x; let y := { x with last := d.trclk }; ∃ nsid lbaf ses : Nat, ses < 2 ∧ lbaf < 2 ∧ nsid ≠ 0 ∧
      nsid ≠ 0xffffffff ∧ e.nsAttached y (nsid - 1) = true ∧ e.nvt.san ≠ 2 ∧ nsid - 1 ∉ e.nvt.formatting ∧
      e.ssdReady (e.nsPort (nsid - 1)) = true) ∧
    (∃ (d : Dev) (conn : Nat) (x : NvCtl), d.hosts conn x false ∧ d.nvMode = 1 ∧
      let e := d.nvTouch x; ∃ a : Nat, (a = 2 ∨ a = 4) ∧ e.nvt.san ≠ 2) ∧
    (∃ (d : Dev) (conn : Nat) (x : NvCtl), d.hosts conn x false ∧ d.nvMode = 2) ∧
    (∃ (d : Dev) (conn : Nat) (x : NvCtl), d.hosts conn x false ∧ d.nvMode = 2 ∧
      let e := d.nvTouch x; e.ssdReady e.nvt.fwPort = true) ∧
    (∃ (d : Dev) (k : Nat) (x : NvCtl) (c : NvConn), d.nvCtl? k = some x ∧
      (d.nvt.conns.find? fun c => c.ctl == some k && c.qid == 0) = some c ∧ d.fwRunning = true ∧ x.kato ≠ 0) :=
  ⟨⟨nvt 1 id, 0, aCtl, ⟨by decide, _, rfl, by decide +kernel⟩, by decide +kernel⟩,
   ⟨nvt 1 id, 0, aCtl, ⟨by decide, _, rfl, by decide +kernel⟩, by decide +kernel, 1, by decide +kernel⟩,
   ⟨nvt 1 id, 0, aCtl, ⟨by decide, _, rfl, by decide +kernel⟩, by decide +kernel⟩,
   ⟨nvt 1 id, 0, aCtl, ⟨by decide, _, rfl, by decide +kernel⟩, by decide +kernel⟩,
   ⟨nvt 1 id, 0, aCtl, ⟨by decide, _, rfl, by decide +kernel⟩, by decide +kernel⟩,
   ⟨nvt 1 id, 0, aCtl, ⟨by decide, _, rfl, by decide +kernel⟩, by decide +kernel, 1, 1, 1, by decide +kernel⟩,
   ⟨nvt 1 id, 0, aCtl, ⟨by decide, _, rfl, by decide +kernel⟩, by decide +kernel, 2, by decide +kernel⟩,
   ⟨nvt 3 id, 0, aCtl, ⟨by decide, _, rfl, by decide +kernel⟩, by decide +kernel⟩,
   ⟨nvt 3 id, 0, aCtl, ⟨by decide, _, rfl, by decide +kernel⟩, by decide +kernel⟩,
   ⟨nvt 1 id, 1, aCtl, admConn, by decide +kernel⟩⟩
theorem test_meets_StorageCommandsComplete_3 :
    (∃ (d : Dev) (conn cid off : Nat) (data : List Byte) (q : NvConn) (c : NvCmd) (r : Nat × Nat), d.nvUp = true ∧
      d.nvConn? conn = some q ∧
      (d.nvt.cmds.find? fun c => c.conn == conn && c.cid == cid && c.op == .write && c.phase == 1) = some c ∧
      (c.r2t.find? fun r => decide (r.1 ≤ off) && decide (off + data.length ≤ r.1 + r.2)) = some r) ∧
    (∃ (d : Dev) (nsid blk : Nat) (x : NvBlk), d.nvBlk? (nsid - 1) blk = some x ∧ d.nvUp = true ∧ 1 ≤ nsid ∧
      x.covers ≠ [] ∧ x.stuck = false ∧ d.ssdReady (d.nsPort x.ns) = true ∧ d.beingWritten x = false) ∧
    (∃ (d : Dev) (id : Nat) (c : SsdCmd), (d.nvt.out.find? fun o => o.id == id) = some c ∧ d.fwRunning = true) ∧
    (∃ (d : Dev) (p : Fin 4), d.ssdReady p = true) ∧
    (∃ (d : Dev) (p : Fin 4), d.fwRunning = true ∧ d.ssdReady p = false) ∧
    (∃ (d : Dev) (r : NvRecord), d.fwRunning = true ∧ d.nvt.record = some r) ∧
    (∃ (d : Dev), d.writable (pgNVT + 0x140) = true) ∧
    (∃ (d : Dev), d.writable (pgNVT + 0x100) = true) :=
  ⟨⟨nvt 1 fun t => { t with cmds := [wrCmd] }, 1, 5, 0, [1], ioConn, wrCmd, (0, 4096), by decide +kernel⟩,
   ⟨nvt 1 fun t => { t with blks := [aBlk] }, 1, 2, aBlk, by decide +kernel⟩,
   ⟨nvt 1 fun t => { t with out := [anSsd] }, 3, anSsd, by decide +kernel⟩,
   ⟨nvt 1 id, 3, by decide +kernel⟩,
   ⟨up, 3, by decide +kernel⟩,
   ⟨nvt 1 fun t => { t with record := some { sanitize := true, act := 2 } }, { sanitize := true, act := 2 },
      by decide +kernel⟩,
   ⟨up, by decide +kernel⟩,
   ⟨up, by decide +kernel⟩⟩

theorem test_meets_OtherArithmeticFormsComplete :
    (∃ (d : Dev) (i : Fin 37) (c : BitVec 4) (ra rb : BitVec 5), let k := d.core i; let a := k.reg ra; d.runs i c ∧
      a.tag = tFP ∧ rb = 0) ∧
    (∃ (d : Dev) (i : Fin 37) (c : BitVec 4) (ra rb : BitVec 5), let k := d.core i; let a := k.reg ra; d.runs i c ∧
      a.tag = tINT ∧ rb = 0) ∧
    (∃ (d : Dev) (i : Fin 37) (c : BitVec 4) (rd ra rb : BitVec 5), let k := d.core i; let a := k.reg ra; let b := k.reg rb; d.runs i c ∧ a.tag = tFP ∧ b.tag = tFP ∧ (k.reg rd).tag = tFP) ∧
    (∃ (d : Dev) (i : Fin 37) (c : BitVec 4) (rd ra rb : BitVec 5), let k := d.core i; let a := k.reg ra; let b := k.reg rb; d.runs i c ∧ a.tag = tFP ∧ b.tag = tFP ∧ rd = 0) ∧
    (∃ (d : Dev) (i : Fin 37) (c : BitVec 4) (ra rb : BitVec 5), let k := d.core i; let a := k.reg ra; let b := k.reg rb; d.runs i c ∧ ∃ f, f2tFormat b.v.toNat = some f ∧ b.tag = tINT ∧ a.tag = tFP) ∧
    (∃ (d : Dev) (i : Fin 37) (c : BitVec 4) (ra rb : BitVec 5), let k := d.core i; let a := k.reg ra; let b := k.reg rb; d.runs i c ∧ ∃ f, f2tFormat b.v.toNat = some f ∧ b.tag = tINT ∧ a.tag = tINT) ∧
    (∃ (d : Dev) (i : Fin 37) (c : BitVec 4) (ra rb : BitVec 5), let k := d.core i; let a := k.reg ra; let b := k.reg rb; d.runs i c ∧ ∃ (fn : BitVec 7) (r : DWord) (fl : NZCV), aluOp (fn.toNat % 64) a.v b.v = some (r, fl) ∧ fn.toNat % 64 ∈ [0, 1] ∧ isAddrTag a.tag = true ∧ b.tag = tINT ∧ ∃ v, withAdr a.tag a.v (adrPlus a.tag a.v (if fn.toNat % 64 = 0 then b.v else -b.v)) = some v) ∧
    (∃ (d : Dev) (i : Fin 37) (c : BitVec 4) (ra rb : BitVec 5), let k := d.core i; let a := k.reg ra; let b := k.reg rb; d.runs i c ∧ ∃ (fn : BitVec 7) (r : DWord) (fl : NZCV), aluOp (fn.toNat % 64) a.v b.v = some (r, fl) ∧ fn.toNat % 64 = 1 ∧ isAddrTag a.tag = true ∧ a.tag = b.tag) ∧
    (∃ (d : Dev) (i : Fin 37) (c : BitVec 4) (rd ra rb : BitVec 5), let k := d.core i; let a := k.reg ra; let b := k.reg rb; d.runs i c ∧ ∃ (fn : BitVec 7) (r : DWord) (fl : NZCV), aluOp (fn.toNat % 64) a.v b.v = some (r, fl) ∧ fn.toNat % 64 = 0x13 ∧ rd = 0 ∧ a.tag = b.tag ∧ (a.tag = tINT ∨ a.tag = tTIDE)) ∧
    (∃ (d : Dev) (i : Fin 37) (c : BitVec 4) (rd ra rb : BitVec 5), let k := d.core i; let a := k.reg ra; let b := k.reg rb; d.runs i c ∧ ∃ (fn : BitVec 7) (r : DWord) (fl : NZCV), aluOp (fn.toNat % 64) a.v b.v = some (r, fl) ∧ fn.toNat % 64 = 0x13 ∧ rd = 0 ∧ a.tag = b.tag ∧ isAddrTag a.tag = true) ∧
    (∃ (d : Dev) (i : Fin 37) (c : BitVec 4) (ra rb : BitVec 5), let k := d.core i; let a := k.reg ra; let b := k.reg rb; d.runs i c ∧ ∃ (fn : BitVec 7) (r : DWord) (fl : NZCV), aluOp (fn.toNat % 64) a.v b.v = some (r, fl) ∧ fn.toNat % 64 ≠ 0x13 ∧ (fn.toNat % 64 ∈ [0x14, 0x15] → rb = 0) ∧ (a.tag = tPOISON ∨ b.tag = tPOISON)) :=
  ⟨⟨cpu 3, 3, 0, 2, 0, ⟨by decide +kernel, by decide +kernel⟩, by decide +kernel⟩,
   ⟨cpu 3, 3, 0, 1, 0, ⟨by decide +kernel, by decide +kernel⟩, by decide +kernel⟩,
   ⟨cpu 3, 3, 0, 10, 2, 10, ⟨by decide +kernel, by decide +kernel⟩, by decide +kernel⟩,
   ⟨cpu 3, 3, 0, 0, 2, 10, ⟨by decide +kernel, by decide +kernel⟩, by decide +kernel⟩,
   ⟨cpu 3, 3, 0, 2, 0, ⟨by decide +kernel, by decide +kernel⟩, (f2tFormat 0).getD fp64, by decide +kernel⟩,
   ⟨cpu 3, 3, 0, 1, 0, ⟨by decide +kernel, by decide +kernel⟩, (f2tFormat 0).getD fp64, by decide +kernel⟩,
   ⟨cpu 3, 3, 0, 3, 1, ⟨by decide +kernel, by decide +kernel⟩, 0, 0x0050000000010005, (addFlags 0x0050000000010000 5),
      by decide +kernel, by decide +kernel, by decide +kernel, by decide +kernel, 0x0050000000010005, by decide +kernel⟩,
   ⟨cpu 3, 3, 0, 3, 3, ⟨by decide +kernel, by decide +kernel⟩, 1, 0, (subFlags 0x0050000000010000 0x0050000000010000),
      by decide +kernel⟩,
   ⟨cpu 3, 3, 0, 0, 1, 9, ⟨by decide +kernel, by decide +kernel⟩, 0x13, 0xfffffffffffffffd, (subFlags 5 8),
      by decide +kernel⟩,
   ⟨cpu 3, 3, 0, 0, 3, 3, ⟨by decide +kernel,
      by decide +kernel⟩, 0x13, 0, (subFlags 0x0050000000010000 0x0050000000010000), by decide +kernel⟩,
   ⟨cpu 3, 3, 0, 7, 1, ⟨by decide +kernel, by decide +kernel⟩, 0, 5, (addFlags 0 5), by decide +kernel⟩⟩

theorem test_meets_EveryStepKeepsTheCanonicalForm :
    ∃ s t : State, s.dev.canonical = true ∧ s.pending ≠ [] ∧ step s = .next t :=
  ⟨⟨dv [(0x8110, 4)], [.registerWrite 0x3100 5]⟩, _, by decide +kernel, by decide, rfl⟩
theorem test_meets_WaitingCommandsAreAllDone : ∃ s : State, s.dev.canonical = true ∧ 2 ≤ s.pending.length :=
  ⟨⟨dv [(0x8110, 4)], [.registerWrite 0x3100 5, .registerWrite 0x3100 6]⟩, by decide +kernel⟩
/-- The worker in tide 5. -/
def wk5 : Dev := td wk fun t => { t with cur := 5 }
theorem test_meets_StaleAndForeignMarksAreDiscarded :
    (∃ (d : Dev) (src : Nat) (t : DWord), d.isWorker = true ∧ d.emhOn = true ∧ d.fwRunning = true ∧ src = d.tide.headDev ∧
      t = d.tide.cur) ∧
    (∃ (d : Dev) (src : Nat) (t : DWord), d.isWorker = true ∧ d.emhOn = true ∧ d.fwRunning = true ∧ src ≠ d.tide.headDev ∧
      ¬ t ≤ d.tide.cur) :=
  ⟨⟨wk5, 2, 5, by decide +kernel⟩,
   ⟨wk5, 3, 6, by decide +kernel⟩⟩
theorem test_meets_GreaterMarksAreTaken :
    (∃ (d : Dev) (t : DWord), d.isWorker = true ∧ d.emhOn = true ∧ d.fwRunning = true ∧ ¬ t ≤ d.tide.cur ∧
      d.b 0x3008 8 = false ∧
      d.slack.startup = false ∧ d.slack.lease = false ∧ d.slack.escal = false ∧ d.slack.cut = false ∧ d.tide.hold = false) ∧
    (∃ (d : Dev) (t : DWord), d.isWorker = true ∧ d.emhOn = true ∧ d.fwRunning = true ∧ ¬ t ≤ d.tide.cur ∧
      d.b 0x3008 8 = true) :=
  ⟨⟨wk5, 6, by decide +kernel⟩,
   ⟨wk5.sb 0x3008 8 true, 6, by decide +kernel⟩⟩
theorem test_meets_NoAdvanceBeforeEveryReport :
    (∃ d : Dev, d.isHead = true ∧ d.tide.dev ∉ d.tide.reports) ∧
    (∃ (d : Dev) (m : Nat), d.isHead = true ∧ m ∈ d.workers ∧ m ∉ d.tide.reports) :=
  ⟨⟨hl, by decide +kernel⟩,
   ⟨td hl fun t => { t with reports := [2] }, 1, by decide +kernel⟩⟩
theorem test_meets_TideIsLoadedOnlyInSlack :
    (∃ d : Dev, d.writable 0x3104 = true ∧ d.slackNow = true ∧ d.anyArmed = false) ∧
    (∃ d : Dev, d.writable 0x3104 = true ∧ d.slackNow = false) ∧
    (∃ d : Dev, d.writable 0x3104 = true ∧ d.slackNow = true ∧ d.anyArmed = true) :=
  ⟨⟨slk up { startup := true }, by decide +kernel⟩,
   ⟨up, by decide +kernel⟩,
   ⟨{ slk up { startup := true } with commits := [(0x10000, { armed := some 7 })] }, by decide +kernel⟩⟩
/-- For each access code a field at the top of a register; for RW the least and the greatest allowed value and the two beyond. -/
theorem test_meets_FieldsAreWrittenByTheirAccessCodes :
    (∃ (f : FieldD) (v old : Nat), old < 2 ^ 32 ∧ f.lo + f.w = 32 ∧ f.acc = .rw ∧ fieldN v f.lo f.w = f.min) ∧
    (∃ (f : FieldD) (v old : Nat), old < 2 ^ 32 ∧ f.lo + f.w = 32 ∧ f.acc = .rw ∧ fieldN v f.lo f.w = f.max) ∧
    (∃ (f : FieldD) (v old : Nat), old < 2 ^ 32 ∧ f.lo + f.w = 32 ∧ f.acc = .rw ∧ fieldN v f.lo f.w + 1 = f.min) ∧
    (∃ (f : FieldD) (v old : Nat), old < 2 ^ 32 ∧ f.lo + f.w = 32 ∧ f.acc = .rw ∧ fieldN v f.lo f.w = f.max + 1) ∧
    (∃ (f : FieldD) (v old i : Nat), old < 2 ^ 32 ∧ f.lo + f.w = 32 ∧ f.acc = .w1c ∧ i + 1 = f.w ∧
      bitN (fieldN v f.lo f.w) i = true) ∧
    (∃ (f : FieldD) (v old i : Nat), old < 2 ^ 32 ∧ f.lo + f.w = 32 ∧ f.acc = .w1s ∧ i + 1 = f.w ∧
      bitN (fieldN v f.lo f.w) i = true) ∧
    (∃ (f : FieldD) (old : Nat), old < 2 ^ 32 ∧ f.lo + f.w = 32 ∧ f.acc = .ro) ∧
    (∃ (f : FieldD) (lo w lo' w' : Nat), f.lo + f.w ≤ 32 ∧ f.lo + f.w = lo ∧ lo' + w' = f.lo ∧ 0 < w ∧ 0 < w') :=
  ⟨⟨⟨28, 4, .rw, 0, 2, 9⟩, 0x20000000, 0, by decide⟩, ⟨⟨28, 4, .rw, 0, 2, 9⟩, 0x90000000, 0, by decide⟩,
   ⟨⟨28, 4, .rw, 0, 2, 9⟩, 0x10000000, 0, by decide⟩, ⟨⟨28, 4, .rw, 0, 2, 9⟩, 0xa0000000, 0, by decide⟩,
   ⟨w1c 28 4, 0x80000000, 0xf0000000, 3, by decide⟩, ⟨w1s 28 4, 0x80000000, 0, 3, by decide⟩, ⟨ro 28 4 0, 0xffffffff,
      by decide⟩,
   ⟨rw 8 4 0, 12, 4, 4, 4, by decide⟩⟩
theorem test_meets_WritesReachTheShadowBank :
    (∃ (d : Dev) (off n : Nat) (b : Blk) (l : List FieldD), off < 0x200000 ∧ off % 4 = 0 ∧
      pageBlk (off / 4096) = some (b, n) ∧
      b ∈ [Blk.xc, .hep, .win] ∧ isBanked off = true ∧ fieldsOf off = some l ∧ d.writable off = true ∧
      d.locked (pageOf off) = false) ∧
    (∃ (d : Dev) (off n : Nat) (b : Blk) (l : List FieldD), off < 0x200000 ∧ off % 4 = 0 ∧
      pageBlk (off / 4096) = some (b, n) ∧
      b ∈ [Blk.xc, .hep, .win] ∧ isBanked off = true ∧ fieldsOf off = some l ∧ d.writable off = true ∧
      d.locked (pageOf off) = true) :=
  ⟨⟨up, 0x10108, 0, .xc, (fieldsOf 0x10108).getD [], by decide +kernel, by decide +kernel, by decide +kernel,
      by decide +kernel,
    by decide +kernel, opt_get (by decide +kernel), by decide +kernel⟩,
   ⟨{ up with commits := [(0x10000, { armed := some 7 })] }, 0x10108, 0, .xc, (fieldsOf 0x10108).getD [], by decide +kernel,
    by decide +kernel, by decide +kernel, by decide +kernel, by decide +kernel, opt_get (by decide +kernel),
      by decide +kernel⟩⟩
theorem test_meets_CommitsCopyTheShadowBank :
    ∃ (d : Dev) (pg n : Nat) (b : Blk), isPage pg = true ∧ pageBlk (pg / 4096) = some (b, n) ∧ b ∈ [Blk.xc, .hep, .win] ∧
      d.writable (pg + 0x38) = true ∧ pageOf (pg + 0x108) = pg ∧ isBanked (pg + 0x108) = true :=
  ⟨up, 0x10000, 0, .xc, by decide +kernel⟩
theorem test_meets_ArmingTakesTheArmedTide :
    (∃ (d : Dev) (pg : Nat), isPage pg = true ∧ d.writable (pg + 0x38) = true ∧ d.isPosted pg = false ∧
      d.mayPost false pg = true ∧
      d.rd (pg + 0x34) ++ d.rd (pg + 0x30) = d.tide.cur ∧ d.slack.startup = true) ∧
    (∃ (d : Dev) (pg : Nat), isPage pg = true ∧ d.writable (pg + 0x38) = true ∧ d.isPosted pg = false ∧
      d.mayPost false pg = true ∧
      ¬ d.rd (pg + 0x34) ++ d.rd (pg + 0x30) ≤ d.tide.cur) :=
  ⟨⟨slk up { startup := true }, 0x10000, by decide +kernel⟩,
   ⟨up.wr 0x10030 1, 0x10000, by decide +kernel⟩⟩
theorem test_meets_SafeStateDropsWrites :
    ∃ (d : Dev) (off : Nat), d.safe = true ∧ d.pageOpen off = true ∧ off < 0x202040 ∧ off % 4 = 0 ∧
      off ∉ [0x5110, 0x5114, 0x5020, 0x5010, 0x5108] :=
  ⟨sf, 0x20203c, by decide +kernel⟩
theorem test_meets_WholeGranuleWrites :
    ∃ (d : Dev) (a : Nat) (l : List Byte), a % 256 = 0 ∧ l.length = 256 ∧ storable a = true ∧ d.siteFailed a = false ∧
      d.injected a 3 = false ∧ d.ckp.gran.get (fun _ => 0) (a / 65536) = 1 :=
  ⟨{ up with ckp := { up.ckp with gran := [(1, 1)] } }, 0x10000, List.replicate 256 1, by decide +kernel⟩
/-- One byte at the end of a granule, and all but the first; one whose granule meets an uncorrectable error. -/
theorem test_meets_PartialWritesAreMerged :
    (∃ (d : Dev) (a : Nat) (l : List Byte), 0 < l.length ∧ l.length < 256 ∧ a % 256 + l.length = 256 ∧ storable a = true ∧
      d.siteFailed a = false ∧ (d.meet a).1.mark (a / 256) = .good) ∧
    (∃ (d : Dev) (a : Nat) (l : List Byte), l.length = 255 ∧ a % 256 + l.length = 256 ∧ storable a = true ∧
      d.siteFailed a = false ∧ d.mark (a / 256) = .bad) ∧
    (∃ (d : Dev) (a : Nat) (l : List Byte), 0 < l.length ∧ l.length < 256 ∧ a % 256 + l.length = 256 ∧ storable a = true ∧
      d.siteFailed a = false ∧ (d.meet a).1.mark (a / 256) = .poison) :=
  ⟨⟨up, 0x100ff, [1], by decide +kernel⟩,
   ⟨{ up with marks := [(0x100, .bad)] }, 0x10001, List.replicate 255 1, by decide +kernel⟩,
   ⟨{ up with upsets := [.dramUe 0 0] }, 0x100ff, [1], by decide +kernel⟩⟩
theorem test_meets_DroppedAndPreservedWrites :
    (∃ (d : Dev) (a : Nat) (l : List Byte), 0 < l.length ∧ a % 256 + l.length = 256 ∧ storable a = true ∧
      d.siteFailed a = true) ∧
    (∃ (d : Dev) (a : Nat) (l : List Byte), 0 < l.length ∧ a % 256 + l.length = 256 ∧ storable a = true ∧
      d.ckp.gran.get (fun _ => 0) (a / 65536) = 1 ∧ d.meets a = [] ∧ d.siteFailed a = false) :=
  ⟨⟨up.sb (siteSts 0) 1 true, 0x100ff, [1], by decide +kernel⟩,
   ⟨{ up with ckp := { up.ckp with gran := [(1, 1)] } }, 0x100ff, [1], by decide +kernel⟩⟩
theorem test_meets_SitesDivideMemory :
    (∃ y : Layout, y.wBase % 65536 = 0 ∧ y.wSize % 65536 = 0) ∧
    (∃ (y : Layout) (a b : Nat), y.wBase % 65536 = 0 ∧ y.wSize % 65536 = 0 ∧ a / 256 = b / 256 ∧ a ≠ b) :=
  ⟨⟨{}, by decide⟩, ⟨{}, 0xff00, 0xffff, by decide⟩⟩
theorem test_meets_RegisterInstructionsChangeOnlyTheirDestination :
    ∃ (d : Dev) (i : Fin 37), registersOnly (.addi i 0 12 1 255) = some (i, [12]) ∧ d.tbOf i = none ∧
      (d.core i).running = true :=
  ⟨cpu 3, 3, by decide +kernel⟩
/-- A finite code, an infinity and a NaN of E5M2, and a NaN of E4M3. -/
theorem test_meets_CodesAreConversionsOfTheirValues :
    (∃ neg m e, e5m2.dec 0x7b = .fin neg m e) ∧ e5m2.dec 0xfc = .inf true ∧ e5m2.dec 0x7d = .nan ∧ e4m3.dec 0xff = .nan ∧
      0xff < 2 ^ e5m2.w ∧ 0xff < 2 ^ e4m3.w :=
  ⟨⟨_, _, _, rfl⟩, by decide +kernel⟩
theorem test_meets_GeneratorsNeverReachZero : (∃ x : Nat, x < 2 ^ 32 ∧ x ≠ 0) ∧ ∃ x y, x < 2 ^ 32 ∧ y < 2 ^ 32 ∧
      srNext x = srNext y :=
  ⟨⟨0xffffffff, by decide⟩, ⟨1, 1, by decide⟩⟩
/-- A call on a sequencer before firmware runs, a call on a service core, a break in a trap. -/
theorem test_meets_SystemCallsAndBreaksTrap :
    (∃ (d : Dev) (i : Fin 37) (c : BitVec 4), d.runs i c ∧ d.tbOf i = none ∧ d.cores.length = 37 ∧
      d.fwRunning = false ∧ i.val = 31) ∧
    (∃ (d : Dev) (i : Fin 37) (c : BitVec 4), d.runs i c ∧ d.tbOf i = none ∧ d.cores.length = 37 ∧
      i.val = 32 ∧ bitN ((d.core i).cr.getD 0 0).toNat 0 = false) ∧
    (∃ (d : Dev) (i : Fin 37) (c : BitVec 4), d.runs i c ∧ d.tbOf i = none ∧ d.cores.length = 37 ∧ i.val = 36 ∧
      bitN ((d.core i).cr.getD 0 0).toNat 0 = true) :=
  ⟨⟨(cpu 31).wr 0x8110 0, 31, 0, ⟨by decide +kernel, by decide +kernel⟩, by decide +kernel⟩,
   ⟨cpu 32, 32, 0, ⟨by decide +kernel, by decide +kernel⟩, by decide +kernel⟩,
   ⟨cpuOf 36 (fun k => { k with cr := [1, 0, 0, 0, 0, 0] }), 36, 0, ⟨by decide +kernel, by decide +kernel⟩,
      by decide +kernel⟩⟩
theorem test_meets_PrivilegedInstructionsTrapOnSequencers :
    ∃ (d : Dev) (i : Fin 37) (c : BitVec 4), i.val = 31 ∧ d.runs i c ∧ d.cores.length = 37 :=
  ⟨cpu 31, 31, 0, by decide, ⟨by decide +kernel, by decide +kernel⟩, by decide +kernel⟩
theorem test_meets_ConditionsGovernInstructions :
    (∃ (d : Dev) (i : Fin 37), (d.core i).running = false) ∧ (∃ d : Dev, d.safe = true) ∧
    (∃ (d : Dev) (i : Fin 37) (c : BitVec 4), (d.core i).running = true ∧ d.safe = false ∧
      condHolds (d.core i) d.tide.cur c = false ∧ d.tbOf i = none) :=
  ⟨⟨up, 3, by decide +kernel⟩, ⟨sf, by decide +kernel⟩,
   ⟨cpu 3, 3, 1, by decide +kernel⟩⟩
/-- A packet for context 5 with each of the seven faults of R372, and otherwise good. -/
theorem test_meets_BadPacketsAreDropped :
    ∃ d : Dev, d.tide.hold = false ∧ d.calm = true ∧ d.emhUp = true ∧ d.b 0x53100 0 = true ∧
      ∀ k ∈ [{ pk 5 0 [] with ver := 2 }, { pk 5 0 [] with domain := 1 },
        { pk 5 0 [] with ddev := 1 }, { pk 5 0 [] with dconn := 4 }, { pk 5 0 [] with sdev := 3 }, { pk 5 0 [] with sconn := 5 },
        { pk 5 0 [] with epoch := 2 }],
      k.op = 5 ∧ k.csumOk = true ∧
      (k.ver ≠ 1 ∨ k.domain ≠ d.g 0x53108 16 16 ∨ k.ddev ≠ d.g 0x53108 0 10 ∨ d.cState k.dconn = 0 ∨
        k.sdev ≠ d.cPeer k.dconn ∨ k.sconn ≠ d.cf k.dconn 6 2 ∨ (k.op ≠ 7 ∧ k.epoch ≠ d.cf k.dconn 3 1)) :=
  ⟨cx 3 0 [] noCtx, by decide +kernel⟩
/-- The least and greatest caps, the values beside them, and 0. -/
theorem test_meets_BaseboardCap :
    ∃ d : Dev, d.pwr.main = true ∧ d.pwr.aon = true ∧ d.fwRunning = true ∧
      (∀ w ∈ [0, 600, 1650], w = 0 ∨ (600 ≤ w ∧ w ≤ 1650)) ∧ ∀ w ∈ [1, 599, 1651], ¬ (w = 0 ∨ (600 ≤ w ∧ w ≤ 1650)) :=
  ⟨{ up with pwr := { up.pwr with main := true, aon := true } }, by decide +kernel⟩
/-- NSID 0, NSID 65, one not VALID, one being removed, one of another host. -/
theorem test_meets_UnattachedNamespacesAreRefused :
    ∃ (d : Dev) (x : NvCtl), d.hosts 1 x true ∧ d.nvt.san < 2 ∧ ∀ n ∈ [0, 65, 2, 3, 4],
      (n = 0 ∨ 64 < n ∨ d.b (nsReg (n - 1) 0x11c) 0 = false ∨ n - 1 ∈ d.nvt.removing ∨
        (d.b (nsReg (n - 1) 0x11c) 4 = false ∧ d.nsHost (n - 1) ≠ x.host)) :=
  ⟨(((nvt 1 fun t => { t with removing := [2] }).wr (nsReg 2 0x11c) 0x11).wr (nsReg 3 0x11c) 1).wr (nsReg 3 0x130) 8, aCtl,
    ⟨by decide +kernel, _, rfl, by decide +kernel⟩, by decide +kernel⟩
/-- A store of each width at its last place in a granule, and of a cell by a sequencer and by a service core. -/
theorem test_meets_StoresChangeOnlyTheirBytes :
    (∃ (d : Dev) (i : Fin 37) (ra : BitVec 5), d.runs i 0 ∧ d.tbOf i = none ∧ d.ckp.copying = [] ∧
      ∀ x ∈ [(1, 255), (2, 254), (4, 252), (8, 248), (16, 240)],
        d.canStore i ((d.core i).reg ra) ((BitVec.ofNat 12 x.2).signExtend 64) x.1 x.1 (0x10000 + x.2) ∧
          d.siteFailed (0x10000 + x.2) = false ∧ d.meets (0x10000 + x.2) = [] ∧ d.mark ((0x10000 + x.2) / 256) ≠ .bad ∧
          d.ckp.gran.get (fun _ => 0) ((0x10000 + x.2) / 65536) ≠ 1) ∧
    (∃ (d : Dev) (i : Fin 37) (ra : BitVec 5), 32 ≤ i.val ∧ d.runs i 0 ∧ d.tbOf i = none ∧ d.ckp.copying = [] ∧
      d.canStore i ((d.core i).reg ra) ((240 : BitVec 12).signExtend 64) 16 16 0x100f0 ∧ d.siteFailed 0x100f0 = false ∧
      d.meets 0x100f0 = [] ∧ d.mark (0x100f0 / 256) ≠ .bad ∧ d.ckp.gran.get (fun _ => 0) (0x100f0 / 65536) ≠ 1) := by
  refine ⟨⟨cpu 3, 3, 3, ⟨by decide +kernel, by decide +kernel⟩, by decide +kernel, by decide +kernel, ?_⟩,
    ⟨cpu 32, 32, 3, by decide, ⟨by decide +kernel, by decide +kernel⟩, by decide +kernel, by decide +kernel,
      ⟨by decide +kernel, by decide +kernel⟩, by decide +kernel⟩⟩
  intro x hx
  simp only [List.mem_cons, List.not_mem_nil, or_false] at hx
  rcases hx with rfl | rfl | rfl | rfl | rfl <;> exact ⟨⟨by decide +kernel, by decide +kernel⟩, by decide +kernel⟩
/-- Nothing waits for a tick, powered and in standby. -/
theorem test_meets_EmptyQueueLetsTimePass : (∃ d : Dev, d.quiet ∧ d.pwr.main = true) ∧ ∃ d : Dev, d.quiet ∧ d.pwr.main = false := by
  have h (d : Dev) (h1 : d.net.wait = [] ∧ d.net.due = [] ∧ d.port.waitReq = [] ∧
      (∀ i, i < 32 → (d.core i).sysWait = false) ∧
      ∀ b, b < 8 → (d.tbuf b).queue = []) (h2 : d.eng = fun n => State.reset.dev.eng n) (h3 : d.found = []) : d.quiet :=
    ⟨h1.1, h1.2.1, h1.2.2.1, h1.2.2.2.1, h1.2.2.2.2, fun n => by rw [h2]; rfl, h3⟩
  exact ⟨⟨{ up with pwr := { up.pwr with main := true } }, h _ (by decide +kernel) rfl rfl, by decide +kernel⟩,
    ⟨{ up with pwr := { up.pwr with main := false } }, h _ (by decide +kernel) rfl rfl, by decide +kernel⟩⟩
/-- A WRITE with every field at its greatest value, and an ACK. -/
theorem test_meets_PacketsAreBigEndianBytes :
    (∃ k : EmhPkt, k.ver < 2 ^ 4 ∧ k.op = 2 ∧ k.path < 2 ^ 3 ∧ k.epoch < 2 ^ 8 ∧ k.domain < 2 ^ 16 ∧ k.sdev < 2 ^ 10 ∧
      k.ddev < 2 ^ 10 ∧ k.dconn < 2 ^ 16 ∧ k.sconn < 2 ^ 16 ∧ k.psn < 2 ^ 32 ∧ k.msn < 2 ^ 32 ∧ k.offset < 2 ^ 32 ∧
      k.mlen < 2 ^ 32 ∧ k.rkey < 2 ^ 32 ∧ k.raddr < 2 ^ 64 ∧ k.rlen < 2 ^ 32 ∧ k.payload.length = 4096) ∧
    ∃ k : EmhPkt, k.ver < 2 ^ 4 ∧ k.op = 15 ∧ k.path < 2 ^ 3 ∧ k.epoch < 2 ^ 8 ∧ k.domain < 2 ^ 16 ∧ k.sdev < 2 ^ 10 ∧
      k.ddev < 2 ^ 10 ∧ k.dconn < 2 ^ 16 ∧ k.sconn < 2 ^ 16 ∧ k.psn < 2 ^ 32 ∧ k.msn < 2 ^ 32 ∧ k.offset < 2 ^ 32 ∧
      k.mlen < 2 ^ 32 ∧ k.rkey < 2 ^ 32 ∧ k.raddr < 2 ^ 64 ∧ k.rlen < 2 ^ 32 ∧ k.payload = [] :=
  ⟨⟨{ ver := 15, op := 2, path := 7, epoch := 255, domain := 65535, sdev := 1023, ddev := 1023, dconn := 65535, sconn := 65535,
      psn := 2 ^ 32 - 1, msn := 2 ^ 32 - 1, offset := 2 ^ 32 - 1, mlen := 2 ^ 32 - 1, rkey := 2 ^ 32 - 1, raddr := 2 ^ 64 - 1,
      rlen := 2 ^ 32 - 1, payload := List.replicate 4096 255 }, by
    dsimp only
    rw [List.length_replicate]
    decide⟩,
   ⟨{ op := 15 }, by decide⟩⟩

/-! ### An ill-formed operand for each check, refused -/
theorem test_illformed_device : (Instr.reportTimeout 1024).wellFormed = false ∧
      (Instr.reportTimeout 1023).wellFormed = true := by decide
theorem test_illformed_tag : (Instr.fwUpdate 65536).wellFormed = false ∧
      (Instr.fwUpdate 65535).wellFormed = true := by decide
theorem test_illformed_pair : (Instr.deleteRings 0 256).wellFormed = false ∧
      (Instr.deleteRings 0 255).wellFormed = true := by decide
theorem test_illformed_page : (Instr.commitArm 0x1004).wellFormed = false ∧
      (Instr.commitArm 0x140000).wellFormed = false := by decide
theorem test_illformed_register : (Instr.loReadLatch 6).wellFormed = false ∧
      (Instr.loReadLatch 0x1000000).wellFormed = false := by decide
theorem test_illformed_connection : (Instr.creditMsg 65536 []).wellFormed = false := by decide
theorem test_illformed_byte : (Instr.nvmeIcreq 0 256 0 false false).wellFormed = false := by decide
theorem test_illformed_word : (Instr.nakResend 0 4294967296).wellFormed = false := by decide
theorem test_illformed_dword : (Instr.nvmeRead 0 0 1 18446744073709551616 1).wellFormed = false := by decide
theorem test_illformed_port : (Instr.ackPkt 8 (pk 5 0 [])).wellFormed = false := by decide
theorem test_illformed_path : (Instr.ackPkt 0 (pk 5 8 [])).wellFormed = false := by decide
theorem test_illformed_payload : (Instr.dataPacket 0 (pk 2 0 (List.replicate 4097 0))).wellFormed = false := by decide +kernel
theorem test_illformed_version : (Instr.ackPkt 0 { pk 5 0 [] with ver := 16 }).wellFormed = false := by decide
theorem test_illformed_domain : (Instr.ackPkt 0 { pk 5 0 [] with domain := 65536 }).wellFormed = false := by decide
theorem test_illformed_function : (Instr.pf0UnsupportedRequest false (.cfg { type1 := false, bus := 1, dev := 0, fn := 8, reg := .vendor, wr := none })).wellFormed = false := by decide
theorem test_illformed_pasid : (Instr.acceleratorRequest 0 false 0 4 [] { pasid := some 1048576 }).wellFormed = false := by decide
theorem test_illformed_message : (Instr.buddyOfferMsg 2 { ctype := 256 }).wellFormed = false := by decide

/-! ### The spec's own worked examples -/
/-- R80's example: scale 0x7D, elements 0x3C and 0x1A: the weight sent to the tiles is 0x3ECA. -/
theorem test_kcb_weight : (bf16.enc (kcbWeight 0x7d 0x3c 0x1a) false none).code = 0x3eca := by decide +kernel
/-- R88's example: FP32 0x3FA6_6666 to FP4: 1.0 (0x2) for a draw of 0x6666, 1.5 (0x3) for 0x6667, 1.5 to the nearest. -/
theorem test_fp4_draws : (e2m1.enc (fp32.dec 0x3fa66666) false (some 0x6666)).code = 2 ∧
    (e2m1.enc (fp32.dec 0x3fa66666) false (some 0x6667)).code = 3 ∧
      (e2m1.enc (fp32.dec 0x3fa66666) false none).code = 3 := by
  decide +kernel
/-- R192's example: the site, its offset and channel of an address of the KV tier. -/
theorem test_site : siteOf {} 0xa345678a40 = (15, 0xa34567a40) ∧ channelOf 0xa34567a40 = 10 := by decide +kernel
/-- The address of the examples of chapter 8: its field of address bits, its bound and its right to write. -/
theorem test_daddr : adrOf 2 0x0050016800040000 = 0x016800040000 ∧ boundS 2 0x0050016800040000 = 16 ∧
    chkAccess 0 ⟨0x0050016800040000, 2⟩ 0xfff8 8 8 true false = .ok 0x01680004fff8 := by decide +kernel
/-- The instruction word written beside `gate g11, g10`. -/
theorem test_gate_word : encA 0 0x1f 11 10 0 0x01 = 0x07d6a001 := by decide
/-- The frames of chapter 14's example count 4,230 bytes. -/
theorem test_frame_length : emhLen { op := 3, payload := List.replicate 4096 0 } false = 4210 ∧
    counted 4210 20 = 4230 := by decide +kernel

end Sys2Proof.Tests.Slice0
end

