-- ==== Sys2Proof/Proofs/Fields.lean ====
section
/-!
PROOF. Proofs/Fields.lean: what a write of one field does, by its access code, and O32.
-/
namespace Sys2Proof

/-- A bit of a field is the bit of the number at its place. -/
theorem bitN_eq_testBit (x i : Nat) : bitN x i = x.testBit i := by
  rw [bitN, fieldN, Nat.testBit_eq_decide_div_mod_eq, Nat.shiftRight_eq_div_pow, Nat.pow_one]
  rfl

/-- Clearing, in a field, the bits where a value of its width has a 1. -/
theorem bitN_and_complement (was : Nat) {x w i : Nat} (hx : x < 2 ^ w) (hi : i < w) :
    bitN (was &&& (2 ^ w - 1 - x)) i = (bitN was i && !bitN x i) := by
  have hsub : 2 ^ w - 1 - x = 2 ^ w - (x + 1) := by omega
  simp only [bitN_eq_testBit, hsub, Nat.testBit_and, Nat.testBit_two_pow_sub_succ hx, hi, decide_true, Bool.true_and]

theorem bitN_or (x y i : Nat) : bitN (x ||| y) i = (bitN x i || bitN y i) := by
  simp only [bitN_eq_testBit, Nat.testBit_or]

namespace Machine

variable {f : FieldD} (v old : Nat)

theorem FieldD.write_rw (h : f.acc = .rw) :
    f.write v old = if f.min ≤ fieldN v f.lo f.w ∧ fieldN v f.lo f.w ≤ f.max
      then setFieldN old f.lo f.w (fieldN v f.lo f.w) else old := by
  simp only [FieldD.write, h]

theorem FieldD.write_w1c (h : f.acc = .w1c) :
    f.write v old = setFieldN old f.lo f.w (fieldN old f.lo f.w &&& (2 ^ f.w - 1 - fieldN v f.lo f.w)) := by
  simp only [FieldD.write, h]

theorem FieldD.write_w1s (h : f.acc = .w1s) :
    f.write v old = setFieldN old f.lo f.w (fieldN old f.lo f.w ||| fieldN v f.lo f.w) := by
  simp only [FieldD.write, h]

theorem FieldD.write_ro (h : f.acc = .ro) : f.write v old = old := by simp only [FieldD.write, h]

theorem FieldD.write_wo (h : f.acc = .wo) : f.write v old = old := by simp only [FieldD.write, h]

/-- A write leaves the register as it was, or replaces this one field. -/
theorem FieldD.write_eq_old_or_setFieldN (f : FieldD) :
    f.write v old = old ∨ ∃ y, f.write v old = setFieldN old f.lo f.w y := by
  cases h : f.acc with
  | rw =>
    rw [FieldD.write_rw v old h]
    split
    · exact .inr ⟨_, rfl⟩
    · exact .inl rfl
  | w1c => exact .inr ⟨_, FieldD.write_w1c v old h⟩
  | w1s => exact .inr ⟨_, FieldD.write_w1s v old h⟩
  | ro => exact .inl (FieldD.write_ro v old h)
  | wo => exact .inl (FieldD.write_wo v old h)

/-- A write of a field within the register keeps the register within its width. -/
theorem FieldD.write_lt {n : Nat} (ho : old < 2 ^ n) (hf : f.lo + f.w ≤ n) : f.write v old < 2 ^ n := by
  obtain h | ⟨y, h⟩ := FieldD.write_eq_old_or_setFieldN v old f
  · rwa [h]
  · rw [h]; exact setFieldN_lt ho hf

/-- A write of a field leaves every field apart from it as it was. -/
theorem FieldD.fieldN_write_other {lo w : Nat} (hd : f.lo + f.w ≤ lo ∨ lo + w ≤ f.lo) :
    fieldN (f.write v old) lo w = fieldN old lo w := by
  obtain h | ⟨y, h⟩ := FieldD.write_eq_old_or_setFieldN v old f
  · rw [h]
  · rw [h, fieldN_setFieldN_other hd]

/-- RW takes a value that is no reserved encoding. -/
theorem FieldD.fieldN_write_rw (h : f.acc = .rw) (hmin : f.min ≤ fieldN v f.lo f.w) (hmax : fieldN v f.lo f.w ≤ f.max) :
    fieldN (f.write v old) f.lo f.w = fieldN v f.lo f.w := by
  rw [FieldD.write_rw v old h, if_pos ⟨hmin, hmax⟩, fieldN_setFieldN, Nat.mod_eq_of_lt (fieldN_lt _ _ _)]

/-- R12: a reserved encoding leaves the field's register as it was. -/
theorem FieldD.write_rw_reserved (h : f.acc = .rw) (hres : fieldN v f.lo f.w < f.min ∨ f.max < fieldN v f.lo f.w) :
    f.write v old = old := by
  rw [FieldD.write_rw v old h, if_neg (by omega)]

theorem FieldD.bitN_write_w1c (h : f.acc = .w1c) {i : Nat} (hi : i < f.w) :
    bitN (fieldN (f.write v old) f.lo f.w) i = (bitN (fieldN old f.lo f.w) i && !bitN (fieldN v f.lo f.w) i) := by
  have hfit : fieldN old f.lo f.w &&& (2 ^ f.w - 1 - fieldN v f.lo f.w) < 2 ^ f.w :=
    Nat.lt_of_le_of_lt Nat.and_le_left (fieldN_lt _ _ _)
  rw [FieldD.write_w1c v old h, fieldN_setFieldN, Nat.mod_eq_of_lt hfit, bitN_and_complement _ (fieldN_lt _ _ _) hi]

theorem FieldD.bitN_write_w1s (h : f.acc = .w1s) (i : Nat) :
    bitN (fieldN (f.write v old) f.lo f.w) i = (bitN (fieldN old f.lo f.w) i || bitN (fieldN v f.lo f.w) i) := by
  have hfit : fieldN old f.lo f.w ||| fieldN v f.lo f.w < 2 ^ f.w :=
    Nat.or_lt_two_pow (fieldN_lt _ _ _) (fieldN_lt _ _ _)
  rw [FieldD.write_w1s v old h, fieldN_setFieldN, Nat.mod_eq_of_lt hfit, bitN_or]

end Machine

open Machine

/-- Settles O32: one lemma for each access code, and that a write replaces at most its own field. -/
theorem fieldsAreWrittenByTheirAccessCodes : Obligations.FieldsAreWrittenByTheirAccessCodes := by
  unfold Obligations.FieldsAreWrittenByTheirAccessCodes
  intro f v old hold hf
  exact ⟨FieldD.write_lt v old hold hf, FieldD.fieldN_write_rw v old, FieldD.write_rw_reserved v old,
    fun h _ => FieldD.bitN_write_w1c v old h, fun h i _ => FieldD.bitN_write_w1s v old h i, FieldD.write_ro v old,
    fun _ _ => FieldD.fieldN_write_other v old⟩

end Sys2Proof
end

