-- ==== Sys2Proof/Proofs/Bytes.lean ====
section
/-!
PROOF. Proofs/Bytes.lean: numbers as little-endian and as big-endian bytes (R6), and O41.
-/
namespace Sys2Proof

theorem leNat_leBytes (x n : Nat) : leNat (leBytes x n) = x % 256 ^ n := by
  induction n generalizing x with
  | zero => simp [leBytes, leNat, Nat.mod_one]
  | succ n ih =>
    calc leNat (leBytes x (n + 1))
      _ = x % 256 + 256 * (x / 256 % 256 ^ n) := by rw [leBytes, leNat, ih, BitVec.toNat_ofNat]
      _ = x % 256 ^ (n + 1) := by rw [← Nat.mod_mul, ← Nat.pow_succ']

/-- Byte `i` of a number. -/
theorem getElem?_leBytes (x : Nat) {n i : Nat} (h : i < n) : (leBytes x n)[i]? = some (BitVec.ofNat 8 (x / 256 ^ i)) := by
  induction n generalizing x i with
  | zero => exact absurd h (Nat.not_lt_zero i)
  | succ n ih =>
    cases i with
    | zero => simp [leBytes]
    | succ i => rw [leBytes, List.getElem?_cons_succ, ih _ (by omega), Nat.div_div_eq_div_mul, Nat.pow_succ']

@[simp] theorem length_beBytes (x n : Nat) : (beBytes x n).length = n := by
  rw [beBytes, List.length_reverse, Laws.leBytes_len]

theorem beNat_beBytes (x n : Nat) : beNat (beBytes x n) = x % 256 ^ n := by
  rw [beNat, beBytes, List.reverse_reverse, leNat_leBytes]

/-- Byte `i` of a number, the most significant byte first. -/
theorem getElem?_beBytes (x : Nat) {n i : Nat} (h : i < n) :
    (beBytes x n)[i]? = some (BitVec.ofNat 8 (x / 256 ^ (n - 1 - i))) := by
  rw [beBytes, List.getElem?_reverse (by rwa [Laws.leBytes_len]), Laws.leBytes_len, getElem?_leBytes x (by omega)]

/-- Settles O41, by induction on the number of bytes. -/
theorem numbersAreLittleEndian : Obligations.NumbersAreLittleEndian := by
  unfold Obligations.NumbersAreLittleEndian
  intro n x
  refine ⟨Laws.leBytes_len x n, leNat_leBytes x n, beNat_beBytes x n, fun i hi => ?_⟩
  rw [List.getD_eq_getElem?_getD, getElem?_leBytes x hi, Option.getD_some, BitVec.toNat_ofNat]

end Sys2Proof
end

