-- ==== Sys2Proof/Proofs/Packets.lean ====
section
/-!
PROOF. Proofs/Packets.lean: an Emham packet as a row of big-endian fields (Tables 14.1 and 14.2), and O54.
-/
namespace Sys2Proof.Machine

/-- Fields of a structure: offset, bytes, value. -/
abbrev Fields := List (Nat × Nat × Nat)

/-- The fields as big-endian bytes, one after another. -/
def Fields.bytes (fs : Fields) : List Byte := fs.flatMap fun f => beBytes f.2.2 f.2.1

/-- The fields stand one behind another from offset `o`. -/
def Fields.rowFrom : Nat → Fields → Prop
  | _, [] => True
  | o, f :: t => f.1 = o ∧ Fields.rowFrom (o + f.2.1) t

/-- Every field of a row is cut out of the bytes at its offset, whatever stands before and behind the row. -/
theorem Fields.cut_of_rowFrom (fs : Fields) : ∀ (a b : List Byte), Fields.rowFrom a.length fs →
    ∀ f ∈ fs, ((a ++ fs.bytes ++ b).drop f.1).take f.2.1 = beBytes f.2.2 f.2.1 := by
  induction fs with
  | nil => intro a b _ f hf; exact absurd hf List.not_mem_nil
  | cons g t ih =>
    intro a b ⟨hg, ht⟩ f hf
    have hsplit : a ++ Fields.bytes (g :: t) ++ b = a ++ (beBytes g.2.2 g.2.1 ++ (Fields.bytes t ++ b)) := by
      simp [Fields.bytes]
    obtain rfl | hf := List.mem_cons.mp hf
    · rw [hsplit, hg, List.drop_left, List.take_left' (length_beBytes _ _)]
    · have hcut := ih (a ++ beBytes g.2.2 g.2.1) b (by rwa [List.length_append, length_beBytes]) f hf
      rwa [hsplit, ← List.append_assoc, ← List.append_assoc]

/-- Where the bytes of a number can be cut out, they stand one by one. -/
theorem getElem?_of_cut {l : List Byte} {o n x i : Nat} (h : (l.drop o).take n = beBytes x n) (hi : i < n) :
    l[o + i]? = some (BitVec.ofNat 8 (x / 256 ^ (n - 1 - i))) := by
  rw [← getElem?_beBytes x hi, ← h, List.getElem?_take_of_lt hi, List.getElem?_drop]

/-- Where the bytes of a number can be cut out, a receiver reads the number. -/
theorem beAt_of_cut {l : List Byte} {o n x : Nat} (h : (l.drop o).take n = beBytes x n) (hx : x < 256 ^ n) :
    beAt l o n = x := by
  rw [beAt, h, beNat_beBytes, Nat.mod_eq_of_lt hx]

theorem beAt_drop (l : List Byte) (a o n : Nat) : beAt (l.drop a) o n = beAt l (a + o) n := by
  rw [beAt, beAt, List.drop_drop]

theorem beAt_nil (o n : Nat) : beAt [] o n = 0 := by
  rw [beAt, List.drop_nil, List.take_nil]; rfl

end Sys2Proof.Machine

namespace Sys2Proof

/-- Every field of the packet fits its place of Tables 14.1 and 14.2. -/
structure EmhPkt.Fits (k : EmhPkt) : Prop where
  ver : k.ver < 2 ^ 4
  op : k.op < 2 ^ 4
  path : k.path < 2 ^ 3
  epoch : k.epoch < 2 ^ 8
  domain : k.domain < 2 ^ 16
  sdev : k.sdev < 2 ^ 10
  ddev : k.ddev < 2 ^ 10
  dconn : k.dconn < 2 ^ 16
  sconn : k.sconn < 2 ^ 16
  psn : k.psn < 2 ^ 32
  msn : k.msn < 2 ^ 32
  offset : k.offset < 2 ^ 32
  mlen : k.mlen < 2 ^ 32
  rkey : k.rkey < 2 ^ 32
  raddr : k.raddr < 2 ^ 64
  rlen : k.rlen < 2 ^ 32
  payload : k.payload.length ≤ 4096

/-- Table 14.1. -/
def EmhPkt.headerFields (k : EmhPkt) : Machine.Fields :=
  [(0, 1, k.ver * 16 + k.op), (1, 1, b2n k.poison + 2 * b2n k.retx), (2, 1, k.path), (3, 1, k.epoch),
    (4, 2, k.domain), (6, 2, k.sdev), (8, 2, k.ddev), (10, 2, k.dconn), (12, 2, k.sconn), (14, 2, k.payload.length),
    (16, 4, k.psn), (20, 4, k.msn), (24, 4, k.offset), (28, 4, k.mlen)]

/-- Table 14.2. -/
def EmhPkt.extensionFields (k : EmhPkt) : Machine.Fields := [(32, 4, k.rkey), (36, 8, k.raddr), (44, 4, k.rlen)]

/-- The fields of the packet: the extension's in a WRITE and a READ_REQ alone (R371). -/
def EmhPkt.fields (k : EmhPkt) : Machine.Fields :=
  if k.op = 2 ∨ k.op = 3 then k.headerFields ++ k.extensionFields else k.headerFields

theorem EmhPkt.Fits.mod_eq {k : EmhPkt} (h : k.Fits) : k.ver % 16 = k.ver ∧ k.op % 16 = k.op ∧ k.path % 8 = k.path ∧
    k.sdev % 1024 = k.sdev ∧ k.ddev % 1024 = k.ddev :=
  ⟨Nat.mod_eq_of_lt h.ver, Nat.mod_eq_of_lt h.op, Nat.mod_eq_of_lt h.path, Nat.mod_eq_of_lt h.sdev, Nat.mod_eq_of_lt h.ddev⟩

theorem EmhPkt.Fits.field_lt {k : EmhPkt} (h : k.Fits) : ∀ f ∈ k.headerFields ++ k.extensionFields, f.2.2 < 256 ^ f.2.1 := by
  obtain ⟨hver, hop, hpath, hepoch, hdomain, hsdev, hddev, hdconn, hsconn, hpsn, hmsn, hoffset, hmlen, hrkey, hraddr, hrlen,
    hpayload⟩ := h
  have hflags : b2n k.poison + 2 * b2n k.retx < 256 := by cases k.poison <;> cases k.retx <;> decide
  simp only [EmhPkt.headerFields, EmhPkt.extensionFields, List.cons_append, List.nil_append, List.forall_mem_cons,
    List.not_mem_nil, false_implies, implies_true, and_true]
  omega

namespace Machine

theorem beBytes_one (x : Nat) : beBytes x 1 = [BitVec.ofNat 8 x] := rfl

theorem Fields.bytes_append (fs gs : Fields) : Fields.bytes (fs ++ gs) = fs.bytes ++ gs.bytes := List.flatMap_append

variable {k : EmhPkt}

theorem pktHeader_eq (h : k.Fits) : pktHeader k = k.headerFields.bytes := by
  simp only [pktHeader, EmhPkt.headerFields, Fields.bytes, List.flatMap_cons, List.flatMap_nil, beBytes_one,
    h.mod_eq, List.append_assoc, List.cons_append, List.nil_append, List.append_nil]

theorem pktExt_eq (k : EmhPkt) : pktExt k = if k.op = 2 ∨ k.op = 3 then k.extensionFields.bytes else [] := by
  simp only [pktExt, EmhPkt.extensionFields, Fields.bytes, List.flatMap_cons, List.flatMap_nil, List.append_assoc,
    List.append_nil]

/-- A packet is its row of fields and its payload. -/
theorem pktWire_eq (h : k.Fits) : pktWire k = k.fields.bytes ++ k.payload := by
  rw [pktWire, pktHeader_eq h, pktExt_eq, EmhPkt.fields]
  split
  · rw [Fields.bytes_append]
  · rw [List.append_nil]

theorem rowFrom_fields (k : EmhPkt) : Fields.rowFrom 0 k.fields := by
  unfold EmhPkt.fields
  split <;> simp [EmhPkt.headerFields, EmhPkt.extensionFields, Fields.rowFrom]

theorem length_bytes_fields (k : EmhPkt) : k.fields.bytes.length = if k.op = 2 ∨ k.op = 3 then 48 else 32 := by
  unfold EmhPkt.fields
  split <;> simp [EmhPkt.headerFields, EmhPkt.extensionFields, Fields.bytes]

theorem cut_pktWire (h : k.Fits) : ∀ f ∈ k.fields, ((pktWire k).drop f.1).take f.2.1 = beBytes f.2.2 f.2.1 := by
  rw [pktWire_eq h]
  exact Fields.cut_of_rowFrom k.fields [] k.payload (rowFrom_fields k)

theorem drop_pktWire (h : k.Fits) : (pktWire k).drop (if k.op = 2 ∨ k.op = 3 then 48 else 32) = k.payload := by
  rw [pktWire_eq h, ← length_bytes_fields, List.drop_left]

/-- A receiver reads every field of the header where it stands. -/
theorem beAt_header (h : k.Fits) : ∀ f ∈ k.headerFields, beAt (pktWire k) f.1 f.2.1 = f.2.2 := by
  intro f hf
  refine beAt_of_cut (cut_pktWire h f ?_) (h.field_lt f (List.mem_append_left _ hf))
  unfold EmhPkt.fields
  split
  · exact List.mem_append_left _ hf
  · exact hf

/-- A receiver of a WRITE or a READ_REQ reads every field of the extension where it stands. -/
theorem beAt_extension (h : k.Fits) (hop : k.op = 2 ∨ k.op = 3) :
    ∀ f ∈ k.extensionFields, beAt (pktWire k) f.1 f.2.1 = f.2.2 := by
  intro f hf
  refine beAt_of_cut (cut_pktWire h f ?_) (h.field_lt f (List.mem_append_right _ hf))
  rw [EmhPkt.fields, if_pos hop]
  exact List.mem_append_right _ hf

theorem bitN_flags (p r : Bool) : bitN (b2n p + 2 * b2n r) 0 = p ∧ bitN (b2n p + 2 * b2n r) 1 = r := by
  revert p r; decide

/-- A packet as its bytes give it, with what no byte carries (log entry 20). -/
theorem pktReceived_eq (h : k.Fits) :
    pktReceived k = if k.op = 2 ∨ k.op = 3 then k else { k with rkey := 0, raddr := 0, rlen := 0 } := by
  have hdrop := drop_pktWire h
  have hheader := beAt_header h
  simp only [EmhPkt.headerFields, List.forall_mem_cons] at hheader
  obtain ⟨hver, hflags, hpath, hepoch, hdomain, hsdev, hddev, hdconn, hsconn, hlen, hpsn, hmsn, hoffset, hmlen, -⟩ := hheader
  have hop' : (k.ver * 16 + k.op) % 16 = k.op := by have := h.op; omega
  have hver' : (k.ver * 16 + k.op) / 16 = k.ver := by have := h.op; omega
  simp only [pktReceived, emhOf, hver, hflags, hpath, hepoch, hdomain, hsdev, hddev, hdconn, hsconn, hlen, hpsn, hmsn, hoffset,
    hmlen, hop', hver', bitN_flags, h.mod_eq]
  by_cases hr : k.op = 2 ∨ k.op = 3
  · have hext := beAt_extension h hr
    simp only [EmhPkt.extensionFields, List.forall_mem_cons] at hext
    obtain ⟨hrkey, hraddr, hrlen, -⟩ := hext
    simp only [if_pos hr] at hdrop ⊢
    simp only [beAt_drop, Nat.reduceAdd, hrkey, hraddr, hrlen, hdrop, List.take_length]
  · simp only [if_neg hr] at hdrop ⊢
    simp only [beAt_nil, Nat.add_zero, hdrop, List.take_length]

end Machine

open Machine

/-- Settles O54: the wire is a row of fields, each of which can be cut out at its offset; its bytes and what a receiver
reads both follow from the cut. NOTIFY, IMM, the addresses and the checksum are no bytes of the packet: that the receiver has
them too is the model's choice (log entry 20). -/
theorem packetsAreBigEndianBytes : Obligations.PacketsAreBigEndianBytes := by
  unfold Obligations.PacketsAreBigEndianBytes
  intro k hver hop hpath hepoch hdomain hsdev hddev hdconn hsconn hpsn hmsn hoffset hmlen hrkey hraddr hrlen hpayload
  have h : k.Fits := ⟨hver, hop, hpath, hepoch, hdomain, hsdev, hddev, hdconn, hsconn, hpsn, hmsn, hoffset, hmlen, hrkey,
    hraddr, hrlen, hpayload⟩
  exact ⟨fun f hf i hi => getElem?_of_cut (cut_pktWire h f hf) hi, drop_pktWire h, pktReceived_eq h⟩

end Sys2Proof
end

