-- ==== Sys2Proof/Proofs/Registers.lean ====
section
/-!
PROOF. Proofs/Registers.lean: the commands on registers, each with what it does where its page serves writes, and O1.
-/
namespace Sys2Proof.Machine

variable {d : Dev}

/-- A command on a register of a block's page acts where the page exists and writes reach the register. -/
theorem Dev.onPageReg_pos {pg k : Nat} (f : Dev → Dev) (hp : isPage pg = true) (hw : d.writable k = true) :
    (d.when (isPage pg) fun d => d.onReg k f) = f d :=
  (Dev.when_pos _ hp).trans (Dev.onReg_pos f hw)

/-! ### What the writes do -/

theorem Dev.softWrite_of_writable {fw : Bool} {k : Nat} (v : Nat) (hw : d.writable k = true)
    (h : k < 0x200000 ∨ d.safe = true) : d.softWrite fw k v = d.regWrite fw k v := by
  have hreg : ¬ (0x200000 ≤ k ∧ (!d.safe) = true) := by
    rintro ⟨hk, hs⟩
    obtain h | h := h
    · omega
    · simp [h] at hs
  rw [Dev.softWrite, if_neg hreg, Dev.onReg_pos _ hw]

/-- The MSI-X table and pending bits are served whatever LOAD_STS.STATE, but in safe state (R265, R511). -/
theorem Dev.softWrite_msix {fw : Bool} {k : Nat} (v : Nat) (hk : 0x200000 ≤ k) (hs : d.safe = false) :
    d.softWrite fw k v = d.regWrite fw k v := by
  rw [Dev.softWrite, if_pos ⟨hk, by rw [hs]; rfl⟩]

theorem Dev.softRead_latches {k : Nat} (ho : d.pageOpen k = true) (hl : latches k = true) :
    (d.softRead k).2 =
      { d with latch := Map.ins (fun _ => 0) (k + 4) (BitVec.ofNat 32 (d.pairNow k / 2 ^ 32)) d.latch } := by
  rw [Dev.softRead, ho, Bool.not_true, Bool.and_false, if_neg Bool.false_ne_true, Dev.regRead, if_pos hl]

theorem Dev.armCommit_pos {fw : Bool} {pg : Nat} (hp : d.isPosted pg = false) (hm : d.mayPost fw pg = true) :
    d.armCommit fw pg = d.commitArm pg (d.armTide pg) := by
  rw [Dev.armCommit, hp, hm]; rfl

theorem Dev.commitNow_pos {fw : Bool} {pg : Nat} (hp : d.isPosted pg = false) (hm : d.mayPost fw pg = true) :
    d.commitNow fw pg = (d.setCommit pg { d.commit pg with armed := none, late := false, wdrop := false }).activate pg := by
  rw [Dev.commitNow, hp, hm]; rfl

/-- CTL.EN reads 1 in the blocks R504 names, and SRP's is the firmware's (R514): the host's write leaves it. -/
theorem Dev.enWrite_fixed {pg n : Nat} {b : Blk} (v : Bool) (hb : pageBlk (pg / 4096) = some (b, n))
    (hf : b ∈ [Blk.gen, .tide, .sec, .err, .trc, .cnt, .fwr, .srp]) : d.enWrite pg false v = d := by
  rw [Dev.enWrite, hb]
  cases b with
  | gen | tide | sec | err | trc | cnt | fwr | srp => rfl
  | pwr | clk | xc | mpd | hep | ap | net | pkt | tsq | emh | nvt | ckp | cov | win | dma => exact absurd hf (by decide)

theorem Dev.enWrite_free {pg n : Nat} {b : Blk} (v : Bool) (hb : pageBlk (pg / 4096) = some (b, n))
    (hf : b ∉ [Blk.gen, .tide, .sec, .err, .trc, .cnt, .fwr, .srp]) : d.enWrite pg false v = d.sb (pg + 8) 0 v := by
  rw [Dev.enWrite, hb]
  cases b with
  | gen | tide | sec | err | trc | cnt | fwr | srp => exact absurd (by decide) hf
  | pwr | clk | xc | mpd | hep | ap | net | pkt | tsq | emh | nvt | ckp | cov | win | dma => rfl

theorem Dev.freezeWrite_pos {pg : Nat} {fw : Bool} (v : Bool) (hp : isPage pg = true) (hs : pg ≠ pgSRP) :
    d.freezeWrite pg fw v = d.sb (pg + 8) 1 v := by
  rw [Dev.freezeWrite, if_neg fun h => hs h.1, if_pos hp]

theorem Dev.safeWrite_slack {pg : Nat} {v : Bool} (hp : isPage pg = true) (hs : d.slackNow = true)
    (hv : v ≠ d.b (pg + 8) 2) : d.safeWrite pg v = d.sb (pg + 8) 2 v := by
  rw [Dev.safeWrite, hp, if_neg (by simpa using hv), if_pos hs]

theorem Dev.intSet_eq {pg : Nat} (v : Nat) {m : List FieldD} (hm : fieldsOf (pg + 0x20) = some m) :
    d.intSet pg v = d.wr (pg + 0x20) (d.rd (pg + 0x20) ||| BitVec.ofNat 32 (v &&& maskOf m)) := by
  rw [Dev.intSet, hm]

/-! ### The commands -/

theorem does_registerWrite {off : Nat} {v : Word} {e : Dev} (h1 : off < 0x202040) (h2 : off % 4 = 0)
    (h : d.softWrite false off v.toNat = e) : Does (.registerWrite off v) d e := by
  refine does_of (exec_registerWrite off v) ?_
  rw [Dev.when_pos _ (by simp [h1, h2]), h]

theorem does_loReadLatch {off : Nat} {e : Dev} (hl : latches off = true) (h : (d.softRead off).2 = e) :
    Does (.loReadLatch off) d e :=
  does_of (exec_loReadLatch off) ((Dev.when_pos _ hl).trans h)

end Sys2Proof.Machine

namespace Sys2Proof
open Machine

/-- Settles O1: each command reaches its register, and the write of that register is one of the cases above. -/
theorem registerCommandsComplete : Obligations.RegisterCommandsComplete := by
  unfold Obligations.RegisterCommandsComplete
  refine ⟨?_, ?_, ?_, ?_, ?_, ?_, ?_, ?_, ?_, ?_, ?_⟩
  · intro d off v h1 h2 hw h
    exact does_registerWrite h1 h2 (Dev.softWrite_of_writable _ hw h)
  · intro d off v hk h1 h2 hs
    exact does_registerWrite h1 h2 (Dev.softWrite_msix _ hk hs)
  · intro d off _ hl ho
    exact does_loReadLatch hl (Dev.softRead_latches ho hl)
  · intro d pg hp hw hn hm
    exact does_of (exec_commitArm pg) ((Dev.onPageReg_pos _ hp hw).trans (Dev.armCommit_pos hn hm))
  · intro d pg hp hw hn hm
    exact does_of (exec_commitNow pg) ((Dev.onPageReg_pos _ hp hw).trans (Dev.commitNow_pos hn hm))
  · intro d pg hp hw
    exact does_of (exec_commitCancel pg) (Dev.onPageReg_pos _ hp hw)
  · intro d pg n b en hp hb hf hw
    exact does_of (exec_hctlEnWrite pg en) ((Dev.onPageReg_pos _ hp hw).trans (Dev.enWrite_free en hb hf))
  · intro d pg n b en hp hb hf hw
    exact does_of (exec_hctlEnWrite pg en) ((Dev.onPageReg_pos _ hp hw).trans (Dev.enWrite_fixed en hb hf))
  · intro d pg f hp hs hw
    exact does_of (exec_hctlFreezeWrite pg f) ((Dev.onPageReg_pos _ hp hw).trans (Dev.freezeWrite_pos f hp hs))
  · intro d pg b hp hs hw hb
    exact does_of (exec_hctlSafeWrite pg b) ((Dev.onPageReg_pos _ hp hw).trans (Dev.safeWrite_slack hp hs hb))
  · intro d pg v m hp hw hm
    exact does_of (exec_intSetWrite pg v) ((Dev.onPageReg_pos _ hp hw).trans (Dev.intSet_eq _ hm))

end Sys2Proof
end

