-- ==== Sys2Proof/Proofs/Reset.lean ====
section
/-!
PROOF. Proofs/Reset.lean: the state right after reset, and O25.
-/
namespace Sys2Proof.Machine

/-- A list of equal elements reads that element everywhere, behind its end too where it is the default. -/
theorem getD_replicate_default {α : Type} (n i : Nat) (a : α) : (List.replicate n a).getD i a = a := by
  rw [List.getD_eq_getElem?_getD, List.getElem?_replicate]
  split
  · rw [Option.getD_some]
  · rw [Option.getD_none]

theorem reset_core (i : Nat) : State.reset.dev.core i = {} := getD_replicate_default _ _ _

@[simp] theorem Core.default_reg (j : BitVec 5) : ({} : Core).reg j = {} := by
  unfold Core.reg
  split
  · rfl
  · exact getD_replicate_default _ _ _

theorem reset_rd (k : Nat) : State.reset.dev.rd k = regReset k := rfl
theorem reset_rdA (k : Nat) : State.reset.dev.rdA k = regReset k := rfl

/-- LOAD_STS (R265). -/
theorem regReset_loadSts : regReset 0x8110 = 0 := by decide

theorem reset_loadState : State.reset.dev.loadState = 0 := by
  rw [Dev.loadState, Dev.g, reset_rd, regReset_loadSts]; rfl

end Sys2Proof.Machine

namespace Sys2Proof
open Machine

/-- Settles O25: no map lists anything at reset, so every register reads its reset value, and lists of equal elements read
that element everywhere. -/
theorem resetState : Obligations.ResetState := by
  unfold Obligations.ResetState
  refine ⟨rfl, rfl, fun i j => ?_, rfl, rfl, reset_loadState, fun k => ⟨reset_rd k, reset_rdA k⟩, fun n hn => ?_, rfl⟩
  · rw [reset_core]
    exact ⟨Core.default_reg j, rfl⟩
  · exact List.getElem?_replicate_of_lt hn

end Sys2Proof
end

