-- ==== Sys2Proof/Proofs/Tide.lean ====
section
/-!
PROOF. Proofs/Tide.lean: the tide reached, marks taken up or held, reports and edges; O29 and O2.
-/
namespace Sys2Proof.Machine

variable {d e : Dev} {n : DWord}

/-! ### What stands -/

theorem sameMem_of_eq (hmem : e.mem = d.mem) (hmarks : e.marks = d.marks) : sameMem d e :=
  ⟨fun a => congrArg (fun m : Map Byte => m.get (fun _ => 0) a) hmem,
    fun g => congrArg (fun m : Map Mark => m.get (fun _ => Mark.good) g) hmarks⟩

theorem sameRegsBut_of_eq (l : List Nat) (hregs : e.regs = d.regs) : sameRegsBut l d e :=
  fun k _ _ => congrArg (fun m : Map Word => m.get regReset k) hregs

theorem sameRegsBut_inc (k : Nat) : sameRegsBut [k] d (d.inc k) :=
  fun _ hj _ => Laws.inc_rd_other d fun h => hj (List.mem_singleton.2 h)

/-! ### The tide reaches a value (R43, R60) -/

theorem Dev.reach_tide (l : List Nat) (h : d.tide.cur ≠ n) : (d.reach n l).tide =
    { d.tide with prev := d.tide.cur, cur := n, hold := true, done := [], reported := false, reports := l
                  tmoSeen := [], held := none, leaseHeld := none } := by
  rw [Dev.reach, if_neg h, if_neg h]; rfl

theorem Dev.rd_reach (n : DWord) (l : List Nat) :
    (d.reach n l).rd (pgTIDE + 0x800) = d.rd (pgTIDE + 0x800) + 1 :=
  Laws.inc_rd _ _

theorem Dev.sameRegsBut_reach (n : DWord) (l : List Nat) : sameRegsBut [pgTIDE + 0x800] d (d.reach n l) :=
  sameRegsBut_inc (pgTIDE + 0x800)

theorem Dev.sameMem_reach (n : DWord) (l : List Nat) : sameMem d (d.reach n l) := sameMem_of_eq rfl rfl

/-! ### A mark of the headland at a worker (R22, R24, R50) -/

/-- The device out of a stop, with NEXT at the value of a mark (R24). -/
def Dev.heading (d : Dev) (n : DWord) : Dev :=
  { d with slack := { d.slack with stop := false }, tide := { d.tide with next := n } }

/-- A mark is taken up at once where no slack but a stop holds, and no boundary is being applied. -/
theorem Dev.applyMark_pos (n : DWord) (hstartup : d.slack.startup = false) (hlease : d.slack.lease = false)
    (hescal : d.slack.escal = false) (hcut : d.slack.cut = false) (hhold : d.tide.hold = false) :
    d.applyMark n = (d.heading n).reach n [] := by
  simp only [Dev.applyMark, Dev.heading, hstartup, hlease, hescal, hcut, hhold, Bool.false_and, Bool.or_self,
    Bool.false_eq_true, if_false]

/-- The device with a mark of its headland received: its message is taken, and a stop it was about to make is off (R24). -/
def Dev.marked (d : Dev) (a : Bool) (n : DWord) : Dev :=
  { d.taking d.tide.headDev { ctype := 1, announce := a, tide := n } with tide := { d.tide with stopping := false } }

theorem does_greaterMark (a : Bool) (hemh : d.emhOn = true) (hfw : d.fwRunning = true) (hw : d.isWorker = true)
    (hn : d.tide.cur < n) : Does (.tideMarkMsg d.tide.headDev a n) d
      (if a && d.b (pgTIDE + 8) 8 then
        { d.marked a n with tide := { (d.marked a n).tide with held := some n, next := n } }
      else (d.marked a n).applyMark n) := by
  refine does_of (exec_tideMarkMsg d.tide.headDev a n) ?_
  have hhead : ¬ d.isHead = true := Bool.eq_false_iff.1 (Laws.nothead_of_worker hw)
  rw [Laws.ctlIn_pos hemh hfw (Laws.conf_of_worker hw) (.inl rfl), Laws.taking_isHead, if_neg hhead, Laws.taking_tide,
    if_neg (not_not_intro rfl), if_neg (BitVec.not_le.2 hn)]
  rfl

theorem does_takenMark {a : Bool} (hemh : d.emhOn = true) (hfw : d.fwRunning = true) (hw : d.isWorker = true)
    (hn : d.tide.cur < n) (ha : (a && d.b (pgTIDE + 8) 8) = false) :
    Does (.tideMarkMsg d.tide.headDev a n) d ((d.marked a n).applyMark n) := by
  have h := does_greaterMark a hemh hfw hw hn
  rwa [if_neg (Bool.eq_false_iff.1 ha)] at h

theorem does_heldMark (hemh : d.emhOn = true) (hfw : d.fwRunning = true) (hw : d.isWorker = true)
    (hn : d.tide.cur < n) (hsbt : d.b (pgTIDE + 8) 8 = true) : Does (.tideMarkMsg d.tide.headDev true n) d
      { d.marked true n with tide := { (d.marked true n).tide with held := some n, next := n } } := by
  have h := does_greaterMark true hemh hfw hw hn
  rwa [if_pos (by rw [hsbt]; rfl)] at h

/-! ### The edges of SB_TIDE at a worker (R50, R51) -/

/-- The device with the level of SB_TIDE turned over. -/
def Dev.sbTideTurned (d : Dev) : Dev := { d with tide := { d.tide with level := !d.tide.level } }

theorem does_sbTideEdge (soon : Bool) (hw : d.isWorker = true) (hsbt : d.b (pgTIDE + 8) 8 = true) (hfw : d.fwRunning = true)
    (hs : d.safe = false) : Does (.sbTideEdge soon) d
      (if soon then (d.sbTideTurned.inc (pgTIDE + 0x814)).setErr pgTIDE 2
      else match d.tide.held with
        | some n => d.sbTideTurned.applyMark n
        | none => d.sbTideTurned.inc (pgTIDE + 0x80c)) := by
  refine does_of (exec_sbTideEdge soon) ?_
  have hguard : (d.sbTideTurned.isWorker && d.sbTideTurned.b (pgTIDE + 8) 8 && d.sbTideTurned.fwRunning &&
      !d.sbTideTurned.safe) = true := by
    change (d.isWorker && d.b (pgTIDE + 8) 8 && d.fwRunning && !d.safe) = true
    rw [hw, hsbt, hfw, hs]; rfl
  simp only [Laws.nothead_of_worker hw, Bool.false_and, Bool.false_eq_true, if_false]
  exact Dev.when_pos _ hguard

/-! ### Reports and the advance at the headland (R44) -/

theorem does_tideReportMsg {src : Nat} (hemh : d.emhOn = true) (hfw : d.fwRunning = true) (hh : d.isHead = true)
    (hsrc : src ∈ d.workers) (hnew : src ∉ d.tide.reports) (hstartup : d.slack.startup = false) :
    Does (.tideReportMsg src d.tide.cur) d
      { d.taking src { ctype := 2, dev := src, tide := d.tide.cur } with
        tide := { d.tide with reports := d.tide.reports ++ [src] } } := by
  refine does_of (exec_tideReportMsg src d.tide.cur) ?_
  have hguard : (d.isHead && d.workers.contains src && d.tide.cur == d.tide.cur && !d.tide.reports.contains src
      && (!d.slack.startup || d.tide.start.isSome)) = true := by simp [hh, hsrc, hnew, hstartup]
  rw [Laws.ctlIn_pos hemh hfw (Laws.conf_of_head hh) (.inl rfl)]
  exact Dev.when_pos _ hguard

/-- With no member to be included, the marks of an advance go to the workers. -/
theorem does_tideAdvance (hh : d.isHead = true) (hlive : d.live = true) (hslack : d.slackNow = false)
    (hpend : d.tide.pending = true) (hlt : d.tide.cur < d.tide.next) (hwait : d.waitingReports = [])
    (hgate : d.gated d.tide.next = false) (hann : d.tide.announced = false) (hincl : d.tide.including = []) :
    Does .tideAdvance d
      (let e := d.each d.workers fun w e => e.sendCtl w { ctype := 1, announce := d.b (pgTIDE + 8) 8, tide := d.tide.next }
       ({ e with tide := { e.tide with pending := false, announced := d.b (pgTIDE + 8) 8 } } : Dev).reach d.tide.next []) := by
  have hguard : (d.isHead && d.live && !d.slackNow && d.tide.pending && decide (d.tide.cur < d.tide.next)
      && d.waitingReports.isEmpty && !d.gated d.tide.next && !d.tide.announced) = true := by
    simp [hh, hlive, hslack, hpend, hlt, hwait, hgate, hann]
  refine does_of exec_tideAdvance ((Dev.when_pos _ hguard).trans ?_)
  simp only [hincl, List.filter_nil, List.map_nil, List.append_nil]

end Sys2Proof.Machine

namespace Sys2Proof
open Machine

/-- Settles O29: a worker that is in no slack but a stop reaches the mark's value, and the boundary's beginning changes the
tide and its count alone; an announcement changes the held mark and NEXT. -/
theorem greaterMarksAreTaken : Obligations.GreaterMarksAreTaken := by
  unfold Obligations.GreaterMarksAreTaken
  intro d ann t hw hemh hfw hle
  have ht : d.tide.cur < t := BitVec.not_le.1 hle
  refine ⟨fun hann hstartup hlease hescal hcut hhold => ?_, fun hann hsbt => ?_⟩
  · have hdoes := does_takenMark hemh hfw hw ht (Bool.and_eq_false_iff.2 hann)
    rw [Dev.applyMark_pos (d := d.marked ann t) t hstartup hlease hescal hcut hhold] at hdoes
    have htide := Dev.reach_tide (d := (d.marked ann t).heading t) [] (BitVec.ne_of_lt ht)
    exact ⟨_, hdoes, congrArg Tide.cur htide, congrArg Tide.prev htide, congrArg Tide.hold htide, congrArg Tide.done htide,
      congrArg Tide.reported htide, congrArg Tide.next htide, rfl, Dev.rd_reach t [], Dev.sameRegsBut_reach t [],
      Dev.sameMem_reach t [], rfl, rfl⟩
  · subst hann
    exact ⟨_, does_heldMark hemh hfw hw ht hsbt, rfl, rfl, rfl, rfl, sameRegsBut_of_eq [] rfl, sameMem_of_eq rfl rfl⟩

/-- Settles O2: each command's condition holds in the state given, and its effect is the one named; a mark and an edge by the
lemmas above. -/
theorem marksAndReportsComplete : Obligations.MarksAndReportsComplete := by
  unfold Obligations.MarksAndReportsComplete
  refine ⟨?_, ?_, ?_, ?_, ?_, ?_, ?_, ?_, ?_, ?_, ?_, ?_⟩
  · intro d a n hemh hfw hw hn ha
    exact does_takenMark hemh hfw hw hn ha
  · intro d n hemh hfw hw hn hsbt
    exact does_heldMark hemh hfw hw hn hsbt
  · intro d hw hfw hs hrep hhold hstartup hstop hheld hlease
    exact does_of exec_markTimeout (Dev.when_pos _ (by simp [hw, hfw, hs, hrep, hhold, hstartup, hstop, hheld, hlease]))
  · intro d n hw hsbt hfw hs hheld
    have h := does_sbTideEdge false hw hsbt hfw hs
    rwa [hheld] at h
  · intro d hw hsbt hfw hs hheld
    have h := does_sbTideEdge false hw hsbt hfw hs
    rwa [hheld] at h
  · intro d hw hsbt hfw hs
    exact does_sbTideEdge true hw hsbt hfw hs
  · intro d hh hsbt hann hs
    exact does_of exec_sbTideDrive (Dev.when_pos _ (by simp [hh, hsbt, hann, hs]))
  · intro d n hheld hs
    exact does_of exec_edgeMissTimeout (by simp only [hheld, hs, Bool.false_eq_true, if_false])
  · intro d src hemh hfw hh hsrc hnew hstartup
    exact does_tideReportMsg hemh hfw hh hsrc hnew hstartup
  · intro d hh hlive hslack hpend hlt hwait hgate hann hincl
    exact does_tideAdvance hh hlive hslack hpend hlt hwait hgate hann hincl
  · intro d dev hh hfw hs hrep hwait hnew
    exact does_of (exec_reportTimeout dev) (Dev.when_pos _ (by simp [hh, hfw, hs, hrep, hwait, hnew]))
  · intro d req dev o hs hfind
    exact does_of (exec_controlReplyTimeout req dev) (by simp only [hfind, hs, Bool.false_eq_true, if_false])

end Sys2Proof
end

