-- ==== Sys2Proof/Proofs/Loading.lean ====
section
/-!
PROOF. Proofs/Loading.lean: the loading of an image, the doorbells of a pair, and the admin commands that make rings, the
interface, the domain and the layout; O7.
-/
namespace Sys2Proof.Machine

variable {d : Dev}

/-! ### An image checked (R268, R269) -/

/-- A check passed: the image is copied to slot A and starts. -/
theorem Dev.imageChecked_passed (a size : Nat) : d.imageChecked a size 0 =
    (let f := { d with fw := { d.fw with verifying := false } }
     ((Dev.copyGranules f a (slotBase false) ((size + 255) / 256 * 256)).startImage false (imageOf (Dev.bytes f a 256))).s
       0x8110 0 4 3) := rfl

/-- A check failed, but for the signature's: its code stands in LOAD_STS with state 5. -/
theorem Dev.imageChecked_failed (a size : Nat) {n : Nat} (h0 : n ≠ 0) (h2 : n ≠ 2) : d.imageChecked a size n =
    (let f := { d with fw := { d.fw with verifying := false } }
     ((Dev.s f 0x8110 0 4 5).s 0x8110 8 8 n).setErr pgFWR 0) := by
  rw [Dev.imageChecked, if_pos h0, if_neg h2]

theorem does_imageVerified {e : Dev} {ok bad : Bool} (hst : d.loadState = 2) (hs : d.safe = false)
    (hread : d.imageRead (d.rd64 0x8100 % 2 ^ 48) (d.g 0x8108 0 26) = (bad, e)) : Does (.imageVerified ok) d
      (e.imageChecked (d.rd64 0x8100 % 2 ^ 48) (d.g 0x8108 0 26)
        (e.imageCheck (d.rd64 0x8100 % 2 ^ 48) (d.g 0x8108 0 26) bad ok)) := by
  refine does_of (exec_imageVerified ok) ((Dev.when_pos _ (by simp [hst, hs])).trans ?_)
  simp only [hread]

/-! ### The registers of loading and the doorbells (R267, R270, R513) -/

theorem Dev.loadGo_pos (hst : d.loadState = 1 ∨ d.loadState = 5) (hcode : d.g 0x8110 8 8 ≠ 7) :
    d.loadGo = { (d.s 0x8110 0 4 2).s 0x8110 8 8 0 with fw := { d.fw with verifying := true } } :=
  Dev.when_pos _ (by simpa [hcode] using hst)

theorem Dev.adminGo_pos (hfw : d.fwRunning = true) (hoff : d.b 0x8110 4 = false) : d.adminGo = d.adminOn :=
  Dev.when_pos _ (by simp [hfw, hoff])

theorem Dev.sqTail_of_lt {q v : Nat} (hdb : d.doorbell q = true) (hv : v % 65536 < 2 ^ (d.ring q).sqLog) :
    d.sqTail q v = d.setRing q { d.ring q with sqTail := v % 65536 } :=
  (Dev.when_pos _ hdb).trans (if_neg (Nat.not_le.2 hv))

theorem Dev.sqTail_of_le {q v : Nat} (hdb : d.doorbell q = true) (hv : 2 ^ (d.ring q).sqLog ≤ v % 65536) :
    d.sqTail q v = d.ringError q 1 :=
  (Dev.when_pos _ hdb).trans (if_pos hv)

/-- A head within the entries written moves the head; of a pair but pair 0 nothing follows. -/
theorem Dev.cqHead_pos {q v : Nat} (hdb : d.doorbell q = true) (hq : q ≠ 0) (hv : v % 65536 < 2 ^ (d.ring q).cqLog)
    (hbound : (v % 65536 + 2 ^ (d.ring q).cqLog - (d.ring q).cqHead) % 2 ^ (d.ring q).cqLog ≤
      ((d.ring q).cqTail + 2 ^ (d.ring q).cqLog - (d.ring q).cqHead) % 2 ^ (d.ring q).cqLog) :
    d.cqHead q v = d.setRing q { d.ring q with cqHead := v % 65536 } := by
  refine (Dev.when_pos _ hdb).trans ((if_neg ?_).trans (if_neg hq))
  exact not_or.2 ⟨Nat.not_le.2 hv, Nat.not_lt.2 hbound⟩

/-! ### Admin commands (R270, R273) -/

/-- A command of pair 0 fetched does what its row does. -/
theorem does_admin {i : Instr} {cid opc : Nat} {c : Cmd} {f : Cmd → Dev → Dev} {e : Dev}
    (hexec : ∀ s, exec i s = lift (fun d => d.admin cid opc f) s) (hcmd : d.cmd? 0 cid opc = some c) (h : f c d = e) :
    Does i d e :=
  does_of hexec ((Laws.admin_pos f hcmd).trans h)

end Sys2Proof.Machine

namespace Sys2Proof
open Machine

/-- Settles O7: an image's check has passed or failed, a doorbell is within its ring or not, and a fetched command passes the
checks of its row. -/
theorem loadingAndRingCommandsComplete : Obligations.LoadingAndRingCommandsComplete := by
  unfold Obligations.LoadingAndRingCommandsComplete
  refine ⟨?_, ?_, ?_, ?_, ?_, ?_, ?_, ?_, ?_, ?_, ?_, ?_, ?_, ?_, ?_⟩
  · intro d hw hst hcode
    exact does_of exec_loadGo ((Dev.onReg_pos _ hw).trans (Dev.loadGo_pos hst hcode))
  · intro d e ok bad hst hs hread hcheck
    have h := does_imageVerified (ok := ok) hst hs hread
    rwa [hcheck, Dev.imageChecked_passed] at h
  · intro d e ok bad n hst hs hread hcheck hn
    have h := does_imageVerified (ok := ok) hst hs hread
    simp only [List.mem_cons, List.not_mem_nil, or_false, not_or] at hn
    obtain ⟨h0, h2⟩ := hn
    rwa [hcheck, Dev.imageChecked_failed _ _ h0 h2] at h
  · intro d hst hs
    exact does_of exec_firmwareRunning (Dev.when_pos _ (by simp [hst, hs]))
  · intro d hw hfw hoff
    exact does_of exec_adminGo ((Dev.onReg_pos _ hw).trans (Dev.adminGo_pos hfw hoff))
  · intro d q v hdb hv
    exact does_of (exec_sqTailWrite q v) (Dev.sqTail_of_lt hdb hv)
  · intro d q v hdb hv
    exact does_of (exec_sqTailWrite q v) (Dev.sqTail_of_le hdb hv)
  · intro d q v hdb hq hv hbound
    exact does_of (exec_cqHeadWrite q v) (Dev.cqHead_pos hdb hq hv hbound)
  · intro d q hf hne hfree
    exact does_of (exec_commandFetch q) (Dev.when_pos _ (by simp [hf, hne, hfree]))
  · intro d cid c hcmd hmaj hrsv hmay hlen hbuf
    refine does_admin (exec_negotiate cid) hcmd ?_
    simp [hmaj, hrsv, hmay, Nat.not_lt.2 hlen, hbuf]
  · intro d cid c hcmd hexp hren
    refine does_admin (exec_resume cid) hcmd (if_pos ?_)
    rw [hexp, hren]; rfl
  · intro d cid p sb sl cb cl v o c hcmd hok
    exact does_admin (exec_createRings cid p sb sl cb cl v o) hcmd (if_pos hok)
  · intro d cid p c hcmd hge hle hen
    exact does_admin (exec_deleteRings cid p) hcmd (if_pos ⟨hge, hle, hen⟩)
  · intro d cid dom dev hd xl xs xa n xc ms c hcmd hslack hms hex
    refine does_admin (exec_configDomain cid dom dev hd ms xl xs xa n xc) hcmd ?_
    simp [hslack, hms, hex]
  · intro d cid w k s b x c hcmd hslack hrun hlay
    refine does_admin (exec_setLayout cid w k s b x) hcmd ?_
    simp [hslack, hrun, hlay]

end Sys2Proof
end

