-- ==== Sys2Proof/Proofs/Marks.lean ====
section
/-!
PROOF. Proofs/Marks.lean: marks discarded, the advance that waits for reports, and the tide loaded; O28, O30 and O31.
-/
namespace Sys2Proof.Machine

variable {d e : Dev} {n : DWord}

/-! ### Marks that are discarded (R22, R46) -/

/-- The counter of the marks that a worker discards from a source: STALE_CNT for its headland, SOURCE_DROP for any other. -/
def Dev.discardCount (d : Dev) (src : Nat) : Nat := if src = d.tide.headDev then pgTIDE + 0x804 else pgTIDE + 0x808

/-- A mark that does not come from the headland, or is not greater than the current tide, is counted. -/
theorem does_discardedMark {src : Nat} (a : Bool) (hemh : d.emhOn = true) (hfw : d.fwRunning = true)
    (hw : d.isWorker = true) (hd : src = d.tide.headDev ∧ n ≤ d.tide.cur ∨ src ≠ d.tide.headDev) :
    Does (.tideMarkMsg src a n) d
      ((d.taking src { ctype := 1, announce := a, tide := n }).inc (d.discardCount src)) := by
  refine does_of (exec_tideMarkMsg src a n) ?_
  have hhead : ¬ d.isHead = true := Bool.eq_false_iff.1 (Laws.nothead_of_worker hw)
  rw [Laws.ctlIn_pos hemh hfw (Laws.conf_of_worker hw) (.inl rfl), Laws.taking_isHead, if_neg hhead, Laws.taking_tide,
    Dev.discardCount]
  obtain ⟨hsrc, hn⟩ | hsrc := hd
  · rw [if_neg (not_not_intro hsrc), if_pos hn, if_pos hsrc]
  · rw [if_pos hsrc, if_neg hsrc]

/-! ### The advance waits for every report (R44, R45) -/

/-- A member whose report has not come is awaited. -/
theorem Dev.waitingReports_ne_nil {m : Nat} (hh : d.isHead = true) (hm : m = d.tide.dev ∨ m ∈ d.workers)
    (hr : m ∉ d.tide.reports) : d.waitingReports ≠ [] := by
  rw [Dev.waitingReports, if_pos hh]
  exact List.ne_nil_of_mem (List.mem_filter.2 ⟨List.mem_cons.2 hm, by simpa using hr⟩)

/-- While an answer is awaited no advance takes place. -/
theorem does_noAdvance (h : d.waitingReports ≠ []) : Does .tideAdvance d d := by
  refine does_of exec_tideAdvance (Laws.when_neg _ ?_)
  simp [h]

/-! ### The tide loaded (R47, R512) -/

theorem Dev.curLoad_pos (v : Word) (hs : d.slackNow = true) (ha : d.anyArmed = false) :
    d.curLoad v = d.loadTide (v ++ d.tide.stage) := by
  rw [Dev.curLoad, hs, ha]; rfl

theorem Dev.curLoad_refused (v : Word) (h : d.slackNow = false ∨ d.anyArmed = true) :
    d.curLoad v = d.configRefused pgTIDE (some 4) 0x104 := by
  rw [Dev.curLoad, if_neg]
  obtain hs | ha := h
  · simp [hs]
  · simp [ha]

/-- A refused write is recorded: the tide, but for its hold, and the commits stand. -/
theorem Dev.configRefused_restS (pg : Nat) (bit : Option Nat) (off : Nat) : (d.configRefused pg bit off).restS = d.restS :=
  Dev.report_restS d pg bit _ _ _ _

theorem reports_of_restS {x : Dev} (h : x.restS = d.restS) : x.tide.reports = d.tide.reports := by
  have hreports := congrArg (fun e : Dev => e.tide.reports) h
  exact hreports

theorem does_tideCurLoad {v : Word} (hw : d.writable (pgTIDE + 0x104) = true) (h : d.curLoad v = e) :
    Does (.tideCurLoad v) d e :=
  does_of (exec_tideCurLoad v) ((Dev.onReg_pos _ hw).trans h)

end Sys2Proof.Machine

namespace Sys2Proof
open Machine

/-- Settles O28: a worker counts the mark, in STALE_CNT or in SOURCE_DROP, once its message is taken. -/
theorem staleAndForeignMarksAreDiscarded : Obligations.StaleAndForeignMarksAreDiscarded := by
  unfold Obligations.StaleAndForeignMarksAreDiscarded
  intro d src ann t hw hemh hfw hd
  refine ⟨_, does_discardedMark ann hemh hfw hw hd, rfl, rfl, rfl, sameMem_of_eq rfl rfl, rfl, rfl, fun h => ?_, fun h => ?_⟩
  · rw [Dev.discardCount, if_pos h]
    exact ⟨Laws.inc_rd _ _, sameRegsBut_inc _⟩
  · rw [Dev.discardCount, if_neg h]
    exact ⟨Laws.inc_rd _ _, sameRegsBut_inc _⟩

/-- Settles O30: the member whose report is missing is awaited, and an advance needs that none is. -/
theorem noAdvanceBeforeEveryReport : Obligations.NoAdvanceBeforeEveryReport := by
  unfold Obligations.NoAdvanceBeforeEveryReport
  intro d m hh hm hr
  exact does_noAdvance (Dev.waitingReports_ne_nil hh hm hr)

/-- Settles O31: in slack with no armed commit the load takes place; else it is refused, and what a report of an error changes
leaves the tide's value, its reports and the commits. That reports and signals are void after a load is the model's choice
(log entries 17 and 24). -/
theorem tideIsLoadedOnlyInSlack : Obligations.TideIsLoadedOnlyInSlack := by
  unfold Obligations.TideIsLoadedOnlyInSlack
  intro d v hw
  refine ⟨fun hs ha => ?_, fun h => ?_⟩
  · exact ⟨_, does_tideCurLoad hw (Dev.curLoad_pos v hs ha), rfl, fun hne => if_neg hne, rfl, rfl, rfl, rfl, rfl,
      sameRegsBut_of_eq [] rfl, sameMem_of_eq rfl rfl, rfl⟩
  · have hrest := Dev.configRefused_restS (d := d) pgTIDE (some 4) 0x104
    exact ⟨_, does_tideCurLoad hw (Dev.curLoad_refused v h), cur_of_restS hrest,
      reports_of_restS hrest, commits_of_restS hrest⟩

end Sys2Proof
end

