-- ==== Sys2Proof/Proofs/Start.lean ====
section
/-!
PROOF. Proofs/Start.lean: the boundary, the start of a domain, the registers of TIDE and the seeds; O3.
-/
namespace Sys2Proof.Machine

variable {d e : Dev} {cid src : Nat} {t : DWord}

/-! ### The start of a domain (R48) -/

/-- DOMAIN_START at a headland in start-up slack with workers sends START to each of them. -/
theorem does_domainStart {c : Cmd} (hcmd : d.cmd? 0 cid 0x0014 = some c) (hh : d.isHead = true)
    (hstart : d.tide.start = none) (hs : d.slack.startup = true) (hw : d.workers ≠ []) : Does (.domainStart cid) d
      (let e := (d.hold c).each d.workers fun w e => e.sendCtl w { ctype := 16, tide := e.tide.cur }
       { e with tide := { e.tide with start := some (cid, d.tide.cur, d.workers, []) } }) := by
  refine does_of (exec_domainStart cid) ((Laws.headCmd_pos _ hcmd hh).trans ?_)
  have hne : d.workers.isEmpty = false := List.isEmpty_eq_false_iff.2 hw
  simp only [hstart, hs, hne, Option.isSome_none, Bool.not_true, Bool.false_eq_true, if_false]

/-- START of the tide that a worker in start-up slack has is agreed to, and start-up slack is left. -/
theorem does_startMsg (hemh : d.emhOn = true) (hfw : d.fwRunning = true) (hw : d.isWorker = true)
    (hs : d.slack.startup = true) : Does (.startMsg d.tide.headDev false d.tide.cur) d
      (let e := (d.taking d.tide.headDev { ctype := 16, tide := d.tide.cur }).sendCtl d.tide.headDev
         { ctype := 17, dev := d.tide.dev, tide := d.tide.cur }
       ({ e with tide := { e.tide with startS := some d.tide.cur, restart := false } } : Dev).begin) := by
  refine does_of (exec_startMsg d.tide.headDev false d.tide.cur) ?_
  rw [Laws.ctlIn_pos hemh hfw (Laws.conf_of_worker hw) (.inr rfl),
    Dev.when_pos _ ((Laws.taking_isWorker ..).trans hw), if_neg Bool.false_ne_true]
  simp only [Laws.taking_slack, Laws.taking_tide, hs, beq_self_eq_true, Bool.and_self, Bool.not_true, if_true]

/-- A worker that agrees is taken from those awaited. -/
theorem does_startAckMsg {wait ag : List Nat} (hemh : d.emhOn = true) (hfw : d.fwRunning = true)
    (hconf : d.tide.configured = true) (hstart : d.tide.start = some (cid, t, wait, ag)) (hsrc : src ∈ wait) :
    Does (.startAckMsg src false t) d
      (let x := d.taking src { ctype := 17, dev := src, tide := t }
       if (wait.erase src).isEmpty then ({ x with tide := { d.tide with start := none } } : Dev).begin.complete 0 cid 0 0
       else { x with tide := { d.tide with start := some (cid, t, wait.erase src, ag ++ [src]) } }) := by
  refine does_of (exec_startAckMsg src false t) ?_
  rw [Laws.ctlIn_pos hemh hfw hconf (.inl rfl)]
  simp only [Laws.taking_tide, hstart, List.contains_iff_mem.2 hsrc, beq_self_eq_true, Bool.and_self, Bool.not_true,
    Bool.false_eq_true, if_false]

/-- A worker that does not answer in time fails the command: those that agreed are told. -/
theorem does_domainStartTimeout {w : Nat} {ws ag : List Nat} (hstart : d.tide.start = some (cid, t, w :: ws, ag))
    (hs : d.safe = false) : Does .domainStartTimeout d
      (let e := d.each ag fun w e => e.sendCtl w { ctype := 16, refuse := true, tide := t }
       ({ e with tide := { e.tide with start := none, reports := [] } } : Dev).complete 0 cid 0x0012 w) := by
  refine does_of exec_domainStartTimeout ?_
  simp only [hstart, hs, Bool.false_eq_true, if_false, Dev.startFail]

/-! ### The registers of TIDE, and the seeds (R88, R132, R512) -/

theorem Dev.sbtWrite_slack {en : Bool} (hs : d.slackNow = true) (hne : en ≠ d.b (pgTIDE + 8) 8) :
    d.sbtWrite en = d.sb (pgTIDE + 8) 8 en := by
  rw [Dev.sbtWrite, if_neg hne, if_pos hs]

theorem Dev.seedWrite_toNat (c : Nat) (vec : Bool) (x : Word) : d.seedWrite c vec x.toNat =
    (let e := d.wr (pgXC c + if vec then 0x110 else 0x10c) x
     { e with xc := { e.xc with gen := e.xc.gen.set (2 * c + b2n vec) (BitVec.ofNat 32 (srSeed x.toNat)) } }) := by
  rw [Dev.seedWrite, BitVec.ofNat_toNat, BitVec.setWidth_eq]

end Sys2Proof.Machine

namespace Sys2Proof
open Machine

/-- Settles O3: each command's condition holds in the state given, and its effect is the one named. What a load of the tide
makes void, and NEXT after it, are the model's choice (log entries 17 and 24). -/
theorem boundaryAndStartComplete : Obligations.BoundaryAndStartComplete := by
  unfold Obligations.BoundaryAndStartComplete
  refine ⟨?_, ?_, ?_, ?_, ?_, ?_, ?_, ?_, ?_, ?_⟩
  · intro d hhold hfw hs
    exact does_of exec_boundaryApply (Dev.when_pos _ (by rw [hhold, hfw, hs]; rfl))
  · intro d cid c hcmd hh hstart hs hw
    exact does_domainStart hcmd hh hstart hs hw
  · intro d hemh hfw hw hs
    exact does_startMsg hemh hfw hw hs
  · intro d cid src ag t hemh hfw hconf hstart
    have h := does_startAckMsg hemh hfw hconf hstart (List.mem_singleton_self src)
    rwa [List.erase_cons_head] at h
  · intro d cid src w ws ag t hemh hfw hconf hstart
    have h := does_startAckMsg hemh hfw hconf hstart (List.mem_cons_self ..)
    rwa [List.erase_cons_head] at h
  · intro d cid w ws ag t hstart hs
    exact does_domainStartTimeout hstart hs
  · intro d v hw
    exact does_of (exec_tideCurLoStage v) (Dev.onReg_pos _ hw)
  · intro d v hw hs ha
    exact does_tideCurLoad hw (Dev.curLoad_pos v hs ha)
  · intro d en hw hs hne
    exact does_of (exec_tideSbtEnWrite en) ((Dev.onReg_pos _ hw).trans (Dev.sbtWrite_slack hs hne))
  · intro d c vec x hw
    exact does_of (exec_srSeedWrite c vec x) ((Dev.onReg_pos _ hw).trans (Dev.seedWrite_toNat c vec x))

end Sys2Proof
end

