-- ==== Sys2Proof/Proofs/Commits.lean ====
section
/-!
PROOF. Proofs/Commits.lean: commits armed and taking effect, and writes to the shadow banks of XC, HEP and WIN; O33, O34 and
O35.
-/
namespace Sys2Proof.Machine

variable {d : Dev} {pg : Nat}

/-! ### COMMIT (R53 to R56) -/

theorem does_commitArm (hp : isPage pg = true) (hw : d.writable (pg + 0x38) = true) (hposted : d.isPosted pg = false)
    (hmay : d.mayPost false pg = true) : Does (.commitArm pg) d (d.commitArm pg (d.armTide pg)) :=
  does_of (exec_commitArm pg) ((Dev.onPageReg_pos _ hp hw).trans (Dev.armCommit_pos hposted hmay))

theorem does_commitNow (hp : isPage pg = true) (hw : d.writable (pg + 0x38) = true) (hposted : d.isPosted pg = false)
    (hmay : d.mayPost false pg = true) : Does (.commitNow pg) d
      ((d.setCommit pg { d.commit pg with armed := none, late := false, wdrop := false }).activate pg) :=
  does_of (exec_commitNow pg) ((Dev.onPageReg_pos _ hp hw).trans (Dev.commitNow_pos hposted hmay))

theorem Dev.commit_setCommit_same (d : Dev) (pg : Nat) (c : Commit) : (d.setCommit pg c).commit pg = c := by
  rw [Laws.commit_set, if_pos rfl]

theorem Dev.commit_setCommit_other (d : Dev) {pg p : Nat} (c : Commit) (h : p ≠ pg) :
    (d.setCommit pg c).commit p = d.commit p := by
  rw [Laws.commit_set, if_neg h]

/-- The shadow bank of a page with an armed commit is locked (R55). -/
theorem Dev.locked_of_armed {t : DWord} (h : (d.commit pg).armed = some t) : d.locked pg = true := by
  rw [Dev.locked, h]; rfl

/-- What arming leaves: the commit armed at `t` (R53). -/
theorem Dev.commit_commitArm (d : Dev) (pg : Nat) (t : DWord) : (d.commitArm pg t).commit pg =
    { d.commit pg with
      armed := some t, wdrop := false, skip := d.tide.hold
      late := decide (t ≤ d.tide.cur) && !(d.slack.startup && t == d.tide.cur) } :=
  Dev.commit_setCommit_same d pg _

/-- R54: which commit is late. -/
theorem late_iff (s : Bool) (t cur : DWord) :
    (decide (t ≤ cur) && !(s && t == cur)) = true ↔ t ≤ cur ∧ ¬ (s = true ∧ t = cur) := by
  simp only [Bool.and_eq_true, Bool.not_eq_true', decide_eq_true_eq, ← beq_iff_eq (a := t), ← Bool.not_eq_true]

/-! ### The banks of XC, HEP and WIN (R52, R55, R56) -/

/-- Only the pages of the DMA engines stand at index 0x100 and above (Table 20.1). -/
theorem pageBlk_lt_of_ne_dma {p n : Nat} {b : Blk} (h : pageBlk p = some (b, n)) (hb : b ≠ .dma) : p < 0x100 := by
  refine Nat.lt_of_not_le fun hge => ?_
  unfold pageBlk at h
  rw [if_neg (by omega), if_neg (by omega), if_neg (by omega), if_neg (by omega), if_neg (by omega), if_neg (by omega),
    if_neg (by omega)] at h
  split at h
  · exact hb (Prod.mk.inj (Option.some.inj h)).1.symm
  · exact absurd h nofun

theorem engOf_eq_none {n : Nat} {b : Blk} (h : pageBlk (pg / 4096) = some (b, n)) (hb : b ≠ .dma) : engOf pg = none := by
  have hlt := pageBlk_lt_of_ne_dma h hb
  exact if_neg (by omega)

theorem ne_dma_of_copied {b : Blk} (h : b ∈ [Blk.xc, .hep, .win]) : b ≠ .dma := by
  rintro rfl; exact absurd h (by decide)

theorem Dev.isPosted_of_engOf (h : engOf pg = none) : d.isPosted pg = false := by rw [Dev.isPosted, h]

theorem Dev.mayPost_of_engOf {fw : Bool} (h : engOf pg = none) : d.mayPost fw pg = true := by rw [Dev.mayPost, h]

/-- A commit of XC, HEP or WIN that takes effect copies the bank of its page and counts; that of WIN changes the coves
too (R333). -/
theorem Dev.activate_eq {n : Nat} {b : Blk} (hb : pageBlk (pg / 4096) = some (b, n)) (hc : b ∈ [Blk.xc, .hep, .win]) :
    ∃ cv : Map Cove, d.activate pg = (({ d with coves := cv } : Dev).copyBank pg).setCommit pg
      { d.commit pg with armed := none, seq := (d.commit pg).seq + 1 } := by
  unfold Dev.activate
  rw [hb]
  simp only [List.mem_cons, List.not_mem_nil, or_false] at hc
  obtain rfl | rfl | rfl := hc
  · exact ⟨d.coves, rfl⟩
  · exact ⟨d.coves, rfl⟩
  · exact ⟨_, rfl⟩

/-- The double-banked registers of XC, HEP and WIN are of the block's own, and are not the seeds. -/
theorem offset_of_isBanked {k n : Nat} {b : Blk} (hb : pageBlk (k / 4096 % 4096) = some (b, n))
    (hc : b ∈ [Blk.xc, .hep, .win]) (h : isBanked k = true) :
    0x100 ≤ k % 4096 ∧ (b = .xc → k % 4096 ≠ 0x10c ∧ k % 4096 ≠ 0x110) := by
  unfold isBanked at h
  rw [hb] at h
  simp only [List.mem_cons, List.not_mem_nil, or_false] at hc
  obtain rfl | rfl | rfl := hc
  · simp only [Bool.or_eq_true, Bool.and_eq_true, beq_iff_eq, decide_eq_true_eq] at h
    exact ⟨by omega, fun _ => by omega⟩
  · simp only [beq_iff_eq] at h
    exact ⟨by omega, nofun⟩
  · simp only [Bool.and_eq_true, decide_eq_true_eq] at h
    exact ⟨h.1, nofun⟩

/-- A write of such a register writes its fields, or meets the lock (R52, R55). -/
theorem Dev.regWrite_banked {fw : Bool} {off n : Nat} {b : Blk} (v : Nat) (hoff : off < 0x200000)
    (hb : pageBlk (off / 4096) = some (b, n)) (hc : b ∈ [Blk.xc, .hep, .win]) (hbank : isBanked off = true) :
    d.regWrite fw off v = d.writeReg off v := by
  obtain ⟨hpage, hmod⟩ := Laws.pageOf_lt hoff
  obtain ⟨ho, hseed⟩ := offset_of_isBanked (hmod.symm ▸ hb) hc hbank
  unfold Dev.regWrite
  rw [if_neg (by omega)]
  dsimp only
  rw [hpage, hb]
  dsimp only
  rw [if_neg (by omega), if_neg (by omega), if_neg (by omega), if_neg (by omega)]
  simp only [List.mem_cons, List.not_mem_nil, or_false] at hc
  obtain rfl | rfl | rfl := hc
  · obtain ⟨h1, h2⟩ := hseed rfl
    exact (if_neg h1).trans (if_neg h2)
  · rfl
  · rfl

/-- A locked shadow bank discards the write and sets WDROP (R55). -/
theorem Dev.writeReg_locked {k : Nat} (v : Nat) (hbank : isBanked k = true) (hl : d.locked (pageOf k) = true) :
    d.writeReg k v = d.setCommit (pageOf k) { d.commit (pageOf k) with wdrop := true } := by
  rw [Dev.writeReg, hbank, hl]; rfl

/-- A shadow bank that is not locked takes the write (R52). -/
theorem Dev.writeReg_unlocked {k : Nat} {l : List FieldD} (v : Nat) (hl : d.locked (pageOf k) = false)
    (hf : fieldsOf k = some l) (hk : k % 4096 ≠ 0x10) :
    d.writeReg k v = d.wr k (BitVec.ofNat 32 (l.foldl (fun a f => f.write v a) (d.rd k).toNat)) := by
  rw [Dev.writeReg, hl, Bool.and_false, if_neg Bool.false_ne_true, Dev.writeFields, hf]
  exact if_neg fun h => hk h.1

theorem sameRegsBut_wr (k : Nat) (v : Word) : sameRegsBut [k] d (d.wr k v) :=
  fun _ hj _ => Dev.rd_wr_other _ _ fun h => hj (List.mem_singleton.2 h.symm)

end Sys2Proof.Machine

namespace Sys2Proof
open Machine

/-- Settles O33: the write changes the fields of its register, or meets the lock of its bank and sets WDROP. -/
theorem writesReachTheShadowBank : Obligations.WritesReachTheShadowBank := by
  unfold Obligations.WritesReachTheShadowBank
  intro d off n b l v hoff h4 hb hc hbank hf hw
  obtain ⟨ho, -⟩ := offset_of_isBanked ((Laws.pageOf_lt hoff).2.symm ▸ hb) hc hbank
  have hwrite := (Dev.softWrite_of_writable v.toNat hw (.inl hoff)).trans
    (Dev.regWrite_banked (fw := false) v.toNat hoff hb hc hbank)
  cases hl : d.locked (pageOf off) with
  | false =>
    rw [Dev.writeReg_unlocked v.toNat hl hf (by omega)] at hwrite
    exact ⟨_, does_registerWrite (by omega) h4 hwrite, fun _ => rfl, sameMem_of_eq rfl rfl,
      fun _ => ⟨Dev.rd_wr_same _ _ _, sameRegsBut_wr _ _, rfl⟩, nofun⟩
  | true =>
    rw [Dev.writeReg_locked v.toNat hbank hl] at hwrite
    exact ⟨_, does_registerWrite (by omega) h4 hwrite, fun _ => rfl, sameMem_of_eq rfl rfl, nofun,
      fun _ => ⟨sameRegsBut_of_eq [] rfl, Dev.commit_setCommit_same _ _ _⟩⟩

/-- Settles O34: the bank of the page is copied, and its commit is retired and counted. -/
theorem commitsCopyTheShadowBank : Obligations.CommitsCopyTheShadowBank := by
  unfold Obligations.CommitsCopyTheShadowBank
  intro d pg n b hp hb hc hw
  have heng := engOf_eq_none hb (ne_dma_of_copied hc)
  have hdoes := does_commitNow hp hw (Dev.isPosted_of_engOf heng) (Dev.mayPost_of_engOf heng)
  obtain ⟨cv, hact⟩ := Dev.activate_eq
    (d := d.setCommit pg { d.commit pg with armed := none, late := false, wdrop := false }) hb hc
  rw [hact, Dev.commit_setCommit_same] at hdoes
  refine ⟨_, hdoes, fun k hk hbank => ?_, fun k hk => ?_, sameRegsBut_of_eq [] rfl, sameMem_of_eq rfl rfl,
    Dev.commit_setCommit_same _ _ _, fun p hne => ?_⟩
  · exact (Laws.copyBank_rdA _ pg k).trans (if_pos ⟨hk, hbank⟩)
  · exact (Laws.copyBank_rdA _ pg k).trans (if_neg fun h => hk.elim (· h.1) fun hk => by simp [hk] at h)
  · exact (Dev.commit_setCommit_other _ _ hne).trans (Dev.commit_setCommit_other d _ hne)

/-- Settles O35: arming sets the commit of its page alone. -/
theorem armingTakesTheArmedTide : Obligations.ArmingTakesTheArmedTide := by
  unfold Obligations.ArmingTakesTheArmedTide
  intro d pg hp hw hposted hmay
  have hcommit := Dev.commit_commitArm d pg (d.armTide pg)
  have harmed := congrArg Commit.armed hcommit
  refine ⟨_, does_commitArm hp hw hposted hmay, harmed, ?_, congrArg Commit.wdrop hcommit,
    (congrArg Commit.seq hcommit).trans rfl, Dev.locked_of_armed harmed, fun p hne => Dev.commit_setCommit_other d _ hne,
    fun _ => rfl, sameRegsBut_of_eq [] rfl, sameMem_of_eq rfl rfl⟩
  rw [congrArg Commit.late hcommit]
  exact late_iff d.slack.startup (d.armTide pg) d.tide.cur

end Sys2Proof
end

