-- ==== Sys2Proof/Proofs/Control.lean ====
section
/-!
PROOF. Proofs/Control.lean: control transfers, the tide's instructions, control registers and SYS; O11.
-/
namespace Sys2Proof.Machine

variable {d e : Dev} {i : Fin 37} {c : BitVec 4} {ins : Instr} {p : Bool} {w : Nat} {f : Core → Dev → Iss}

/-! ### An instruction of a core that runs -/

section
variable (hexec : ∀ s, exec ins s = lift (fun x => x.insn i c p w f) s) (hr : d.runs i c) (hp : p = true → 32 ≤ i.val)
include hexec hr hp

theorem does_insn_done (hf : f (d.core i) (d.issuing i c) = .done e) : Does ins d (e.retire i (d.core i).pc) :=
  does_of hexec (insn_done hr hp hf)

theorem does_insn_with {k : Core} (hf : f (d.core i) (d.issuing i c) = .done ((d.issuing i c).setCore i k)) :
    Does ins d ((d.issuing i c).retireWith i k) :=
  does_of hexec (insn_with hr hp hf)

theorem does_insn_goto {pc : DWord} (hf : f (d.core i) (d.issuing i c) = .goto e pc) : Does ins d (e.branched i pc) :=
  does_of hexec (insn_goto hr hp hf)

theorem does_insn_trap {n : Nat} {x : DWord} (hf : f (d.core i) (d.issuing i c) = .trap n x) :
    Does ins d ((d.issuing i c).trapped i (d.core i).pc w n x) :=
  does_of hexec (insn_trap hr hp hf)

end

/-- The level that R232 asks of an instruction of level P, asked of one that is none. -/
theorem level_unprivileged : false = true → 32 ≤ i.val := nofun

/-! ### Control transfer (R233) -/

theorem Dev.branch_some {k : Core} {imm : BitVec 22} {pc : DWord} (x : Dev)
    (h : pcPlus k.pc (imm.signExtend 64 <<< 2) = some pc) : x.branch k imm = .goto x pc := by
  simp only [Dev.branch, sx, h]

theorem does_jr {rd ra : BitVec 5} (hr : d.runs i c) (ht : ((d.core i).reg ra).tag = tCODE)
    (hal : ((d.core i).reg ra).v.toNat % 4 = 0) : Does (.jr i c rd ra) d
      (((d.issuing i c).setCore i ((d.core i).setReg rd (pcNext (d.core i).pc) tCODE)).branched i ((d.core i).reg ra).v) := by
  refine does_insn_goto (exec_jr i c rd ra) hr level_unprivileged ?_
  dsimp only
  rw [ht, hal, if_neg (by decide), if_neg (not_not_intro rfl), if_neg (not_not_intro rfl)]

/-! ### The tide's instructions (R42, R43, R236, R239) -/

theorem tideOf_of_tag {r : Reg} (g : DWord → Iss) (h : r.tag = tTIDE) : tideOf r g = g r.v := by
  rw [tideOf, h, if_neg (by decide), if_neg (not_not_intro rfl)]

@[simp] theorem Dev.issuing_seen : (d.issuing i c).seen = d.seen := by simp only [Dev.seen, Dev.issuing_tide]

@[simp] theorem Dev.issuing_isHead : (d.issuing i c).isHead = d.isHead := by simp only [Dev.isHead, Dev.issuing_tide]

theorem does_twait {ra : BitVec 5} (hr : d.runs i c) (ht : ((d.core i).reg ra).tag = tTIDE)
    (hle : ((d.core i).reg ra).v ≤ d.seen) :
    Does (.twait i c ra) d (((d.issuing i c).stallEnd i 0).retire i (d.core i).pc) := by
  refine does_insn_done (exec_twait i c ra) hr level_unprivileged ((tideOf_of_tag _ ht).trans (if_pos ?_))
  rwa [Dev.issuing_seen]

theorem does_twatch {ra : BitVec 5} (hr : d.runs i c) (ht : ((d.core i).reg ra).tag = tTIDE) : Does (.twatch i c ra) d
    ((d.issuing i c).retireWith i { d.core i with watch := some ((d.core i).reg ra).v }) :=
  does_insn_with (exec_twatch i c ra) hr level_unprivileged (tideOf_of_tag _ ht)

/-- The first TREP of a participating sequencer for the current tide (R43). -/
theorem does_trep {ra : BitVec 5} (hr : d.runs i c) (ht : ((d.core i).reg ra).tag = tTIDE)
    (hcur : ((d.core i).reg ra).v = d.tide.cur) (hi : i.val < 32) (hpart : (d.core i).part = true)
    (hnew : i.val ∉ d.tide.done) : Does (.trep i c ra) d
      (let x := d.issuing i c
       (({ x with tide := { x.tide with done := x.tide.done ++ [i.val] } } : Dev).checkDone).retire i (d.core i).pc) := by
  refine does_insn_done (exec_trep i c ra) hr level_unprivileged ((tideOf_of_tag _ ht).trans ?_)
  rw [Dev.issuing_tide, if_neg (not_not_intro hcur), if_neg (by simp [hi, hpart, hnew])]

/-- TADV at a headland, to a value greater than its tide (R42, R44). -/
theorem does_tadv {ra : BitVec 5} (hr : d.runs i c) (ht : ((d.core i).reg ra).tag = tTIDE) (hh : d.isHead = true)
    (hlt : d.tide.cur < ((d.core i).reg ra).v) (hlast : d.tide.cur.toNat / 2 ^ 24 < 0xffffffffff)
    (hpend : d.tide.pending = false) : Does (.tadv i c ra) d
      (let x := d.issuing i c
       ({ x with tide := { x.tide with pending := true, next := ((d.core i).reg ra).v } } : Dev).retire i (d.core i).pc) := by
  refine does_insn_done (exec_tadv i c ra) hr level_unprivileged ((tideOf_of_tag _ ht).trans ?_)
  rw [Dev.issuing_isHead, Dev.issuing_tide, hh, hpend, if_neg (by decide), if_neg fun h => by omega,
    if_neg (BitVec.not_le.2 hlt), if_neg Bool.false_ne_true]

/-! ### Control registers (R242) -/

/-- The control registers that hold no CODE value read as INT. -/
theorem does_csrr {rd : BitVec 5} {n : BitVec 12} (hr : d.runs i c) (hi : 32 ≤ i.val) (hn : n.toNat ≤ 5) (h1 : n.toNat ≠ 1)
    (h5 : n.toNat ≠ 5) : Does (.csrr i c rd n) d
      ((d.issuing i c).retireWith i ((d.core i).setReg rd ((d.core i).cr.getD n.toNat 0) tINT)) := by
  refine does_insn_with (exec_csrr i c rd n) hr (fun _ => hi) ?_
  dsimp only
  rw [if_neg (Nat.not_lt.2 hn), if_neg (by simp [h1, h5])]; rfl

theorem does_csrw {ra : BitVec 5} {n : BitVec 12} (hr : d.runs i c) (hi : 32 ≤ i.val) (hn : n.toNat ≤ 5)
    (ht : ((d.core i).reg ra).tag = if n.toNat = 1 ∨ n.toNat = 5 then tCODE else tINT) : Does (.csrw i c ra n) d
      ((d.issuing i c).retireWith i { d.core i with
        cr := (d.core i).cr.set n.toNat
          (if n.toNat = 0 then ((d.core i).reg ra).v &&& 1 else ((d.core i).reg ra).v) }) := by
  have hpoison : ((d.core i).reg ra).tag ≠ tPOISON := by rw [ht]; split <;> decide
  refine does_insn_with (exec_csrw i c ra n) hr (fun _ => hi) ?_
  dsimp only
  rw [if_neg (Nat.not_lt.2 hn), if_neg hpoison, if_neg (not_not_intro ht)]

/-! ### SYS (R241, R246, R289, R497) -/

theorem does_sys {imm : BitVec 12} (hr : d.runs i c) : Does (.sys i c imm) d
    (((d.issuing i c).trapped i (d.core i).pc (encI c.toNat 0x20 0 0 imm.toNat) 0x0c (imm.zeroExtend 64)).serveSys i) := by
  refine does_of (exec_sys i c imm) ((Dev.when_pos _ hr.1).trans ?_)
  exact congrArg (Dev.serveSys · i) (insn_trap hr level_unprivileged rfl)

/-- Only a sequencer's SYSCALL is served. -/
theorem Dev.serveSys_service (hi : 32 ≤ i.val) : d.serveSys i = d := by
  rw [Dev.serveSys, if_pos (by simp [Nat.not_lt.2 hi])]

/-- A service the firmware does not have is answered with all ones (R241). -/
theorem Dev.serveSys_unknown (hi : i.val < 32) (hfw : d.fwRunning = true) (hs : d.safe = false)
    (hwait : (d.core i).sysWait = true) (hcause : (d.core i).cause = 0x0c) (hstop : (d.core i).running = false)
    (hsvc : (d.core i).fault.toNat ∉ [0x001, 0x010]) : d.serveSys i =
      d.setCore i { (d.core i).setReg 1 (BitVec.ofNat 64 (2 ^ 64 - 1)) tINT with
        running := true, cause := 0, sysWait := false, pc := pcNext (d.core i).pc } := by
  simp only [List.mem_cons, List.not_mem_nil, or_false, not_or] at hsvc
  obtain ⟨hlog, hdump⟩ := hsvc
  rw [Dev.serveSys, if_neg (by simp [hi, hfw, hs, hwait, hcause, hstop])]
  split
  · exact absurd ‹_› hlog
  · exact absurd ‹_› hdump
  · rfl

/-! ### Fetches that fail (R240) -/

/-- A core that may not fetch at its program counter traps (R240). -/
theorem does_instructionFetchFault (hr : d.runs i 0)
    (hbad : coreMay i false false (adrOf 7 (d.core i).pc) 4 = false ∨ areaOf (adrOf 7 (d.core i).pc) = .pages ∨
      areaOf (adrOf 7 (d.core i).pc) = .check) : Does (.instructionFetchFault i) d
      ((d.issuing i 0).trapped i (d.core i).pc 0 0x0e (BitVec.ofNat 64 (adrOf 7 (d.core i).pc))) := by
  refine does_of (exec_instructionFetchFault i) ?_
  have hok : (coreMay i false false (adrOf 7 (d.core i).pc) 4 && areaOf (adrOf 7 (d.core i).pc) != .pages &&
      areaOf (adrOf 7 (d.core i).pc) != .check) = false := by
    obtain h | h | h := hbad <;> simp [h]
  simp only [hok, Bool.false_eq_true, if_false, Bool.true_or, Dev.when_true]
  exact insn_trap (f := fun _ _ => .trap 0x0e (BitVec.ofNat 64 (adrOf 7 (d.core i).pc))) hr level_unprivileged rfl

end Sys2Proof.Machine

namespace Sys2Proof
open Machine

/-- Settles O11: each instruction's checks pass in the state given, and its effect, its transfer or its trap is the one named.
That a SYSCALL is served in the same step is the model's choice (log entry 100). -/
theorem controlInstructionsComplete : Obligations.ControlInstructionsComplete := by
  unfold Obligations.ControlInstructionsComplete
  refine ⟨?_, ?_, ?_, ?_, ?_, ?_, ?_, ?_⟩
  · intro d i c imm pc k hr hpc
    exact ⟨does_insn_goto (exec_b i c imm) hr level_unprivileged (Dev.branch_some _ hpc),
      does_insn_goto (exec_jal i c imm) hr level_unprivileged (Dev.branch_some _ hpc)⟩
  · intro d i c rd ra k hr ht hal
    exact does_jr hr ht hal
  · intro d i c ra k x hr ht
    exact ⟨does_twait hr ht, does_twatch hr ht, does_trep hr ht, does_tadv hr ht⟩
  · intro d i c imm k hr
    have hsys := does_sys (imm := imm) hr
    refine ⟨⟨hsys, fun hi => ?_, fun hi hfw hs hwait hcause hstop hsvc => ?_⟩,
      does_insn_trap (exec_brk i c) hr level_unprivileged rfl⟩
    · rwa [Dev.serveSys_service hi] at hsys
    · rwa [Dev.serveSys_unknown hi hfw hs hwait hcause hstop hsvc] at hsys
  · intro d i c ra imm k x hr
    exact does_insn_done (exec_trcp i c ra imm) hr level_unprivileged rfl
  · intro d i c r n k x hr hi hn
    exact ⟨does_csrr hr hi hn, does_csrw hr hi hn, does_insn_goto (exec_eret i c) hr (fun _ => hi) rfl⟩
  · intro d i w c hr hres hpriv
    refine does_of (exec_reservedOpcode i w) ((Dev.when_pos _ hres).trans ?_)
    exact insn_trap hr (fun h => absurd (hpriv.symm.trans h) Bool.false_ne_true) rfl
  · intro d i a hr hbad
    exact does_instructionFetchFault hr hbad

end Sys2Proof
end

