-- ==== Sys2Proof/Proofs/Time.lean ====
section
/-!
PROOF. Proofs/Time.lean: a step with no command waiting; O22.
-/
namespace Sys2Proof.Machine

variable {d : Dev}

theorem step_nil (d : Dev) : step ⟨d, []⟩ = .next ⟨d.tick, []⟩ := rfl

/-- With main power TRCLK counts one up (R39, R485). -/
theorem Dev.clocks_powered (h : d.pwr.main = true) :
    d.clocks = { d with trclk := d.trclk + 1, err := { d.err with windows := [] } } := by
  rw [Dev.clocks, if_pos h]

/-- In standby TRCLK stands (R39). -/
theorem Dev.clocks_standby (h : d.pwr.main = false) : d.clocks = { d with err := { d.err with windows := [] } } := by
  rw [Dev.clocks, if_neg (Bool.eq_false_iff.1 h)]

/-- Where merges found nothing, nothing is recorded. -/
theorem Dev.recordFound_nil (h : d.found = []) : d.recordFound = d := by
  rw [Dev.recordFound, h]; rfl

/-- A tick in main power with nothing waiting. -/
theorem Dev.tick_powered (hq : d.quiet) (hm : d.pwr.main = true) : d.tick =
    ({ d with trclk := d.trclk + 1, err := { d.err with windows := [] } } : Dev).ariseNow.recordFound.settle := by
  rw [Dev.tick_quiet hq, if_pos hm, Dev.clocks_powered hm]

/-- A tick in standby with nothing waiting. -/
theorem Dev.tick_standby (hq : d.quiet) (hm : d.pwr.main = false) :
    d.tick = ({ d with err := { d.err with windows := [] } } : Dev).settle := by
  rw [Dev.tick_quiet hq, if_neg (Bool.eq_false_iff.1 hm), Dev.clocks_standby hm]
  obtain ⟨-, -, -, -, -, -, hfound⟩ := hq
  exact congrArg Dev.settle (Dev.recordFound_nil hfound)

/-- What follows every command leaves memory. -/
theorem sameMem_settle (d : Dev) : sameMem d d.settle := ⟨Dev.byteAt_settle d, Dev.markOf_settle d⟩

end Sys2Proof.Machine

namespace Sys2Proof
open Machine

/-- Settles O22: a step with no command waiting is a tick; of a quiet device it is the clocks' and, with main power, that
of an error that may arise. The tick is the model's choice (log entries 6 and 81). -/
theorem emptyQueueLetsTimePass : Obligations.EmptyQueueLetsTimePass := by
  unfold Obligations.EmptyQueueLetsTimePass
  refine ⟨fun d => ⟨d.tick, step_nil d⟩, fun d hq => ⟨fun hm => ?_, fun hm => ?_⟩⟩
  · rw [step_nil, Dev.tick_powered hq hm]
  · refine ⟨_, (step_nil d).trans (congrArg _ (congrArg (State.mk · []) (Dev.tick_standby hq hm))), ?_⟩
    exact ⟨Dev.settle_trclk _, fun k hk => Dev.rd_settle _ hk.symm, sameMem_settle _, Dev.settle_cores _, Dev.settle_tide _,
      Dev.settle_slack _⟩

end Sys2Proof
end

