-- ==== Sys2Proof/Proofs/Generators.lean ====
section
/-!
PROOF. Proofs/Generators.lean: a draw of a random generator (R88) as three exclusive ors of a number with itself shifted,
each of which loses nothing; O45.
-/
namespace Sys2Proof.Machine

/-- `x xor (x << k)` in `n` bits. -/
def xorShl (n k x : Nat) : Nat := (x ^^^ (x * 2 ^ k)) % 2 ^ n

/-- `x xor (x >> k)`. -/
def xorShr (k x : Nat) : Nat := x ^^^ (x / 2 ^ k)

/-- A draw is the three lines of R88. -/
theorem srNext_eq (x : Nat) : srNext x = xorShl 32 5 (xorShr 17 (xorShl 32 13 x)) := rfl

theorem xorShl_lt (n k x : Nat) : xorShl n k x < 2 ^ n := Nat.mod_lt _ (Nat.two_pow_pos n)

theorem xorShr_lt {n x : Nat} (k : Nat) (hx : x < 2 ^ n) : xorShr k x < 2 ^ n :=
  Nat.xor_lt_two_pow hx (Nat.lt_of_le_of_lt (Nat.div_le_self _ _) hx)

theorem testBit_xorShl {n i : Nat} (k x : Nat) (hi : i < n) :
    (xorShl n k x).testBit i = (x.testBit i ^^ (decide (k ≤ i) && x.testBit (i - k))) := by
  simp only [xorShl, Nat.testBit_mod_two_pow, hi, decide_true, Bool.true_and, Nat.testBit_xor, Nat.testBit_mul_two_pow]

theorem testBit_xorShr (k x i : Nat) : (xorShr k x).testBit i = (x.testBit i ^^ x.testBit (i + k)) := by
  rw [xorShr, Nat.testBit_xor, Nat.testBit_div_two_pow]

/-- Past its width a number has no bit. -/
theorem testBit_of_width_le {n x i : Nat} (hx : x < 2 ^ n) (hi : n ≤ i) : x.testBit i = false :=
  Nat.testBit_lt_two_pow (Nat.lt_of_lt_of_le hx (Nat.pow_le_pow_right Nat.two_pos hi))

/-- From the lowest bit up, each bit of `x` is fixed by the result and by the bit `k` places below. -/
theorem xorShl_injective {n k x y : Nat} (hk : 0 < k) (hx : x < 2 ^ n) (hy : y < 2 ^ n)
    (h : xorShl n k x = xorShl n k y) : x = y := by
  refine Nat.eq_of_testBit_eq fun i => ?_
  induction i using Nat.strongRecOn with
  | ind i ih =>
    by_cases hi : i < n
    · have hbit := congrArg (·.testBit i) h
      simp only [testBit_xorShl k _ hi] at hbit
      by_cases hik : k ≤ i
      · rw [ih (i - k) (by omega)] at hbit
        exact Bool.xor_left_inj.1 hbit
      · simpa [hik] using hbit
    · rw [testBit_of_width_le hx (Nat.le_of_not_lt hi), testBit_of_width_le hy (Nat.le_of_not_lt hi)]

/-- From the highest bit down, each bit of `x` is fixed by the result and by the bit `k` places above. -/
theorem xorShr_injective {n k x y : Nat} (hk : 0 < k) (hx : x < 2 ^ n) (hy : y < 2 ^ n)
    (h : xorShr k x = xorShr k y) : x = y := by
  have above (j : Nat) : ∀ i, n ≤ i + j → x.testBit i = y.testBit i := by
    induction j with
    | zero => exact fun i hi => (testBit_of_width_le hx hi).trans (testBit_of_width_le hy hi).symm
    | succ j ih =>
      intro i hi
      have hbit := congrArg (·.testBit i) h
      simp only [testBit_xorShr, ih (i + k) (by omega)] at hbit
      exact Bool.xor_left_inj.1 hbit
  exact Nat.eq_of_testBit_eq fun i => above n i (Nat.le_add_left n i)

theorem srNext_lt (x : Nat) : srNext x < 2 ^ 32 := xorShl_lt 32 5 _

theorem srNext_injective {x y : Nat} (hx : x < 2 ^ 32) (hy : y < 2 ^ 32) (h : srNext x = srNext y) : x = y := by
  rw [srNext_eq, srNext_eq] at h
  have hshr := xorShl_injective (by decide) (xorShr_lt 17 (xorShl_lt 32 13 x)) (xorShr_lt 17 (xorShl_lt 32 13 y)) h
  have hshl := xorShr_injective (by decide) (xorShl_lt 32 13 x) (xorShl_lt 32 13 y) hshr
  exact xorShl_injective (by decide) hx hy hshl

/-- Zero draws to zero, so by injectivity no other state does. -/
theorem srNext_ne_zero {x : Nat} (hx : x < 2 ^ 32) (h0 : x ≠ 0) : srNext x ≠ 0 := fun h =>
  h0 (srNext_injective hx (by decide) (h.trans (by decide : 0 = srNext 0)))

theorem srSeed_ne_zero (s : Nat) : srSeed s ≠ 0 := by
  unfold srSeed
  split
  · decide
  · assumption

theorem srSeed_lt (s : Nat) : srSeed s < 2 ^ 32 := by
  unfold srSeed
  split
  · decide
  · exact Nat.mod_lt _ (by decide)

end Sys2Proof.Machine

namespace Sys2Proof
open Machine

/-- Settles O45: a draw is injective, and zero draws to zero. -/
theorem generatorsNeverReachZero : Obligations.GeneratorsNeverReachZero := by
  unfold Obligations.GeneratorsNeverReachZero
  exact ⟨fun s => ⟨srSeed_ne_zero s, srSeed_lt s⟩, fun x hx h0 => ⟨srNext_ne_zero hx h0, srNext_lt x⟩,
    fun x y => srNext_injective⟩

end Sys2Proof
end

