-- ==== Sys2Proof/Proofs/Integers.lean ====
section
/-!
PROOF. Proofs/Integers.lean: codes in two's complement (R70) and E8M0 scales (R72); O44.
-/
namespace Sys2Proof.Machine

/-- The top bit of a number of `w + 1` bits. -/
theorem bitN_top {w x : Nat} (hx : x < 2 ^ (w + 1)) : bitN x w = decide (2 ^ w ≤ x) := by
  rw [bitN_eq_testBit]
  by_cases h : 2 ^ w ≤ x
  · rw [Nat.testBit_of_two_pow_le_and_two_pow_add_one_gt h hx, decide_eq_true h]
  · rw [Nat.testBit_lt_two_pow (Nat.lt_of_not_le h), decide_eq_false h]

/-- The top bit as a number. -/
theorem b2n_bitN_top {w x : Nat} (hx : x < 2 ^ (w + 1)) : b2n (bitN x w) = x / 2 ^ w := by
  rw [bitN_top hx]
  by_cases h : 2 ^ w ≤ x
  · rw [decide_eq_true h, Nat.div_eq_of_lt_le (k := 1) (by omega) (by rw [Nat.pow_succ] at hx; omega)]; rfl
  · rw [decide_eq_false h, Nat.div_eq_of_lt (by omega)]; rfl

/-- A code below the half stands for itself. -/
theorem intOf_of_lt {w x : Nat} (h : x < 2 ^ w) : intOf (w + 1) x = x := by
  have hx : x < 2 ^ (w + 1) := Nat.lt_trans h (Nat.pow_lt_pow_succ Nat.one_lt_two)
  rw [intOf, Nat.add_sub_cancel, bitN_top hx, decide_eq_false (Nat.not_le_of_lt h), Nat.mod_eq_of_lt hx]
  rfl

/-- A code from the half on stands for itself less the whole. -/
theorem intOf_of_le {w x : Nat} (h : 2 ^ w ≤ x) (hx : x < 2 ^ (w + 1)) : intOf (w + 1) x = x - (2 ^ (w + 1) : Nat) := by
  rw [intOf, Nat.add_sub_cancel, bitN_top hx, decide_eq_true h, Nat.mod_eq_of_lt hx]
  rfl

/-- Two's complement: the integer lies in the range of `w + 1` bits and is the code modulo `2^(w + 1)`. -/
theorem intOf_twosComplement {w x : Nat} (hx : x < 2 ^ (w + 1)) :
    -(2 ^ w : Int) ≤ intOf (w + 1) x ∧ intOf (w + 1) x ≤ 2 ^ w - 1 ∧ intOf (w + 1) x % 2 ^ (w + 1) = x := by
  have hxi : (x : Int) < 2 ^ (w + 1) := by exact_mod_cast hx
  have hwhole : ((2 ^ (w + 1) : Nat) : Int) = 2 ^ (w + 1) := Int.natCast_pow 2 (w + 1)
  have hdouble : (2 : Int) ^ (w + 1) = 2 ^ w * 2 := Int.pow_succ 2 w
  by_cases h : x < 2 ^ w
  · have hi : (x : Int) < 2 ^ w := by exact_mod_cast h
    rw [intOf_of_lt h, Int.emod_eq_of_lt (by omega) hxi]
    omega
  · have hi : (2 : Int) ^ w ≤ x := by exact_mod_cast Nat.le_of_not_lt h
    rw [intOf_of_le (Nat.le_of_not_lt h) hx, hwhole, Int.sub_emod_right, Int.emod_eq_of_lt (by omega) hxi]
    omega

theorem decElem_int8 (x : Nat) : decElem 8 x = fvInt (intOf 8 x) 0 := rfl

theorem decElem_int4 (x : Nat) : decElem 9 x = fvInt (intOf 4 x) 0 := rfl

theorem e8m0_of_lt {c : Nat} (h : c < 255) : e8m0 c = some ((c : Int) - 127) := by
  have hc : c % 256 = c := Nat.mod_eq_of_lt (by omega)
  rw [e8m0, hc, if_neg (by omega)]

theorem e8m0_nan : e8m0 255 = none := rfl

end Sys2Proof.Machine

namespace Sys2Proof
open Machine

/-- Settles O44: both widths are two's complement of `w + 1` bits. -/
theorem integerAndScaleCodes : Obligations.IntegerAndScaleCodes := by
  unfold Obligations.IntegerAndScaleCodes
  exact ⟨fun x hx => ⟨intOf 8 x, decElem_int8 x, intOf_twosComplement (w := 7) hx⟩,
    fun x hx => ⟨intOf 4 x, decElem_int4 x, intOf_twosComplement (w := 3) hx⟩, fun c => e8m0_of_lt, e8m0_nan⟩

end Sys2Proof
end

