-- ==== Sys2Proof/Proofs/Floats.lean ====
section
/-!
PROOF. Proofs/Floats.lean: a floating-point code as sign, exponent and mantissa (R66), what its value rounds to (R85, R86),
and O43.
-/
namespace Sys2Proof.Machine

theorem bitLen_le_iff {m n : Nat} (hm : m ≠ 0) : bitLen m ≤ n ↔ m < 2 ^ n := by
  rw [bitLen, if_neg hm, Nat.add_one_le_iff, Nat.log2_lt hm]

/-- In its own units a magnitude is whole: neither rounding changes it. -/
theorem roundUnits_self (m : Nat) (e : Int) (sr : Option Nat) : roundUnits m e e sr = m := by
  simp [roundUnits, shiftZ]

namespace FF

/-- The exponent of the smallest subnormal of a format. -/
def emin (f : FF) : Int := 1 - f.bias - f.mw

/-- The magnitude of a code with exponent field `E` and mantissa field `M`. -/
def mag (f : FF) (E M : Nat) : Nat := E * 2 ^ f.mw + M

/-- The finite value of exponent field `E` and mantissa field `M` (R66). -/
def finVal (f : FF) (neg : Bool) (E M : Nat) : FV :=
  if E = 0 then .fin neg M f.emin else .fin neg (2 ^ f.mw + M) (f.emin + (E - 1 : Nat))

/-- A code with a sign. -/
def signed (f : FF) (neg : Bool) (c : Nat) : Nat := b2n neg * 2 ^ (f.ew + f.mw) + c

variable {f : FF} {E M : Nat}

/-! The fields of a code -/

/-- A code is its sign over its exponent over its mantissa. -/
theorem signed_mag_fields {x : Nat} (hx : x < 2 ^ f.w) :
    f.signed (bitN x (f.ew + f.mw)) (f.mag (fieldN x f.mw f.ew) (fieldN x 0 f.mw)) = x := by
  have hw : f.w = f.ew + f.mw + 1 := by rw [w]; omega
  calc f.signed (bitN x (f.ew + f.mw)) (f.mag (fieldN x f.mw f.ew) (fieldN x 0 f.mw))
    _ = x / 2 ^ (f.ew + f.mw) * 2 ^ (f.ew + f.mw) + (x / 2 ^ f.mw % 2 ^ f.ew * 2 ^ f.mw + x % 2 ^ f.mw) := by
      rw [signed, b2n_bitN_top (hw ▸ hx), mag, fieldN, fieldN, Nat.shiftRight_eq_div_pow, Nat.shiftRight_zero]
    _ = 2 ^ (f.ew + f.mw) * (x / 2 ^ (f.ew + f.mw)) + x % 2 ^ (f.ew + f.mw) := by
      rw [Nat.mul_comm, Nat.add_comm f.ew, Nat.pow_add 2 f.mw, Nat.mod_mul, Nat.add_comm (x % _),
        Nat.mul_comm (2 ^ f.mw) (_ % _)]
    _ = x := Nat.div_add_mod x _

theorem mag_lt (hE : E < 2 ^ f.ew) (hM : M < 2 ^ f.mw) : f.mag E M < 2 ^ (f.ew + f.mw) := by
  rw [mag, Nat.pow_add]
  calc E * 2 ^ f.mw + M < (E + 1) * 2 ^ f.mw := by rw [Nat.succ_mul]; omega
    _ ≤ 2 ^ f.ew * 2 ^ f.mw := Nat.mul_le_mul_right _ hE

theorem fieldN_exp_mag (hE : E < 2 ^ f.ew) (hM : M < 2 ^ f.mw) : fieldN (f.mag E M) f.mw f.ew = E := by
  rw [fieldN, mag, Nat.shiftRight_eq_div_pow, Nat.mul_comm, Nat.mul_add_div (Nat.two_pow_pos _), Nat.div_eq_of_lt hM,
    Nat.add_zero, Nat.mod_eq_of_lt hE]

theorem fieldN_mant_mag (hM : M < 2 ^ f.mw) : fieldN (f.mag E M) 0 f.mw = M := by
  rw [fieldN, mag, Nat.shiftRight_zero, Nat.add_comm, Nat.add_mul_mod_self_right, Nat.mod_eq_of_lt hM]

/-! What a code stands for -/

theorem dec_ieee (h : f.sp = .ieee) (x : Nat) :
    f.dec x = if fieldN x f.mw f.ew = 2 ^ f.ew - 1
      then (if fieldN x 0 f.mw = 0 then .inf (bitN x (f.ew + f.mw)) else .nan)
      else f.finVal (bitN x (f.ew + f.mw)) (fieldN x f.mw f.ew) (fieldN x 0 f.mw) := by
  simp only [dec, h, beq_iff_eq]; rfl

theorem dec_e4m3 (h : f.sp = .e4m3) (x : Nat) :
    f.dec x = if fieldN x f.mw f.ew = 2 ^ f.ew - 1 ∧ fieldN x 0 f.mw = 2 ^ f.mw - 1 then .nan
      else f.finVal (bitN x (f.ew + f.mw)) (fieldN x f.mw f.ew) (fieldN x 0 f.mw) := by
  simp only [dec, h, Bool.and_eq_true, beq_iff_eq]; rfl

theorem dec_none (h : f.sp = .none) (x : Nat) :
    f.dec x = f.finVal (bitN x (f.ew + f.mw)) (fieldN x f.mw f.ew) (fieldN x 0 f.mw) := by
  simp only [dec, h]; rfl

theorem maxCode_ieee (h : f.sp = .ieee) : f.maxCode = (2 ^ f.ew - 1) * 2 ^ f.mw - 1 := by rw [maxCode, h]
theorem maxCode_e4m3 (h : f.sp = .e4m3) : f.maxCode = 2 ^ (f.ew + f.mw) - 2 := by rw [maxCode, h]
theorem maxCode_none (h : f.sp = .none) : f.maxCode = 2 ^ (f.ew + f.mw) - 1 := by rw [maxCode, h]

theorem nanCode_ieee (h : f.sp = .ieee) : f.nanCode = f.mag (2 ^ f.ew - 1) (2 ^ (f.mw - 1)) := by rw [nanCode, h, mag]

/-- All ones in both fields. -/
theorem mag_top (f : FF) : f.mag (2 ^ f.ew - 1) (2 ^ f.mw - 1) = 2 ^ (f.ew + f.mw) - 1 := by
  have hpos := Nat.two_pow_pos f.mw
  have hle : 2 ^ f.mw ≤ 2 ^ f.ew * 2 ^ f.mw := Nat.le_mul_of_pos_left _ (Nat.two_pow_pos _)
  rw [mag, Nat.pow_add, Nat.sub_mul, Nat.one_mul]
  omega

theorem nanCode_e4m3 (h : f.sp = .e4m3) : f.nanCode = f.mag (2 ^ f.ew - 1) (2 ^ f.mw - 1) := by
  rw [mag_top, nanCode, h]

theorem two_pow_sub_one_lt (n : Nat) : 2 ^ n - 1 < 2 ^ n := Nat.sub_lt (Nat.two_pow_pos n) Nat.one_pos

/-- The canonical NaN is a NaN, in a format that has one. -/
theorem dec_nanCode (h : f.sp ≠ .none) (hmw : 0 < f.mw) : f.dec f.nanCode = .nan := by
  cases hs : f.sp with
  | ieee =>
    have hM : 2 ^ (f.mw - 1) < 2 ^ f.mw := Nat.pow_lt_pow_right Nat.one_lt_two (by omega)
    rw [dec_ieee hs, nanCode_ieee hs, fieldN_exp_mag (two_pow_sub_one_lt _) hM, fieldN_mant_mag hM, if_pos rfl,
      if_neg (Nat.ne_of_gt (Nat.two_pow_pos _))]
  | e4m3 =>
    have hM := two_pow_sub_one_lt f.mw
    rw [dec_e4m3 hs, nanCode_e4m3 hs, fieldN_exp_mag (two_pow_sub_one_lt _) hM, fieldN_mant_mag hM, if_pos ⟨rfl, rfl⟩]
  | none => exact absurd hs h

/-! What is finite and what is not lies in the order of the magnitudes -/

theorem mag_le_maxCode_ieee (h : f.sp = .ieee) (hE : E < 2 ^ f.ew) (hM : M < 2 ^ f.mw) (htop : E ≠ 2 ^ f.ew - 1) :
    f.mag E M ≤ f.maxCode := by
  have hle := Nat.mul_le_mul_right (2 ^ f.mw) (show E + 1 ≤ 2 ^ f.ew - 1 by omega)
  rw [Nat.succ_mul] at hle
  rw [maxCode_ieee h, mag]
  omega

theorem mag_le_maxCode_e4m3 (h : f.sp = .e4m3) (hE : E < 2 ^ f.ew) (hM : M < 2 ^ f.mw)
    (htop : ¬ (E = 2 ^ f.ew - 1 ∧ M = 2 ^ f.mw - 1)) : f.mag E M ≤ f.maxCode := by
  have hne : f.mag E M ≠ 2 ^ (f.ew + f.mw) - 1 := fun he => htop <| by
    rw [← mag_top] at he
    exact ⟨by rw [← fieldN_exp_mag hE hM, he, fieldN_exp_mag (two_pow_sub_one_lt _) (two_pow_sub_one_lt _)],
      by rw [← fieldN_mant_mag (E := E) hM, he, fieldN_mant_mag (two_pow_sub_one_lt _)]⟩
  have hlt := mag_lt hE hM
  rw [maxCode_e4m3 h]
  omega

theorem mag_le_maxCode_none (h : f.sp = .none) (hE : E < 2 ^ f.ew) (hM : M < 2 ^ f.mw) : f.mag E M ≤ f.maxCode := by
  have hlt := mag_lt hE hM
  rw [maxCode_none h]
  omega

theorem finVal_ne_inf (neg neg' : Bool) : f.finVal neg E M ≠ .inf neg' := by
  unfold finVal; split <;> exact nofun

theorem finVal_ne_nan (neg : Bool) : f.finVal neg E M ≠ .nan := by
  unfold finVal; split <;> exact nofun

/-- A code of a finite value: the value is that of its fields, and its magnitude is at most the largest. -/
theorem finite_of_dec {x m : Nat} {neg : Bool} {e : Int} (h : f.dec x = .fin neg m e) :
    f.dec x = f.finVal (bitN x (f.ew + f.mw)) (fieldN x f.mw f.ew) (fieldN x 0 f.mw) ∧
      f.mag (fieldN x f.mw f.ew) (fieldN x 0 f.mw) ≤ f.maxCode := by
  have hE := fieldN_lt x f.mw f.ew
  have hM := fieldN_lt x 0 f.mw
  cases hs : f.sp with
  | ieee =>
    rw [dec_ieee hs] at h ⊢
    split at h
    next => split at h <;> exact nomatch h
    next htop => exact ⟨if_neg htop, mag_le_maxCode_ieee hs hE hM htop⟩
  | e4m3 =>
    rw [dec_e4m3 hs] at h ⊢
    split at h
    next => exact nomatch h
    next htop => exact ⟨if_neg htop, mag_le_maxCode_e4m3 hs hE hM htop⟩
  | none => exact ⟨dec_none hs x, mag_le_maxCode_none hs hE hM⟩

/-- A code of an infinity: its magnitude is the one behind the largest finite. -/
theorem infinity_of_dec {x : Nat} {neg : Bool} (hew : 0 < f.ew) (h : f.dec x = .inf neg) :
    f.sp = .ieee ∧ bitN x (f.ew + f.mw) = neg ∧ f.mag (fieldN x f.mw f.ew) (fieldN x 0 f.mw) = f.maxCode + 1 := by
  cases hs : f.sp with
  | ieee =>
    rw [dec_ieee hs] at h
    split at h
    next htop =>
      split at h
      next hzero =>
        have hpos : 0 < (2 ^ f.ew - 1) * 2 ^ f.mw :=
          Nat.mul_pos (Nat.sub_pos_of_lt (Nat.one_lt_two_pow (Nat.ne_of_gt hew))) (Nat.two_pow_pos _)
        refine ⟨rfl, FV.inf.inj h, ?_⟩
        rw [htop, hzero, mag, maxCode_ieee hs]
        omega
      next => exact nomatch h
    next => exact absurd h (finVal_ne_inf _ _)
  | e4m3 =>
    rw [dec_e4m3 hs] at h
    split at h
    next => exact nomatch h
    next => exact absurd h (finVal_ne_inf _ _)
  | none => exact absurd (dec_none hs x ▸ h) (finVal_ne_inf _ _)

theorem sp_ne_none_of_dec_nan {x : Nat} (h : f.dec x = .nan) : f.sp ≠ .none := fun hs =>
  finVal_ne_nan _ (dec_none hs x ▸ h)

/-! What a value is converted to -/

/-- The code of a magnitude whose unit is `2^u`. -/
theorem roundCode_of_unit {m : Nat} {e u : Int} {sr : Option Nat} (hu : max f.emin (e + bitLen m - 1 - f.mw) = u) :
    f.roundCode m e sr =
      if roundUnits m e u sr = 0 then 0 else (u - f.emin).toNat * 2 ^ f.mw + roundUnits m e u sr := by
  subst hu; rfl

/-- A magnitude of the format's precision, on a place of its range, rounds to its own code: its unit is its exponent. -/
theorem roundCode_of_representable {m k : Nat} (sr : Option Nat) (hm : m ≠ 0) (hlt : m < 2 ^ (f.mw + 1))
    (hk : k = 0 ∨ 2 ^ f.mw ≤ m) : f.roundCode m (f.emin + k) sr = k * 2 ^ f.mw + m := by
  have hlen : bitLen m ≤ f.mw + 1 := (bitLen_le_iff hm).2 hlt
  have hlong : 2 ^ f.mw ≤ m → f.mw < bitLen m := fun h => Nat.lt_of_not_le fun hle =>
    Nat.not_lt_of_le h ((bitLen_le_iff hm).1 hle)
  have hunit : max f.emin (f.emin + k + bitLen m - 1 - f.mw) = f.emin + k := by omega
  have hplace : (f.emin + k - f.emin).toNat = k := by omega
  rw [roundCode_of_unit hunit, roundUnits_self, if_neg hm, hplace]

theorem enc_fin_zero (neg : Bool) (e : Int) (sat : Bool) (sr : Option Nat) :
    f.enc (.fin neg 0 e) sat sr = ⟨f.signed neg 0, false, false⟩ := rfl

theorem enc_fin_of_le {neg : Bool} {m : Nat} {e : Int} {sr : Option Nat} (sat : Bool) (hm : m ≠ 0)
    (hc : f.roundCode m e sr ≤ f.maxCode) :
    f.enc (.fin neg m e) sat sr = ⟨f.signed neg (f.roundCode m e sr), false, false⟩ := by
  simp only [enc, if_neg hm, if_neg (Nat.not_lt_of_le hc)]; rfl

/-- The value of fields in range converts to the code of these fields. -/
theorem enc_finVal (neg sat : Bool) (sr : Option Nat) (hM : M < 2 ^ f.mw) (hc : f.mag E M ≤ f.maxCode) :
    f.enc (f.finVal neg E M) sat sr = ⟨f.signed neg (f.mag E M), false, false⟩ := by
  have hpow : 2 ^ (f.mw + 1) = 2 ^ f.mw + 2 ^ f.mw := by rw [Nat.pow_succ, Nat.mul_two]
  cases E with
  | zero =>
    have hmag : f.mag 0 M = M := by rw [mag, Nat.zero_mul, Nat.zero_add]
    rw [hmag] at hc ⊢
    by_cases h0 : M = 0
    · subst h0; exact enc_fin_zero neg _ sat sr
    · have hround : f.roundCode M f.emin sr = M := by
        simpa using roundCode_of_representable (k := 0) sr h0 (by omega) (.inl rfl)
      rw [finVal, if_pos rfl, enc_fin_of_le sat h0 (by rwa [hround]), hround]
  | succ k =>
    have hround : f.roundCode (2 ^ f.mw + M) (f.emin + k) sr = f.mag (k + 1) M := by
      rw [roundCode_of_representable sr (by omega) (by omega) (.inr (by omega)), mag, Nat.succ_mul, Nat.add_assoc]
    rw [finVal, if_neg (Nat.succ_ne_zero k), Nat.add_sub_cancel, enc_fin_of_le sat (by omega) (by rwa [hround]), hround]

theorem enc_inf_ieee (h : f.sp = .ieee) (neg : Bool) (sr : Option Nat) :
    f.enc (.inf neg) false sr = ⟨f.signed neg (f.maxCode + 1), false, false⟩ := by
  simp only [enc, h]; rfl

theorem enc_nan_code (f : FF) (sat : Bool) (sr : Option Nat) : (f.enc .nan sat sr).code = f.nanCode := rfl

/-- A code of a finite value is what the value converts to. -/
theorem enc_dec_finite {x m : Nat} {neg : Bool} {e : Int} (sat : Bool) (sr : Option Nat) (hx : x < 2 ^ f.w)
    (h : f.dec x = .fin neg m e) : f.enc (f.dec x) sat sr = ⟨x, false, false⟩ := by
  obtain ⟨hval, hmax⟩ := finite_of_dec h
  rw [hval, enc_finVal _ sat sr (fieldN_lt x 0 f.mw) hmax, signed_mag_fields hx]

/-- A code of an infinity is what the infinity converts to without saturation. -/
theorem enc_dec_infinity {x : Nat} {neg : Bool} (sr : Option Nat) (hew : 0 < f.ew) (hx : x < 2 ^ f.w)
    (h : f.dec x = .inf neg) : f.enc (f.dec x) false sr = ⟨x, false, false⟩ := by
  obtain ⟨hs, hneg, hmag⟩ := infinity_of_dec hew h
  rw [h, enc_inf_ieee hs, ← hmag, ← hneg, signed_mag_fields hx]

end FF
end Sys2Proof.Machine

namespace Sys2Proof
open Machine

/-- Settles O43: decoding takes a code apart into fields in range, rounding leaves the value of such fields, and the fields
make up the code again; it uses of the nine formats only that each has an exponent and a mantissa. -/
theorem codesAreConversionsOfTheirValues : Obligations.CodesAreConversionsOfTheirValues := by
  unfold Obligations.CodesAreConversionsOfTheirValues
  intro f x sat sr hf hx
  have hwidths : ∀ g ∈ [fp64, fp32, bf16, fp16, e4m3, e5m2, e3m2, e2m3, e2m1], 0 < g.ew ∧ 0 < g.mw := by decide
  obtain ⟨hew, hmw⟩ := hwidths f hf
  refine ⟨fun neg m e h => FF.enc_dec_finite sat sr hx h, fun neg h hsat => ?_, fun h => ⟨?_, ?_⟩⟩
  · rw [hsat]; exact FF.enc_dec_infinity sr hew hx h
  · rw [h, FF.enc_nan_code]
  · exact FF.dec_nanCode (FF.sp_ne_none_of_dec_nan h) hmw

end Sys2Proof
end

