-- ==== Sys2Proof/Proofs/Sites.lean ====
section
/-!
PROOF. Proofs/Sites.lean: the address map of R192 inside the weight pool and outside it, its inverse, and O40.
-/
namespace Sys2Proof.Machine

/-- An address of the weight pool. -/
def Layout.holds (y : Layout) (a : Nat) : Prop := y.wBase ≤ a ∧ a < y.wBase + y.wSize

/-- An address outside the weight pool, with the pool cut out: the `x` of R192. -/
def Layout.cutOut (y : Layout) (a : Nat) : Nat := if a < y.wBase then a else a - y.wSize

/-- The site of a 4 KiB unit outside the weight pool. -/
def unitSite (g : Nat) : Nat := g % 16 ^^^ g / 16 % 16

variable {y : Layout} {a b : Nat}

/-- The pool cut out is put back. -/
theorem Layout.putBack_cutOut (h : ¬ y.holds a) :
    (if y.cutOut a < y.wBase then y.cutOut a else y.cutOut a + y.wSize) = a := by
  unfold Layout.holds at h
  by_cases hlt : a < y.wBase
  · rw [Layout.cutOut, if_pos hlt, if_pos hlt]
  · rw [Layout.cutOut, if_neg hlt, if_neg (by omega), Nat.sub_add_cancel (by omega)]

theorem siteOf_pool (h : y.holds a) :
    siteOf y a = ((a - y.wBase) / (y.wSize / 16), (a - y.wBase) % (y.wSize / 16)) := by
  simp only [siteOf, if_pos (show y.wBase ≤ a ∧ a < y.wBase + y.wSize from h), Nat.mod_eq_sub_div_mul]

theorem siteOf_behind (h : ¬ y.holds a) :
    siteOf y a = (unitSite (y.cutOut a / 4096),
      y.wSize / 16 + y.cutOut a / 4096 / 16 * 4096 + y.cutOut a % 4096) := by
  simp only [siteOf, if_neg (show ¬ (y.wBase ≤ a ∧ a < y.wBase + y.wSize) from h)]
  rfl

theorem addrOfSite_pool {n o : Nat} (h : o < y.wSize / 16) : addrOfSite y n o = y.wBase + n * (y.wSize / 16) + o := by
  simp only [addrOfSite, if_pos h]

/-- Behind a slice of whole 4 KiB units the inverse finds the unit's row `h` and the byte `r` in it again. -/
theorem addrOfSite_behind {n h r : Nat} (hs : y.wSize / 16 % 4096 = 0) (hr : r < 4096) :
    addrOfSite y n (y.wSize / 16 + h * 4096 + r) =
      if (h * 16 + (n ^^^ h % 16)) * 4096 + r < y.wBase then (h * 16 + (n ^^^ h % 16)) * 4096 + r
      else (h * 16 + (n ^^^ h % 16)) * 4096 + r + y.wSize := by
  have hrow : (y.wSize / 16 + h * 4096 + r - y.wSize / 16) / 4096 = h := by omega
  have hbyte : (y.wSize / 16 + h * 4096 + r) % 4096 = r := by omega
  simp only [addrOfSite, if_neg (show ¬ y.wSize / 16 + h * 4096 + r < y.wSize / 16 by omega), hrow, hbyte]

theorem unitSite_lt (g : Nat) : unitSite g < 16 :=
  Nat.xor_lt_two_pow (n := 4) (Nat.mod_lt _ (by decide)) (Nat.mod_lt _ (by decide))

/-- The row of a unit and its site give the unit. -/
theorem unit_of_unitSite (g : Nat) : g / 16 * 16 + (unitSite g ^^^ g / 16 % 16) = g := by
  rw [unitSite, Nat.xor_assoc, Nat.xor_self, Nat.xor_zero, Nat.div_add_mod']

section
variable (hb : y.wBase % 65536 = 0) (hw : y.wSize % 65536 = 0)
include hw

theorem offset_lt_of_holds (h : y.holds a) : a - y.wBase < 16 * (y.wSize / 16) := by
  obtain ⟨hlo, hhi⟩ := h
  omega

theorem slice_pos_of_holds (h : y.holds a) : 0 < y.wSize / 16 := by
  have := offset_lt_of_holds hw h
  omega

/-- A site offset lies in the slice just where its address lies in the weight pool. -/
theorem holds_iff_offset_lt : y.holds a ↔ (siteOf y a).2 < y.wSize / 16 := by
  by_cases h : y.holds a
  · simp only [h, siteOf_pool h, true_iff]
    exact Nat.mod_lt _ (slice_pos_of_holds hw h)
  · simp only [h, siteOf_behind h, false_iff]
    omega

theorem site_lt : (siteOf y a).1 < 16 := by
  by_cases h : y.holds a
  · rw [siteOf_pool h]
    exact Nat.div_lt_of_lt_mul (Nat.mul_comm 16 _ ▸ offset_lt_of_holds hw h)
  · rw [siteOf_behind h]
    exact unitSite_lt _

theorem addrOfSite_siteOf : addrOfSite y (siteOf y a).1 (siteOf y a).2 = a := by
  by_cases h : y.holds a
  · rw [addrOfSite_pool ((holds_iff_offset_lt hw).1 h), siteOf_pool h, Nat.add_assoc, Nat.div_add_mod',
      Nat.add_sub_cancel' h.1]
  · simp only [siteOf_behind h]
    rw [addrOfSite_behind (by omega) (Nat.mod_lt _ (by decide)), unit_of_unitSite, Nat.div_add_mod',
      Layout.putBack_cutOut h]

include hb

/-- The weight pool holds whole granules. -/
theorem holds_iff_of_granule_eq (h : a / 256 = b / 256) : y.holds a ↔ y.holds b := by
  unfold Layout.holds
  omega

/-- The pool is cut out of the addresses by whole granules. -/
theorem cutOut_granule_eq (h : a / 256 = b / 256) : y.cutOut a / 256 = y.cutOut b / 256 := by
  have hside : a < y.wBase ↔ b < y.wBase := by omega
  by_cases hlt : a < y.wBase
  · rw [Layout.cutOut, if_pos hlt, Layout.cutOut, if_pos (hside.1 hlt), h]
  · rw [Layout.cutOut, if_neg hlt, Layout.cutOut, if_neg (mt hside.2 hlt)]
    omega

/-- The site of an address, and the granule of its site offset, are those of its granule. -/
theorem siteOf_granule_eq (h : a / 256 = b / 256) :
    (siteOf y a).1 = (siteOf y b).1 ∧ (siteOf y a).2 / 256 = (siteOf y b).2 / 256 := by
  by_cases ha : y.holds a
  · have hdist : (a - y.wBase) / 256 = (b - y.wBase) / 256 := by omega
    have hslice : y.wSize / 16 = 256 * (y.wSize / 4096) := by omega
    rw [siteOf_pool ha, siteOf_pool ((holds_iff_of_granule_eq hb hw h).1 ha), hslice]
    simp only [← Nat.div_div_eq_div_mul, Nat.mod_mul_right_div_self, hdist, and_self]
  · have hcut := cutOut_granule_eq hb hw h
    have hunit : y.cutOut a / 4096 = y.cutOut b / 4096 := by omega
    rw [siteOf_behind ha, siteOf_behind (mt (holds_iff_of_granule_eq hb hw h).2 ha), hunit]
    exact ⟨rfl, by omega⟩

end
end Sys2Proof.Machine

namespace Sys2Proof
open Machine

/-- Settles O40: the inverse gives each address back, and both halves of the map are made of whole granules. -/
theorem sitesDivideMemory : Obligations.SitesDivideMemory := by
  unfold Obligations.SitesDivideMemory
  intro y hb hw
  refine ⟨fun a => ⟨site_lt hw, addrOfSite_siteOf hw⟩, fun a b hab => ?_, fun a b hab => ?_,
    fun a => holds_iff_offset_lt hw⟩
  · rw [← addrOfSite_siteOf hw (a := a), hab, addrOfSite_siteOf hw]
  · obtain ⟨hsite, hgran⟩ := siteOf_granule_eq hb hw hab
    exact ⟨hsite, by rw [channelOf, hgran, channelOf]⟩

end Sys2Proof
end

