-- ==== Sys2Proof/Proofs/Granules.lean ====
section
/-!
PROOF. Proofs/Granules.lean: the bytes, the check words and the snapshot after a write within one granule (R200, R204, R213,
R429), and O37, O38 and O39.
-/
namespace Sys2Proof.Machine
open Laws

variable {d e : Dev} {a : Nat} {l : List Byte} {poison : Bool}

/-- Bytes put are the bytes read. -/
theorem bytes_of_putList (h : e.mem = Map.putList d.mem a l) : e.bytes a l.length = l := by
  rw [Dev.bytes, h, getList_putList]

theorem byteAt_of_putList (h : e.mem = Map.putList d.mem a l) {x : Nat} (hx : x < a ∨ a + l.length ≤ x) :
    e.byteAt x = d.byteAt x := by
  rw [Dev.byteAt, h, Map.get_putList_outside _ _ _ _ _ hx, Dev.byteAt]

theorem byteAt_of_mem_eq (h : e.mem = d.mem) (x : Nat) : e.byteAt x = d.byteAt x := by
  rw [Dev.byteAt, h, Dev.byteAt]

theorem mark_of_marks_eq (h : e.marks = d.marks) (g : Nat) : e.mark g = d.mark g := by
  rw [Dev.mark, h, Dev.mark]

theorem mark_of_put {g : Nat} {m : Mark} (h : e.marks = d.marks.put g m) : e.mark g = m := by
  rw [Dev.mark, h, Map.get_put_same]

theorem mark_of_put_other {g k : Nat} {m : Mark} (h : e.marks = d.marks.put k m) (hg : g ≠ k) : e.mark g = d.mark g := by
  rw [Dev.mark, h, Map.get_put_other _ _ _ hg.symm, Dev.mark]

/-- The stored check word of a granule that is not failing (R195, R196). -/
theorem Dev.checkWord_of_mark {g : Nat} (h : e.mark g = if poison then .poison else .good) :
    (e.checkWord g).1 = if poison then crc32c (e.bytes (g * 256) 256) ^^^ 0xa5c30f96 else crc32c (e.bytes (g * 256) 256) := by
  rw [Dev.checkWord, h]
  cases poison <;> simp only [Bool.false_eq_true, if_true, if_false]

/-- What waits for the pre-image leaves the check words. -/
theorem readied_part_mark (d : Dev) (a g : Nat) : (readied d a false).mark g = (d.meet a).1.mark g := by
  obtain ⟨-, hmarks, -⟩ := cow_keeps (d.meet a).1 a
  exact mark_of_marks_eq hmarks g

section
variable (h0 : 0 < l.length) (h : a % 256 + l.length ≤ 256) (hs : storable a = true)
include h0 h hs

/-- A write within one granule of a site that stands: its bytes are read back, and every other byte and check word
stands. -/
theorem store_bytes_and_frame (poison : Bool) (hf : d.siteFailed a = false) :
    (d.store a l poison).1.bytes a l.length = l ∧
      (∀ x, (x < a ∨ a + l.length ≤ x) → (d.store a l poison).1.byteAt x = d.byteAt x) ∧
      ∀ g, g ≠ a / 256 → (d.store a l poison).1.mark g = d.mark g := by
  obtain ⟨m, hmem, hmarks, -⟩ := store_granule d a l poison h0 h hs hf
  obtain ⟨-, hothers, -⟩ := readied_keeps d a (l.length == 256)
  exact ⟨bytes_of_putList hmem, fun x => byteAt_of_putList hmem,
    fun g hg => (mark_of_put_other hmarks hg).trans (hothers g hg)⟩

/-- A whole granule written where no injection awaits carries the mark its bytes came with (R204). -/
theorem store_whole_mark (hl : l.length = 256) (hf : d.siteFailed a = false) (hi : d.injected a 3 = false) :
    (d.store a l poison).1.mark (a / 256) = if poison then .poison else .good := by
  obtain ⟨m, -, hmarks, hm⟩ := store_granule d a l poison h0 h hs hf
  rw [mark_of_put hmarks, hm, hl, hi]
  rfl

/-- A merged granule is good where it was good as the merge found it and the bytes came without poison (R200). -/
theorem store_part_mark (hl : l.length < 256) (hf : d.siteFailed a = false) :
    (d.store a l poison).1.mark (a / 256) =
      if poison = false ∧ (d.meet a).1.mark (a / 256) = .good then .good else .poison := by
  obtain ⟨m, -, hmarks, hm⟩ := store_granule d a l poison h0 h hs hf
  have hpart : (l.length == 256) = false := by simp only [beq_eq_false_iff_ne]; omega
  rw [mark_of_put hmarks, hm, hpart, readied_part_mark]
  cases poison <;> simp

/-- A write to a failed site leaves every byte, and the check words but that of a granule whose merge was begun
(R213). -/
theorem store_failed_keeps (poison : Bool) (hf : d.siteFailed a = true) :
    (∀ x, (d.store a l poison).1.byteAt x = d.byteAt x) ∧
    ∀ g, (g ≠ a / 256 ∨ l.length = 256) → (d.store a l poison).1.mark g = d.mark g := by
  rw [store_dropped d a l poison h0 h hs hf]
  obtain ⟨hmem, hothers, -⟩ := readied_keeps d a (l.length == 256)
  refine ⟨byteAt_of_mem_eq hmem, fun g hg => ?_⟩
  rcases hg with hg | hl
  · exact hothers g hg
  · rw [hl]
    exact mark_of_marks_eq (readied_whole d a 0).1 g

end

/-- Where a read meets nothing, the operation of a write leaves bytes, check words and the snapshot. -/
theorem Dev.writeMeets_keeps_of_calm (w : Bool) (h : d.meets a = []) :
    (d.writeMeets a w).1.mem = d.mem ∧ (d.writeMeets a w).1.marks = d.marks ∧ (d.writeMeets a w).1.ckp = d.ckp := by
  cases w with
  | true => exact ⟨rfl, rfl, rfl⟩
  | false =>
    have hmeet : (d.meet a).1 = d := by rw [Dev.meet, h]; rfl
    simp only [Dev.writeMeets, Bool.false_eq_true, if_false, hmeet, and_self]

/-- The pre-image of a 64 KiB granule is its bytes and check words. -/
theorem Dev.preImage_congr (hmem : e.mem = d.mem) (hmarks : e.marks = d.marks) (g : Nat) : e.preImage g = d.preImage g := by
  rw [Dev.preImage, hmem, hmarks, Dev.preImage]

/-- The pre-images kept once that of granule `g` is among them (R429). -/
def Dev.copyingWith (d : Dev) (g : Nat) : List PreImg :=
  if d.ckp.copying.any (·.gran == g) then d.ckp.copying else d.ckp.copying ++ [d.preImage g]

theorem Dev.copyingWith_congr (hckp : e.ckp = d.ckp) (hmem : e.mem = d.mem) (hmarks : e.marks = d.marks) (g : Nat) :
    e.copyingWith g = d.copyingWith g := by
  rw [Dev.copyingWith, hckp, Dev.preImage_congr hmem hmarks, Dev.copyingWith]

/-- A write to an UNCOPIED granule keeps its pre-image, once (R429, log entry 75). -/
theorem Dev.cow_ckp (h : d.ckp.gran.get (fun _ => 0) (a / 65536) = 1) :
    (d.cow a).ckp = { d.ckp with copying := d.copyingWith (a / 65536) } := by
  simp only [Dev.cow, h, if_true]
  rfl

/-- A write within one UNCOPIED granule, where it meets nothing, keeps the pre-image as the granule stood before it. -/
theorem store_keeps_preImage (poison : Bool) (h0 : 0 < l.length) (h : a % 256 + l.length ≤ 256) (hs : storable a = true)
    (hg : d.ckp.gran.get (fun _ => 0) (a / 65536) = 1) (hmeets : d.meets a = []) :
    (d.store a l poison).1.ckp = { d.ckp with copying := d.copyingWith (a / 65536) } := by
  obtain ⟨hmem, hmarks, hckp⟩ := Dev.writeMeets_keeps_of_calm (l.length == 256) hmeets
  rw [store_one d a l poison h0 h hs, granStore_ckp, Dev.cow_ckp (by rw [hckp, hg]), Dev.copyingWith_congr hckp hmem hmarks, hckp]

end Sys2Proof.Machine

namespace Sys2Proof
open Machine

/-- Settles O37: the check word follows from the mark the granule gets and from its bytes as they are read back. -/
theorem wholeGranuleWrites : Obligations.WholeGranuleWrites := by
  unfold Obligations.WholeGranuleWrites
  intro d a l poison ha hl hs hf hi e
  have h0 : 0 < l.length := by omega
  have h : a % 256 + l.length ≤ 256 := by omega
  obtain ⟨hbytes, hbeside, hothers⟩ := store_bytes_and_frame h0 h hs poison hf
  have hmark : e.mark (a / 256) = if poison then .poison else .good := store_whole_mark h0 h hs hl hf hi
  rw [hl] at hbytes hbeside
  have hword := Dev.checkWord_of_mark hmark
  rw [Nat.div_mul_cancel (Nat.dvd_of_mod_eq_zero ha), hbytes] at hword
  exact ⟨hbytes, hmark, hword, hbeside, hothers⟩

/-- Settles O38: a merge stores the bytes over those that stand, and its mark is taken after the merge's read. -/
theorem partialWritesAreMerged : Obligations.PartialWritesAreMerged := by
  unfold Obligations.PartialWritesAreMerged
  intro d a l poison h0 hl h hs hf
  obtain ⟨hbytes, hbeside, hothers⟩ := store_bytes_and_frame h0 h hs poison hf
  exact ⟨hbytes, hbeside, store_part_mark h0 h hs hl hf, hothers⟩

/-- Settles O39: a failed site drops the bytes; elsewhere the pre-image is kept (log entry 75) and the bytes are stored. -/
theorem droppedAndPreservedWrites : Obligations.DroppedAndPreservedWrites := by
  unfold Obligations.DroppedAndPreservedWrites
  intro d a l poison h0 h hs
  refine ⟨fun hf => store_failed_keeps h0 h hs poison hf,
    fun hg hmeets => ⟨store_keeps_preImage poison h0 h hs hg hmeets, fun hf => ?_⟩⟩
  obtain ⟨hbytes, -⟩ := store_bytes_and_frame h0 h hs poison hf
  exact hbytes

end Sys2Proof
end

