-- ==== Sys2Proof/Proofs/Arithmetic.lean ====
section
/-!
PROOF. Proofs/Arithmetic.lean: the instructions that compute on registers, each with its result where its operands' tags
pass; O9 and O53.
-/
namespace Sys2Proof.Machine

variable {d x : Dev} {i : Fin 37} {c : BitVec 4} {k : Core} {rd ra rb : BitVec 5} {v r : DWord} {t fn : Nat} {fl : NZCV}

/-! ### Tags -/

theorem ne_tINT_of_isAddrTag (h : isAddrTag t = true) : t ≠ tINT := by rintro rfl; exact absurd h (by decide)

theorem ne_tPOISON_of_isAddrTag (h : isAddrTag t = true) : t ≠ tPOISON := by rintro rfl; exact absurd h (by decide)

/-- Neither operand is POISON where one is an address (R228). -/
theorem clean_of_isAddrTag {u : Nat} (ht : isAddrTag t = true) (hu : u ≠ tPOISON) : (t == tPOISON || u == tPOISON) = false := by
  simp [ne_tPOISON_of_isAddrTag ht, hu]

/-! ### The ALU (R225, R228, R234) -/

/-- The core after an ALU operation that gives value `v` tagged `t` and flags `fl`; a comparison gives flags alone. -/
def Core.aluDone (k : Core) (rd : BitVec 5) (fn : Nat) (poison : Bool) (v : DWord) (t : Nat) (fl : NZCV) : Core :=
  let k1 := if fn % 64 == 0x13 || decide (64 ≤ fn) then k.flagged poison fl else k
  if fn % 64 == 0x13 then k1 else k1.setReg rd v (if poison then tPOISON else t)

theorem Core.aluDone_compare (h : fn % 64 = 0x13) : k.aluDone rd fn false v t fl = k.setFlags fl true := by
  simp [Core.aluDone, Core.flagged, h]

theorem Core.aluDone_result (h : fn % 64 ≠ 0x13) :
    k.aluDone rd fn false v t fl = (if 64 ≤ fn then k.setFlags fl true else k).setReg rd v t := by
  simp [Core.aluDone, Core.flagged, h]

theorem Core.aluDone_poison (h : fn % 64 ≠ 0x13) :
    k.aluDone rd fn true v t fl = (if 64 ≤ fn then { k with t := false } else k).setReg rd v tPOISON := by
  simp [Core.aluDone, Core.flagged, h]

/-- The fields that a function code does not use are 0 (R219, Table 8.6). -/
def aluFieldsOk (fn : Nat) (rd rb : BitVec 5) : Prop :=
  (fn % 64 = 0x13 → rd = 0) ∧ (fn % 64 ∈ [0x14, 0x15] → rb = 0)

theorem aluFieldsOk_of_lt (h : fn % 64 < 0x13) : aluFieldsOk fn rd rb :=
  ⟨fun e => by omega, fun e => by simp only [List.mem_cons, List.not_mem_nil, or_false] at e; omega⟩

section
variable (hop : aluOp (fn % 64) (k.reg ra).v (k.reg rb).v = some (r, fl)) (hok : aluFieldsOk fn rd rb)
include hop hok

theorem Dev.alu_poison (h : (k.reg ra).tag = tPOISON ∨ (k.reg rb).tag = tPOISON) :
    x.alu i k rd ra rb fn = .done (x.setCore i (k.aluDone rd fn true r tINT fl)) := by
  obtain ⟨hrd, hrb⟩ := hok
  have hpz : ((k.reg ra).tag == tPOISON || (k.reg rb).tag == tPOISON) = true := by simpa using h
  simp only [Dev.alu, hop, hpz]
  rw [if_neg (by simpa using ⟨hrd, by simpa using hrb⟩)]
  rfl

theorem Dev.alu_int (ha : (k.reg ra).tag = tINT) (hb : (k.reg rb).tag = tINT) :
    x.alu i k rd ra rb fn = .done (x.setCore i (k.aluDone rd fn false r tINT fl)) := by
  obtain ⟨hrd, hrb⟩ := hok
  simp only [Dev.alu, hop, ha, hb]
  rw [if_neg (by simpa using ⟨hrd, by simpa using hrb⟩)]
  rfl

/-- TIDE values are compared, as integers are (R234). -/
theorem Dev.alu_compare_tide (hf : fn % 64 = 0x13) (ha : (k.reg ra).tag = tTIDE) (hb : (k.reg rb).tag = tTIDE) :
    x.alu i k rd ra rb fn = .done (x.setCore i (k.aluDone rd fn false 0 tINT fl)) := by
  obtain ⟨hrd, -⟩ := hok
  simp only [Dev.alu, hop, ha, hb]
  simp only [hf, hrd hf, Core.aluDone]
  rfl

/-- Addresses of one tag are compared by their ADDR fields (R234). -/
theorem Dev.alu_compare_address (hf : fn % 64 = 0x13) (ha : isAddrTag (k.reg ra).tag = true)
    (hab : (k.reg ra).tag = (k.reg rb).tag) :
    x.alu i k rd ra rb fn = .done (x.setCore i (k.aluDone rd fn false 0 tINT
      (subFlags (BitVec.ofNat 64 (adrOf (k.reg ra).tag (k.reg ra).v))
        (BitVec.ofNat 64 (adrOf (k.reg rb).tag (k.reg rb).v))))) := by
  obtain ⟨hrd, -⟩ := hok
  have hpz := clean_of_isAddrTag ha (hab ▸ ne_tPOISON_of_isAddrTag ha)
  simp only [Dev.alu, hop, hpz]
  simp [hf, hrd hf, ha, ne_tINT_of_isAddrTag ha, ← hab, Core.aluDone]

/-- An address and an integer: the ADDR field moves within its bound (R225). -/
theorem Dev.alu_move_address (hf : fn % 64 = 0 ∨ fn % 64 = 1) (ha : isAddrTag (k.reg ra).tag = true)
    (hb : (k.reg rb).tag = tINT)
    (hv : withAdr (k.reg ra).tag (k.reg ra).v
      (adrPlus (k.reg ra).tag (k.reg ra).v (if fn % 64 = 0 then (k.reg rb).v else -(k.reg rb).v)) = some v) :
    x.alu i k rd ra rb fn =
      .done (x.setCore i (k.aluDone rd fn false v (k.reg ra).tag { fl with n := v.msb, z := v == 0 })) := by
  obtain ⟨hrd, hrb⟩ := hok
  have hpz := clean_of_isAddrTag ha (show (k.reg rb).tag ≠ tPOISON by rw [hb]; decide)
  simp only [Dev.alu, hop, hpz, hv]
  rw [if_neg (by simpa using ⟨hrd, by simpa using hrb⟩), if_neg Bool.false_ne_true,
    if_neg fun h => ne_tINT_of_isAddrTag ha h.1, if_pos ⟨hf, ha, hb⟩]
  rfl

omit hok in
/-- Addresses of one tag: the difference of their ADDR fields (R225). -/
theorem Dev.alu_distance (hf : fn % 64 = 1) (ha : isAddrTag (k.reg ra).tag = true)
    (hab : (k.reg ra).tag = (k.reg rb).tag) :
    let p := BitVec.ofNat 64 (adrOf (k.reg ra).tag (k.reg ra).v)
    let q := BitVec.ofNat 64 (adrOf (k.reg rb).tag (k.reg rb).v)
    x.alu i k rd ra rb fn = .done (x.setCore i (k.aluDone rd fn false (p - q) tINT (subFlags p q))) := by
  have hpz := clean_of_isAddrTag ha (hab ▸ ne_tPOISON_of_isAddrTag ha)
  simp only [Dev.alu, hop, hpz]
  simp [hf, ha, ne_tINT_of_isAddrTag ha, ← hab, Core.aluDone]

end

section
variable {fn : BitVec 7} (hr : d.runs i c)
include hr

theorem does_alu {k1 : Core} (h : ∀ x : Dev, x.alu i (d.core i) rd ra rb fn.toNat = .done (x.setCore i k1)) :
    Does (.alu i c rd ra rb fn) d ((d.issuing i c).retireWith i k1) :=
  does_insn_with (exec_alu i c rd ra rb fn) hr level_unprivileged (h _)

theorem does_alu_compare (hf : fn.toNat % 64 = 0x13) (h : ∀ x : Dev, x.alu i (d.core i) rd ra rb fn.toNat =
      .done (x.setCore i ((d.core i).aluDone rd fn.toNat false v t fl))) :
    Does (.alu i c rd ra rb fn) d ((d.issuing i c).retireWith i ((d.core i).setFlags fl true)) := by
  rw [← Core.aluDone_compare hf]
  exact does_alu hr h

theorem does_alu_result (hf : fn.toNat % 64 ≠ 0x13) (h : ∀ x : Dev, x.alu i (d.core i) rd ra rb fn.toNat =
      .done (x.setCore i ((d.core i).aluDone rd fn.toNat false v t fl))) :
    Does (.alu i c rd ra rb fn) d ((d.issuing i c).retireWith i
      ((if 64 ≤ fn.toNat then (d.core i).setFlags fl true else d.core i).setReg rd v t)) := by
  rw [← Core.aluDone_result hf]
  exact does_alu hr h

theorem does_alu_poison (hf : fn.toNat % 64 ≠ 0x13) (h : ∀ x : Dev, x.alu i (d.core i) rd ra rb fn.toNat =
      .done (x.setCore i ((d.core i).aluDone rd fn.toNat true v t fl))) :
    Does (.alu i c rd ra rb fn) d ((d.issuing i c).retireWith i
      ((if 64 ≤ fn.toNat then { d.core i with t := false } else d.core i).setReg rd v tPOISON)) := by
  rw [← Core.aluDone_poison hf]
  exact does_alu hr h

end

/-! ### A register and an immediate -/

theorem Dev.aluImm_int {f : DWord → DWord} (h : (k.reg ra).tag = tINT) :
    x.aluImm i k rd ra f = .done (x.setCore i (k.setReg rd (f (k.reg ra).v) tINT)) := by
  simp only [Dev.aluImm, h]
  rfl

theorem does_addi {imm : BitVec 12} (hr : d.runs i c) (ht : ((d.core i).reg ra).tag = tINT) :
    Does (.addi i c rd ra imm) d ((d.issuing i c).retireWith i
      ((d.core i).setReg rd (((d.core i).reg ra).v + imm.signExtend 64) tINT)) := by
  refine does_insn_with (exec_addi i c rd ra imm) hr level_unprivileged ((if_neg ?_).trans (Dev.aluImm_int ht))
  rw [ht]; decide

theorem does_addi_address {imm : BitVec 12} (hr : d.runs i c) (ht : isAddrTag ((d.core i).reg ra).tag = true)
    (hv : withAdr ((d.core i).reg ra).tag ((d.core i).reg ra).v
      (adrPlus ((d.core i).reg ra).tag ((d.core i).reg ra).v (imm.signExtend 64)) = some v) :
    Does (.addi i c rd ra imm) d ((d.issuing i c).retireWith i ((d.core i).setReg rd v ((d.core i).reg ra).tag)) := by
  refine does_insn_with (exec_addi i c rd ra imm) hr level_unprivileged ((if_pos ht).trans ?_)
  simp only [sx, hv]
  rfl

theorem does_shi {imm : BitVec 12} (hr : d.runs i c) (ht : ((d.core i).reg ra).tag = tINT) (himm : imm.toNat < 256) :
    Does (.shi i c rd ra imm) d ((d.issuing i c).retireWith i
      ((d.core i).setReg rd (shiftImm imm.toNat ((d.core i).reg ra).v) tINT)) :=
  does_insn_with (exec_shi i c rd ra imm) hr level_unprivileged ((if_neg (Nat.not_le.2 himm)).trans (Dev.aluImm_int ht))

theorem does_movs {imm : BitVec 17} (hr : d.runs i c) (ht : ((d.core i).reg rd).tag = tINT) (himm : imm.toNat < 2 ^ 16) :
    Does (.movs i c rd imm) d ((d.issuing i c).retireWith i
      ((d.core i).setReg rd ((((d.core i).reg rd).v <<< 16) ||| imm.zeroExtend 64) tINT)) :=
  does_insn_with (exec_movs i c rd imm) hr level_unprivileged ((if_neg (Nat.not_le.2 himm)).trans (Dev.aluImm_int ht))

theorem does_cmpi {imm : BitVec 12} (hr : d.runs i c) (ht : ((d.core i).reg ra).tag = tINT) :
    Does (.cmpi i c 0 ra imm) d ((d.issuing i c).retireWith i
      ((d.core i).setFlags (subFlags ((d.core i).reg ra).v (imm.signExtend 64)) true)) := by
  refine does_insn_with (exec_cmpi i c 0 ra imm) hr level_unprivileged ?_
  simp only [ht]
  rfl

/-! ### The FPU (R228, R235) -/

/-- An operation on operands of the tags given, with one source register or two (R228, Table 8.7). -/
def Dev.fpuOp (d : Dev) (i : Fin 37) (k : Core) (rd rb : BitVec 5) (ts : List (Reg × Nat)) (unary : Bool) (v : DWord)
    (t : Nat) : Iss :=
  if unary && rb ≠ 0 then .trap 6 0
  else
    let poison := ts.any fun p => p.1.tag == tPOISON
    match if poison then none else ts.find? fun p => p.1.tag ≠ p.2 with
    | some p => .trap 1 p.1.v
    | none => d.giveP i k rd v t poison

theorem Dev.fpuOp_of_tags {ts : List (Reg × Nat)} {unary : Bool} (hts : ∀ p ∈ ts, p.1.tag = p.2 ∧ p.2 ≠ tPOISON)
    (hun : unary = true → rb = 0) :
    x.fpuOp i k rd rb ts unary v t = .done (x.setCore i (k.setReg rd v t)) := by
  have hclean : (ts.any fun p => p.1.tag == tPOISON) = false := by
    simp only [List.any_eq_false, beq_iff_eq]
    intro p hp
    rw [(hts p hp).1]
    exact (hts p hp).2
  have hfind : (ts.find? fun p => p.1.tag ≠ p.2) = none := by
    simpa [List.find?_eq_none] using fun a b hp => (hts (a, b) hp).1
  unfold Dev.fpuOp
  simp only [hclean, hfind]
  rw [if_neg (by simpa using hun)]
  rfl

/-- An FPU function that is an operation on tagged operands, which they have (R235). -/
theorem does_fpu {n : Nat} {ts : List (Reg × Nat)} {unary : Bool} (hn : n < 128) (hr : d.runs i c)
    (hop : ∀ x : Dev, x.fpu i (d.core i) rd ra rb n = x.fpuOp i (d.core i) rd rb ts unary v t)
    (hts : ∀ p ∈ ts, p.1.tag = p.2 ∧ p.2 ≠ tPOISON) (hun : unary = true → rb = 0) :
    Does (.fpu i c rd ra rb (BitVec.ofNat 7 n)) d ((d.issuing i c).retireWith i ((d.core i).setReg rd v t)) := by
  refine does_insn_with (exec_fpu i c rd ra rb _) hr level_unprivileged ?_
  have hcode : (BitVec.ofNat 7 n).toNat = n := by simp; omega
  exact (congrArg ((d.issuing i c).fpu i (d.core i) rd ra rb) hcode).trans ((hop _).trans (Dev.fpuOp_of_tags hts hun))

/-- F2T to a format the FPU takes. -/
theorem Dev.fpu_f2t {f : FF} (hf : f2tFormat (k.reg rb).v.toNat = some f) : x.fpu i k rd ra rb 0x0d =
    x.fpuOp i k rd rb [(k.reg ra, tFP), (k.reg rb, tINT)] false (BitVec.ofNat 64
      (encElem ((k.reg rb).v.toNat % 32) (d64 (k.reg ra).v) (bitN (k.reg rb).v.toNat 5) none).code) tINT := by
  simp only [Dev.fpu, hf]
  rfl

/-- T2F from a format the FPU takes. -/
theorem Dev.fpu_t2f {f : FF} (hf : f2tFormat (k.reg rb).v.toNat = some f) : x.fpu i k rd ra rb 0x0e =
    x.fpuOp i k rd rb [(k.reg ra, tINT), (k.reg rb, tINT)] false
      (e64 (f.dec ((k.reg ra).v.toNat % 2 ^ elemBits ((k.reg rb).v.toNat % 32)))) tFP := by
  simp only [Dev.fpu, hf]
  rfl

/-- FCMP (R234, R235). -/
theorem does_fcmp (hr : d.runs i c) (ha : ((d.core i).reg ra).tag = tFP) (hb : ((d.core i).reg rb).tag = tFP) :
    Does (.fpu i c 0 ra rb 0x08) d ((d.issuing i c).retireWith i
      ((d.core i).setFlags (fcmpFlags ((d.core i).reg ra).v ((d.core i).reg rb).v) true)) := by
  refine does_insn_with (exec_fpu i c 0 ra rb 0x08) hr level_unprivileged ?_
  change (d.issuing i c).fpu i (d.core i) 0 ra rb 0x08 = _
  simp only [Dev.fpu, ha, hb]
  rfl

/-! ### Tags (R222 to R224, Table 8.8) -/

/-- A conversion that its operand's tag allows. -/
theorem does_convert {ins : Instr} {w : Nat} {f : Reg → Reg ⊕ Nat}
    (hexec : ∀ s, exec ins s = lift (fun x => x.insn i c false w fun k x => x.convert i k rd ra f) s) (hr : d.runs i c)
    (ht : ((d.core i).reg ra).tag ≠ tPOISON) (hf : f ((d.core i).reg ra) = .inl ⟨v, t⟩) :
    Does ins d ((d.issuing i c).retireWith i ((d.core i).setReg rd v t)) := by
  refine does_insn_with hexec hr level_unprivileged ?_
  simp only [Dev.convert, hf]
  rw [if_neg ht]
  rfl

theorem does_ttst (hr : d.runs i c) (hb : rb.toNat < 16) : Does (.ttst i c ra rb) d
    ((d.issuing i c).retireWith i { d.core i with t := ((d.core i).reg ra).tag == rb.toNat }) :=
  does_insn_with (exec_ttst i c ra rb) hr level_unprivileged (if_neg (Nat.not_le.2 hb))

/-- NARROW to a size within the bound (R224). -/
theorem does_narrow (hr : d.runs i c) (ha : isAddrTag ((d.core i).reg ra).tag = true) (hb : ((d.core i).reg rb).tag = tINT)
    (hmin : 6 ≤ ((d.core i).reg rb).v.toNat)
    (hmax : ((d.core i).reg rb).v.toNat ≤ boundS ((d.core i).reg ra).tag ((d.core i).reg ra).v) :
    Does (.narrow i c rd ra rb) d ((d.issuing i c).retireWith i ((d.core i).setReg rd
      (BitVec.ofNat 64 (setFieldN ((d.core i).reg ra).v.toNat (addrBits ((d.core i).reg ra).tag) 6 ((d.core i).reg rb).v.toNat))
      ((d.core i).reg ra).tag)) := by
  refine does_insn_with (exec_narrow i c rd ra rb) hr level_unprivileged ?_
  dsimp only
  rw [if_neg (by rw [hb]; decide), if_neg fun h => h.2.2 hb, if_neg fun h => by omega, Dev.convert,
    if_neg (ne_tPOISON_of_isAddrTag ha), if_pos ha]
  rfl

theorem tagOk_lt (h : tagOk t = true) : t < 16 := by
  have hmem : t ∈ [0, 1, 2, 3, 4, 5, 7, 15] := by simpa [tagOk] using h
  exact (by decide : ∀ u ∈ [0, 1, 2, 3, 4, 5, 7, 15], u < 16) t hmem

/-- MINT on a service core or the security core (R222 to R224). -/
theorem does_mint (hr : d.runs i c) (hi : 32 ≤ i.val) (ht : tagOk rb.toNat = true)
    (hl : layoutOk rb.toNat ((d.core i).reg ra).v = true) :
    Does (.mint i c rd ra rb) d
      ((d.issuing i c).retireWith i ((d.core i).setReg rd ((d.core i).reg ra).v rb.toNat)) := by
  refine does_insn_with (exec_mint i c rd ra rb) hr (fun _ => hi) ?_
  dsimp only
  rw [if_neg (Nat.not_le.2 (tagOk_lt ht)), if_neg (by simp [ht, hl])]
  rfl

/-! ### The tide and the clock (R239, R485) -/

theorem does_tcur (hr : d.runs i c) (hh : d.tide.hold = false) : Does (.tcur i c rd) d
    ((d.issuing i c).retireWith i ((d.core i).setReg rd d.tide.cur tTIDE)) := by
  refine does_insn_with (exec_tcur i c rd) hr level_unprivileged ?_
  rw [Dev.issuing_tide, hh]
  rfl

theorem does_clk (hr : d.runs i c) : Does (.clk i c rd) d
    ((d.issuing i c).retireWith i ((d.core i).setReg rd d.trclk tINT)) := by
  refine does_insn_with (exec_clk i c rd) hr level_unprivileged ?_
  rw [Dev.issuing_trclk]
  rfl

end Sys2Proof.Machine

namespace Sys2Proof
open Machine

/-- Settles O9: the operands have the tags that each instruction asks for, so no check traps. -/
theorem arithmeticInstructionsComplete : Obligations.ArithmeticInstructionsComplete := by
  unfold Obligations.ArithmeticInstructionsComplete
  refine ⟨?_, ?_, ?_, ?_, ?_, ?_, ?_, ?_⟩
  · intro d i c rd ra rb fn x fl k hr hop hf hrb ha hb
    exact does_alu_result hr hf fun _ => Dev.alu_int hop ⟨fun h => absurd h hf, hrb⟩ ha hb
  · intro d i c ra imm hr ht
    exact does_cmpi hr ht
  · intro d i c rd ra rb fn k x y hr ha hb
    have htags : ∀ p ∈ [(k.reg ra, tFP), (k.reg rb, tFP)], p.1.tag = p.2 ∧ p.2 ≠ tPOISON := by
      simp [ha, hb, tFP, tPOISON]
    refine does_fpu (ts := [(k.reg ra, tFP), (k.reg rb, tFP)]) (unary := false) (by omega) hr (fun z => ?_) htags nofun
    match fn with
    | 0 | 1 | 2 | 3 => rfl
  · intro d i c rd ra imm k hr ht
    exact ⟨does_addi hr ht,
      does_insn_with (exec_andi i c rd ra imm) hr level_unprivileged (Dev.aluImm_int ht),
      does_insn_with (exec_ori i c rd ra imm) hr level_unprivileged (Dev.aluImm_int ht),
      does_insn_with (exec_xori i c rd ra imm) hr level_unprivileged (Dev.aluImm_int ht), does_shi hr ht⟩
  · intro d i c rd ra imm v k hr ht hv
    exact does_addi_address hr ht hv
  · intro d i c rd imm k hr
    exact ⟨does_insn_with (exec_movi i c rd imm) hr level_unprivileged rfl, fun himm ht => does_movs hr ht himm⟩
  · intro d i c rd ra rb k hr
    refine ⟨does_insn_with (exec_tget i c rd ra) hr level_unprivileged rfl, does_ttst hr, fun ht => ?_, fun ht => ?_,
      fun ht hl => ?_, fun ht => ?_, does_narrow hr, fun ht => ?_, does_mint hr⟩
    · exact does_convert (exec_mkt i c rd ra) hr (by rw [ht]; decide) (if_pos ht)
    · have htag : (k.reg ra).tag = tTIDE ∨ (k.reg ra).tag = tHNDL ∨ (k.reg ra).tag = tFP := by simpa using ht
      have hpoison : (k.reg ra).tag ≠ tPOISON := by obtain h | h | h := htag <;> rw [h] <;> decide
      exact does_convert (exec_tint i c rd ra) hr hpoison (if_pos htag)
    · exact does_convert (exec_mkh i c rd ra) hr (by rw [ht]; decide) 
        (if_pos (Bool.and_eq_true_iff.2 ⟨decide_eq_true ht, hl⟩))
    · exact does_convert (exec_addr i c rd ra) hr (ne_tPOISON_of_isAddrTag ht) (if_pos ht)
    · have htag : (k.reg ra).tag = tDADDR ∨ (k.reg ra).tag = tIO := by simpa using ht
      have hpoison : (k.reg ra).tag ≠ tPOISON := by obtain h | h := htag <;> rw [h] <;> decide
      exact does_convert (exec_rdonly i c rd ra) hr hpoison (if_pos htag)
  · intro d i c rd hr
    exact ⟨does_tcur hr, does_clk hr⟩

/-- Settles O53: the operands have the tags that each form asks for, or one of them is POISON. That C and V of an address
moved are those of the integer operation is the model's choice (log entry 25). -/
theorem otherArithmeticFormsComplete : Obligations.OtherArithmeticFormsComplete := by
  unfold Obligations.OtherArithmeticFormsComplete
  intro d i c rd ra rb k a b x y fpu alu flags hr
  have htag : ∀ u ∈ [tINT, tFP], u ≠ tPOISON := by decide
  refine ⟨fun ha hb => ?_, fun ha hb => ?_, fun ha hb => ?_, fun f hf hb => ?_, fun fn r fl hop => ?_⟩
  · have hts : ∀ p ∈ [(a, tFP)], p.1.tag = p.2 ∧ p.2 ≠ tPOISON := by simp [ha, tFP, tPOISON]
    refine ⟨?_, ?_, ?_, ?_⟩ <;> exact does_fpu (by decide) hr (fun _ => rfl) hts fun _ => hb
  · have hts : ∀ p ∈ [(a, tINT)], p.1.tag = p.2 ∧ p.2 ≠ tPOISON := by simp [ha, tINT, tPOISON]
    exact does_fpu (by decide) hr (fun _ => rfl) hts fun _ => hb
  · have hts : ∀ p ∈ [(a, tFP), (b, tFP)], p.1.tag = p.2 ∧ p.2 ≠ tPOISON := by simp [ha, hb, tFP, tPOISON]
    refine ⟨does_fpu (unary := false) (by decide) hr (fun _ => rfl) hts nofun,
      does_fpu (unary := false) (by decide) hr (fun _ => rfl) hts nofun, fun hd => ?_, fun hd => ?_⟩
    · have hts3 : ∀ p ∈ (k.reg rd, tFP) :: [(a, tFP), (b, tFP)], p.1.tag = p.2 ∧ p.2 ≠ tPOISON :=
        List.forall_mem_cons.2 ⟨⟨hd, htag tFP (by simp)⟩, hts⟩
      exact does_fpu (unary := false) (by decide) hr (fun _ => rfl) hts3 nofun
    · subst hd
      exact does_fcmp hr ha hb
  · have hts {u : Nat} (hu : u ∈ [tINT, tFP]) (ha : a.tag = u) :
        ∀ p ∈ [(a, u), (b, tINT)], p.1.tag = p.2 ∧ p.2 ≠ tPOISON := by
      simp [ha, hb, htag u hu, htag tINT (by simp)]
    exact ⟨fun ha => does_fpu (by decide) hr (fun _ => Dev.fpu_f2t hf) (hts (by simp) ha) nofun,
      fun ha => does_fpu (by decide) hr (fun _ => Dev.fpu_t2f hf) (hts (by simp) ha) nofun⟩
  · have hok (hf : fn.toNat % 64 = 0x13) (hrd : rd = 0) : aluFieldsOk fn.toNat rd rb :=
      ⟨fun _ => hrd, fun h => by rw [hf] at h; exact absurd h (by decide)⟩
    refine ⟨fun hf ha hb v hv => ?_, fun hf ha hab => ?_, fun hf hrd hab => ⟨fun ha => ?_, fun ha => ?_⟩,
      fun hf hrb hpz => ?_⟩
    · have hfn : fn.toNat % 64 = 0 ∨ fn.toNat % 64 = 1 := by simpa using hf
      exact does_alu_result hr (by omega) fun _ =>
        Dev.alu_move_address hop (aluFieldsOk_of_lt (by omega)) hfn ha hb hv
    · exact does_alu_result hr (by omega) fun _ => Dev.alu_distance hop hf ha hab
    · obtain ha | ha := ha
      · exact does_alu_compare hr hf fun _ => Dev.alu_int hop (hok hf hrd) ha (hab.symm.trans ha)
      · exact does_alu_compare hr hf fun _ => Dev.alu_compare_tide hop (hok hf hrd) hf ha (hab.symm.trans ha)
    · exact does_alu_compare hr hf fun _ => Dev.alu_compare_address hop (hok hf hrd) hf ha hab
    · exact does_alu_poison hr hf fun _ => Dev.alu_poison hop ⟨fun h => absurd h hf, hrb⟩ hpz

end Sys2Proof
end

