-- ==== Sys2Proof/Proofs/Accesses.lean ====
section
/-!
PROOF. Proofs/Accesses.lean: the instructions that reach memory and those that enter work in queues, where their checks pass
and memory answers; O10 and O12.
-/
namespace Sys2Proof.Machine
open Laws

variable {d e x : Dev} {i : Fin 37} {c : BitVec 4} {ins : Instr} {w n p : Nat} {rd ra rb : BitVec 5} {imm : BitVec 12}
  {io : Mio} {l : List Byte} {bad : Bool}

/-! ### Reads and writes whose checks pass (R226) -/

theorem Dev.linkErrors_none (a : Nat) : d.linkErrors a 0 = (true, d) := by rw [Dev.linkErrors, if_pos (.inr rfl)]

theorem Dev.memLoad_of_answer (hb : d.blocked p n = false) (hl : io.links = 0) (h : d.coreMem i p n = (l, bad, e)) :
    d.memLoad i p n io = .got l bad e := by
  simp only [Dev.coreMem] at h
  simp only [Dev.memLoad, hb, hl, Dev.linkErrors_none, h]
  rfl

/-- A read whose checks pass and that memory answers gets what memory holds. -/
theorem Dev.coreRead_of_canLoad {r : Reg} {off : DWord} (hc : d.canLoad i r off n io p) (h : d.coreMem i p n = (l, bad, e)) :
    d.coreRead i r off n n io = .got l bad e := by
  obtain ⟨hchk, htag, hpages, hcheck, hblocked, hlinks⟩ := hc
  have hload := Dev.memLoad_of_answer hblocked hlinks h
  simp only [Dev.coreRead, hchk, if_neg htag]
  cases harea : areaOf p with
  | pages => exact absurd harea hpages
  | check => exact absurd harea hcheck
  | device | harbour | sram | unmapped => exact hload

/-- A write whose checks pass puts its bytes. -/
theorem Dev.coreWrite_of_canStore {r : Reg} {off : DWord} {align : Nat} (hc : d.canStore i r off n align p) (hl : l.length = n)
    (poison : Bool) : d.coreWrite i r off align l poison = .put (d.corePut i p l poison) := by
  obtain ⟨hchk, htag, hpages, hblocked⟩ := hc
  simp only [Dev.coreWrite, hl, hchk, if_neg htag, hblocked]
  cases harea : areaOf p with
  | pages => exact absurd harea hpages
  | device | harbour | sram | unmapped | check => rfl

/-! ### Loads and stores (R227, R229) -/

/-- What a load of `n` bytes leaves (R227). -/
theorem does_load {signed : Bool} (hexec : ∀ s, exec ins s = lift (fun x => x.insn i c false w fun k x =>
      x.load i k rd ra imm n signed io) s) (hr : d.runs i c)
    (hc : (d.issuing i c).canLoad i ((d.core i).reg ra) (imm.signExtend 64) n io p)
    (h : (d.issuing i c).coreMem i p n = (l, bad, e)) :
    Does ins d ((e.loadInto i rd (loadVal n signed (leNat l)) (if bad then tPOISON else tINT)).retire i (d.core i).pc) := by
  refine does_insn_done hexec hr level_unprivileged ?_
  simp only [Dev.load, sx, Dev.coreRead_of_canLoad hc h]
  rfl

theorem does_store (hexec : ∀ s, exec ins s = lift (fun x => x.insn i c false w fun k x =>
      x.coreStore i k rd ra imm n) s) (hr : d.runs i c)
    (hc : (d.issuing i c).canStore i ((d.core i).reg ra) (imm.signExtend 64) n n p) :
    Does ins d (((d.issuing i c).corePut i p (leBytes (storeVal ((d.core i).reg rd)) n)
      (((d.core i).reg rd).tag == tPOISON)).retire i (d.core i).pc) := by
  refine does_insn_done hexec hr level_unprivileged ?_
  simp only [Dev.coreStore, sx, Dev.coreWrite_of_canStore hc (leBytes_len _ n)]
  rfl

/-- LDC of a sealed image whose seal agrees (R229). -/
theorem does_ldc (hr : d.runs i c) (hc : (d.issuing i c).canLoad i ((d.core i).reg ra) (imm.signExtend 64) 16 io p)
    (h : (d.issuing i c).coreMem i p 16 = (l, false, e)) (himm : imm.toNat % 16 = 0) (ht : tagOk (leAt l 8 1) = true)
    (hs : sealField (e.keyOf i) p (BitVec.ofNat 64 (leAt l 0 8)) (leAt l 8 1) = leAt l 12 4) :
    Does (.ldc i c rd ra imm io) d
      ((e.loadInto i rd (BitVec.ofNat 64 (leAt l 0 8)) (leAt l 8 1)).retire i (d.core i).pc) := by
  refine does_insn_done (exec_ldc i c rd ra imm io) hr level_unprivileged ?_
  simp only [himm, sx, Dev.coreRead_of_canLoad hc h, ← chk_addr hc.1, hs, ht, ne_eq, not_true_eq_false, if_false, decide_false,
    Bool.not_true, Bool.or_false, Bool.false_eq_true]
  rfl

/-- LDT of a tag and a value that it may carry (R224, R227). -/
theorem does_ldt (hr : d.runs i c) (hc : (d.issuing i c).canLoad i ((d.core i).reg ra) (imm.signExtend 64) 16 io p)
    (h : (d.issuing i c).coreMem i p 16 = (l, false, e)) (hi : 32 ≤ i.val) (ht : tagOk (leAt l 8 1) = true)
    (hl : layoutOk (leAt l 8 1) (BitVec.ofNat 64 (leAt l 0 8)) = true) :
    Does (.ldt i c rd ra ⟨imm, io⟩) d
      ((e.loadInto i rd (BitVec.ofNat 64 (leAt l 0 8)) (leAt l 8 1)).retire i (d.core i).pc) := by
  refine does_insn_done (exec_ldt i c rd ra ⟨imm, io⟩) hr (fun _ => hi) ?_
  simp only [sx, Dev.coreRead_of_canLoad hc h, ht, hl]
  rfl

theorem sealImage_length (key a : Nat) (r : Reg) : (sealImage key a r).length = 16 := by
  simp only [sealImage, List.length_append, leBytes_len, List.length_cons, List.length_nil]

/-- A register as its value, its tag and zeros (Table 8.5). -/
def taggedImage (r : Reg) : List Byte := leBytes r.v.toNat 8 ++ [BitVec.ofNat 8 r.tag] ++ List.replicate 7 0

theorem taggedImage_length (r : Reg) : (taggedImage r).length = 16 := by
  simp only [taggedImage, List.length_append, leBytes_len, List.length_cons, List.length_nil, List.length_replicate]

theorem does_stc (hr : d.runs i c) (hc : (d.issuing i c).canStore i ((d.core i).reg ra) (imm.signExtend 64) 16 16 p)
    (himm : imm.toNat % 16 = 0) : Does (.stc i c rd ra imm) d
      (((d.issuing i c).corePut i p (sealImage ((d.issuing i c).keyOf i) p ((d.core i).reg rd))
        (((d.core i).reg rd).tag == tPOISON)).retire i (d.core i).pc) := by
  refine does_insn_done (exec_stc i c rd ra imm) hr level_unprivileged ?_
  simp only [himm, sx, ← chk_addr hc.1, Dev.coreWrite_of_canStore hc (sealImage_length _ _ _)]
  rfl

theorem does_stt (hr : d.runs i c) (hc : (d.issuing i c).canStore i ((d.core i).reg ra) (imm.signExtend 64) 16 16 p)
    (hi : 32 ≤ i.val) : Does (.stt i c rd ra imm) d
      (((d.issuing i c).corePut i p (taggedImage ((d.core i).reg rd))
        (((d.core i).reg rd).tag == tPOISON)).retire i (d.core i).pc) :=
  does_insn_done (exec_stt i c rd ra imm) hr (fun _ => hi)
    (congrArg Wr.iss (Dev.coreWrite_of_canStore hc (taggedImage_length _) _))

/-! ### Loads that time out, atomics, WAITNE and LDG (R227, R228, R230 to R233) -/

/-- What a load that no memory answers does to its port, where it is a bus read (R227). -/
def Dev.busTimedOut (d : Dev) (p : Nat) (bus : Bool) : Dev := if bus then d.cmplTmo (d.busPort p) else d

theorem Dev.busTimedOut_true : d.busTimedOut p true = d.cmplTmo (d.busPort p) := if_pos rfl

theorem Dev.busTimedOut_false : d.busTimedOut p false = d := if_neg Bool.false_ne_true

/-- A load but WAITNE for which no memory answers (R227); its value is the model's choice (log entry 28). -/
theorem does_loadTimeout {op : Fin 10} {bus : Bool} (hr : d.runs i c) (hop : op ≠ 9) (hal : op = 7 → imm.toNat % 16 = 0)
    (hi : op = 8 → 32 ≤ i.val) (hc : chkAccess i ((d.core i).reg ra) (imm.signExtend 64) (loadSize op) (loadSize op) false
      false = .ok p) (hbus : (((d.core i).reg ra).tag == tIO) = bus)
    (harea : bus = true ∨ areaOf p ≠ .pages ∧ areaOf p ≠ .check) :
    Does (.loadTimeout i c op rd ra imm) d (((((d.issuing i c).freeWord.2.busTimedOut p bus).report (corePage i) none 0x0005
      (domOf ((d.core i).dom i)) p i).loadInto i rd (d.issuing i c).freeWord.1 tPOISON).retire i (d.core i).pc) := by
  refine does_insn_done (exec_loadTimeout i c op rd ra imm) hr (fun h => hi (by simpa using h)) ?_
  have hserved : ¬ (!bus && (decide (areaOf p = .pages) || decide (areaOf p = .check))) = true := by
    obtain h | ⟨hpages, hcheck⟩ := harea
    · simp [h]
    · simp [hpages, hcheck]
  dsimp only
  rw [if_neg fun h => h.2 (hal h.1), if_neg fun h => hop h.1, if_neg hop]
  simp only [sx, hc, hbus]
  rw [if_neg hserved, if_neg fun h => hop h.1]
  simp only [hop, false_and, if_false]
  rfl

theorem does_amo {fn : BitVec 7} {new : DWord} (hr : d.runs i c) (hfn : fn.toNat ≤ 9)
    (ha : chkAccess i ((d.core i).reg ra) 0 8 8 true true = .ok p)
    (hc : (d.issuing i c).canLoad i ((d.core i).reg ra) 0 8 io p) (h : (d.issuing i c).coreMem i p 8 = (l, bad, e))
    (hnew : amoOp fn.toNat (BitVec.ofNat 64 (leNat l)) (BitVec.ofNat 64 (storeVal ((d.core i).reg rb))) ((d.core i).reg rd).v =
      some new) :
    let f := e.memWrite (corePage i) (domOf ((d.core i).dom i)) p (leBytes new.toNat 8) (((d.core i).reg rb).tag == tPOISON)
    Does (.amo i c rd ra rb fn io) d ((f.setCore i ((f.core i).setReg rd (BitVec.ofNat 64 (leNat l))
      (if bad then tPOISON else tINT))).retire i (d.core i).pc) := by
  refine does_insn_done (exec_amo i c rd ra rb fn io) hr level_unprivileged ?_
  obtain ⟨-, htag, hpages, -⟩ := id hc
  dsimp only
  rw [if_neg (Nat.not_lt.2 hfn), ha]
  dsimp only
  rw [if_neg (not_or.2 ⟨htag, hpages⟩), Dev.coreRead_of_canLoad hc h]
  simp only [hnew]
  rfl

/-- The core after a WAITNE whose wait is over. -/
def Dev.waitedNe (d : Dev) (i : Fin 37) (rd : BitVec 5) (v want : DWord) (bad : Bool) : Dev :=
  d.setCore i { (d.core i).setReg rd v (if bad then tPOISON else tINT) with t := !bad, z := v == want }

theorem Dev.waitne_over {fn : Nat} {ovr : Bool} {k : Core} (hfn : fn ≤ 20) (hc : x.canLoad i (k.reg ra) 0 8 io p)
    (h : x.coreMem i p 8 = (l, bad, e)) (hb : (k.reg rb).tag = tINT)
    (hover : ovr = true ∨ BitVec.ofNat 64 (leNat l) ≠ (k.reg rb).v) :
    x.waitne i k rd ra rb fn io ovr =
      .done ((e.stallEnd i 1).waitedNe i rd (BitVec.ofNat 64 (leNat l)) (k.reg rb).v bad) := by
  have hend : ¬ (BitVec.ofNat 64 (leNat l) = (k.reg rb).v ∧ (!ovr) = true) := by
    rintro ⟨heq, hn⟩
    obtain ho | hne := hover
    · simp [ho] at hn
    · exact hne heq
  simp only [Dev.waitne, Dev.coreRead_of_canLoad hc h, hb]
  rw [if_neg (by omega), if_neg (by decide), if_neg hend]
  cases bad <;> rfl

/-- LDG of a grant table's valid entry (R230). -/
theorem does_ldg (hr : d.runs i c) (ht : ((d.core i).reg ra).tag = tINT) (hn : ((d.core i).reg ra).v.toNat < (d.core i).ngrant)
    (hb : (d.issuing i c).blocked ((d.core i).grant + 16 * ((d.core i).reg ra).v.toNat) 16 = false)
    (h : (d.issuing i c).memRead (corePage i) (domOf ((d.core i).dom i))
      ((d.core i).grant + 16 * ((d.core i).reg ra).v.toNat) 16 = (l, false, e))
    (hv : bitN (leAt l 9 1) 0 = true) (htag : tagOk (leAt l 8 1) = true) : Does (.ldg i c rd ra) d
      ((e.setCore i { (d.core i).setReg rd (BitVec.ofNat 64 (leAt l 0 8)) (leAt l 8 1) with t := true }).retire i
        (d.core i).pc) := by
  refine does_insn_done (exec_ldg i c rd ra) hr level_unprivileged ?_
  dsimp only
  rw [if_neg (not_or.2 ⟨not_not_intro ht, Nat.not_le.2 hn⟩), hb, if_neg Bool.false_ne_true, h]
  simp only [hv, htag]
  rfl

/-! ### Work entered in queues (R237, R238) -/

section
variable (hr : d.runs i c) (hh : d.tide.hold = false) (hc : chkDesc i ((d.core i).reg ra) 64 64 = .ok p)
  (hb : (d.issuing i c).blocked p 64 = false)
include hr hh hc hb

/-- A sequencer's job that its cluster's queue takes. -/
theorem does_submit {kind : Nat} {types : List Nat} (hexec : ∀ s, exec ins s = lift (fun x => x.insn i c false w fun k x =>
      x.submit i k rd ra kind types) s) (hi : i.val < 32)
    (hf : (d.issuing i c).jobFull (i / 2) ((d.core i).dom i) = false) : Does ins d
      ((((d.issuing i c).addJob i (d.core i) p types).issueResult i rd kind p true).retire i (d.core i).pc) := by
  refine does_insn_done hexec hr level_unprivileged ?_
  simp only [Dev.submit, hc, if_neg (Nat.not_le.2 hi), Dev.issuing_tide, hh, hb, hf]
  rfl

theorem does_disp (hq : (d.issuing i c).xch.queue.length < 256) (hv : (d.issuing i c).coveHalted ((d.core i).dom i) = false)
    (hen : (d.issuing i c).b (pgEMH + 8) 0 = true) : Does (.disp i c rd ra) d
      ((((d.issuing i c).addJobX i (d.core i) p).issueResult i rd 2 p true).retire i (d.core i).pc) := by
  refine does_insn_done (exec_disp i c rd ra) hr level_unprivileged ?_
  have htakes : ¬ (256 ≤ (d.issuing i c).xch.queue.length ∨ (d.issuing i c).coveHalted ((d.core i).dom i) = true ∨
      (!(d.issuing i c).b (pgEMH + 8) 0) = true) := by
    simp [hv, hen, hq]
  simp only [hc, Dev.issuing_tide, hh, hb]
  rw [if_neg (by decide), if_neg htakes]
  rfl

/-- A transfer posted to a free engine of the core's own domain by its handle. -/
theorem does_dmak {n : Nat} {answered : Bool} (ht : ((d.core i).reg rb).tag = tHNDL)
    (hkind : fieldN ((d.core i).reg rb).v.toNat 0 8 = 1) (hn : fieldN ((d.core i).reg rb).v.toNat 16 16 = n) (hmax : n ≤ 63)
    (ho : (d.issuing i c).engOwner n = (d.core i).dom i) (hl : (d.issuing i c).locked (pgEng n) = false)
    (hen : (d.issuing i c).b (pgEng n + 8) 0 = true) (hv : (d.issuing i c).coveHalted ((d.core i).dom i) = false) :
    Does (.dmak i c rd rb ra answered) d
      ((((d.issuing i c).postImage i n p answered).issueResult i rd 3 p true).retire i (d.core i).pc) := by
  refine does_insn_done (exec_dmak i c rd rb ra answered) hr level_unprivileged ?_
  have hhandle : ¬ (((d.core i).reg rb).tag ≠ tHNDL ∨ fieldN ((d.core i).reg rb).v.toNat 0 8 ≠ 1 ∨ 63 < n ∨
      (d.issuing i c).engOwner n ≠ (d.core i).dom i) := by
    simp [ht, hkind, ho, hmax]
  dsimp only
  rw [hn, if_neg (by rw [ht]; decide), if_neg hhandle]
  simp only [hc, Dev.issuing_tide, hh, hb, hl, hv, hen]
  rfl

end

theorem does_note (hr : d.runs i c) (hh : d.tide.hold = false) (hc : chkDesc i ((d.core i).reg ra) 16 16 = .ok p)
    (hb : (d.issuing i c).blocked p 16 = false) :
    Does (.note i c ra) d (((d.issuing i c).postNote i p).retire i (d.core i).pc) := by
  refine does_insn_done (exec_note i c ra) hr level_unprivileged ?_
  simp only [hc, Dev.issuing_tide, hh, hb]
  rfl

/-! ### Sequencers started, stopped and read (R243, R244) -/

theorem seqOf_of_tag {r : Reg} (f : Nat → Iss) (ht : r.tag = tINT) (hq : r.v.toNat ≤ 31) : seqOf r f = f r.v.toNat := by
  rw [seqOf, ht, if_neg (by decide), if_neg (not_not_intro rfl), if_neg (Nat.not_lt.2 hq)]

theorem length_flatMap_of_length {α β : Type} {g : α → List β} {n : Nat} (hg : ∀ a, (g a).length = n) :
    ∀ as : List α, (as.flatMap g).length = as.length * n
  | [] => (Nat.zero_mul n).symm
  | a :: as => by rw [List.flatMap_cons, List.length_append, hg, length_flatMap_of_length hg as, List.length_cons,
      Nat.succ_mul, Nat.add_comm]

theorem stateImage_length (k : Core) : (stateImage k).length = 576 := by
  have hreg (r : Reg) : (leBytes r.v.toNat 8 ++ [BitVec.ofNat 8 r.tag] ++ List.replicate 7 0).length = 16 := by
    rw [List.length_append, List.length_append, leBytes_len, List.length_replicate, List.length_singleton]
  simp only [stateImage, List.length_append, length_flatMap_of_length fun j => hreg (k.gr.getD (j + 1) {}),
    List.length_range, leBytes_len, List.length_replicate, List.length_cons, List.length_nil]

section
variable {q : Nat} (hr : d.runs i c) (hi : 32 ≤ i.val) (ht : ((d.core i).reg ra).tag = tINT)
  (hv : ((d.core i).reg ra).v.toNat = q) (hq : q ≤ 31)
include hr hi ht hv hq

theorem does_sqctlStop : Does (.sqctlStop i c ra) d
    (((d.issuing i c).setCore q { d.core q with running := false }).retire i (d.core i).pc) := by
  subst hv
  refine does_insn_done (exec_sqctlStop i c ra) hr (fun _ => hi) ((seqOf_of_tag _ ht hq).trans ?_)
  rw [Dev.issuing_core]

theorem does_sqctlResume : Does (.sqctlResume i c ra) d (((d.issuing i c).resumeCore q).retire i (d.core i).pc) := by
  subst hv
  exact does_insn_done (exec_sqctlResume i c ra) hr (fun _ => hi) (seqOf_of_tag _ ht hq)

/-- The state image of a stopped sequencer, stored where the check passes. -/
theorem does_sqctlState (hstop : (d.core q).running = false) (hb : ((d.core i).reg rb).tag = tDADDR)
    (hc : (d.issuing i c).canStore i ((d.core i).reg rb) 0 576 64 p) : Does (.sqctlState i c ra rb) d
      (((d.issuing i c).corePut i p (stateImage (d.core q)) false).retire i (d.core i).pc) := by
  subst hv
  refine does_insn_done (exec_sqctlState i c ra rb) hr (fun _ => hi) ((seqOf_of_tag _ ht hq).trans ?_)
  rw [Dev.issuing_core, hstop, if_neg Bool.false_ne_true, if_neg fun h => h.1 hb,
    Dev.coreWrite_of_canStore hc (stateImage_length _)]
  rfl

/-- A launch from an image that was answered and can be launched. -/
theorem does_launch {img : List Byte} {x1 : Dev} (hc : chkDesc i ((d.core i).reg rb) 576 64 = .ok p)
    (hb : (d.issuing i c).blocked p 576 = false)
    (h : ((d.issuing i c).setCore q { d.core q with running := false }).memRead (corePage i) 0x40 p 576 = (img, false, x1))
    (hgood : launchBad img false = none) : Does (.launch i c ra rb true) d
      (((x1.launch q img).coveWorks (some (leAt img 524 1 % 64))).retire i (d.core i).pc) := by
  subst hv
  refine does_insn_done (exec_launch i c ra rb true) hr (fun _ => hi) ((seqOf_of_tag _ ht hq).trans ?_)
  simp only [Dev.issuing_core, hc, hb, h, Bool.not_true, Bool.or_false, hgood]
  rfl

end

end Sys2Proof.Machine

namespace Sys2Proof
open Machine

/-- Settles O10: the checks pass and memory answers. A POISON source poisons what STC and STT store (log entry 29), a load
that times out gives a free value (log entry 28), and an AMO leaves T (log entry 25): the model's choices. -/
theorem memoryInstructionsComplete : Obligations.MemoryInstructionsComplete := by
  unfold Obligations.MemoryInstructionsComplete
  refine ⟨?_, ?_, ?_, ?_, ?_, ?_, ?_, ?_, ?_⟩
  · intro d e i c rd ra imm io n p l bad k x after hr hc h
    refine ⟨?_, ?_, ?_, ?_⟩ <;> rintro rfl
    · exact ⟨does_load (exec_ldb i c rd ra imm io) hr hc h, does_load (exec_ldbs i c rd ra imm io) hr hc h⟩
    · exact ⟨does_load (exec_ldh i c rd ra imm io) hr hc h, does_load (exec_ldhs i c rd ra imm io) hr hc h⟩
    · exact ⟨does_load (exec_ldw i c rd ra imm io) hr hc h, does_load (exec_ldws i c rd ra imm io) hr hc h⟩
    · exact does_load (exec_ldd i c rd ra imm io) hr hc h
  · intro d i c rd ra imm n p k x after hr hc
    refine ⟨?_, ?_, ?_, ?_⟩ <;> rintro rfl
    · exact does_store (exec_stb i c rd ra imm) hr hc
    · exact does_store (exec_sth i c rd ra imm) hr hc
    · exact does_store (exec_stw i c rd ra imm) hr hc
    · exact does_store (exec_std i c rd ra imm) hr hc
  · intro d i c op rd ra imm p k x hr hop hal hi hc
    refine ⟨fun ht harea => ?_, fun ht => ?_⟩
    · have h := does_loadTimeout (rd := rd) hr hop hal hi hc (beq_eq_false_iff_ne.2 ht) (.inr harea)
      rwa [Dev.busTimedOut_false] at h
    · have h := does_loadTimeout (rd := rd) hr hop hal hi hc (beq_iff_eq.2 ht) (.inl rfl)
      rwa [Dev.busTimedOut_true] at h
  · intro d e i c rd ra imm io p l k x v t hr hc h
    exact ⟨does_ldc hr hc h, does_ldt hr hc h⟩
  · intro d i c rd ra imm p k x v hr hc
    exact ⟨does_stc hr hc, does_stt hr hc⟩
  · intro d e i c rd ra rb fn io p l bad new k x old f hr hfn ha hc h hnew
    exact does_amo hr hfn ha hc h hnew
  · intro d i c hr
    exact does_insn_done (exec_fence i c) hr level_unprivileged rfl
  · intro d e i c rd ra rb fn io p l bad k x v f after hr hfn hc h hb
    exact ⟨fun hne => does_insn_done (exec_waitne i c rd ra rb fn io) hr level_unprivileged
        (Dev.waitne_over hfn hc h hb (.inr hne)),
      does_insn_done (exec_waitneTimeout i c rd ra rb fn io) hr level_unprivileged
        (Dev.waitne_over hfn hc h hb (.inl rfl))⟩
  · intro d e i c rd ra l k x hr ht hn hb h hv htag
    exact does_ldg hr ht hn hb h hv htag

/-- Settles O12: the checks pass and the queues take the work; a sequencer is named by its number. -/
theorem issueInstructionsComplete : Obligations.IssueInstructionsComplete := by
  unfold Obligations.IssueInstructionsComplete
  refine ⟨?_, ?_, ?_⟩
  · intro d i c rd ra rb p k x hr hh hc hb
    exact ⟨fun hi hf => ⟨does_submit hr hh hc hb (exec_job i c rd ra) hi hf,
        does_submit hr hh hc hb (exec_gate i c rd ra) hi hf⟩,
      does_disp hr hh hc hb, fun n answered => does_dmak hr hh hc hb⟩
  · intro d i c ra p hr hh hc hb
    exact does_note hr hh hc hb
  · intro d i c ra rb q k x x0 hr hi ht hv hq
    exact ⟨does_sqctlStop hr hi ht hv hq, does_sqctlResume hr hi ht hv hq, fun p => does_sqctlState hr hi ht hv hq,
      fun p img x1 => does_launch hr hi ht hv hq⟩

end Sys2Proof
end

