-- ==== Sys2Proof/Proofs/CoreFrames.lean ====
section
/-!
PROOF. Proofs/CoreFrames.lean: what an instruction leaves unchanged, on a core that no enabled trace buffer names; O42, O46,
O48 and O52.
-/
namespace Sys2Proof.Machine
open Laws

variable {d e f : Dev} {i : Fin 37} {c : BitVec 4} {ins : Instr} {p : Bool} {w cause : Nat} {fault pc : DWord}
  {g : Core → Dev → Iss} {k k' : Core}

/-! ### Conditions (R220, R450) -/

/-- An instruction that a stopped core and safe state keep from running, and that only moves the program counter on where its
condition is false. -/
def Governed (ins : Instr) (d : Dev) (i : Fin 37) (c : BitVec 4) : Prop :=
  ((d.core i).running = false ∨ d.safe = true → Does ins d d) ∧
    ((d.core i).running = true → d.safe = false → condHolds (d.core i) d.tide.cur c = false → d.tbOf i = none →
      Does ins d (d.retire i (d.core i).pc))

theorem governed_of_insn (hexec : ∀ s, exec ins s = lift (fun x => x.insn i c p w g) s) : Governed ins d i c :=
  ⟨fun hoff => does_of hexec (insn_off hoff), fun hrun hs hc ht => does_of hexec (insn_false hrun hs hc ht)⟩

theorem core_setCore (hi : i.val < d.cores.length) : (d.setCore i k).core i = k := by rw [core_set d i i k hi, if_pos rfl]

/-- A core that runs is one of the device's. -/
theorem lt_cores_of_running {j : Nat} (h : (d.core j).running = true) : j < d.cores.length := by
  refine Nat.lt_of_not_le fun hle => absurd h ?_
  rw [Dev.core, List.getD, List.getElem?_eq_none hle]
  decide

theorem Dev.retire_core (hrun : (d.core i).running = true) : (d.retire i pc).core i = { d.core i with pc := pcNext pc } :=
  core_setCore (d := d) (lt_cores_of_running hrun)

theorem Dev.serveSys_of_running (h : (d.core i).running = true) : d.serveSys i = d := by
  rw [Dev.serveSys, if_pos (by simp [h])]

theorem Dev.serveSys_of_safe (h : d.safe = true) : d.serveSys i = d := by
  rw [Dev.serveSys, if_pos (by simp [h])]

theorem Dev.serveSys_of_noFirmware (h : d.fwRunning = false) : d.serveSys i = d := by
  rw [Dev.serveSys, if_pos (by simp [h])]

/-- A SYS that does not trap leaves no call to serve. -/
theorem governed_sys {imm : BitVec 12} : Governed (.sys i c imm) d i c := by
  refine ⟨fun hoff => does_of (exec_sys i c imm) ?_, fun hrun hs hc ht => does_of (exec_sys i c imm) ?_⟩
  · by_cases hrun : (d.core i).running = true
    · have hsafe : d.safe = true := hoff.resolve_left (by simp [hrun])
      rw [Dev.when_pos _ hrun, insn_off hoff, Dev.serveSys_of_safe hsafe]
    · exact when_neg _ (by simpa using hrun)
  · rw [Dev.when_pos _ hrun, insn_false hrun hs hc ht]
    exact Dev.serveSys_of_running (by rw [Dev.retire_core hrun]; exact hrun)

/-! ### Cores that no trace buffer names (R486, R488) -/

theorem Dev.issuing_untraced (h : d.tbOf i = none) : d.issuing i c = d := by
  rw [Dev.issuing, Dev.traceInsn, h]
  exact ite_self d

theorem Dev.coreRec_untraced {ty n data : Nat} (h : d.tbOf i = none) : d.coreRec i ty n data = d := by
  rw [Dev.coreRec, h]

/-- A device but for the trace unit's state of core `i`. -/
def Dev.unstalled (d : Dev) (i : Fin 37) : Dev := d.setTcore i { d.tcore i with stall := none }

theorem Dev.trapped_untraced (h : d.tbOf i = none) :
    d.trapped i pc w cause fault = (d.unstalled i).trap i w cause fault := by
  have hrec : (d.unstalled i).coreRec i 4 cause (adrOf 7 pc) = d.unstalled i := Dev.coreRec_untraced h
  have htrigger := triggerAll_untraced (d.unstalled i) 2 i h
  change (((d.unstalled i).coreRec i 4 cause (adrOf 7 pc)).triggerAll 2 fun b =>
    (d.unstalled i).tbNames b i).trap i w cause fault = _
  rw [hrec, htrigger]

/-! ### Traps (R240 to R242) -/

/-- The core that a trap of core `i` leaves: a sequencer's with its trap record, a service or security core's outside a trap
with what R242 saves, and one in a trap stopped. -/
def Core.trapped (k : Core) (i : Nat) (cur : DWord) (w cause : Nat) (fault : DWord) : Core :=
  if i < 32 then
    { k with running := false, cause := cause, insn := w, fault := fault, tideAt := cur, sysWait := cause == 0x0c }
  else if bitN (k.cr.getD 0 0).toNat 0 then { k with running := false, cause := 0xff }
  else { k with
    cr := [k.cr.getD 0 0 ||| 1, k.pc, BitVec.ofNat 64 cause, BitVec.ofNat 64 w, fault, k.cr.getD 5 0]
    pc := k.cr.getD 5 0 }

/-- A trap that is not recorded as an error changes its core alone. -/
theorem Dev.trap_unrecorded (h : 32 ≤ i.val ∨ cause = 0x0c ∨ cause = 0x0d) :
    d.trap i w cause fault = d.setCore i ((d.core i).trapped i d.tide.cur w cause fault) := by
  unfold Dev.trap Core.trapped
  dsimp only
  split
  · exact if_pos (h.resolve_left (by omega))
  · split <;> rfl

theorem stopped_setCore (h : k.running = false) : ((d.setCore i k).core i).running = false := by
  obtain he | ⟨he, -⟩ := core_set_self d i k
  · rw [he, h]
  · rw [he]

theorem stopped_of_stops (hs : Stops d e) (h : (d.core i).running = false) : (e.core i).running = false := by
  obtain he | he := hs i <;> rw [he]
  exact h

/-- A trap stops a sequencer, whether it is recorded or not (R240). -/
theorem Dev.trap_stops_sequencer (hi : i.val < 32) : ((d.trap i w cause fault).core i).running = false := by
  unfold Dev.trap
  dsimp only
  rw [if_pos hi]
  split
  · exact stopped_setCore rfl
  · rw [Dev.core, event_cores]
    exact stopped_of_stops (report_stops _ _ _ _ _ _ _) (stopped_setCore rfl)

/-! ### Devices that differ in one core (R219, R221) -/

/-- All but the cores and the trace unit. -/
def Dev.restK (d : Dev) : Dev := { d with cores := [], trc := {} }

/-- A core that differs only in its program counter, flags, trap record, control registers and the registers `rds`. -/
def Core.keeps (rds : List (BitVec 5)) (k k' : Core) : Prop :=
  (∀ r, r ∉ rds → k'.reg r = k.reg r) ∧ k'.watch = k.watch ∧ k'.grant = k.grant ∧ k'.ngrant = k.ngrant ∧ k'.cove = k.cove ∧
    k'.part = k.part ∧ k'.sealKey = k.sealKey

/-- A device that differs only in the trace unit and in core `i`, which keeps what `Core.keeps` says. -/
def changesCore (i : Fin 37) (rds : List (BitVec 5)) (d e : Dev) : Prop :=
  e.restK = d.restK ∧ (∀ j, j ≠ i.val → e.core j = d.core j) ∧ (d.core i).keeps rds (e.core i)

variable {rds : List (BitVec 5)}

theorem Core.keeps_refl (rds : List (BitVec 5)) (k : Core) : k.keeps rds k := ⟨fun _ _ => rfl, rfl, rfl, rfl, rfl, rfl, rfl⟩

theorem Core.keeps_pc (rds : List (BitVec 5)) (k : Core) (pc : DWord) : k.keeps rds { k with pc := pc } :=
  ⟨fun _ _ => rfl, rfl, rfl, rfl, rfl, rfl, rfl⟩

theorem Core.keeps.trans {k2 : Core} (h : k.keeps rds k') (h2 : k'.keeps rds k2) : k.keeps rds k2 := by
  obtain ⟨a1, a2, a3, a4, a5, a6, a7⟩ := h
  obtain ⟨b1, b2, b3, b4, b5, b6, b7⟩ := h2
  exact ⟨fun r hr => (b1 r hr).trans (a1 r hr), b2.trans a2, b3.trans a3, b4.trans a4, b5.trans a5, b6.trans a6, b7.trans a7⟩

/-- What a rest of the device shows is the same where the rest is. -/
theorem proj_eq_of_rest {α : Type} {ρ : Dev → Dev} {π : Dev → α} (h : ρ e = ρ d) (hπ : ∀ x, π (ρ x) = π x) : π e = π d := by
  rw [← hπ e, h, hπ d]

/-- The device's own parts follow from `restK`. -/
theorem onlyCore_of_changesCore (h : changesCore i rds d e) : onlyCore i rds d e := by
  obtain ⟨hrest, hothers, hkeeps⟩ := h
  have part {α : Type} (π : Dev → α) (hπ : ∀ x : Dev, π x.restK = π x) : π e = π d := proj_eq_of_rest hrest hπ
  exact ⟨⟨fun a => part (·.byteAt a) fun _ => rfl, fun g => part (·.mark g) fun _ => rfl⟩, part (·.regs) fun _ => rfl,
    part (·.bank) fun _ => rfl, part (·.tide) fun _ => rfl, part (·.slack) fun _ => rfl, part (·.coves) fun _ => rfl,
    part (·.err) fun _ => rfl, part (·.out) fun _ => rfl, part (·.xc) fun _ => rfl, hothers, hkeeps⟩

theorem changesCore_refl (i : Fin 37) (rds : List (BitVec 5)) (d : Dev) : changesCore i rds d d :=
  ⟨rfl, fun _ _ => rfl, Core.keeps_refl _ _⟩

theorem changesCore.trans (h : changesCore i rds d e) (h2 : changesCore i rds e f) : changesCore i rds d f := by
  obtain ⟨hrest, hothers, hkeeps⟩ := h
  obtain ⟨hrest2, hothers2, hkeeps2⟩ := h2
  exact ⟨hrest2.trans hrest, fun j hj => (hothers2 j hj).trans (hothers j hj), hkeeps.trans hkeeps2⟩

theorem changesCore_setCore (h : (d.core i).keeps rds k) : changesCore i rds d (d.setCore i k) := by
  refine ⟨rfl, fun j hj => core_set_ne d i j k hj, ?_⟩
  obtain he | ⟨he, hd, -⟩ := core_set_self d i k
  · rwa [he]
  · rw [he, hd]
    exact Core.keeps_refl _ _

theorem changesCore_setTcore (d : Dev) (x : TraceCore) : changesCore i rds d (d.setTcore i x) :=
  ⟨rfl, fun _ _ => rfl, Core.keeps_refl _ _⟩

/-- The program counter moved on. -/
theorem changesCore.advance (h : changesCore i rds d e) (pc : DWord) :
    changesCore i rds d ((e.setCore i { e.core i with pc := pc }).traceDone i) :=
  (h.trans (changesCore_setCore (Core.keeps_pc _ _ _))).trans (changesCore_setTcore _ _)

theorem changesCore.stallBegin (h : changesCore i rds d e) : changesCore i rds d (e.stallBegin i) := by
  unfold Dev.stallBegin
  dsimp only
  split
  · exact h
  · exact h.trans (changesCore_setTcore _ _)

theorem changesCore.tbOf (h : changesCore i rds d e) (j : Nat) : e.tbOf j = d.tbOf j :=
  (congrArg (Dev.tbOf · j) h.1 :)

theorem changesCore.branched (h : changesCore i rds d e) (ht : d.tbOf i = none) (pc : DWord) :
    changesCore i rds d (e.branched i pc) := by
  have hadv := h.advance pc
  rw [Dev.branched, Dev.coreRec_untraced ((hadv.tbOf i).trans ht)]
  exact hadv

theorem Core.keeps_trapped {cur : DWord} : k.keeps rds (k.trapped i cur w cause fault) := by
  unfold Core.trapped
  (repeat' split) <;> exact ⟨fun _ _ => rfl, rfl, rfl, rfl, rfl, rfl, rfl⟩

/-- A trap of a service or security core changes that core alone. -/
theorem changesCore_trapped (ht : d.tbOf i = none) (hi : 32 ≤ i.val) :
    changesCore i rds d (d.trapped i pc w cause fault) := by
  rw [Dev.trapped_untraced ht, Dev.trap_unrecorded (.inl hi)]
  exact (changesCore_setTcore d _).trans (changesCore_setCore Core.keeps_trapped)

/-! ### Instructions that work on registers alone (R219 to R225, R233 to R235) -/

/-- An effect on `d` that changes core `i` alone, and keeps what `Core.keeps` says. -/
def Iss.only (d : Dev) (i : Fin 37) (rds : List (BitVec 5)) : Iss → Prop
  | .done e => changesCore i rds d e
  | .goto e _ => changesCore i rds d e
  | .trap _ _ => True
  | .fail _ _ _ => False
  | .stall e => changesCore i rds d e

/-- A level P instruction of a sequencer traps PRIV (R232). -/
theorem insn_priv (hr : d.runs i c) (hp : p = true) (hi : i.val < 32) :
    d.insn i c p w g = (d.issuing i c).trapped i (d.core i).pc w 2 0 := by
  obtain ⟨hrun, hs, hc⟩ := hr
  unfold Dev.insn
  dsimp only
  rw [if_neg (by simp [hrun, hs]), hc, if_neg (by simp), if_pos (by simp [hp, hi])]
  rfl

theorem insn_stall (hr : d.runs i c) (hp : p = true → 32 ≤ i.val) (hg : g (d.core i) (d.issuing i c) = .stall e) :
    d.insn i c p w g = e.stallBegin i := by
  obtain ⟨hrun, hs, hc⟩ := hr
  unfold Dev.insn
  dsimp only
  rw [if_neg (by simp [hrun, hs]), hc, if_neg (by simp),
    if_neg (by simp only [Bool.and_eq_true, decide_eq_true_eq, not_and]; exact fun h => Nat.not_lt.2 (hp h))]
  rw [show (if (d.tcore i).stall.isSome = true then d else d.traceInsn i (d.core i).pc c true) = d.issuing i c from rfl, hg]

/-- An instruction whose effect changes its core alone either stops the core or changes that core alone. -/
theorem insn_changesCore (ht : d.tbOf i = none) (hg : (g (d.core i) d).only d i rds)
    (hrunning : ((d.insn i c p w g).core i).running = true) : changesCore i rds d (d.insn i c p w g) := by
  by_cases hoff : (d.core i).running = false ∨ d.safe = true
  · rw [insn_off hoff]
    exact changesCore_refl _ _ _
  obtain ⟨hrun, hs⟩ : (d.core i).running = true ∧ d.safe = false := by simpa using hoff
  have hissue : d.issuing i c = d := Dev.issuing_untraced ht
  cases hc : condHolds (d.core i) d.tide.cur c with
  | false =>
    rw [insn_false hrun hs hc ht]
    exact (changesCore_refl _ _ _).advance _
  | true =>
    have hr : d.runs i c := ⟨hrun, hs, hc⟩
    have htrap {cause : Nat} {fault : DWord} (h : d.insn i c p w g = d.trapped i (d.core i).pc w cause fault) :
        changesCore i rds d (d.insn i c p w g) := by
      rw [h] at hrunning ⊢
      by_cases hi : 32 ≤ i.val
      · exact changesCore_trapped ht hi
      · rw [Dev.trapped_untraced ht, Dev.trap_stops_sequencer (Nat.not_le.1 hi)] at hrunning
        exact absurd hrunning Bool.false_ne_true
    by_cases hp : p = true ∧ i.val < 32
    · exact htrap ((insn_priv hr hp.1 hp.2).trans (by rw [hissue]))
    have hlevel : p = true → 32 ≤ i.val := fun h => Nat.not_lt.1 fun hi => hp ⟨h, hi⟩
    cases hres : g (d.core i) d with
    | done e =>
      rw [hres] at hg
      rw [insn_done hr hlevel (by rw [hissue]; exact hres)]
      exact changesCore.advance hg _
    | goto e pc =>
      rw [hres] at hg
      rw [insn_goto hr hlevel (by rw [hissue]; exact hres)]
      exact changesCore.branched hg ht pc
    | trap cause fault => exact htrap ((insn_trap hr hlevel (by rw [hissue]; exact hres)).trans (by rw [hissue]))
    | fail e cause fault => rw [hres] at hg; exact hg.elim
    | stall e =>
      rw [hres] at hg
      rw [insn_stall hr hlevel (by rw [hissue]; exact hres)]
      exact changesCore.stallBegin hg

/-! ### What each may do -/

variable {rd ra rb : BitVec 5} {v : DWord} {t : Nat} {fl : NZCV}

theorem Core.reg_setReg_other {r : BitVec 5} (h : r ≠ rd) : (k.setReg rd v t).reg r = k.reg r := by
  unfold Core.setReg Core.reg
  split
  · rfl
  · split
    · rfl
    · rw [List.getD_eq_getElem?_getD, List.getElem?_set_ne fun he => h (BitVec.eq_of_toNat_eq he).symm,
        List.getD_eq_getElem?_getD]

theorem Core.keeps_setReg (h : rd ∈ rds) : k.keeps rds (k.setReg rd v t) := by
  refine ⟨fun r hr => Core.reg_setReg_other fun he => hr (he ▸ h), ?_⟩
  unfold Core.setReg
  split <;> exact ⟨rfl, rfl, rfl, rfl, rfl, rfl⟩

theorem Core.keeps_flagged {poison : Bool} : k.keeps rds (k.flagged poison fl) := by
  unfold Core.flagged
  split <;> exact ⟨fun _ _ => rfl, rfl, rfl, rfl, rfl, rfl, rfl⟩

theorem Core.keeps_aluDone {fn : Nat} {poison : Bool} (h : rd ∈ rds) : k.keeps rds (k.aluDone rd fn poison v t fl) := by
  have hflags : k.keeps rds (if (fn % 64 == 0x13 || decide (64 ≤ fn)) = true then k.flagged poison fl else k) := by
    split
    · exact Core.keeps_flagged
    · exact Core.keeps_refl _ _
  unfold Core.aluDone
  dsimp only
  split
  · exact hflags
  · exact hflags.trans (Core.keeps_setReg h)

theorem only_ite {b : Prop} [Decidable b] {x y : Iss} (hx : x.only d i rds) (hy : y.only d i rds) :
    (if b then x else y).only d i rds := by
  split <;> assumption

theorem only_done (h : (d.core i).keeps rds k) : (Iss.done (d.setCore i k)).only d i rds := changesCore_setCore h

section
variable (h : rd ∈ rds)
include h

theorem only_give : (d.give i (d.core i) rd v t).only d i rds := only_done (Core.keeps_setReg h)

theorem only_alu {fn : Nat} : (d.alu i (d.core i) rd ra rb fn).only d i rds := by
  unfold Dev.alu
  extract_lets a b f cmp sets poison out s p q
  have hout (v : DWord) (t : Nat) (fl : NZCV) : (out v t fl).only d i rds :=
    only_done (Core.keeps_aluDone (fn := fn) (poison := poison) h)
  split
  · trivial
  · refine only_ite trivial <| only_ite (hout _ _ _) <| only_ite (hout _ _ _) <| only_ite ?_ <| only_ite (hout _ _ _) <|
      only_ite (hout _ _ _) <| only_ite (hout _ _ _) trivial
    split
    · trivial
    · exact hout _ _ _

theorem only_aluImm {f : DWord → DWord} : (d.aluImm i (d.core i) rd ra f).only d i rds :=
  only_ite (only_give h) trivial

theorem only_convert {f : Reg → Reg ⊕ Nat} : (d.convert i (d.core i) rd ra f).only d i rds := by
  refine only_ite (only_give h) ?_
  split
  · exact only_give h
  · trivial

theorem only_fpuOp {ts : List (Reg × Nat)} {unary : Bool} :
    (d.fpuOp i (d.core i) rd rb ts unary v t).only d i rds := by
  refine only_ite trivial ?_
  dsimp only
  split
  · trivial
  · exact only_give h

theorem only_fpu (fn : Nat) : (d.fpu i (d.core i) rd ra rb fn).only d i rds := by
  unfold Dev.fpu
  extract_lets a b c x y op fp2 poison
  have hop (ts : List (Reg × Nat)) (unary : Bool) (v : DWord) (t : Nat) : (op ts unary v t).only d i rds := only_fpuOp h
  have hcmp : (Iss.done (d.setCore i ((d.core i).flagged poison (fcmpFlags a.v b.v)))).only d i rds :=
    only_done Core.keeps_flagged
  split
  case h_9 => exact only_ite trivial (only_ite hcmp trivial)
  case h_14 | h_15 =>
    split
    · exact hop _ _ _ _
    · exact only_ite trivial (hop _ _ _ _)
  case h_16 => trivial
  all_goals exact hop _ _ _ _

end

theorem only_branch {x : Dev} {imm : BitVec 22} (h : changesCore i rds d x) : (x.branch k imm).only d i rds := by
  unfold Dev.branch
  dsimp only
  split
  · trivial
  · exact h

/-- An instruction of core `i` whose effect changes that core alone, and of its registers only those of `rds`. -/
def ChangesOnly (ins : Instr) (i : Fin 37) (rds : List (BitVec 5)) : Prop :=
  ∃ c p w g, (∀ s, exec ins s = lift (fun x => x.insn i c p w g) s) ∧ ∀ d : Dev, (g (d.core i) d).only d i rds

theorem changesOnly_of_insn (hexec : ∀ s, exec ins s = lift (fun x => x.insn i c p w g) s)
    (h : ∀ d : Dev, (g (d.core i) d).only d i rds) : ChangesOnly ins i rds :=
  ⟨c, p, w, g, hexec, h⟩

theorem changesOnly_addi {imm : BitVec 12} : ChangesOnly (.addi i c rd ra imm) i [rd] := by
  refine changesOnly_of_insn (exec_addi i c rd ra imm) fun d => only_ite ?_ (only_aluImm (by simp))
  dsimp only
  split
  · trivial
  · exact only_give (by simp)

theorem changesOnly_cmpi {imm : BitVec 12} : ChangesOnly (.cmpi i c rd ra imm) i [] :=
  changesOnly_of_insn (exec_cmpi i c rd ra imm) fun _ =>
    only_ite trivial (only_ite (only_done Core.keeps_flagged) trivial)

theorem changesOnly_shi {imm : BitVec 12} : ChangesOnly (.shi i c rd ra imm) i [rd] :=
  changesOnly_of_insn (exec_shi i c rd ra imm) fun _ => only_ite trivial (only_aluImm (by simp))

theorem changesOnly_movs {imm : BitVec 17} : ChangesOnly (.movs i c rd imm) i [rd] :=
  changesOnly_of_insn (exec_movs i c rd imm) fun _ => only_ite trivial (only_aluImm (by simp))

theorem changesOnly_ttst : ChangesOnly (.ttst i c ra rb) i [] :=
  changesOnly_of_insn (exec_ttst i c ra rb) fun _ =>
    only_ite trivial (only_done ⟨fun _ _ => rfl, rfl, rfl, rfl, rfl, rfl, rfl⟩)

theorem changesOnly_narrow : ChangesOnly (.narrow i c rd ra rb) i [rd] :=
  changesOnly_of_insn (exec_narrow i c rd ra rb) fun _ =>
    only_ite (only_give (by simp)) (only_ite trivial (only_ite trivial (only_convert (by simp))))

theorem changesOnly_mint : ChangesOnly (.mint i c rd ra rb) i [rd] :=
  changesOnly_of_insn (exec_mint i c rd ra rb) fun _ => only_ite trivial (only_ite trivial (only_give (by simp)))

theorem changesOnly_tcur : ChangesOnly (.tcur i c rd) i [rd] :=
  changesOnly_of_insn (exec_tcur i c rd) fun d => only_ite (changesCore_refl i [rd] d) (only_give (by simp))

theorem changesOnly_jal {imm : BitVec 22} : ChangesOnly (.jal i c imm) i [30] :=
  changesOnly_of_insn (exec_jal i c imm) fun _ => only_branch (changesCore_setCore (Core.keeps_setReg (by simp)))

theorem changesOnly_jr : ChangesOnly (.jr i c rd ra) i [rd] :=
  changesOnly_of_insn (exec_jr i c rd ra) fun d => only_ite trivial <| only_ite trivial <| only_ite trivial
    (show changesCore i [rd] d _ from changesCore_setCore (Core.keeps_setReg (by simp)))

theorem changesOnly_of_registersOnly (h : registersOnly ins = some (i, rds)) : ChangesOnly ins i rds := by
  unfold registersOnly at h
  split at h <;> cases h
  next c rd ra rb fn => exact changesOnly_of_insn (exec_alu i c rd ra rb fn) fun _ => only_alu (by simp)
  next => exact changesOnly_cmpi
  next c rd ra rb fn => exact changesOnly_of_insn (exec_fpu i c rd ra rb fn) fun _ => only_fpu (by simp) _
  next => exact changesOnly_addi
  next c rd ra imm => exact changesOnly_of_insn (exec_andi i c rd ra imm) fun _ => only_aluImm (by simp)
  next c rd ra imm => exact changesOnly_of_insn (exec_ori i c rd ra imm) fun _ => only_aluImm (by simp)
  next c rd ra imm => exact changesOnly_of_insn (exec_xori i c rd ra imm) fun _ => only_aluImm (by simp)
  next => exact changesOnly_shi
  next c rd imm => exact changesOnly_of_insn (exec_movi i c rd imm) fun _ => only_give (by simp)
  next => exact changesOnly_movs
  next c rd ra => exact changesOnly_of_insn (exec_tget i c rd ra) fun _ => only_give (by simp)
  next => exact changesOnly_ttst
  next c rd ra => exact changesOnly_of_insn (exec_mkt i c rd ra) fun _ => only_convert (by simp)
  next c rd ra => exact changesOnly_of_insn (exec_tint i c rd ra) fun _ => only_convert (by simp)
  next c rd ra => exact changesOnly_of_insn (exec_mkh i c rd ra) fun _ => only_convert (by simp)
  next c rd ra => exact changesOnly_of_insn (exec_addr i c rd ra) fun _ => only_convert (by simp)
  next => exact changesOnly_narrow
  next c rd ra => exact changesOnly_of_insn (exec_rdonly i c rd ra) fun _ => only_convert (by simp)
  next => exact changesOnly_mint
  next => exact changesOnly_tcur
  next c rd => exact changesOnly_of_insn (exec_clk i c rd) fun _ => only_give (by simp)
  next c imm => exact changesOnly_of_insn (exec_b i c imm) fun _ => only_branch (changesCore_refl _ _ _)
  next => exact changesOnly_jal
  next => exact changesOnly_jr

/-! ### SYS and BRK (R240 to R242) -/

/-- The trap of SYS or BRK changes its core alone. -/
theorem Dev.trapped_call (ht : d.tbOf i = none) (h : cause = 0x0c ∨ cause = 0x0d) :
    (d.issuing i c).trapped i pc w cause fault =
      (d.unstalled i).setCore i ((d.core i).trapped i d.tide.cur w cause fault) := by
  rw [Dev.issuing_untraced ht, Dev.trapped_untraced ht, Dev.trap_unrecorded (.inr h)]
  rfl

theorem does_brk_untraced (hr : d.runs i c) (ht : d.tbOf i = none) : Does (.brk i c) d
    ((d.unstalled i).setCore i ((d.core i).trapped i d.tide.cur (encI c.toNat 0x22 0 0 0) 0x0d 0)) := by
  rw [← Dev.trapped_call (c := c) (pc := (d.core i).pc) ht (.inr rfl)]
  exact does_insn_trap (exec_brk i c) hr level_unprivileged rfl

/-- A SYS that no firmware serves. -/
theorem does_sys_untraced {imm : BitVec 12} (hr : d.runs i c) (ht : d.tbOf i = none)
    (hserve : d.fwRunning = false ∨ 32 ≤ i.val) : Does (.sys i c imm) d ((d.unstalled i).setCore i
      ((d.core i).trapped i d.tide.cur (encI c.toNat 0x20 0 0 imm.toNat) 0x0c (imm.zeroExtend 64))) := by
  have h := does_sys (imm := imm) hr
  rw [Dev.trapped_call ht (.inl rfl)] at h
  obtain hfw | hi := hserve
  · rwa [Dev.serveSys_of_noFirmware (show ((d.unstalled i).setCore i _).fwRunning = false from hfw)] at h
  · rwa [Dev.serveSys_service hi] at h

/-! ### Stores (R226, R227, R232) -/

section
variable {a : Nat} {l : List Byte} {poison : Bool}

theorem Dev.cow_of_copied (h : d.ckp.gran.get (fun _ => 0) (a / 65536) ≠ 1) : d.cow a = d := by
  unfold Dev.cow
  exact if_neg h

theorem Dev.cowCheck_of_none (h : d.ckp.copying = []) : d.cowCheck = d := by
  rw [Dev.cowCheck, h]
  rfl

/-- A merge that meets no error, into a granule that passes its check and whose pre-image no snapshot needs: the bytes are
stored, and nothing is found. -/
theorem Dev.store_merge (h0 : 0 < l.length) (h : a % 256 + l.length ≤ 256) (hl : l.length < 256) (hs : storable a = true)
    (hmeets : d.meets a = []) (hmark : d.mark (a / 256) ≠ .bad) (hg : d.ckp.gran.get (fun _ => 0) (a / 65536) ≠ 1) :
    d.store a l poison = ((d.granStore a l poison).1, []) := by
  have hpart : (l.length == 256) = false := by simp only [beq_eq_false_iff_ne]; omega
  have hmeet : d.writeMeets a false = (d, []) := by
    simp only [Dev.writeMeets, Dev.meet, hmeets]
    rfl
  have hfound : (d.granStore a l poison).2 = false := by simp [Dev.granStore, hmark]
  unfold Dev.store
  rw [pieces_one a l _ h0 h, List.foldl_cons, List.foldl_nil]
  simp [hs, Dev.storePiece, hpart, hmeet, Dev.cow_of_copied hg, hfound]

/-- Such a write of a core is that store. -/
theorem Dev.corePut_merge (h0 : 0 < l.length) (h : a % 256 + l.length ≤ 256) (hl : l.length < 256) (hs : storable a = true)
    (hmeets : d.meets a = []) (hmark : d.mark (a / 256) ≠ .bad) (hg : d.ckp.gran.get (fun _ => 0) (a / 65536) ≠ 1)
    (hc : d.ckp.copying = []) : d.corePut i a l poison = (d.store a l poison).1 := by
  have hstore := Dev.store_merge (poison := poison) h0 h hl hs hmeets hmark hg
  unfold Dev.corePut Dev.memWrite
  rw [hstore]
  exact Dev.cowCheck_of_none ((congrArg Ckp.copying (granStore_ckp d a l poison)).trans hc)

end

/-- The stores: of the low bytes of a register, of a sealed image, and of a tagged one. -/
def isStore (d : Dev) (i : Fin 37) (c : BitVec 4) (rd ra : BitVec 5) (imm : BitVec 12) (ins : Instr) (n p : Nat)
    (l : List Byte) : Prop :=
  let r := (d.core i).reg rd
  (ins, n, l) ∈ [(Instr.stb i c rd ra imm, 1, leBytes (storeVal r) 1), (.sth i c rd ra imm, 2, leBytes (storeVal r) 2),
      (.stw i c rd ra imm, 4, leBytes (storeVal r) 4), (.std i c rd ra imm, 8, leBytes (storeVal r) 8)] ∨
    (ins, n, l) = (.stc i c rd ra imm, 16, sealImage (d.keyOf i) p r) ∧ imm.toNat % 16 = 0 ∨
    (ins, n, l) = (.stt i c rd ra imm, 16, taggedImage r) ∧ 32 ≤ i.val

/-- A store whose checks pass puts as many bytes as its width, and its core retires. -/
theorem does_store_untraced {rd ra : BitVec 5} {imm : BitVec 12} {n a : Nat} {l : List Byte}
    (hins : isStore d i c rd ra imm ins n a l) (hr : d.runs i c) (ht : d.tbOf i = none)
    (hc : d.canStore i ((d.core i).reg ra) (imm.signExtend 64) n n a) :
    ∃ poison, Does ins d ((d.corePut i a l poison).retire i (d.core i).pc) ∧ l.length = n ∧ n ∈ [1, 2, 4, 8, 16] := by
  have hissue : d.issuing i c = d := Dev.issuing_untraced ht
  replace hc : (d.issuing i c).canStore i ((d.core i).reg ra) (imm.signExtend 64) n n a := by rwa [hissue]
  unfold isStore at hins
  simp only [List.mem_cons, List.not_mem_nil, or_false, Prod.mk.injEq] at hins
  obtain (⟨rfl, rfl, rfl⟩ | ⟨rfl, rfl, rfl⟩ | ⟨rfl, rfl, rfl⟩ | ⟨rfl, rfl, rfl⟩) | ⟨⟨rfl, rfl, rfl⟩, himm⟩ |
    ⟨⟨rfl, rfl, rfl⟩, hi⟩ := hins
  · exact ⟨_, by simpa only [hissue] using does_store (exec_stb i c rd ra imm) hr hc, leBytes_len _ _, by simp⟩
  · exact ⟨_, by simpa only [hissue] using does_store (exec_sth i c rd ra imm) hr hc, leBytes_len _ _, by simp⟩
  · exact ⟨_, by simpa only [hissue] using does_store (exec_stw i c rd ra imm) hr hc, leBytes_len _ _, by simp⟩
  · exact ⟨_, by simpa only [hissue] using does_store (exec_std i c rd ra imm) hr hc, leBytes_len _ _, by simp⟩
  · exact ⟨_, by simpa only [hissue] using does_stc hr hc himm, sealImage_length _ _ _, by simp⟩
  · exact ⟨_, by simpa only [hissue] using does_stt hr hc hi, taggedImage_length _, by simp⟩

end Sys2Proof.Machine

namespace Sys2Proof
open Machine Laws

/-- Settles O42: the effect of each instruction changes its core alone, and so does the trap of a core that goes on. -/
theorem registerInstructionsChangeOnlyTheirDestination : Obligations.RegisterInstructionsChangeOnlyTheirDestination := by
  unfold Obligations.RegisterInstructionsChangeOnlyTheirDestination
  intro d ins i rds hregs ht
  obtain ⟨c, p, w, g, hexec, honly⟩ := changesOnly_of_registersOnly hregs
  exact ⟨_, does_of hexec rfl, fun hrun => onlyCore_of_changesCore (insn_changesCore ht (honly d) hrun)⟩

/-- Settles O46: both traps change their core alone, to what `Core.trapped` says of a sequencer, of a service or security core
outside a trap, and of one in a trap. -/
theorem systemCallsAndBreaksTrap : Obligations.SystemCallsAndBreaksTrap := by
  unfold Obligations.SystemCallsAndBreaksTrap
  intro d i c imm sys hr ht hlen hserve k w cause fault
  have hself := core_setCore (d := d.unstalled i) (k := k.trapped i d.tide.cur w cause fault) (i := i)
    (by rw [show (d.unstalled i).cores = d.cores from rfl, hlen]; exact i.isLt)
  refine ⟨(d.unstalled i).setCore i (k.trapped i d.tide.cur w cause fault), ?_, ⟨fun _ => rfl, fun _ => rfl⟩, rfl, rfl, rfl,
    fun j hj => core_set_ne (d.unstalled i) i j _ hj, fun hi => ?_, fun hi hout => ?_, fun hi hin => ?_⟩
  · cases sys with
    | false => exact does_brk_untraced hr ht
    | true => exact does_sys_untraced hr ht (hserve rfl)
  · rw [hself, Core.trapped, if_pos hi]
    cases sys <;> rfl
  · rw [hself, Core.trapped, if_neg (Nat.not_lt.2 hi), hout]
    rfl
  · rw [hself, Core.trapped, if_neg (Nat.not_lt.2 hi), hin]
    rfl

/-- Settles O48: the condition and the core are looked at before the instruction's own effect.
That an instruction of a core that does not run leaves the state is the model's choice (log 23). -/
theorem conditionsGovernInstructions : Obligations.ConditionsGovernInstructions := by
  unfold Obligations.ConditionsGovernInstructions
  intro d i c rd ra rb fn imm io
  change ∀ x ∈ _, Governed x d i c
  simp only [List.forall_mem_cons]
  exact ⟨governed_of_insn (exec_alu i c rd ra rb fn), governed_of_insn (exec_fpu i c rd ra rb fn),
    governed_of_insn (exec_addi i c rd ra imm), governed_of_insn (exec_stb i c rd ra imm),
    governed_of_insn (exec_std i c rd ra imm), governed_of_insn (exec_ldd i c rd ra imm io),
    governed_of_insn (exec_amo i c rd ra rb fn io), governed_of_insn (exec_jr i c rd ra), governed_of_insn (exec_tadv i c ra),
    governed_of_insn (exec_trep i c ra), governed_sys, governed_of_insn (exec_brk i c), nofun⟩

/-- Settles O52: the store lies in one granule, since its address is aligned, and is that granule's merge; then the core
retires. -/
theorem storesChangeOnlyTheirBytes : Obligations.StoresChangeOnlyTheirBytes := by
  unfold Obligations.StoresChangeOnlyTheirBytes
  intro d i c rd ra imm ins n p l r hins hr ht hc hf hmeets hmark hg hcopy
  obtain ⟨poison, hdoes, hlen, hn⟩ := does_store_untraced hins hr ht hc
  obtain ⟨hchk, htag, hpages, -⟩ := hc
  obtain ⟨hmay, hal⟩ := chk_more hchk htag
  have hs : storable p = true := core_may hmay hpages
  have hrange : 0 < l.length ∧ p % 256 + l.length ≤ 256 ∧ l.length < 256 := by
    rw [hlen]
    simp only [List.mem_cons, List.not_mem_nil, or_false] at hn
    obtain rfl | rfl | rfl | rfl | rfl := hn <;> omega
  obtain ⟨h0, hin, hpart⟩ := hrange
  rw [Dev.corePut_merge h0 hin hpart hs hmeets hmark hg hcopy] at hdoes
  obtain ⟨hbytes, hbeside, hmarks⟩ := store_bytes_and_frame h0 hin hs poison hf
  have hrest := Dev.store_restM d p l poison
  generalize (d.store p l poison).1 = e at *
  have part {α : Type} (π : Dev → α) (hπ : ∀ x : Dev, π x.restM = π x) : π e = π d := proj_eq_of_rest hrest hπ
  have hcore (j : Nat) : e.core j = d.core j := part (·.core j) fun _ => rfl
  obtain ⟨-, hothers, hregs, -⟩ := (changesCore_refl i [] e).advance (pcNext (d.core i).pc)
  rw [hlen] at hbytes hbeside
  refine ⟨e.retire i (d.core i).pc, hdoes, hbytes, hbeside, hmarks, fun j hj => (hothers j hj).trans (hcore j), fun q => ?_,
    part (·.bank) fun _ => rfl, part (·.tide) fun _ => rfl, part (·.slack) fun _ => rfl, part (·.coves) fun _ => rfl,
    part (·.err) fun _ => rfl, part (·.xc) fun _ => rfl, part (·.out) fun _ => rfl⟩
  exact (hregs q List.not_mem_nil).trans (congrArg (Core.reg · q) (hcore i))

end Sys2Proof
end

