-- ==== Sys2Proof/Proofs/Engines.lean ====
section
/-!
PROOF. Proofs/Engines.lean: the images of the DMA engines, from the posted set to the report or the continuation; O6.
-/
namespace Sys2Proof.Machine

variable {d : Dev} {n : Fin 64} {r : BusRd}

/-! ### The end of an image (R257, R259, R262) -/

/-- An image whose elements are done issues its read-backs, NEXT checked first, and read where it may continue. -/
theorem does_dmaReadback (ha : (d.eng n).active = true) (hp : (d.eng n).phase = 1) (hs : d.safe = false)
    (hwait : d.reportWaits n = false) : Does (.dmaReadback n) d
      ((if !d.chains n then d else if d.mayContinue n then d.readNext n else d.checkNext n).readback n) :=
  does_of (exec_dmaReadback n) (Dev.when_pos _ (by simp [ha, hp, hs, hwait]))

/-- An image that ended OK without a report is counted with the continuation that follows it. -/
theorem Dev.goOn_unreported {l : List Byte} (hp : (d.eng n).phase = 3) (hnext : (d.eng n).nextImg = some l) :
    d.goOn n = ((d.inc (pgEng n + 0x800)).inc (pgEng n + 0x818)).startImg n l (d.actImg n).next ((d.eng n).hops + 1) 0
      (d.eng n).owner := by
  simp only [Dev.goOn, hnext, if_pos hp]

/-- STOP of an image that has not reported leaves it the element in progress. -/
theorem Dev.dmaStop_unreported (ha : (d.eng n).active = true) (hp : (d.eng n).phase ≠ 4) :
    d.dmaStop n = d.setEng n
      { d.eng n with stopping := true, phase := if (d.eng n).phase = 3 then 1 else (d.eng n).phase, nextImg := none
                     todo := (d.eng n).todo.take 1 } := by
  have hactive : ¬ (!(d.eng n).active) = true := by rw [ha]; exact Bool.false_ne_true
  rw [Dev.dmaStop, if_neg hactive, if_neg hp]

/-! ### What an image awaits (R261, R300) -/

/-- A request to the bus that an address lies in has no answer: it is awaited no more, and the image ends. -/
theorem does_dmaRequestTimeout {elem a : Nat} (ha : (d.eng n).active = true) (hs : d.safe = false)
    (hfind : (d.eng n).rd.find? (fun x => x.elem == elem && decide (x.addr ≤ a) && decide (a < x.addr + x.size)) = some r) :
    Does (.dmaRequestTimeout n elem a) d
      (((d.cmplTmo r.port).engTimeout n { d.eng n with rd := (d.eng n).rd.erase r } a true).engDone n) := by
  refine does_of (exec_dmaRequestTimeout n elem a) ((Dev.when_pos _ (by simp [ha, hs])).trans ?_)
  simp only [hfind]

/-- A piece of an element is placed on the bus, or in memory that takes it now; elements have numbers below those of the
read-backs. -/
theorem does_dmaBusCompletion {k off : Nat} {l : List Byte} {p : Bool} (hawait : (d.eng n).awaits k off = some r)
    (hs : d.safe = false) (hk : k < 2 ^ 24) (hdst : r.dbus = true ∨ d.blocked (r.dst + (off - r.off)) l.length = false) :
    Does (.dmaBusCompletion n k off l p false) d (d.busPiece n r off l p) := by
  have hplaced : ¬ (!r.dbus && d.blocked (r.dst + (off - r.off)) l.length) = true := by
    obtain h | h := hdst <;> simp [h]
  refine does_of (exec_dmaBusCompletion n k off l p false) ?_
  simp only [hawait, hs, Bool.false_eq_true, if_false, if_neg (Nat.not_le.2 hk), if_neg hplaced]

end Sys2Proof.Machine

namespace Sys2Proof
open Machine

/-- Settles O6: each command's guard holds for the engine given, and what it does there is the one named; an image goes on
and stops by the lemmas above. -/
theorem dmaCommandsComplete : Obligations.DmaCommandsComplete := by
  unfold Obligations.DmaCommandsComplete
  refine ⟨?_, ?_, ?_, ?_, ?_, ?_, ?_, ?_, ?_⟩
  · intro d n hpost hidle hlive hstarts hebb
    exact does_of (exec_dmaSetStart n) (Dev.when_pos _ (by simp [hpost, hidle, hlive, hstarts, hebb]))
  · intro d n ha hp hs hchains hwait
    have h := does_dmaReadback ha hp hs hwait
    rwa [hchains, Bool.not_false, if_pos rfl] at h
  · intro d n ha hp hs hchains hmay hwait
    have h := does_dmaReadback ha hp hs hwait
    rwa [hchains, Bool.not_true, if_neg Bool.false_ne_true, if_pos hmay] at h
  · intro d n ha hp hrd hs
    exact does_of (exec_dmaImageReport n) (Dev.when_pos _ (by simp [ha, hp, hrd, hs]))
  · intro d n l ha hp hnext hmay
    refine does_of (exec_dmaContinue n) ((Dev.when_pos _ (by simp [ha, hp, hnext, hmay])).trans ?_)
    rw [hnext, Option.isSome_some, if_pos rfl, Dev.goOn_unreported hp hnext]
  · intro d n a r ha hs hfind
    exact does_dmaRequestTimeout ha hs hfind
  · intro d n k off l p r hawait hs hk hdst
    exact does_dmaBusCompletion hawait hs hk hdst
  · intro d n hw ha hp
    exact does_of (exec_dmaStop n) ((Dev.onReg_pos _ hw).trans (Dev.dmaStop_unreported ha hp))
  · intro d n hw
    exact does_of (exec_dmaDiscard n) (Dev.onReg_pos _ hw)

end Sys2Proof
end

