-- ==== Sys2Proof/Proofs/Transport.lean ====
section
/-!
PROOF. Proofs/Transport.lean: the checks of a received packet (R372), what its drop changes, and O49.
-/
namespace Sys2Proof.Machine

variable {d : Dev} {port : Nat} {k : EmhPkt}

/-! ### An error bit set in a page (R506) -/

theorem Dev.b_setErr_same (pg : Nat) {i : Nat} (hi : i < 32) : (d.setErr pg i).b (pg + 0x10) i = true := by
  have hbit : bitN (BitVec.ofNat 32 (2 ^ i)).toNat i = true := by
    rw [bitN_eq_testBit, BitVec.testBit_toNat, BitVec.getLsbD_ofNat, Nat.testBit_two_pow_self, decide_eq_true hi]; rfl
  rw [Dev.b, Laws.setErr_same, BitVec.toNat_or, bitN_or, hbit, Bool.or_true]

/-! ### What is wrong with a packet, and what its drop changes (R372) -/

/-- A packet that R372 has dropped: VER, DOMAIN, DDEV, DCONN, SDEV, SCONN or EPOCH is not as the device and the context have
it. -/
def Dev.findsBad (d : Dev) (k : EmhPkt) : Prop :=
  k.ver ≠ 1 ∨ k.domain ≠ d.g (pgEMH + 0x108) 16 16 ∨ k.ddev ≠ d.g (pgEMH + 0x108) 0 10 ∨ d.cState k.dconn = 0 ∨
    k.sdev ≠ d.cPeer k.dconn ∨ k.sconn ≠ d.cf k.dconn 6 2 ∨ (k.op ≠ 7 ∧ k.epoch ≠ d.cf k.dconn 3 1)

/-- Where Emham is enabled and nothing keeps a packet of the row waiting, a bad one is dropped before the row's own effect. -/
theorem Dev.emhIn_bad {ops : List Nat} (f : Nat → Dev → Dev) (hop : k.op ∈ ops) (hhold : d.tide.hold = false)
    (hcalm : d.calm = true) (hup : d.emhUp = true) (hsum : k.csumOk = true) (hen : d.b (pgEMH + 0x100) 0 = true)
    (hbad : d.findsBad k) : d.emhIn port k ops f = (d.takingPkt port k).badPkt := by
  have htaken : ¬ (!ops.contains k.op || d.tide.hold || !d.calm) = true := by simp [hop, hhold, hcalm]
  have hup' : (d.takingPkt port k).emhUp = true := hup
  have hen' : (d.takingPkt port k).b (pgEMH + 0x100) 0 = true := hen
  have hbad' : (d.takingPkt port k).findsBad k := hbad
  rw [Dev.emhIn, if_neg htaken]
  dsimp only
  rw [if_neg (by simp [hup']), if_neg (by simp [hsum]), if_neg (by simp [hen']), if_pos]
  simpa [Dev.findsBad, or_assoc] using hbad'

/-- A drop is counted in BAD_PKT_CNT. -/
theorem Dev.badPkt_count : d.badPkt.rd (pgEMH + 0x818) = d.rd (pgEMH + 0x818) + 1 := by
  rw [Dev.badPkt, Laws.setErr_rd _ _ _ _ (by decide) (by decide), Laws.inc_rd]

theorem Dev.sameRegsBut_badPkt : sameRegsBut [pgEMH + 0x818, pgEMH + 0x10, pgEMH + 0x1c] d d.badPkt := by
  intro j hj _
  simp only [List.mem_cons, List.not_mem_nil, or_false, not_or] at hj
  obtain ⟨hcount, hsts, hfirst⟩ := hj
  rw [Dev.badPkt, Laws.setErr_rd _ _ _ _ hsts hfirst, Laws.inc_rd_other _ hcount]

theorem Dev.sameMem_badPkt : sameMem d d.badPkt := sameMem_of_eq (Dev.setErr_mem _ _ _) (Dev.setErr_marks _ _ _)

end Sys2Proof.Machine

namespace Sys2Proof
open Machine

/-- Settles O49: each packet's row makes the checks of R372 before its own effect, and a drop changes the count, the error bit
and the queue of packets delivered. -/
theorem badPacketsAreDropped : Obligations.BadPacketsAreDropped := by
  unfold Obligations.BadPacketsAreDropped
  intro d port k c hc hhold hcalm hup hsum hen hbad
  have hdrop {ops : List Nat} {f : Nat → Dev → Dev} (hexec : ∀ s, exec c s = lift (fun d => d.emhIn port k ops f) s)
      (hop : k.op ∈ ops) : Does c d (d.takingPkt port k).badPkt :=
    does_of hexec (Dev.emhIn_bad f hop hhold hcalm hup hsum hen hbad)
  refine ⟨(d.takingPkt port k).badPkt, ?_, Dev.badPkt_count, Dev.b_setErr_same pgEMH (by decide), Dev.sameRegsBut_badPkt,
    Dev.sameMem_badPkt, Dev.setErr_out _ _ _, Dev.setErr_tsq _ _ _, Dev.setErr_tide _ _ _, Dev.setErr_cores _ _ _,
    Dev.setErr_emh _ _ _⟩
  simp only [List.mem_cons, List.not_mem_nil, or_false, Prod.mk.injEq, ← and_or_left] at hc
  obtain ⟨rfl, hop⟩ | ⟨rfl, hop⟩ | ⟨rfl, hop⟩ | ⟨rfl, hop⟩ | ⟨rfl, hop⟩ | ⟨rfl, hop⟩ | ⟨rfl, hop⟩ | ⟨rfl, hop⟩ |
    ⟨rfl, hop⟩ := hc
  · exact hdrop (exec_connectPkt port k) (List.mem_singleton.2 hop)
  · exact hdrop (exec_acceptPkt port k) (List.mem_singleton.2 hop)
  · exact hdrop (exec_closePkt port k) (List.mem_singleton.2 hop)
  · exact hdrop (exec_resetPkt port k) (List.mem_singleton.2 hop)
  · exact hdrop (exec_ackPkt port k) (List.mem_singleton.2 hop)
  · exact hdrop (exec_nakPkt port k) (List.mem_singleton.2 hop)
  · exact hdrop (exec_probePkt port k) (List.mem_singleton.2 hop)
  · exact hdrop (exec_probeAckPkt port k) (List.mem_singleton.2 hop)
  · exact hdrop (exec_dataPacket port k) (by simpa using hop)

end Sys2Proof
end

