-- ==== Sys2Proof/Proofs/Storage.lean ====
section
/-!
PROOF. Proofs/Storage.lean: a command turned away by the storage target, what its answer leaves unchanged, and O51.
-/
namespace Sys2Proof.Machine

variable {d : Dev} {x : NvCtl} {conn cid nsid : Nat}

/-! ### What an answer of the target changes (R360, R403) -/

/-- A frame of the device's own goes to its queue, or is held there: none is dropped, so nothing is counted. -/
theorem Dev.enqueue_own {f : Frame} (hown : f.host = false) : ∃ t, d.enqueue f = { d with tsq := t } := by
  rw [Dev.enqueue]
  dsimp only
  rw [if_neg (by simp [hown])]
  exact ⟨_, rfl⟩

theorem Dev.nvSend_changes_queues (conn : Nat) (p : Pdu) : ∃ t, d.nvSend conn p = { d with tsq := t } := by
  rw [Dev.nvSend]
  split
  · exact ⟨d.tsq, rfl⟩
  · exact Dev.enqueue_own rfl

/-- The answer to a command changes the queues of frames and the controller's keep-alive timer alone. -/
theorem Dev.nvTouch_nvResp_changes_queues (status result : Nat) :
    ∃ t, (d.nvTouch x).nvResp conn cid status result = { d.nvTouch x with tsq := t } :=
  Dev.nvSend_changes_queues conn _

/-! ### A namespace that a controller does not see (R401, R402) -/

/-- NSID names no namespace attached to the controller: it is out of range, not VALID, being removed, or another host's. -/
def Dev.unattached (d : Dev) (x : NvCtl) (nsid : Nat) : Prop :=
  nsid = 0 ∨ 64 < nsid ∨ d.b (nsReg (nsid - 1) 0x11c) 0 = false ∨ nsid - 1 ∈ d.nvt.removing ∨
    (d.b (nsReg (nsid - 1) 0x11c) 4 = false ∧ d.nsHost (nsid - 1) ≠ x.host)

theorem Dev.nsAttached_of_unattached (hun : d.unattached x nsid) (h0 : nsid ≠ 0) : d.nsAttached x (nsid - 1) = false := by
  rw [Dev.nsAttached]
  obtain hzero | hrange | hvalid | hremoving | ⟨hany, hhost⟩ := hun
  · exact absurd hzero h0
  · have hout : ¬ nsid - 1 < 64 := by omega
    simp [hout]
  · simp [hvalid]
  · simp [hremoving]
  · simp [hany, hhost]

/-- Only a sanitize comes before the check that the namespace is attached (R417): length, range, a format and the SSD come
after it. -/
theorem Dev.nvRefuse_unattached (ext : List (Nat × Nat)) (mdts : Bool) (hsan : d.nvt.san < 2) (hun : d.unattached x nsid) :
    d.nvRefuse x nsid ext mdts = some 0x0b := by
  have hdetached : nsid = 0 ∨ (!d.nsAttached x (nsid - 1)) = true := by
    by_cases h0 : nsid = 0
    · exact .inl h0
    · exact .inr (by rw [Dev.nsAttached_of_unattached hun h0, Bool.not_false])
  rw [Dev.nvRefuse, if_neg (Nat.not_le.2 hsan), if_pos hdetached]

/-- A block command for such a namespace is answered, and not accepted. -/
theorem Dev.nvBlock_unattached (op : NvOp) (lbas : List (Nat × Nat)) (mdts fua : Bool) (data : List Byte)
    (hhosts : d.hosts conn x true) (hsan : d.nvt.san < 2) (hun : d.unattached x nsid) :
    d.nvBlock conn cid nsid op lbas mdts fua data = (d.nvTouch x).nvResp conn cid 0x0b 0 := by
  have hsan' : (d.nvTouch x).nvt.san < 2 := hsan
  have hun' : (d.nvTouch x).unattached { x with last := d.trclk } nsid := hun
  rw [Dev.nvBlock, Laws.nvIo_pos hhosts]
  dsimp only
  rw [Dev.nvRefuse_unattached _ _ hsan' hun']

end Sys2Proof.Machine

namespace Sys2Proof
open Machine

/-- Settles O51: each command is a block command of the target, turned away before anything else is looked at, and its answer
changes the queues of frames alone. -/
theorem unattachedNamespacesAreRefused : Obligations.UnattachedNamespacesAreRefused := by
  unfold Obligations.UnattachedNamespacesAreRefused
  intro d conn cid nsid slba nlb x fua data hhosts hsan hun c hc
  have hrefused (op : NvOp) (mdts fua : Bool) (data : List Byte) :
      d.nvBlock conn cid nsid op [(slba, nlb)] mdts fua data = (d.nvTouch x).nvResp conn cid 0x0b 0 :=
    Dev.nvBlock_unattached op _ mdts fua data hhosts hsan hun
  have hdoes : Does c d ((d.nvTouch x).nvResp conn cid 0x0b 0) := by
    simp only [List.mem_cons, List.not_mem_nil, or_false] at hc
    obtain rfl | rfl | rfl := hc
    · exact does_of (exec_nvmeRead conn cid nsid slba nlb) (hrefused .read true false [])
    · exact does_of (exec_nvmeWrite conn cid nsid slba nlb fua true data) (hrefused .write true fua (data.take 8192))
    · exact does_of (exec_nvmeWriteZeroes conn cid nsid slba nlb) (hrefused .zeroes false false [])
  refine ⟨hdoes, ?_⟩
  obtain ⟨t, hanswer⟩ := Dev.nvTouch_nvResp_changes_queues (d := d) (x := x) (conn := conn) (cid := cid) 0x0b 0
  rw [hanswer]
  exact ⟨rfl, rfl, sameRegsBut_of_eq [] rfl, sameMem_of_eq rfl rfl⟩

end Sys2Proof
end

