-- ==== Sys2Proof/Proofs/SafeState.lean ====
section
/-!
PROOF. Proofs/SafeState.lean: a write of a register dropped in safe state (R452, R511), what the drop changes, and O36.
-/
namespace Sys2Proof.Machine

variable {d : Dev} {k : Nat}

/-! ### An event counted with its error bit (R506) -/

/-- The error bit leaves the count, which lies outside ERR_STS and ERR_FIRST. -/
theorem Dev.rd_inc_setErr {c pg : Nat} (i : Nat) (hsts : c ≠ pg + 0x10) (hfirst : c ≠ pg + 0x1c) :
    ((d.inc c).setErr pg i).rd c = d.rd c + 1 := by
  rw [Laws.setErr_rd _ _ _ _ hsts hfirst, Laws.inc_rd]

theorem sameRegsBut_inc_setErr (c pg i : Nat) : sameRegsBut [c, pg + 0x10, pg + 0x1c] d ((d.inc c).setErr pg i) := by
  intro j hj _
  simp only [List.mem_cons, List.not_mem_nil, or_false, not_or] at hj
  obtain ⟨hcount, hsts, hfirst⟩ := hj
  rw [Laws.setErr_rd _ _ _ _ hsts hfirst, Laws.inc_rd_other _ hcount]

/-! ### What safe state lets through (R452) -/

theorem Dev.not_writable_of_safe (hs : d.safe = true)
    (hk : k ∉ [0x5110, 0x5114, 0x5020, 0x5010, 0x5108]) : d.writable k = false := by
  rw [Dev.writable, hs, List.contains_eq_mem, decide_eq_false hk, Bool.not_true, Bool.false_or, Bool.and_false]

theorem Dev.onReg_dropped (f : Dev → Dev) (hs : d.safe = true) (ho : d.pageOpen k = true) (hw : d.writable k = false) :
    d.onReg k f = (d.inc 0x800).setErr pgGEN 0 := by
  rw [Dev.onReg, if_neg (Bool.eq_false_iff.1 hw), if_pos (by rw [ho, hs]; rfl)]

/-- A register at 0x20_0000 or above is no exception: in safe state its write is dropped as any other (R511). -/
theorem Dev.softWrite_dropped {fw : Bool} (v : Nat) (hs : d.safe = true) (ho : d.pageOpen k = true)
    (hw : d.writable k = false) : d.softWrite fw k v = (d.inc 0x800).setErr pgGEN 0 := by
  rw [Dev.softWrite, if_neg (by simp [hs]), Dev.onReg_dropped _ hs ho hw]

end Sys2Proof.Machine

namespace Sys2Proof
open Machine

/-- Settles O36: safe state lets no other register be written, and a dropped write is counted with its error bit. -/
theorem safeStateDropsWrites : Obligations.SafeStateDropsWrites := by
  unfold Obligations.SafeStateDropsWrites
  intro d off v hs ho hoff h4 hother
  have hdrop := Dev.softWrite_dropped (fw := false) v.toNat hs ho (Dev.not_writable_of_safe hs hother)
  refine ⟨(d.inc 0x800).setErr pgGEN 0, does_registerWrite hoff h4 hdrop, Dev.rd_inc_setErr 0 (by decide) (by decide),
    Dev.b_setErr_same pgGEN (by decide), sameRegsBut_inc_setErr 0x800 pgGEN 0, fun k => ?_,
    sameMem_of_eq (Dev.setErr_mem _ _ _) (Dev.setErr_marks _ _ _), Dev.setErr_commits _ _ _, Dev.setErr_cores _ _ _,
    Dev.setErr_tide _ _ _⟩
  rw [Dev.rdA, Dev.setErr_bank]
  rfl

end Sys2Proof
end

