-- ==== Sys2Proof/Proofs/PowerCap.lean ====
section
/-!
PROOF. Proofs/PowerCap.lean: answers to vendor commands of MCTP (R526), the baseboard cap they set (R527), and O50.
-/
namespace Sys2Proof.Machine

variable {d : Dev} {w : Nat}

/-! ### Vendor commands of MCTP (R526) -/

/-- While AON runs, an answer of MCTP is what leaves the device, and nothing else changes. -/
theorem Dev.mctp_of_aon (cmd code : Nat) (l : List Byte) (ha : d.pwr.aon = true) :
    d.mctp cmd code l = { d with out := .mctp cmd code l :: d.out } :=
  if_pos ha

/-- A command of RUNNING and of safe state is served in both. -/
theorem Dev.mctpRun_pos (cmd : Nat) (f : Dev → Dev) (hm : d.pwr.main = true) (hrun : d.fwRunning = true ∨ d.safe = true) :
    d.mctpRun cmd f = f d :=
  if_pos (by simpa [hm] using hrun)

/-! ### The baseboard cap (R527) -/

/-- A cap that SET_CAP accepts: 600 to 1,650 W, or 0, which removes the cap. -/
def isCap (w : Nat) : Prop := w = 0 ∨ (600 ≤ w ∧ w ≤ 1650)

/-- An accepted cap fits in the 11 bits of PWR.CAP.BMC. -/
theorem isCap.lt (hw : isCap w) : w < 2 ^ 11 := by
  obtain rfl | ⟨-, hle⟩ := hw <;> omega

/-- The device with a baseboard cap recorded, and shown by PWR.CAP.BMC. -/
def Dev.capped (d : Dev) (w : Nat) : Dev := ({ d with fw := { d.fw with capBmc := w } } : Dev).s 0x1104 16 11 w

theorem Dev.capped_shown (hw : isCap w) : (d.capped w).g 0x1104 16 11 = w :=
  (Dev.g_s_same _ (by decide)).trans (Nat.mod_eq_of_lt hw.lt)

/-- The driver's cap in the same register stands. -/
theorem Dev.capped_driver (d : Dev) (w : Nat) : (d.capped w).g 0x1104 0 11 = d.g 0x1104 0 11 :=
  Dev.g_s_other _ (by decide) (by decide)

theorem Dev.sameRegsBut_capped (d : Dev) (w : Nat) : sameRegsBut [0x1104] d (d.capped w) := sameRegsBut_wr 0x1104 _

/-- Where SET_CAP is served, its value decides the answer. -/
theorem does_setCap {e : Dev} (hm : d.pwr.main = true) (hrun : d.fwRunning = true ∨ d.safe = true)
    (h : (if w = 0 ∨ (600 ≤ w ∧ w ≤ 1650) then (d.capped w).mctp 3 0 [] else d.mctp 3 0x02 []) = e) :
    Does (.setCap w) d e :=
  does_of (exec_setCap w) ((Dev.mctpRun_pos 3 _ hm hrun).trans h)

theorem does_setCap_accepted (hm : d.pwr.main = true) (ha : d.pwr.aon = true) (hrun : d.fwRunning = true ∨ d.safe = true)
    (hw : isCap w) : Does (.setCap w) d { d.capped w with out := .mctp 3 0 [] :: d.out } :=
  does_setCap hm hrun ((if_pos hw).trans (Dev.mctp_of_aon (d := d.capped w) 3 0 [] ha))

/-- A value out of range answers INVALID_DATA (0x02). -/
theorem does_setCap_refused (hm : d.pwr.main = true) (ha : d.pwr.aon = true) (hrun : d.fwRunning = true ∨ d.safe = true)
    (hw : ¬ isCap w) : Does (.setCap w) d { d with out := .mctp 3 0x02 [] :: d.out } :=
  does_setCap hm hrun ((if_neg hw).trans (Dev.mctp_of_aon 3 0x02 [] ha))

/-- Standby begins with the firmware's state as at reset: no baseboard cap. -/
theorem Dev.standby_capBmc (d : Dev) : d.standby.fw.capBmc = 0 := rfl

end Sys2Proof.Machine

namespace Sys2Proof
open Machine

/-- Settles O50: an accepted cap is recorded and shown and a refused one changes nothing, each with its answer; standby keeps
no cap. -/
theorem baseboardCap : Obligations.BaseboardCap := by
  unfold Obligations.BaseboardCap
  refine ⟨fun d w hm ha hrun => ?_, Dev.standby_capBmc⟩
  by_cases hw : isCap w
  · exact ⟨_, does_setCap_accepted hm ha hrun hw, Dev.sameRegsBut_capped d w, sameMem_of_eq rfl rfl, rfl,
      fun _ => ⟨rfl, Dev.capped_shown hw, Dev.capped_driver d w, rfl⟩, fun hno => absurd hw hno⟩
  · exact ⟨_, does_setCap_refused hm ha hrun hw, sameRegsBut_of_eq _ rfl, sameMem_of_eq rfl rfl, rfl,
      fun hyes => absurd hyes hw, fun _ => ⟨rfl, sameRegsBut_of_eq [] rfl, rfl⟩⟩

end Sys2Proof
end

