-- ==== Sys2Proof/Proofs/Queue.lean ====
section
/-!
PROOF. Proofs/Queue.lean: the queue of commands and the canonical form: every command, and every tick, gives a settled device,
and a step takes one command from the queue; O21, O23, O24, O26 and O27.
-/
namespace Sys2Proof.Machine

variable {i : Instr} {s t : State}

/-- A command gives a settled device and leaves the queue. -/
theorem exec_settled (i : Instr) (s : State) : ∃ d : Dev, exec i s = .next ⟨d.settle, s.pending⟩ := by
  obtain ⟨f, hf⟩ := exec_lift i s
  exact ⟨(f s.dev).recordFound, hf⟩

/-- A tick gives a settled device. -/
theorem Dev.tick_settled (d : Dev) : ∃ e : Dev, d.tick = e.settle := ⟨_, rfl⟩

/-- With no command waiting a step is a tick. -/
theorem step_tick (h : s.pending = []) : step s = .next { s with dev := s.dev.tick } := by
  rw [step, h]

/-- A step runs the command at the front of the queue. -/
theorem step_front {q : List Instr} (h : s.pending = i :: q) : step s = exec i { s with pending := q } := by
  rw [step, h]

/-- Every step answers a next state: a settled device, and the queue without its front. -/
theorem step_settled (s : State) : ∃ d : Dev, step s = .next ⟨d.settle, s.pending.tail⟩ := by
  cases hq : s.pending with
  | nil =>
    obtain ⟨e, he⟩ := s.dev.tick_settled
    exact ⟨e, by rw [step_tick hq, he, hq]; rfl⟩
  | cons i q =>
    obtain ⟨d, hd⟩ := exec_settled i { s with pending := q }
    exact ⟨d, (step_front hq).trans hd⟩

/-- Every step gives a device whose maps are canonical. -/
theorem step_canonical (h : step s = .next t) : t.dev.canonical = true := by
  obtain ⟨d, hd⟩ := step_settled s
  obtain rfl : (⟨d.settle, s.pending.tail⟩ : State) = t := Host.Outcome.next.inj (hd.symm.trans h)
  exact d.canonical_settle

/-- As many steps as are asked for all answer next states, each without one more command of the queue; the maps, canonical at
the start, are so at the end. -/
theorem runSteps_drops (n : Nat) : ∀ s : State, s.dev.canonical = true →
    ∃ t, runSteps n s = .next t ∧ t.pending = s.pending.drop n ∧ t.dev.canonical = true := by
  induction n with
  | zero => exact fun s hs => ⟨s, rfl, rfl, hs⟩
  | succ n ih =>
    intro s _
    obtain ⟨d, hd⟩ := step_settled s
    obtain ⟨t, hrun, hpend, hcanon⟩ := ih ⟨d.settle, s.pending.tail⟩ d.canonical_settle
    refine ⟨t, ?_, ?_, hcanon⟩
    · rw [runSteps, hd]
      exact hrun
    · rw [hpend, List.drop_tail]

end Sys2Proof.Machine

namespace Sys2Proof
open Machine

/-- Settles O21: the step's own case of a queue that is not empty. -/
theorem stepRunsTheFrontCommand : Obligations.StepRunsTheFrontCommand := by
  unfold Obligations.StepRunsTheFrontCommand
  intro c d q
  exact step_front rfl

/-- Settles O23: the table of commands gives no bits, the model's choice (log entry 1), so no word is one's. -/
theorem noWordSpellsACommand : Obligations.NoWordSpellsACommand := by
  unfold Obligations.NoWordSpellsACommand
  intro nbits w s
  have hnone : decodeTableWord nbits w = none := rfl
  exact ⟨hnone, by rw [State.withFetchWord, hnone]⟩

/-- Settles O24: the meaning of every command is the settled effect of a function on the device. That this holds in every
state, a command whose event cannot occur changing nothing, is the model's choice (log entry 2). -/
theorem everyCommandAnswersANextState : Obligations.EveryCommandAnswersANextState := by
  unfold Obligations.EveryCommandAnswersANextState
  intro i s
  obtain ⟨d, hd⟩ := exec_settled i s
  exact ⟨_, hd, rfl⟩

/-- Settles O26: what a command or a tick leaves is settled, and settling folds each map into its canonical form. -/
theorem everyStepKeepsTheCanonicalForm : Obligations.EveryStepKeepsTheCanonicalForm := by
  unfold Obligations.EveryStepKeepsTheCanonicalForm
  intro s t _ h
  exact step_canonical h

/-- Settles O27: each step takes one command from the queue, so as many as wait empty it. -/
theorem waitingCommandsAreAllDone : Obligations.WaitingCommandsAreAllDone := by
  unfold Obligations.WaitingCommandsAreAllDone
  intro s hs
  obtain ⟨t, hrun, hpend, hcanon⟩ := runSteps_drops s.pending.length s hs
  exact ⟨t, hrun, hpend.trans List.drop_length, hcanon⟩

end Sys2Proof
end

