-- ==== Sys2Proof/Proofs/Clusters.lean ====
section
/-!
PROOF. Proofs/Clusters.lean: the jobs of the clusters begin and end, and slices, notices and results of groups are taken up;
O4.
-/
namespace Sys2Proof.Machine

variable {d : Dev} {c i ty seq g m : Nat} {j : QJob}

/-! ### Jobs begin (R104, R105) -/

/-- A queued job that may begin leaves the queue and does what its row says. -/
theorem Dev.beginJob_pos {ready : QJob → Dev → Bool} (f : QJob → Dev → Dev) (h : d.canBegin c i j ty ready) :
    d.beginJob c i [ty] ready f = f j (d.without j) := by
  obtain ⟨hq, hlive, hstarts, hown, hty, hready, hfree, hcmpl⟩ := h
  rw [Dev.beginJob, hq]
  exact (if_neg (by simp [hlive, hstarts, hown, hty, hready, hfree])).trans (if_pos hcmpl)

theorem does_beginJob {ins : Instr} {ready : QJob → Dev → Bool} {f : QJob → Dev → Dev} {e : Dev}
    (hexec : ∀ s, exec ins s = lift (fun d => d.beginJob c i [ty] ready f) s) (h : d.canBegin c i j ty ready)
    (he : f j (d.without j) = e) : Does ins d e :=
  does_of hexec ((Dev.beginJob_pos f h).trans he)

/-- A job of a foreign part or of no known TYPE leaves the queue with status 7 (R105). -/
theorem Dev.badType_pos (hq : (d.xcQueue c)[i]? = some j) (hlive : d.live = true) (hstarts : d.starts (pgXC c) = true)
    (hty : j.foreign = true ∨ j.type ∉ [1, 2, 3, 4, 0x20, 0x21, 0x22, 0x23])
    (hcmpl : (d.without j).jobAddr j true j.cmpl 16 = true) :
    d.badType c i = (d.without j).endJob j 7 false 0 0 := by
  have hbad : (!j.foreign && [1, 2, 3, 4, 0x20, 0x21, 0x22, 0x23].contains j.type) = false := by
    obtain h | h := hty
    · rw [h]; rfl
    · rw [List.contains_eq_mem, decide_eq_false h, Bool.and_false]
  rw [Dev.badType, hq]
  exact (if_neg (by rw [hlive, hstarts, hbad]; decide)).trans (if_pos hcmpl)

/-! ### Jobs end (R113, R126) -/

/-- A job that is part of no batch of combine jobs ends with what it counted. -/
theorem Dev.jobEnd_pos {r : RunJob} (hrun : (d.xcRun c).find? (fun r => r.q.seq == seq && !r.wait) = some r)
    (hcomb : d.xc.combs.find? (·.seq == seq) = none) :
    d.jobEnd c seq = (((({ d with xc := { d.xc with run := d.xc.run.filter (·.q.seq ≠ seq) } } : Dev).each r.fin
      fun w d => d.memWrite (pgXC c) r.q.dom w.1 w.2.1 w.2.2).dropComb seq).endJob r.q r.status r.poison r.ca r.cb) := by
  rw [Dev.jobEnd, hrun]
  dsimp only
  rw [hcomb]

/-! ### Slices, notices and results of a group (R116, R127, R177) -/

/-- A slice that is not the last of its group is held. -/
theorem does_sliceReceive {x : Slice} (hx : d.xc.slices[i]? = some x) (hs : d.safe = false)
    (ho : ∀ r, d.segOwner x.rgrp x.clmask x.owner = some r → d.reaches (expertRanges r.q) = true)
    (hmore : (d.xc.held.filter fun y => y.rgrp == x.rgrp && y.clmask == x.clmask && y.owner == x.owner).length + 1
      < popN x.clmask 16) : Does (.sliceReceive i) d
      { d with xc := { d.xc with slices := d.xc.slices.eraseIdx i, held := d.xc.held ++ [x] } } := by
  refine does_of (exec_sliceReceive i) ?_
  simp only [hx]
  refine (if_neg ?_).trans (if_pos (by simpa using hmore))
  rw [hs, Bool.false_or]
  cases hr : d.segOwner x.rgrp x.clmask x.owner with
  | none => exact Bool.false_ne_true
  | some r => simp [ho r hr]

/-- The slices of a segment that its owner awaits no longer end the owner TIMEOUT. The status is the model's choice where the
owner failed by itself (log entry 85). -/
theorem does_sliceRedTimeout {o : Fin 16} {r : RunJob} (hs : d.safe = false)
    (hheld : (d.xc.held.filter fun y => y.rgrp == g && y.clmask == m && y.owner == o.val) ≠ [])
    (ho : d.segOwner g m o = some r) : Does (.sliceRedTimeout g m o) d
      (let same (y : Slice) : Bool := y.rgrp == g && y.clmask == m && y.owner == o.val
       let e := { d with xc := { d.xc with held := d.xc.held.filter fun y => !same y } }
       ((((e.writeSegment r (d.xc.held.filter same) true).1).setErr (pgXC o) 2).poisonSlices o g m).setRun r.q.seq fun r =>
         { r with status := 6, wait := false, poison := true }) := by
  refine does_of (exec_sliceRedTimeout g m o) ?_
  have ho' : Dev.segOwner { d with xc := { d.xc with held := d.xc.held.filter fun y =>
      !(y.rgrp == g && y.clmask == m && y.owner == o.val) } } g m o = some r := ho
  dsimp only
  rw [if_neg (by simp [hs, List.isEmpty_iff, hheld]), ho']

theorem does_partialNotice {n : Notice} (hn : d.xc.notices[i]? = some n) (hs : d.safe = false)
    (hw : d.noticeWaits n = false) : Does (.partialNotice i) d
      (({ d with xc := { d.xc with notices := d.xc.notices.eraseIdx i } } : Dev).notice n) := by
  refine does_of (exec_partialNotice i) ?_
  simp only [hn]
  rw [if_neg (by simp [hs, hw])]

/-- A result that is not the last of its group is held. -/
theorem does_kvGroupResult {x : KvMsg} (hx : d.xc.kvmsgs[i]? = some x) (hs : d.safe = false) (hcalm : d.calm = true)
    (hmore : (d.xc.kvheld.filter fun y => y.type == x.type && y.rgrp == x.rgrp && y.clmask == x.clmask).length + 1
      < popN x.clmask 16) : Does (.kvGroupResult i) d
      { d with xc := { d.xc with kvmsgs := d.xc.kvmsgs.eraseIdx i, kvheld := d.xc.kvheld ++ [x] } } := by
  refine does_of (exec_kvGroupResult i) ?_
  simp only [hx]
  rw [if_neg (by simp [hs, hcalm]), if_pos (by simpa using hmore)]

/-- A group some of whose results came is resolved with those. -/
theorem does_kvGroupTimeout (hs : d.safe = false) (hcalm : d.calm = true)
    (hheld : (d.xc.kvheld.filter fun y => y.type == ty && y.rgrp == g && y.clmask == m) ≠ []) :
    Does (.kvGroupTimeout ty g m) d
      (let same (y : KvMsg) : Bool := y.type == ty && y.rgrp == g && y.clmask == m
       let (e, _, sel) := d.kvOutputs (d.xc.kvheld.filter same) true
       let f := { e with xc := { e.xc with kvheld := e.xc.kvheld.filter fun y => !same y } }
       (f.s (pgXC ((bitList m 16).headD 0) + 0x200) 1 1 1).kvRelease ty g m true true sel) := by
  refine does_of (exec_kvGroupTimeout ty g m) ((if_neg (by simp [hs, hcalm])).trans ?_)
  rw [Dev.kvResolve]
  dsimp only
  rw [if_neg (by simp [List.isEmpty_iff, hheld]), if_pos rfl]

end Sys2Proof.Machine

namespace Sys2Proof
open Machine

/-- Settles O4: a queued job that may begin passes its checks and does its work; what arrives for a group is held, and a job
that waits for nothing ends. -/
theorem clusterCommandsComplete : Obligations.ClusterCommandsComplete := by
  unfold Obligations.ClusterCommandsComplete
  refine ⟨?_, ?_, ?_, ?_, ?_, ?_, ?_, ?_, ?_, ?_, ?_, ?_, ?_, ?_, ?_, ?_⟩
  · intro d c i j h hchecks haddrs
    refine does_beginJob (exec_expertJobBegin c i) h ?_
    simp only [hchecks, haddrs, ne_eq, not_true_eq_false, if_false]
  · intro d c i j h hchecks harea haddrs
    refine does_beginJob (exec_gateJobBegin c i) h ?_
    simp only [hchecks, harea, haddrs, ne_eq, not_true_eq_false, if_false]
  · intro d c i j h hchecks haddrs
    refine does_beginJob (exec_combineJobBegin c i) h ?_
    simp only [hchecks, haddrs, ne_eq, not_true_eq_false, if_false]
  · intro d c i j h haddrs
    refine does_beginJob (exec_codebookLoadBegin c i) h ?_
    simp only [haddrs]
  · intro d c i j h
    exact does_beginJob (exec_kvSelectBegin c i) h rfl
  · intro d c i j o h
    exact does_beginJob (exec_kvAttendBegin c i o) h rfl
  · intro d c i j h
    exact does_beginJob (exec_kvWriteBegin c i) h rfl
  · intro d c i j h
    exact does_beginJob (exec_kvReadBegin c i) h rfl
  · intro d c i j hc hq hlive hstarts hty hcmpl
    exact does_of (exec_badTypeJobBegin c i) ((if_pos hc).trans (Dev.badType_pos hq hlive hstarts hty hcmpl))
  · intro d c seq r hrun hreach
    refine does_of (exec_codebookLoadDone c seq) ?_
    simp only [hrun]
    exact Dev.when_pos _ hreach
  · intro d c seq r hrun _ hcomb
    refine does_of (exec_jobEnd c seq) ?_
    simp only [hcomb]
    exact Dev.jobEnd_pos hrun hcomb
  · intro d i x hx hs ho hmore
    exact does_sliceReceive hx hs ho hmore
  · intro d g m o r hs hheld ho
    exact does_sliceRedTimeout hs hheld ho
  · intro d i n hn hs hw
    exact does_partialNotice hn hs hw
  · intro d i m hm hs hcalm hmore
    exact does_kvGroupResult hm hs hcalm hmore
  · intro d ty g m hs hcalm hheld
    exact does_kvGroupTimeout hs hcalm hheld

end Sys2Proof
end

