-- ==== Sys2Proof/Proofs/Exchange.lean ====
section
/-!
PROOF. Proofs/Exchange.lean: the jobs of the exchange unit, its messages and credits, and the expert map loaded and its switch
armed; O5.
-/
namespace Sys2Proof.Machine

variable {d e : Dev} {i seq conn msn k w : Nat} {j : QJob} {h b : List Byte} {p : Bool}

/-! ### Jobs (R134, R144, R150) -/

/-- A check that holds does not fail. -/
theorem not_eq_true_not {x : Bool} (hx : x = true) : ¬ (!x) = true := by rw [hx]; exact Bool.false_ne_true

/-- A queued job that may begin leaves the queue and does what its row says. -/
theorem does_xBegin {ins : Instr} {ty : Nat} {f : QJob → Dev → Dev}
    (hexec : ∀ s, exec ins s = lift (fun d => d.xBegin i ty f) s) (hj : d.canXBegin i j ty) (he : f j (d.withoutX i) = e) :
    Does ins d e := by
  obtain ⟨hq, hlive, hstarts, hown, hty, hcalm, hcmpl, hen⟩ := hj
  refine does_of hexec ?_
  rw [Dev.xBegin, hq]
  exact (if_neg (by simp [hlive, hstarts, hown, hty, hcalm])).trans
    ((if_neg (not_eq_true_not hcmpl)).trans ((if_neg (not_eq_true_not hen)).trans he))

/-- A dispatch job whose targets have all been served ends. -/
theorem does_dispatchJobComplete {r : XJob}
    (hrun : d.xch.run.find? (fun r => r.q.seq == seq && r.q.type == 0x10 && r.waiting.isEmpty) = some r)
    (hcalm : d.calm = true) : Does (.dispatchJobComplete seq) d
      (({ d with xch := { d.xch with run := d.xch.run.filter (·.q.seq ≠ seq) } } : Dev).xEnd r.q
        (if r.failed then 6 else 0) (r.failed || r.poison) r.nlocal r.sent) := by
  refine does_of (exec_dispatchJobComplete seq) ?_
  simp only [hrun]
  exact if_neg (by simp [hcalm])

/-- So does a return job, which frees its arrival where it is the last of it. -/
theorem does_returnJobComplete {r : XJob}
    (hrun : d.xch.run.find? (fun r => r.q.seq == seq && r.q.type == 0x11 && r.waiting.isEmpty) = some r)
    (hcalm : d.calm = true) : Does (.returnJobComplete seq) d
      (let e := { d with xch := { d.xch with run := d.xch.run.filter (·.q.seq ≠ seq) } }
       (match r.release with | none => e | some n => Dev.freeArrival e n true).xEnd r.q r.status r.poison 0 r.sent) := by
  refine does_of (exec_returnJobComplete seq) ?_
  simp only [hrun]
  exact if_neg (by simp [hcalm])

/-- A return job of an arrival that it may return to its origin does its work. -/
theorem does_returnJobBegin {idx : Nat} {a0 a : Arrival} (hj : d.canXBegin i j 0x11)
    (hidx : (d.withoutX i).returnIdx j = some idx) (harr : (d.withoutX i).xAddr j false (j.b8 8) 128 = true)
    (hfind : d.xch.arrivals.find? (·.idx == idx) = some a0) (hrec : (d.withoutX i).arrivalRec j a0 = (a, e))
    (hok : returnOk j a = true) (hsrc : e.xAddr j false (j.b8 16) 128 = true) :
    Does (.returnJobBegin i) d (e.returnDo j a idx) := by
  have hfind' : (d.withoutX i).xch.arrivals.find? (·.idx == idx) = some a0 := hfind
  refine does_xBegin (exec_returnJobBegin i) hj ?_
  simp only [hidx, harr, hfind', hrec, hok, hsrc, Bool.not_true, Bool.false_eq_true, if_false]

/-! ### Messages (R137 to R141, R146 to R149) -/

/-- While work is taken, a dispatch message is taken in and lands in a free slot. -/
theorem does_dispatchMsg_lands (htakes : d.takesWork = true)
    (hslot : (d.takeXin conn (some msn) h b p).slotFor conn msn h b = (some k, w)) : Does (.dispatchMsg conn msn h b p) d
      (let e := d.takeXin conn (some msn) h b p
       ({ e with xch := { e.xch with pre := e.xch.pre.eraseP fun x => x.1 == conn && x.2.1 == msn } } : Dev).dispatchIn conn h
         b p k) := by
  refine does_of (exec_dispatchMsg conn msn h b p) ((if_neg (not_eq_true_not htakes)).trans ?_)
  simp only [hslot]

/-- With no slot free for it, the message is refused. -/
theorem does_dispatchMsg_refused (htakes : d.takesWork = true)
    (hslot : (d.takeXin conn (some msn) h b p).slotFor conn msn h b = (none, w)) : Does (.dispatchMsg conn msn h b p) d
      (let e := d.takeXin conn (some msn) h b p
       ({ e with xch := { e.xch with pre := e.xch.pre.eraseP fun x => x.1 == conn && x.2.1 == msn } } : Dev).dispatchRefuse
         conn h w) := by
  refine does_of (exec_dispatchMsg conn msn h b p) ((if_neg (not_eq_true_not htakes)).trans ?_)
  simp only [hslot]

/-- The first open selection of a message of a target with credit goes to the wire (R138). -/
theorem does_dispatchSend {t c : Nat} {m : XMsg} {x : Sel} {r : List Sel}
    (hmsg : d.xch.msgs.find? (fun m => m.target == t && m.phase == 0) = some m) (htakes : d.takesWork = true)
    (hcredit : d.credit t ≠ 0) (hopen : d.openOf m = x :: r) (hctx : d.findCtx 1 t m.cove = some c) :
    Does (.dispatchSend t) d (d.dispatchOut t m x r c) := by
  refine does_of (exec_dispatchSend t) ?_
  simp only [hmsg]
  refine (if_neg (by simp [htakes, hcredit])).trans ?_
  simp only [hopen, hctx]

/-- A message of returns, once taken in and its credit added, finds the selection it answers. -/
theorem does_returnMsg_open {x : Sel} (htakes : d.takesWork = true)
    (hopen : ((d.takeXin conn (some msn) h b p).addCredit (beAt h 4 2 % 1024) (beAt h 6 2)).openFor h = some x) :
    Does (.returnMsg conn msn h b p) d
      (((d.takeXin conn (some msn) h b p).addCredit (beAt h 4 2 % 1024) (beAt h 6 2)).returnIn h b p x) := by
  refine does_of (exec_returnMsg conn msn h b p) ((if_neg (not_eq_true_not htakes)).trans ?_)
  simp only [hopen]

/-- One that answers no open selection is counted. -/
theorem does_returnMsg_late (htakes : d.takesWork = true)
    (hopen : ((d.takeXin conn (some msn) h b p).addCredit (beAt h 4 2 % 1024) (beAt h 6 2)).openFor h = none) :
    Does (.returnMsg conn msn h b p) d
      (((d.takeXin conn (some msn) h b p).addCredit (beAt h 4 2 % 1024) (beAt h 6 2)).incBy (pgEMH + 0x914)
        (d.xinPkts conn msn h b p)) := by
  refine does_of (exec_returnMsg conn msn h b p) ((if_neg (not_eq_true_not htakes)).trans ?_)
  simp only [hopen]

/-- A message refused is one whose target cannot be reached: its selections go elsewhere. -/
theorem does_refuseMsg {m : XMsg} (htakes : d.takesWork = true)
    (hmsg : (((d.takeXin conn none h [] false).addCredit (beAt h 4 2 % 1024) (beAt h 6 2)).inc (pgEMH + 0x918)).xch.msgs.find?
      ((((d.takeXin conn none h [] false).addCredit (beAt h 4 2 % 1024) (beAt h 6 2)).inc (pgEMH + 0x918)).refusedBy h) =
        some m) :
    Does (.refuseMsg conn h) d
      ((((d.takeXin conn none h [] false).addCredit (beAt h 4 2 % 1024) (beAt h 6 2)).inc (pgEMH + 0x918)).unreachable m
        false) := by
  refine does_of (exec_refuseMsg conn h) ((if_neg (not_eq_true_not htakes)).trans ?_)
  dsimp only
  rw [hmsg]

/-! ### The expert map (R157 to R159) -/

/-- A control message of its headland, delivered at a worker, does what its row says. -/
theorem does_fromHead {ins : Instr} {m : Ctl} {f : Dev → Dev}
    (hexec : ∀ s, exec ins s = lift (fun x => x.ctlIn d.tide.headDev m true f) s) (hemh : d.emhOn = true)
    (hfw : d.fwRunning = true) (hw : d.isWorker = true) (he : f (d.taking d.tide.headDev m) = e) : Does ins d e :=
  does_of hexec ((Laws.ctlIn_pos hemh hfw (Laws.conf_of_worker hw) (.inr rfl)).trans he)

/-- MAP_LOAD of an image that passes its checks is spread to the workers. -/
theorem does_mapLoad {f : Dev} {cid bank : Nat} {t : DWord} {c : Cmd} {l : List Byte} (hcmd : d.cmd? 0 cid 0x0012 = some c)
    (hh : d.isHead = true) (hbuf : d.bufOk c false c.buflen = true) (hbank : inUserMem bank (17 * 2 ^ 20) = true)
    (halign : bank % 64 = 0) (hbusy : d.mapBusy = false) (hlen : 64 ≤ c.buflen)
    (hhead : d.memRead pgFWR 0x40 c.buf 64 = (h, false, f)) (hmax : leAt h 8 4 ≤ 17 * 2 ^ 20)
    (hsize : leAt h 8 4 ≤ c.buflen)
    (hread : f.memRead pgFWR 0x40 c.buf (leAt h 8 4) = (l, false, e))
    (hvalid : mapInvalid l (d.g (pgEMH + 0x60c) 0 16) = false) :
    Does (.mapLoad cid bank t) d (e.mapSpread cid c l bank (d.pickTide c t)) := by
  refine does_of (exec_mapLoad cid bank t) ((Laws.headCmd_pos _ hcmd hh).trans ?_)
  rw [if_neg (by rw [hbuf, hbank]; simp [halign]), if_neg (by simp [hbusy]), if_neg (Nat.not_lt.2 hlen)]
  simp only [hhead]
  rw [if_neg (by simpa using hmax), if_neg (Nat.not_lt.2 hsize)]
  simp only [hread]
  rw [if_neg (by simp [hvalid])]

end Sys2Proof.Machine

namespace Sys2Proof
open Machine

/-- Settles O5: each job and message passes the checks of its row, and where its effect has cases the state decides which. -/
theorem exchangeCommandsComplete : Obligations.ExchangeCommandsComplete := by
  unfold Obligations.ExchangeCommandsComplete
  refine ⟨?_, ?_, ?_, ?_, ?_, ?_, ?_, ?_, ?_, ?_, ?_, ?_, ?_, ?_, ?_, ?_, ?_, ?_⟩
  · intro d i j hj hgood hpart hreads
    refine does_xBegin (exec_dispatchJobBegin i) hj ?_
    simp only [hgood, hpart, hreads, Bool.not_true, Bool.false_eq_true, if_false]
  · intro d t c m x r hmsg htakes hcredit hopen hctx
    exact does_dispatchSend hmsg htakes hcredit hopen hctx
  · intro d seq r hrun hcalm
    exact does_dispatchJobComplete hrun hcalm
  · intro d conn msn k w h b p htakes hslot
    exact does_dispatchMsg_lands htakes hslot
  · intro d conn msn w h b p htakes hslot
    exact does_dispatchMsg_refused htakes hslot
  · intro d e i idx j a0 a hj hidx harr hfind hrec hok hsrc
    exact does_returnJobBegin hj hidx harr hfind hrec hok hsrc
  · intro d seq r hrun hcalm
    exact does_returnJobComplete hrun hcalm
  · intro d conn msn h b p x htakes e hopen
    exact does_returnMsg_open htakes hopen
  · intro d conn msn h b p htakes e hopen
    exact does_returnMsg_late htakes hopen
  · intro d conn h m htakes e hmsg
    exact does_refuseMsg htakes hmsg
  · intro d id m hs hmsg
    refine does_of (exec_xdispTimeout id) ?_
    simp only [hmsg, hs, Bool.false_eq_true, if_false]
  · intro d id m hs hmsg hopen
    refine does_of (exec_xretTimeout id) ?_
    simp only [hmsg]
    exact if_neg (by simp [hs, hopen])
  · intro d conn h htakes
    exact does_of (exec_creditMsg conn h) (if_neg (not_eq_true_not htakes))
  · intro d dev hs
    exact does_of (exec_creditTimeout dev) (if_neg (by simp [hs]))
  · intro d n hw
    exact does_of (exec_xdownClear n) (Dev.onReg_pos _ hw)
  · intro d e f cid bank t c h l hcmd hh hbuf hbank halign hbusy hlen hhead hmax hsize hread hvalid
    exact does_mapLoad hcmd hh hbuf hbank halign hbusy hlen hhead hmax hsize hread hvalid
  · intro d gen bank t hemh hfw hw
    exact does_fromHead (exec_mapArmMsg d.tide.headDev gen t bank) hemh hfw hw
      (Dev.when_pos _ ((Laws.taking_isWorker ..).trans hw))
  · intro d src gen t hemh hfw hconf
    exact does_of (exec_mapAckMsg src gen t) (Laws.ctlIn_pos hemh hfw hconf (.inl rfl))

end Sys2Proof
end

