-- ==== Sys2Proof/Proofs/Services.lean ====
section
/-!
PROOF. Proofs/Services.lean: the firmware's services: updates, dumps, logs, sensors and caps, sequencers launched and stopped by
command, the lease, crashes and the loops; O8.
-/
namespace Sys2Proof.Machine

variable {d e f : Dev} {q : Fin 256} {cid : Nat} {c : Cmd} {u : Update} {sq : Fin 32} {l t : List Byte}

/-! ### Updates (R281 to R284) -/

/-- FW_UPDATE with no update under way is held until its image is verified. -/
theorem does_fwUpdate (hcmd : d.cmd? 0 cid 0x0020 = some c) (hnone : d.fw.update = none) (hsec : d.secDown = false)
    (harm : c.arm = true ∨ d.slackNow = true) : Does (.fwUpdate cid) d
      (let e := d.hold c
       { e with fw := { e.fw with
           update := some { cid := cid, arm := if c.arm then some c.tide else none, img := {}, stage := 0 } } }) := by
  refine does_admin (exec_fwUpdate cid) hcmd ?_
  have harm' : ¬ (!c.arm && !d.slackNow) = true := by obtain h | h := harm <;> simp [h]
  rw [if_neg (by simp [hnone]), if_neg (by simp [hsec]), if_neg harm']

/-- The command of the update whose image has been fetched takes the verdict on it. -/
theorem does_fwUpdateVerified (ok : Bool) (hu : d.fw.update = some u) (hst : u.stage = 0) (hs : d.safe = false)
    (hfind : d.fw.fetched.find? (fun c => c.pair == 0 && c.cid == u.cid && c.opc == 0x0020) = some c) :
    Does (.fwUpdateVerified ok) d (d.takeImage u c ok) := by
  refine does_of (exec_fwUpdateVerified ok) ?_
  simp only [hu, hfind]
  exact if_neg (by simp [hst, hs])

/-- An update that runs on trial is confirmed, or rolled back when its time is over. -/
theorem does_updateConfirm (hu : d.fw.update = some u) (hst : u.stage = 2) (hs : d.safe = false) :
    Does .updateConfirm d (((({ d with fw := { d.fw with update := none } } : Dev).complete 0 u.cid 0 u.img.ver).event 0x8005
      u.img.ver).inc (pgFWR + 0x80c)) := by
  refine does_of exec_updateConfirm ?_
  simp only [hu]
  exact if_neg (by simp [hst, hs])

theorem does_updateConfirmTimeout (hu : d.fw.update = some u) (hst : u.stage = 2) (hs : d.safe = false) :
    Does .updateConfirmTimeout d d.rollback := by
  refine does_of exec_updateConfirmTimeout ?_
  simp only [hu]
  exact if_neg (by simp [hst, hs])

/-! ### Dumps and logs (R276, R290) -/

/-- GET_DUMP of a dump that is kept copies it to the buffer. -/
theorem does_getDump {bad : Bool} (hcmd : d.cmd? 0 cid 0x0021 = some c) (hlen : 65536 ≤ c.buflen)
    (hkept : leAt c.param 0 1 < min 8 d.fw.dumps) (hbuf : d.bufOk c true 65536 = true)
    (hread : d.memRead pgFWR 0x40 (dumpAddr (leAt c.param 0 1)) 65536 = (l, bad, e)) :
    Does (.getDump cid) d ((e.memWrite pgFWR 0x40 c.buf l bad).complete 0 cid 0 0) := by
  refine does_admin (exec_getDump cid) hcmd ?_
  have hrange : ¬ (c.buflen < 65536 ∨ min 8 d.fw.dumps ≤ leAt c.param 0 1) := by omega
  dsimp only
  rw [if_neg hrange, if_neg (not_eq_true_not hbuf), hread]

/-- LOG_CFG places the log; its sequence starts at 0, the model's choice (log entry 100). -/
theorem does_logCfg {base log : Nat} (hcmd : d.cmd? 0 cid 0x0022 = some c) (hge : 6 ≤ log) (hle : log ≤ 16)
    (halign : base % 64 = 0) (hin : d.inStaging base (64 * 2 ^ log) = true) : Does (.logCfg cid base log) d
      (({ d with fw := { d.fw with logBase := base, logLog2 := log, logOn := true, logSeq := 0 } } : Dev).complete 0 cid 0
        0) := by
  refine does_admin (exec_logCfg cid base log) hcmd ?_
  rw [if_neg (by omega), if_neg (not_eq_true_not hin)]

/-! ### Sequencers launched and stopped by command (R244, R287, R325) -/

/-- LAUNCH_SQ of an image that its sender may launch there, and that holds no fault, launches it. -/
theorem does_launchSq {bad tbad : Bool} (hcmd : d.cmd? q cid 0x0040 = some c)
    (himg : d.memRead pgFWR (domOf (d.cmdCove c)) c.buf 576 = (l, bad, e)) (hlen : 576 ≤ c.buflen)
    (hbuf : d.bufOk c false 576 = true) (halign : c.buf % 64 = 0) (hgrant : (grantOf l).2 ≤ 65536)
    (htbl : e.memRead pgFWR 0x40 (grantOf l).1 (grantOf l).2 = (t, tbad, f)) (hmay : d.mayLaunch c sq l t bad = true)
    (hgood : launchBad l bad = none) : Does (.launchSq q cid sq) d (f.launchImage q cid sq l) := by
  refine does_of (exec_launchSq q cid sq) ?_
  simp only [hcmd, himg]
  rw [if_neg (Nat.not_lt.2 hlen), if_neg (by simp [hbuf, halign]), if_neg (Nat.not_lt.2 hgrant)]
  simp only [htbl]
  rw [if_neg (not_eq_true_not hmay), if_neg (by simp [hgood])]

/-- STOP_SQ of the driver stops the sequencer and answers with its state. -/
theorem does_stopSq (hcmd : d.cmd? q cid 0x0041 = some c) (hdriver : d.cmdCove c = none) (hlen : 576 ≤ c.buflen)
    (hbuf : d.bufOk c true 576 = true) (halign : c.buf % 64 = 0) : Does (.stopSq q cid sq) d
      ((d.setCore sq { d.core sq with running := false }).answer c (stateImage { d.core sq with running := false }) 0) := by
  refine does_of (exec_stopSq q cid sq) ?_
  simp only [hcmd, hdriver]
  rw [if_neg (by simpa using hlen), if_neg (by simp [hbuf, halign])]

/-! ### Crashes and the loops (R286, R287, R532) -/

/-- A core that misses its watchdog while nothing else restarts, and for the third time not yet, is restarted. -/
theorem does_watchdogExpiry {k : Fin 5} {old : Nat} (hfw : d.fwRunning = true) (hs : d.safe = false)
    (hk : k.val = 4 ∨ d.restarts k false = false) (hfew : d.fw.crashes.getD k 0 - old + 1 < 3) :
    Does (.watchdogExpiry k false old false) d ((d.countCrash k (d.fw.crashes.getD k 0 - old + 1)).restartCore k) := by
  refine does_of (exec_watchdogExpiry k false old false) ((Dev.when_pos _ (by simp [hfw, hs])).trans ?_)
  have hkeeps : ¬ (decide (k.val < 4) && d.restarts k false || decide (3 ≤ d.fw.crashes.getD k 0 - old + 1)) = true := by
    rw [decide_eq_false (Nat.not_le.2 hfew), Bool.or_false]
    obtain h | h := hk
    · rw [h]; exact Bool.false_ne_true
    · rw [h, Bool.and_false]; exact Bool.false_ne_true
  exact (if_neg Bool.false_ne_true).trans (if_neg hkeeps)

/-- A hold of power drops the level while the loop's core does not run. -/
theorem does_pwrHoldDrop {w : Nat} (hfw : d.fwRunning = true) (hs : d.safe = false) (hcore : (d.core 33).running = false)
    (hover : 11 * d.g 0x1104 0 11 < 10 * w) : Does (.pwrHoldDrop w) d
      (let n := max 16 (d.g 0x1100 0 6 - 8)
       let e : Dev := { d with fw := { d.fw with pLevel := min d.fw.pLevel n } }
       (if n = d.g 0x1100 0 6 then e else e.levelTo n 256).inc 0x1808) :=
  does_of (exec_pwrHoldDrop w) (Dev.when_pos _ (by simp [hfw, hs, hcore, hover]))

end Sys2Proof.Machine

namespace Sys2Proof
open Machine

/-- Settles O8: each command passes the checks of its row. That LOG_CFG starts the sequence at 0, and where the dumps lie that
GET_DUMP reads, are the model's choice (log entries 100 and 32). -/
theorem firmwareServicesComplete : Obligations.FirmwareServicesComplete := by
  unfold Obligations.FirmwareServicesComplete
  refine ⟨?_, ?_, ?_, ?_, ?_, ?_, ?_, ?_, ?_, ?_, ?_, ?_, ?_, ?_, ?_, ?_⟩
  · intro d cid c hcmd hnone hsec harm
    exact does_fwUpdate hcmd hnone hsec harm
  · intro d ok u c hu hst hs hfind
    exact does_fwUpdateVerified ok hu hst hs hfind
  · intro d u hu hst hs
    exact does_updateConfirm hu hst hs
  · intro d u hu hst hs
    exact does_updateConfirmTimeout hu hst hs
  · intro d e cid c l bad hcmd hlen hkept hbuf hread
    exact does_getDump hcmd hlen hkept hbuf hread
  · intro d cid base log c hcmd hge hle halign hin
    exact does_logCfg hcmd hge hle halign hin
  · intro d cid c hcmd hge hle
    exact does_admin (exec_powerCap cid) hcmd (if_neg (by omega))
  · intro d q cid m c hcmd
    refine does_of (exec_getSensors q cid m) ?_
    simp only [hcmd]
  · intro d e f q cid sq c l t bad tbad hcmd himg hlen hbuf halign hgrant htbl hmay hgood
    exact does_launchSq hcmd himg hlen hbuf halign hgrant htbl hmay hgood
  · intro d q cid sq c hcmd hdriver hlen hbuf halign
    exact does_stopSq hcmd hdriver hlen hbuf halign
  · intro d hw hexp
    exact does_of exec_leaseRenew ((Dev.onReg_pos _ hw).trans (Dev.when_pos _ hexp))
  · intro d hst hfw hs
    exact does_of exec_leaseExpired (Dev.when_pos _ (by simp [hst, hfw, hs]))
  · intro d k old hfw hs hk hfew
    exact does_watchdogExpiry hfw hs hk hfew
  · intro d w w1 v n hl
    exact does_of (exec_powerLoopPeriod w w1 v n) (Dev.when_pos _ hl)
  · intro d m n hl
    exact does_of (exec_thermalLoopPeriod m n) (Dev.when_pos _ hl)
  · intro d w hfw hs hcore hover
    exact does_pwrHoldDrop hfw hs hcore hover

end Sys2Proof
end

