-- ==== Sys2Proof/Proofs/Ports.lean ====
section
/-!
PROOF. Proofs/Ports.lean: requests of the host and of accelerators served or held at their port, the resets and enables of PF0
and of the bridges, and the links; O13.
-/
namespace Sys2Proof.Machine

variable {d e : Dev} {wr poison : Bool} {off size addr a : Nat} {data : List Byte}

/-! ### Requests to PF0 (R295 to R299, R316) -/

/-- A request to BAR0 or BAR2 within the BAR, of 4 or 8 bytes at its own alignment, is served; of BAR2 not in safe state. -/
theorem Dev.bar0_pos {bar2 : Bool} (hup : d.linkUp 8 = true) (hflr : d.port.flr = false) (hmse : d.port.mse = true)
    (hrange : off + size ≤ (if bar2 then 2 ^ 26 else 2 ^ 24)) (hsize : size = 4 ∨ size = 8) (halign : off % size = 0)
    (hs : bar2 = false ∨ d.safe = false) : d.bar0 bar2 wr off size data = (d.wake 8).barServe bar2 wr off size data := by
  have hs' : ¬ (bar2 && (d.wake 8).safe) = true := by
    obtain h | h := hs
    · rw [h]; exact Bool.false_ne_true
    · rw [show (d.wake 8).safe = false from h, Bool.and_false]; exact Bool.false_ne_true
  rw [Dev.bar0, Dev.atBar_pos hup hflr hmse, if_neg (Nat.not_lt.2 hrange), if_neg (by omega), if_neg hs']

/-- A request to BAR4 within the BAR, to memory that is filled and the host's to use, is served. -/
theorem Dev.bar4_pos (hup : d.linkUp 8 = true) (hflr : d.port.flr = false) (hmse : d.port.mse = true)
    (he : (if wr && poison then (d.wake 8).poisonRx 8 else d.wake 8) = e) (hs : e.safe = false) (hfilled : e.filled = true)
    (hrange : off + size ≤ 2 ^ e.port.b4Log) (hmem : inUserMem (e.bar4Addr off) size = true) :
    d.bar4 wr off size data poison = e.memServe 0x40 8 wr (e.bar4Addr off) size data poison := by
  rw [Dev.bar4, Dev.atBar_pos hup hflr hmse]
  simp only [he]
  rw [if_neg (Nat.not_lt.2 hrange), if_neg (by simp [hs, hfilled]), if_neg (not_eq_true_not hmem)]

/-! ### Requests of accelerators (R303 to R306, R310) -/

/-- A request of an accelerator, its link awake and poison counted, that no window claims goes where it is routed. -/
theorem Dev.accReq_miss {k : Nat} {attr : ReqAttr} (hup : d.linkUp k = true)
    (he : (if wr && attr.poison then (d.wake k).poisonRx k else d.wake k) = e) (hmiss : e.hits k wr addr = []) :
    d.accReq k wr addr size data attr = e.unclaimed k wr addr size data attr := by
  rw [Dev.accReq, Dev.when_pos _ hup]
  simp only [he, hmiss]

/-- One that windows claim is the first one's. -/
theorem Dev.accReq_hit {k n : Nat} {rest : List Nat} {attr : ReqAttr} (hup : d.linkUp k = true)
    (he : (if wr && attr.poison then (d.wake k).poisonRx k else d.wake k) = e) (hhit : e.hits k wr addr = n :: rest) :
    d.accReq k wr addr size data attr = e.claimed n rest k wr addr size data attr.poison := by
  rw [Dev.accReq, Dev.when_pos _ hup]
  simp only [he, hhit]

/-- A request that one window claims, and may serve, is served from memory in the window's name. -/
theorem Dev.claimed_pos {n k : Nat} {x : Bool}
    (he : d.inc (pgWIN + (if wr then 0x800 else 0x804) + 8 * k) = e) (hs : e.safe = false) (hwin : e.b (pgWIN + 8) 2 = false)
    (hcut : wr = false ∨ e.slack.cut = false) (htarget : e.winTarget n wr addr size = (some a, x))
    (hfilled : areaOf a ≠ .device ∨ e.filled = true) :
    d.claimed n [] k wr addr size data poison =
      e.memServe (if bitN (e.rdA (winReg n 0)).toNat 30 then fieldN (e.rdA (winReg n 0)).toNat 24 6 else 0x40) k wr a size data
        poison := by
  have hcut' : ¬ (wr && e.slack.cut) = true := by obtain h | h := hcut <;> simp [h]
  have hfilled' : ¬ (areaOf a = .device ∧ (!e.filled) = true) := by
    obtain h | h := hfilled <;> simp [h]
  rw [Dev.claimed]
  simp only [he, List.isEmpty_nil, if_true]
  rw [if_neg (by simp [hs, hwin]), if_neg hcut', htarget]
  exact if_neg hfilled'

/-- A request that need not wait, at a port with nothing waiting, is served. -/
theorem does_arrive {i : Instr} {r : PortReq} {c : Dev → Bool}
    (hexec : ∀ s, exec i s = lift (fun d => d.when (c d) fun d => d.arrive r) s) (hc : c d = true)
    (hnone : d.port.waitReq = []) (hgo : d.mustWait r = false) (h : d.serveReq r = e) : Does i d e :=
  does_of hexec ((Dev.when_pos _ hc).trans ((Dev.arrive_now hnone hgo).trans h))

/-! ### Configuration requests (R308, R315) -/

/-- A configuration request to PF0 with a command of its own reaches it where no reset runs. -/
theorem does_cfgTo {i : Instr} {pf0 : Bool} {f : Dev → Dev} (hexec : ∀ s, exec i s = lift (fun d => d.cfgTo pf0 f) s)
    (hup : d.linkUp 8 = true) (hretry : d.port.retry = false) (hflr : pf0 = false ∨ d.port.flr = false) (h : f d = e) :
    Does i d e :=
  does_of hexec ((Dev.cfgTo_pos hup hretry hflr).trans h)

/-! ### Links (R311 to R314) -/

/-- A link that is up, with ASPM on in the substate asked for, enters L1 from L0. -/
theorem does_linkL1Idle {p : Fin 9} {sub : Fin 3}
    (hup : d.linkUp p = true) (hon : (d.port.aspm.getD (linkIdx p) (false, false, false)).1 = true)
    (hsub : sub.val = 0 ∧ (d.port.aspm.getD (linkIdx p) (false, false, false)).2.1 = false ∧
        (d.port.aspm.getD (linkIdx p) (false, false, false)).2.2 = false ∨
      sub.val = 1 ∧ (d.port.aspm.getD (linkIdx p) (false, false, false)).2.1 = true ∨
      sub.val = 2 ∧ (d.port.aspm.getD (linkIdx p) (false, false, false)).2.2 = true)
    (hidle : fieldN (d.port.lnk.getD (linkIdx p) 0) 10 2 = 0) : Does (.linkL1Idle p sub) d
      ((d.setLink p true (setFieldN (d.port.lnk.getD (linkIdx p) 0) 10 2 (sub + 1))).inc (pgPort p + 0x810)) := by
  refine does_of (exec_linkL1Idle p sub) (Dev.when_pos _ ?_)
  rw [hup, hon, hidle]
  obtain ⟨h0, h1, h2⟩ | ⟨h0, h1⟩ | ⟨h0, h1⟩ := hsub
  · rw [h0, h1, h2]; rfl
  · rw [h0, h1]; rfl
  · rw [h0, h1]; simp

end Sys2Proof.Machine

namespace Sys2Proof
open Machine

/-- Settles O13: a request meets no fault of its port and is served, or waits in a hold; a configuration request and a link
event find the state that they need. That requests to BAR0 wait in a hold as those to memory do is the model's choice (log entry
80), as are the clauses on MRRS, MPS, RRS and ACS (log entry 78) and on memory that is not filled (log entry 79). -/
theorem portCommandsComplete : Obligations.PortCommandsComplete := by
  unfold Obligations.PortCommandsComplete
  refine ⟨?_, ?_, ?_, ?_, ?_, ?_, ?_, ?_, ?_⟩
  · intro d bar2 wr off size data hup hnone
    refine ⟨fun hhold => ?_, fun hhold hflr hmse hrange hsize halign hs => ?_⟩
    · exact does_of (exec_bar0Request bar2 wr off size data) ((Dev.when_pos _ hup).trans (Dev.arrive_waits hnone hhold))
    · exact does_arrive (exec_bar0Request bar2 wr off size data) hup hnone hhold
        (Dev.bar0_pos hup hflr hmse hrange hsize halign hs)
  · intro d wr off size data poison hup hnone hhold hfree hflr hmse e a hs hfilled hrange hmem
    exact does_arrive (exec_bar4Request wr off size data poison) hup hnone (by simp [Dev.mustWait, hhold, hfree])
      (Dev.bar4_pos hup hflr hmse rfl hs hfilled hrange hmem)
  · intro d wr c hup
    refine ⟨does_of (exec_pf0UnsupportedRequest wr .vdm1) (Dev.when_pos _ hup),
      does_of (exec_pf0UnsupportedRequest wr .miss) (Dev.when_pos _ hup), fun r hr => ?_,
      does_of (exec_pf0UnsupportedRequest wr (.cfg c)) (Dev.when_pos _ hup)⟩
    simp only [List.mem_cons, List.not_mem_nil, or_false] at hr
    obtain rfl | rfl | rfl := hr
    · exact does_of (exec_pf0UnsupportedRequest wr .io) (Dev.when_pos _ hup)
    · exact does_of (exec_pf0UnsupportedRequest wr .locked) (Dev.when_pos _ hup)
    · exact does_of (exec_pf0UnsupportedRequest wr .atomic) (Dev.when_pos _ hup)
  · intro d k wr addr size data attr e hup hnone hgo hen
    have hserved {x : Dev} (h : d.accReq k wr addr size data attr = x) :
        Does (.acceleratorRequest k wr addr size data attr) d x :=
      does_arrive (exec_acceleratorRequest k wr addr size data attr) (by simp [hup, hen]) hnone hgo h
    constructor
    · intro hmiss
      exact hserved (Dev.accReq_miss hup rfl hmiss)
    · intro n a x hhit f hs hwin hcut htarget hfilled
      exact hserved ((Dev.accReq_hit hup rfl hhit).trans (Dev.claimed_pos rfl hs hwin hcut htarget hfilled))
  · intro d mse hup hretry
    refine ⟨does_of exec_flrComplete rfl, fun k bme win acs => ?_, fun hflr => ⟨?_, ?_, ?_⟩,
      fun log hflr hmse hge hle => ?_⟩
    · exact does_cfgTo (exec_apBusMasterWrite k bme win acs) hup hretry (.inl rfl) rfl
    · exact does_cfgTo exec_functionLevelReset hup hretry (.inr hflr) rfl
    · exact does_cfgTo (exec_busMasterClear mse) hup hretry (.inr hflr) rfl
    · exact does_cfgTo (exec_busMasterSet mse) hup hretry (.inr hflr) rfl
    · exact does_cfgTo (exec_bar4Resize log) hup hretry (.inr hflr) (Dev.when_pos _ (by simp [hmse, hge, hle]))
  · intro d
    exact ⟨fun hup => does_of exec_hepLinkDown (Dev.when_pos _ hup), fun k => does_of (exec_apLinkDown k) rfl⟩
  · intro d speed width mrrs mps flit aspm host hst
    refine ⟨fun htrains hdown => ?_, fun k htrains hretry hdown hen => ?_⟩
    · exact does_of (exec_hepLinkUp speed width flit mrrs mps host) (Dev.when_pos _ (by simp [hst, htrains, hdown]))
    · exact does_of (exec_apLinkUp k speed width flit aspm) (Dev.when_pos _ (by simp [hst, hretry, htrains, hdown, hen]))
  · intro d p sub w a hup hon hsub hidle
    exact does_linkL1Idle hup hon hsub hidle
  · intro d hst
    refine ⟨fun hn => ?_, fun hp => ?_⟩
    · exact does_of (exec_referenceClockLoss true) ((Dev.when_pos _ (by simp [hst, b2n, hn])).trans (if_pos rfl))
    · exact does_of (exec_referenceClockLoss false)
        ((Dev.when_pos _ (by simp [hst, b2n, hp])).trans (if_neg Bool.false_ne_true))

end Sys2Proof
end

