-- ==== Sys2Proof/Proofs/Power.lean ====
section
/-!
PROOF. Proofs/Power.lean: the rails, start-up and resets, faults of supply, temperature and clocks, and the management commands
of MCTP, SMBus and NOR; O14.
-/
namespace Sys2Proof.Machine

variable {d e : Dev}

/-! ### Power on and off, resets and safe state (R453, R454, R516 to R518) -/

/-- A command that acts under a condition does what it does where the condition holds. -/
theorem does_when {i : Instr} {c : Dev → Bool} {f : Dev → Dev} (hexec : ∀ s, exec i s = lift (fun d => d.when (c d) f) s)
    (hc : c d = true) (h : f d = e) : Does i d e :=
  does_of hexec ((Dev.when_pos _ hc).trans h)

/-- The word that leaves safe state (R454). -/
theorem Dev.safeCtl_pos (hok : d.warmOk = true) : d.safeCtl (0x1a5 : Word).toNat = d.warmExit := by
  have hkey : fieldN 0x1a5 0 8 = 0xa5 := by decide
  have hbit : bitN 0x1a5 8 = true := by decide
  rw [Dev.safeCtl, if_pos (by simp [hkey, hbit, hok])]

/-- The emergency stop of a device that is past its start-up enters safe state (R453). -/
theorem does_sbEstopAssert (hoff : d.pwr.estop = false) (hst : d.pwr.started = true)
    (he : ({ d with pwr := { d.pwr with estop := true } } : Dev).sb 0x5104 2 true = e) (hload : e.loadState ≠ 0) :
    Does .sbEstopAssert d (e.report pgERR none 0x0026 0x41 0 0) := by
  refine does_when exec_sbEstopAssert (by simp [hoff]) ?_
  have hst' : ¬ (!e.pwr.started) = true := not_eq_true_not (he ▸ hst)
  simp only [he]
  rw [if_neg hst', if_neg fun h => hload h.1]

/-! ### The supply, temperatures and clocks (R470, R471, R515, R517, R538) -/

theorem does_vinFault {mv : Nat} (ha : d.pwr.aon = true) (hv : 82000 < mv) : Does (.vinFault mv) d
    (({ d with pwr := { d.pwr with
        vinOk := false, vinUp := decide (58000 < mv)
        aon := decide (36000 ≤ mv) && decide (mv ≤ 100000) } } : Dev).powerFault 2 0) := by
  refine does_when (exec_vinFault mv) (by simp [ha, hv]) ?_
  dsimp only
  rw [if_neg (by omega)]

theorem does_vinRestored {mv : Nat} {cool : Bool} (hge : 36000 ≤ mv) (hle : mv ≤ 100000) (hoff : d.pwr.holdoff = false) :
    Does (.vinRestored mv cool) d
      (({ d with pwr := { d.pwr with
          aon := true, vinUp := d.pwr.vinUp || decide (58000 < mv)
          vinOk := decide (60000 ≤ mv) && decide (mv ≤ 80000) } } : Dev).powerUp false cool) :=
  does_when (exec_vinRestored mv cool) (by simp [hge, hle]) (if_neg (Bool.eq_false_iff.1 hoff))

/-- A temperature above its warning level, not yet warned of, is warned of. -/
theorem does_temperatureWarning {m : Sample} (hmain : d.pwr.main = true) (hnew : (d.heat m).b 0x1100 17 = false)
    (habove : tempAbove m 999 999 1149 = true) :
    Does (.temperatureWarning m) d ((((d.heat m).sb 0x1100 17 true).setErr pgPWR 2).inc 0x180c) :=
  does_when (exec_temperatureWarning m) hmain (if_pos (by rw [hnew, habove]; rfl))

/-- A PLL that loses lock: one of the cluster's, the fabric's or a memory's is contained, one of the dies only noted. -/
theorem does_pllUnlock {p : Fin 8} (hst : d.pwr.started = true) (hlock : d.b 0x2100 p = true) : Does (.pllUnlock p) d
    (if p.val < 6 then (d.sb 0x2100 p false).report pgCLK (some 2) 0x0034 0x41 p 0
     else (d.sb 0x2100 p false).setErr pgCLK 2) :=
  does_when (exec_pllUnlock p) (by rw [hst, hlock]; rfl) rfl

/-! ### Management commands (R460, R524 to R529) -/

/-- A management command of a device that runs, or is in safe state, is served. -/
theorem does_mctpRun {i : Instr} {cmd : Nat} {f : Dev → Dev} (hexec : ∀ s, exec i s = lift (fun d => d.mctpRun cmd f) s)
    (hmain : d.pwr.main = true) (hrun : d.fwRunning = true ∨ d.safe = true) (h : f d = e) : Does i d e :=
  does_of hexec ((Dev.mctpRun_pos cmd f hmain hrun).trans h)

/-- A command that writes NOR is served after a load that failed with code 7 (R529). -/
theorem does_norOpen {i : Instr} {cmd : Nat} {f : Dev → Dev} (hexec : ∀ s, exec i s = lift (fun d => d.norOpen cmd f) s)
    (hload : d.loadState = 5) (hcode : d.g 0x8110 8 8 = 7) (h : f d = e) : Does i d e :=
  does_of hexec ((if_pos ⟨hload, hcode⟩).trans h)

/-- A vendor command of no known number answers that it is unsupported. -/
theorem does_mctpUnsupported {cmd : Nat} (hcmd : cmd = 0 ∨ 7 < cmd) :
    Does (.mctpUnsupportedMessage true cmd) d (d.mctp cmd 5 []) :=
  does_of (exec_mctpUnsupportedMessage true cmd) (if_pos (by simpa using hcmd))

/-- A piece of 64 bytes of an image not yet complete is kept. -/
theorem does_norData {n : Nat} {l data : List Byte} (hload : d.loadState = 5) (hcode : d.g 0x8110 8 8 = 7)
    (hnor : d.sec.nor = some (n, l)) (hmore : l.length < n) (hlen : data.length = 64) : Does (.norData data) d
      (({ d with sec := { d.sec with nor := some (n, l ++ data) } } : Dev).mctp 6 0 []) := by
  refine does_norOpen (exec_norData data) hload hcode ?_
  simp only [hnor]
  exact if_neg (by omega)

/-- A complete image with an extension that passes its checks is taken, and the device starts anew. -/
theorem does_norEnd {n slot svn revoke : Nat} {l : List Byte} (hload : d.loadState = 5) (hcode : d.g 0x8110 8 8 = 7)
    (hnor : d.sec.nor = some (n, l)) (hall : n ≤ l.length)
    (hok : d.extOk { slot := slot, svn := svn, digest := shakeN (l.take n), revoke := revoke } true = true) :
    Does (.norEnd slot svn revoke true) d
      (let x : NorExt := { slot := slot, svn := svn, digest := shakeN (l.take n), revoke := revoke }
       let e : Dev := { d with sec := { d.sec with nor := none } }
       (((({ e with sec := { e.sec with ext := x } } : Dev).mctp 7 0 []).coreReset).tryStart 1 true)) := by
  refine does_norOpen (exec_norEnd slot svn revoke true) hload hcode ?_
  simp only [hnor]
  exact if_pos (by simp [hall, hok])

end Sys2Proof.Machine

namespace Sys2Proof
open Machine

/-- Settles O14: each signal, fault and management command finds the state that it acts in. The codes and the answers of the
MCTP control messages and of ARP are presumed from their standards (log entry 53). -/
theorem powerAndManagementComplete : Obligations.PowerAndManagementComplete := by
  unfold Obligations.PowerAndManagementComplete
  refine ⟨?_, ?_, ?_, ?_, ?_, ?_, ?_, ?_, ?_, ?_, ?_, ?_⟩
  · intro d soon cool hpw ha
    exact does_when (exec_sbPwrenAssert soon cool) (by simp [hpw, ha]) rfl
  · intro d cool hpw
    exact ⟨fun hoff => does_when (exec_sbPwrenHoldoffEnd cool) (by simp [hoff, hpw]) rfl,
      does_when exec_sbPwrenDeassert hpw rfl⟩
  · intro d ok
    exact ⟨fun hm hb => does_when (exec_railsInRegulation ok) (by simp [hm, hb]) rfl,
      fun hr => does_when exec_sbRstAssert (by simp [hr]) rfl,
      fun hr => does_when (exec_sbRstDeassert ok) hr rfl,
      fun hb hr => does_when (exec_hepFundamentalReset ok) (by simp [hb, hr]) rfl⟩
  · intro d
    refine ⟨fun hst hwarm hload hs => ?_, fun hwarm => ?_, fun hw hok => ?_, fun hoff hst hload => ?_, ?_⟩
    · exact does_when exec_zeroFillDone (by simp [hst, hwarm, hload, hs]) rfl
    · exact does_when exec_warmExitDone hwarm rfl
    · exact does_of (exec_safeCtlWrite 0x1a5) ((Dev.onReg_pos _ hw).trans (Dev.safeCtl_pos hok))
    · exact does_sbEstopAssert hoff hst rfl hload
    · exact does_of exec_sbEstopDeassert rfl
  · intro d mv cool
    refine ⟨fun hm hst hlow hhigh => ?_, fun ha hv => does_vinFault ha hv,
      fun hge hle hoff => does_vinRestored hge hle hoff⟩
    exact does_when (exec_vinRangeWarn mv) (by simp [hm, hst, hlow, hhigh]) rfl
  · intro d rail ovr hm
    exact ⟨does_when (exec_railFault rail ovr) hm rfl,
      fun hst => does_when (exec_senseOpen rail) (by simp [hm, hst]) rfl⟩
  · intro d
    exact ⟨fun ha => does_when (exec_faultValidClear true) ha rfl, fun hw => does_when (exec_faultValidClear false) hw rfl⟩
  · intro d m n
    exact ⟨does_temperatureWarning, fun hst ht => does_when (exec_thermalTrip n m) (by simp [hst, ht]) rfl,
      fun hm ht => does_when (exec_criticalTemperature m) (by simp [hm, ht]) rfl⟩
  · intro d p hst hlock
    exact does_pllUnlock hst hlock
  · intro d data code addr ha
    exact ⟨does_when (exec_mctpControlMessage 1 data) ha rfl, does_when (exec_mctpControlMessage 2 data) ha rfl,
      does_when (exec_smbusArp 4 addr) ha rfl, does_mctpUnsupported (.inl rfl), fun hcode => does_mctpUnsupported (.inr hcode),
      does_of exec_mctpGetStatus rfl⟩
  · intro d m n hm hrun
    refine ⟨does_mctpRun (exec_mctpGetSensors m) hm hrun rfl, fun hcap => ?_, fun hn => ?_⟩
    · exact does_setCap hm hrun (if_pos hcap)
    · exact does_mctpRun (exec_getErrors n) hm hrun (if_neg (Nat.not_le.2 hn))
  · intro d n l data slot svn revoke hload hcode x e
    exact ⟨does_norOpen (exec_norBegin n) hload hcode rfl, fun hnor hmore hlen => does_norData hload hcode hnor hmore hlen,
      fun hnor hall hok => does_norEnd hload hcode hnor hall hok⟩

end Sys2Proof
end

