-- ==== Sys2Proof/Proofs/Dumps.lean ====
section
/-!
PROOF. Proofs/Dumps.lean: the memory's scrubbing, retraining and bins, the trace buffers, dumps of tensors and attestation; O15.
-/
namespace Sys2Proof.Machine

variable {d e : Dev} {n : Fin 16} {cid : Nat} {c : Cmd}

/-! ### Scrubbing, retraining and bins (R206 to R217) -/

/-- A scrubber that may go on, once its link errors are met, does so, or its engine fails. -/
theorem does_scrubStep {links : Nat} {ecc : Fin 4} {go : Bool} (hready : d.siteReady n = true) (hs : d.safe = false)
    (hen : d.b (mpdOf n + 0x104) 0 = true) (hstarts : d.starts (mpdOf n) = true)
    (hfree : d.b (siteSts n) (16 + channelOf (256 * d.scrub.getD n 0)) = false) (hhold : d.tide.hold = false)
    (hlinks : d.linkErrors (addrOfSite d.fw.layout n (256 * d.scrub.getD n 0)) links = (go, e)) :
    Does (.scrubStep n links ecc) d
      (if ecc = 3 then d.engineFail (n / 4) else if !go then e
       else e.scrubRead n ecc (256 * d.scrub.getD n 0) (addrOfSite d.fw.layout n (256 * d.scrub.getD n 0))) := by
  refine does_of (exec_scrubStep n links ecc) ((Dev.when_pos _ ?_).trans ?_)
  · rw [hready, hs, hen, hstarts, hfree, hhold]; rfl
  · simp only [hlinks]

/-- The bins that are asked for change in slack; no site of theirs is dead. -/
theorem does_binChange {failed : List Nat} (hfw : d.fwRunning = true) (hs : d.safe = false) (hslack : d.slackNow = true)
    (hpend : ((List.range 4).filter fun m => d.b (pgMPD m + 0x100) 6) ≠ []) : Does (.binChange failed []) d
      ((d.each ((List.range 4).filter fun m => d.b (pgMPD m + 0x100) 6) fun m x => x.binChange m (failed.contains m)).sb 0x5128
        13 false) :=
  does_of (exec_binChange failed []) (Dev.when_pos _ (by simp [hfw, hs, hslack, List.isEmpty_eq_false_iff.2 hpend]))

/-- Retries of a link between dies that do not fail are counted and recorded. -/
theorem does_dieLinkRetry {link k : Nat} (hst : d.pwr.started = true) (hk : 0 < k) : Does (.dieLinkRetry link k false) d
    (({ d with dieRetries := (link, d.dieRetries.get (fun _ => 0) link + k) :: d.dieRetries.filter (·.1 ≠ link) } :
      Dev).report pgCNT none 0x0004 0x41 k 0) :=
  does_of (exec_dieLinkRetry link k false)
    ((Dev.when_pos _ hst).trans ((if_neg Bool.false_ne_true).trans (if_neg (by omega))))

/-- A margin found low while the voltage may rise raises it. -/
theorem does_marginPlanPeriod {mpd : Option (Fin 4)} {w m : Nat} (hfw : d.fwRunning = true) (hs : d.safe = false)
    (hcore : (d.core 33).running = true) (hv : d.g 0x5128 8 4 < 8) : Does (.marginPlanPeriod true mpd w m) d
      (d.s 0x5128 8 4 (d.g 0x5128 8 4 + 1)).replanned :=
  does_of (exec_marginPlanPeriod true mpd w m) ((Dev.when_pos _ (by simp [hfw, hs, hcore])).trans (if_pos hv))

/-! ### Dumps of tensors (R491, R493 to R497) -/

/-- A tensor of the driver, in its memory or in the harbour, is defined. -/
theorem does_dumpDefine (hcmd : d.cmd? 0 cid 0x0500 = some c) (hdriver : leAt c.param 2 1 = 255)
    (hge : 256 ≤ leAt c.param 16 4) (hle : leAt c.param 16 4 ≤ 2 ^ 26)
    (hin : inUserMem (leAt c.param 8 8) (leAt c.param 16 4) = true ∨
      inHarbour (leAt c.param 8 8) (leAt c.param 16 4) = true) :
    Does (.dumpDefine cid) d
      ((d.defTensor (leAt c.param 0 2)
        { cove := none, addr := leAt c.param 8 8, len := leAt c.param 16 4, fmt := leAt c.param 3 1 }).complete 0 cid 0 0) := by
  refine does_admin (exec_dumpDefine cid) hcmd ?_
  dsimp only
  rw [hdriver, if_neg (by omega), if_pos rfl, if_neg (not_eq_true_not (by simpa using hin))]
  rfl

/-- DUMP_ARM of a tensor that is defined, and in whose arm nothing stands against it, arms it. -/
theorem does_dumpArm {x : Tensor} (hcmd : d.cmd? 0 cid 0x0501 = some c) (harm : c.arm = true) (hn : leAt c.param 4 2 ≠ 0)
    (hx : d.tensor? (leAt c.param 0 2) = some x) (hok : d.armRefused x = false) : Does (.dumpArm cid) d
      ((d.hold c).armDump { tensor := leAt c.param 0 2, cid := some cid, tide := c.tide, every := leAt c.param 2 2,
                            count := leAt c.param 4 2 }) := by
  refine does_admin (exec_dumpArm cid) hcmd ?_
  dsimp only
  rw [if_neg (by simp [harm, hn]), hx]
  exact if_neg (Bool.eq_false_iff.1 hok)

/-- DUMP_RING with nothing armed or being copied places the headers and the slots. -/
theorem does_dumpRing {hb h sb sl n : Nat} (hcmd : d.cmd? 0 cid 0x0503 = some c) (hhb : leAt c.param 0 8 = hb)
    (hh : leAt c.param 8 1 = h) (hsb : leAt c.param 16 8 = sb) (hsl : leAt c.param 24 1 = sl) (hn : leAt c.param 26 2 = n)
    (harms : d.trc.arms = []) (hcopies : d.trc.copies = [])
    (hranges : (6 ≤ h ∧ h ≤ 16) ∧ (12 ≤ sl ∧ sl ≤ 26) ∧ 0 < n ∧ n ≤ 4096 ∧ n ≤ 2 ^ h)
    (halign : hb % 256 = 0 ∧ sb % 256 = 0) (hphdr : d.placed hb (64 * 2 ^ h) = true)
    (hpslot : d.placed sb (n * 2 ^ sl) = true) : Does (.dumpRing cid) d
      ((({ d with trc := { d.trc with
          ring := some (hb, h, sb, sl, n), phase := true, nextHdr := 0, nextSlot := 0, taken := [] } } : Dev).wr
        (pgTRC + 0x144) 0).complete 0 cid 0 0) := by
  refine does_admin (exec_dumpRing cid) hcmd ?_
  subst hhb hh hsb hsl hn
  dsimp only
  rw [if_neg (by simp [harms, hcopies]), if_neg (by omega), if_neg (by simp [halign, hphdr, hpslot])]

/-- A dump whose bytes are copied is over. -/
theorem does_dumpCopyDone {k hb h sb sl n : Nat} {x : DumpCopy} (hx : d.trc.copies[k]? = some x)
    (hring : d.trc.ring = some (hb, h, sb, sl, n)) (hs : d.safe = false) : Does (.dumpCopyDone k) d
      (({ d with trc := { d.trc with copies := d.trc.copies.eraseIdx k } } : Dev).dumpDone x (sb + x.slot * 2 ^ sl)) := by
  refine does_of (exec_dumpCopyDone k) ?_
  simp only [hx, hring]
  exact if_neg (Bool.eq_false_iff.1 hs)

/-! ### Attestation (R473, R476 to R479) -/

/-- A command of attestation does what its row says while SEC's core runs. -/
theorem does_secCmd {i : Instr} {q opc : Nat} {f : Cmd → Dev → Dev}
    (hexec : ∀ s, exec i s = lift (fun d => d.secCmd q cid opc f) s) (hcmd : d.cmd? q cid opc = some c)
    (hsec : d.secDown = false) (h : f c d = e) : Does i d e := by
  refine does_of hexec ?_
  rw [Dev.secCmd, hcmd]
  exact (if_neg (Bool.eq_false_iff.1 hsec)).trans h

/-- A leaf within those reserved may be used (R478). -/
theorem Dev.leafReserve_within (ok : Bool) (h : d.sec.leaf < d.sec.resvEnd) : d.leafReserve ok = (true, d) := if_pos h

/-- ATT_REPORT of the driver whose turn it is, with a leaf reserved, samples the report. -/
theorem does_attReport {q : Fin 256} (hcmd : d.cmd? q cid 0x0400 = some c) (hsec : d.secDown = false)
    (hturn : d.reportTurn c = true) (hdriver : d.cmdCove c = none) (hlen : 10149 ≤ c.buflen)
    (hbuf : d.bufOk c true 10149 = true) (hall : leAt c.param 32 1 = 255) (hmax : d.sec.leaf < 2 ^ 40)
    (hleaf : d.sec.leaf < d.sec.resvEnd) : Does (.attReport q cid true) d (d.sampleReport q cid 255 c) := by
  refine does_secCmd (exec_attReport q cid true) hcmd hsec ((Dev.when_pos _ hturn).trans ?_)
  simp only [hdriver, hall, Bool.false_eq_true, if_false]
  rw [if_neg (Nat.not_lt.2 hlen), if_neg (not_eq_true_not hbuf), if_neg (by omega), if_neg (Nat.not_le.2 hmax)]
  simp only [Dev.leafReserve_within true hleaf, Bool.not_true, Bool.false_eq_true, if_false]

/-- The report that is first is signed for the command that asked for it. -/
theorem does_attReportSigned {q buf leaf : Nat} {l : List Byte} {r : List (Nat × Nat × Nat × List Byte × Nat)}
    (hr : d.sec.reports = (q, cid, buf, l, leaf) :: r) (hs : d.safe = false)
    (hfind : (d.fw.fetched.find? fun x => x.pair == q && x.cid == cid && x.opc == 0x0400) = some c) : Does .attReportSigned d
      (({ d with sec := { d.sec with reports := r } } : Dev).signReport q cid buf leaf l c) := by
  refine does_of exec_attReportSigned ?_
  simp only [hr, hfind]
  exact if_neg (Bool.eq_false_iff.1 hs)

/-- ATT_MEASURE_WEIGHTS of whole granules of the weights' pool, with none under way, is held until it is done. -/
theorem does_attMeasureWeights (hcmd : d.cmd? 0 cid 0x0402 = some c) (hsec : d.secDown = false) (hnone : d.sec.meas = none)
    (halign : leAt c.param 0 8 % 65536 = 0) (hmax : leAt c.param 0 8 ≤ d.fw.layout.wSize / 16) (hlen : 32 ≤ c.buflen)
    (hbuf : d.bufOk c true 32 = true) : Does (.attMeasureWeights cid) d
      (({ d.hold c with sec := { d.sec with meas := some (cid, leAt c.param 0 8, false) } } : Dev).sb (pgSEC + 0x118) 0
        true) := by
  refine does_secCmd (exec_attMeasureWeights cid) hcmd hsec ?_
  dsimp only
  rw [if_neg (by simp [hnone]), if_neg (by omega), if_neg (not_eq_true_not hbuf)]

/-- A measurement that no write raced and that read no poison is recorded. -/
theorem does_weightMeasureDone {len w : Nat} (hmeas : d.sec.meas = some (cid, len, false)) (hs : d.safe = false)
    (hread :
      (({ d with sec := { d.sec with meas := none } } : Dev).sb (pgSEC + 0x118) 0 false).weightHash len = (w, false, e)) :
    Does .weightMeasureDone d (e.weightsMeasured cid len w) := by
  refine does_of exec_weightMeasureDone ?_
  simp only [hmeas]
  rw [if_neg (Bool.eq_false_iff.1 hs), hread]
  rfl

end Sys2Proof.Machine

namespace Sys2Proof
open Machine

/-- Settles O15: each event and command meets what it needs of the memory, of the trace unit or of SEC. That a channel's
retraining that ends is recorded as LINK_RETRY with 3 is deduced, not a rule (log entry 47). -/
theorem memoryTraceAndAttestationComplete : Obligations.MemoryTraceAndAttestationComplete := by
  unfold Obligations.MemoryTraceAndAttestationComplete
  refine ⟨?_, ?_, ?_, ?_, ?_, ?_, ?_, ?_, ?_, ?_, ?_, ?_, ?_, ?_, ?_, ?_, ?_, ?_, ?_⟩
  · intro d e n links ecc o a hready hs hen hstarts hfree hhold
    refine ⟨fun hecc hlinks => ?_, ?_⟩
    · have h := does_scrubStep (ecc := ecc) hready hs hen hstarts hfree hhold hlinks
      rwa [if_neg hecc, Bool.not_true, if_neg Bool.false_ne_true] at h
    · have h := does_scrubStep (ecc := 3) hready hs hen hstarts hfree hhold (show d.linkErrors a links = (_, _) from rfl)
      rwa [if_pos rfl] at h
  · intro d n c hb
    refine ⟨does_of (exec_channelRetrainDone n c) (Dev.when_pos _ hb), fun hagain => ?_, fun hfirst => ?_⟩
    · exact does_of (exec_retrainTimeout n c) ((Dev.when_pos _ hb).trans (if_pos hagain))
    · exact does_of (exec_retrainTimeout n c)
        ((Dev.when_pos _ hb).trans (if_neg (Bool.eq_false_iff.1 hfirst)))
  · intro d n hot hready
    exact ⟨does_of (exec_siteStopsAnswering n) (Dev.when_pos _ hready),
      does_of (exec_siteTemperatureChange n hot) (Dev.when_pos _ hready)⟩
  · intro d m v
    exact ⟨fun hw => does_of (exec_binReqWrite m v) (Dev.onReg_pos _ hw),
      fun hw => does_of (exec_errInjArm m v) (Dev.onReg_pos _ hw)⟩
  · intro d failed pend hfw hs hslack hpend
    exact does_binChange hfw hs hslack hpend
  · intro d link n hst hn
    exact does_dieLinkRetry hst hn
  · intro d mpd w m hfw hs hcore hv
    exact does_marginPlanPeriod hfw hs hcore hv
  · intro d v
    exact ⟨fun hw => ⟨does_of (exec_tbCtlEnWrite v) (Dev.onReg_pos _ hw), does_of exec_tbSwtrig (Dev.onReg_pos _ hw)⟩,
      fun hw => does_of (exec_dmpTailWrite v) (Dev.onReg_pos _ hw)⟩
  · intro d cid c hcmd a n hdriver hge hle hin
    exact does_dumpDefine hcmd hdriver hge hle hin
  · intro d cid c x hcmd harm hn hx hok
    exact does_dumpArm hcmd harm hn hx hok
  · intro d cid c hcmd
    exact does_admin (exec_dumpCancel cid) hcmd rfl
  · intro d cid c hcmd hb h sb sl n harms hcopies h6 h16 hs12 hs26 hn0 hn4096 hnh hhb hsb hphdr hpslot
    exact does_dumpRing hcmd rfl rfl rfl rfl rfl harms hcopies
      ⟨⟨h6, h16⟩, ⟨hs12, hs26⟩, hn0, hn4096, hnh⟩ ⟨hhb, hsb⟩ hphdr
      hpslot
  · intro d k hb h sb sl n c hx hring hs
    exact does_dumpCopyDone hx hring hs
  · intro d q cid c hcmd hsec hturn hdriver hlen hbuf hall hmax hleaf
    exact does_attReport hcmd hsec hturn hdriver hlen hbuf hall hmax hleaf
  · intro d q cid buf leaf l r c hr hs hfind
    exact does_attReportSigned hr hs hfind
  · intro d q cid c hcmd hsec
    exact does_secCmd (exec_attGetCert q cid) hcmd hsec rfl
  · intro d cid c hcmd hsec hnone halign hmax hlen hbuf
    exact does_attMeasureWeights hcmd hsec hnone halign hmax hlen hbuf
  · intro d e cid len w hmeas hs hread
    exact does_weightMeasureDone hmeas hs hread
  · intro d cid c hcmd hsec hnone
    refine does_secCmd (exec_attSvnCommit cid true) hcmd hsec ?_
    rw [if_neg (by simp [hnone]), Bool.not_true, if_neg Bool.false_ne_true]

end Sys2Proof
end

