-- ==== Sys2Proof/Proofs/Recovery.lean ====
section
/-!
PROOF. Proofs/Recovery.lean: global stop, members excluded and included, the buddy ring, the ebb, and the ring of error records;
O16.
-/
namespace Sys2Proof.Machine

variable {d e : Dev} {cid src dev : Nat} {t : DWord}

/-! ### Commands of the headland's driver (R431 to R433, R456, R459, R462) -/

/-- A command for the headland, fetched at the headland, does what its row says. -/
theorem does_headCmd {i : Instr} {opc : Nat} {c : Cmd} {f : Cmd → Dev → Dev}
    (hexec : ∀ s, exec i s = lift (fun d => d.headCmd cid opc f) s) (hcmd : d.cmd? 0 cid opc = some c) (hh : d.isHead = true)
    (h : f c d = e) : Does i d e :=
  does_of hexec ((Laws.headCmd_pos f hcmd hh).trans h)

/-- GSTOP_RELEASE of a device that is cut and whose stop is over releases the workers and itself. -/
theorem does_gstopRelease {c : Cmd} (hcmd : d.cmd? 0 cid 0x0301 = some c) (hh : d.isHead = true)
    (hover : d.err.gstopCid = none) (hstate : d.g 0x5120 0 2 = 3) (hcut : d.slack.cut = true) : Does (.gstopRelease cid) d
      ((d.each d.workers fun w x => x.sendCtl w { ctype := 12, tide := x.tide.cur }).uncut.complete 0 cid 0 0) := by
  refine does_headCmd (exec_gstopRelease cid) hcmd hh ?_
  dsimp only
  rw [if_neg (by simp [hover, hstate]), if_pos hcut]

/-- BUDDY_RING of a ring that is well formed and that this device may take offers it to the others. -/
theorem does_buddyRing {c : Cmd} {l : List Byte} (hcmd : d.cmd? 0 cid 0x0013 = some c) (hh : d.isHead = true)
    (harm : c.arm = true ∨ d.slackNow = true) (hlen : c.buflen % 8 = 0) (hnone : d.ckp.newRing = none)
    (hbuf : d.bufOk c false c.buflen = true) (hread : d.memRead pgFWR 0x40 c.buf c.buflen = (l, false, e))
    (hring : ringBad (ringEntries l c.buflen) = false)
    (hok : e.offerOk (ringOffer (ringEntries l c.buflen) e.tide.dev) = true) :
    Does (.buddyRing cid) d (e.offerRing cid c (ringEntries l c.buflen)) := by
  refine does_headCmd (exec_buddyRing cid) hcmd hh ?_
  have harm' : ¬ (!c.arm && !d.slackNow) = true := by obtain h | h := harm <;> simp [h]
  rw [if_neg harm', if_neg (by simp [hlen, hnone]), if_neg (not_eq_true_not hbuf)]
  simp only [hread, hring, hok, Bool.or_self, Bool.not_true, Bool.false_eq_true, if_false]

/-! ### Messages of the headland at a worker -/

/-- GSTOP_ARM arms the stop and is acknowledged. -/
theorem does_gstopArmMsg (hemh : d.emhOn = true) (hfw : d.fwRunning = true) (hw : d.isWorker = true) :
    Does (.gstopArmMsg d.tide.headDev t) d
      (((d.taking d.tide.headDev { ctype := 9, tide := t }).armStop t).sendCtl d.tide.headDev
        { ctype := 10, dev := d.tide.dev, tide := t }) :=
  does_fromHead (exec_gstopArmMsg d.tide.headDev t) hemh hfw hw (Dev.when_pos _ ((Laws.taking_isWorker ..).trans hw))

/-- MEMBER_EXCLUDE is kept until its tide, or acted on where its tide is past. -/
theorem does_memberExcludeMsg (hemh : d.emhOn = true) (hfw : d.fwRunning = true) (hw : d.isWorker = true) :
    Does (.memberExcludeMsg d.tide.headDev dev t) d
      (let x := d.taking d.tide.headDev { ctype := 13, dev := dev, tide := t }
       (if d.tide.cur < t then { x with tide := { x.tide with excluding := x.tide.excluding ++ [(dev, t)] } }
        else if dev = d.tide.dev then x.dropAssignment else x.excludePeer dev).sendCtl d.tide.headDev
          { ctype := 15, dev := d.tide.dev, arg := 13, tide := t }) :=
  does_fromHead (exec_memberExcludeMsg d.tide.headDev dev t) hemh hfw hw
    (Dev.when_pos _ ((Laws.taking_isWorker ..).trans hw))

/-- MEMBER_INCLUDE of another, or of this device in slack, is kept until its tide. -/
theorem does_memberIncludeMsg (hemh : d.emhOn = true) (hfw : d.fwRunning = true) (hw : d.isWorker = true)
    (hin : dev ≠ d.tide.dev ∨ d.slackNow = true) : Does (.memberIncludeMsg d.tide.headDev dev t) d
      (let x := d.taking d.tide.headDev { ctype := 14, dev := dev, tide := t }
       ({ x with tide := { x.tide with including := x.tide.including ++ [(dev, t)] } } : Dev).sendCtl d.tide.headDev
         { ctype := 15, dev := d.tide.dev, arg := 14, tide := t }) := by
  refine does_fromHead (exec_memberIncludeMsg d.tide.headDev dev t) hemh hfw hw (Dev.when_pos _ ?_)
  rw [Laws.taking_isWorker, Laws.taking_slackNow, Laws.taking_tide, hw, Bool.true_and]
  obtain h | h := hin <;> simp [h]

/-- An offer of the ring that this worker may take is taken. -/
theorem does_buddyOfferMsg {m : Ctl} (hemh : d.emhOn = true) (hfw : d.fwRunning = true) (hw : d.isWorker = true)
    (hm : m.ctype = 5) (hok : d.offerOk m = true) : Does (.buddyOfferMsg d.tide.headDev m) d
      (((d.taking d.tide.headDev m).takeOffer m).sendCtl d.tide.headDev
        { ctype := 6, dev := d.tide.dev, refuse := false }) := by
  have hok' : (d.taking d.tide.headDev m).offerOk m = true := hok
  refine does_of (exec_buddyOfferMsg d.tide.headDev m) ((if_neg (not_not_intro hm)).trans ?_)
  rw [Laws.ctlIn_pos hemh hfw (Laws.conf_of_worker hw) (.inr rfl), Dev.when_pos _ ((Laws.taking_isWorker ..).trans hw)]
  simp only [hok', if_true, Bool.not_true, Laws.taking_tide]

/-- The tide at which the offer taken is applied is kept. -/
theorem does_buddyArmMsg {m : Ctl} (hemh : d.emhOn = true) (hfw : d.fwRunning = true) (hw : d.isWorker = true)
    (hoffer : d.ckp.offer = some m) (ht : t ≠ 0) : Does (.buddyArmMsg d.tide.headDev t) d
      (let x := d.taking d.tide.headDev { ctype := 7, tide := t }
       ({ x with ckp := { x.ckp with offerAt := some t } } : Dev).sendCtl d.tide.headDev
         { ctype := 8, dev := d.tide.dev, tide := t }) := by
  have hoffer' : (d.taking d.tide.headDev { ctype := 7, tide := t }).ckp.offer = some m := hoffer
  refine does_fromHead (exec_buddyArmMsg d.tide.headDev t) hemh hfw hw
    ((Dev.when_pos _ ((Laws.taking_isWorker ..).trans hw)).trans ?_)
  simp only [hoffer', if_neg ht, Laws.taking_tide]

/-! ### Answers at the headland -/

/-- A control message of any member, delivered at the headland, does what its row says. -/
theorem does_toHead {i : Instr} {m : Ctl} {f : Dev → Dev}
    (hexec : ∀ s, exec i s = lift (fun x => x.ctlIn src m false f) s) (hemh : d.emhOn = true) (hfw : d.fwRunning = true)
    (hh : d.isHead = true) (he : f (d.taking src m) = e) : Does i d e :=
  does_of hexec ((Laws.ctlIn_pos hemh hfw (Laws.conf_of_head hh) (.inl rfl)).trans he)

/-- The report of a cut that is awaited, of the stop's tide, is taken. -/
theorem does_cutReportMsg {inexact : Bool} (hemh : d.emhOn = true) (hfw : d.fwRunning = true) (hh : d.isHead = true)
    (hwait : src ∈ d.err.cutWait) (ht : d.err.gstopTide = some t) : Does (.cutReportMsg src inexact t) d
      (let x := d.taking src { ctype := 11, inexact := inexact, dev := src, tide := t }
       ({ x with err := { x.err with
           cutWait := x.err.cutWait.erase src, cutInexact := x.err.cutInexact || inexact } } : Dev).gstopCheck) := by
  refine does_toHead (exec_cutReportMsg src inexact t) hemh hfw hh (Dev.when_pos _ ?_)
  have hwait' : d.err.cutWait.contains src = true := List.contains_iff_mem.2 hwait
  have htide : (d.err.gstopTide == some t) = true := by rw [ht]; exact beq_self_eq_true _
  rw [Laws.taking_isHead, hh]
  exact Bool.and_eq_true_iff.2 ⟨hwait', htide⟩

/-- An answer to the offer of a ring: the last one that agrees arms the ring, a refusal ends the command. -/
theorem does_buddyReplyMsg_last {o : CtlOp} (hemh : d.emhOn = true) (hfw : d.fwRunning = true) (hh : d.isHead = true)
    (hop : (d.tide.ctlOps.find? fun o => o.req == 5 && o.waiting.contains src) = some o) (hlast : o.waiting = [src]) :
    Does (.buddyReplyMsg src false) d
      (((d.taking src { ctype := 6, dev := src, refuse := false }).answered src fun x => x.req == 5).ringArm) := by
  refine does_toHead (exec_buddyReplyMsg src false) hemh hfw hh ?_
  simp only [Laws.taking_tide, hop]
  rw [if_neg Bool.false_ne_true, if_pos hlast]

theorem does_buddyReplyMsg_refused {o : CtlOp} (hemh : d.emhOn = true) (hfw : d.fwRunning = true) (hh : d.isHead = true)
    (hop : (d.tide.ctlOps.find? fun o => o.req == 5 && o.waiting.contains src) = some o) :
    Does (.buddyReplyMsg src true) d ((d.taking src { ctype := 6, dev := src, refuse := true }).ringRefused o.cid src) := by
  refine does_toHead (exec_buddyReplyMsg src true) hemh hfw hh ?_
  simp only [Laws.taking_tide, hop]
  exact if_pos trivial

/-- The last acknowledgement of a ring whose offer has been applied ends the command. -/
theorem does_buddyAckMsg {o : CtlOp} (hemh : d.emhOn = true) (hfw : d.fwRunning = true) (hh : d.isHead = true)
    (hop : (d.tide.ctlOps.find? fun o => o.req == 7 && o.tide == t && o.waiting.contains src) = some o)
    (hlast : o.waiting = [src]) (hdone : d.ckp.offerAt = none) : Does (.buddyAckMsg src t) d
      (((d.taking src { ctype := 8, dev := src, tide := t }).answered src fun x => x.req == 7 && x.tide == t).ringDone
        o.cid) := by
  refine does_toHead (exec_buddyAckMsg src t) hemh hfw hh ?_
  simp only [Laws.taking_tide, hop]
  exact if_pos ⟨hlast, Option.isNone_iff_eq_none.2 hdone⟩

/-! ### The ebb (R457, R458) -/

/-- An ebb that has not ended when its time is over is recorded, and the cut is made. Which bits of the record's mask are set is
free (log entry 56). -/
theorem does_ebbTimeout (hstate : d.g 0x5120 0 2 = 2) (hfw : d.fwRunning = true) (hs : d.safe = false)
    (hopen : d.reqsOpen = true ∨ d.rxOpen = true ∨ d.dmaOpen = true) : Does .ebbTimeout d
      ((((d.freeWord).2.sb 0x5120 2 true).report pgERR none 0x0015 0x41 (d.freeWord).1.toNat 0).cut) := by
  refine does_of exec_ebbTimeout (Dev.when_pos _ ?_)
  have hopen' : (d.reqsOpen || d.rxOpen || d.dmaOpen) = true := by simpa [or_assoc] using hopen
  rw [hstate, hfw, hs, hopen']
  rfl

end Sys2Proof.Machine

namespace Sys2Proof
open Machine

/-- Settles O16: each command and message finds the headland, or a worker, in the state that it acts in. -/
theorem recoveryCommandsComplete : Obligations.RecoveryCommandsComplete := by
  unfold Obligations.RecoveryCommandsComplete
  refine ⟨?_, ?_, ?_, ?_, ?_⟩
  · intro d cid c hh
    refine ⟨fun hcmd harm hfree => ?_, fun hcmd hover hstate hcut => ?_, fun hcmd hdev => ?_, fun hcmd harm hdev hnew => ?_,
      fun l e hcmd harm hlen hnone hbuf hread hring hok => ?_⟩
    · refine does_headCmd (exec_gstop cid) hcmd hh ?_
      rw [if_neg (not_eq_true_not harm), if_neg (Bool.eq_false_iff.1 hfree)]
    · exact does_gstopRelease hcmd hh hover hstate hcut
    · exact does_headCmd (exec_memberExclude cid) hcmd hh (if_neg (not_eq_true_not (List.contains_iff_mem.2 hdev)))
    · refine does_headCmd (exec_memberInclude cid) hcmd hh ?_
      dsimp only
      rw [if_neg (not_eq_true_not harm), if_neg (by rw [hnew, List.contains_iff_mem.2 hdev]; exact Bool.false_ne_true)]
    · exact does_buddyRing hcmd hh harm hlen hnone hbuf hread hring hok
  · intro d t dev h hemh hfw hw
    refine ⟨does_gstopArmMsg hemh hfw hw, fun hcut => ?_, does_memberExcludeMsg hemh hfw hw,
      fun hin => does_memberIncludeMsg hemh hfw hw hin, fun m hm hok => does_buddyOfferMsg hemh hfw hw hm hok,
      fun m hoffer ht => does_buddyArmMsg hemh hfw hw hoffer ht⟩
    exact does_fromHead (exec_gstopReleaseMsg d.tide.headDev t) hemh hfw hw (Dev.when_pos _ hcut)
  · intro d src arg t o hemh hfw hh
    refine ⟨?_, fun inexact hwait ht => does_cutReportMsg hemh hfw hh hwait ht, ?_, fun hop => ⟨fun hlast => ?_, ?_⟩,
      fun hop hlast hdone => does_buddyAckMsg hemh hfw hh hop hlast hdone⟩
    · exact does_toHead (exec_gstopAckMsg src t) hemh hfw hh rfl
    · exact does_toHead (exec_memberAckMsg src arg t) hemh hfw hh rfl
    · exact does_buddyReplyMsg_last hemh hfw hh hop hlast
    · exact does_buddyReplyMsg_refused hemh hfw hh hop
  · intro d hstate hfw hs
    refine ⟨fun hreq hrx hdma => ?_, fun hopen => does_ebbTimeout hstate hfw hs hopen⟩
    exact does_of exec_ebbComplete (Dev.when_pos _ (by simp [hstate, hfw, hs, hreq, hrx, hdma]))
  · intro d v
    exact ⟨fun hw => does_of exec_errResume (Dev.onReg_pos _ hw),
      fun hw => does_of (exec_recTailWrite v) (Dev.onReg_pos _ hw)⟩

end Sys2Proof
end

