-- ==== Sys2Proof/Proofs/Coves.lean ====
section
/-!
PROOF. Proofs/Coves.lean: coves made, changed, frozen, saved and restored, and snapshots armed, copied and restored; O17.
-/
namespace Sys2Proof.Machine

variable {d e : Dev} {cid n : Nat} {c : Cmd} {g : CoveCfg}

/-! ### Coves made and resized (R320 to R323, R332) -/

/-- The mode of coves changes while none is in use. -/
theorem Dev.coveMode_pos {fixed : Bool} (h : (d.coves.any fun c => c.2.state ≠ 0) = false) :
    d.coveMode fixed = d.sb (pgCOV + 0x100) 0 fixed := by
  rw [Dev.coveMode, if_neg (Bool.eq_false_iff.1 h)]

/-- COVE_CREATE of a cove that is free, with a configuration that is free too, makes it. -/
theorem does_coveCreate (hcmd : d.cmd? 0 cid 0x0100 = some c) (hcfg : d.cfgOf c = (.inr (n, g), e))
    (hranges : e.rangesOk n g = true) (hfree : (e.cove n).state = 0)
    (hpasid : (e.coves.any fun k => k.2.state ≠ 0 && k.2.cfg.pasid == g.pasid) = false)
    (hmode : e.b (pgCOV + 0x100) 0 = true ∨ e.feature 1 = true) (htaken : e.taken n {} g = false) :
    Does (.coveCreate cid) d ((e.createCove n g).complete 0 cid 0 0) := by
  refine does_admin (exec_coveCreate cid) hcmd ?_
  have hmode' : ¬ (!e.b (pgCOV + 0x100) 0 && !e.feature 1) = true := by obtain h | h := hmode <;> simp [h]
  simp only [hcfg]
  rw [if_neg (by rw [hpasid, hfree]; exact Bool.false_ne_true), if_neg hmode', if_neg (Bool.eq_false_iff.1 htaken),
    if_neg (not_eq_true_not hranges)]

/-- COVE_RESIZE of an active or frozen cove, to what is free and keeps what is in use, begins. -/
theorem does_coveResize (hcmd : d.cmd? 0 cid 0x0102 = some c) (hcfg : d.cfgOf c = (.inr (n, g), e))
    (hranges : e.rangesOk n g = true) (hstate : (e.cove n).state = 1 ∨ (e.cove n).state = 3)
    (hmode : e.b (pgCOV + 0x100) 0 = false) (hpasid : g.pasid = (e.cove n).cfg.pasid)
    (harm : c.arm = true ∨ e.slackNow = true) (hnone : (e.cove n).resize = none)
    (htaken : e.taken n (e.cove n).cfg g = false) (huse : e.inUse n (e.cove n).cfg g = false) :
    Does (.coveResize cid) d (e.beginResize n cid c g) := by
  refine does_admin (exec_coveResize cid) hcmd ?_
  have harm' : ¬ (!c.arm && !e.slackNow) = true := by obtain h | h := harm <;> simp [h]
  have hused : (e.cove n).state ≠ 0 := by omega
  have hstate' : ¬ ((e.cove n).state ≠ 1 && (e.cove n).state ≠ 3) = true := by
    obtain h | h := hstate <;> simp [h]
  simp only [hcfg]
  rw [if_neg hused, if_neg hstate', if_neg (Bool.eq_false_iff.1 hmode), if_neg (not_not_intro hpasid),
    if_neg harm', if_neg (by rw [hnone, htaken, huse]; exact Bool.false_ne_true), if_neg (not_eq_true_not hranges)]

/-- A resize whose work is over gives up the engines that are the cove's no more. -/
theorem does_coveResizeComplete {n : Fin 64} {t : Option DWord} {old : CoveCfg} (hfw : d.fwRunning = true)
    (hs : d.safe = false) (hresize : (d.cove n).resize = some (cid, t, old)) (hdone : (d.cove n).resizeDone = true)
    (hidle : d.resizeBusy n = false) : Does (.coveResizeComplete n) d
      (((d.setOwner ((d.enginesGone n old).foldl (fun m i => m + 2 ^ i) 0) none).setCove n
        { d.cove n with resize := none, resizeDone := false, resizeWork := [] }).complete 0 cid 0 0) := by
  refine does_of (exec_coveResizeComplete n) ?_
  simp only [hresize]
  exact Dev.when_pos _ (by simp [hfw, hs, hdone, hidle])

/-! ### Commands on a cove (R324 to R339) -/

/-- A command that names a cove in a state of its row does what the row says. -/
theorem does_coveCmd {i : Instr} {opc : Nat} {states : List Nat} {f : Nat → Cmd → Dev → Dev}
    (hexec : ∀ s, exec i s = lift (fun d => d.coveCmd cid opc states f) s) (hcmd : d.cmd? 0 cid opc = some c)
    (hn : leAt c.param 0 1 = n) (hle : n ≤ 63) (hstate : (d.cove n).state ∈ states) (h0 : 0 ∉ states) (h : f n c d = e) :
    Does i d e := by
  refine does_admin hexec hcmd ?_
  have hused : (d.cove n).state ≠ 0 := fun hz => h0 (hz ▸ hstate)
  dsimp only
  rw [hn, if_neg (Nat.not_lt.2 hle), if_neg hused, if_neg (not_eq_true_not (List.contains_iff_mem.2 hstate)), h]

/-- COVE_FREEZE freezes the cove at once, or at the tide of an armed command. -/
theorem does_coveFreeze (hcmd : d.cmd? 0 cid 0x0104 = some c) (hn : leAt c.param 0 1 = n) (hle : n ≤ 63)
    (hstate : (d.cove n).state = 1) (harm : c.arm = false) :
    Does (.coveFreeze cid) d ((d.hold c).coveFreeze n cid) :=
  does_coveCmd (exec_coveFreeze cid) hcmd hn hle (by simp [hstate]) (by decide)
    (if_neg (Bool.eq_false_iff.1 harm))

theorem does_coveFreeze_armed (hcmd : d.cmd? 0 cid 0x0104 = some c) (hn : leAt c.param 0 1 = n) (hle : n ≤ 63)
    (hstate : (d.cove n).state = 1) (harm : c.arm = true) (hnone : (d.cove n).freezeAt = none) : Does (.coveFreeze cid) d
      ((d.hold c).setCove n { d.cove n with freezeAt := some (cid, c.tide) }) :=
  does_coveCmd (exec_coveFreeze cid) hcmd hn hle (by simp [hstate]) (by decide)
    ((if_pos harm).trans (if_neg (by simp [hnone])))

/-- A freeze whose cove has come to rest completes. -/
theorem does_coveFreezeComplete {n : Fin 64} (hfw : d.fwRunning = true) (hs : d.safe = false) (hstate : (d.cove n).state = 2)
    (hidle : d.coveBusy n = false) (hcid : (d.cove n).freezeCid = some cid) : Does (.coveFreezeComplete n) d
      (((d.setCove n { d.cove n with state := 3, freezeCid := none }).inc (pgCOV + 0x908)).complete 0 cid 0 0) := by
  refine does_of (exec_coveFreezeComplete n) ((Dev.when_pos _ (by simp [hstate, hfw, hs, hidle])).trans ?_)
  simp only [hcid]

/-- COVE_SAVE of a frozen cove writes its image to scratch memory apart from every cove. -/
theorem does_coveSave {img : List Byte} {bad : Bool} (hcmd : d.cmd? 0 cid 0x0106 = some c) (hn : leAt c.param 0 1 = n)
    (hle : n ≤ 63) (hstate : (d.cove n).state = 3) (himg : d.saveImage n = (img, bad, e)) (hlen : img.length ≤ c.buflen)
    (hscratch : d.inScratch c.buf img.length = true) (hmem : inUserMem c.buf img.length = true)
    (hclear : d.clearOfCoves c.buf img.length = true) :
    Does (.coveSave cid) d ((e.memWrite pgFWR 0x40 c.buf img bad).complete 0 cid 0 img.length) := by
  refine does_coveCmd (exec_coveSave cid) hcmd hn hle (by simp [hstate]) (by decide) ?_
  simp only [himg]
  rw [if_neg (Nat.not_lt.2 hlen), if_neg (by rw [hscratch, hmem, hclear]; exact Bool.false_ne_true)]

/-- COVE_RESTORE to a frozen cove that has not worked, of an image of its shape, loads it. -/
theorem does_coveRestore {l : List Byte} {m o : Nat} (hcmd : d.cmd? 0 cid 0x0107 = some c) (hn : leAt c.param 0 1 = n)
    (hle : n ≤ 63) (hstate : (d.cove n).state = 3) (hworked : (d.cove n).worked = false)
    (hmem : inUserMem c.buf c.buflen = true) (hread : d.memRead pgFWR 0x40 c.buf c.buflen = (l, false, e))
    (hgood : e.saveBad l false = false) (hparse : parseCfg ((l.drop 32).take 384) = some (m, g))
    (ho : o = 432 + 16 * leAt l 6 2 + 576 * popN g.sqMask 32) (hsize : leAt l 12 4 = o + 256 * leAt l 8 4)
    (hshape : sameShape g (d.cove n).cfg = true)
    (hrings : leAt l 6 2 = (bitList (d.cove n).cfg.ringMask 256).length) (hctxs : leAt l 8 4 ≤ (e.namedCtxs n).length) :
    Does (.coveRestore cid) d ((e.loadSave n l o (leAt l 8 4)).complete 0 cid 0 0) := by
  refine does_coveCmd (exec_coveRestore cid) hcmd hn hle (by simp [hstate]) (by decide) ?_
  subst ho
  dsimp only
  rw [if_neg (Bool.eq_false_iff.1 hworked), if_neg (not_eq_true_not hmem)]
  simp only [hread, hgood, hparse, Bool.false_eq_true, if_false]
  rw [if_neg (not_not_intro hsize), if_neg (by simp [hshape, hrings, hctxs])]

/-- COVE_QUERY of a cove in use, by the driver or the cove itself, answers with its configuration. -/
theorem does_coveQuery {q : Fin 256} (hcmd : d.cmd? q cid 0x0108 = some c) (hn : leAt c.param 0 1 = n) (hle : n ≤ 63)
    (hmay : (d.ring q).driver = true ∨ n = (d.ring q).cove) (hused : (d.cove n).state ≠ 0) :
    Does (.coveQuery q cid) d (d.answer c (padTo 384 (d.cove n).cfg.raw) 0) := by
  refine does_of (exec_coveQuery q cid) ?_
  have hmay' : ¬ (!(d.ring q).driver && n ≠ (d.ring q).cove) = true := by obtain h | h := hmay <;> simp [h]
  simp only [hcmd, hn]
  rw [if_neg hmay', if_neg (Nat.not_lt.2 hle), if_neg hused]

/-! ### Snapshots (R425 to R430, R436 to R440) -/

/-- SNAP_SET of a list of ranges that passes its checks is taken while no snapshot runs. -/
theorem does_snapSet {w : List Byte} (hcmd : d.cmd? 0 cid 0x0200 = some c) (hidle : d.ckp.run = none)
    (hlen : 1216 ≤ c.buflen) (hbuf : d.bufOk c false 1216 = true) (hread : d.memRead pgFWR 0x40 c.buf 1216 = (w, false, e))
    (hok : e.setOk w none = true) : Does (.snapSet cid none) d
      ((e.putSet { raw := w, setMax := leAt w 2 2, ranges := setRanges w }).complete 0 cid 0 0) := by
  refine does_admin (exec_snapSet cid none) hcmd ?_
  rw [if_neg (by simp [hidle]), if_neg (Nat.not_lt.2 hlen), if_neg (not_eq_true_not hbuf)]
  simp only [hread, hok, Bool.not_true, Bool.or_self, Bool.false_eq_true, if_false]

/-- SNAP_ARM with a set and a buddy, while nothing runs, waits for its tide or captures at once. -/
theorem does_snapArm (hcmd : d.cmd? 0 cid 0x0201 = some c) (hidle : d.ckp.run = none) (hrest : d.ckp.restore = none)
    (hset : d.ckp.set.isSome = true) (hnone : d.ckp.armAt = none) (hbuddy : d.buddy.isSome = true)
    (h : (if c.arm then { d.hold c with ckp := { (d.hold c).ckp with armAt := some (cid, c.tide) } }
      else if d.slackNow then (d.hold c).snapCapture cid d.fw.image.ver else d.complete 0 cid 0x0007 0) = e) :
    Does (.snapArm cid) d e := by
  refine does_admin (exec_snapArm cid) hcmd ?_
  rw [if_neg (by simp [hidle, hrest, hnone]), if_neg (by simpa [Option.isSome_iff_ne_none] using hset),
    if_neg (by simpa [Option.isSome_iff_ne_none] using hbuddy), h]

/-- SNAP_RESTORE from the buddy, in slack and with nothing running, reads the metadata of a slot there. -/
theorem does_snapRestore {b x : Nat} (hcmd : d.cmd? 0 cid 0x0204 = some c) (hslack : d.slackNow = true)
    (hidle : d.ckp.run = none) (hrest : d.ckp.restore = none) (hset : d.ckp.set.isSome = true)
    (hsrc : leAt c.param 0 1 ≤ 2) (hbuddy : d.buddy = some b) (hctx : d.buddyCtx = some x) : Does (.snapRestore cid) d
      (let e := (d.hold c).ckpState 3
       ({ e with ckp := { e.ckp with restore := some { cid := cid, src := leAt c.param 0 1 } } } : Dev).readMeta x
         (if leAt c.param 0 1 = 2 then 1 else 0)) := by
  refine does_admin (exec_snapRestore cid) hcmd ?_
  obtain ⟨set, hset'⟩ := Option.isSome_iff_exists.1 hset
  have hlow : ¬ 3 < leAt c.param 0 1 := by omega
  have hbuddy3 : ¬ leAt c.param 0 1 = 3 := by omega
  simp only [hslack, hidle, hrest, hset', hbuddy, hctx, hlow, hbuddy3, Bool.not_true, Bool.false_eq_true, if_false,
    Option.isSome_none, Bool.or_self]

/-- SNAP_STATUS of a device that has taken a snapshot, and whose ward has, answers with both records. -/
theorem does_snapStatus {l : List Byte} (hcmd : d.cmd? 0 cid 0x0203 = some c) (hlast : d.ckp.last ≠ [])
    (hward : d.wardRecord = (some l, e)) : Does (.snapStatus cid) d (e.answer c (d.ckp.last ++ l) 0) := by
  refine does_admin (exec_snapStatus cid) hcmd ?_
  simp only [List.isEmpty_eq_false_iff.2 hlast, Bool.false_eq_true, if_false, hward]

/-- A pre-image that is copied goes to the scratch pool, or ends a snapshot that has no room there. -/
theorem does_preimageCopied {k : Nat} {p : PreImg} (hp : (d.ckp.copying.find? fun p => p.gran == k) = some p)
    (h : (if d.fw.layout.sSize < (d.ckp.pre.length + 1) * 65536 then d.snapEnd 0x0204 else d.preserve p) = e) :
    Does (.preimageCopied k) d e := by
  refine does_of (exec_preimageCopied k) ?_
  simp only [hp]
  exact h

end Sys2Proof.Machine

namespace Sys2Proof
open Machine

/-- Settles O17: each command names a cove, or a snapshot, in a state of its row, and passes the row's checks. That SNAP_ABORT
with nothing running ends OK, and that the pre-image of a granule is kept beside the snapshot until it is copied, are deduced
(log entries 67 and 75). -/
theorem covesAndSnapshotsComplete : Obligations.CovesAndSnapshotsComplete := by
  unfold Obligations.CovesAndSnapshotsComplete
  refine ⟨?_, ?_, ?_, ?_, ?_, ?_, ?_, ?_, ?_⟩
  · intro d fixed hw hunused
    exact does_of (exec_coveModeWrite fixed) ((Dev.onReg_pos _ hw).trans (Dev.coveMode_pos hunused))
  · intro d e cid n c g hcfg hranges
    constructor
    · intro hcmd hfree hpasid hmode htaken
      exact does_coveCreate hcmd hcfg hranges hfree hpasid hmode htaken
    · intro hcmd hstate hmode hpasid harm hnone htaken huse
      exact does_coveResize hcmd hcfg hranges hstate hmode hpasid harm hnone htaken huse
  · intro d cid n c hn hle
    refine ⟨?_, ?_, ?_, ?_, ?_, ?_, ?_⟩
    · intro hcmd hstate harm
      exact does_coveCmd (exec_coveReset cid) hcmd hn hle (by simp [hstate]) (by decide)
        (if_neg (Bool.eq_false_iff.1 harm))
    · intro hcmd hstate
      exact does_coveCmd (exec_coveDestroy cid) hcmd hn hle (by simp [hstate]) (by decide) (if_neg (by omega))
    · intro hcmd hstate
      exact ⟨does_coveFreeze hcmd hn hle hstate, does_coveFreeze_armed hcmd hn hle hstate⟩
    · intro hcmd hstate harm
      exact does_coveCmd (exec_coveThaw cid) hcmd hn hle (by simp [hstate]) (by decide)
        (if_neg (Bool.eq_false_iff.1 harm))
    · intro img bad e hcmd hstate himg hlen hscratch hmem hclear
      exact does_coveSave hcmd hn hle hstate himg hlen hscratch hmem hclear
    · intro l e m g hcmd hstate hworked hmem hread hgood hparse o hsize hshape hrings hctxs
      exact does_coveRestore hcmd hn hle hstate hworked hmem hread hgood hparse rfl hsize hshape hrings hctxs
    · intro q hcmd hmay hused
      exact does_coveQuery hcmd hn hle hmay hused
  · intro d n hfw hs
    refine ⟨?_, ?_, ?_⟩
    · intro cid t old hresize hdone hidle
      exact does_coveResizeComplete hfw hs hresize hdone hidle
    · intro hstate
      exact does_of (exec_covePurgeDeadline n) (Dev.when_pos _ (by simp [hstate, hfw, hs]))
    · intro cid hstate hidle hcid
      exact does_coveFreezeComplete hfw hs hstate hidle hcid
  · intro d e cid c w hcmd hidle hlen hbuf hread hok
    exact does_snapSet hcmd hidle hlen hbuf hread hok
  · intro d cid c hidle hrest hset
    constructor
    · intro hcmd hnone hbuddy
      refine ⟨fun harm => ?_, fun harm hslack => ?_⟩
      · exact does_snapArm hcmd hidle hrest hset hnone hbuddy (if_pos harm)
      · exact does_snapArm hcmd hidle hrest hset hnone hbuddy
          ((if_neg (Bool.eq_false_iff.1 harm)).trans (if_pos hslack))
    · intro b x hcmd hslack hsrc hbuddy hctx
      exact does_snapRestore hcmd hslack hidle hrest hset hsrc hbuddy hctx
  · intro d cid c
    exact ⟨fun hcmd => does_admin (exec_snapAbort cid) hcmd rfl,
      fun l e hcmd hlast hward => does_snapStatus hcmd hlast hward⟩
  · intro d g p hp
    exact ⟨fun hroom => does_preimageCopied hp (if_neg (Nat.not_lt.2 hroom)),
      fun hfull => does_preimageCopied hp (if_pos hfull)⟩
  · intro d hs hstarts hemh hhold
    exact does_of exec_snapshotCopy (Dev.when_pos _ (by simp [hs, hstarts, hemh, hhold]))

end Sys2Proof
end

