-- ==== Sys2Proof/Proofs/Network.lean ====
section
/-!
PROOF. Proofs/Network.lean: frames received, delivered and sent, host pairs, rules, ports and soundings; O18.
-/
namespace Sys2Proof.Machine

variable {d : Dev}

/-! ### Frames sent, and soundings (R354 to R362) -/

/-- The frame at the head of a queue whose node and queue have their turn, at a port that may send, is sent. -/
theorem does_tsqSend {q : Fin 4096} {head : List Byte} {f : Frame} {dn dq : Map Nat} (hhead : d.headFrame q = some f)
    (hnode : d.drr (d.tsqNodes (d.nodeOf q) f.len) (0x10000 + d.nodeOf q) = some dn)
    (hqueue : d.drr (d.tsqQueues (d.nodeOf q)) q = some dq)
    (hs : d.safe = false) (hup : d.netUp (d.portOf (d.nodeOf q)) = true) (hhold : d.tide.hold = false)
    (hstarts : d.starts pgTSQ = true) (hflow : d.mayFlow (0x20000 + d.portOf (d.nodeOf q)) = true)
    (hroom : d.frameLoops f head = false ∨ d.net.reorder.length < 4096) :
    Does (.tsqSend q head) d (d.sendFrame q f dn dq head) := by
  refine does_of (exec_tsqSend q head) ?_
  have hroom' : (!d.frameLoops f head || decide (d.net.reorder.length < 4096)) = true := by
    obtain h | h := hroom <;> simp [h]
  simp only [hhead, hnode, hqueue]
  exact Dev.when_pos _ (by rw [hs, hup, hhold, hstarts, hflow, hroom']; rfl)

/-- A sweep of soundings that fits in its ring is put there. -/
theorem does_soundingSweep (hon : d.g (pgTSQ + 0x1b4) 0 16 ≠ 0)
    (hle : d.g (pgTSQ + 0x1b8) 0 12 ≤ d.g (pgTSQ + 0x1b8) 16 12) (hs : d.safe = false) (hstarts : d.starts pgTSQ = true)
    (hfw : d.fwRunning = true)
    (hroom : (d.g (pgTSQ + 0x1c8) 0 20 + 2 ^ d.g (pgTSQ + 0x1c4) 0 5 -
        d.g (pgTSQ + 0x1cc) 0 20 % 2 ^ d.g (pgTSQ + 0x1c4) 0 5) % 2 ^ d.g (pgTSQ + 0x1c4) 0 5 +
      (d.g (pgTSQ + 0x1b8) 16 12 + 1 - d.g (pgTSQ + 0x1b8) 0 12) < 2 ^ d.g (pgTSQ + 0x1c4) 0 5) :
    Does .soundingSweep d
      (d.soundPut (d.g (pgTSQ + 0x1b8) 0 12) (d.g (pgTSQ + 0x1b8) 16 12 + 1 - d.g (pgTSQ + 0x1b8) 0 12)) :=
  does_of exec_soundingSweep ((Dev.when_pos _ (by simp [hon, hle, hs, hstarts, hfw])).trans (if_neg (Nat.not_le.2 hroom)))

end Sys2Proof.Machine

namespace Sys2Proof
open Machine

/-- Settles O18: each command finds its port, its queue or its registers in the state that it acts in. -/
theorem networkCommandsComplete : Obligations.NetworkCommandsComplete := by
  unfold Obligations.NetworkCommandsComplete
  refine ⟨?_, ?_, ?_, ?_, ?_, ?_, ?_, ?_⟩
  · intro d p len corr bytes emh fcs fec hup hen
    exact does_of (exec_frameReceive p len bytes emh fcs fec corr) (Dev.when_pos _ (by rw [hup, hen]; rfl))
  · intro d i f desc hf hmay
    refine does_of (exec_packetDeliver i desc) ?_
    simp only [hf]
    exact Dev.when_pos _ hmay
  · intro d v
    exact ⟨fun hw => does_of (exec_ruleInstall v) (Dev.onReg_pos _ hw),
      fun hw => does_of (exec_portModeWrite v) (Dev.onReg_pos _ hw),
      fun hw => does_of (exec_portEnWrite v) (Dev.onReg_pos _ hw),
      fun hw => does_of (exec_hnqCfgEnWrite v) (Dev.onReg_pos _ hw),
      fun hw => does_of (exec_hnqTxTailWrite v) (Dev.onReg_pos _ hw),
      fun hw => does_of (exec_hnqRxTailWrite v) (Dev.onReg_pos _ hw)⟩
  · intro d p
    exact does_of (exec_netLinkChange p false) (if_neg Bool.false_ne_true)
  · intro d p hp hport hen
    exact does_of (exec_netLinkChange p true) ((if_pos rfl).trans (Dev.when_pos _ (by simp [hp, hport, hen])))
  · intro d n desc bytes emh poison fail hready
    exact does_of (exec_hnqTxFetch n desc bytes emh poison fail) (Dev.when_pos _ hready)
  · intro d q head f dn dq hhead n hnode hqueue hs hup hhold hstarts hflow hroom
    exact does_tsqSend hhead hnode hqueue hs hup hhold hstarts hflow hroom
  · intro d first last size hon hle hs hstarts hfw hroom
    exact does_soundingSweep hon hle hs hstarts hfw hroom

end Sys2Proof
end

