-- ==== Sys2Proof/Proofs/Connections.lean ====
section
/-!
PROOF. Proofs/Connections.lean: the contexts of the transport, the packets they take, their requests and timers, and regions;
O19.
-/
namespace Sys2Proof.Machine

variable {d e : Dev} {port msn psn : Nat} {k : EmhPkt} {c : Fin 65536} {t : TxPkt}

/-! ### Packets (R371 to R373, R376, R380 to R384) -/

/-- A packet that a context knows is taken, and its row's effect follows. -/
theorem Dev.emhIn_pos {ops : List Nat} (f : Nat → Dev → Dev) (hk : d.knows k) (hop : k.op ∈ ops) :
    d.emhIn port k ops f = f k.dconn ((d.takingPkt port k).cTouch k.dconn) := by
  obtain ⟨hup, hsum, hen, hver, hdomain, hddev, hstate, hsdev, hsconn, hepoch, hhold, hcalm⟩ := hk
  have htaken : ¬ (!ops.contains k.op || d.tide.hold || !d.calm) = true := by simp [hop, hhold, hcalm]
  have hgood : ¬ (k.ver ≠ 1 || k.domain ≠ d.g (pgEMH + 0x108) 16 16 || k.ddev ≠ d.g (pgEMH + 0x108) 0 10
      || d.cState k.dconn == 0 || k.sdev ≠ d.cPeer k.dconn || k.sconn ≠ d.cf k.dconn 6 2
      || (k.op ≠ 7 && k.epoch ≠ d.cf k.dconn 3 1)) = true := by
    obtain h | h := hepoch <;> simp [hver, hdomain, hddev, hstate, hsdev, hsconn, h]
  rw [Dev.emhIn, if_neg htaken]
  exact (if_neg (not_eq_true_not hup)).trans ((if_neg (not_eq_true_not hsum)).trans
    ((if_neg (not_eq_true_not hen)).trans (if_neg hgood)))

theorem does_packet {i : Instr} {ops : List Nat} {f : Nat → Dev → Dev}
    (hexec : ∀ s, exec i s = lift (fun d => d.emhIn port k ops f) s) (hk : d.knows k) (hop : k.op ∈ ops)
    (h : f k.dconn ((d.takingPkt port k).cTouch k.dconn) = e) : Does i d e :=
  does_of hexec ((Dev.emhIn_pos f hk hop).trans h)

/-- CONNECT at a context that listens, or that is open already. -/
theorem does_connectPkt {x : Dev} (hk : d.knows k) (hx : (d.takingPkt port k).cTouch k.dconn = x) (hop : k.op = 7)
    (hstate : x.cState k.dconn = 1 ∨ x.cState k.dconn = 3) : Does (.connectPkt port k) d (x.connectIn k.dconn k) := by
  refine does_packet (exec_connectPkt port k) hk (by simp [hop]) ?_
  rw [hx]
  exact if_pos (by obtain h | h := hstate <;> simp [h])

/-- A probe's answer on a path of the context that is down brings it up. -/
theorem does_probeAckPkt {x : Dev} (hk : d.knows k) (hx : (d.takingPkt port k).cTouch k.dconn = x) (hop : k.op = 12)
    (hstate : x.cState k.dconn ≠ 6) (hpath : k.path % 8 < x.cf k.dconn 8 1)
    (hdown : bitN (x.cf k.dconn 9 1) (k.path % 8) = false) :
    Does (.probeAckPkt port k) d (x.pathUp k.dconn (k.path % 8)) := by
  refine does_packet (exec_probeAckPkt port k) hk (by simp [hop]) ?_
  rw [hx]
  exact if_neg (by simp [hstate, Nat.not_le.2 hpath, hdown])

/-- A NAK of a packet that the context has sent, once counted, is acted on. -/
theorem does_nakPkt {x : Dev} (hk : d.knows k) (hx : (d.takingPkt port k).cTouch k.dconn = x) (hop : k.op = 6)
    (hstate : (x.nakCount k.dconn (beAt k.payload 0 2)).cState k.dconn = 3)
    (ht : (x.nakCount k.dconn (beAt k.payload 0 2)).txOf k.dconn (beAt k.payload 4 4) = some t) :
    Does (.nakPkt port k) d
      ((x.nakCount k.dconn (beAt k.payload 0 2)).nakOf k.dconn (beAt k.payload 0 2) t) := by
  refine does_packet (exec_nakPkt port k) hk (by simp [hop]) ?_
  simp only [hx, ht]
  exact if_neg (by simp [hstate])

/-- A data packet that is new to an open context, of an operation of its service, is taken in. -/
theorem does_dataPacket {x : Dev} (hk : d.knows k) (hx : (d.takingPkt port k).cTouch k.dconn = x)
    (hstate : x.cState k.dconn = 3) (hpsn : psnLt k.psn (x.cf k.dconn 112 4) = false) (hnew : k.psn ∉ (x.ctx k.dconn).ahead)
    (hop : (k.op = 1 ∧ (x.cService k.dconn = 1 ∨ x.cService k.dconn = 2)) ∨
      ((k.op = 2 ∨ k.op = 3 ∨ k.op = 4) ∧ x.cService k.dconn = 0)) :
    Does (.dataPacket port k) d (x.dataIn k.dconn k) := by
  have hops : k.op ∈ [1, 2, 3, 4] := by
    simp only [List.mem_cons, List.not_mem_nil, or_false]
    omega
  have hservice : ¬ (if k.op = 1 then !(x.cService k.dconn == 1 || x.cService k.dconn == 2)
      else decide (x.cService k.dconn ≠ 0)) = true := by
    obtain ⟨h1, hsv⟩ | ⟨hrest, hsv⟩ := hop
    · rw [if_pos h1]
      obtain h | h := hsv <;> simp [h]
    · rw [if_neg (by omega), hsv]
      exact Bool.false_ne_true
  refine does_packet (exec_dataPacket port k) hk hops ?_
  rw [hx]
  exact (if_neg (by simp [hstate])).trans ((if_neg (by simp [hpsn, hnew])).trans (if_neg hservice))

/-! ### Requests that stall (R379) -/

/-- A stalled request whose memory is here goes on. -/
theorem does_sendStallRecheck_here {r : Req} (hemh : d.emhOn = true) (htakes : d.takesWork = true)
    (hr : (d.ctx c).stalled = some r) (hhere : d.localSegs c r = none) : Does (.sendStallRecheck c false) d
      (((d.setCtx { d.ctx c with stalled := none }).tryIssue c r).ctxSettle c) := by
  refine does_of (exec_sendStallRecheck c false) ?_
  simp only [hr, hhere]
  rw [if_neg (by simp [hemh, htakes]), if_neg (by simp), if_pos (by simp)]

/-- One whose memory is still not here when its time is over fails. -/
theorem does_sendStallRecheck_expired {r : Req} {l : List (Nat × Nat)} {p : Nat} {g : List Nat} (hemh : d.emhOn = true)
    (htakes : d.takesWork = true) (hr : (d.ctx c).stalled = some r) (hgone : d.localSegs c r = some (l, p :: g)) :
    Does (.sendStallRecheck c true) d
      (((d.setCtx { d.ctx c with stalled := none }).endReq c { r with msn := 2 ^ 32 } 0x23).ctxSettle c) := by
  refine does_of (exec_sendStallRecheck c true) ?_
  simp only [hr, hgone]
  rw [if_neg (by simp [hemh, htakes]), if_pos (by simp)]

/-! ### Timers of packets sent (R381 to R384) -/

theorem does_nakResend (ht : d.txOf c psn = some t) (hemh : d.emhOn = true) (hcalm : d.calm = true) (hstate : d.cState c = 3)
    (hdelayed : t.delayed = true) : Does (.nakResend c psn) d
      (d.transmit c t (if bitN (d.cf c 9 1) t.path then t.path else d.otherPath c t.path) false) := by
  refine does_of (exec_nakResend c psn) ?_
  simp only [ht]
  exact if_pos (by simp [hdelayed, hemh, hcalm, hstate])

theorem does_rtoExpiry (ht : d.txOf c psn = some t) (hemh : d.emhOn = true) (hcalm : d.calm = true) (hstate : d.cState c = 3)
    (hdelayed : t.delayed = false) : Does (.rtoExpiry c psn) d (d.rtoExpired c t) := by
  refine does_of (exec_rtoExpiry c psn) ?_
  simp only [ht]
  exact if_neg (by simp [hdelayed, hemh, hcalm, hstate])

/-- A message one of whose packets has been refused for a reason until its time is over ends with the reason's status. -/
theorem Dev.waitedOut_pos {p : Nat → Bool} {status : Nat} (hup : d.emhUp = true) (hmem : t ∈ (d.ctx c).tx)
    (hsent : t.sent = true) (hmsn : t.pkt.msn = msn) (hop : t.pkt.op ≠ 4) (hp : p t.nak = true) :
    d.waitedOut c msn p status = ((d.endMsn c msn status).setUna c).ctxSettle c := by
  have hany : ((d.ctx c).tx.any fun t => t.sent && t.pkt.msn == msn && t.pkt.op ≠ 4 && p t.nak) = true :=
    List.any_eq_true.2 ⟨t, hmem, by simp [hsent, hmsn, hop, hp]⟩
  exact if_pos (Bool.and_eq_true_iff.2 ⟨hup, hany⟩)

end Sys2Proof.Machine

namespace Sys2Proof
open Machine

/-- Settles O19: each packet is one that its context knows, and each context, request, timer and region is in the state that its
command acts in. -/
theorem transportCommandsComplete : Obligations.TransportCommandsComplete := by
  unfold Obligations.TransportCommandsComplete
  refine ⟨?_, ?_, ?_, ?_, ?_, ?_, ?_, ?_, ?_, ?_, ?_, ?_⟩
  · intro d c hw
    exact ⟨does_of (exec_connListen c) (Dev.onReg_pos _ hw), does_of (exec_connOpen c) (Dev.onReg_pos _ hw),
      does_of (exec_connClose c) (Dev.onReg_pos _ hw), does_of (exec_connReset c) (Dev.onReg_pos _ hw),
      does_of (exec_connRepoint c) (Dev.onReg_pos _ hw)⟩
  · intro d c tail hw
    exact does_of (exec_sqDbWrite c tail) (Dev.onReg_pos _ hw)
  · intro d port k hk c x
    refine ⟨?_, ?_, ?_, ?_, ?_, ?_, fun hopen => ⟨?_, ?_, ?_⟩⟩
    · intro hop hstate
      exact does_connectPkt hk rfl hop hstate
    · intro hop hstate
      exact does_packet (exec_acceptPkt port k) hk (by simp [hop]) (if_pos hstate)
    · intro hop hstate
      exact does_packet (exec_closePkt port k) hk (by simp [hop]) (if_neg hstate)
    · intro hop hstate
      exact does_packet (exec_resetPkt port k) hk (by simp [hop]) (if_neg hstate)
    · intro hop hstate
      exact does_packet (exec_probePkt port k) hk (by simp [hop]) (if_neg hstate)
    · intro hop hstate hpath hdown
      exact does_probeAckPkt hk rfl hop hstate hpath hdown
    · intro hop
      exact does_packet (exec_ackPkt port k) hk (by simp [hop]) (if_neg (by simp +zetaDelta only at hopen; simp [hopen]))
    · intro t hop hstate ht
      exact does_nakPkt hk rfl hop hstate ht
    · intro hpsn hnew hop
      exact does_dataPacket hk rfl hopen hpsn hnew hop
  · intro d c hstate
    exact ⟨fun hup => does_of (exec_openTimeout c) (Dev.when_pos _ (by simp [hup, hstate])),
      does_of (exec_connectRetry c) (Dev.when_pos _ (by simp [hstate]))⟩
  · intro d c hmay
    exact does_of (exec_workRequestFetch c) (Dev.when_pos _ hmay)
  · intro d c r hemh htakes hr
    exact ⟨does_sendStallRecheck_here hemh htakes hr, fun l p g => does_sendStallRecheck_expired hemh htakes hr⟩
  · intro d c hemh hdue
    exact does_of (exec_ackSend c) (Dev.when_pos _ (by rw [hemh, hdue]; rfl))
  · intro d c psn t ht hemh hcalm hstate
    exact ⟨does_nakResend ht hemh hcalm hstate, does_rtoExpiry ht hemh hcalm hstate⟩
  · intro d c msn t hup hmem hsent hmsn hop
    refine ⟨fun hnak => ?_, fun hnak => ?_⟩
    · exact does_of (exec_notReadyTimeout c msn) (Dev.waitedOut_pos hup hmem hsent hmsn hop (by simpa using hnak))
    · exact does_of (exec_pageTimeout c msn) (Dev.waitedOut_pos hup hmem hsent hmsn hop (by simp [hnak]))
  · intro d c p hstate hp hdown
    exact does_of (exec_probeTimer c p) (Dev.when_pos _ (by simp [hstate, hp, hdown]))
  · intro d hw
    exact ⟨does_of exec_regOpen (Dev.onReg_pos _ hw), does_of exec_regClose (Dev.onReg_pos _ hw)⟩
  · intro d i hstate hup
    exact does_of (exec_regionCloseTimeout i) (Dev.when_pos _ (by simp [hstate, hup]))

end Sys2Proof
end

