-- ==== Sys2Proof/Proofs/Targets.lean ====
section
/-!
PROOF. Proofs/Targets.lean: the commands that hosts send to the storage target, its SSDs and its namespaces; O20.
-/
namespace Sys2Proof.Machine

variable {d : Dev} {conn cid nsid slba nlb : Nat} {x : NvCtl}

/-! ### The queues of a controller (R399) -/

/-- An admin command of a live controller runs when the target is enabled, for service or for maintenance as the
command asks. -/
theorem Dev.nvAdmin_pos {service maint : Bool} (f : NvCtl → Dev → Dev) (h : d.hosts conn x false)
    (hmode : ((d.nvMode == 1 && service) || (d.nvMode == 2 && maint)) = true) :
    d.nvAdmin conn cid service maint f = f { x with last := d.trclk } (d.nvTouch x) := by
  obtain ⟨hup, q, hconn, hready, hqid, hctl⟩ := h
  have hq : ¬(!q.ready || decide (q.qid ≠ 0)) = true := by rw [hready, hqid]; decide
  rw [Dev.nvAdmin, if_neg (by rw [hup]; decide), hconn]
  refine (if_neg hq).trans ?_
  rw [hctl]
  exact if_pos hmode

theorem Dev.nvAdmin_service {maint : Bool} (f : NvCtl → Dev → Dev) (h : d.hosts conn x false) (hmode : d.nvMode = 1) :
    d.nvAdmin conn cid true maint f = f { x with last := d.trclk } (d.nvTouch x) :=
  Dev.nvAdmin_pos f h (by rw [hmode]; rfl)

theorem Dev.nvAdmin_maint {service : Bool} (f : NvCtl → Dev → Dev) (h : d.hosts conn x false) (hmode : d.nvMode = 2) :
    d.nvAdmin conn cid service true f = f { x with last := d.trclk } (d.nvTouch x) :=
  Dev.nvAdmin_pos f h (by rw [hmode]; cases service <;> rfl)

/-- A command on the blocks of a namespace that nothing refuses is accepted. -/
theorem Dev.nvBlock_accepted {op : NvOp} {lbas : List (Nat × Nat)} {mdts fua : Bool} {data : List Byte}
    (h : d.hosts conn x true)
    (hok : (d.nvTouch x).nvRefuse { x with last := d.trclk } nsid
      (lbas.map fun e => (e.1 * (d.nvTouch x).nsLb (nsid - 1), e.2 * (d.nvTouch x).nsLb (nsid - 1))) mdts = none) :
    d.nvBlock conn cid nsid op lbas mdts fua data = (d.nvTouch x).nvAccept
      { seq := 0, conn := conn, cid := cid, op := op, nss := [nsid - 1], fua := fua, data := data,
        ext := lbas.map fun e => (e.1 * (d.nvTouch x).nsLb (nsid - 1), e.2 * (d.nvTouch x).nsLb (nsid - 1)) } := by
  rw [Dev.nvBlock, Laws.nvIo_pos h]
  simp only [hok]

/-! ### Connections (R398, R399) -/

theorem does_nvmeIcreq {q : NvConn} {hpda m : Nat} {hd dd : Bool} (hq : d.nvConn? conn = some q) (hup : d.nvUp = true)
    (hready : q.ready = false) (hle : hpda ≤ 31) : Does (.nvmeIcreq conn hpda m hd dd) d
      ((d.setConn { q with ready := true, hd := hd, dd := dd, maxr2t := m }).nvSend conn (.icResp 0 131072 hd dd)) := by
  refine does_of (exec_nvmeIcreq conn hpda m hd dd) ?_
  simp only [hq]
  exact (Dev.when_pos _ (by rw [hup, hready]; rfl)).trans (if_neg (Nat.not_lt.2 hle))

theorem does_nvmeConnect {q : NvConn} {size kato host k : Nat} (hq : d.nvConn? conn = some q) (hup : d.nvUp = true)
    (hready : q.ready = true) (hctl : q.ctl = none) (hmode : d.nvMode ≠ 0) (hroom : d.nvt.ctls.length < 256)
    (hsize : size ≤ 4095) (hnew : d.nvCtl? k = none) : Does (.nvmeConnect conn cid 0 size kato host k) d
      (((d.setNvCtl { id := k, host := host, kato := if kato = 0 then 0 else max 1000 kato, last := d.trclk }).setConn
        { q with ctl := some k }).nvResp conn cid 0 k) := by
  refine does_of (exec_nvmeConnect conn cid 0 size kato host k) ?_
  simp only [hq]
  refine (Dev.when_pos _ (by rw [hup, hready, hctl]; rfl)).trans ?_
  refine (if_neg hmode).trans ((if_pos trivial).trans ((if_neg (by omega)).trans (if_neg ?_)))
  rw [hnew]
  exact Bool.false_ne_true

theorem does_keepAliveTimeout {k : Nat} {c : NvConn} (hx : d.nvCtl? k = some x)
    (hc : (d.nvt.conns.find? fun c => c.ctl == some k && c.qid == 0) = some c) (hfw : d.fwRunning = true)
    (hkato : x.kato ≠ 0) : Does (.keepAliveTimeout k) d (d.nvTerm c.conn).nvSettle := by
  refine does_of (exec_keepAliveTimeout k) ?_
  simp only [hx, hc]
  exact Dev.when_pos _ (by simp [hfw, hkato])

/-! ### Commands on I/O queues (R403 to R408) -/

theorem does_nvmeFlush (h : d.hosts conn x true)
    (hok : (d.nvTouch x).nvRefuse { x with last := d.trclk } nsid [] false = none) (hone : nsid ≠ 0xffffffff) :
    Does (.nvmeFlush conn cid nsid) d
      ((d.nvTouch x).nvAccept { seq := 0, conn := conn, cid := cid, op := .flush, nss := [nsid - 1] }) := by
  refine does_of (exec_nvmeFlush conn cid nsid) ((Laws.nvIo_pos h).trans ((if_neg hone).trans ?_))
  simp only [hok]

theorem does_h2cDataPdu {off : Nat} {data : List Byte} {q : NvConn} {c : NvCmd} {r : Nat × Nat} (hup : d.nvUp = true)
    (hq : d.nvConn? conn = some q)
    (hc : (d.nvt.cmds.find? fun c => c.conn == conn && c.cid == cid && c.op == .write && c.phase == 1) = some c)
    (hr : (c.r2t.find? fun r => decide (r.1 ≤ off) && decide (off + data.length ≤ r.1 + r.2)) = some r) :
    Does (.h2cDataPdu conn cid off data true true) d (d.h2cPlace c r off data) := by
  refine does_of (exec_h2cDataPdu conn cid off data true true) ?_
  refine (Dev.when_pos _ (by rw [hup, hq]; rfl)).trans ((if_neg Bool.false_ne_true).trans ?_)
  simp only [hc, hr]
  exact if_neg Bool.false_ne_true

/-! ### Admin commands (R409 to R418) -/

/-- The command that an abort names, where it still waits for its data, ends as aborted. -/
theorem does_nvmeAbort_waiting {sqid target : Nat} {c : NvCmd} (h : d.hosts conn x false) (hmode : d.nvMode = 1)
    (hc : ((d.nvTouch x).nvt.cmds.find? fun c =>
      (((d.nvTouch x).nvt.conns.filter fun c => c.ctl == some x.id && c.qid == sqid).map (·.conn)).contains c.conn &&
        c.cid == target && c.phase == 0) = some c) :
    Does (.nvmeAbort conn cid sqid target) d
      (((((d.nvTouch x).nvEnd c 0x07 0).inc (pgNVT + 0x820)).nvResp conn cid 0 0).nvSettle) := by
  refine does_of (exec_nvmeAbort conn cid sqid target) ((Dev.nvAdmin_service _ h hmode).trans ?_)
  simp only [hc]

/-- An abort that finds no such command says so in its answer. -/
theorem does_nvmeAbort_missed {sqid target : Nat} (h : d.hosts conn x false) (hmode : d.nvMode = 1)
    (hc : ((d.nvTouch x).nvt.cmds.find? fun c =>
      (((d.nvTouch x).nvt.conns.filter fun c => c.ctl == some x.id && c.qid == sqid).map (·.conn)).contains c.conn &&
        c.cid == target && c.phase == 0) = none) :
    Does (.nvmeAbort conn cid sqid target) d (((d.nvTouch x).inc (pgNVT + 0x824)).nvResp conn cid 0 1) := by
  refine does_of (exec_nvmeAbort conn cid sqid target) ((Dev.nvAdmin_service _ h hmode).trans ?_)
  simp only [hc]

theorem does_nvmeAsyncEventRequest (h : d.hosts conn x false) (hmode : d.nvMode = 1) (hnone : x.notes = []) :
    Does (.nvmeAsyncEventRequest conn cid) d
      ((d.nvTouch x).setNvCtl { x with last := d.trclk, aers := x.aers ++ [cid] }) := by
  refine does_of (exec_nvmeAsyncEventRequest conn cid) ((Dev.nvAdmin_service _ h hmode).trans ?_)
  simp only [hnone]

/-- A format of one namespace that is attached, at rest and on an SSD that is ready begins. -/
theorem does_nvmeFormatNvm {lbaf ses : Nat} (h : d.hosts conn x false) (hmode : d.nvMode = 1) (hses : ses < 2)
    (hlbaf : lbaf < 2) (hzero : nsid ≠ 0) (hone : nsid ≠ 0xffffffff)
    (hatt : (d.nvTouch x).nsAttached { x with last := d.trclk } (nsid - 1) = true) (hsan : (d.nvTouch x).nvt.san ≠ 2)
    (hrest : nsid - 1 ∉ (d.nvTouch x).nvt.formatting)
    (hready : (d.nvTouch x).ssdReady ((d.nvTouch x).nsPort (nsid - 1)) = true) :
    Does (.nvmeFormatNvm conn cid nsid lbaf ses) d ((d.nvTouch x).format conn cid lbaf ses [nsid - 1]) := by
  refine does_of (exec_nvmeFormatNvm conn cid nsid lbaf ses) ((Dev.nvAdmin_service _ h hmode).trans ?_)
  simp only [if_neg hone]
  rw [if_neg (by omega), if_neg (by simp [hzero, hatt]), if_neg hsan, if_neg (by simpa using hrest),
    if_neg (by simp [hready])]

theorem does_nvmeSanitize {a : Nat} (h : d.hosts conn x false) (hmode : d.nvMode = 1) (ha : a = 2 ∨ a = 4)
    (hsan : (d.nvTouch x).nvt.san ≠ 2) : Does (.nvmeSanitize conn cid a) d ((d.nvTouch x).sanitize conn cid a) :=
  does_of (exec_nvmeSanitize conn cid a)
    ((Dev.nvAdmin_service _ h hmode).trans ((if_neg (by omega)).trans (if_neg hsan)))

/-! ### The SSDs behind the target (R419 to R423) -/

theorem does_destage {blk : Nat} {b : NvBlk} (hb : d.nvBlk? (nsid - 1) blk = some b) (hup : d.nvUp = true)
    (hle : 1 ≤ nsid) (hdirty : b.covers ≠ []) (hfree : b.stuck = false) (hready : d.ssdReady (d.nsPort b.ns) = true)
    (hidle : d.beingWritten b = false) : Does (.destage nsid blk) d (d.writeOut b false none).nvSettle := by
  refine does_of (exec_destage nsid blk) ?_
  simp only [hb]
  exact Dev.when_pos _ (by simp [hup, hle, hdirty, hfree, hready, hidle])

theorem does_ssdCommandComplete {id : Nat} {ok : Bool} {data : List Byte} {c : SsdCmd}
    (hc : (d.nvt.out.find? fun o => o.id == id) = some c) (hfw : d.fwRunning = true) :
    Does (.ssdCommandComplete id ok data) d
      ((d.setNvt { d.nvt with out := d.nvt.out.erase c }).ssdOver c ok data).nvSettle := by
  refine does_of (exec_ssdCommandComplete id ok data) ?_
  simp only [hc]
  exact Dev.when_pos _ hfw

theorem does_sanitizeProgressSave {prog : List Nat} {r : NvRecord} (hfw : d.fwRunning = true)
    (hr : d.nvt.record = some r) : Does (.sanitizeProgressSave prog) d
      (d.setNvt { d.nvt with record := some { r with prog := prog } }) := by
  refine does_of (exec_sanitizeProgressSave prog) ((Dev.when_pos _ hfw).trans ?_)
  simp only [hr]

end Sys2Proof.Machine

namespace Sys2Proof
open Machine

/-- Settles O20: each command is served on the queue that it comes on, where nothing refuses it. KATO 0 and the controller's
number as an operand (log entry 57), the layout of Identify (log entry 40, PRESUMED) and the actions of a sanitize (log
entry 59) are the model's choices. -/
theorem storageCommandsComplete : Obligations.StorageCommandsComplete := by
  unfold Obligations.StorageCommandsComplete
  refine ⟨?_, ?_, ?_, ?_, ?_, ?_, ?_, ?_, ?_, ?_, ?_, ?_, ?_, ?_, ?_⟩
  · intro d conn port disc hs hnew
    have hin : (!d.safe && (d.nvConn? conn).isNone) = true := by rw [hs, hnew]; rfl
    exact ⟨fun hmode => does_of (exec_tcpConnectAttempt conn port disc) ((Dev.when_pos _ hin).trans (if_pos hmode)),
      fun hmode => does_of (exec_tcpConnectAttempt conn port disc) ((Dev.when_pos _ hin).trans (if_neg hmode))⟩
  · intro d conn hpda m hd dd q hq hup hready hle
    exact does_nvmeIcreq hq hup hready hle
  · intro d conn cid size kato host k q hq hup hready hctl hmode hroom hsize hnew
    exact does_nvmeConnect hq hup hready hctl hmode hroom hsize hnew
  · intro d conn
    exact does_of (exec_nvmeTcpConnectionClose conn) rfl
  · intro d conn cid nsid slba nlb opc x h
    refine ⟨fun hok => ⟨?_, fun fua data => ?_⟩, fun hok => ⟨?_, ?_⟩, fun hok hone => ?_, fun hopc => ?_⟩
    · exact does_of (exec_nvmeRead conn cid nsid slba nlb) (Dev.nvBlock_accepted h hok)
    · exact does_of (exec_nvmeWrite conn cid nsid slba nlb fua true data)
        ((if_pos rfl).trans (Dev.nvBlock_accepted h hok))
    · exact does_of (exec_nvmeWriteZeroes conn cid nsid slba nlb) (Dev.nvBlock_accepted h hok)
    · exact does_of (exec_nvmeDatasetManagement conn cid nsid true [(slba, nlb)]) (Dev.nvBlock_accepted h hok)
    · exact does_nvmeFlush h hok hone
    · exact does_of (exec_nvmeInvalidOpcode conn cid opc)
        ((Laws.nvIo_pos h).trans (Dev.when_pos _ (by simpa using hopc)))
  · intro d conn cid x h hmode
    refine ⟨fun sqid target => ⟨fun c hc => does_nvmeAbort_waiting h hmode hc,
        fun hc => does_nvmeAbort_missed h hmode hc⟩,
      fun nsid => ?_, fun lid len hlid => ?_, ?_, fun v => ?_, fun ps => ?_, ?_, fun hnone => ?_, ?_, fun v => ?_,
      fun nsid lbaf ses hses hlbaf hzero hone hatt hsan hrest hready => ?_, fun a ha hsan => ?_⟩
    · refine does_of (exec_nvmeIdentify conn cid nsid 1) ((Dev.nvAdmin_service _ h hmode).trans ?_)
      generalize (d.nvTouch x).freeBytes 4096 = p
      exact if_pos rfl
    · refine does_of (exec_nvmeGetLogPage conn cid lid len) ((Dev.nvAdmin_service _ h hmode).trans ?_)
      simp only [if_neg hlid]
    · exact does_of (exec_nvmeGetFeatures conn cid 0xc0) ((Dev.nvAdmin_service _ h hmode).trans (if_pos rfl))
    · exact does_of (exec_nvmeSetFeatures conn cid 7 v) (Dev.nvAdmin_service _ h hmode)
    · exact does_of (exec_nvmePowerStateSet conn cid ps) (Dev.nvAdmin_service _ h hmode)
    · exact does_of (exec_nvmeKeepAlive conn cid) (Dev.nvAdmin_service _ h hmode)
    · exact does_nvmeAsyncEventRequest h hmode hnone
    · exact does_of (exec_nvmePropertyGet conn cid 8) (Dev.nvAdmin_service _ h hmode)
    · exact does_of (exec_nvmePropertySet conn cid 0x14 v) ((Dev.nvAdmin_service _ h hmode).trans (if_pos rfl))
    · exact does_nvmeFormatNvm h hmode hses hlbaf hzero hone hatt hsan hrest hready
    · exact does_nvmeSanitize h hmode ha hsan
  · intro d conn cid x h hmode
    refine ⟨fun off data => ?_, fun slot a => ⟨?_, fun hready => ?_⟩⟩
    · exact does_of (exec_nvmeFirmwareDownload conn cid off data) (Dev.nvAdmin_maint _ h hmode)
    · exact does_of (exec_nvmeFirmwareCommit conn cid slot a false)
        ((Dev.nvAdmin_maint _ h hmode).trans (if_neg Bool.false_ne_true))
    · exact does_of (exec_nvmeFirmwareCommit conn cid slot a true) ((Dev.nvAdmin_maint _ h hmode).trans (if_pos hready))
  · intro d k x c hx hc hfw hkato
    exact does_keepAliveTimeout hx hc hfw hkato
  · intro d conn cid off data q c r hup hq hc hr
    exact does_h2cDataPdu hup hq hc hr
  · intro d nsid blk b hb hup hle hdirty hfree hready hidle
    exact does_destage hb hup hle hdirty hfree hready hidle
  · intro d id ok data c hc hfw
    exact does_ssdCommandComplete hc hfw
  · intro d p silent hready
    exact does_of (exec_ssdLinkDown p silent) (Dev.when_pos _ hready)
  · intro d p cap hfw hdown
    exact does_of (exec_ssdReady p cap) (Dev.when_pos _ (by rw [hfw, hdown]; rfl))
  · intro d prog r hfw hr
    exact does_sanitizeProgressSave hfw hr
  · intro d en maint
    exact ⟨fun hw => ⟨does_of exec_nsInstall (Dev.onReg_pos _ hw), does_of exec_nsRemove (Dev.onReg_pos _ hw)⟩,
      fun hw => does_of (exec_nvtCtlWrite en maint) (Dev.onReg_pos _ hw)⟩

end Sys2Proof
end
